-- ==== Sys2Proof/Word.lean ====
section
/-! DEFINITION. The word types of the Lorsor 9600 and the plain conversions between them (spec/00_scope.md R1). -/
namespace Sys2Proof

/-- One byte of storage. -/
abbrev Byte := BitVec 8
/-- A scalar register, 64 bits (R6). -/
abbrev DWord := BitVec 64
/-- A vector register, 512 bits (R6). -/
abbrev Vec := BitVec 512
/-- An accumulator element, 36 bits (R243). -/
abbrev Acc36 := BitVec 36
/-- A contest word, 49 bits (R114). -/
abbrev CWord := BitVec 49
/-- A 5-bit register field (R291). -/
abbrev Reg := BitVec 5
/-- A list of (address, byte) pairs: see `Mem` in Machine/Ops.lean for the canonical form. -/
abbrev Bytes := List (Nat × Byte)
/-- A table of plain data by number, sorted by key. -/
abbrev Table (α : Type) := List (Nat × α)

end Sys2Proof
end

