-- ==== Sys2Proof/Machine/Flags.lean ====
section
/-! DEFINITION. The arithmetic flags of FPFLAGS (R234) and when a rounding sets each of them (R233). -/
namespace Sys2Proof.Machine

/-- Flags as the six bits of FPFLAGS (R234). -/
abbrev FpFlags := BitVec 6

def flagNV : FpFlags := 0x01
def flagDZ : FpFlags := 0x02
def flagOF : FpFlags := 0x04
def flagUF : FpFlags := 0x08
def flagNX : FpFlags := 0x10
def flagSAT : FpFlags := 0x20

def flagIf (c : Bool) (f : FpFlags) : FpFlags := if c then f else 0

/-- A binary floating-point format (R230, R243): exponent and fraction widths, bias, and whether it lacks infinities. -/
structure FFmt where
  ebits : Nat
  mbits : Nat
  bias : Int
  noInf : Bool
  deriving DecidableEq, Repr

def fp32 : FFmt := { ebits := 8, mbits := 23, bias := 127, noInf := false }
def fp16 : FFmt := { ebits := 5, mbits := 10, bias := 15, noInf := false }
def bf16 : FFmt := { ebits := 8, mbits := 7, bias := 127, noInf := false }
def e4m3 : FFmt := { ebits := 4, mbits := 3, bias := 7, noInf := true }
def e5m2 : FFmt := { ebits := 5, mbits := 2, bias := 15, noInf := false }
def f36 : FFmt := { ebits := 8, mbits := 27, bias := 127, noInf := false }

/-- The exponent of one unit in the last place of the subnormal range (R230). -/
def FFmt.emin (f : FFmt) : Int := 1 - f.bias - f.mbits
/-- The largest finite value is `maxM × 2^maxE` (R230; 448 for E4M3). -/
def FFmt.maxM (f : FFmt) : Nat := if f.noInf then 2 ^ (f.mbits + 1) - 2 else 2 ^ (f.mbits + 1) - 1
def FFmt.maxE (f : FFmt) : Int := (if f.noInf then 2 ^ f.ebits - 1 else 2 ^ f.ebits - 2 : Int) - f.bias - f.mbits
def FFmt.width (f : FFmt) : Nat := 1 + f.ebits + f.mbits

/-- Flags of an overflow (R233). -/
def overflowFlags (f : FFmt) : FpFlags := flagOF ||| flagNX ||| flagIf f.noInf flagSAT

/-- Flags of a delivered finite result: NX when inexact, UF when tiny and inexact (R233). -/
def resultFlags (tiny inexact : Bool) : FpFlags := flagIf inexact flagNX ||| flagIf (tiny && inexact) flagUF

end Sys2Proof.Machine
end

