-- ==== Sys2Proof/Config.lean ====
section
/-! DEFINITION. What one implementation fixes and the spec leaves open, and the values that come from outside: opaque
constants and functions with no body, so that no proof can use a value of them (notes/assumptions 4 and 6). -/
namespace Sys2Proof.Config

/-- Device revision in the identity block (R40): vendor-assigned. -/
opaque deviceRevision : BitVec 16
/-- The rate limit fw5 gives port `p` at boot (R26). -/
opaque portLimit : Nat → BitVec 16
/-- The seed of the DX Ed25519 identity key (R76, R82), whose private half never leaves DX. -/
opaque identitySeed : BitVec 256
/-- The vendor key hash in fuses, its first byte lowest (R75). -/
opaque vendorKeyHash : BitVec 512
/-- The fused minimum security version (R75). -/
opaque minVersion : Nat
/-- The hash of die `d`'s public key, fused in DX at assembly (R78). -/
opaque dieKeyHash : Nat → BitVec 512
/-- The hash of DX's public key, fused in die `d` at assembly (R78). -/
opaque dxKeyHash : Nat → BitVec 512
/-- The AES-256-XTS key pair of the partition key numbered `n`, drawn from the on-die random source (R79). -/
opaque xtsKey : Nat → BitVec 512
/-- The X25519 private value of the partition key numbered `n` (R79). -/
opaque importSecret : Nat → BitVec 256
/-- Bits [43:18] of the frame of a page that fw2 maps itself (R72, R129, R273): partition and page number (log 4). -/
opaque fixedFrame : Nat → Nat → BitVec 26
/-- What a base die's convert gives for an integer that the destination does not hold: formats and operand (log 50). -/
opaque outOfRange : Nat → Nat → Nat → BitVec 64
/-- What a redemption leaves in a BF16 element of W, by the FP32 value formed for it (log 68). -/
opaque narrowElement : Nat → BitVec 16
/-- The word of an element of a reference that lies beyond LM, by its offset (log 68). -/
opaque wordBeyondLm : Nat → BitVec 32
/-- A value the spec leaves free, by a fresh number. -/
opaque freeValue : Nat → BitVec 64

/-- Thresholds of R286: a core structure, an L2 home slice, a 256 KiB HBM frame. -/
def coreThreshold : Nat := 16
def sliceThreshold : Nat := 64
def frameThreshold : Nat := 8

end Sys2Proof.Config
end

