-- ==== Sys2Proof/Machine/Crypto.lean ====
section
/-! DEFINITION. The published functions that spec/03_host.md R65 and spec/04_trust.md R75 to R82 name and do not define,
PRESUMED from their standards (log 60): SHA-512 (FIPS 180-4), HMAC and HKDF (RFC 2104, RFC 5869), X25519 (RFC 7748), Ed25519
(RFC 8032), AES-256 (FIPS 197) in GCM (SP 800-38D) and in XTS (IEEE 1619). -/
namespace Sys2Proof.Machine

/-! ### Bytes and numbers -/

/-- The number whose bytes these are, lowest first. -/
def leNat : List Byte → Nat
  | [] => 0
  | b :: bs => b.toNat + 256 * leNat bs

/-- The `n` bytes of a number, lowest first. -/
def natBytes : Nat → Nat → List Byte
  | 0, _ => []
  | n + 1, v => BitVec.ofNat 8 v :: natBytes n (v / 256)

def beNat (bs : List Byte) : Nat := leNat bs.reverse
def beBytes (n v : Nat) : List Byte := (natBytes n v).reverse

/-- The bytes cut or filled with zeros to `n`. -/
def padTo (n : Nat) (bs : List Byte) : List Byte := (bs ++ List.replicate n 0).take n

def xorBytes (a b : List Byte) : List Byte := List.zipWith (· ^^^ ·) a b

/-- The blocks of `n` bytes of a list; the last may be shorter. -/
def blocks (n : Nat) (bs : List Byte) : List (List Byte) :=
  (List.range ((bs.length + n - 1) / n)).map (fun i => (bs.drop (n * i)).take n)

/-! ### SHA-512, HMAC and HKDF -/

/-- The largest `r` with `r ^ k ≤ n`, from its top bit down. -/
def rootBelow (k n : Nat) : Nat → Nat → Nat
  | 0, r => r
  | b + 1, r => rootBelow k n b (if (r + 2 ^ b) ^ k ≤ n then r + 2 ^ b else r)

/-- The first 80 primes. -/
def primes80 : List Nat := (List.range 410).filter (fun p => 2 ≤ p && (List.range p).all (fun d => d < 2 || p % d != 0))

/-- The first 64 bits of the fractional part of the `k`-th root of a prime. -/
def rootFraction (k p : Nat) : DWord := BitVec.ofNat 64 (rootBelow k (p * 2 ^ (64 * k)) 69 0)

def shaKeys : List DWord := primes80.map (rootFraction 3)
def shaStart : List DWord := (primes80.take 8).map (rootFraction 2)

/-- Words 0 to 15 of a block, newest first. -/
def shaBlock (b : List Byte) : List DWord := ((blocks 8 b).map (fun w => BitVec.ofNat 64 (beNat w))).reverse

/-- The next word of the message schedule, before the words so far. -/
def shaNext (w : List DWord) : List DWord :=
  let at' := fun k => w.getD k 0
  let lo := fun (x : DWord) => x.rotateRight 1 ^^^ x.rotateRight 8 ^^^ (x >>> 7)
  let hi := fun (x : DWord) => x.rotateRight 19 ^^^ x.rotateRight 61 ^^^ (x >>> 6)
  (hi (at' 1) + at' 6 + lo (at' 14) + at' 15) :: w

def shaRound (v : List DWord) (kw : DWord × DWord) : List DWord :=
  match v with
  | [a, b, c, d, e, f, g, h] =>
    let t := h + (e.rotateRight 14 ^^^ e.rotateRight 18 ^^^ e.rotateRight 41) + ((e &&& f) ^^^ (~~~e &&& g)) + kw.1 + kw.2
    let u := (a.rotateRight 28 ^^^ a.rotateRight 34 ^^^ a.rotateRight 39) + ((a &&& b) ^^^ (a &&& c) ^^^ (b &&& c))
    [t + u, a, b, c, d + t, e, f, g]
  | _ => v

def shaCompress (h : List DWord) (b : List Byte) : List DWord :=
  let w := ((List.range 64).foldl (fun w _ => shaNext w) (shaBlock b)).reverse
  List.zipWith (· + ·) h ((List.zip shaKeys w).foldl shaRound h)

def shaPad (bs : List Byte) : List Byte :=
  bs ++ [0x80] ++ List.replicate ((239 - bs.length % 128) % 128) 0 ++ beBytes 16 (8 * bs.length)

def sha512 (bs : List Byte) : List Byte :=
  ((blocks 128 (shaPad bs)).foldl shaCompress shaStart).flatMap (fun w => beBytes 8 w.toNat)

def hmac (key msg : List Byte) : List Byte :=
  let k := padTo 128 (if 128 < key.length then sha512 key else key)
  sha512 (k.map (· ^^^ 0x5c) ++ sha512 (k.map (· ^^^ 0x36) ++ msg))

/-- 32 bytes of HKDF-SHA-512. -/
def hkdf (salt secret info : List Byte) : List Byte := (hmac (hmac salt secret) (info ++ [1])).take 32

/-! ### The curve over 2^255 − 19 -/

def curveP : Nat := 2 ^ 255 - 19
/-- The order of the base point. -/
def curveL : Nat := 2 ^ 252 + 27742317777372353535851937790883648493

/-- `b ^ e` modulo `m`, for an exponent of so many bits. -/
def powMod (m b : Nat) : Nat → Nat → Nat
  | 0, _ => 1 % m
  | k + 1, e => let h := powMod m b k (e / 2); if e % 2 = 1 then h * h % m * b % m else h * h % m

def fAdd (a b : Nat) : Nat := (a + b) % curveP
def fSub (a b : Nat) : Nat := (a + (curveP - b % curveP)) % curveP
def fMul (a b : Nat) : Nat := a * b % curveP
def fInv (a : Nat) : Nat := powMod curveP a 256 (curveP - 2)

/-- The scalar of 32 secret bytes. -/
def clamp (k : Nat) : Nat := k % 2 ^ 254 / 8 * 8 + 2 ^ 254

/-- A point of the ladder, X and Z. -/
def ladderDouble (a : Nat × Nat) : Nat × Nat :=
  let p := fMul (fAdd a.1 a.2) (fAdd a.1 a.2)
  let q := fMul (fSub a.1 a.2) (fSub a.1 a.2)
  let e := fSub p q
  (fMul p q, fMul e (fAdd p (fMul 121665 e)))

/-- The sum of two ladder points whose difference has the coordinate `u`. -/
def ladderAdd (u : Nat) (a b : Nat × Nat) : Nat × Nat :=
  let x := fMul (fSub b.1 b.2) (fAdd a.1 a.2)
  let y := fMul (fAdd b.1 b.2) (fSub a.1 a.2)
  (fMul (fAdd x y) (fAdd x y), fMul u (fMul (fSub x y) (fSub x y)))

def ladder (u k : Nat) : Nat → (Nat × Nat) × (Nat × Nat) → (Nat × Nat) × (Nat × Nat)
  | 0, s => s
  | b + 1, (p, q) =>
    ladder u k b (if k.testBit b then (ladderAdd u p q, ladderDouble q) else (ladderDouble p, ladderAdd u p q))

def x25519 (secret u : List Byte) : List Byte :=
  let x := leNat (padTo 32 u) % 2 ^ 255 % curveP
  let r := (ladder x (clamp (leNat (padTo 32 secret))) 255 ((1, 0), (x, 1))).1
  natBytes 32 (fMul r.1 (fInv r.2))

def x25519Public (secret : List Byte) : List Byte := x25519 secret (natBytes 32 9)

/-! ### Ed25519 -/

/-- A point in extended coordinates. -/
structure EdPoint where
  x : Nat
  y : Nat
  z : Nat
  t : Nat
  deriving DecidableEq, Repr

def edD : Nat := fMul (fSub 0 121665) (fInv 121666)
def edZero : EdPoint := { x := 0, y := 1, z := 1, t := 0 }

def edAdd (p q : EdPoint) : EdPoint :=
  let a := fMul (fSub p.y p.x) (fSub q.y q.x)
  let b := fMul (fAdd p.y p.x) (fAdd q.y q.x)
  let c := fMul (fMul (fMul 2 p.t) q.t) edD
  let d := fMul (fMul 2 p.z) q.z
  let e := fSub b a
  let f := fSub d c
  let g := fAdd d c
  let h := fAdd b a
  { x := fMul e f, y := fMul g h, z := fMul f g, t := fMul e h }

/-- The multiple of a point by a scalar of so many bits. -/
def edMul (p : EdPoint) : Nat → Nat → EdPoint
  | 0, _ => edZero
  | b + 1, k => let h := edMul p b (k / 2); if k % 2 = 1 then edAdd (edAdd h h) p else edAdd h h

def edSame (p q : EdPoint) : Bool := fMul p.x q.z = fMul q.x p.z && fMul p.y q.z = fMul q.y p.z

def edEncode (p : EdPoint) : List Byte :=
  let i := fInv p.z
  natBytes 32 (fMul p.y i + 2 ^ 255 * (fMul p.x i % 2))

/-- The point that 32 bytes encode. -/
def edDecode (bs : List Byte) : Option EdPoint :=
  let v := leNat (padTo 32 bs)
  let y := v % 2 ^ 255
  let sign := v / 2 ^ 255 % 2
  let u := fSub (fMul y y) 1
  let w := fAdd (fMul edD (fMul y y)) 1
  let r := fMul u (fInv w)
  let c := powMod curveP r 256 ((curveP + 3) / 8)
  let x := if fMul c c = r then c else fMul c (powMod curveP 2 256 ((curveP - 1) / 4))
  if curveP ≤ y || fMul x x != r || (x = 0 && sign = 1) then none
  else
    let x := if x % 2 = sign then x else fSub 0 x
    some { x := x, y := y, z := 1, t := fMul x y }

def edBase : EdPoint := (edDecode (natBytes 32 (fMul 4 (fInv 5)))).getD edZero

def edScalar (bs : List Byte) : Nat := leNat (sha512 bs) % curveL

def ed25519Public (seed : List Byte) : List Byte := edEncode (edMul edBase 256 (clamp (leNat ((sha512 seed).take 32))))

def ed25519Sign (seed msg : List Byte) : List Byte :=
  let h := sha512 seed
  let key := ed25519Public seed
  let r := edScalar (h.drop 32 ++ msg)
  let rb := edEncode (edMul edBase 256 r)
  rb ++ natBytes 32 ((r + edScalar (rb ++ key ++ msg) * clamp (leNat (h.take 32))) % curveL)

def ed25519Verify (key msg sig : List Byte) : Bool :=
  match edDecode (key.take 32), edDecode (sig.take 32) with
  | some a, some r =>
    let s := leNat ((sig.drop 32).take 32)
    decide (s < curveL) &&
    edSame (edMul (edMul edBase 256 s) 4 8) (edMul (edAdd r (edMul a 256 (edScalar (sig.take 32 ++ key.take 32 ++ msg)))) 4 8)
  | _, _ => false

/-! ### AES-256 -/

/-- Doubling in GF(2^8). -/
def xtime (a : Byte) : Byte := (a <<< 1) ^^^ (if a.msb then 0x1b else 0)

/-- The product in GF(2^8), over so many bits of the first factor. -/
def gfMul : Nat → Byte → Byte → Byte
  | 0, _, _ => 0
  | n + 1, a, b => (if a.getLsbD 0 then b else 0) ^^^ gfMul n (a >>> 1) (xtime b)

def gfSquare (a : Byte) : Byte := gfMul 8 a a

/-- `a ^ 254`: the inverse, 0 for 0. -/
def gfInv (a : Byte) : Byte :=
  let s := (List.range 6).foldl (fun (p : Byte × Byte) _ => let q := gfSquare p.2; (gfMul 8 p.1 q, q)) (gfSquare a, gfSquare a)
  s.1

def sbox (a : Byte) : Byte :=
  let b := gfInv a
  b ^^^ b.rotateLeft 1 ^^^ b.rotateLeft 2 ^^^ b.rotateLeft 3 ^^^ b.rotateLeft 4 ^^^ 0x63

def unsbox (a : Byte) : Byte := gfInv (a.rotateLeft 1 ^^^ a.rotateLeft 3 ^^^ a.rotateLeft 6 ^^^ 0x05)

/-- The next word of the key schedule, before the words so far, newest first. -/
def aesNextKey (w : List (List Byte)) (rcon : Byte) : List (List Byte) :=
  let last := w.headD []
  let mixed := if w.length % 8 = 0 then xorBytes ((last.drop 1 ++ last.take 1).map sbox) [rcon, 0, 0, 0]
    else if w.length % 8 = 4 then last.map sbox else last
  xorBytes (w.getD 7 []) mixed :: w

/-- The 15 round keys. -/
def aesKeys (key : List Byte) : List (List Byte) :=
  let w := (List.range 52).foldl (fun w i => aesNextKey w ((1 : Byte) <<< (i / 8))) (blocks 4 (padTo 32 key)).reverse
  blocks 16 w.reverse.flatten

def shiftRows (n : Nat) (b : List Byte) : List Byte := (List.range 16).map (fun i => b.getD ((i + n * (i % 4)) % 16) 0)

def mixColumns (m : List Byte) (b : List Byte) : List Byte :=
  (List.range 16).map (fun i => (List.range 4).foldl (fun x k =>
    x ^^^ gfMul 8 (m.getD k 0) (b.getD (i / 4 * 4 + (i + k) % 4) 0)) 0)

def aesEncrypt (keys : List (List Byte)) (b : List Byte) : List Byte :=
  let key := fun k => keys.getD k []
  let b := (List.range 13).foldl (fun b r => xorBytes (mixColumns [2, 3, 1, 1] (shiftRows 4 (b.map sbox))) (key (r + 1)))
    (xorBytes b (key 0))
  xorBytes (shiftRows 4 (b.map sbox)) (key 14)

def aesDecrypt (keys : List (List Byte)) (b : List Byte) : List Byte :=
  let key := fun k => keys.getD k []
  let b := (List.range 13).foldl (fun b r => mixColumns [14, 11, 13, 9] (xorBytes ((shiftRows 12 b).map unsbox) (key (13 - r))))
    (xorBytes b (key 14))
  xorBytes ((shiftRows 12 b).map unsbox) (key 0)

/-! ### GCM and XTS -/

/-- The product of GCM's field, whose bit 0 is the first of the block. -/
def ghashMul : Nat → BitVec 128 → BitVec 128 → BitVec 128
  | 0, _, _ => 0
  | n + 1, x, y =>
    (if x.msb then y else 0) ^^^ ghashMul n (x <<< 1) ((y >>> 1) ^^^ (if y.getLsbD 0 then 0xe1#128 <<< 120 else 0))

def gcmTag (keys : List (List Byte)) (iv ct : List Byte) : List Byte :=
  let h := BitVec.ofNat 128 (beNat (aesEncrypt keys (List.replicate 16 0)))
  let bs := (blocks 16 ct).map (padTo 16) ++ [beBytes 16 (8 * ct.length)]
  let y := bs.foldl (fun (y : BitVec 128) b => ghashMul 128 (y ^^^ BitVec.ofNat 128 (beNat b)) h) 0
  xorBytes (beBytes 16 y.toNat) (aesEncrypt keys (iv ++ [0, 0, 0, 1]))

/-- AES-256-GCM with no associated data: the plaintext, or none where the tag fails. -/
def gcmOpen (key iv ct tag : List Byte) : Option (List Byte) :=
  let keys := aesKeys key
  if gcmTag keys iv ct = tag then
    some ((blocks 16 ct).zipIdx.flatMap (fun b => xorBytes b.1 (aesEncrypt keys (iv ++ beBytes 4 (b.2 + 2)))))
  else none

/-- The tweak of block `j` of a data unit: that of block 0 times `x ^ j`. -/
def xtsTweak (t : Nat) : Nat → Nat
  | 0 => t
  | j + 1 => let d := 2 * xtsTweak t j; if 2 ^ 128 ≤ d then (d - 2 ^ 128) ^^^ 0x87 else d

/-- AES-256-XTS of whole blocks that stand from block `j` on in the data unit numbered `unit`; the data key is the first half. -/
def xts (aes : List (List Byte) → List Byte → List Byte) (key : List Byte) (unit j : Nat) (bs : List Byte) : List Byte :=
  let keys := aesKeys (key.take 32)
  let t := leNat (aesEncrypt (aesKeys (key.drop 32)) (natBytes 16 unit))
  (blocks 16 bs).zipIdx.flatMap (fun b =>
    let w := natBytes 16 (xtsTweak t (j + b.2))
    xorBytes (aes keys (xorBytes b.1 w)) w)

def xtsEncrypt : List Byte → Nat → Nat → List Byte → List Byte := xts aesEncrypt
def xtsDecrypt : List Byte → Nat → Nat → List Byte → List Byte := xts aesDecrypt

end Sys2Proof.Machine
end

