-- ==== Sys2Proof/Syntax.lean ====
section
/-! DEFINITION. The instructions of Hjelvis and the operations and events of the package: one constructor of `Instr`
per row of spec/opcode_table.json. Rows with a word carry the word's operand fields (spec/14_isa_formats.md). A row
without a word is an operation or event of the package: what it concerns comes with it as `Input`. -/
namespace Sys2Proof

/-- Lane types of the floating vector majors 0x20 to 0x22 (R298). -/
inductive FLane where | f | bf | h
  deriving DecidableEq, Repr

/-- Lane types of the integer vector majors 0x23 to 0x25 (R298). -/
inductive ILane where | w32 | w16 | w8
  deriving DecidableEq, Repr

/-- The engines of a core that hold a job queue (R164). -/
inductive Engine where | vector | matrix | copy
  deriving DecidableEq, Repr

/-- The mailbox a request arrived on: the management mailbox (R68) or the supervisor mailbox of a partition (R72). -/
inductive MailBox where | management | supervisor (part : Nat)
  deriving DecidableEq, Repr

/-- A register space that the host writes (R40, R42, R76). -/
inductive RegSpace where
  | pf | vf (index : Nat) | msix (index : Nat) | recovery
  deriving DecidableEq, Repr

/-- What another package answers for a member or an access that lies there: data, or the fault its tables give. -/
inductive ExtAnswer where
  | data (bytes : List Byte) | fault (kind sub : Nat) | absent | none
  deriving DecidableEq, Repr

/-- A fabric access arriving from another package (R331): an operation code of R296 with its operand, a read or a write. -/
inductive FabOp where
  | read (len : Nat) | write (bytes : List Byte) | atomic (op : Nat) (dword : Bool) (v : DWord)
  deriving DecidableEq, Repr

structure FabReq where
  srcPkg : Nat
  srcPart : Nat
  part : Nat
  va : Nat
  op : FabOp
  deriving DecidableEq, Repr

/-- A write that the sentinel holds for a dormant partition (R98): of a function's register, a request of another package, one of
this package with the core and key that sent it, a commit of this package's `mcst` or of another's with the member it was staged
for, a debug-window write. -/
inductive HeldWrite where
  | vfReg (vf off : Nat) (value : DWord)
  | fabric (r : FabReq)
  | request (core key : Nat) (r : FabReq)
  | commit (op member : Nat)
  | member (part core ctx va : Nat) (shared : Bool) (bytes : List Byte)
  | window (core off : Nat) (value : DWord)
  | wakeOnly
  deriving DecidableEq, Repr

/-- The structure an error is found in (R286). -/
inductive ErrSite where
  | core (index : Nat) | slice (index : Nat) | line (addr : Nat)
  deriving DecidableEq, Repr

/-- What comes with an operation or event from outside the instruction stream: the agent it concerns and the values
that reach it. The move that makes the event supplies it; a field that the event does not use is that of `Input.none`. -/
structure Input where
  core : Nat
  ctx : Nat
  part : Nat
  vf : Nat
  ring : Nat
  vector : Nat
  ch : Nat
  node : Nat
  op : Nat
  member : Nat
  list : Nat
  entry : Nat
  port : Nat
  die : Nat
  slice : Nat
  va : Nat
  line : Nat
  key : Nat
  off : Nat
  handle : Nat
  amount : Nat
  pkg : Nat
  value : DWord
  ok : Bool
  lanes : BitVec 8
  trained : BitVec 12
  authOk : BitVec 4
  mask : BitVec 128
  flit : BitVec 2048
  src : Nat
  dst : Nat
  msg : BitVec 512
  ext : ExtAnswer
  mailbox : MailBox
  engine : Engine
  shares : List (Nat × Nat)
  space : RegSpace
  site : ErrSite
  req : FabReq
  held : HeldWrite
  foreignSealed : Bool
  deriving DecidableEq, Repr

def Input.none : Input where
  core := 0
  ctx := 0
  part := 0
  vf := 0
  ring := 0
  vector := 0
  ch := 0
  node := 0
  op := 0
  member := 0
  list := 0
  entry := 0
  port := 0
  die := 0
  slice := 0
  va := 0
  line := 0
  key := 0
  off := 0
  handle := 0
  amount := 0
  pkg := 0
  value := 0
  ok := false
  lanes := 0
  trained := 0
  authOk := 0
  mask := 0
  flit := 0
  src := 0
  dst := 0
  msg := 0
  ext := .none
  mailbox := .management
  engine := .vector
  shares := []
  space := .pf
  site := .core 0
  req := { srcPkg := 0, srcPart := 0, part := 0, va := 0, op := .read 0 }
  held := .wakeOnly
  foreignSealed := false

/-- Every row of spec/opcode_table.json: the rows with a word, then the operations and events. -/
inductive Instr where
  -- integer register operations, major 0x00 (R297)
  | add (rd ra rb : Reg) | sub (rd ra rb : Reg) | and (rd ra rb : Reg) | or (rd ra rb : Reg) | xor (rd ra rb : Reg)
  | sll (rd ra rb : Reg) | srl (rd ra rb : Reg) | sra (rd ra rb : Reg) | slt (rd ra rb : Reg) | sltu (rd ra rb : Reg)
  | mul (rd ra rb : Reg) | mulh (rd ra rb : Reg) | mulhN (rd ra rb : Reg)
  | div (rd ra rb : Reg) | divN (rd ra rb : Reg) | rem (rd ra rb : Reg) | remN (rd ra rb : Reg)
  | min (rd ra rb : Reg) | max (rd ra rb : Reg) | minN (rd ra rb : Reg) | maxN (rd ra rb : Reg)
  -- immediate forms (R310, R311)
  | addi (rd ra : Reg) (imm : BitVec 15) | andi (rd ra : Reg) (imm : BitVec 15)
  | ori (rd ra : Reg) (imm : BitVec 15) | xori (rd ra : Reg) (imm : BitVec 15)
  | slli (rd ra : Reg) (sh : BitVec 6) | srli (rd ra : Reg) (sh : BitVec 6) | srai (rd ra : Reg) (sh : BitVec 6)
  | slti (rd ra : Reg) (imm : BitVec 12) | sltiu (rd ra : Reg) (imm : BitVec 12)
  | lui (rd : Reg) (imm : BitVec 20)
  -- branches and jumps (R312 to R314)
  | jalr (rd ra : Reg) (imm : BitVec 15)
  | beq (ra rb : Reg) (off : BitVec 15) | bne (ra rb : Reg) (off : BitVec 15) | blt (ra rb : Reg) (off : BitVec 15)
  | bge (ra rb : Reg) (off : BitVec 15) | bltu (ra rb : Reg) (off : BitVec 15) | bgeu (ra rb : Reg) (off : BitVec 15)
  | j (off : BitVec 25) | jal (off : BitVec 25)
  -- scalar, ring-slot, vector and tile accesses (R332 to R335)
  | ld (rd ra : Reg) (off : BitVec 10) (hint : BitVec 2) (w : BitVec 3)
  | st (rd ra : Reg) (off : BitVec 10) (hint : BitVec 2) (w : BitVec 2)
  | ldIndexed (rd ra rb : Reg) (acq : Bool) (scope : BitVec 3) (w : BitVec 3) (hint : BitVec 2)
  | stIndexed (rd ra rb : Reg) (rel : Bool) (scope : BitVec 3) (w : BitVec 2) (hint : BitVec 2)
  | ldRingSlot (rd : Reg) (h : BitVec 4) (k : BitVec 4) (off : BitVec 8) (w : BitVec 2)
  | stRingSlot (rd : Reg) (h : BitVec 4) (k : BitVec 4) (off : BitVec 8) (w : BitVec 2)
  | ldv (vd ra : Reg) (off : BitVec 10) (hint : BitVec 2) | stv (vd ra : Reg) (off : BitVec 10) (hint : BitVec 2)
  | ldvPair (vd ra : Reg) (off : BitVec 10) (hint : BitVec 2) | stvPair (vd ra : Reg) (off : BitVec 10) (hint : BitVec 2)
  | ldt (hi : Bool) (ra : Reg) (off : BitVec 10) (t : Bool) | stt (hi : Bool) (ra : Reg) (off : BitVec 10) (t : Bool)
  -- remote copies and atomics (R336 to R341)
  | get (tag : BitVec 6) (ra rb : Reg) (x : BitVec 3) | put (tag : BitVec 6) (ra rb : Reg) (x : BitVec 3)
  | ratomAdd (rd ra rb : Reg) (scope : BitVec 3) (rel ret d : Bool) | ratomAnd (rd ra rb : Reg) (scope : BitVec 3) (rel ret d : Bool)
  | ratomOr (rd ra rb : Reg) (scope : BitVec 3) (rel ret d : Bool) | ratomXor (rd ra rb : Reg) (scope : BitVec 3) (rel ret d : Bool)
  | ratomMin (rd ra rb : Reg) (scope : BitVec 3) (rel ret d : Bool) | ratomMax (rd ra rb : Reg) (scope : BitVec 3) (rel ret d : Bool)
  | ratomMinN (rd ra rb : Reg) (scope : BitVec 3) (rel ret d : Bool) | ratomMaxN (rd ra rb : Reg) (scope : BitVec 3) (rel ret d : Bool)
  | ratomSwap (rd ra rb : Reg) (scope : BitVec 3) (rel ret d : Bool) | ratomFadd (rd ra rb : Reg) (scope : BitVec 3) (rel ret : Bool)
  | amoAdd (rd ra rb : Reg) (scope : BitVec 3) (ord : BitVec 2) (d : Bool) | amoAnd (rd ra rb : Reg) (scope : BitVec 3) (ord : BitVec 2) (d : Bool)
  | amoOr (rd ra rb : Reg) (scope : BitVec 3) (ord : BitVec 2) (d : Bool) | amoXor (rd ra rb : Reg) (scope : BitVec 3) (ord : BitVec 2) (d : Bool)
  | amoMin (rd ra rb : Reg) (scope : BitVec 3) (ord : BitVec 2) (d : Bool) | amoMax (rd ra rb : Reg) (scope : BitVec 3) (ord : BitVec 2) (d : Bool)
  | amoMinN (rd ra rb : Reg) (scope : BitVec 3) (ord : BitVec 2) (d : Bool) | amoMaxN (rd ra rb : Reg) (scope : BitVec 3) (ord : BitVec 2) (d : Bool)
  | amoSwap (rd ra rb : Reg) (scope : BitVec 3) (ord : BitVec 2) (d : Bool) | amoCas (rd ra rb : Reg) (scope : BitVec 3) (ord : BitVec 2) (d : Bool)
  | amoFadd (rd ra rb : Reg) (scope : BitVec 3) (ord : BitVec 2)
  | rwb (ra rb : Reg) | rinv (ra rb : Reg)
  | mldred (tag : BitVec 6) (ra rb : Reg) (x : BitVec 3) | mcst (tag : BitVec 6) (ra rb : Reg) (x : BitVec 3)
  -- counters, barriers, supersteps, fences (R343 to R347)
  | cadd (ra rb : Reg) | caddRel (ra rb : Reg) (scope : BitVec 3)
  | cwait (ra rb : Reg) | cwaitAcq (ra rb : Reg) (scope : BitVec 3) | cread (rd ra : Reg)
  | barrRlx (rd : Reg) (b : BitVec 3) | barrRel (rd : Reg) (b : BitVec 3) | bwait (b : BitVec 3) (ra : Reg)
  | bmiss (rd : Reg) (b : BitVec 3) (ra : Reg) | sstep (rd : Reg) (level : BitVec 3) | binit (b : BitVec 3) (ra rd : Reg)
  | fenceAcq (scope : BitVec 3) | fenceRel (scope : BitVec 3) | fenceAr (scope : BitVec 3) | fenceSc (scope : BitVec 3)
  -- tag waits, rings, messages (R348 to R351)
  | twany (rd ra : Reg) | twall (ra : Reg) | tffr (rd ra : Reg)
  | rinit (h : BitVec 4) (ra rb : Reg) | rwf (rd : Reg) (h : BitVec 4) (ra : Reg) | rwe (rd : Reg) (h : BitVec 4) (ra : Reg)
  | radvp (h : BitVec 4) (ra : Reg) | radvc (h : BitVec 4) (ra : Reg) | recv (rd : Reg) (h : BitVec 4)
  | send (rd : Reg) (h : BitVec 4) (ra rb : Reg)
  -- vector arithmetic (R357, R358)
  | vaddFloat (t : FLane) (vd va vb : Reg) (rz : Bool) (m : Option (BitVec 3)) | vsubFloat (t : FLane) (vd va vb : Reg) (rz : Bool) (m : Option (BitVec 3))
  | vmulFloat (t : FLane) (vd va vb : Reg) (rz : Bool) (m : Option (BitVec 3)) | vfma (t : FLane) (vd va vb : Reg) (rz : Bool) (m : Option (BitVec 3))
  | vfnma (t : FLane) (vd va vb : Reg) (rz : Bool) (m : Option (BitVec 3)) | vminFloat (t : FLane) (vd va vb : Reg) (m : Option (BitVec 3))
  | vmaxFloat (t : FLane) (vd va vb : Reg) (m : Option (BitVec 3)) | vabs (t : FLane) (vd va : Reg) (m : Option (BitVec 3))
  | vneg (t : FLane) (vd va : Reg) (m : Option (BitVec 3)) | vdiv (t : FLane) (vd va vb : Reg) (rz : Bool) (m : Option (BitVec 3))
  | vsqrt (t : FLane) (vd va : Reg) (rz : Bool) (m : Option (BitVec 3))
  | vaddInt (t : ILane) (vd va vb : Reg) (m : Option (BitVec 3)) | vsubInt (t : ILane) (vd va vb : Reg) (m : Option (BitVec 3))
  | vmulInt (t : ILane) (vd va vb : Reg) (m : Option (BitVec 3)) | vmulh (t : ILane) (vd va vb : Reg) (n : Bool) (m : Option (BitVec 3))
  | vminInt (t : ILane) (vd va vb : Reg) (n : Bool) (m : Option (BitVec 3)) | vmaxInt (t : ILane) (vd va vb : Reg) (n : Bool) (m : Option (BitVec 3))
  | vand (t : ILane) (vd va vb : Reg) (m : Option (BitVec 3)) | vor (t : ILane) (vd va vb : Reg) (m : Option (BitVec 3))
  | vxor (t : ILane) (vd va vb : Reg) (m : Option (BitVec 3)) | vsll (t : ILane) (vd va vb : Reg) (m : Option (BitVec 3))
  | vsrl (t : ILane) (vd va vb : Reg) (m : Option (BitVec 3)) | vsra (t : ILane) (vd va vb : Reg) (m : Option (BitVec 3))
  | vadds (t : ILane) (vd va vb : Reg) (n : Bool) (m : Option (BitVec 3)) | vsubs (t : ILane) (vd va vb : Reg) (n : Bool) (m : Option (BitVec 3))
  -- compares, moves, conversions, reductions (R359 to R366)
  | vcmpeq (md : BitVec 3) (va vb : Reg) (fmt : BitVec 4) (m : Option (BitVec 3)) | vcmpne (md : BitVec 3) (va vb : Reg) (fmt : BitVec 4) (m : Option (BitVec 3))
  | vcmplt (md : BitVec 3) (va vb : Reg) (fmt : BitVec 4) (m : Option (BitVec 3)) | vcmple (md : BitVec 3) (va vb : Reg) (fmt : BitVec 4) (m : Option (BitVec 3))
  | vmov (lane : BitVec 2) (vd va : Reg) (m : Option (BitVec 3)) | vsel (lane : BitVec 2) (vd va vb : Reg) (m : BitVec 3)
  | vperm (lane : BitVec 2) (vd va vb : Reg) (m : Option (BitVec 3)) | vbcast (lane : BitVec 2) (vd ra : Reg) (m : Option (BitVec 3))
  | vins (lane : BitVec 2) (vd ra rb : Reg) | vext (lane : BitVec 2) (rd va rb : Reg)
  | vcvt (src dst : BitVec 4) (mode : BitVec 2) (vd va : Reg) (part : BitVec 5)
  | vredadd (rd va : Reg) (fmt : BitVec 4) (m : Option (BitVec 3)) | vredmin (rd va : Reg) (fmt : BitVec 4) (m : Option (BitVec 3))
  | vredmax (rd va : Reg) (fmt : BitVec 4) (m : Option (BitVec 3)) | vamax (rd va : Reg) (fmt : BitVec 4) (m : Option (BitVec 3))
  | vscc (mode : BitVec 2) (e5 : Bool) (vd va : Reg) (x : BitVec 3) | vquant (mode : BitVec 2) (q8 : Bool) (vd va : Reg) (x : BitVec 3)
  | vfacm (mode : BitVec 2) (vd va rb : Reg) (x : BitVec 3)
  -- mask operations (R367)
  | mand (md ma mb : BitVec 3) | mor (md ma mb : BitVec 3) | mxor (md ma mb : BitVec 3) | mnot (md ma : BitVec 3)
  | mpop (rd : Reg) (ma : BitVec 3) | mfirst (rd : Reg) (ma : BitVec 3) | mset (md : BitVec 3) (ra : Reg) | mget (rd : Reg) (ma : BitVec 3)
  -- matrix engine (R375 to R379)
  | mm (cls : BitVec 2) (a1 b1 : Bool) (ad : BitVec 2) (ra rb : Reg) (x : Option (BitVec 3))
  | mmg (cls : BitVec 2) (a1 b1 : Bool) (ad : BitVec 2) (ra rb : Reg) (x : BitVec 3)
  | mmQ (group : BitVec 2) (a8 b8 : Bool) (ad : BitVec 2) (ra rb : Reg) (x : BitVec 3)
  | aczero (ad : BitVec 2) | acld (fmt : BitVec 4) (ad : BitVec 2) (ra : Reg) | acst (fmt : BitVec 4) (rz : Bool) (ad : BitVec 2) (ra : Reg)
  | scaccVector (h rz : Bool) (ad as : BitVec 2) (ix : Bool) (vb : Reg)
  | scaccXreg (h rz : Bool) (ad as : BitVec 2) (ix : Bool) (x : BitVec 3)
  -- copies, offload, crossbar, launch, promises (R385 to R405)
  | cpy (tag : BitVec 6) (ra rb : Reg) (x : BitVec 3) | cpy2 (tag : BitVec 6) (ra rb : Reg) (x : BitVec 3)
  | cpyg (tag : BitVec 6) (ra rb : Reg) (x : BitVec 3) | cpys (tag : BitVec 6) (ra rb : Reg) (x : BitVec 3)
  | cpyl (tag : BitVec 6) (reset : Bool) (list : BitVec 3) (ra rb : Reg) (x : BitVec 3) | cpyr (tag : BitVec 6) (list : BitVec 3) (ra : Reg)
  | evterm (idx : BitVec 5) (ra : Reg) | evarm (slot : BitVec 2) (ra rb : Reg) | evclr (rd : Reg) (idx : BitVec 5)
  | launch (rd ra : Reg) | launchRel (rd ra : Reg) | hsig (ring : BitVec 2) (ra rb : Reg)
  | propen (retract : Bool) (rd ra rb : Reg) (x : BitVec 3) | predeem (rd ra rb : Reg) | pquery (rd ra : Reg) | pretract (rd ra : Reg)
  -- contention plane (R118)
  | ctarmRaw (ra rb : Reg) | ctarmAmax (ra rb : Reg) | ctarmMin (ra rb : Reg) | ctresW (rd rb : Reg) | ctresId (rd rb : Reg) | ctcancel (rd rb : Reg)
  -- contexts and system (R316 to R328)
  | start (k : BitVec 5) (ra rb : Reg) | hjoin (rd : Reg) (k : BitVec 5) | halt | yield | follow | unfollow
  | mfsr (rd : Reg) (sr : BitVec 12) | mtsr (sr : BitVec 12) (ra : Reg) | trap (code : BitVec 12) (ra : Reg) | brk (code : BitVec 12)
  | wfe | nop | xset (xd : BitVec 3) (ra : Reg) | xld (xd : BitVec 3) (ra : Reg) (off : BitVec 14)
  -- 16-bit forms (R295)
  | addiCS0 (rd : BitVec 4) (imm : BitVec 7) | addiC (rd : BitVec 4) (imm : BitVec 7) | addCS0 (rd ra : BitVec 4) | addC (rd ra : BitVec 4)
  | subC (rd ra : BitVec 4) | andC (rd ra : BitVec 4) | orC (rd ra : BitVec 4) | xorC (rd ra : BitVec 4) | slliC (rd : BitVec 4) (sh : BitVec 6)
  | ldDC (rd ra : BitVec 4) (off : BitVec 3) | stDC (rd ra : BitVec 4) (off : BitVec 3) | beqC (ra : BitVec 4) (off : BitVec 7)
  | bneC (ra : BitVec 4) (off : BitVec 7) | jC (off : BitVec 11) | jrC (ra : BitVec 4) | andiC (rd : BitVec 4) (imm : BitVec 7)
  -- boot, trust and carrier (04_trust.md, 01_package.md)
  | perstReset | dieAuthentication | dieAuthTimeout | rvClearImage | rvAppend | rvVerifyWrite | rvReset
  | flowFaultAssert | flowFaultDeassert
  -- Forwyn links and collectives (02_fabric.md)
  | flitReceive | flitReplay | portRetrain | portRetrainEnd | portDown | portBringUp | mldredRoot | memberRead
  | memberTimeout | mcstStage | mcstCommit | memberCommitWrite | killNotice
  -- host interface (03_host.md)
  | flrPf | flrVf | cmdRingEnable | cmdRingDisable | crtailDoorbell | completionRingEnable | tokenRingEnable
  | cpheadWrite | tkheadWrite | icctlWrite | coalesceTimerExpiry | msixUnmask | offloadEntryDone | replayEntryDone
  -- firmware requests (04_trust.md)
  | fwMailboxMessage | partCreate | partDestroy | groupSet | attest | keyImport | traceSet | inspect
  | mapPage | unmapPage | unmapDone
  -- energy and dormancy (05_energy_dormancy.md)
  | energyUpdate | throttleEnd | dmCollapse | dmWake | dwellExpiry | collapseComplete | dmtimerExpiry
  | wakeWrite | wakeComplete | peekRead | peekIdle
  -- the contention plane (06_contention_plane.md)
  | entryRegister | armWindowOpen | armWindowClose | roundEnd | channelFail
  -- millpond (07_scheduler.md)
  | nodeBind | nodeSelect | nodeComplete | levelPromotion | preemptChoice | collectorStop | nodeSuspend
  -- cores, engines, ordering machine (08, 09, 10, 13)
  | yieldExpiry | wfeTimeout | followTimeout | messageDeliver | engineJobEnd | niThreadEnd | reconcileJobEnd
  | cwaitRequest | uncorrectableError | correctableError | frameRetire | fabricRequest | perform | engineStart
  | holdSend | apply | evict
  -- debug window (13_faults.md)
  | dwctlFreeze | dwctlResume | dwctlStep | stepEnd | dwctlStopeng | dwctlHaltc | breakpointStop | debugWindowWrite
  | faultPacketDeliver | noticeDeliver | registerWrite | hardPowerCap | thermalAlert | pwrgoodChange
  deriving DecidableEq, Repr

end Sys2Proof
end

