-- ==== Sys2Proof/Machine/State.lean ====
section
/-! DEFINITION. The state of one Lorsor 9600 package as plain data: every piece of state that spec/ names, and the
machine right after reset. INVENTORY.md lists each with its rule and its reset value. -/
namespace Sys2Proof.Machine

/-! ### Contexts (R155 to R163) -/

/-- Context states (R156). -/
inductive CtxStatus where | free | live | done
  deriving DecidableEq, Repr

/-- Why a context does not go on: the rows of R163's table, and the waits that are no sleep of that table
(`stale` a wait on a proxy whose owner was initialised meanwhile R349, `stall` a full engine queue R161, `tagBusy` R200, `rng` R239, `drain` the waits for the context's own earlier accesses,
`answer` that for the answer to a request which the instruction has sent, R338 and R350). -/
inductive Sleep where
  | awake
  | hjoin (k : Nat) | recv (h : Nat) | rwf (h want : Nat) | rwe (h want : Nat) | stale (h : Nat)
  | cwaitAcq | held | tagWait | tagBusy | drain | answer | stall | rng (bound : Nat) | full
  | bwait (b : Nat) (phase : BitVec 32) | barr (b : Nat) | sstep (level : Nat) | contest (ch : Nat)
  | yield (since : Nat) | wfe (since : Nat) (woken : Bool) | follow (since : Nat) | send (delivered : Option Nat)
  deriving DecidableEq, Repr

/-- A context sleeps in the sense of R163; the other waits leave it awake and not ready (R161). -/
def Sleep.asleep : Sleep → Bool
  | .awake | .tagBusy | .drain | .answer | .stall | .rng _ => false
  | _ => true

/-- A wait of an instruction that has issued: a held one has not (R418), and one that waits for its answer has. -/
def Sleep.issued (w : Sleep) : Bool := (w.asleep && w != .held) || w = .answer

/-- Outcome of a contest entry (R110, R119). -/
inductive CtOutcome where | won | lost | cancelled
  deriving DecidableEq, Repr

/-- A result slot that is not EMPTY (R119). -/
structure CtSlot where
  outcome : CtOutcome
  word : CWord
  seq : BitVec 32
  deriving DecidableEq, Repr

/-- A plain `cwait` that is pending (R418), with the ticket its home slice gave (R205). -/
structure CWait where
  addr : DWord
  target : DWord
  ticket : Option (BitVec 32)
  parked : Bool
  deriving DecidableEq, Repr

/-- One hardware context (R155). `busyS` to `busyX` mark registers not yet produced (R211, R353). -/
structure Context where
  status : CtxStatus
  pc : DWord
  s : Vector DWord 32
  v : Vector Vec 32
  m : Vector DWord 8
  x : Vector DWord 8
  fpflags : BitVec 6
  slots : Vector (Option CtSlot) 16
  ctPending : BitVec 16
  cancelled : BitVec 16
  exitVal : DWord
  sleep : Sleep
  cwait : Option CWait
  stopped : Bool
  poisonLate : Bool
  busyS : BitVec 32
  busyV : BitVec 32
  busyM : BitVec 8
  busyX : BitVec 8
  storeRun : Option (Nat × BitVec 128)
  ibpPass : Option DWord
  deriving DecidableEq, Repr

/-! ### The ordering machine's entries (R209 to R223) -/

/-- Page kinds (R192). -/
inductive AccKind where | so | rc | uo
  deriving DecidableEq, Repr

/-- Where the bytes of an access lie: a core's LM, physical memory, a partition's scheduler page (R129), supervisor
mailbox page (R72), a debug window (R273), or another package (R330). -/
inductive Place where
  | lm (core off : Nat) | phys (pa : Nat) | sched (part off : Nat) | mailbox (part off : Nat)
  | window (core off : Nat) | fabric (pkg part va : Nat)
  deriving DecidableEq, Repr

/-- The register a load writes. -/
inductive LoadDst where
  | scalar (r : Reg) (signed : Bool) | xreg (r : BitVec 3) | vector (r : Reg) | tileRow (base row : Nat) (t : Bool)
  deriving DecidableEq, Repr

/-- A ring handle (R177); `count = 0` is unset; a proxy (R349) records its geometry. -/
structure Handle where
  home : BitVec 4
  base : BitVec 19
  ssize : BitVec 13
  count : BitVec 9
  head : BitVec 16
  tail : BitVec 16
  proxy : Bool
  deriving DecidableEq, Repr

/-- What an entry does when it is performed. `wait` is the repeated read of a plain `cwait` (R225, R418), `launch` a `launch.rel`
that is not yet accepted (R399). A `join` names the entries of the joined thread that are open, and the stores of it whose bytes have still to
go home (R219). `proxyAdvance` is an advance through a proxy whose request is on its way: to handle `h` of core `owner`, with the geometry
that the proxy recorded; `froze` says that its core has frozen since (R350, R409). -/
inductive AccOp where
  | load (dst : LoadDst)
  | store (data : Nat)
  | atomic (op : Nat) (v cmp : DWord) (ret : Option Reg)
  | cadd (amount : DWord)
  | cread (rd : Reg)
  | fence (kind : Nat)
  | join (ids stores : List Nat)
  | rwb | rinv
  | wait (target : DWord)
  | launch (rd : Reg) (record : List Byte)
  | arrive (b : Nat) (rd : Reg)
  | advance (h : Nat) (producer : Bool) (n : Nat)
  | proxyAdvance (owner h : Nat) (sent : Handle) (producer : Bool) (n : Nat) (froze : Bool)
  deriving DecidableEq, Repr

/-- An entry of a context's SO queue, RC pool or UO pool (R209). Entries stand in issue order. `bypass` marks a `.by` hint (R191),
`remote` a `ratom*` (R227), `merge` a page whose FP32 additions may merge (R196); `joined` are the requests that a router has merged
into this one, by core, key and value, this one first. -/
structure Access where
  id : Nat
  ctx : Nat
  kind : AccKind
  op : AccOp
  place : Place
  va : DWord
  len : Nat
  handoff : Bool
  acq : Bool
  rel : Bool
  scope : Nat
  bypass : Bool
  remote : Bool
  merge : Bool
  joined : List (Nat × Nat × DWord)
  pc : DWord
  word : BitVec 32
  deriving DecidableEq, Repr

/-! ### Engines (R164, R179, R195, R257) -/

/-- What a failing check reports: kind, subcode, faulting address, INFO and INFO2 (R271). -/
structure Flt where
  kind : Nat
  sub : Nat
  addr : Nat
  info : Nat
  info2 : Nat
  deriving DecidableEq, Repr

/-- A chunk of a copy, `get` or `put` whose accesses are under way (R218): its source and destination, its length, which pieces
have been read with their bytes, and which have been written. `row` and `off` are its place in the job. -/
structure Chunk where
  row : Nat
  off : Nat
  src : Place
  srcHandoff : Bool
  srcVa : Nat
  dst : Place
  dstHandoff : Bool
  dstVa : Nat
  len : Nat
  got : List (Nat × List Byte)
  put : List Nat
  deriving DecidableEq, Repr

/-- Lines of which a job has written some bytes, for the clearing of poison (R208). -/
abbrev Cover := List (Nat × BitVec 128)

/-- The three promise jobs (R257). -/
inductive RecKind where | opening | redemption | retraction
  deriving DecidableEq, Repr

/-- A promise job with what it captured at issue, and the key of the entries its fork condition waits for; `ready` once it
has read VCTR since it last started. -/
structure RecJob where
  slot : Nat
  kind : RecKind
  ctx : Nat
  key : Nat
  wref : DWord
  vctr : DWord
  ready : Bool
  deriving DecidableEq, Repr

/-- A command in an engine queue: its key, the key of the entries its fork condition waits for (R182, R217), the issuing context, the word, the operands captured at issue, and its progress.
`prom` is set for a promise job, `fired` names the arm slot of a crossbar firing (R181), `flags` are those not yet merged
(R235), and `partial36` holds the exact sums of an integer product between its steps (R382). `words` are the reads that a matrix or promise job
has made ahead of their unit, by use and LM offset (R218, R381), the elements that an `acst` has written, or the row indices that a copy
has read. -/
structure Job where
  id : Nat
  forkId : Nat
  ctx : Nat
  instr : Instr
  word : BitVec 32
  a : DWord
  b : DWord
  x : DWord
  va : Vec
  vb : Vec
  vd : Vec
  mask : DWord
  params : List (BitVec 32)
  shape : List DWord
  tag : Option Nat
  epoch : BitVec 32
  exp : BitVec 8
  fired : Option Nat
  prom : Option RecJob
  started : Bool
  next : Nat
  off : Nat
  chunks : List Chunk
  failed : Option Flt
  run : Cover
  flags : BitVec 6
  partial36 : List Int
  words : List (Nat × Nat)
  deriving DecidableEq, Repr

/-- What a network-interface thread carries (R195, R341). -/
inductive NiKind where | get | put | mldred | mcst
  deriving DecidableEq, Repr

structure NiThread where
  id : Nat
  ctx : Nat
  kind : NiKind
  tag : Nat
  lmOff : Nat
  addr : DWord
  len : Nat
  fabric : Option (Nat × Nat)
  op : Nat
  started : Bool
  next : Nat
  chunks : List Chunk
  failed : Option Flt
  run : Cover
  deriving DecidableEq, Repr

/-- An arm slot of the crossbar (R179, R396). -/
structure ArmSlot where
  word : BitVec 32
  instr : Option Instr
  rep : Nat
  pending : Nat
  fired : Nat
  ctx : Nat
  stride : Int
  key : Nat
  discard : BitVec 32
  a : DWord
  b : DWord
  x : DWord
  order : List Nat
  deriving DecidableEq, Repr

/-- An event counter (R179). -/
structure EvCounter where
  config : BitVec 16
  count : BitVec 8
  deriving DecidableEq, Repr

/-- An accumulator: 256 elements of 36 bits and the loss-scale tag (R243, R248). -/
structure Accum where
  el : List Acc36
  epoch : BitVec 32
  exp : BitVec 8
  deriving DecidableEq, Repr

/-- A promise watch entry (R254); `vctr` is what `propen` read of the stage block, `rnext` the NEXTT that the record holds. -/
structure Watch where
  id : DWord
  xref : DWord
  href : DWord
  ghref : DWord
  gref : DWord
  wref : DWord
  vi : DWord
  vr : DWord
  life : BitVec 32
  etao : BitVec 32
  state : BitVec 4
  flags : BitVec 8
  nextt : BitVec 32
  rnext : BitVec 32
  eta : BitVec 32
  etap : BitVec 32
  sf : List (BitVec 32)
  pref : DWord
  vctr : DWord
  deriving DecidableEq, Repr

/-- A message waiting at a core's network interface (R178). -/
structure Msg where
  src : Nat
  srcCtx : Nat
  handle : Nat
  bytes : List Byte
  deriving DecidableEq, Repr

/-- An instruction of a leader that a follower has still to execute (R167), with where the leader went on, and whether it took the branch. -/
structure FollowEntry where
  pc : DWord
  instr : Instr
  word : BitVec 32
  nextPc : DWord
  taken : Bool
  deriving DecidableEq, Repr

/-- Issue state of a core (DWSTAT[1:0], R274). -/
inductive IssueState where | running | frozen | stepping
  deriving DecidableEq, Repr

/-- A 64-byte fault packet or notice (R271), field by field. -/
structure Packet where
  typ : BitVec 8
  kind : BitVec 8
  sub : BitVec 16
  core : BitVec 16
  ctx : BitVec 8
  origin : BitVec 8
  pc : DWord
  word : BitVec 32
  lost : BitVec 32
  addr : DWord
  info : DWord
  info2 : DWord
  nodeid : DWord
  clock : DWord
  deriving DecidableEq, Repr

/-- A write of RNGV or RNGM through the debug window that waits, as an `mtsr` would, for the engine's jobs before key `bound` (R239, R273). -/
structure RngWrite where
  engine : Engine
  bound : Nat
  value : BitVec 32
  deriving DecidableEq, Repr

/-- One core (R155, R274, R282). `stepEntry` is a `launch.rel` that has issued in a step and has still to be accepted (R277, R399). -/
structure Core where
  ctx : Vector Context 11
  lastIssue : Nat
  issuedAt : Option Nat
  im : Bytes
  lm : Bytes
  acc : Vector Accum 4
  handles : Vector Handle 16
  tagDone : DWord
  tagErr : DWord
  tagBusy : DWord
  rank : BitVec 12
  gangdim : DWord
  dmr : DWord
  lscale : BitVec 8
  lsepoch : BitVec 32
  rngv : BitVec 32
  rngm : BitVec 32
  rngWrites : List RngWrite
  pbase : BitVec 19
  idCount : DWord
  watch : Vector Watch 16
  recQ : List RecJob
  recHeld : BitVec 16
  fstate : BitVec 2
  fleader : BitVec 4
  fcause : BitVec 3
  fmask : BitVec 16
  fbuf : List FollowEntry
  fwait : Option DWord
  fleft : Option DWord
  vecQ : List Job
  matQ : List Job
  copyQ : List Job
  ni : List NiThread
  inbox : List Msg
  accs : List Access
  arm : Vector ArmSlot 4
  counters : Vector EvCounter 8
  terms : Vector (BitVec 16) 16
  pulses : List (Engine × Option Nat)
  eventAt : Option Nat
  issue : IssueState
  engStopped : Bool
  stopping : Bool
  reqIgnored : Bool
  lastKind : BitVec 8
  stepTarget : Nat
  stepDone : Bool
  stepEntry : Option Nat
  dwsel : BitVec 16
  ibp : Vector DWord 4
  wpb : Vector DWord 4
  wpc : Vector DWord 4
  packet : Option Packet
  node : Option Nat
  nodeid : DWord
  part : Option Nat
  saved : Bool
  withdrawn : Bool
  lasting : Bool
  deriving DecidableEq, Repr

/-! ### Clusters, dies and memory (R170 to R173, R189, R197, R205) -/

structure Barrier where
  owner : Option Nat
  member : BitVec 176
  arrived : BitVec 176
  phase : BitVec 32
  deriving DecidableEq, Repr

/-- A broadcast register, with the cycle and the core-in-cluster of its last write (R173). -/
structure CastReg where
  owner : Option Nat
  value : DWord
  last : Option (Nat × Nat)
  deriving DecidableEq, Repr

structure Cluster where
  barriers : Vector Barrier 8
  casts : Vector CastReg 8
  deriving DecidableEq, Repr

/-- A superstep in progress at one domain (R176): the arrivals, and at level 0 the members at its first arrival. -/
structure StepDom where
  level : Nat
  domain : Nat
  members : List (Nat × Nat)
  arrived : List (Nat × Nat)
  released : List (Nat × Nat)
  deriving DecidableEq, Repr

/-- The dirty bytes that one store left in a line: its context (core × 16 + context), its place in the order of all
stores, whether it lay on an SO page (R222), the bytes that it wrote (R221), and those of it that still stand dirty (R215); `acc` is the key
of the context's store, none for a store of an engine thread, whose tag is `tag` where it has one (R219). -/
structure HeldStore where
  owner : Nat
  acc : Option Nat
  seq : Nat
  so : Bool
  tag : Option Nat
  span : BitVec 128
  mask : BitVec 128
  deriving DecidableEq, Repr

/-- A holding copy of a handoff line (R197, R209), by its physical line address; `vec` marks the 64-byte granules that
a vector or tile access wrote (R411). `poison` says that it was filled from a poisoned home, `cover` which bytes have gone home
since one job or context wrote the whole line (R208). -/
structure Holding where
  line : Nat
  bytes : List Byte
  mask : BitVec 128
  stores : List HeldStore
  vec : BitVec 2
  poison : Bool
  cover : Option (BitVec 128)
  deriving DecidableEq, Repr

/-- A message on a write-through path (R221), with the stores it carries bytes of. `clears` says that with it a whole written
line has gone home (R208). -/
structure WtMsg where
  line : Nat
  bytes : List Byte
  mask : BitVec 128
  stores : List HeldStore
  clears : Bool
  deriving DecidableEq, Repr

/-- A waiter of a home slice's wait table (R205). -/
structure Waiter where
  core : Nat
  ctx : Nat
  addr : Nat
  target : DWord
  deriving DecidableEq, Repr

structure WaitTable where
  entries : List Waiter
  tickets : List (BitVec 32 × (Nat × Nat))
  reservedEntry : Bool
  issue : BitVec 32
  serve : BitVec 32
  deriving DecidableEq, Repr

/-- A compute die; `rails` says that its core rails have collapsed (R96). -/
structure Die where
  excluded : BitVec 2
  lowest : Bool
  rails : Bool
  holding : List Holding
  deriving DecidableEq, Repr

/-- Registers of a base-die window (R15). -/
structure BaseDie where
  stat : BitVec 3
  jobs : DWord
  err : BitVec 3
  deriving DecidableEq, Repr

/-! ### Partitions (R16, R70, R88, R93) -/

/-- A page mapping: its base address and attribute word (R192). -/
structure Page where
  va : Nat
  attr : DWord
  deriving DecidableEq, Repr

/-- States of the dormancy machine (R93). -/
inductive DmState where | active | collapsing | dormant | waking | lost
  deriving DecidableEq, Repr

/-- How far an entry of an offload list, or a replay of it, has come: the offset of the next chunk to open, the open chunks, the failure that
ends it, and its cover of poisoned lines (R62, R63, R208, R218). -/
structure OffWork where
  off : Nat
  chunks : List Chunk
  err : Option Flt
  run : Cover
  deriving DecidableEq, Repr

/-- An entry of an offload list (R62): its number in the list, and the key of its command among the issuer's entries. -/
structure OffEntry where
  id : Nat
  idx : Nat
  src : Nat
  bus : Nat
  len : Nat
  core : Nat
  ctx : Nat
  tag : Nat
  work : OffWork
  done : Bool
  failed : Bool
  deriving DecidableEq, Repr

/-- A replay taken from a list (R63): entries still to be performed, from `next` downward. -/
structure Replay where
  id : Nat
  core : Nat
  ctx : Nat
  tag : Nat
  next : Nat
  left : Nat
  work : OffWork
  deriving DecidableEq, Repr

/-- An offload list: all entries ever appended, of which the list holds those from `base` on (a reset empties the list and
lets the older ones run on); the cursor counts in `entries`. -/
structure OffList where
  entries : List OffEntry
  base : Nat
  replaying : Bool
  cursor : Int
  replays : List Replay
  deriving DecidableEq, Repr

structure Rect where
  die : Nat
  row : Nat
  col : Nat
  rows : Nat
  cols : Nat
  deriving DecidableEq, Repr

structure Partition where
  present : Bool
  sealed : Bool
  det : Bool
  wakeClass : BitVec 2
  supervisor : Nat
  rects : List Rect
  groups : BitVec 64
  chmask : BitVec 16
  quota : BitVec 32
  ceiling : BitVec 48
  key : Option Nat
  pubKey : List Byte
  salt : Option (List Byte)
  pages : List Page
  mapped : List DWord
  sched : Bytes
  trctl : BitVec 64
  trbase : BitVec 64
  trsize : BitVec 64
  trwptr : BitVec 64
  trdrop : BitVec 64
  trload : Bool
  account : Int
  updatedAt : Nat
  throttled : Bool
  restored : Option Nat
  dwell : BitVec 32
  timer : BitVec 32
  dmState : DmState
  dmReason : BitVec 8
  wakes : BitVec 32
  collapses : BitVec 32
  idleSince : Option Nat
  refusedAt : Option Nat
  collapsedAt : Nat
  savedCores : Table Core
  saveArea : Option (Nat × Nat)
  peekPages : List Page
  fw3Seq : Option Nat
  faultQ : List Packet
  faultFlight : List Packet
  noticeQ : List Packet
  noticeFlight : List Packet
  lost : BitVec 32
  launched : Nat
  offload : Vector OffList 8
  deficit : Vector Int 8
  deriving DecidableEq, Repr

/-! ### Nodes (R51, R127 to R154) -/

/-- Node states (R127); a RETIRED node is no longer listed. -/
inductive NodeState where | waiting | blocked | ready | running | suspended | done
  deriving DecidableEq, Repr

/-- Where a node came from: a command-ring slot, or a launch by a context (R146). -/
inductive NodeSrc where
  | ring (vf ring slot : Nat)
  | launch (core ctx parent : Nat) (cctr status : Nat)
  deriving DecidableEq, Repr

/-- The graph-node record (R51) as read. -/
structure NodeRec where
  nodeid : DWord
  kind : Nat
  prio : Nat
  part : Nat
  flags : Nat
  preds : Nat
  succ : List Nat
  ovfcnt : Nat
  ovfptr : Nat
  edgeq : List Nat
  shape : Nat
  eest : Nat
  image : Nat
  arg : Nat
  arglen : Nat
  cvec : Nat
  gen : DWord
  deriving DecidableEq, Repr

/-- A piece of a barrier in a core's image (R174): the bits of its 11 contexts; the phase from the lowest-ranked core. -/
structure BarrierPiece where
  index : Nat
  member : BitVec 11
  arrived : BitVec 11
  phase : Option (BitVec 32)
  deriving DecidableEq, Repr

/-- A core image (R282): the core's state, the rank of each handle's home core, and the pieces of R174. -/
structure CoreImage where
  core : Core
  homes : List Nat
  barriers : List BarrierPiece
  casts : List (Nat × DWord)
  deriving DecidableEq, Repr

/-- A gang core's part in a superstep, by rank (R152): 0 a member, 1 arrived, 2 released. -/
structure StepSave where
  level : Nat
  rank : Nat
  ctx : Nat
  kind : Nat
  deriving DecidableEq, Repr

/-- A node of the millpond. `ranOn` are the cores that it has left, each with the key before which its stores were issued, and `pin` is
the placement of a pinned node once it has been computed (R153). -/
structure Node where
  key : Nat
  src : NodeSrc
  part : Nat
  record : NodeRec
  state : NodeState
  count : Nat
  level : Nat
  promotions : Nat
  levelSince : Nat
  seq : Nat
  edgePassed : Bool
  entry : Option Nat
  args : List Byte
  desc : List Byte
  status : Nat
  sub : Nat
  cores : List Nat
  images : List CoreImage
  steps : List StepSave
  area : Option (Nat × Nat)
  dispatchedAt : Nat
  ranOn : List (Nat × Nat)
  pin : Option (List Nat)
  energy : Nat
  children : Nat
  edgesDone : Bool
  released : Bool
  posted : Bool
  gone : Bool
  stuck : Option Nat
  begun : List Nat
  acked : List Nat
  job : Option Job
  pieces : List Nat
  deriving DecidableEq, Repr

/-! ### Host interface (R42 to R61) -/

/-- A command ring. `pins` are the placements of the pinned nodes of its slots, which a re-arm keeps (R153). -/
structure CmdRing where
  base : DWord
  enable : Bool
  log2 : BitVec 5
  tail : BitVec 32
  head : BitVec 32
  overrun : Bool
  creditLost : Bool
  credits : Table Nat
  pins : Table (List Nat)
  deriving DecidableEq, Repr

/-- The completion ring; `wait` is the backlog (R58). An entry is 32 bytes without its phase, with its vector. -/
structure CplRing where
  base : DWord
  enable : Bool
  log2 : BitVec 5
  tail : BitVec 32
  head : BitVec 32
  wait : List (List Byte × Nat)
  deriving DecidableEq, Repr

structure Token where
  payload : DWord
  core : Nat
  ctx : Nat
  node : Option Nat
  deriving DecidableEq, Repr

structure TokRing where
  base : DWord
  enable : Bool
  log2 : BitVec 5
  vector : BitVec 4
  tail : BitVec 32
  head : BitVec 32
  seq : BitVec 32
  deriving DecidableEq, Repr

/-- Interrupt coalescing of a vector, its MSI-X table entry and pending bit (R42, R61); how many messages were sent, and
the address and data of the last. `shown` is ICPEND as the last collapse saved it (R100). -/
structure IrqVector where
  limit : BitVec 32
  pending : BitVec 16
  timer : Option Nat
  addr : DWord
  data : BitVec 32
  masked : Bool
  pba : Bool
  shown : BitVec 32
  sent : Nat
  msgAddr : DWord
  msgData : BitVec 32
  deriving DecidableEq, Repr

structure Vf where
  cr : Vector CmdRing 8
  cp : CplRing
  tk : Vector TokRing 4
  tokenQ : List (Nat × Token)
  irq : Vector IrqVector 16
  deriving DecidableEq, Repr

/-! ### Fabric (R22 to R36, R209) -/

/-- A request in a fabric channel (R209, R224): the core and the key of what sent it, and the request. -/
structure FabSend where
  core : Nat
  key : Nat
  req : FabReq
  deriving DecidableEq, Repr

structure Port where
  present : Bool
  linkUp : Bool
  down : Bool
  retraining : Bool
  lanes : BitVec 8
  replays : DWord
  retrains : DWord
  limit : BitVec 16
  failedReplays : Nat
  failedRetrains : Nat
  rxSeq : BitVec 12
  deriving DecidableEq, Repr

structure Member where
  va : Nat
  pkg : Nat
  part : Nat
  ctx : Nat
  core : Nat
  deriving DecidableEq, Repr

structure Group where
  count : Nat
  fmt : Nat
  flags : Nat
  root : Nat
  gen : DWord
  members : List Member
  broken : Bool
  killed : List Nat
  part : Nat
  deriving DecidableEq, Repr

/-- Data of another package's `mcst` that a member port of this package has staged (R32): the operation by its package and number,
the member as it stood when it staged, and whether its group has members of other partitions. `rooted`: the group's root is this
package's switch, which asked the member at `since` and has sent the commit where `committed` stands. A member of another package of
such a group has an entry while its acknowledgement counts. -/
structure Staged where
  pkg : Nat
  op : Nat
  gid : Nat
  index : Nat
  member : Member
  shared : Bool
  off : Nat
  bytes : List Byte
  rooted : Bool
  since : Nat
  committed : Bool
  deriving DecidableEq, Repr

/-- A collective operation in flight (R30, R32), with the group as it stood when the operation began and the partition of its
requester. `moved` are the pieces of the requester's LM that its thread has read of an `mcst`'s source, with their bytes, or written of an
`mldred`'s result (R218). -/
structure CollOp where
  key : Nat
  group : Group
  part : Nat
  core : Nat
  ctx : Nat
  thread : Nat
  store : Bool
  gid : Nat
  e0 : Nat
  n : Nat
  lmOff : Nat
  statOff : Nat
  asked : Nat
  answers : Table (List Byte)
  staged : List Nat
  committed : Bool
  written : List Nat
  data : List Byte
  moved : List (Nat × List Byte)
  ended : Option (Nat × Nat)
  deriving DecidableEq, Repr

/-! ### Firmware, boot and the contention plane -/

/-- `taken` is the request as it stood when MBDB was written: what fw0 serves (R69, log 61). -/
structure MailState where
  req : Bytes
  taken : Bytes
  busy : Bool
  done : Bool
  status : BitVec 16
  resp : Bytes
  deriving DecidableEq, Repr

structure BootRec where
  step : BitVec 16
  result : BitVec 8
  detail : BitVec 8
  clock : DWord
  data : List Byte
  deriving DecidableEq, Repr

structure BootState where
  slotA : List Byte
  slotB : List Byte
  running : Option (BitVec 1)
  log : List BootRec
  firewall : DWord
  heldLost : DWord
  recLost : BitVec 32
  recovery : Bool
  image : List Byte
  rvlen : BitVec 20
  rvslot : BitVec 1
  rvstatus : BitVec 8
  tooBig : Bool
  authWait : List Nat
  nonceAt : Nat
  stage : Bytes
  deriving DecidableEq, Repr

/-- PKGSTAT and the signals behind it (R20, R21); `cap` is the power cap in W that the governor holds (R73). -/
structure Carrier where
  id : BitVec 4
  cap : Nat
  flowFault : Bool
  thermal : Bool
  capActive : Bool
  pwrGood : Bool
  flowSignal : Bool
  deriving DecidableEq, Repr

structure CtEntry where
  core : Nat
  ctx : Nat
  word : CWord
  deriving DecidableEq, Repr

/-- Phases of a channel (R108, R109). -/
inductive ChPhase where | idle | window | running
  deriving DecidableEq, Repr

structure Channel where
  grant : Option Nat
  seq : BitVec 32
  latestWord : CWord
  latestSeq : BitVec 32
  voids : Nat
  failed : Bool
  phase : ChPhase
  arming : List CtEntry
  registered : List CtEntry
  round : List CtEntry
  deriving DecidableEq, Repr

/-- A candidate that a dispatch port (channel 15; die 4 is DX's) or a die's collector (channel 14) has entered into a contest (R126, R149,
R151); `won` says that its round is over and the agent may act, `rival` names the candidate whose victims the loser waits for. -/
structure Claim where
  ch : Nat
  die : Nat
  node : Nat
  won : Bool
  rival : Option Nat
  deriving DecidableEq, Repr

/-- An unmap under way (R207): for the request of a mailbox, or for the retirement of a frame (R287). -/
structure Unmapping where
  mb : Option MailBox
  part : Nat
  page : Page
  deriving DecidableEq, Repr

/-! ### The whole machine -/

/-- What the machine does next: let a context issue, make an event happen, let time pass, let the host write its memory, let a member in another package arrive
at a level-4 step (R176), let fw6 set the ports through which a package is reached (R27), or let the trace bandwidth of a
partition be in use, or free again (R87). -/
inductive Move where
  | issue (core ctx : Nat)
  | event (i : Instr) (inp : Input)
  | tick (n : Nat)
  | hostWrite (bus : Nat) (bytes : List Byte)
  | remoteArrive (group member : Nat)
  | route (pkg : Nat) (ports : BitVec 16)
  | traceLoad (part : Nat) (busy : Bool)
  deriving DecidableEq, Repr

structure State where
  clock : Nat
  cur : Nat × Nat
  word : BitVec 32
  input : Input
  schedule : List Move
  fresh : Nat
  nextKey : Nat
  cores : Table Core
  clusters : Table Cluster
  steps : List StepDom
  dies : Vector Die 4
  baseDies : Vector BaseDie 12
  waits : Table WaitTable
  paths : Table (List WtMsg)
  mem : Bytes
  poison : List Nat
  errCounts : Table (List Nat)
  badFrames : List Nat
  parts : Table Partition
  unmaps : List Unmapping
  awakePcs : Table Nat
  nodes : List Node
  lastTaken : Nat
  lastServed : Vector Nat 8
  vfs : Table Vf
  ports : Vector Port 16
  pkgId : BitVec 12
  routes : Table (BitVec 16)
  fabric : Table (List FabSend)
  groups : Table Group
  colls : List CollOp
  staged : List Staged
  kills : List (Nat × Nat)
  mail : MailState
  supMail : Table MailState
  lastMail : Nat
  claims : List Claim
  selects : Nat
  flr : Bool
  chanFails : List (Nat × Nat)
  fwQ : Table (List (BitVec 512))
  boot : BootState
  carrier : Carrier
  channels : Vector Channel 16
  held : List (Nat × HeldWrite)
  deriving DecidableEq, Repr

/-! ### Reset -/

def Context.reset : Context where
  status := .free
  pc := 0
  s := Vector.replicate 32 0
  v := Vector.replicate 32 0
  m := Vector.replicate 8 0
  x := Vector.replicate 8 0
  fpflags := 0
  slots := Vector.replicate 16 none
  ctPending := 0
  cancelled := 0
  exitVal := 0
  sleep := .awake
  cwait := none
  stopped := false
  poisonLate := false
  busyS := 0
  busyV := 0
  busyM := 0
  busyX := 0
  storeRun := none
  ibpPass := none

/-- Every element 0 and the tag at epoch 0, exponent 0 (R144, R247). -/
def Accum.reset : Accum := { el := List.replicate 256 0, epoch := 0, exp := 0 }

def Handle.unset : Handle := { home := 0, base := 0, ssize := 0, count := 0, head := 0, tail := 0, proxy := false }

def Watch.free : Watch where
  id := 0
  xref := 0
  href := 0
  ghref := 0
  gref := 0
  wref := 0
  vi := 0
  vr := 0
  life := 0
  etao := 0
  state := 0
  flags := 0
  nextt := 0
  rnext := 0
  eta := 0
  etap := 0
  sf := List.replicate 8 0
  pref := 0
  vctr := 0

def ArmSlot.empty : ArmSlot where
  word := 0
  instr := none
  rep := 0
  pending := 0
  fired := 0
  ctx := 0
  stride := 0
  key := 0
  discard := 0
  a := 0
  b := 0
  x := 0
  order := []

/-- A core after package reset; the values R144 gives at a release are `Core.release` of Machine/Millpond.lean. -/
def Core.reset : Core where
  ctx := Vector.replicate 11 Context.reset
  lastIssue := 10
  issuedAt := none
  im := []
  lm := []
  acc := Vector.replicate 4 Accum.reset
  handles := Vector.replicate 16 Handle.unset
  tagDone := 0
  tagErr := 0
  tagBusy := 0
  rank := 0
  gangdim := 0
  dmr := 0
  lscale := 0
  lsepoch := 0
  rngv := 1
  rngm := 0x10001
  rngWrites := []
  pbase := 0
  idCount := 1
  watch := Vector.replicate 16 Watch.free
  recQ := []
  recHeld := 0
  fstate := 0
  fleader := 0
  fcause := 0
  fmask := 0
  fbuf := []
  fwait := none
  fleft := none
  vecQ := []
  matQ := []
  copyQ := []
  ni := []
  inbox := []
  accs := []
  arm := Vector.replicate 4 ArmSlot.empty
  counters := Vector.replicate 8 { config := 0, count := 0 }
  terms := Vector.replicate 16 0
  pulses := []
  eventAt := none
  issue := .running
  engStopped := false
  stopping := false
  reqIgnored := false
  lastKind := 0
  stepTarget := 0
  stepDone := false
  stepEntry := none
  dwsel := 0
  ibp := Vector.replicate 4 0
  wpb := Vector.replicate 4 0
  wpc := Vector.replicate 4 0
  packet := none
  node := none
  nodeid := 0
  part := none
  saved := false
  withdrawn := false
  lasting := false

/-- A broadcast register at reset, or freed (R170). -/
def CastReg.free : CastReg := { owner := none, value := 0, last := none }

def Barrier.free : Barrier := { owner := none, member := 0, arrived := 0, phase := 0 }

def Cluster.reset : Cluster where
  barriers := Vector.replicate 8 Barrier.free
  casts := Vector.replicate 8 CastReg.free

def WaitTable.reset : WaitTable := { entries := [], tickets := [], reservedEntry := false, issue := 0, serve := 0 }

def OffWork.fresh : OffWork := { off := 0, chunks := [], err := none, run := [] }

def OffList.empty : OffList := { entries := [], base := 0, replaying := false, cursor := -1, replays := [] }

/-- A partition that does not exist (R45, R93: its registers read 0). -/
def Partition.absent : Partition where
  present := false
  sealed := false
  det := false
  wakeClass := 0
  supervisor := 0
  rects := []
  groups := 0
  chmask := 0
  quota := 0
  ceiling := 0
  key := none
  pubKey := []
  salt := none
  pages := []
  mapped := []
  sched := []
  trctl := 0
  trbase := 0
  trsize := 0
  trwptr := 0
  trdrop := 0
  trload := false
  account := 0
  updatedAt := 0
  throttled := false
  restored := none
  dwell := 0
  timer := 0
  dmState := .active
  dmReason := 0
  wakes := 0
  collapses := 0
  idleSince := none
  refusedAt := none
  collapsedAt := 0
  savedCores := []
  saveArea := none
  peekPages := []
  fw3Seq := none
  faultQ := []
  faultFlight := []
  noticeQ := []
  noticeFlight := []
  lost := 0
  launched := 0
  offload := Vector.replicate 8 OffList.empty
  deficit := Vector.replicate 8 0

def CmdRing.reset : CmdRing where
  base := 0
  enable := false
  log2 := 0
  tail := 0
  head := 0
  overrun := false
  creditLost := false
  credits := []
  pins := []

def CplRing.reset : CplRing := { base := 0, enable := false, log2 := 0, tail := 0, head := 0, wait := [] }

def TokRing.reset : TokRing := { base := 0, enable := false, log2 := 0, vector := 0, tail := 0, head := 0, seq := 0 }

/-- PRESUMED (log 5): an MSI-X vector is masked after reset, as the PCI Express standard gives. -/
def IrqVector.reset : IrqVector :=
  { limit := 0, pending := 0, timer := none, addr := 0, data := 0, masked := true, pba := false, shown := 0, sent := 0,
    msgAddr := 0, msgData := 0 }

def Vf.reset : Vf where
  cr := Vector.replicate 8 CmdRing.reset
  cp := CplRing.reset
  tk := Vector.replicate 4 TokRing.reset
  tokenQ := []
  irq := Vector.replicate 16 IrqVector.reset

/-- FPSTAT is 0 after reset (R25); a port shows as present once fw6 has brought it up (log 4). -/
def Port.reset : Port where
  present := false
  linkUp := false
  down := false
  retraining := false
  lanes := 0
  replays := 0
  retrains := 0
  limit := 0
  failedReplays := 0
  failedRetrains := 0
  rxSeq := 0

def MailState.reset : MailState :=
  { req := [], taken := [], busy := false, done := false, status := 0, resp := [] }

def BootState.reset : BootState where
  slotA := []
  slotB := []
  running := some 0
  log := []
  firewall := 0
  heldLost := 0
  recLost := 0
  recovery := false
  image := []
  rvlen := 0
  rvslot := 0
  rvstatus := 0
  tooBig := false
  authWait := []
  nonceAt := 0
  stage := []

def Carrier.reset : Carrier :=
  { id := 0, cap := 2600, flowFault := false, thermal := false, capActive := false, pwrGood := true, flowSignal := false }

def Channel.reset : Channel where
  grant := none
  seq := 0
  latestWord := 0
  latestSeq := 0xffffffff
  voids := 0
  failed := false
  phase := .idle
  arming := []
  registered := []
  round := []

/-- The package right after reset with its four dies present (log 4); nothing is scheduled and nothing runs (log 1). The
round-robin orders begin with partition 0 (log 54). -/
def State.reset : State where
  clock := 0
  cur := (0, 0)
  word := 0
  input := Input.none
  schedule := []
  fresh := 0
  nextKey := 0
  cores := []
  clusters := []
  steps := []
  dies := Vector.replicate 4 { excluded := 0, lowest := false, rails := false, holding := [] }
  baseDies := Vector.replicate 12 { stat := 7, jobs := 0, err := 0 }
  waits := []
  paths := []
  mem := []
  poison := []
  errCounts := []
  badFrames := []
  parts := []
  unmaps := []
  awakePcs := []
  nodes := []
  lastTaken := 63
  lastServed := Vector.replicate 8 63
  vfs := []
  ports := Vector.replicate 16 Port.reset
  pkgId := 0
  routes := []
  fabric := []
  groups := []
  colls := []
  staged := []
  kills := []
  mail := MailState.reset
  lastMail := 64
  claims := []
  selects := 0
  flr := false
  chanFails := []
  supMail := []
  fwQ := []
  boot := BootState.reset
  carrier := Carrier.reset
  channels := Vector.replicate 16 Channel.reset
  held := []

/-! ### How a step can stop -/

/-- Why the machine stops. Everything spec/ calls a fault is TAKEN (the core freezes and reports, R268), a next state. -/
inductive Fault where
  /-- Raised by `step`: a LIVE context has an odd PC, or one above 65,536. R289 excludes such a PC, and no window write and no
  image sets one, so the spec gives no fetch there (log 10). Safe: nothing is claimed of such a state. -/
  | pcOutsideIm (pc : DWord)
  deriving DecidableEq, Repr

/-- Why a step has no meaning here. -/
inductive Refusal where
  /-- Raised by an arm of `exec` whose instruction has no meaning yet. Safe: no next state is claimed. -/
  | notModelled (mnemonic : String)
  deriving DecidableEq, Repr

/-- What one step of this machine answers. -/
abbrev Result := Host.Outcome State Fault Refusal

end Sys2Proof.Machine
end

