-- ==== Sys2Proof/Machine/Ops.lean ====
section
/-! DEFINITION. The named operations over tables, memory, registers and addresses, taking a fault (`takeFault`, R268,
R269) and the return from one (`resumeCore`, R276). Every meaning is written over these. -/
namespace Sys2Proof.Machine

/-! ### Tables and vectors -/

def tfind {α : Type} : Table α → Nat → Option α
  | [], _ => none
  | (k', a) :: r, k => if k' = k then some a else tfind r k

def tget {α : Type} (t : Table α) (k : Nat) (d : α) : α := (tfind t k).getD d

/-- Put a value under a key; keys stay in rising order. -/
def tput {α : Type} : Table α → Nat → α → Table α
  | [], k, a => [(k, a)]
  | (k', a') :: r, k, a =>
    if k < k' then (k, a) :: (k', a') :: r
    else if k = k' then (k, a) :: r
    else (k', a') :: tput r k a

def tdel {α : Type} (t : Table α) (k : Nat) : Table α := t.filter (fun e => e.1 != k)

def tmod {α : Type} (t : Table α) (k : Nat) (d : α) (f : α → α) : Table α := tput t k (f (tget t k d))

def vget {α : Type} {n : Nat} (v : Vector α n) (i : Nat) (d : α) : α := v.getD i d

def vset {α : Type} {n : Nat} (v : Vector α n) (i : Nat) (a : α) : Vector α n := v.setIfInBounds i a

def vmod {α : Type} {n : Nat} (v : Vector α n) (i : Nat) (d : α) (f : α → α) : Vector α n := vset v i (f (vget v i d))

/-! ### Numbers -/

/-- Bits [lo + w - 1 : lo] of a number (R1). -/
def bits (v lo w : Nat) : Nat := v / 2 ^ lo % 2 ^ w

/-- The signed value of the low `w` bits. -/
def sext (v w : Nat) : Int := if v % 2 ^ w < 2 ^ (w - 1) then (v % 2 ^ w : Nat) else ((v % 2 ^ w : Nat) : Int) - 2 ^ w

/-- `Wrap(x, n)` as an unsigned number (R5). -/
def wrap (x : Int) (n : Nat) : Nat := (x % (2 ^ n : Nat)).toNat

/-- `Sat(x, lo, hi)` (R5). -/
def sat (x lo hi : Int) : Int := if x < lo then lo else if hi < x then hi else x

def b64 (n : Nat) : DWord := BitVec.ofNat 64 n

/-! ### Memory in canonical form (log 3: an unlisted byte reads 0) -/

def Memory.read : Bytes → Nat → Byte
  | [], _ => 0
  | (a', b) :: r, a => if a' = a then b else Memory.read r a

/-- List a byte under its address. -/
def Memory.put : Bytes → Nat → Byte → Bytes
  | [], a, b => [(a, b)]
  | (a', b') :: r, a, b =>
    if a < a' then (a, b) :: (a', b') :: r
    else if a = a' then (a, b) :: r
    else (a', b') :: Memory.put r a b

/-- Write one byte; writing 0 removes the entry. -/
def Memory.write (m : Bytes) (a : Nat) (b : Byte) : Bytes :=
  if b = 0 then m.filter (fun c => c.1 != a) else Memory.put m a b

/-- Addresses strictly rising and no byte 0. -/
def Memory.wf : Bytes → Bool
  | [] => true
  | (a, b) :: r => b != 0 && r.all (fun c => decide (a < c.1)) && Memory.wf r

def Memory.reads (m : Bytes) (a n : Nat) : List Byte := (List.range n).map (fun i => Memory.read m (a + i))

def Memory.writes : Bytes → Nat → List Byte → Bytes
  | m, _, [] => m
  | m, a, b :: r => Memory.writes (Memory.write m a b) (a + 1) r

/-- A run of bytes as memory from address `a`, in canonical form. -/
def bytesAt : Nat → List Byte → Bytes
  | _, [] => []
  | a, b :: r => if b = 0 then bytesAt (a + 1) r else (a, b) :: bytesAt (a + 1) r

/-- A long run of bytes put into memory at once. -/
def Memory.paste (m : Bytes) (a : Nat) (bs : List Byte) : Bytes :=
  m.filter (fun c => decide (c.1 < a)) ++ (bytesAt a bs ++ m.filter (fun c => decide (a + bs.length ≤ c.1)))

/-- The 8-byte word at an address. -/
def memWord (m : Bytes) (off : Nat) : DWord := b64 (leNat (Memory.reads m off 8))

/-! ### Places of the package (R7, R9 to R11) -/

def dieOf (i : Nat) : Nat := i / 768
def rowOf (i : Nat) : Nat := i % 768 / 32
def colOf (i : Nat) : Nat := i % 32
/-- Cluster index on its die (R7). -/
def clusterOf (i : Nat) : Nat := rowOf i / 4 * 8 + colOf i / 4
/-- Core-in-cluster (R7). -/
def cicOf (i : Nat) : Nat := rowOf i % 4 * 4 + colOf i % 4
/-- Cluster number in the package: die × 48 + cluster. -/
def clusterKey (i : Nat) : Nat := dieOf i * 48 + clusterOf i
/-- The package index of core-in-cluster `c` in the cluster of core `i`. -/
def coreAt (i c : Nat) : Nat := dieOf i * 768 + (clusterOf i / 8 * 4 + c / 4) * 32 + (clusterOf i % 8 * 4 + c % 4)
def coreOf (die row col : Nat) : Nat := die * 768 + row * 32 + col

inductive PaKind where
  | home (die off : Nat) | host (bus : Nat) | baseDie (stack off : Nat) | window (core off : Nat) | hole
  deriving DecidableEq, Repr

/-- The spread alias (R9, R11). -/
def inSpread (pa : Nat) : Bool := 0x10000000000 ≤ pa && pa < 0x19000000000

/-- What a physical address names (R9 to R11). -/
def paKind (pa : Nat) : PaKind :=
  if pa < 0x10000000000 then
    (if pa % 0x4000000000 < 0x2400000000 then .home (pa / 0x4000000000) (pa % 0x4000000000) else .hole)
  else if inSpread pa then
    .home ((pa - 0x10000000000) / 4096 % 4) ((pa - 0x10000000000) / 4096 / 4 * 4096 + pa % 4096)
  else if 0x80000000000 ≤ pa && pa < 0xc0000000000 then .host (pa - 0x80000000000)
  else if 0xe0000000000 ≤ pa && pa < 0xe00000c0000 then .baseDie ((pa - 0xe0000000000) / 0x10000) (pa % 0x10000)
  else if 0xe0010000000 ≤ pa && pa < 0xe0013000000 then .window ((pa - 0xe0010000000) / 0x4000) (pa % 0x4000)
  else .hole

/-- The one name under which a byte is stored: a spread address becomes its home address (R11, R12). -/
def canon (pa : Nat) : Nat := match paKind pa with | .home d o => d * 0x4000000000 + o | _ => pa

def homeDie (pa : Nat) : Option Nat := match paKind pa with | .home d _ => some d | _ => none

/-- The home slice of a line (R189): die × 48 + slice. -/
def homeSlice (pa : Nat) : Nat := match paKind pa with | .home d o => d * 48 + o / 256 % 48 | _ => 0

/-- The channel group of a die-local offset (R10). -/
def groupOf (off : Nat) : Nat := off / 0x240000000

/-- The stack of a die-local offset, 0 to 2 on its die (R10). -/
def stackOf (off : Nat) : Nat := off % 0x240000000 / 256 % 3

/-- The pseudo-channel of a die-local offset within its stack, and the byte within the pseudo-channel (R10). -/
def pcOf (off : Nat) : Nat := 8 * groupOf off + off % 0x240000000 / 768 % 8
def pcByte (off : Nat) : Nat := off % 0x240000000 / 256 / 24 * 256 + off % 0x240000000 % 256

def lineOf (pa : Nat) : Nat := pa / 128 * 128

/-! ### Access to State -/

def State.core (s : State) (i : Nat) : Core := tget s.cores i Core.reset
def State.setCore (s : State) (i : Nat) (c : Core) : State := { s with cores := tput s.cores i c }
def State.modCore (s : State) (i : Nat) (f : Core → Core) : State := s.setCore i (f (s.core i))
def Core.context (c : Core) (k : Nat) : Context := vget c.ctx k Context.reset
def Core.modContext (c : Core) (k : Nat) (f : Context → Context) : Core :=
  { c with ctx := vmod c.ctx k Context.reset f }
def State.ctx (s : State) (i k : Nat) : Context := (s.core i).context k
def State.modCtx (s : State) (i k : Nat) (f : Context → Context) : State := s.modCore i (fun c => c.modContext k f)
/-- The issuing core and context, and their updates. -/
def State.me (s : State) : Core := s.core s.cur.1
def State.here (s : State) : Context := s.ctx s.cur.1 s.cur.2
def State.modMe (s : State) (f : Core → Core) : State := s.modCore s.cur.1 f
def State.modHere (s : State) (f : Context → Context) : State := s.modCtx s.cur.1 s.cur.2 f
def State.part (s : State) (p : Nat) : Partition := tget s.parts p Partition.absent
def State.modPart (s : State) (p : Nat) (f : Partition → Partition) : State :=
  { s with parts := tmod s.parts p Partition.absent f }
def State.die (s : State) (d : Nat) : Die := vget s.dies d { excluded := 0, lowest := false, rails := false, holding := [] }
def State.modDie (s : State) (d : Nat) (f : Die → Die) : State :=
  { s with dies := vmod s.dies d { excluded := 0, lowest := false, rails := false, holding := [] } f }
def State.cluster (s : State) (k : Nat) : Cluster := tget s.clusters k Cluster.reset
def State.modCluster (s : State) (k : Nat) (f : Cluster → Cluster) : State :=
  { s with clusters := tmod s.clusters k Cluster.reset f }
def State.chan (s : State) (ch : Nat) : Channel := vget s.channels ch Channel.reset
def State.modChan (s : State) (ch : Nat) (f : Channel → Channel) : State :=
  { s with channels := vmod s.channels ch Channel.reset f }
def State.vf (s : State) (v : Nat) : Vf := tget s.vfs v Vf.reset
def State.modVf (s : State) (v : Nat) (f : Vf → Vf) : State := { s with vfs := tmod s.vfs v Vf.reset f }
def State.node? (s : State) (k : Nat) : Option Node := s.nodes.find? (fun n => n.key = k)
def State.modNode (s : State) (k : Nat) (f : Node → Node) : State :=
  { s with nodes := s.nodes.map (fun n => if n.key = k then f n else n) }

/-- Registers of the issuing context (R307): s0 reads 0. -/
def Context.gpr (c : Context) (r : Nat) : DWord := if r = 0 then 0 else vget c.s r 0
def Context.setGpr (c : Context) (r : Nat) (v : DWord) : Context := if r = 0 then c else { c with s := vset c.s r v }
def State.gpr (s : State) (r : Reg) : DWord := s.here.gpr r.toNat
def State.gprN (s : State) (r : Reg) : Nat := (s.gpr r).toNat
def State.setGpr (s : State) (r : Reg) (v : DWord) : State := s.modHere (fun c => c.setGpr r.toNat v)
def State.xr (s : State) (r : Nat) : DWord := vget s.here.x r 0
def State.setXr (s : State) (r : Nat) (v : DWord) : State := s.modHere (fun c => { c with x := vset c.x r v })
def State.mr (s : State) (r : Nat) : DWord := vget s.here.m r 0
def State.setMr (s : State) (r : Nat) (v : DWord) : State := s.modHere (fun c => { c with m := vset c.m r v })

/-- A fresh key of the model (log 1). -/
def State.freshKey (s : State) : Nat × State := (s.nextKey, { s with nextKey := s.nextKey + 1 })

/-- A value the spec leaves free (log 6). -/
def State.free (s : State) : DWord × State := (Config.freeValue s.fresh, { s with fresh := s.fresh + 1 })

/-- Core `a` reaches core `b` of its gang (R184): itself, or a core that runs the same node. -/
def State.sameGang (s : State) (a b : Nat) : Bool :=
  a == b || ((s.core a).node.isSome && (s.core a).node == (s.core b).node)

/-- The cores of a partition: the union of its rectangles (R16, R70). -/
def Rect.holds (r : Rect) (i : Nat) : Bool :=
  dieOf i == r.die && r.row ≤ rowOf i && rowOf i < r.row + r.rows && r.col ≤ colOf i && colOf i < r.col + r.cols

def Partition.holdsCore (p : Partition) (i : Nat) : Bool := p.rects.any (fun r => r.holds i)

/-- The partition of a core: the one it runs for, else the one whose rectangles hold it. -/
def State.partOf (s : State) (i : Nat) : Option Nat :=
  (s.core i).part.or ((s.parts.find? (fun e => e.2.present && e.2.holdsCore i)).map (·.1))

/-! ### Faults as values (R266) -/

def flt (kind sub : Nat) (addr : Nat := 0) (info : Nat := 0) : Flt :=
  { kind := kind, sub := sub, addr := addr, info := info, info2 := 0 }

/-- Check a condition that must not hold. -/
def failIf (c : Bool) (f : Flt) : Option Flt := if c then some f else none

/-! ### Pages and translation (R192 to R194) -/

def pageSize (attr : DWord) : Nat :=
  match bits attr.toNat 16 2 with | 0 => 0x40000 | 1 => 0x2000000 | _ => 0x100000000
def pageKind (attr : DWord) : AccKind := match bits attr.toNat 14 2 with | 0 => .so | 1 => .rc | _ => .uo
def pageFrame (attr : DWord) : Nat := bits attr.toNat 18 26 * 0x40000
def pagePart (attr : DWord) : Nat := bits attr.toNat 58 6
def pageHandoff (attr : DWord) : Bool := attr.getLsbD 11
def pageCounter (attr : DWord) : Bool := attr.getLsbD 10
def pageMerge (attr : DWord) : Bool := attr.getLsbD 9

def schedBase : Nat := 0x00fffffffffc0000
def mailBase : Nat := 0x00fffd0000000000
def windowBase : Nat := 0x00fffe0000000000

/-- The attribute word of a page that fw2 maps itself (R72, R129, R273), with bits [43:18] of its frame. -/
def fixedAttr (part frame kind : Nat) (counter : Bool) : DWord :=
  b64 (part * 2 ^ 58 + frame * 2 ^ 18 + kind * 2 ^ 14 + (if counter then 1024 else 0) + 7)

/-- The frame of the debug-window page of core `i`: 16 windows share a page (R9, R273). -/
def windowFrame (i : Nat) : Nat := (0xe0010000000 + i / 16 * 0x40000) / 0x40000

/-- The pages that fw2 maps at PART_CREATE: the scheduler page, the supervisor mailbox, the debug windows. -/
def fixedPage (s : State) (part va : Nat) : Option (DWord × Place) :=
  if !(s.part part).present then none
  else if schedBase ≤ va ∧ va < 2 ^ 56 then some (fixedAttr part (Config.fixedFrame part 0).toNat 1 true, .sched part (va - schedBase))
  else if mailBase ≤ va ∧ va < mailBase + 0x40000 then some (fixedAttr part (Config.fixedFrame part 1).toNat 0 false, .mailbox part (va - mailBase))
  else if windowBase ≤ va ∧ va < windowBase + 0x3000000 ∧ (s.part part).holdsCore ((va - windowBase) / 0x4000) then
    some (fixedAttr part (windowFrame ((va - windowBase) / 0x4000)) 0 false, .window ((va - windowBase) / 0x4000) (va % 0x4000))
  else none

def pageAt (l : List Page) (va : Nat) : Option Page := l.find? (fun g => g.va ≤ va && va < g.va + pageSize g.attr)

/-- The page that holds an address; a dormant partition's tables are those of its collapse (R104). -/
def Partition.page? (p : Partition) (va : Nat) : Option Page :=
  pageAt (if p.dmState = .dormant then p.peekPages else p.pages) va

def State.dieExcluded (s : State) (d : Nat) : Bool := (s.die d).excluded != 0

/-- Check 5 of R194 (R19): the spread alias needs all four dies. -/
def State.absent (s : State) (pa : Nat) : Bool :=
  if inSpread pa then (List.range 4).any s.dieExcluded
  else match paKind pa with
    | .home d _ => s.dieExcluded d
    | .baseDie k _ => s.dieExcluded (k / 3)
    | .window i _ => s.dieExcluded (dieOf i)
    | _ => false

/-- Checks 2 to 7 of R194 for an access of a partition by its page tables: the page's attribute word and the place of the
byte. An agent that is no core has no local region (R390), so all of it is a hole. -/
def translate (s : State) (part va : Nat) (rd wr : Bool) : Except Flt (DWord × Place) :=
  if 2 ^ 56 ≤ va then .error (flt 4 1 va)
  else if va < 0x1000000 then .error (flt 4 3 va)
  else match fixedPage s part va with
  | some r => (match r.2 with
    | .window i _ => if s.dieExcluded (dieOf i) then .error (flt 11 0 va) else .ok r
    | .sched p _ => if s.dieExcluded (dieOf (s.part p).supervisor) then .error (flt 11 0 va) else .ok r
    | _ => .ok r)
  | none =>
    match (s.part part).page? va with
    | none => .error (flt 4 1 va)
    | some g =>
      let a := g.attr
      let pa := pageFrame a + (va - g.va)
      if !a.getLsbD 0 then .error (flt 4 1 va)
      else if paKind pa = .hole then .error (flt 4 2 va a.toNat)
      else if s.absent pa then .error (flt 11 0 va)
      else if pagePart a ≠ part then .error (flt 5 3 va a.toNat)
      else if rd && !a.getLsbD 1 then .error (flt 5 1 va a.toNat)
      else if wr && !a.getLsbD 2 then .error (flt 5 2 va a.toNat)
      else .ok (a, .phys (canon pa))

/-- Classes of access that R194 and R204 treat apart: `xload` is `xld`, which is no `ld.d` (R72, R273), and `remote` a `get` or
`put`, which check 8 passes (R339). -/
inductive AccClass where
  | load | xload | store | atomic | counterRead | counterAdd | lines
  | chunkRead (remote : Bool) | chunkWrite (remote : Bool)
  deriving DecidableEq, Repr

def AccClass.reads : AccClass → Bool
  | .load | .xload | .atomic | .counterRead | .counterAdd | .chunkRead _ => true
  | _ => false
def AccClass.writes : AccClass → Bool
  | .store | .atomic | .counterAdd | .chunkWrite _ => true
  | _ => false
/-- Check 8 concerns ordinary loads and stores (R194). -/
def AccClass.ordinary : AccClass → Bool
  | .load | .xload | .store | .chunkRead false | .chunkWrite false => true
  | _ => false
def AccClass.isCounter : AccClass → Bool
  | .counterRead | .counterAdd => true
  | _ => false
def AccClass.isLoadStore : AccClass → Bool
  | .load | .store => true
  | _ => false

/-- A translated access: its page kind, place, whether it lies on a handoff page, and its attribute word. -/
structure Target where
  kind : AccKind
  place : Place
  handoff : Bool
  attr : DWord
  deriving DecidableEq, Repr

/-- The local region (R184): the core and LM offset an address below 0x0100_0000 reaches, or none in a hole. -/
def localPlace (core va : Nat) : Option (Nat × Nat) :=
  if va < 0x60000 then some (core, va)
  else if 0x100000 ≤ va ∧ va < 0x900000 ∧ (va - 0x100000) % 0x80000 < 0x60000 then
    some (coreAt core ((va - 0x100000) / 0x80000), (va - 0x100000) % 0x80000)
  else none

/-- `LocalAddr(c, off)` (R330). -/
def localAddr (core c off : Nat) : Nat := if c = cicOf core then off else 0x100000 + 0x80000 * c + off

/-- Check 9 of R194 with R130 and R204. -/
def counterRule (cls : AccClass) (w : Nat) (a : DWord) (pl : Place) (va : Nat) : Option Flt :=
  if cls.isCounter then
    match pl with
    | .sched _ _ => failIf (cls = .counterAdd) (flt 5 5 va a.toNat)
    | _ => failIf (!pageCounter a) (flt 5 5 va a.toNat)
  else match cls, pl with
    | .store, .sched _ off => failIf (!(w = 8 && off < 0x10000 && off % 64 = 0)) (flt 5 5 va a.toNat)
    | _, _ => failIf (cls.writes && pageCounter a) (flt 5 5 va a.toNat)

/-- Check 8 of R194: an ordinary access to a line homed on a die other than the accessor's, with HANDOFF 0. -/
def remoteRule (s : State) (core : Nat) (cls : AccClass) (a : DWord) (pl : Place) (va : Nat) : Option Flt :=
  let die := match pl with
    | .phys pa => homeDie pa
    | .sched p _ => some (dieOf (s.part p).supervisor)
    | _ => none
  failIf (cls.ordinary && die.isSome && die != some (dieOf core) && !pageHandoff a) (flt 5 4 va a.toNat)

/-- Limits of the debug windows and the supervisor mailbox (R72, R273): the supervisor core, then an aligned `ld.d` or
`st.d`. Any access that is no scalar load or store counts as one of another width (log 11). -/
def windowRule (s : State) (core part : Nat) (cls : AccClass) (w va : Nat) (a : DWord) (pl : Place) : Option Flt :=
  match pl with
  | .mailbox _ _ | .window _ _ =>
    failIf (core != (s.part part).supervisor || (match cls with | .chunkRead _ | .chunkWrite _ => true | _ => false))
      (flt 5 9 va a.toNat)
    <|> failIf (!(cls.isLoadStore && w = 8)) (flt 2 1 va)
  | _ => none

/-- The checks of R194 in their order for an access by a core. -/
def checkAcc (s : State) (core : Nat) (cls : AccClass) (va w : Nat) : Except Flt Target :=
  if (match cls with | .chunkRead _ | .chunkWrite _ | .lines => false | _ => va % w != 0) then .error (flt 2 1 va)
  else if va < 0x1000000 then
    match localPlace core va with
    | none => .error (flt 4 3 va)
    | some (c, off) =>
      if !s.sameGang core c then .error (flt 5 6 va)
      else if cls.isCounter then .error (flt 5 5 va)
      else .ok { kind := .rc, place := .lm c off, handoff := false, attr := 0 }
  else match (s.core core).part with
  | none => .error (flt 4 1 va)
  | some p =>
    match translate s p va cls.reads cls.writes with
    | .error f => .error f
    | .ok (a, pl) =>
      match windowRule s core p cls w va a pl <|> remoteRule s core cls a pl va <|> counterRule cls w a pl va with
      | some f => .error f
      | none => .ok { kind := pageKind a, place := pl, handoff := pageHandoff a, attr := a }

/-! ### The addresses of a place -/

/-- The spread address of a byte of a home range (R11). -/
def spreadName (pa : Nat) : Nat := match paKind pa with | .home d o => 0x10000000000 + (o / 4096 * 4 + d) * 4096 + o % 4096 | _ => pa

/-- The pages of a partition that show a physical byte, through home ranges and through the spread alias, each with the address. -/
def pageVas (p : Partition) (pa : Nat) : List (Page × Nat) :=
  p.pages.filterMap (fun g =>
    let f := pageFrame g.attr
    let at' := fun (a : Nat) => if f ≤ a && a < f + pageSize g.attr then some (g, g.va + (a - f)) else none
    (at' pa).or (at' (spreadName pa)))

/-- The addresses at which a core reaches a place: a frame may be mapped more than once (R419), and the core's own LM has two. -/
def placeVas (s : State) (core : Nat) (pl : Place) : List Nat :=
  match pl with
  | .lm c off => (if c = core then [off] else []) ++ (if clusterKey c = clusterKey core then [0x100000 + 0x80000 * cicOf c + off] else [])
  | .phys pa => (match (s.core core).part with | some p => (pageVas (s.part p) pa).map (·.2) | none => [])
  | .sched _ off => [schedBase + off]
  | .mailbox _ off => [mailBase + off]
  | .window c off => [windowBase + 0x4000 * c + off]
  | .fabric _ _ _ => []

/-- The runs of a partition's frames that a range of addresses names. -/
def rangeFrames (p : Partition) (va n : Nat) : List (Nat × Nat) :=
  p.pages.filterMap (fun g =>
    let a := max va g.va
    let e := min (va + n) (g.va + pageSize g.attr)
    if a < e then some (pageFrame g.attr + (a - g.va), e - a) else none)

/-! ### Storage at home -/

/-- A register of a base-die window (R15). -/
def baseDieReg (s : State) (k off : Nat) : DWord :=
  let b := vget s.baseDies k { stat := 7, jobs := 0, err := 0 }
  match off with
  | 0 => b64 k
  | 1 => b.stat.setWidth 64
  | 2 => b.jobs
  | 3 => b.err.setWidth 64
  | _ => 0

def readPhys (s : State) (pa n : Nat) : List Byte :=
  match paKind pa with
  | .baseDie k off => (List.range n).map (fun i =>
      BitVec.ofNat 8 (bits (baseDieReg s k ((off + i) / 8)).toNat (8 * ((off + i) % 8)) 8))
  | .window _ _ | .hole => List.replicate n 0
  | _ => Memory.reads s.mem pa n

def writePhys (s : State) (pa : Nat) (bs : List Byte) : State :=
  match paKind pa with
  | .baseDie k off =>
    if off ≤ 0x18 then
      (let f := fun (r : BaseDie) => { r with err := r.err &&& ~~~((bs.getD (0x18 - off) 0).setWidth 3) }
       { s with baseDies := vmod s.baseDies k { stat := 7, jobs := 0, err := 0 } f })
    else s
  | .window _ _ | .hole => s
  | _ => { s with mem := Memory.writes s.mem pa bs }

/-- Bytes at a place that is plain storage; the mailbox, the windows and other packages are served elsewhere. -/
def readPlace (s : State) (pl : Place) (n : Nat) : List Byte :=
  match pl with
  | .lm c off => Memory.reads (s.core c).lm off n
  | .phys pa => readPhys s pa n
  | .sched p off => Memory.reads (s.part p).sched off n
  | _ => List.replicate n 0

def writePlace (s : State) (pl : Place) (bs : List Byte) : State :=
  match pl with
  | .lm c off => s.modCore c (fun k => { k with lm := Memory.writes k.lm off bs })
  | .phys pa => writePhys s pa bs
  | .sched p off => s.modPart p (fun q => { q with sched := Memory.writes q.sched off bs })
  | _ => s

def Place.add (pl : Place) (n : Nat) : Place :=
  match pl with
  | .lm c o => .lm c (o + n) | .phys pa => .phys (pa + n) | .sched p o => .sched p (o + n)
  | .mailbox p o => .mailbox p (o + n) | .window c o => .window c (o + n) | .fabric k p va => .fabric k p (va + n)

/-- Any byte of the range lies in a poisoned line (R208). -/
def State.poisoned (s : State) (pl : Place) (n : Nat) : Bool :=
  match pl with
  | .phys pa => s.poison.any (fun l => l < pa + n && pa < l + 128)
  | _ => false

/-- Mask bits of the bytes [a, a + n) of the line at `line`. -/
def lineMask (line a n : Nat) : BitVec 128 := BitVec.ofNat 128 ((2 ^ n - 1) * 2 ^ (a - line))

/-- The run of consecutive stores of a context that may cover a line whole (R208): the run after a store, and the line covered. -/
def coverRun (run : Option (Nat × BitVec 128)) (pa n : Nat) : Option (Nat × BitVec 128) × Option Nat :=
  let l := lineOf pa
  let m := match run with
    | some (l', m') => if l' = l then m' ||| lineMask l pa n else lineMask l pa n
    | none => lineMask l pa n
  if m = BitVec.allOnes 128 then (none, some l) else (some (l, m), none)

/-- The bytes of poisoned lines that a job has written (R208): the cover after a write of the job, and the line covered. -/
def coverJob (run : Cover) (pa n : Nat) : Cover × Option Nat :=
  let l := lineOf pa
  let m := ((run.find? (fun e => e.1 = l)).map (·.2)).getD 0 ||| lineMask l pa n
  let rest := run.filter (fun e => e.1 != l)
  if m = BitVec.allOnes 128 then (rest, some l) else ((l, m) :: rest, none)

/-! ### Holding copies (R197, R198, R221) -/

/-- A line of a handoff page homed on a die other than the accessor's. -/
def heldLine (die : Nat) (handoff : Bool) (pl : Place) : Option Nat :=
  match pl with
  | .phys pa => (match homeDie pa with | some d => if handoff && d != die then some (lineOf pa) else none | none => none)
  | _ => none

def Die.copy? (d : Die) (line : Nat) : Option Holding := d.holding.find? (fun h => h.line = line)

/-- The copies that a die's 16 MiB hold (R197). -/
def holdLimit : Nat := 131072

/-- A copy of the line stands in the die, or there is room for one: else an EVICT comes first. -/
def holdRoom (s : State) (die line : Nat) : Bool :=
  ((s.die die).copy? line).isSome || decide ((s.die die).holding.length < holdLimit)

/-- Fill a copy from home when the die holds none (HREAD, HWRITE of R221). -/
def holdFill (s : State) (die line : Nat) : State :=
  match (s.die die).copy? line with
  | some _ => s
  | none => s.modDie die (fun d => { d with holding :=
      { line := line, bytes := readPhys s line 128, mask := 0, stores := [], vec := 0
        poison := s.poisoned (.phys line) 128, cover := none } :: d.holding })

def Die.modCopy (d : Die) (line : Nat) (f : Holding → Holding) : Die :=
  { d with holding := d.holding.map (fun h => if h.line = line then f h else h) }

def putAt {α : Type} (l : List α) (i : Nat) (bs : List α) : List α := l.take i ++ bs ++ l.drop (i + bs.length)

/-- The origin of a store into a holding copy: its context (core × 16 + context), its entry's key (none for an engine thread), whether it is a
context's store to an SO page, and the tag of an engine thread that has one. -/
structure Origin where
  owner : Nat
  acc : Option Nat
  so : Bool
  tag : Option Nat
  deriving DecidableEq, Repr

/-- A store of an engine thread. -/
def Origin.thread (owner : Nat) (tag : Option Nat) : Origin := { owner := owner, acc := none, so := false, tag := tag }

/-- HWRITE: bytes at `pa` into the copy, recorded with their context (R215, R222), a vector store with its granule (R411). -/
def holdWrite (s : State) (die pa : Nat) (bs : List Byte) (o : Origin) (vec : Bool) : State :=
  let l := lineOf pa
  let m := lineMask l pa bs.length
  let (key, s) := s.freshKey
  (holdFill s die l).modDie die (fun d => d.modCopy l (fun h =>
    { h with
      bytes := putAt h.bytes (pa - l) bs
      mask := h.mask ||| m
      stores := (h.stores.map (fun x => { x with mask := x.mask &&& ~~~m })).filter (fun x => x.mask != 0) ++
        [{ owner := o.owner, acc := o.acc, seq := key, so := o.so, tag := o.tag, span := m, mask := m }]
      vec := if vec then h.vec ||| (1#2 <<< ((pa - l) / 64)) else h.vec }))

/-- Write the masked bytes of a message at home (APPLY of R221). -/
def applyMasked : Bytes → Nat → List Byte → BitVec 128 → Nat → Bytes
  | m, _, [], _, _ => m
  | m, a, b :: r, k, i => applyMasked (if k.getLsbD i then Memory.write m (a + i) b else m) a r k (i + 1)

def pathKey (die line : Nat) : Nat := die * 1000 + homeSlice line

def applyMsg (m : Bytes) (w : WtMsg) : Bytes := applyMasked m w.line w.bytes w.mask 0

/-- Messages are applied in their order; one with which a whole written line has gone home clears its poison (R208). -/
def applyMsgs (s : State) (ms : List WtMsg) : State :=
  { s with
    mem := ms.foldl applyMsg s.mem
    poison := s.poison.filter (fun l => !ms.any (fun w => w.clears && w.line = l)) }

/-- The messages of a path up to the last one that `sel` picks are applied in their order (APPLY, R221). -/
def applyThrough (s : State) (k : Nat) (sel : WtMsg → Bool) : State :=
  let ms := tget s.paths k []
  let n := ms.length - (ms.reverse.takeWhile (fun w => !sel w)).length
  if n = 0 then s
  else { applyMsgs s (ms.take n) with paths := if n = ms.length then tdel s.paths k else tput s.paths k (ms.drop n) }

/-- The mask of the stores of a copy that `sel` picks. -/
def storeMask (sel : HeldStore → Bool) (l : List HeldStore) : BitVec 128 :=
  l.foldl (fun m h => if sel h then m ||| h.mask else m) 0

/-- With the bytes `m` a whole written line has gone home (R208). -/
def Holding.clears (h : Holding) (m : BitVec 128) : Bool :=
  match h.cover with | some c => c ||| m = BitVec.allOnes 128 | none => false

/-- Bytes `m` leave a copy clean. -/
def Holding.sent (h : Holding) (m : BitVec 128) : Holding :=
  { h with
    cover := if h.clears m then none else h.cover.map (· ||| m)
    mask := h.mask &&& ~~~m
    stores := (h.stores.map (fun x => { x with mask := x.mask &&& ~~~m })).filter (fun x => x.mask != 0)
    vec := h.vec &&& (if (h.mask &&& ~~~m) &&& 0xffffffffffffffff = 0 then 2#2 else 3#2) &&&
      (if (h.mask &&& ~~~m) >>> 64 = 0 then 1#2 else 3#2) }

/-- The message with which bytes `m` of a copy go home. -/
def Holding.message (h : Holding) (m : BitVec 128) : WtMsg where
  line := h.line
  bytes := h.bytes
  mask := m
  stores := (h.stores.map (fun x => { x with mask := x.mask &&& m })).filter (fun x => x.mask != 0)
  clears := h.clears m

/-- Send and apply chosen bytes of one copy of a die. -/
def flushBytes (s : State) (die : Nat) (h : Holding) (m : BitVec 128) : State :=
  (applyMsgs (applyThrough s (pathKey die h.line) (fun _ => true)) [h.message m]).modDie die (fun d => d.modCopy h.line (fun h => h.sent m))

/-- The bits of the 64-byte granule `g` of a line. -/
def granuleBits (g : Nat) : BitVec 128 := 0xffffffffffffffff#128 <<< (64 * g)

/-- A store of up to 8 bytes, which travels whole (R221). -/
def HeldStore.small (x : HeldStore) : Bool := (List.range 128).countP (fun i => x.span.getLsbD i) ≤ 8

/-- The sets of bytes that a message which touches them holds as far as they are dirty: those that a store of up to 8 bytes wrote, also where
a later store has written some of them again (R221), and the granules that a vector or tile access wrote (R411). -/
def Holding.units (h : Holding) : List (BitVec 128) :=
  (h.stores.filter HeldStore.small).map (·.span) ++ ((List.range 2).filter (fun g => h.vec.getLsbD g)).map granuleBits

/-- Dirty bytes `m`, with those that must travel with them. -/
def Holding.whole (h : Holding) (m : BitVec 128) : BitVec 128 :=
  (List.range (h.units.length + 1)).foldl (fun m _ =>
    h.units.foldl (fun a u => if u &&& m != 0 then a ||| (u &&& h.mask) else a) m) (m &&& h.mask)

/-- An SO store of a context before its store `n`. -/
def HeldStore.soBefore (owner n : Nat) (x : HeldStore) : Bool := x.so && x.owner = owner && decide (x.seq < n)

/-- Bytes `m` of a line in `die`'s copy are sent and applied, whole granules of vector stores together (R411), and before them every
earlier SO byte of the contexts whose SO stores they hold (R222), in the same way; `fuel` bounds the depth. -/
def flushMask : Nat → State → Nat → Nat → BitVec 128 → State
  | fuel, s, die, line, m =>
    match (s.die die).copy? line with
    | none => s
    | some h =>
      let m := h.whole m
      let s : State := match fuel with
        | 0 => s
        | n + 1 => (h.stores.filter (fun (x : HeldStore) => x.so && x.mask &&& m != 0)).foldl (fun s (x : HeldStore) =>
            let sel := HeldStore.soBefore x.owner x.seq
            let s : State := s.paths.foldl (fun s (p : Nat × List WtMsg) => if p.1 / 1000 = die then applyThrough s p.1 (fun w => w.stores.any sel) else s) s
            (s.die die).holding.foldl (fun s (g : Holding) =>
              let e := storeMask sel g.stores &&& (if g.line = line then ~~~m else BitVec.allOnes 128)
              if e = 0 then s else flushMask n s die g.line e) s) s
      match (s.die die).copy? line with
      | none => s
      | some h => if m &&& h.mask = 0 then s else flushBytes s die h (m &&& h.mask)

/-- How many stores a die's copies hold bytes of. -/
def heldStores (d : Die) : Nat := (d.holding.map (fun h => h.stores.length)).sum

/-- Every dirty byte of a line in `die`'s copy is sent and applied (R223). -/
def flushLine (s : State) (die line : Nat) : State :=
  let s := applyThrough s (pathKey die line) (fun w => w.line = line)
  match (s.die die).copy? line with
  | none => s
  | some h => flushMask (heldStores (s.die die)) s die line h.mask

def dropLine (s : State) (die line : Nat) : State :=
  s.modDie die (fun d => { d with holding := d.holding.filter (fun h => h.line != line) })

/-- A read by an agent of `die` (PERFORM of a read, R210): the copy for a handoff line homed elsewhere, else home. -/
def readAs (s : State) (die : Nat) (handoff : Bool) (pl : Place) (n : Nat) : List Byte × State :=
  match heldLine die handoff pl, pl with
  | some l, .phys pa =>
    let s := holdFill s die l
    ((((s.die die).copy? l).map (fun h => (h.bytes.drop (pa - l)).take n)).getD [], s)
  | _, _ => (readPlace s pl n, s)

/-- A write by an agent of `die` (PERFORM of a write, R210). -/
def writeAs (s : State) (die : Nat) (handoff : Bool) (pl : Place) (bs : List Byte) (o : Origin) (vec : Bool) : State :=
  match heldLine die handoff pl, pl with
  | some _, .phys pa => holdWrite s die pa bs o vec
  | _, _ => writePlace s pl bs

/-- The line would be read poisoned: at its home, or in a copy that was filled from a poisoned home (R208). -/
def poisonedAs (s : State) (die : Nat) (handoff : Bool) (pl : Place) (n : Nat) : Bool :=
  match heldLine die handoff pl with
  | some l => (match (s.die die).copy? l with | some h => h.poison | none => s.poisoned pl n)
  | none => s.poisoned pl n

/-- Line `l` has been written whole by one job or context (R208): its poison is cleared at home, or in the die's copy, with which
it is cleared at home once all its bytes have gone there. -/
def State.covered (s : State) (die : Nat) (handoff : Bool) (l : Option Nat) : State :=
  match l with
  | none => s
  | some l =>
    match heldLine die handoff (.phys l) with
    | some _ => s.modDie die (fun d => d.modCopy l (fun h => { h with poison := false, cover := some 0 }))
    | none => { s with poison := s.poison.filter (· != l) }

/-! ### Reads and writes of DX agents on behalf of a partition -/

/-- Translation for an agent that is no core of the partition: the supervisor's pages are not its (R72, R273). -/
def translateAgent (s : State) (part va : Nat) (rd wr : Bool) : Except Flt (DWord × Place) :=
  match translate s part va rd wr with
  | .ok (a, .mailbox _ _) | .ok (a, .window _ _) => .error (flt 5 9 va a.toNat)
  | r => r

/-- The bytes at a virtual address of a partition, read at home; the first failing byte's fault (R415). -/
def vread (s : State) (part : Nat) : Nat → Nat → Except Flt (List Byte)
  | _, 0 => .ok []
  | va, n + 1 =>
    match translateAgent s part va true false with
    | .error f => .error f
    | .ok (_, pl) =>
      if s.poisoned pl 1 then .error (flt 6 1 va)
      else match vread s part (va + 1) n with
        | .error f => .error f
        | .ok bs => .ok (readPlace s pl 1 ++ bs)

/-- The AES-256-XTS key pair of a partition key (R79). -/
def keyBytes (k : Nat) : List Byte := natBytes 64 (Config.xtsKey k).toNat

/-- What others read of a sealed partition's memory: ciphertext, in data units of 128 bytes (R74, R79). -/
def cipherBytes (s : State) (part : Nat) (pl : Place) (n : Nat) : List Byte :=
  match pl, (s.part part).key with
  | .phys pa, some k =>
    if (homeDie pa).isNone then readPhys s pa n
    else (List.range n).map (fun i =>
      let l := lineOf (pa + i)
      (xtsEncrypt (keyBytes k) l 0 (readPhys s l 128)).getD (pa + i - l) 0)
  | _, _ => readPlace s pl n

/-- The bytes at a virtual address as firmware reads them (R74). -/
def firmwareRead (s : State) (part : Nat) : Nat → Nat → Except Flt (List Byte)
  | _, 0 => .ok []
  | va, n + 1 =>
    match translateAgent s part va true false with
    | .error f => .error f
    | .ok (_, pl) =>
      if s.poisoned pl 1 then .error (flt 6 1 va)
      else match firmwareRead s part (va + 1) n with
        | .error f => .error f
        | .ok bs => .ok ((if (s.part part).sealed then cipherBytes s part pl 1 else readPlace s pl 1) ++ bs)

/-- A write that the partition firewall drops is counted (R74, R416). -/
def State.firewallDrop (s : State) : State := { s with boot := { s.boot with firewall := s.boot.firewall + 1 } }

/-- A write of `len` bytes at `va` is a store to a DEPTH word of the scheduler page (R130). -/
def depthStore (s : State) (part va len : Nat) : Bool :=
  match translateAgent s part va false true with
  | .ok (_, .sched _ off) => len = 8 && decide (off < 0x10000) && off % 64 = 0
  | _ => false

/-- The first byte of a write that the page tables of a partition refuse; a counter page takes only `depth` stores (R130, R204). -/
def vcheckW (s : State) (part : Nat) (depth : Bool) : Nat → Nat → Option Flt
  | _, 0 => none
  | va, n + 1 =>
    match translateAgent s part va false true with
    | .error f => some f
    | .ok (a, _) => if pageCounter a && !depth then some (flt 5 5 va a.toNat) else vcheckW s part depth (va + 1) n

def vput (s : State) (part : Nat) : Nat → List Byte → State
  | _, [] => s
  | va, b :: r =>
    vput (match translateAgent s part va false true with | .ok (_, pl) => writePlace s pl [b] | .error _ => s) part (va + 1) r

/-- Write bytes at a virtual address of a partition; nothing is written when a byte fails. -/
def vwrite (s : State) (part va : Nat) (bs : List Byte) : Except Flt State :=
  match vcheckW s part (depthStore s part va bs.length) va bs.length with
  | some f => .error f
  | none => .ok (vput s part va bs)

/-! ### Trace (R86, R87) -/

def traceRecord (s : State) (typ ctx core value : Nat) : List Byte :=
  natBytes 1 typ ++ natBytes 1 ctx ++ natBytes 2 core ++ natBytes 4 0 ++ natBytes 8 s.clock ++ natBytes 8 value ++ natBytes 8 0

/-- A trace record of the class that bit `cls` of TRCTL switches on; a record that finds the bandwidth in use, or that cannot be written, is
dropped and counted; so is one while TRSIZE is 0, in wrap mode too, of which R87 says nothing (DESIGN CHOICE, log 80). -/
def trace (s : State) (p cls typ ctx core value : Nat) : State :=
  let q := s.part p
  if !q.trctl.getLsbD cls then s
  else
    let cap := q.trsize.toNat * 128
    let drop := s.modPart p (fun q => { q with trdrop := q.trdrop + 1 })
    if cap = 0 || q.trload || (q.trctl.getLsbD 3 && cap ≤ q.trwptr.toNat) then drop
    else match vwrite s p (q.trbase.toNat + 32 * (q.trwptr.toNat % cap)) (traceRecord s typ ctx core value) with
      | .error _ => drop
      | .ok s => s.modPart p (fun q => { q with trwptr := q.trwptr + 1 })

/-- A record about a context of a core. -/
def traceCtx (s : State) (cls typ core ctx value : Nat) : State :=
  match s.partOf core with | some p => trace s p cls typ ctx core value | none => s

/-- A node record (R87). -/
def traceNode (s : State) (p typ : Nat) (nodeid : DWord) : State := trace s p 2 typ 0xf 0xfff nodeid.toNat

/-- A timing event at an instruction of a context (R87). -/
def traceAt (s : State) (core ctx code pc : Nat) : State := traceCtx s 1 2 core ctx (code + pc % 65536 * 65536)

/-- A timing event at the context's present instruction. One that concerns no instruction, a freeze without a faulting one, a resume
and a stop by the collector, is recorded with CTX 0xf, which has no PC, and so at offset 0: R87 states neither (DESIGN CHOICE, log 20). -/
def traceTiming (s : State) (core ctx code : Nat) : State := traceAt s core ctx code (s.ctx core ctx).pc.toNat

/-! ### Counters and wait tables (R203, R205) -/

def counterKey : Place → Nat
  | .phys pa => pa
  | .sched p off => 2 ^ 60 + p * 2 ^ 20 + off
  | _ => 0

/-- The home slice that serves a counter (R189, R205). A word of a scheduler page, which has no frame (R129), is served as if its offset in the
page were one on the supervisor core's die (DESIGN CHOICE, log 77). -/
def counterSlice (s : State) : Place → Nat
  | .phys pa => homeSlice pa
  | .sched p off => dieOf (s.part p).supervisor * 48 + off / 256 % 48
  | _ => 0

def counterValue (s : State) (pl : Place) : Nat := leNat (readPlace s pl 8)

/-- Skip tickets that were given up (R205); `n` bounds the search. -/
def skipTickets : Nat → WaitTable → WaitTable
  | 0, t => t
  | n + 1, t =>
    if t.serve = t.issue || t.tickets.any (fun k => k.1 = t.serve) then t
    else skipTickets n { t with serve := t.serve + 1 }

/-- A free entry is reserved for ticket SERVE while SERVE is below ISSUE (R205). -/
def reserveEntry (t : WaitTable) : WaitTable :=
  if t.entries.length < 64 then
    let t := skipTickets (t.issue - t.serve).toNat t
    { t with reservedEntry := t.serve != t.issue }
  else { t with reservedEntry := false }

/-- The waiter (core, ctx) stops waiting: its entry is freed and its ticket given up. -/
def withdrawWaiter (t : WaitTable) (core ctx : Nat) : WaitTable :=
  if t.entries.any (fun w => w.core = core && w.ctx = ctx) || t.tickets.any (fun k => k.2 = (core, ctx)) then
    reserveEntry { t with
      entries := t.entries.filter (fun w => !(w.core = core && w.ctx = ctx))
      tickets := t.tickets.filter (fun k => k.2 != (core, ctx)) }
  else t

def withdrawWaits (s : State) (core ctx : Nat) : State :=
  { s with waits := s.waits.map (fun e => (e.1, withdrawWaiter e.2 core ctx)) }

/-- The repeated read of a plain `cwait` (R225). -/
def Access.isWait (e : Access) : Bool := match e.op with | .wait _ => true | _ => false

/-- A context's pending wait has ended: it is satisfied, or dropped (R418). -/
def endWait (s : State) (core ctx : Nat) : State :=
  s.modCore core (fun c => { c.modContext ctx (fun x => { x with cwait := none }) with
    accs := c.accs.filter (fun e => !(e.ctx = ctx && e.isWait)) })

/-- The pending wait of a context stands among its entries again (R418: on resume or restore its request is sent again). -/
def resendWait (s : State) (core ctx : Nat) : State :=
  match (s.ctx core ctx).cwait, (s.core core).part with
  | some w, some p =>
    (match translate s p w.addr.toNat true false with
     | .error _ => s
     | .ok (a, pl) =>
       let e : Access := {
         id := s.nextKey, ctx := ctx, kind := pageKind a, op := .wait w.target, place := pl, va := w.addr, len := 8
         handoff := false, acq := false, rel := false, scope := 0, bypass := false, remote := false, merge := false
         joined := [], pc := 0, word := 0 }
       { s with nextKey := s.nextKey + 1 }.modCore core (fun c => { c with accs := c.accs ++ [e] }))
  | _, _ => s

def resendWaits (s : State) (core : Nat) : State := (List.range 11).foldl (fun s k => resendWait s core k) s

/-- The counter with key `key` has value `v`: parked waiters it satisfies are told DONE (R205). -/
def counterReached (s : State) (slice key v : Nat) : State :=
  let t := tget s.waits slice WaitTable.reset
  let done := t.entries.filter (fun w => w.addr = key && w.target.toNat ≤ v)
  if done.isEmpty then s
  else
    let t' := reserveEntry { t with entries := t.entries.filter (fun w => !(w.addr = key && w.target.toNat ≤ v)) }
    done.foldl (fun s w => endWait s w.core w.ctx) { s with waits := tput s.waits slice t' }

/-- `cadd` performed at its home (R203): saturating, then the wait table. -/
def counterAdd (s : State) (pl : Place) (amount : Nat) : State :=
  let v := min (counterValue s pl + amount) (2 ^ 64 - 1)
  let s := if amount = 0 then s else writePlace s pl (natBytes 8 v)
  counterReached s (counterSlice s pl) (counterKey pl) v

/-! ### Reports to the supervisor (R266 to R271) -/

/-- A message with ORIGIN `origin` about a core's context (R271). -/
def mkPacket (s : State) (typ core ctx origin : Nat) (f : Flt) (pc : DWord) (word : BitVec 32) (nodeid : DWord) : Packet where
  typ := BitVec.ofNat 8 typ
  kind := BitVec.ofNat 8 f.kind
  sub := BitVec.ofNat 16 f.sub
  core := BitVec.ofNat 16 core
  ctx := BitVec.ofNat 8 ctx
  origin := BitVec.ofNat 8 origin
  pc := pc
  word := word
  lost := 0
  addr := b64 f.addr
  info := b64 f.info
  info2 := b64 f.info2
  nodeid := nodeid
  clock := b64 s.clock

/-- The 64 bytes of a message (R271). -/
def Packet.bytes (k : Packet) : List Byte :=
  [k.typ, k.kind] ++ natBytes 2 k.sub.toNat ++ natBytes 2 k.core.toNat ++ [k.ctx, k.origin] ++ natBytes 8 k.pc.toNat ++
  natBytes 4 k.word.toNat ++ natBytes 4 k.lost.toNat ++ natBytes 8 k.addr.toNat ++ natBytes 8 k.info.toNat ++
  natBytes 8 k.info2.toNat ++ natBytes 8 k.nodeid.toNat ++ natBytes 8 k.clock.toNat

/-- A notice sets out for the supervisor of a partition (R270). -/
def sendNotice (s : State) (p : Nat) (k : Packet) : State :=
  s.modPart p (fun q => { q with noticeFlight := q.noticeFlight ++ [k] })

/-- A notice of a core's partition. -/
def coreNotice (s : State) (core ctx origin : Nat) (f : Flt) (pc : DWord) (word : BitVec 32) : State :=
  match s.partOf core with
  | some p => sendNotice s p (mkPacket s 1 core ctx origin f pc word (s.core core).nodeid)
  | none => s

/-- A notice of ORIGIN 4 about a node (R267). -/
def nodeNotice (s : State) (p : Nat) (f : Flt) (nodeid : DWord) : State :=
  sendNotice s p (mkPacket s 1 0 0xf 4 f 0 0 nodeid)

/-- A fault packet of a core: DWPKT holds it, and it sets out for the supervisor (R268, R270, R274). -/
def postFault (s : State) (core : Nat) (k : Packet) : State :=
  let s := s.modCore core (fun c => { c with packet := some k, lastKind := k.kind })
  match s.partOf core with
  | some p => s.modPart p (fun q => { q with faultFlight := q.faultFlight ++ [k] })
  | none => s

/-! ### Promise records (R254) -/

def stageArea (c : Core) : Nat := c.pbase.toNat

def Core.watchAt (c : Core) (k : Nat) : Watch := vget c.watch k Watch.free
def Core.setWatch (c : Core) (k : Nat) (w : Watch) : Core := { c with watch := vset c.watch k w }

/-- Bytes 0x00 to 0x4f, with the NEXTT given. -/
def watchHead (w : Watch) (n : BitVec 32) : List Byte :=
  [w.id, w.xref, w.href, w.ghref, w.gref, w.wref, w.vi, w.vr].flatMap (fun d => natBytes 8 d.toNat) ++
  natBytes 4 w.life.toNat ++ natBytes 4 w.etao.toNat ++ [w.state.setWidth 8, w.flags, 0, 0] ++ natBytes 4 n.toNat

/-- The record of slot `k` is written whole. -/
def writeRecord (c : Core) (k : Nat) : Core :=
  let w := c.watchAt k
  if stageArea c = 0 then c
  else { c with lm := Memory.writes c.lm (stageArea c + 256 + 256 * k) (watchHead w w.rnext ++ List.replicate 176 0) }

/-- The job of slot `k` stops: NEXTT goes to the record. -/
def stopRecord (c : Core) (k : Nat) : Core :=
  let w := c.watchAt k
  writeRecord (c.setWatch k { w with rnext := w.nextt }) k

/-! The tiles of a matrix reference (R253). -/
def refCB (r : DWord) : Nat := bits r.toNat 32 8
def refRB (r : DWord) : Nat := bits r.toNat 24 8
def refBf (r : DWord) : Bool := r.getLsbD 19
def refBase (r : DWord) : Nat := bits r.toNat 0 19
def refCols (r : DWord) : Nat := if refBf r then (refCB r + 1) / 2 else refCB r
/-- The columns of one tile. -/
def refWide (r : DWord) : Nat := if refBf r then 32 else 16
def refTiles (r : DWord) : Nat := refRB r * refCols r
/-- The tiles of a promise job: those of W, then for a redemption those of P. -/
def jobTiles (w : Watch) (r : RecJob) : Nat := refTiles r.wref + if r.kind = .redemption then refTiles w.pref else 0

/-- A promise job goes on although its engine is stopped: within a tile, to the tile's end, and once all its tiles are done,
to its counter addition (R264). One that has met a fault waits for the supervisor (R265). -/
def goesOn (c : Core) (j : Job) (r : RecJob) : Bool :=
  j.started && j.failed.isNone && (j.off != 0 || decide (jobTiles (c.watchAt r.slot) r ≤ (c.watchAt r.slot).nextt.toNat))

/-- Engines that run again: a promise job that met a fault goes on (R265, R276). -/
def Core.enginesRun (c : Core) : Core :=
  { c with
    engStopped := false
    eventAt := none
    matQ := c.matQ.map (fun j => if j.prom.isSome then { j with failed := none } else j) }

/-- The running promise job of a core stops: its record takes NEXTT, and it will read VCTR again (R254, R264). -/
def stopPromise (c : Core) : Core :=
  match c.matQ with
  | j :: q =>
    (match j.prom with
     | some r =>
       if j.started && !goesOn c j r then stopRecord { c with matQ := { j with prom := some { r with ready := false } } :: q } r.slot
       else c
     | none => c)
  | [] => c

/-! ### Freezing (R123, R124, R168, R269) and resuming (R276) -/

/-- The dispatch port or collector of die `d` as the owner of an entry: a number that no core has (R126). -/
def ctAgent (d : Nat) : Nat := 61440 + d

/-- An entry resolves CANCELLED (R113, R117, R122 to R124); the cancelled mask records a stop of its context (`mark`). -/
def cancelOne (s : State) (ch : Nat) (mark : Bool) (e : CtEntry) : State :=
  let q := (s.chan ch).latestSeq
  if ctAgent 0 ≤ e.core then s
  else s.modCtx e.core e.ctx (fun c => { c with
    slots := vset c.slots ch (some { outcome := .cancelled, word := 0, seq := q })
    ctPending := c.ctPending &&& ~~~(1#16 <<< ch)
    cancelled := if mark then c.cancelled ||| (1#16 <<< ch) else c.cancelled })

/-- Cancel the chosen entries of a channel whose window has not closed. -/
def cancelIf (s : State) (sel : CtEntry → Bool) (mark : Bool) (ch : Nat) : State :=
  let c := s.chan ch
  let s := (c.arming ++ c.registered).foldl (fun s e => if sel e then cancelOne s ch mark e else s) s
  s.modChan ch (fun c => { c with arming := c.arming.filter (fun e => !sel e), registered := c.registered.filter (fun e => !sel e) })

def cancelEntries (s : State) (sel : CtEntry → Bool) (mark : Bool) : State :=
  (List.range 16).foldl (fun s ch => cancelIf s sel mark ch) s

/-- A core number that no core has: the owner of an entry whose result is discarded with its context (R122). -/
def ghost : Nat := 65535

/-- The entries of a killed or halted context (R122, R318): cancelled, or left to their round without an owner. -/
def dropEntries (s : State) (core ctx : Nat) : State :=
  let s := cancelEntries s (fun e => e.core = core && e.ctx = ctx) false
  (List.range 16).foldl (fun s ch => s.modChan ch (fun c => { c with round := c.round.map (fun e =>
    if e.core = core && e.ctx = ctx then { e with core := ghost } else e) })) s

/-- The followers of a core: those of its cluster that follow it now (R167). -/
def followersOf (s : State) (core : Nat) : List Nat :=
  ((List.range 16).map (coreAt core)).filter (fun j =>
    (s.core core).fmask.getLsbD (cicOf j) && (s.core j).fstate = 2)

/-- A follower leaves its leader (R168); a leader that none follows returns to own fetch. -/
def leaveLeader (s : State) (core : Nat) : State :=
  let l := coreAt core (s.core core).fleader.toNat
  s.modCore l (fun c =>
    let m := c.fmask &&& ~~~(1#16 <<< cicOf core)
    { c with fmask := m, fstate := if m = 0 && c.fstate = 1 then 0 else c.fstate })

/-- Follow ends for a core with a cause (R168); `keep` leaves what it has still to execute from the stream. -/
def endFollow (s : State) (core cause : Nat) (keep : Bool) : State :=
  let s := if (s.core core).fstate = 2 then leaveLeader s core else s
  s.modCore core (fun c => { c with
    fstate := 0
    fcause := BitVec.ofNat 3 cause
    fwait := none
    fbuf := if keep then c.fbuf else [] })

/-- Waiting cores whose leader will not come (row 4 of R166) resume own fetch at f + 4 with CAUSE 3. -/
def missFollow (s : State) (core : Nat) : State :=
  let s := if (s.ctx core 0).sleep.asleep then traceTiming s core 0 3 else s
  let s := s.modCtx core 0 (fun c => { c with pc := c.pc + 4, sleep := .awake })
  endFollow s core 3 false

/-- A leader's c0 has retired an instruction: its followers have it to execute (R167). -/
def pushFollow (s : State) (core : Nat) (e : FollowEntry) : State :=
  (followersOf s core).foldl (fun s j => s.modCore j (fun c => { c with fbuf := c.fbuf ++ [e] })) s

/-- A follower's c0 has retired the head of its buffer. -/
def popFollow (s : State) (core : Nat) (pc : DWord) : State :=
  s.modCore core (fun c => match c.fbuf with
    | e :: r => if e.pc = pc then { c with fbuf := r } else c
    | [] => c)

/-- The leader of core `i` in its cluster: the gang's core with the lowest core-in-cluster (R165). -/
def leaderOf (s : State) (i : Nat) : Nat :=
  (((List.range 16).map (coreAt i)).find? (fun j => s.sameGang i j)).getD i

/-- Cores of `i`'s gang in its cluster that wait at a rendezvous (R166). -/
def waitingCores (s : State) (i : Nat) : List Nat :=
  ((List.range 16).map (coreAt i)).filter (fun j => s.sameGang i j && (s.core j).fstate = 3 && leaderOf s j != j)

/-- Messages that a core's contexts have sent and no handle has taken yet come back: the `send` executes again (R163, log 12). -/
def recallMessages (s : State) (core : Nat) : State :=
  { s with cores := s.cores.map (fun e => (e.1, { e.2 with inbox := e.2.inbox.filter (fun m => m.src != core) })) }

/-- The engines stop at their units; a promise job that runs has its record written where it stops (R254, R269). -/
def haltEngines (c : Core) : Core := if c.engStopped then c else { stopPromise c with engStopped := true }

/-- The core of a proxy advance that is on its way freezes (R409). -/
def Access.froze (e : Access) : Access :=
  match e.op with | .proxyAdvance o h k p n _ => { e with op := .proxyAdvance o h k p n true } | _ => e

/-- Freeze a core (R269): nothing issues, engines stop at their units, contest entries are cancelled, follow ends, and pending waits
are withdrawn: they leave the entries for the context block (R418), and hold no earlier-issued access back (log 38). A core that only waits in
`follow` (STATE 3) and has no follower records CAUSE 5, of which R168 speaks for followers (DESIGN CHOICE, log 53). -/
def stopCore (s : State) (core : Nat) (stopEngines : Bool) : State :=
  let s := s.modCore core (fun c =>
    { if stopEngines then haltEngines c else c with
      issue := .frozen, stepDone := false, stepEntry := none, accs := (c.accs.filter (fun e => !e.isWait)).map Access.froze })
  let s := recallMessages (cancelEntries s (fun e => e.core = core) true) core
  let s := if (s.core core).fstate = 2 || (s.core core).fstate = 3 then endFollow s core 5 false else s
  (List.range 11).foldl (fun s k =>
    let s := withdrawWaits s core k
    s.modCtx core k (fun c => { c with cwait := c.cwait.map (fun w => { w with ticket := none, parked := false }) })) s

/-- A core freezes, at the present instruction of a context where one is concerned (R87, R269). -/
def freezeCore (s : State) (core ctx : Nat) (stopEngines : Bool) : State := stopCore (traceTiming s core ctx 4) core stopEngines

/-- The leader's c0 faults (R168): its followers return to own fetch once they have executed what it issued before, and
cores that wait for it miss their rendezvous (R166). -/
def leaderFault (s : State) (core : Nat) : State :=
  let s := (followersOf s core).foldl (fun s j => endFollow s j 4 true) s
  if leaderOf s core = core then (waitingCores s core).foldl missFollow s else s

/-- TAKING A FAULT (R268, R269): the faulting instruction has no effect, its PC is kept as the context's saved PC, the
core freezes and the packet is posted. -/
def takeFaultAt (s : State) (core ctx : Nat) (f : Flt) (word : BitVec 32) : State :=
  let pc := (s.ctx core ctx).pc
  let s := if ctx = 0 then leaderFault s core else s
  let s := freezeCore s core ctx true
  let s := s.modCtx core ctx (fun c => { c with stopped := true, ibpPass := none })
  postFault s core (mkPacket s 0 core ctx 0 f pc word (s.core core).nodeid)

/-- A fault of the issuing context's present instruction. -/
def takeFault (s : State) (f : Flt) : State := takeFaultAt s s.cur.1 s.cur.2 f s.word

def raise (s : State) (f : Flt) : Result := .next (takeFault s f)

/-- A fault stops the core, or the engines of one whose issue is frozen already, as after a step (R269, R277). -/
def faultStop (s : State) (core ctx : Nat) : State :=
  if (s.core core).issue = .frozen then s.modCore core haltEngines else freezeCore s core ctx true

/-- A fault of a crossbar firing or a reconcile job, with the slot in place of a PC (R183, R265, R267). An instruction of the core that would
fault in the same cycle comes before it: Policy.lean makes no such move then (R268). -/
def takeSlotFault (s : State) (core ctx origin slot : Nat) (f : Flt) (word : BitVec 32) : State :=
  let s := faultStop s core 0xf
  postFault s core (mkPacket s 0 core ctx origin f (b64 slot) word (s.core core).nodeid)

/-- What a context does when its core resumes: a sleeping instruction executes again (R163). It had issued, and a breakpoint that it
passed stops it this time (R278). -/
def Context.resume (c : Context) : Context :=
  { c with
    sleep := .awake
    ibpPass := if c.sleep.issued then none else c.ibpPass
    cwait := if c.sleep = .cwaitAcq then none else c.cwait
    stopped := false
    poisonLate := false }

/-- Sleeps of a core's contexts that end with no retirement: the trace records each end (R87). -/
def traceSleepEnds (s : State) (core : Nat) : State :=
  (List.range 11).foldl (fun s k => if (s.ctx core k).sleep.asleep then traceTiming s core k 3 else s) s

/-- THE RETURN (RESUME, R276): engines resume, and every ready context issues from its PC. -/
def resumeCore (s : State) (core : Nat) : State :=
  let s := traceSleepEnds (traceTiming s core 0xf 5) core
  resendWaits (s.modCore core (fun c => { c.enginesRun with issue := .running, ctx := c.ctx.map Context.resume })) core

/-! ### Retiring, sleeping, jumping -/

/-- A `launch.rel` has issued and its context goes on; it retires later, when it is accepted, and a step ends only then (R225, R277, R399). -/
def issueOn (s : State) (core ctx len id : Nat) : State :=
  let s := if (s.ctx core ctx).sleep.asleep then traceTiming s core ctx 3 else s
  s.modCore core (fun c => { c.modContext ctx (fun x => { x with pc := x.pc + b64 len, sleep := .awake, ibpPass := none }) with
    stepEntry := if c.issue = .stepping && c.stepTarget = ctx then some id else c.stepEntry })

/-- The present instruction of a context retires and the context goes on at `pc`; a stepped instruction has then
ended its step (R277). -/
def retireAt (s : State) (core ctx : Nat) (pc : DWord) : State :=
  let s := if (s.ctx core ctx).sleep.asleep then traceTiming s core ctx 3 else s
  s.modCore core (fun c => { c.modContext ctx (fun x => { x with pc := pc, sleep := .awake, ibpPass := none }) with
    stepDone := c.stepDone || (c.issue = .stepping && c.stepTarget = ctx) })

def retireTo (s : State) (pc : DWord) : Result := .next (retireAt s s.cur.1 s.cur.2 pc)

/-- The instruction of `len` bytes retires and its context goes on at the next sequential PC (R288). -/
def retire (s : State) (len : Nat) : Result := retireTo s (s.here.pc + b64 len)

/-- Retire, writing a scalar register. -/
def retireReg (s : State) (len : Nat) (rd : Reg) (v : DWord) : Result := retire (s.setGpr rd v) len

/-- A context stays in its present instruction, which has not retired (R163). The trace records where a sleep begins and
where a full engine queue stalls the issue (R87). -/
def sleepAt (s : State) (core ctx : Nat) (w : Sleep) : State :=
  let old := (s.ctx core ctx).sleep
  let s := if old.asleep && !w.asleep then traceTiming s core ctx 3 else s
  let s := if w.asleep && !old.asleep then traceTiming s core ctx 2
    else if w = .stall && old != .stall then traceTiming s core ctx 1 else s
  s.modCtx core ctx (fun c => { c with sleep := w })

def sleepIn (s : State) (w : Sleep) : Result := .next (sleepAt s s.cur.1 s.cur.2 w)

/-- A taken branch or jump to `t` (R289, R315). -/
def jumpTo (s : State) (t : Int) : Result :=
  if t < 0 || 65534 < t || t % 2 != 0 then raise s (flt 2 2)
  else retireTo (traceCtx s 0 1 s.cur.1 s.cur.2 t.toNat) (b64 t.toNat)

/-- An event of R163's table for `wfe` on some cores. It wakes the contexts asleep there, and the cores keep its cycle for a
`wfe` that issues later in the same cycle (R327). -/
def wfeEvent (s : State) (sel : Nat → Bool) : State :=
  { s with cores := s.cores.map (fun e => if sel e.1 then
      (e.1, { e.2 with
        eventAt := some s.clock
        ctx := e.2.ctx.map (fun c => match c.sleep with | .wfe t _ => { c with sleep := .wfe t true } | _ => c) }) else e) }

/-- Flags merged into a context's FPFLAGS (R234, R235). -/
def mergeFlags (s : State) (core ctx : Nat) (f : BitVec 6) : State :=
  s.modCtx core ctx (fun c => { c with fpflags := c.fpflags ||| f })

/-! ### Copy tags (R200) -/

def takeTag (s : State) (core t : Nat) : State :=
  let m : DWord := 1#64 <<< t
  s.modCore core (fun c => { c with tagBusy := c.tagBusy ||| m, tagDone := c.tagDone &&& ~~~m, tagErr := c.tagErr &&& ~~~m })

/-- A job that holds tag `t` ends, and its tag completes; a tag completion is an event for `wfe` (R163). -/
def endTag (s : State) (core t : Nat) (err : Bool) : State :=
  let m : DWord := 1#64 <<< t
  let s := s.modCore core (fun c => { c with
    tagBusy := c.tagBusy &&& ~~~m
    tagDone := c.tagDone ||| m
    tagErr := if err then c.tagErr ||| m else c.tagErr })
  wfeEvent s (· == core)

end Sys2Proof.Machine
end

