-- ==== Sys2Proof/Machine/Operands.lean ====
section
/-! DEFINITION. The operand forms: the registers an instruction reads and writes, when it may issue (R161, R211, R353),
the address forms of loads and stores (R332 to R335), tile descriptors (R293), and the copy of operands into a job. -/
namespace Sys2Proof.Machine

/-! ### Registers read and written -/

/-- The registers of an instruction: scalar, vector, mask and extension, read and written. -/
structure Uses where
  rs : BitVec 32 := 0
  ws : BitVec 32 := 0
  rv : BitVec 32 := 0
  wv : BitVec 32 := 0
  rm : BitVec 8 := 0
  wm : BitVec 8 := 0
  rx : BitVec 8 := 0
  wx : BitVec 8 := 0
  deriving DecidableEq, Repr

/-- A set of registers by number, as a bit map. -/
def regSet {w : Nat} (l : List Nat) : BitVec w := l.foldl (fun m r => m ||| (1#w <<< r)) 0

/-- Scalar registers; s0 is always there (R307). -/
def sSet (l : List Reg) : BitVec 32 := regSet ((l.map BitVec.toNat).filter (· != 0))
def vSet (l : List Reg) : BitVec 32 := regSet (l.map BitVec.toNat)
def mSet (l : List (BitVec 3)) : BitVec 8 := regSet (l.map BitVec.toNat)

/-- Scalar forms. -/
def usesS (r w : List Reg) : Uses := { rs := sSet r, ws := sSet w }
def usesSX (r w : List Reg) (x : List (BitVec 3)) : Uses := { rs := sSet r, ws := sSet w, rx := mSet x }
/-- A vector operation: its sources, its destination, and its mask. -/
def usesV (r w : List Reg) (m : Option (BitVec 3)) : Uses := { rv := vSet r, wv := vSet w, rm := mSet m.toList }
def usesC (l : List (BitVec 4)) (w : List (BitVec 4)) : Uses := usesS (l.map (·.setWidth 5)) (w.map (·.setWidth 5))

/-- The 16 registers of a tile access (R334). -/
def tileRegs (hi : Bool) : List Reg := (List.range 16).map (fun i => BitVec.ofNat 5 (i + if hi then 16 else 0))

/-- The registers of every instruction. A masked vector operation also reads its destination, whose other lanes it keeps. -/
def uses : Instr → Uses
  | .add rd a b | .sub rd a b | .and rd a b | .or rd a b | .xor rd a b | .sll rd a b | .srl rd a b | .sra rd a b
  | .slt rd a b | .sltu rd a b | .mul rd a b | .mulh rd a b | .mulhN rd a b | .div rd a b | .divN rd a b | .rem rd a b
  | .remN rd a b | .min rd a b | .max rd a b | .minN rd a b | .maxN rd a b => usesS [a, b] [rd]
  | .addi rd a _ | .andi rd a _ | .ori rd a _ | .xori rd a _ | .slli rd a _ | .srli rd a _ | .srai rd a _
  | .slti rd a _ | .sltiu rd a _ | .jalr rd a _ => usesS [a] [rd]
  | .lui rd _ => usesS [] [rd]
  | .beq a b _ | .bne a b _ | .blt a b _ | .bge a b _ | .bltu a b _ | .bgeu a b _ => usesS [a, b] []
  | .j _ => {}
  | .jal _ => usesS [] [1]
  | .ld rd a _ _ _ => usesS [a] [rd]
  | .st rd a _ _ _ => usesS [a, rd] []
  | .ldIndexed rd a b _ _ _ _ => usesS [a, b] [rd]
  | .stIndexed rd a b _ _ _ _ => usesS [a, b, rd] []
  | .ldRingSlot rd _ _ _ _ => usesS [] [rd]
  | .stRingSlot rd _ _ _ _ => usesS [rd] []
  | .ldv vd a _ _ => { rs := sSet [a], wv := vSet [vd] }
  | .stv vd a _ _ => { rs := sSet [a], rv := vSet [vd] }
  | .ldvPair vd a _ _ => { rs := sSet [a], wv := vSet [vd, vd + 1] }
  | .stvPair vd a _ _ => { rs := sSet [a], rv := vSet [vd, vd + 1] }
  | .ldt hi a _ _ => { rs := sSet [a], wv := vSet (tileRegs hi) }
  | .stt hi a _ _ => { rs := sSet [a], rv := vSet (tileRegs hi) }
  | .get _ a b x | .put _ a b x => usesSX [a, b] [] [x, 7]
  | .ratomAdd rd a b _ _ _ _ | .ratomAnd rd a b _ _ _ _ | .ratomOr rd a b _ _ _ _ | .ratomXor rd a b _ _ _ _
  | .ratomMin rd a b _ _ _ _ | .ratomMax rd a b _ _ _ _ | .ratomMinN rd a b _ _ _ _ | .ratomMaxN rd a b _ _ _ _
  | .ratomSwap rd a b _ _ _ _ | .ratomFadd rd a b _ _ _ => usesSX [a, b] [rd] [7]
  | .amoAdd rd a b _ _ _ | .amoAnd rd a b _ _ _ | .amoOr rd a b _ _ _ | .amoXor rd a b _ _ _ | .amoMin rd a b _ _ _
  | .amoMax rd a b _ _ _ | .amoMinN rd a b _ _ _ | .amoMaxN rd a b _ _ _ | .amoSwap rd a b _ _ _
  | .amoFadd rd a b _ _ => usesS [a, b] [rd]
  | .amoCas rd a b _ _ _ => usesS [a, b, rd] [rd]
  | .rwb a b | .rinv a b => usesS [a, b] []
  | .mldred _ a b x | .mcst _ a b x => usesSX [a, b] [] [x]
  | .cadd a b | .caddRel a b _ | .cwait a b | .cwaitAcq a b _ => usesS [a, b] []
  | .cread rd a => usesS [a] [rd]
  | .barrRlx rd _ | .barrRel rd _ => usesS [] [rd]
  | .bwait _ a => usesS [a] []
  | .bmiss rd _ a => usesS [a] [rd]
  | .sstep rd _ => usesS [] [rd]
  | .binit _ a rd => usesS [a, rd] []
  | .fenceAcq _ | .fenceRel _ | .fenceAr _ | .fenceSc _ => {}
  | .twany rd a | .tffr rd a => usesS [a] [rd]
  | .twall a => usesS [a] []
  | .rinit _ a b => usesS [a, b] []
  | .rwf rd _ a | .rwe rd _ a => usesS [a] [rd]
  | .radvp _ a | .radvc _ a => usesS [a] []
  | .recv rd _ => usesS [] [rd]
  | .send rd _ a b => usesS [a, b] [rd]
  | .vaddFloat _ d a b _ m | .vsubFloat _ d a b _ m | .vmulFloat _ d a b _ m | .vdiv _ d a b _ m => usesV [a, b, d] [d] m
  | .vfma _ d a b _ m | .vfnma _ d a b _ m => usesV [a, b, d] [d] m
  | .vminFloat _ d a b m | .vmaxFloat _ d a b m => usesV [a, b, d] [d] m
  | .vabs _ d a m | .vneg _ d a m | .vsqrt _ d a _ m => usesV [a, d] [d] m
  | .vaddInt _ d a b m | .vsubInt _ d a b m | .vmulInt _ d a b m | .vand _ d a b m | .vor _ d a b m | .vxor _ d a b m
  | .vsll _ d a b m | .vsrl _ d a b m | .vsra _ d a b m => usesV [a, b, d] [d] m
  | .vmulh _ d a b _ m | .vminInt _ d a b _ m | .vmaxInt _ d a b _ m | .vadds _ d a b _ m | .vsubs _ d a b _ m =>
    usesV [a, b, d] [d] m
  | .vcmpeq d a b _ m | .vcmpne d a b _ m | .vcmplt d a b _ m | .vcmple d a b _ m =>
    { rv := vSet [a, b], rm := mSet m.toList, wm := mSet [d] }
  | .vmov _ d a m => usesV [a, d] [d] m
  | .vsel _ d a b m => usesV [a, b] [d] (some m)
  | .vperm _ d a b m => usesV [a, b, d] [d] m
  | .vbcast _ d a m => { rs := sSet [a], rv := vSet [d], wv := vSet [d], rm := mSet m.toList }
  | .vins _ d a b => { rs := sSet [a, b], rv := vSet [d], wv := vSet [d] }
  | .vext _ rd a b => { rs := sSet [b], ws := sSet [rd], rv := vSet [a] }
  | .vcvt _ _ _ d a _ => usesV [a, d] [d] none
  | .vredadd rd a _ m | .vredmin rd a _ m | .vredmax rd a _ m | .vamax rd a _ m =>
    { ws := sSet [rd], rv := vSet [a], rm := mSet m.toList }
  | .vscc _ _ d a x | .vquant _ _ d a x => { rv := vSet [a, d], wv := vSet [d], rx := mSet [x] }
  | .vfacm _ d a b x => { rs := sSet [b], rv := vSet [a], wv := vSet [d], rx := mSet [x] }
  | .mand d a b | .mor d a b | .mxor d a b => { rm := mSet [a, b], wm := mSet [d] }
  | .mnot d a => { rm := mSet [a], wm := mSet [d] }
  | .mpop rd a | .mfirst rd a | .mget rd a => { ws := sSet [rd], rm := mSet [a] }
  | .mset d a => { rs := sSet [a], wm := mSet [d] }
  | .mm _ _ _ _ a b x => usesSX [a, b] [] x.toList
  | .mmg _ _ _ _ a b x | .mmQ _ _ _ _ a b x => usesSX [a, b] [] [x]
  | .aczero _ => {}
  | .acld _ _ a | .acst _ _ _ a => usesS [a] []
  | .scaccVector h _ _ _ _ b => { rv := vSet (if h then [b] else [b, b + 1]) }
  | .scaccXreg _ _ _ _ _ x => { rx := mSet [x] }
  | .cpy _ a b x | .cpy2 _ a b x | .cpyg _ a b x | .cpys _ a b x | .cpyl _ _ _ a b x => usesSX [a, b] [] [x]
  | .cpyr _ _ a => usesS [a] []
  | .evterm _ a => usesS [a] []
  | .evarm _ a b => usesS [a, b] []
  | .evclr rd _ => usesS [] [rd]
  | .launch rd a | .launchRel rd a => usesS [a] [rd]
  | .hsig _ a b => usesS [a, b] []
  | .propen _ rd a b x => usesSX [a, b, rd] [rd] [x]
  | .predeem rd a b => usesS [a, b] [rd]
  | .pquery rd a | .pretract rd a => usesS [a] [rd]
  | .ctarmRaw a b | .ctarmAmax a b | .ctarmMin a b => usesS [a, b] []
  | .ctresW rd b | .ctresId rd b | .ctcancel rd b => usesS [b] [rd]
  | .start _ a b => usesS [a, b] []
  | .hjoin rd _ => usesS [] [rd]
  | .halt => usesS [3] []
  | .yield | .follow | .unfollow | .brk _ | .wfe | .nop => {}
  | .mfsr rd _ => usesS [] [rd]
  | .mtsr _ a => usesS [a] []
  | .trap _ a => usesS [a] []
  | .xset d a => { rs := sSet [a], wx := mSet [d] }
  | .xld d a _ => { rs := sSet [a], wx := mSet [d] }
  | .addiCS0 rd _ => usesC [] [rd]
  | .addiC rd _ | .slliC rd _ | .andiC rd _ => usesC [rd] [rd]
  | .addCS0 rd a => usesC [a] [rd]
  | .addC rd a | .subC rd a | .andC rd a | .orC rd a | .xorC rd a => usesC [rd, a] [rd]
  | .ldDC rd a _ => usesC [a] [rd]
  | .stDC rd a _ => usesC [a, rd] []
  | .beqC a _ | .bneC a _ | .jrC a => usesC [a] []
  | .jC _ => {}
  | _ => {}

/-- The registers that queued vector jobs of a context, not fired ones, have still to read (R353). -/
def pendingReads (c : Core) (k : Nat) : Uses :=
  (c.vecQ.filter (fun j => j.ctx = k && !j.started && j.fired.isNone)).foldl
    (fun u j => { u with rv := u.rv ||| (uses j.instr).rv, rm := u.rm ||| (uses j.instr).rm }) {}

/-- Every register is produced, and no earlier job still needs what the instruction writes (R211, R353). -/
def regsReady (c : Core) (k : Nat) (i : Instr) : Bool :=
  let u := uses i
  let x := c.context k
  let p := pendingReads c k
  (u.rs ||| u.ws) &&& x.busyS = 0 && (u.rv ||| u.wv) &&& x.busyV = 0 && (u.rm ||| u.wm) &&& x.busyM = 0 &&
  (u.rx ||| u.wx) &&& x.busyX = 0 && u.wv &&& p.rv = 0 && u.wm &&& p.rm = 0

/-! ### Engine commands (R164, R257, R418) -/

/-- The engine whose queue a command enters (R296). -/
def engineOf : Instr → Option Engine
  | .vaddFloat _ _ _ _ _ _ | .vsubFloat _ _ _ _ _ _ | .vmulFloat _ _ _ _ _ _ | .vfma _ _ _ _ _ _ | .vfnma _ _ _ _ _ _
  | .vminFloat _ _ _ _ _ | .vmaxFloat _ _ _ _ _ | .vabs _ _ _ _ | .vneg _ _ _ _ | .vdiv _ _ _ _ _ _ | .vsqrt _ _ _ _ _
  | .vaddInt _ _ _ _ _ | .vsubInt _ _ _ _ _ | .vmulInt _ _ _ _ _ | .vmulh _ _ _ _ _ _ | .vminInt _ _ _ _ _ _
  | .vmaxInt _ _ _ _ _ _ | .vand _ _ _ _ _ | .vor _ _ _ _ _ | .vxor _ _ _ _ _ | .vsll _ _ _ _ _ | .vsrl _ _ _ _ _
  | .vsra _ _ _ _ _ | .vadds _ _ _ _ _ _ | .vsubs _ _ _ _ _ _ | .vcmpeq _ _ _ _ _ | .vcmpne _ _ _ _ _
  | .vcmplt _ _ _ _ _ | .vcmple _ _ _ _ _ | .vmov _ _ _ _ | .vsel _ _ _ _ _ | .vperm _ _ _ _ _ | .vbcast _ _ _ _
  | .vins _ _ _ _ | .vext _ _ _ _ | .vcvt _ _ _ _ _ _ | .vredadd _ _ _ _ | .vredmin _ _ _ _ | .vredmax _ _ _ _
  | .vamax _ _ _ _ | .vscc _ _ _ _ _ | .vquant _ _ _ _ _ | .vfacm _ _ _ _ _ => some .vector
  | .mm _ _ _ _ _ _ _ | .mmg _ _ _ _ _ _ _ | .mmQ _ _ _ _ _ _ _ | .aczero _ | .acld _ _ _ | .acst _ _ _ _
  | .scaccVector _ _ _ _ _ _ | .scaccXreg _ _ _ _ _ _ => some .matrix
  | .cpy _ _ _ _ | .cpy2 _ _ _ _ | .cpyg _ _ _ _ | .cpys _ _ _ _ => some .copy
  | _ => none

def Core.queue (c : Core) : Engine → List Job
  | .vector => c.vecQ | .matrix => c.matQ | .copy => c.copyQ

def Core.setQueue (c : Core) (e : Engine) (q : List Job) : Core :=
  match e with
  | .vector => { c with vecQ := q } | .matrix => { c with matQ := q } | .copy => { c with copyQ := q }

/-- A write of RNGV or RNGM (R239): 0 stores 1. -/
def Core.seed (c : Core) (e : Engine) (v : BitVec 32) : Core :=
  let v := if v = 0 then 1 else v
  match e with
  | .vector => { c with rngv := v } | .matrix => { c with rngm := v } | .copy => c

/-- The jobs that a write through the window waits for have left their queue. -/
def Core.rngDue (c : Core) (w : RngWrite) : Bool := !(c.queue w.engine).any (fun j => decide (j.id < w.bound))

/-- Writes of RNGV and RNGM that waited for jobs which have left are made, in their order. -/
def Core.rngSettle (c : Core) : Core :=
  { (c.rngWrites.filter c.rngDue).foldl (fun c w => c.seed w.engine w.value) c with rngWrites := c.rngWrites.filter (fun w => !c.rngDue w) }

def Core.queueRng (c : Core) (w : RngWrite) : Core := { c with rngWrites := c.rngWrites ++ [w] }.rngSettle

/-- A redemption whose promise is HELD (R257). -/
def Core.heldJob (c : Core) (r : RecJob) : Bool := r.kind = .redemption && c.recHeld.getLsbD r.slot

/-- A reconcile job that is not HELD still waits to enter the matrix queue. -/
def Core.recWaiting (c : Core) : Bool := c.recQ.any (fun r => !c.heldJob r)

/-- A core of a throttled partition issues, and its engines accept a command, in one cycle of four (R91); that it is the one in which the CLOCK is
a multiple of 4 is the model's choice (log 70). -/
def slotOpen (s : State) (core : Nat) : Bool :=
  match s.partOf core with | some p => !(s.part p).throttled || s.clock % 4 = 0 | none => true

/-- A firing of the slot may enter engine `e`'s queue: its command is of that engine, and a copy's tag is idle (R396). -/
def Core.firing (c : Core) (e : Engine) (a : ArmSlot) : Bool :=
  match a.instr with
  | none => false
  | some i => 0 < a.pending && engineOf i = some e &&
    (match i with
     | .cpy t _ _ _ | .cpy2 t _ _ _ | .cpyg t _ _ _ | .cpys t _ _ _ => !c.tagBusy.getLsbD ((t.toNat + a.fired) % 64)
     | _ => true)

/-- No entry is free for a command that a context issues: pending firings and reconcile jobs take one first (R164, R257). -/
def Core.queueFull (c : Core) (e : Engine) : Bool :=
  2 ≤ (c.queue e).length || (e = .matrix && c.recWaiting) || c.arm.toList.any (c.firing e)

/-- A job of an engine has completed in this cycle: a source pulse for the event counters (R179, R180). -/
def Core.addPulse (c : Core) (e : Engine) (fired : Option Nat) : Core := { c with pulses := c.pulses ++ [(e, fired)] }

/-- Instructions that a pending plain `cwait` holds at issue (R418). -/
def heldByWait : Instr → Bool
  | .st _ _ _ _ _ | .stIndexed _ _ _ _ _ _ _ | .stRingSlot _ _ _ _ _ | .stv _ _ _ _ | .stvPair _ _ _ _ | .stt _ _ _ _
  | .stDC _ _ _ | .get _ _ _ _ | .put _ _ _ _ | .mldred _ _ _ _ | .mcst _ _ _ _
  | .ratomAdd _ _ _ _ _ _ _ | .ratomAnd _ _ _ _ _ _ _ | .ratomOr _ _ _ _ _ _ _ | .ratomXor _ _ _ _ _ _ _
  | .ratomMin _ _ _ _ _ _ _ | .ratomMax _ _ _ _ _ _ _ | .ratomMinN _ _ _ _ _ _ _ | .ratomMaxN _ _ _ _ _ _ _
  | .ratomSwap _ _ _ _ _ _ _ | .ratomFadd _ _ _ _ _ _
  | .amoAdd _ _ _ _ _ _ | .amoAnd _ _ _ _ _ _ | .amoOr _ _ _ _ _ _ | .amoXor _ _ _ _ _ _ | .amoMin _ _ _ _ _ _
  | .amoMax _ _ _ _ _ _ | .amoMinN _ _ _ _ _ _ | .amoMaxN _ _ _ _ _ _ | .amoSwap _ _ _ _ _ _ | .amoCas _ _ _ _ _ _
  | .amoFadd _ _ _ _ _ | .rwb _ _ | .rinv _ _ | .cadd _ _ | .caddRel _ _ _ | .cwait _ _ | .cwaitAcq _ _ _ | .cread _ _
  | .radvp _ _ | .radvc _ _ | .send _ _ _ _ | .mm _ _ _ _ _ _ _ | .mmg _ _ _ _ _ _ _ | .mmQ _ _ _ _ _ _ _ | .aczero _
  | .acld _ _ _ | .acst _ _ _ _ | .scaccVector _ _ _ _ _ _ | .scaccXreg _ _ _ _ _ _
  | .cpy _ _ _ _ | .cpy2 _ _ _ _ | .cpyg _ _ _ _ | .cpys _ _ _ _ | .cpyl _ _ _ _ _ _ | .cpyr _ _ _ | .evarm _ _ _
  | .launch _ _ | .launchRel _ _ | .hsig _ _ _ | .propen _ _ _ _ _ | .predeem _ _ _ | .pretract _ _ => true
  | _ => false

/-! ### Accesses at issue -/

/-- A watchpoint of the core that an access overlaps, with its subcode (R278). -/
def watchHit (c : Core) (va n : Nat) (write : Bool) : Option Nat :=
  if (List.range 4).any (fun k =>
      let base := bits (vget c.wpb k 0).toNat 0 56
      let cfg := (vget c.wpc k 0).toNat
      let len := bits cfg 2 14
      len != 0 && len ≤ 4096 && bits cfg (if write then 1 else 0) 1 = 1 && base < va + n && va < base + len)
  then some (if write then 2 else 1) else none

/-- The LM ranges that a matrix job writes, and those it reads or writes (R381): 16 rows of 64 bytes a tile. -/
def tileRows (base : Nat) : List (Nat × Nat) := (List.range 16).map (fun r => (base + 128 * r, 64))

def rangesMeet (l : List (Nat × Nat)) (off n : Nat) : Bool := l.any (fun r => r.1 < off + n && off < r.1 + r.2)

def descBase (d : DWord) : Nat := bits d.toNat 0 19
def descT (d : DWord) : Bool := d.getLsbD 19

/-- Rows of `mmg` by the captured index vector (R376). -/
def gatherRows (g : Nat) (idx : Vec) : List (Nat × Nat) :=
  (List.range 16).map (fun i => (g + 64 * bits idx.toNat (32 * i) 32, 64))

/-- The footprint of a matrix job: what it writes, and all of it (R381). Promise jobs have none here. -/
def footWrites (j : Job) : List (Nat × Nat) :=
  match j.instr with | .acst _ _ _ _ => tileRows (descBase j.a) | _ => []

def footAll (j : Job) : List (Nat × Nat) :=
  match j.instr with
  | .mm _ _ _ _ _ _ _ | .mmQ _ _ _ _ _ _ _ => tileRows (descBase j.a) ++ tileRows (descBase j.b)
  | .mmg _ _ _ _ _ _ _ => gatherRows (descBase j.a) j.va ++ tileRows (descBase j.b)
  | .acld _ _ _ | .acst _ _ _ _ => tileRows (descBase j.a)
  | _ => []

/-- An access of the core to its own LM that a matrix job holds at issue (R381). -/
def footHolds (s : State) (core : Nat) (write : Bool) (pl : Place) (n : Nat) : Bool :=
  match pl with
  | .lm c off => c = core && (s.core core).matQ.any (fun j => j.prom.isNone &&
      rangesMeet (if write then footAll j else footWrites j) off n)
  | _ => false

/-- An entry for the issuing context's list (R211), under the next key. -/
def entry (s : State) (t : Target) (op : AccOp) (va len : Nat) (acq rel : Bool) (scope : Nat) : Access where
  id := s.nextKey
  ctx := s.cur.2
  kind := t.kind
  op := op
  place := t.place
  va := b64 va
  len := len
  handoff := t.handoff
  acq := acq
  rel := rel
  scope := scope
  bypass := false
  remote := false
  merge := pageMerge t.attr
  joined := []
  pc := s.here.pc
  word := s.word

/-- The hint of an access (R191): code 2 is `.by`. `.na` fills L2 as no hint does, and no state shows the difference. -/
def Access.hinted (e : Access) (hint : BitVec 2) : Access := { e with bypass := hint = 2 }

def pushAccess (s : State) (e : Access) : State :=
  { s with nextKey := s.nextKey + 1 }.modMe (fun c => { c with accs := c.accs ++ [e] })

/-- The destination of a load is not produced until the load is performed (R211). -/
def markBusy (s : State) (d : LoadDst) : State :=
  s.modHere (fun c => match d with
    | .scalar r _ => { c with busyS := c.busyS ||| sSet [r] }
    | .xreg x => { c with busyX := c.busyX ||| mSet [x] }
    | .vector r => { c with busyV := c.busyV ||| vSet [r] }
    | .tileRow base _ _ => { c with busyV := c.busyV ||| regSet ((List.range 16).map (· + base)) })

def markReg (s : State) (r : Reg) : State := markBusy s (.scalar r false)

/-- BREAK WATCH (R278): an access that a watchpoint stops before it is made. -/
def stopBefore (s : State) (core va n : Nat) (write : Bool) : Option Flt :=
  (watchHit (s.core core) va n write).map (fun sub => flt 13 sub va)

/-- The class of a load by its destination: `xld` is no `ld.d` (R72, R273). -/
def LoadDst.cls : LoadDst → AccClass
  | .xreg _ => .xload
  | _ => .load

/-- One load of `w` bytes at `a` (R332): the checks of R194, the watchpoints, then the entry. -/
def loadAt (s : State) (len a w : Nat) (dst : LoadDst) (acq : Bool) (scope : Nat) (hint : BitVec 2) : Result :=
  match checkAcc s s.cur.1 dst.cls a w with
  | .error f => raise s f
  | .ok t =>
    match stopBefore s s.cur.1 a w false with
    | some f => raise s f
    | none =>
      if footHolds s s.cur.1 false t.place w then sleepIn s .drain
      else retire (pushAccess (markBusy s dst) ((entry s t (.load dst) a w acq false scope).hinted hint)) len

/-- One store of `w` bytes at `a` (R332). -/
def storeAt (s : State) (len a w : Nat) (data : Nat) (rel : Bool) (scope : Nat) (hint : BitVec 2) : Result :=
  match checkAcc s s.cur.1 .store a w with
  | .error f => raise s f
  | .ok t =>
    match stopBefore s s.cur.1 a w true with
    | some f => raise s f
    | none =>
      if footHolds s s.cur.1 true t.place w then sleepIn s .drain
      else retire (pushAccess s ((entry s t (.store data) a w false rel scope).hinted hint)) len

/-- Width in bytes of a width code, and whether it sign-extends (R296). -/
def widthOf (c : Nat) : Nat := 2 ^ (c % 4)
def signedLoad (c : Nat) : Bool := c < 4

/-- Base plus scaled signed offset (R332). -/
def addrImm (s : State) (ra : Reg) (off : BitVec 10) (w : Nat) : Nat := wrap (s.gprN ra + off.toInt * w) 64
/-- Base plus index (R332). -/
def addrIdx (s : State) (ra rb : Reg) : Nat := (s.gprN ra + s.gprN rb) % 2 ^ 64

/-! ### Ring handles (R177, R349) -/

def Handle.filled (h : Handle) : Nat := (h.tail - h.head).toNat
def Handle.room (h : Handle) : Nat := h.count.toNat - h.filled

/-- The limits of R177 on the geometry of a handle. -/
def ringShape (base ssize count : Nat) : Bool :=
  base % 16 = 0 && ssize % 16 = 0 && 16 ≤ ssize && ssize ≤ 4096 &&
  (count = 1 || count = 2 || count = 4 || count = 8 || count = 16 || count = 32 || count = 64 || count = 128 || count = 256) &&
  base + ssize * count ≤ 393216

/-- The core that owns a handle's ring: the core itself, or the core that a proxy's HOME names. -/
def ringOwner (s : State) (core h : Nat) : Nat :=
  let k := vget (s.core core).handles h Handle.unset
  if k.proxy then coreAt core k.home.toNat else core

/-- The owner's handle is unset, or has another geometry than its proxy recorded (R349). -/
def Handle.stale (k o : Handle) : Bool := o.count = 0 || o.proxy || o.base != k.base || o.ssize != k.ssize || o.count != k.count

/-- The handle a use acts on: the owner's values, compared with a proxy's record (R349). RING subcodes 1 and 10. -/
def useHandle (s : State) (core h : Nat) : Except Flt Handle :=
  let k := vget (s.core core).handles h Handle.unset
  if k.count = 0 then .error (flt 10 1)
  else if !k.proxy then .ok k
  else
    let o := vget (s.core (coreAt core k.home.toNat)).handles h Handle.unset
    if k.stale o then .error (flt 10 10) else .ok o

/-- The address a ring-slot operand names (R294, R335). -/
def addrSlot (s : State) (h k : Nat) (off w : Nat) (load : Bool) : Except Flt Nat :=
  match useHandle s s.cur.1 h with
  | .error f => .error f
  | .ok r =>
    if load && r.filled ≤ k then .error (flt 10 3)
    else if !load && r.room ≤ k then .error (flt 10 4)
    else if r.ssize.toNat < off + w then .error (flt 10 5)
    else
      let n := (if load then r.head.toNat else r.tail.toNat) + k
      .ok (localAddr s.cur.1 (cicOf (ringOwner s s.cur.1 h)) (r.base.toNat + n % r.count.toNat * r.ssize.toNat + off))

/-! ### Tile descriptors (R293) -/

/-- TDESC, TALIGN, TRANGE of a descriptor, in that order; a tile ends 1,983 bytes above its base (R334). -/
def tileCheck (d : DWord) : Option Flt :=
  if bits d.toNat 20 44 != 0 then some (flt 3 3)
  else if descBase d % 64 != 0 then some (flt 3 1)
  else if 393215 < descBase d + 1983 then some (flt 3 2)
  else none

/-- The first failing check of a list. -/
def firstFlt (l : List (Option Flt)) : Option Flt := l.findSome? id

/-! ### Jobs -/

/-- A job of the issuing context with nothing captured but its name. -/
def newJob (s : State) (i : Instr) : Job where
  id := s.nextKey
  forkId := s.nextKey
  ctx := s.cur.2
  instr := i
  word := s.word
  a := 0
  b := 0
  x := 0
  va := 0
  vb := 0
  vd := 0
  mask := 0
  params := []
  shape := []
  tag := none
  epoch := 0
  exp := 0
  fired := none
  prom := none
  started := false
  next := 0
  off := 0
  chunks := []
  failed := none
  run := []
  flags := 0
  partial36 := []
  words := []

def appendJob (s : State) (core : Nat) (e : Engine) (j : Job) : State :=
  { s with nextKey := s.nextKey + 1 }.modCore core (fun c => c.setQueue e (c.queue e ++ [j]))

/-- A command is accepted into its engine's queue; a full queue stalls the issue (R161, R164). -/
def enqueue (s : State) (e : Engine) (j : Job) (len : Nat) : Result :=
  if s.me.queueFull e then sleepIn s .stall else retire (appendJob s s.cur.1 e j) len

def vreg (c : Context) (r : Nat) : Vec := vget c.v r 0

end Sys2Proof.Machine
end

