-- ==== Sys2Proof/Machine/Holds.lean ====
section
/-! DEFINITION. Which earlier entries of a context hold back a later one (spec/10_ordering.md R212 to R216), what a release
waits for, and when a context's earlier accesses have been performed. -/
namespace Sys2Proof.Machine

/-! ### Kinds of entry -/

def Access.isLines (e : Access) : Bool := match e.op with | .rwb | .rinv => true | _ => false
/-- An entry that reads or writes memory. A counter addition is a read-modify-write, a plain `cwait` a repeated read (R225). -/
def Access.isRead (e : Access) : Bool := match e.op with | .load _ | .atomic _ _ _ _ | .cread _ | .cadd _ | .wait _ => true | _ => false
def Access.isWrite (e : Access) : Bool := match e.op with | .store _ | .atomic _ _ _ _ | .cadd _ => true | _ => false
def Access.isAccess (e : Access) : Bool := e.isRead || e.isWrite
/-- Arrivals at barriers and ring advances move no memory but may be releases (R225). -/
def Access.isArrival (e : Access) : Bool := match e.op with | .arrive _ _ | .advance _ _ _ => true | _ => false
def Access.onSoRc (e : Access) : Bool := e.kind != .uo
/-- Performed at its home and never in a holding copy (R196, R203, R337). -/
def Access.atHome (e : Access) : Bool := match e.op with | .atomic _ _ _ _ | .cadd _ | .cread _ | .wait _ => true | _ => false

/-! ### Where an entry is performed (R214) -/

/-- How far an entry reaches: 0 the issuer's die, 1 the package, 2 another package or the host. A write into a holding copy of the
die (`copied`: a write to a handoff page) reaches no further than the copy. -/
def placeReach (s : State) (die : Nat) (copied : Bool) (pl : Place) : Nat :=
  match pl with
  | .lm _ _ => 0
  | .fabric _ _ _ => 2
  | .sched p _ => if dieOf (s.part p).supervisor = die then 0 else 1
  | .window c _ => if dieOf c = die then 0 else 1
  | .mailbox _ _ => 1
  | .phys pa =>
    if (heldLine die copied pl).isSome then 0
    else match paKind pa with
      | .home d _ => if d = die then 0 else 1
      | .baseDie k _ => if k / 3 = die then 0 else 1
      | .host _ => 2
      | _ => 1

def Access.reach (s : State) (core : Nat) (e : Access) : Nat :=
  if e.isLines then 0 else placeReach s (dieOf core) (e.handoff && e.isWrite && !e.atHome) e.place

/-- What a scope counts (R214): `.core`, `.clu`, `.die` the die; `.pkg` the package; `.sys` everything. -/
def scopeReach (scope : Nat) : Nat := if scope ≤ 2 then 0 else if scope = 3 then 1 else 2

def Access.within (s : State) (core scope : Nat) (e : Access) : Bool := e.reach s core ≤ scopeReach scope

/-! ### Overlap -/

def rangeMeets (a n b m : Nat) : Bool := a < b + m && b < a + n

def placeMeets (p : Place) (n : Nat) (q : Place) (m : Nat) : Bool :=
  match p, q with
  | .lm c a, .lm d b => c = d && rangeMeets a n b m
  | .phys a, .phys b => rangeMeets a n b m
  | .sched x a, .sched y b => x = y && rangeMeets a n b m
  | .mailbox x a, .mailbox y b => x = y && rangeMeets a n b m
  | .window x a, .window y b => x = y && rangeMeets a n b m
  | .fabric k x a, .fabric l y b => k = l && x = y && rangeMeets a n b m
  | _, _ => false

/-- Where the bytes of a place lie: of a fabric address in this package, its page's place. -/
def realPlace (s : State) (pl : Place) : Place :=
  match pl with
  | .fabric k p va =>
    if k != s.pkgId.toNat then pl
    else (match translate s p va true true with | .ok (_, q) => q | .error _ => pl)
  | _ => pl

/-- The range of a line entry holds bytes of an access, by any of the addresses that show them. -/
def Access.touches (s : State) (core : Nat) (l b : Access) : Bool :=
  (b.va.toNat :: placeVas s core (realPlace s b.place)).any (fun va => rangeMeets va b.len l.va.toNat l.len)

/-- Two line entries touch bytes in common. -/
def linesMeet (s : State) (core : Nat) (e b : Access) : Bool :=
  rangeMeets e.va.toNat e.len b.va.toNat b.len ||
  (match (s.core core).part with
   | some p =>
     (rangeFrames (s.part p) e.va.toNat e.len).any (fun f =>
       (rangeFrames (s.part p) b.va.toNat b.len).any (fun g => rangeMeets f.1 f.2 g.1 g.2))
   | none => false)

/-- The bytes of two entries of a core overlap, by whichever mappings of their frames, or by a fabric address. -/
def Access.meets (s : State) (core : Nat) (e b : Access) : Bool :=
  match e.isLines, b.isLines with
  | true, true => linesMeet s core e b
  | true, false => e.touches s core b
  | false, true => b.touches s core e
  | false, false => placeMeets (realPlace s e.place) e.len (realPlace s b.place) b.len

/-! ### Fences and joins (R216, R219) -/

/-- An entry that a fence waits for. -/
def fenceWaits (s : State) (core : Nat) (kind scope : Nat) (e : Access) : Bool :=
  (e.isAccess || e.isLines) && e.within s core scope &&
  (match kind with
   | 0 => e.isRead && e.onSoRc
   | 3 => true
   | _ => e.onSoRc)

/-- A later entry that a fence holds back. `fence.sc` holds arrivals too (R226: it stands between writes and an arrival). -/
def fenceHolds (kind : Nat) (b : Access) : Bool :=
  match kind with
  | 1 => b.isWrite && b.onSoRc
  | 3 => b.isAccess || b.isArrival
  | _ => b.isAccess && b.onSoRc

/-- The entries of a context before a given one. -/
def before (l : List Access) (e : Access) : List Access := l.filter (fun x => x.ctx = e.ctx && decide (x.id < e.id))

/-- An unfinished fence: an entry it waits for has not been performed. -/
def fenceOpen (s : State) (core : Nat) (l : List Access) (f : Access) (kind : Nat) : Bool :=
  (before l f).any (fenceWaits s core kind f.scope)

/-- Bytes of stores of a die that `sel` picks stand dirty in its copies, or in messages that have not been applied. -/
def storesOut (s : State) (die : Nat) (sel : HeldStore → Bool) : Bool :=
  (s.die die).holding.any (fun h => h.stores.any sel) || s.paths.any (fun p => p.1 / 1000 = die && p.2.any (fun m => m.stores.any sel))

/-- An access of the joined thread has not been performed at its home order point (R219): it is an open entry, or bytes that it wrote have not
been applied there. -/
def joinOpen (s : State) (core : Nat) (l : List Access) (ids stores : List Nat) : Bool :=
  l.any (fun x => ids.contains x.id) ||
  storesOut s (dieOf core) (fun h => stores.contains h.seq || (match h.acc with | some k => ids.contains k | none => false))

/-! ### R212 -/

/-- A plain `cwait` holds back no later read (R225, R418). -/
def waitPasses (e b : Access) : Bool := e.isWait && !b.isWrite

/-- Entry `e` holds back the later entry `b` for its bytes. -/
def holdsByOverlap (s : State) (core : Nat) (e b : Access) : Bool :=
  (e.isAccess || e.isLines) && (b.isAccess || b.isLines) && !waitPasses e b && e.meets s core b

/-- Entry `e` holds back the later entry `b` for a reason other than overlap. -/
def holdsOtherwise (s : State) (core : Nat) (l : List Access) (e b : Access) : Bool :=
  match e.op with
  | .fence k => fenceHolds k b && fenceOpen s core l e k
  | .join ids st => (b.isAccess || b.isLines || b.isArrival) && joinOpen s core l ids st
  | _ =>
    (e.isAccess && b.isAccess && !waitPasses e b && e.kind = .so && b.kind = .so) ||
    (e.acq && e.isRead && e.onSoRc && b.isAccess && b.onSoRc) ||
    (b.rel && (b.isWrite || b.isArrival) && b.onSoRc && (e.isAccess || e.isLines) && e.onSoRc && e.within s core b.scope)

/-- Bytes that stores of a context before entry `id` left in holding copies of its die, or in messages, of lines homed on die `x`
(every die when `x` is none), and that have not been applied (R215, R227). Engine threads are no stores of the context. -/
def unsentBytes (s : State) (core ctx id : Nat) (x : Option Nat) : Bool :=
  let mine := fun (l : List HeldStore) => l.any (fun h => h.owner = core * 16 + ctx &&
    (match h.acc with | some k => decide (k < id) | none => false))
  let homed := fun (line : Nat) => match x with | none => true | some d => homeDie line = some d
  (s.die (dieOf core)).holding.any (fun h => homed h.line && mine h.stores) ||
  s.paths.any (fun p => p.1 / 1000 = dieOf core && p.2.any (fun m => homed m.line && mine m.stores))

/-- The home die of a release's target (R215). -/
def targetDie (s : State) (pl : Place) : Option Nat :=
  match pl with
  | .phys pa => homeDie pa
  | .lm c _ => some (dieOf c)
  | .sched p _ => some (dieOf (s.part p).supervisor)
  | _ => none

/-- R215: a release at `.pkg` or `.sys` waits for the bytes held for its target's die. -/
def relWaits (s : State) (core : Nat) (b : Access) : Bool :=
  b.rel && b.onSoRc && 3 ≤ b.scope && (match targetDie s b.place with | some d => unsentBytes s core b.ctx b.id (some d) | none => false)

/-- PERFORM(b) may take the entry (R212). -/
def mayPerform (s : State) (core : Nat) (b : Access) : Bool :=
  let l := (s.core core).accs
  !relWaits s core b && (before l b).all (fun e => !(holdsByOverlap s core e b || holdsOtherwise s core l e b))

/-- A read may be performed by taking the bytes of the context's latest earlier writes when nothing but overlap holds it
and plain stores cover every byte of it (R212). -/
def forwardByte (s : State) (l : List Access) (pl : Place) : Option Byte :=
  match (l.filter (fun e => placeMeets (realPlace s e.place) e.len pl 1)).getLast? with
  | some e => match e.op, e.place, pl with
    | .store d, .lm _ a, .lm _ b | .store d, .phys a, .phys b | .store d, .sched _ a, .sched _ b =>
      some (BitVec.ofNat 8 (d / 2 ^ (8 * (b - a))))
    | _, _, _ => none
  | none => none

def forwardBytes (s : State) (core : Nat) (b : Access) : Option (List Byte) :=
  let l := (s.core core).accs
  let ear := before l b
  if (match b.op with | .load _ => true | _ => false) && ear.all (fun e => !holdsOtherwise s core l e b) then
    (List.range b.len).mapM (fun i => forwardByte s (ear.filter Access.isWrite) (b.place.add i))
  else none

/-! ### Waits of an instruction for its context's own earlier accesses -/

/-- A release of the issuing context at a scope, as the last of its entries. -/
def releaseEntry (s : State) (scope : Nat) : Access :=
  entry s { kind := .rc, place := .lm s.cur.1 0, handoff := false, attr := 0 } (.arrive 0 0) 0 0 false true scope

/-- A release of the issuing context at a scope could be performed now (R214): its accesses, `rwb` and `rinv` on SO and RC pages are
performed, its joins are complete (R159, R219), and so are the `fence.sc` entries before it (R226). -/
def relDrained (s : State) (scope : Nat) : Bool := mayPerform s s.cur.1 (releaseEntry s scope)

/-- `fence.sc` at a scope would be satisfied. -/
def allDrained (s : State) (core ctx scope : Nat) : Bool :=
  (s.core core).accs.all (fun e => !(e.ctx = ctx && fenceWaits s core 3 scope e))

/-- The fork condition (R217): every access of a context before entry `id` has been performed, counted at a scope, and
its joins are complete. -/
def forkReady (s : State) (core ctx id scope : Nat) : Bool :=
  let l := (s.core core).accs
  l.all (fun e => !(e.ctx = ctx && decide (e.id < id) &&
    ((e.isAccess && e.within s core scope) || (match e.op with | .join ids st => joinOpen s core l ids st | _ => false))))

/-- A wait of the context on a handle or barrier for its own arrival there that has not been made. -/
def advancePending (s : State) (core ctx h : Nat) : Bool :=
  (s.core core).accs.any (fun e => e.ctx = ctx && (match e.op with | .advance k _ _ => k = h | _ => false))

def arrivePending (s : State) (core ctx b : Nat) : Bool :=
  (s.core core).accs.any (fun e => e.ctx = ctx && (match e.op with | .arrive k _ => k = b | _ => false))

end Sys2Proof.Machine
end

