-- ==== Sys2Proof/Machine/Fp.lean ====
section
/-! DEFINITION. Exact values, rounding and arithmetic of the floating-point formats (spec/11_arithmetic.md R229 to R240,
R247 to R250). A finite value is a sign, a natural mantissa and an exponent of two, so nothing is rounded on the way. -/
namespace Sys2Proof.Machine

/-- A value: NaN, an infinity, or (−1)^neg × m × 2^e. -/
inductive Fp where
  | nan | inf (neg : Bool) | fin (neg : Bool) (m : Nat) (e : Int)
  deriving DecidableEq, Repr

/-- Rounding modes (R232); SR carries its 16-bit draw (R237). -/
inductive RMode where
  | rne | rtz | sr (r : Nat)
  deriving DecidableEq, Repr

def pow2 (e : Int) : Nat := 2 ^ e.toNat

/-- The value a bit pattern holds (R230). -/
def fpDecode (f : FFmt) (v : Nat) : Fp :=
  let frac := v % 2 ^ f.mbits
  let ex := v / 2 ^ f.mbits % 2 ^ f.ebits
  let neg := v / 2 ^ (f.mbits + f.ebits) % 2 = 1
  if ex = 0 then .fin neg frac f.emin
  else if ex = 2 ^ f.ebits - 1 && !f.noInf then (if frac = 0 then .inf neg else .nan)
  else if ex = 2 ^ f.ebits - 1 && frac = 2 ^ f.mbits - 1 then .nan
  else .fin neg (2 ^ f.mbits + frac) (ex + f.emin - 1)

/-- The canonical NaN (R230, R243). -/
def fpNan (f : FFmt) : Nat :=
  if f.noInf then 2 ^ (f.ebits + f.mbits) - 1 else (2 ^ f.ebits - 1) * 2 ^ f.mbits + 2 ^ (f.mbits - 1)

def fpSign (f : FFmt) (neg : Bool) (v : Nat) : Nat := if neg then 2 ^ (f.ebits + f.mbits) + v else v

def fpMax (f : FFmt) (neg : Bool) : Nat := fpSign f neg ((f.maxE - f.emin).toNat * 2 ^ f.mbits + f.maxM)
def fpInf (f : FFmt) (neg : Bool) : Nat := fpSign f neg ((2 ^ f.ebits - 1) * 2 ^ f.mbits)

/-- Round m × 2^e to a multiple of 2^q: the multiple, and whether it is inexact. -/
def roundAt (mode : RMode) (m : Nat) (e q : Int) : Nat × Bool :=
  if q ≤ e then (m * pow2 (e - q), false)
  else
    let d := pow2 (q - e)
    let r := m % d
    let t := m / d
    let up := match mode with
      | .rne => d < 2 * r || (d = 2 * r && t % 2 = 1)
      | .rtz => false
      | .sr k => r != 0 && 65536 ≤ r * 65536 / d + k
    (if up then t + 1 else t, r != 0)

/-- `RoundTo`: the pattern and the flags (R231 to R233, R237). -/
def fpRound (f : FFmt) (mode : RMode) : Fp → Nat × FpFlags
  | .nan => (fpNan f, 0)
  | .inf neg => if f.noInf then (fpMax f neg, flagSAT) else (fpInf f neg, 0)
  | .fin neg m e =>
    if m = 0 then (fpSign f neg 0, 0)
    else
      let top := e + Nat.log2 m
      let q := max (top - f.mbits) f.emin
      let (t, inexact) := roundAt mode m e q
      if f.maxE < q || (q = f.maxE && f.maxM < t) then
        (if mode = .rtz || f.noInf then fpMax f neg else fpInf f neg, overflowFlags f)
      else
        let (u, _) := roundAt mode m e (top - f.mbits)
        let tiny := top < f.emin + f.mbits && !(top + 1 = f.emin + f.mbits && u = 2 ^ (f.mbits + 1))
        (fpSign f neg ((q - f.emin).toNat * 2 ^ f.mbits + t), resultFlags tiny inexact)

/-! ### Exact operations -/

def Fp.isNan : Fp → Bool | .nan => true | _ => false
def Fp.isZero : Fp → Bool | .fin _ m _ => m = 0 | _ => false
def Fp.sign : Fp → Bool | .nan => false | .inf n => n | .fin n _ _ => n
def Fp.neg : Fp → Fp | .nan => .nan | .inf n => .inf (!n) | .fin n m e => .fin (!n) m e
def Fp.abs : Fp → Fp | .nan => .nan | .inf _ => .inf false | .fin _ m e => .fin false m e

def signed (neg : Bool) (m : Nat) : Int := if neg then -(m : Int) else m

/-- Exact sum (R231): a zero sum is +0 unless both are −0; ∞ − ∞ is NaN with NV. -/
def fpAdd (a b : Fp) : Fp × FpFlags :=
  match a, b with
  | .nan, _ | _, .nan => (.nan, 0)
  | .inf x, .inf y => if x = y then (.inf x, 0) else (.nan, flagNV)
  | .inf x, _ => (.inf x, 0)
  | _, .inf y => (.inf y, 0)
  | .fin x m e, .fin y n g =>
    if m = 0 && n = 0 then (.fin (x && y) 0 0, 0)
    else
      let q := min e g
      let v := signed x (m * pow2 (e - q)) + signed y (n * pow2 (g - q))
      if v = 0 then (.fin false 0 0, 0) else (.fin (decide (v < 0)) v.natAbs q, 0)

/-- Exact difference (R231): one that is zero is +0, also that of zeros; R231 excepts only a sum of two −0. -/
def fpSub (a b : Fp) : Fp × FpFlags :=
  match fpAdd a b.neg with
  | (.fin n m e, g) => (.fin (n && m != 0) m e, g)
  | r => r

/-- Exact product (R231): 0 × ∞ is NaN with NV. -/
def fpMul (a b : Fp) : Fp × FpFlags :=
  match a, b with
  | .nan, _ | _, .nan => (.nan, 0)
  | .inf x, .inf y => (.inf (x != y), 0)
  | .inf x, .fin y n _ => if n = 0 then (.nan, flagNV) else (.inf (x != y), 0)
  | .fin x m _, .inf y => if m = 0 then (.nan, flagNV) else (.inf (x != y), 0)
  | .fin x m e, .fin y n g => (.fin (x != y) (m * n) (e + g), 0)

/-- Quotient with a sticky last bit, far below every format's precision, so that one rounding of it is correct (R249, R357). -/
def fpDiv (a b : Fp) : Fp × FpFlags :=
  match a, b with
  | .nan, _ | _, .nan => (.nan, 0)
  | .inf _, .inf _ => (.nan, flagNV)
  | .inf x, .fin y _ _ => (.inf (x != y), 0)
  | .fin x _ _, .inf y => (.fin (x != y) 0 0, 0)
  | .fin x m e, .fin y n g =>
    if n = 0 then (if m = 0 then (.nan, flagNV) else (.inf (x != y), flagDZ))
    else
      let k := 64 + Nat.log2 n
      let t := m * 2 ^ k / n
      let st := if m * 2 ^ k % n = 0 then 0 else 1
      (.fin (x != y) (2 * t + st) (e - g - k - 1), 0)

/-- The integer square root by bits: the greatest r below 2^b with r² ≤ n. -/
def isqrt (n b : Nat) : Nat :=
  (List.range b).foldr (fun i acc => acc + (if (acc + 2 ^ i) * (acc + 2 ^ i) ≤ n then 2 ^ i else 0)) 0

/-- Square root with a sticky last bit (R357). -/
def fpSqrt (a : Fp) : Fp × FpFlags :=
  match a with
  | .nan => (.nan, 0)
  | .inf neg => if neg then (.nan, flagNV) else (.inf false, 0)
  | .fin neg m e =>
    if m = 0 then (.fin neg 0 0, 0)
    else if neg then (.nan, flagNV)
    else
      let k : Nat := 80 + (if (e - 80) % 2 = 0 then 0 else 1)
      let n := m * 2 ^ k
      let r := isqrt n 80
      let st := if r * r = n then 0 else 1
      (.fin false (2 * r + st) ((e - k) / 2 - 1), 0)

/-- a < b for values that are no NaN; −0 equals +0. -/
def fpLt (a b : Fp) : Bool :=
  match a, b with
  | .nan, _ | _, .nan => false
  | .inf x, .inf y => x && !y
  | .inf x, _ => x
  | _, .inf y => !y
  | .fin x m e, .fin y n g =>
    let q := min e g
    decide (signed x (m * pow2 (e - q)) < signed y (n * pow2 (g - q)))

def fpEq (a b : Fp) : Bool := !a.isNan && !b.isNan && !fpLt a b && !fpLt b a

/-- Order of minimum and maximum: −0 stands below +0 (R231). -/
def fpBelow (a b : Fp) : Bool := fpLt a b || (a.isZero && b.isZero && a.sign && !b.sign)
def fpMin (a b : Fp) : Fp := if a.isNan || b.isNan then .nan else if fpBelow b a then b else a
def fpMaxOf (a b : Fp) : Fp := if a.isNan || b.isNan then .nan else if fpBelow a b then b else a

/-- Round the exact result of an operation and join its flags. -/
def fpFinish (f : FFmt) (mode : RMode) (r : Fp × FpFlags) : Nat × FpFlags :=
  let (v, g) := fpRound f mode r.1
  (v, g ||| r.2)

/-- a × b + c with its flags, exact. -/
def fpMulAdd (a b c : Fp) : Fp × FpFlags :=
  let (p, g) := fpMul a b
  let (r, h) := fpAdd p c
  (r, g ||| h)

/-- c − a × b with its flags, exact (R357). -/
def fpMulSub (a b c : Fp) : Fp × FpFlags :=
  let (p, g) := fpMul a b
  let (r, h) := fpSub c p
  (r, g ||| h)

/-! ### Integers (R240) -/

/-- A finite value rounded to an integer, and whether it is inexact. -/
def fpToInt (mode : RMode) (neg : Bool) (m : Nat) (e : Int) : Int × Bool :=
  let (t, inexact) := roundAt mode m e 0
  (signed neg t, inexact)

/-- A float converted to an integer range (R240). -/
def fpConvInt (mode : RMode) (lo hi : Int) : Fp → Int × FpFlags
  | .nan => (0, flagNV)
  | .inf neg => (if neg then lo else hi, flagNV)
  | .fin neg m e =>
    let (v, inexact) := fpToInt mode neg m e
    if v < lo then (lo, flagNV) else if hi < v then (hi, flagNV) else (v, flagIf inexact flagNX)

def fpOfInt (v : Int) : Fp := .fin (decide (v < 0)) v.natAbs 0

/-! ### Element formats (R229) -/

def fmtFloat : Nat → Option FFmt
  | 0 => some fp32 | 1 => some fp16 | 2 => some bf16 | 3 => some e4m3 | 4 => some e5m2 | _ => none

def fmtWidth : Nat → Nat
  | 0 => 32 | 1 => 16 | 2 => 16 | 3 => 8 | 4 => 8 | 5 => 4 | 6 => 8 | 7 => 16 | 8 => 32 | 9 => 64
  | 10 => 8 | 11 => 16 | 12 => 32 | 13 => 64 | 14 => 4 | _ => 8

def fmtSigned (c : Nat) : Bool := 5 ≤ c && c ≤ 9

/-- The integer an element of an integer format holds. -/
def fmtInt (c v : Nat) : Int :=
  let w := fmtWidth c
  if fmtSigned c && 2 ^ (w - 1) ≤ v % 2 ^ w then ((v % 2 ^ w : Nat) : Int) - (2 ^ w : Nat) else ((v % 2 ^ w : Nat) : Int)

def fmtLo (c : Nat) : Int := if fmtSigned c then -((2 ^ (fmtWidth c - 1) : Nat) : Int) else 0
def fmtHi (c : Nat) : Int := if fmtSigned c then (2 ^ (fmtWidth c - 1) : Nat) - 1 else (2 ^ fmtWidth c : Nat) - 1

def fpWrapInt (x : Int) (w : Nat) : Nat := (x % ((2 ^ w : Nat) : Int)).toNat

/-- Conversion of one element from format `sf` to format `df` (R240, R362). -/
def convElem (sf df : Nat) (mode : RMode) (v : Nat) : Nat × FpFlags :=
  match fmtFloat sf, fmtFloat df with
  | some a, some b => fpRound b mode (fpDecode a v)
  | none, some b => fpRound b mode (fpOfInt (fmtInt sf v))
  | some a, none =>
    let (x, g) := fpConvInt mode (fmtLo df) (fmtHi df) (fpDecode a v)
    (fpWrapInt x (fmtWidth df), g)
  | none, none => (fpWrapInt (fmtInt sf v) (fmtWidth df), 0)

/-! ### Generators (R238) -/

def rngNext (s : BitVec 32) : BitVec 32 :=
  let s := s ^^^ (s <<< 13)
  let s := s ^^^ (s >>> 17)
  s ^^^ (s <<< 5)

/-- `Draw(g)`: the new state and the draw. -/
def rngDraw (s : BitVec 32) : BitVec 32 × Nat := (rngNext s, (rngNext s).toNat / 65536)

/-! ### Named roundings (R5, R236) -/

def round32 (mode : RMode) (r : Fp × FpFlags) : Nat × FpFlags := fpFinish fp32 mode r
def round36 (r : Fp × FpFlags) : Nat × FpFlags := fpFinish f36 .rne r
def dec32 (v : Nat) : Fp := fpDecode fp32 (v % 2 ^ 32)
def dec36 (v : Nat) : Fp := fpDecode f36 v

/-- Round32(a + b) of two FP32 patterns (R196, R250). -/
def fadd32 (a b : Nat) : Nat × FpFlags := round32 .rne (fpAdd (dec32 a) (dec32 b))

/-! ### Loss-scale rescaling of one accumulator element (R248) -/

/-- An F36 element times 2^d: clamped with SAT above the largest F36 value, else rounded. -/
def rescaleF36 (d : Int) (v : Nat) : Nat × FpFlags :=
  match dec36 v with
  | .fin neg m e =>
    if m = 0 then (v, 0)
    else
      let big := f36.maxM * pow2 (f36.maxE - min f36.maxE (e + d)) < m * pow2 (e + d - min f36.maxE (e + d))
      if big then (fpMax f36 neg, flagSAT) else fpRound f36 .rne (.fin neg m (e + d))
  | _ => (v, 0)

/-- Sign-extended value of an I36 element (R243). -/
def i36 (v : Nat) : Int := if v % 2 ^ 36 < 2 ^ 35 then ((v % 2 ^ 36 : Nat) : Int) else ((v % 2 ^ 36 : Nat) : Int) - (2 ^ 36 : Nat)

/-- Clamp to I36 with SAT (R243). -/
def satI36 (x : Int) : Nat × FpFlags :=
  let lo : Int := -((2 ^ 35 : Nat) : Int)
  let hi : Int := (2 ^ 35 : Nat) - 1
  if x < lo then (fpWrapInt lo 36, flagSAT) else if hi < x then (fpWrapInt hi 36, flagSAT) else (fpWrapInt x 36, 0)

def rescaleI36 (d : Int) (v : Nat) : Nat × FpFlags :=
  let x := i36 v
  let (t, _) := roundAt .rne x.natAbs d 0
  satI36 (signed (decide (x < 0)) t)

end Sys2Proof.Machine
end

