-- ==== Sys2Proof/Machine/Vector.lean ====
section
/-! DEFINITION. The vector engine (spec/17_isa_vector.md): what a command checks and captures, what its job computes when it
has started, and the meaning of each instruction of majors 0x20 to 0x2a, which puts its job into the vector queue. -/
namespace Sys2Proof.Machine

/-! ### Lanes (R356) -/

def lane (v : Vec) (w i : Nat) : Nat := v.toNat / 2 ^ (w * i) % 2 ^ w
/-- The register whose lane `i` is the `i`th number. -/
def packLanes (w : Nat) (l : List Nat) : Vec := BitVec.ofNat 512 (l.foldr (fun x acc => x % 2 ^ w + 2 ^ w * acc) 0)
def lanes (w : Nat) : Nat := 512 / w

/-- Lane `i` is governed by the mask (R356). -/
def activeLane (m : Option (BitVec 3)) (mask : DWord) (i : Nat) : Bool := m.isNone || mask.getLsbD i

/-- What a job writes at its end: a vector register with the bits written, a scalar, a mask, flags and the generator. -/
structure VecRes where
  vec : Option (Reg × Vec × Vec) := none
  scalar : Option (Reg × DWord) := none
  msk : Option (BitVec 3 × DWord) := none
  flags : FpFlags := 0
  rng : BitVec 32
  deriving DecidableEq, Repr

/-- Compute the active lanes of a destination: new value, bits written, flags joined. -/
def eachLane (d : Reg) (w : Nat) (act : Nat → Bool) (f : Nat → Nat × FpFlags) (rng : BitVec 32) : VecRes :=
  let r := (List.range (lanes w)).map (fun i => if act i then f i else (0, 0))
  { vec := some (d, packLanes w (r.map Prod.fst),
      packLanes w ((List.range (lanes w)).map (fun i => if act i then 2 ^ w - 1 else 0)))
    flags := r.foldl (fun g x => g ||| x.2) 0
    rng := rng }

/-! ### Floating lanes (R357) -/

def flaneFmt : FLane → FFmt | .f => fp32 | .bf => bf16 | .h => fp16
def flaneWidth : FLane → Nat | .f => 32 | _ => 16
def rzMode (rz : Bool) : RMode := if rz then .rtz else .rne

/-- A floating operation of three inputs, exact, rounded once. -/
def floatLanes (j : Job) (t : FLane) (d : Reg) (rz : Bool) (m : Option (BitVec 3)) (rng : BitVec 32)
    (op : Fp → Fp → Fp → Fp × FpFlags) : VecRes :=
  let dec := fun (v : Vec) (i : Nat) => fpDecode (flaneFmt t) (lane v (flaneWidth t) i)
  eachLane d (flaneWidth t) (activeLane m j.mask)
    (fun i => fpFinish (flaneFmt t) (rzMode rz) (op (dec j.va i) (dec j.vb i) (dec j.vd i))) rng

/-! ### Integer lanes (R358) -/

def ilaneWidth : ILane → Nat | .w32 => 32 | .w16 => 16 | .w8 => 8

/-- The value of a lane, unsigned with `.n`. -/
def laneInt (n : Bool) (w v : Nat) : Int := if n then (v : Int) else sext v w

def intLanes (j : Job) (t : ILane) (d : Reg) (n : Bool) (m : Option (BitVec 3)) (rng : BitVec 32)
    (op : Int → Int → Nat → Int) : VecRes :=
  eachLane d (ilaneWidth t) (activeLane m j.mask)
    (fun i => (wrap (op (laneInt n (ilaneWidth t) (lane j.va (ilaneWidth t) i)) (laneInt n (ilaneWidth t) (lane j.vb (ilaneWidth t) i)) (ilaneWidth t)) (ilaneWidth t), 0)) rng

/-- A lane-wise operation on the patterns of the lanes. -/
def bitLanes (j : Job) (t : ILane) (d : Reg) (m : Option (BitVec 3)) (rng : BitVec 32) (op : Nat → Nat → Nat → Nat) : VecRes :=
  eachLane d (ilaneWidth t) (activeLane m j.mask) (fun i => (op (lane j.va (ilaneWidth t) i) (lane j.vb (ilaneWidth t) i) (ilaneWidth t), 0)) rng

/-- Saturation to the lane's range (R358 ops 12 and 13). -/
def satLane (n : Bool) (w : Nat) (x : Int) : Int :=
  if n then sat x 0 ((2 ^ w : Nat) - 1) else sat x (-((2 ^ (w - 1) : Nat) : Int)) ((2 ^ (w - 1) : Nat) - 1)

/-! ### Compares (R359) -/

/-- Conditions eq, ne, lt, le of one lane, with the flag of a NaN operand. -/
def cmpLane (cond fmt a b : Nat) : Bool × FpFlags :=
  match fmtFloat fmt with
  | some f =>
    let x := fpDecode f a
    let y := fpDecode f b
    let nan := x.isNan || y.isNan
    match cond with
    | 0 => (fpEq x y, 0)
    | 1 => (!fpEq x y, 0)
    | 2 => (fpLt x y, flagIf nan flagNV)
    | _ => (fpLt x y || fpEq x y, flagIf nan flagNV)
  | none =>
    let x := fmtInt fmt a
    let y := fmtInt fmt b
    (match cond with | 0 => x = y | 1 => x != y | 2 => x < y | _ => decide (x ≤ y), 0)

def compareLanes (j : Job) (cond : Nat) (d : BitVec 3) (fmt : BitVec 4) (m : Option (BitVec 3)) (rng : BitVec 32) : VecRes :=
  let w := fmtWidth fmt.toNat
  let r := (List.range (lanes w)).map (fun i =>
    if activeLane m j.mask i then cmpLane cond fmt.toNat (lane j.va w i) (lane j.vb w i) else (false, 0))
  { msk := some (d, b64 (r.foldr (fun x acc => (if x.1 then 1 else 0) + 2 * acc) 0))
    flags := r.foldl (fun g x => g ||| x.2) 0
    rng := rng }

/-! ### Permutes (R360) -/

def laneWidth (l : BitVec 2) : Nat := match l.toNat with | 0 => 32 | 1 => 16 | 2 => 8 | _ => 64

/-! ### Conversions (R361, R362) -/

/-- The rounding mode of element `i`, and the generator before each draw of a job in SR mode (R238). -/
def drawList : Nat → BitVec 32 → List Nat × BitVec 32
  | 0, g => ([], g)
  | n + 1, g => let (g1, r) := rngDraw g; let (l, g2) := drawList n g1; (r :: l, g2)

def convMode (mode : Nat) (draws : List Nat) (i : Nat) : RMode :=
  match mode with | 0 => .rne | 1 => .rtz | _ => .sr (draws.getD i 0)

def convertLanes (j : Job) (sf df mode : Nat) (d : Reg) (p : Nat) (rng : BitVec 32) : VecRes :=
  let ws := fmtWidth sf
  let wd := fmtWidth df
  let n := 512 / max ws wd
  let (draws, rng') := if mode = 2 then drawList n rng else ([], rng)
  let src := if ws < wd then p * n else 0
  let dst := if wd < ws then p * n else 0
  let r := (List.range n).map (fun i => convElem sf df (convMode mode draws i) (lane j.va ws (src + i)))
  let pad := List.replicate dst 0
  { vec := some (d, packLanes wd (pad ++ r.map Prod.fst), packLanes wd (pad ++ List.replicate n (2 ^ wd - 1)))
    flags := r.foldl (fun g x => g ||| x.2) 0
    rng := rng' }

/-! ### Reductions (R250, R363) -/

/-- One level of the pairwise tree. -/
def pairLevel {α : Type} (op : α → α → α) : List α → List α
  | a :: b :: r => op a b :: pairLevel op r
  | l => l

def pairTree {α : Type} (op : α → α → α) : Nat → List α → List α
  | 0, l => l
  | n + 1, l => pairTree op n (pairLevel op l)

/-- Float lanes: the add tree rounds with Round32 at each pair; inactive lanes enter as −0. -/
def treeAdd (l : List Nat) : Nat × FpFlags :=
  let op := fun (a b : Nat × FpFlags) => let r := fadd32 a.1 b.1; (r.1, r.2 ||| a.2 ||| b.2)
  (pairTree op 6 (l.map (fun x => (x, 0)))).headD (0x80000000, 0)

/-- The active lanes of a reduction, widened exactly to FP32 or taken as integers. -/
def activeLanes (j : Job) (w : Nat) (m : Option (BitVec 3)) : List Nat :=
  ((List.range (lanes w)).filter (activeLane m j.mask)).map (lane j.va w)

def fp32Pat (v : Fp) : Nat := (fpRound fp32 .rne v).1

def redFloat (j : Job) (op : Nat) (f : FFmt) (m : Option (BitVec 3)) : Nat × FpFlags :=
  let vals := (activeLanes j f.width m).map (fpDecode f)
  match op with
  | 0 => treeAdd ((List.range (lanes f.width)).map (fun i =>
      if activeLane m j.mask i then fp32Pat (fpDecode f (lane j.va f.width i)) else 0x80000000))
  | 1 => (fp32Pat (vals.foldl fpMin (.inf false)), 0)
  | 2 => (fp32Pat (vals.foldl fpMaxOf (.inf true)), 0)
  | _ => (fp32Pat ((vals.map Fp.abs).foldl fpMaxOf (.fin false 0 0)), 0)

def redInt (j : Job) (op fmt : Nat) (m : Option (BitVec 3)) : Int :=
  let vals := (activeLanes j (fmtWidth fmt) m).map (fmtInt fmt)
  match op with
  | 0 => vals.foldl (· + ·) 0
  | 1 => vals.foldl min (fmtHi fmt)
  | 2 => vals.foldl max (fmtLo fmt)
  | _ => (vals.map (fun x => (x.natAbs : Int))).foldl max 0

def reduceLanes (j : Job) (op : Nat) (rd : Reg) (fmt : BitVec 4) (m : Option (BitVec 3)) (rng : BitVec 32) : VecRes :=
  match fmtFloat fmt.toNat with
  | some f => let r := redFloat j op f m; { scalar := some (rd, b64 r.1), flags := r.2, rng := rng }
  | none => { scalar := some (rd, b64 (wrap (redInt j op fmt.toNat m) 64)), rng := rng }

/-! ### Scale-clip-convert, quantisation, factored moments (R246, R249, R364 to R366) -/

/-- |y| > M, exactly (R246). -/
def above (y : Fp) (mx : Fp) : Bool := fpLt mx y.abs

def sccLane (e5 : Bool) (m1 m2 : RMode) (x s : Nat) : Nat × FpFlags :=
  let f := if e5 then e5m2 else e4m3
  let mx : Fp := .fin false (if e5 then 57344 else 448) 0
  let (p, g) := fpMul (dec32 x) (dec32 s)
  let (yp, h) := fpRound fp32 m1 p
  let y := dec32 yp
  if y.isNan then (fpNan f, g ||| h)
  else
    let clip := above y mx
    let y' : Fp := if clip then .fin y.sign (if e5 then 57344 else 448) 0 else y
    let (o, k) := fpRound f m2 y'
    (o, g ||| h ||| flagIf clip flagSAT ||| k)

/-- The first rounding of `.sr` is RNE (R364). -/
def sccLanes (j : Job) (mode : Nat) (e5 : Bool) (d : Reg) (rng : BitVec 32) : VecRes :=
  let part := bits j.x.toNat 32 2
  let (draws, rng') := if mode = 2 then drawList 16 rng else ([], rng)
  let r := (List.range 16).map (fun i =>
    sccLane e5 (if mode = 1 then .rtz else .rne) (convMode mode draws i) (lane j.va 32 i) (bits j.x.toNat 0 32))
  let pad := List.replicate (16 * part) 0
  { vec := some (d, packLanes 8 (pad ++ r.map Prod.fst), packLanes 8 (pad ++ List.replicate 16 255))
    flags := r.foldl (fun g x => g ||| x.2) 0
    rng := rng' }

/-- One element of `vquant` (R365). -/
def quantLane (mode : RMode) (q8 : Bool) (zp sc x : Nat) : Nat × FpFlags :=
  let qmax : Int := if q8 then 255 else 15
  let (yp, g) := fpFinish fp32 mode (fpDiv (dec32 x) (fpDecode fp16 sc))
  match dec32 yp with
  | .nan => (zp, g ||| flagNV)
  | .inf neg => (if neg then 0 else qmax.toNat, g ||| flagSAT)
  | .fin neg m e =>
    let (v, inexact) := fpToInt mode neg m e
    let q := v + zp
    ((sat q 0 qmax).toNat, g ||| flagIf inexact flagNX ||| flagIf (q < 0 || qmax < q) flagSAT)

def quantLanes (j : Job) (mode : Nat) (q8 : Bool) (d : Reg) (rng : BitVec 32) : VecRes :=
  let w := if q8 then 8 else 4
  let part := bits j.x.toNat 32 3
  let r := (List.range 16).map (fun i =>
    quantLane (if mode = 1 then .rtz else .rne) q8 (bits j.x.toNat 16 8) (bits j.x.toNat 0 16) (lane j.va 32 i))
  let pad := List.replicate (16 * part) 0
  { vec := some (d, packLanes w (pad ++ r.map Prod.fst), packLanes w (pad ++ List.replicate 16 (2 ^ w - 1)))
    flags := r.foldl (fun g x => g ||| x.2) 0
    rng := rng }

/-- R249: two roundings under one mode. -/
def facmLane (mode : RMode) (ri sd c : Nat) : Nat × FpFlags :=
  let (p, g) := fpFinish fp32 mode (fpMul (dec32 ri) (dec32 c))
  let (v, h) := fpFinish fp32 mode (fpDiv (dec32 p) (dec32 sd))
  (v, g ||| h)

/-! ### What a command names -/

/-- The scalar and extension registers a command captures at issue: ra, rb, xsel (R182, R353, R371, R396). -/
def namedRegs : Instr → Option Reg × Option Reg × Option (BitVec 3)
  | .vbcast _ _ a _ => (some a, none, none)
  | .vins _ _ a b => (some a, some b, none)
  | .vext _ _ _ b => (none, some b, none)
  | .vscc _ _ _ _ x | .vquant _ _ _ _ x => (none, none, some x)
  | .vfacm _ _ _ b x => (none, some b, some x)
  | .mm _ _ _ _ a b x => (some a, some b, x)
  | .mmg _ _ _ _ a b x | .mmQ _ _ _ _ a b x => (some a, some b, some x)
  | .acld _ _ a | .acst _ _ _ a => (some a, none, none)
  | .scaccXreg _ _ _ _ _ x => (none, none, some x)
  | .cpy _ a b x | .cpy2 _ a b x | .cpyg _ a b x | .cpys _ a b x => (some a, some b, some x)
  | _ => (none, none, none)

/-- The operands of a command taken from a context's registers. -/
def captureOps (c : Context) (j : Job) : Job :=
  let (a, b, x) := namedRegs j.instr
  { j with
    a := match a with | some r => c.gpr r.toNat | none => 0
    b := match b with | some r => c.gpr r.toNat | none => 0
    x := match x with | some r => vget c.x r.toNat 0 | none => 0 }

/-- The vector and mask registers a job reads when it starts: va, vb, vd, mask (R353, R354). -/
def vecRegs : Instr → Reg × Reg × Reg × Option (BitVec 3)
  | .vaddFloat _ d a b _ m | .vsubFloat _ d a b _ m | .vmulFloat _ d a b _ m | .vdiv _ d a b _ m
  | .vfma _ d a b _ m | .vfnma _ d a b _ m => (a, b, d, m)
  | .vminFloat _ d a b m | .vmaxFloat _ d a b m => (a, b, d, m)
  | .vabs _ d a m | .vneg _ d a m | .vsqrt _ d a _ m => (a, 0, d, m)
  | .vaddInt _ d a b m | .vsubInt _ d a b m | .vmulInt _ d a b m | .vand _ d a b m | .vor _ d a b m | .vxor _ d a b m
  | .vsll _ d a b m | .vsrl _ d a b m | .vsra _ d a b m => (a, b, d, m)
  | .vmulh _ d a b _ m | .vminInt _ d a b _ m | .vmaxInt _ d a b _ m | .vadds _ d a b _ m | .vsubs _ d a b _ m => (a, b, d, m)
  | .vcmpeq _ a b _ m | .vcmpne _ a b _ m | .vcmplt _ a b _ m | .vcmple _ a b _ m => (a, b, 0, m)
  | .vmov _ d a m => (a, 0, d, m)
  | .vsel _ d a b m => (a, b, d, some m)
  | .vperm _ d a b m => (a, b, d, m)
  | .vbcast _ d _ m => (0, 0, d, m)
  | .vins _ d _ _ => (0, 0, d, none)
  | .vext _ _ a _ => (a, 0, 0, none)
  | .vcvt _ _ _ d a _ => (a, 0, d, none)
  | .vredadd _ a _ m | .vredmin _ a _ m | .vredmax _ a _ m | .vamax _ a _ m => (a, 0, 0, m)
  | .vscc _ _ d a _ | .vquant _ _ d a _ | .vfacm _ d a _ _ => (a, 0, d, none)
  | _ => (0, 0, 0, none)

/-- A vector job starts: it takes its vector and mask operands (R353, R354). -/
def startVector (c : Context) (j : Job) : Job :=
  let (a, b, d, m) := vecRegs j.instr
  { j with
    started := true
    va := vreg c a.toNat
    vb := vreg c b.toNat
    vd := vreg c d.toNat
    mask := match m with | some r => vget c.m r.toNat 0 | none => 0 }

/-- ILLEGAL SRDEST, SHAPE LANE, XWORD and QPARAM: the checks of a vector command at issue (R360, R361, R364 to R366). -/
def vecCheck (j : Job) : Option Flt :=
  let x := j.x.toNat
  match j.instr with
  | .vins l _ _ _ | .vext l _ _ _ => failIf (lanes (laneWidth l) ≤ j.b.toNat) (flt 3 7)
  | .vcvt _ d mode _ _ _ => failIf (mode = 2 && !(d = 2 || d = 3 || d = 4)) (flt 1 33)
  | .vscc _ _ _ _ _ => failIf (bits x 34 30 != 0) (flt 3 6)
  | .vquant mode q8 _ _ _ =>
    failIf (mode = 2) (flt 1 33)
    <|> failIf (bits x 35 29 != 0 || (q8 && 3 < bits x 32 3)) (flt 3 6)
    <|> failIf (bits x 24 8 != 0 || (!q8 && 15 < bits x 16 8)) (flt 3 8)
  | .vfacm mode _ _ _ _ => failIf (mode = 2) (flt 1 33) <|> failIf (bits x 32 32 != 0) (flt 3 6)
  | _ => none

/-- The result of a started vector job (R357 to R366), under the generator state `g`. -/
def vecResult (j : Job) (g : BitVec 32) : VecRes :=
  match j.instr with
  | .vaddFloat t d _ _ rz m => floatLanes j t d rz m g (fun a b _ => fpAdd a b)
  | .vsubFloat t d _ _ rz m => floatLanes j t d rz m g (fun a b _ => fpSub a b)
  | .vmulFloat t d _ _ rz m => floatLanes j t d rz m g (fun a b _ => fpMul a b)
  | .vfma t d _ _ rz m => floatLanes j t d rz m g (fun a b c => fpMulAdd a b c)
  | .vfnma t d _ _ rz m => floatLanes j t d rz m g (fun a b c => fpMulSub a b c)
  | .vminFloat t d _ _ m => floatLanes j t d false m g (fun a b _ => (fpMin a b, 0))
  | .vmaxFloat t d _ _ m => floatLanes j t d false m g (fun a b _ => (fpMaxOf a b, 0))
  | .vabs t d _ m => floatLanes j t d false m g (fun a _ _ => (a.abs, 0))
  | .vneg t d _ m => floatLanes j t d false m g (fun a _ _ => (a.neg, 0))
  | .vdiv t d _ _ rz m => floatLanes j t d rz m g (fun a b _ => fpDiv a b)
  | .vsqrt t d _ rz m => floatLanes j t d rz m g (fun a _ _ => fpSqrt a)
  | .vaddInt t d _ _ m => intLanes j t d false m g (fun a b _ => a + b)
  | .vsubInt t d _ _ m => intLanes j t d false m g (fun a b _ => a - b)
  | .vmulInt t d _ _ m => intLanes j t d false m g (fun a b _ => a * b)
  | .vmulh t d _ _ n m => intLanes j t d n m g (fun a b w => a * b / (2 ^ w : Nat))
  | .vminInt t d _ _ n m => intLanes j t d n m g (fun a b _ => min a b)
  | .vmaxInt t d _ _ n m => intLanes j t d n m g (fun a b _ => max a b)
  | .vand t d _ _ m => bitLanes j t d m g (fun a b _ => a &&& b)
  | .vor t d _ _ m => bitLanes j t d m g (fun a b _ => a ||| b)
  | .vxor t d _ _ m => bitLanes j t d m g (fun a b _ => a ^^^ b)
  | .vsll t d _ _ m => bitLanes j t d m g (fun a b w => a * 2 ^ (b % w) % 2 ^ w)
  | .vsrl t d _ _ m => bitLanes j t d m g (fun a b w => a / 2 ^ (b % w))
  | .vsra t d _ _ m => bitLanes j t d m g (fun a b w => wrap (sext a w / (2 ^ (b % w) : Nat)) w)
  | .vadds t d _ _ n m => intLanes j t d n m g (fun a b w => satLane n w (a + b))
  | .vsubs t d _ _ n m => intLanes j t d n m g (fun a b w => satLane n w (a - b))
  | .vcmpeq d _ _ fmt m => compareLanes j 0 d fmt m g
  | .vcmpne d _ _ fmt m => compareLanes j 1 d fmt m g
  | .vcmplt d _ _ fmt m => compareLanes j 2 d fmt m g
  | .vcmple d _ _ fmt m => compareLanes j 3 d fmt m g
  | .vmov l d _ m => eachLane d (laneWidth l) (activeLane m j.mask) (fun i => (lane j.va (laneWidth l) i, 0)) g
  | .vsel l d _ _ _ => eachLane d (laneWidth l) (fun _ => true)
      (fun i => (lane (if j.mask.getLsbD i then j.va else j.vb) (laneWidth l) i, 0)) g
  | .vperm l d _ _ m => eachLane d (laneWidth l) (activeLane m j.mask)
      (fun i => (lane j.va (laneWidth l) (lane j.vb (laneWidth l) i % lanes (laneWidth l)), 0)) g
  | .vbcast l d _ m => eachLane d (laneWidth l) (activeLane m j.mask) (fun _ => (j.a.toNat % 2 ^ laneWidth l, 0)) g
  | .vins l d _ _ => eachLane d (laneWidth l) (fun i => i = j.b.toNat) (fun _ => (j.a.toNat % 2 ^ laneWidth l, 0)) g
  | .vext l rd _ _ => { scalar := some (rd, b64 (lane j.va (laneWidth l) j.b.toNat)), rng := g }
  | .vcvt s d mode vd _ p => convertLanes j s.toNat d.toNat mode.toNat vd p.toNat g
  | .vredadd rd _ fmt m => reduceLanes j 0 rd fmt m g
  | .vredmin rd _ fmt m => reduceLanes j 1 rd fmt m g
  | .vredmax rd _ fmt m => reduceLanes j 2 rd fmt m g
  | .vamax rd _ fmt m => reduceLanes j 3 rd fmt m g
  | .vscc mode e5 d _ _ => sccLanes j mode.toNat e5 d g
  | .vquant mode q8 d _ _ => quantLanes j mode.toNat q8 d g
  | .vfacm mode d _ _ _ => eachLane d 32 (fun _ => true)
      (fun i => facmLane (if mode = 1 then .rtz else .rne) (bits j.b.toNat 0 32) (bits j.x.toNat 0 32) (lane j.va 32 i)) g
  | _ => { rng := g }

/-- A vector job ends (R355): flags, then the destination, whose register is then produced. A fired job marks nothing. -/
def endVector (s : State) (core : Nat) (j : Job) : State :=
  let r := vecResult j (s.core core).rngv
  let u := uses j.instr
  let own := j.fired.isNone
  (s.modCore core (fun c => { c with rngv := r.rng })).modCtx core j.ctx (fun c =>
    let c := { c with
      fpflags := c.fpflags ||| r.flags
      busyS := if own then c.busyS &&& ~~~u.ws else c.busyS
      busyV := if own then c.busyV &&& ~~~u.wv else c.busyV
      busyM := if own then c.busyM &&& ~~~u.wm else c.busyM }
    let c := match r.vec with
      | some (d, v, k) => { c with v := vset c.v d.toNat (vreg c d.toNat &&& ~~~k ||| v) }
      | none => c
    let c := match r.scalar with | some (d, v) => c.setGpr d.toNat v | none => c
    match r.msk with | some (d, v) => { c with m := vset c.m d.toNat v } | none => c)

/-- The destinations of an instruction are not produced until its job writes them (R353). -/
def Context.marked (c : Context) (i : Instr) : Context :=
  { c with
    busyS := c.busyS ||| (uses i).ws
    busyV := c.busyV ||| (uses i).wv
    busyM := c.busyM ||| (uses i).wm }

/-- A vector command of the issuing context (R353): it issues while the queue has a free entry (R161); checks, capture, its destination
marked, the queue. -/
def vectorCmd (s : State) (i : Instr) : Result :=
  let j := captureOps s.here (newJob s i)
  if s.me.queueFull .vector then sleepIn s .stall
  else match vecCheck j with
  | some f => raise s f
  | none => enqueue (s.modHere (fun c => c.marked i)) .vector j 4

/-! ### Meanings -/

def execVaddFloat (t : FLane) (vd va vb : Reg) (rz : Bool) (m : Option (BitVec 3)) (s : State) : Result := vectorCmd s (.vaddFloat t vd va vb rz m)
def execVsubFloat (t : FLane) (vd va vb : Reg) (rz : Bool) (m : Option (BitVec 3)) (s : State) : Result := vectorCmd s (.vsubFloat t vd va vb rz m)
def execVmulFloat (t : FLane) (vd va vb : Reg) (rz : Bool) (m : Option (BitVec 3)) (s : State) : Result := vectorCmd s (.vmulFloat t vd va vb rz m)
def execVfma (t : FLane) (vd va vb : Reg) (rz : Bool) (m : Option (BitVec 3)) (s : State) : Result := vectorCmd s (.vfma t vd va vb rz m)
def execVfnma (t : FLane) (vd va vb : Reg) (rz : Bool) (m : Option (BitVec 3)) (s : State) : Result := vectorCmd s (.vfnma t vd va vb rz m)
def execVminFloat (t : FLane) (vd va vb : Reg) (m : Option (BitVec 3)) (s : State) : Result := vectorCmd s (.vminFloat t vd va vb m)
def execVmaxFloat (t : FLane) (vd va vb : Reg) (m : Option (BitVec 3)) (s : State) : Result := vectorCmd s (.vmaxFloat t vd va vb m)
def execVabs (t : FLane) (vd va : Reg) (m : Option (BitVec 3)) (s : State) : Result := vectorCmd s (.vabs t vd va m)
def execVneg (t : FLane) (vd va : Reg) (m : Option (BitVec 3)) (s : State) : Result := vectorCmd s (.vneg t vd va m)
def execVdiv (t : FLane) (vd va vb : Reg) (rz : Bool) (m : Option (BitVec 3)) (s : State) : Result := vectorCmd s (.vdiv t vd va vb rz m)
def execVsqrt (t : FLane) (vd va : Reg) (rz : Bool) (m : Option (BitVec 3)) (s : State) : Result := vectorCmd s (.vsqrt t vd va rz m)
def execVaddInt (t : ILane) (vd va vb : Reg) (m : Option (BitVec 3)) (s : State) : Result := vectorCmd s (.vaddInt t vd va vb m)
def execVsubInt (t : ILane) (vd va vb : Reg) (m : Option (BitVec 3)) (s : State) : Result := vectorCmd s (.vsubInt t vd va vb m)
def execVmulInt (t : ILane) (vd va vb : Reg) (m : Option (BitVec 3)) (s : State) : Result := vectorCmd s (.vmulInt t vd va vb m)
def execVmulh (t : ILane) (vd va vb : Reg) (n : Bool) (m : Option (BitVec 3)) (s : State) : Result := vectorCmd s (.vmulh t vd va vb n m)
def execVminInt (t : ILane) (vd va vb : Reg) (n : Bool) (m : Option (BitVec 3)) (s : State) : Result := vectorCmd s (.vminInt t vd va vb n m)
def execVmaxInt (t : ILane) (vd va vb : Reg) (n : Bool) (m : Option (BitVec 3)) (s : State) : Result := vectorCmd s (.vmaxInt t vd va vb n m)
def execVand (t : ILane) (vd va vb : Reg) (m : Option (BitVec 3)) (s : State) : Result := vectorCmd s (.vand t vd va vb m)
def execVor (t : ILane) (vd va vb : Reg) (m : Option (BitVec 3)) (s : State) : Result := vectorCmd s (.vor t vd va vb m)
def execVxor (t : ILane) (vd va vb : Reg) (m : Option (BitVec 3)) (s : State) : Result := vectorCmd s (.vxor t vd va vb m)
def execVsll (t : ILane) (vd va vb : Reg) (m : Option (BitVec 3)) (s : State) : Result := vectorCmd s (.vsll t vd va vb m)
def execVsrl (t : ILane) (vd va vb : Reg) (m : Option (BitVec 3)) (s : State) : Result := vectorCmd s (.vsrl t vd va vb m)
def execVsra (t : ILane) (vd va vb : Reg) (m : Option (BitVec 3)) (s : State) : Result := vectorCmd s (.vsra t vd va vb m)
def execVadds (t : ILane) (vd va vb : Reg) (n : Bool) (m : Option (BitVec 3)) (s : State) : Result := vectorCmd s (.vadds t vd va vb n m)
def execVsubs (t : ILane) (vd va vb : Reg) (n : Bool) (m : Option (BitVec 3)) (s : State) : Result := vectorCmd s (.vsubs t vd va vb n m)
def execVcmpeq (md : BitVec 3) (va vb : Reg) (fmt : BitVec 4) (m : Option (BitVec 3)) (s : State) : Result := vectorCmd s (.vcmpeq md va vb fmt m)
def execVcmpne (md : BitVec 3) (va vb : Reg) (fmt : BitVec 4) (m : Option (BitVec 3)) (s : State) : Result := vectorCmd s (.vcmpne md va vb fmt m)
def execVcmplt (md : BitVec 3) (va vb : Reg) (fmt : BitVec 4) (m : Option (BitVec 3)) (s : State) : Result := vectorCmd s (.vcmplt md va vb fmt m)
def execVcmple (md : BitVec 3) (va vb : Reg) (fmt : BitVec 4) (m : Option (BitVec 3)) (s : State) : Result := vectorCmd s (.vcmple md va vb fmt m)
def execVmov (lane : BitVec 2) (vd va : Reg) (m : Option (BitVec 3)) (s : State) : Result := vectorCmd s (.vmov lane vd va m)
def execVsel (lane : BitVec 2) (vd va vb : Reg) (m : BitVec 3) (s : State) : Result := vectorCmd s (.vsel lane vd va vb m)
def execVperm (lane : BitVec 2) (vd va vb : Reg) (m : Option (BitVec 3)) (s : State) : Result := vectorCmd s (.vperm lane vd va vb m)
def execVbcast (lane : BitVec 2) (vd ra : Reg) (m : Option (BitVec 3)) (s : State) : Result := vectorCmd s (.vbcast lane vd ra m)
def execVins (lane : BitVec 2) (vd ra rb : Reg) (s : State) : Result := vectorCmd s (.vins lane vd ra rb)
def execVext (lane : BitVec 2) (rd va rb : Reg) (s : State) : Result := vectorCmd s (.vext lane rd va rb)
def execVcvt (src dst : BitVec 4) (mode : BitVec 2) (vd va : Reg) (part : BitVec 5) (s : State) : Result := vectorCmd s (.vcvt src dst mode vd va part)
def execVredadd (rd va : Reg) (fmt : BitVec 4) (m : Option (BitVec 3)) (s : State) : Result := vectorCmd s (.vredadd rd va fmt m)
def execVredmin (rd va : Reg) (fmt : BitVec 4) (m : Option (BitVec 3)) (s : State) : Result := vectorCmd s (.vredmin rd va fmt m)
def execVredmax (rd va : Reg) (fmt : BitVec 4) (m : Option (BitVec 3)) (s : State) : Result := vectorCmd s (.vredmax rd va fmt m)
def execVamax (rd va : Reg) (fmt : BitVec 4) (m : Option (BitVec 3)) (s : State) : Result := vectorCmd s (.vamax rd va fmt m)
def execVscc (mode : BitVec 2) (e5 : Bool) (vd va : Reg) (x : BitVec 3) (s : State) : Result := vectorCmd s (.vscc mode e5 vd va x)
def execVquant (mode : BitVec 2) (q8 : Bool) (vd va : Reg) (x : BitVec 3) (s : State) : Result := vectorCmd s (.vquant mode q8 vd va x)
def execVfacm (mode : BitVec 2) (vd va rb : Reg) (x : BitVec 3) (s : State) : Result := vectorCmd s (.vfacm mode vd va rb x)

end Sys2Proof.Machine
end

