-- ==== Sys2Proof/Machine/Matrix.lean ====
section
/-! DEFINITION. The matrix engine (spec/18_isa_matrix.md): operand layout, issue checks (R380), the steps of a job with the
accumulators and their loss-scale tags (R243 to R248), and the meanings of majors 0x2c to 0x30. -/
namespace Sys2Proof.Machine

/-! ### Tiles (R187, R373) -/

/-- The LM offset of word `k` of row `r` of the tile at `b`. -/
def tileWord (b r k : Nat) : Nat := b + 128 * r + 4 * ((r + k) % 16)

def lmWord (lm : Bytes) (off : Nat) : Nat := leNat (Memory.reads lm off 4)

/-- The word and the element in it that hold element (r, c) of a tile with `e` elements a word. -/
def tilePlace (b : Nat) (t : Bool) (e r c : Nat) : Nat × Nat :=
  (if t then tileWord b (c / e) r else tileWord b r (c / e), c % e)

/-- An element of a tile, by the words that `rd` gives. -/
def tileEl (rd : Nat → Nat) (b : Nat) (t : Bool) (e r c : Nat) : Nat :=
  let (w, q) := tilePlace b t e r c
  bits (rd w) (32 / e * q) (32 / e)

/-- One of the reads that a job makes of a word of LM: each use of an element has a read of its own (R384). -/
def readKey (use off : Nat) : Nat := off + 2 ^ 19 * use

/-- A word of LM as a job reads it for one use: as it stood when the job read it (R381). -/
def Job.lmWord (j : Job) (lm : Bytes) (use off : Nat) : Nat :=
  match j.words.find? (fun w => w.1 = readKey use off) with | some w => w.2 | none => Machine.lmWord lm off

/-! ### Product classes (R372, R374, R377) -/

/-- Elements a word of A and B, Kmax, and K per array step. -/
structure MmClass where
  ea : Nat
  eb : Nat
  kmax : Nat
  kstep : Nat
  deriving DecidableEq, Repr

def mmClass (cls : Nat) : MmClass :=
  match cls with
  | 1 => { ea := 2, eb := 2, kmax := 32, kstep := 1 }
  | 3 => { ea := 8, eb := 8, kmax := 128, kstep := 4 }
  | _ => { ea := 4, eb := 4, kmax := 64, kstep := 2 }

def mmQClass (a8 b8 : Bool) : MmClass :=
  if !a8 && !b8 then { ea := 8, eb := 8, kmax := 128, kstep := 4 }
  else { ea := if a8 then 4 else 8, eb := if b8 then 4 else 8, kmax := 64, kstep := 2 }

/-- Format codes of A and B for `mm` and `mmg` (R229, R375). -/
def mmFormat (cls : Nat) (v : Bool) : Nat :=
  match cls with
  | 0 => if v then 4 else 3
  | 1 => if v then 1 else 2
  | 2 => if v then 10 else 6
  | _ => 5

def productClass : Instr → Option MmClass
  | .mm cls _ _ _ _ _ _ | .mmg cls _ _ _ _ _ _ => some (mmClass cls.toNat)
  | .mmQ _ a8 b8 _ _ _ _ => some (mmQClass a8 b8)
  | _ => none

/-- The K window: first element and count (R374). -/
def window (i : Instr) (x : DWord) : Nat × Nat :=
  match i with
  | .mm cls _ _ _ _ _ none => (0, (mmClass cls.toNat).kmax)
  | _ => (bits x.toNat 0 8, bits x.toNat 8 8)

/-- The vector register that holds `mmg`'s indices, and the LM offset of `mm.q`'s parameters (R374). -/
def shapeIv (x : DWord) : Nat := bits x.toNat 16 5
def shapeQp (x : DWord) : Nat := bits x.toNat 32 15 * 16

/-! ### Issue checks (R380) -/

/-- Step 1. -/
def descCheck (j : Job) : Option Flt :=
  match j.instr with
  | .mm _ _ _ _ _ _ _ | .mmQ _ _ _ _ _ _ _ => tileCheck j.a <|> tileCheck j.b
  | .mmg _ _ _ _ _ _ _ =>
    failIf (bits j.a.toNat 19 45 != 0) (flt 3 3) <|> failIf (descBase j.a % 64 != 0) (flt 3 1) <|> tileCheck j.b
  | .acld _ _ _ | .acst _ _ _ _ => tileCheck j.a
  | _ => none

/-- Step 2. -/
def xwordCheck (j : Job) : Option Flt :=
  let x := j.x.toNat
  let reserved := bits x 47 17 != 0 || bits x 21 11 != 0
  match j.instr with
  | .mm _ _ _ _ _ _ _ => failIf (reserved || bits x 16 5 != 0 || bits x 32 15 != 0) (flt 3 6)
  | .mmg _ _ _ _ _ _ _ => failIf (reserved || bits x 32 15 != 0) (flt 3 6)
  | .mmQ _ _ _ _ _ _ _ => failIf (reserved || bits x 16 5 != 0) (flt 3 6)
  | .scaccXreg h _ _ _ _ _ => failIf (h && bits x 32 32 != 0) (flt 3 6)
  | _ => none

/-- Step 3. -/
def kwinCheck (j : Job) : Option Flt :=
  match productClass j.instr with
  | none => none
  | some c =>
    let (k0, kn) := window j.instr j.x
    failIf (k0 % 8 != 0 || kn % 8 != 0 || kn < 8 || c.kmax < k0 + kn) (flt 3 9)

/-- Step 4. -/
def gatherCheck (j : Job) : Option Flt :=
  match j.instr with
  | .mmg _ _ _ _ _ _ _ => failIf ((gatherRows (descBase j.a) j.va).any (fun r => 393215 < r.1 + 63)) (flt 3 2)
  | _ => none

/-- Step 5, first part: the parameter block, whose LM offset `off` holds, lies in LM. -/
def paramRange (j : Job) : Option Flt :=
  match j.instr with
  | .mmQ _ _ _ _ _ _ _ => failIf (393215 < j.off + 127) (flt 3 2)
  | _ => none

/-- A parameter word of R241 is refused. -/
def badParam (q8 : Bool) (w : BitVec 32) : Bool := bits w.toNat 24 8 != 0 || (!q8 && bits w.toNat 20 4 != 0)

/-- Step 5, second part: the parameter words and the group of the window. -/
def paramCheck (j : Job) : Option Flt :=
  match j.instr with
  | .mmQ group a8 b8 _ _ _ _ =>
    let (k0, kn) := window j.instr j.x
    let g := 32 * 2 ^ group.toNat
    failIf ((j.params.take 16).any (badParam a8) || (j.params.drop 16).any (badParam b8)) (flt 3 8)
    <|> failIf (k0 / g != (k0 + kn - 1) / g) (flt 3 10)
  | _ => none

/-- What a matrix command captures besides its named registers: the index or scale vectors, the parameter words, the
loss scale of its place in command order (R248, R371), and its first k (R382). -/
def captureMatrix (core : Core) (c : Context) (j : Job) : Job :=
  let j := { j with epoch := core.lsepoch, exp := core.lscale, next := if (productClass j.instr).isSome then (window j.instr j.x).1 else 0 }
  match j.instr with
  | .mmg _ _ _ _ _ _ _ => { j with va := vreg c (shapeIv j.x) }
  | .mmQ _ _ _ _ _ _ _ => { j with params := (List.range 32).map (fun k => BitVec.ofNat 32 (lmWord core.lm (j.off + 4 * k))) }
  | .scaccVector _ _ _ _ _ b => { j with va := vreg c b.toNat, vb := vreg c (b.toNat + 1) }
  | _ => j

/-- The checks before anything but the named registers is read, and those after. -/
def matCheckEarly (j : Job) : Option Flt := descCheck j <|> xwordCheck j <|> kwinCheck j
def matCheckLate (j : Job) : Option Flt := gatherCheck j <|> paramRange j <|> paramCheck j

/-! ### The loss-scale tag (R248) -/

def accAt (c : Core) (a : Nat) : Accum := vget c.acc a Accum.reset

/-- `Rescale`: bring an accumulator to a job's epoch; `f` says that its elements are F36. -/
def rescale (a : Accum) (epoch : BitVec 32) (exp : BitVec 8) (f : Bool) : Accum × FpFlags :=
  if a.epoch = epoch && a.exp = exp then (a, 0)
  else
    let d := exp.toInt - a.exp.toInt
    let r := a.el.map (fun v => if f then rescaleF36 d v.toNat else rescaleI36 d v.toNat)
    ({ el := r.map (fun x => BitVec.ofNat 36 x.1), epoch := epoch, exp := exp }, r.foldl (fun g x => g ||| x.2) 0)

/-! ### Products (R244, R373, R375 to R377) -/

/-- The word that holds A(i, k) of a gathered A (R376). -/
def gatherWord (j : Job) (e i k : Nat) : Nat := descBase j.a + 64 * bits j.va.toNat (32 * i) 32 + 4 * (k / e)

/-- The uses of the elements of A and of B in the result's element (i, n). -/
def useA (i n : Nat) : Nat := 16 * i + n
def useB (i n : Nat) : Nat := 256 + 16 * i + n

/-- A(i, k) and B(k, n) as patterns, each as the product of the result's element (i, n) reads it. -/
def elA (lm : Bytes) (j : Job) (e i n k : Nat) : Nat :=
  match j.instr with
  | .mmg _ _ _ _ _ _ _ => bits (j.lmWord lm (useA i n) (gatherWord j e i k)) (32 / e * (k % e)) (32 / e)
  | _ => tileEl (j.lmWord lm (useA i n)) (descBase j.a) (descT j.a) e i k
def elB (lm : Bytes) (j : Job) (e i n k : Nat) : Nat := tileEl (j.lmWord lm (useB i n)) (descBase j.b) (descT j.b) e n k

/-- One element of a float product: one rounding a term, in ascending k. -/
def dotFloat (acc : Nat) (terms : List (Fp × Fp)) : Nat × FpFlags :=
  terms.foldl (fun r t =>
    let (p, g) := fpMul t.1 t.2
    let (v, h) := round36 (fpAdd (dec36 r.1) p)
    (v, r.2 ||| g ||| h)) (acc, 0)

def dotInt (terms : List (Int × Int)) : Int := terms.foldl (fun n t => n + t.1 * t.2) 0

/-- The 256 elements of a result in row-major order. -/
def cells : List (Nat × Nat) := (List.range 16).flatMap (fun i => (List.range 16).map (fun c => (i, c)))

def accNat (a : Accum) (i c : Nat) : Nat := (a.el.getD (16 * i + c) 0).toNat

/-- The K elements that a product has still to add. -/
def leftKs (j : Job) : List Nat :=
  let (k0, kn) := window j.instr j.x
  (List.range (k0 + kn - max k0 j.next)).map (· + max k0 j.next)

/-- The K elements of the next unit of a product: 16 array steps (R382). -/
def unitKs (j : Job) (c : MmClass) : List Nat := (leftKs j).take (16 * c.kstep)

/-- The reads of words of LM that a product has still to make: for each element of the result a read of its own (R384). -/
def productWords (j : Job) (c : MmClass) : List Nat :=
  let word := fun (d : DWord) (e i k : Nat) => (tilePlace (descBase d) (descT d) e i k).1
  cells.flatMap (fun x => ((leftKs j).flatMap (fun k =>
    [readKey (useA x.1 x.2) (match j.instr with | .mmg _ _ _ _ _ _ _ => gatherWord j c.ea x.1 k | _ => word j.a c.ea x.1 k),
      readKey (useB x.1 x.2) (word j.b c.eb x.2 k)])).eraseDups)

/-- After a unit: the next k, or the end of the window. -/
def unitDone (j : Job) (ks : List Nat) : Bool :=
  let (k0, kn) := window j.instr j.x
  match ks.getLast? with | some k => k0 + kn ≤ k + 1 | none => true

/-- The integer of an element of an integer product: its signed or unsigned value, or q − ZP (R242, R375). -/
def intA (j : Job) (i v : Nat) : Int :=
  match j.instr with
  | .mm cls a1 _ _ _ _ _ | .mmg cls a1 _ _ _ _ _ => fmtInt (mmFormat cls.toNat a1) v
  | _ => (v : Int) - (bits (j.params.getD i 0).toNat 16 8 : Nat)
def intB (j : Job) (c v : Nat) : Int :=
  match j.instr with
  | .mm cls _ b1 _ _ _ _ | .mmg cls _ b1 _ _ _ _ => fmtInt (mmFormat cls.toNat b1) v
  | _ => (v : Int) - (bits (j.params.getD (16 + c) 0).toNat 16 8 : Nat)

/-- One unit of a float product on an accumulator. -/
def floatUnit (lm : Bytes) (j : Job) (c : MmClass) (fa fb : FFmt) (a : Accum) (ks : List Nat) : Accum × FpFlags :=
  let term := fun (x : Nat × Nat) (k : Nat) => (fpDecode fa (elA lm j c.ea x.1 x.2 k), fpDecode fb (elB lm j c.eb x.1 x.2 k))
  let r := cells.map (fun x => dotFloat (accNat a x.1 x.2) (ks.map (term x)))
  ({ a with el := r.map (fun x => BitVec.ofNat 36 x.1) }, r.foldl (fun g x => g ||| x.2) 0)

/-- The exact sum of an integer product so far: a sum that 36 bits do not hold stands beside its element, and goes on from the element
where that was written while the job stood still (R382). -/
def partialSum (j : Job) (a : Accum) (e : Nat) : Int :=
  let v := (a.el.getD e 0).toNat
  match j.partial36[e]? with | some p => if wrap p 36 = v then p else i36 v | none => i36 v

/-- One unit of an integer product: the exact sums so far, which the accumulator holds, clamped only at the end (R382). -/
def intUnit (lm : Bytes) (j : Job) (c : MmClass) (a : Accum) (ks : List Nat) (last : Bool) : Accum × List Int × FpFlags :=
  let term := fun (x : Nat × Nat) (k : Nat) => (intA j x.1 (elA lm j c.ea x.1 x.2 k), intB j x.2 (elB lm j c.eb x.1 x.2 k))
  let sums := cells.map (fun x => partialSum j a (16 * x.1 + x.2) + dotInt (ks.map (term x)))
  let r := sums.map satI36
  ({ a with el := sums.map (fun v => BitVec.ofNat 36 (wrap v 36)) }, sums, 0) |> fun u =>
    if last then ({ a with el := r.map (fun x => BitVec.ofNat 36 x.1) }, [], r.foldl (fun g x => g ||| x.2) 0) else u

/-- What one unit of a matrix job does to the core, with the job after it and whether it has ended. -/
structure MatStep where
  core : Core
  job : Job
  ended : Bool
  deriving DecidableEq, Repr

def setAcc (c : Core) (k : Nat) (a : Accum) : Core := { c with acc := vset c.acc k a }

/-- A unit of `mm`, `mmg` or `mm.q` on accumulator `k`; `fl` gives the formats of a float class. -/
def productUnit (core : Core) (j : Job) (k : Nat) (fl : Option (FFmt × FFmt)) : MatStep :=
  let c := (productClass j.instr).getD (mmClass 0)
  let (a, g) := rescale (accAt core k) j.epoch j.exp fl.isSome
  let ks := unitKs j c
  let last := unitDone j ks
  let nxt := match ks.getLast? with | some n => n + 1 | none => j.next
  match fl with
  | some (fa, fb) =>
    let (a, h) := floatUnit core.lm j c fa fb a ks
    { core := setAcc core k a, job := { j with next := nxt, flags := j.flags ||| g ||| h }, ended := last }
  | none =>
    let (a, p, h) := intUnit core.lm j c a ks last
    { core := setAcc core k a, job := { j with next := nxt, flags := j.flags ||| g ||| h, partial36 := p }, ended := last }

def floatClass (cls : Nat) (a1 b1 : Bool) : Option (FFmt × FFmt) :=
  match fmtFloat (mmFormat cls a1), fmtFloat (mmFormat cls b1) with
  | some x, some y => if cls ≤ 1 then some (x, y) else none
  | _, _ => none

/-! ### Accumulator zero, load and store (R378) -/

def loadElem (f : Nat) (v : Nat) : Nat :=
  match fmtFloat f with
  | some g => (fpRound f36 .rne (fpDecode g v)).1
  | none => wrap (fmtInt f v) 36

def storeElem (f : Nat) (rz : Bool) (v : Nat) : Nat × FpFlags :=
  match fmtFloat f with
  | some g => fpRound g (rzMode rz) (dec36 v)
  | none =>
    let x := i36 v
    (wrap (sat x (fmtLo f) (fmtHi f)) (fmtWidth f), flagIf (x < fmtLo f || fmtHi f < x) flagSAT)

def acldUnit (core : Core) (j : Job) (f k : Nat) : MatStep :=
  let e := 32 / fmtWidth f
  let el := cells.map (fun x => BitVec.ofNat 36 (loadElem f (tileEl (j.lmWord core.lm 0) (descBase j.a) (descT j.a) e x.1 x.2)))
  { core := setAcc core k { el := el, epoch := j.epoch, exp := j.exp }, job := j, ended := true }

/-- One element of `acst` into LM; its bytes meet those of no other element. -/
def acstPut (lm : Bytes) (b : Nat) (t : Bool) (f : Nat) (x : Nat × Nat) (v : Nat) : Bytes :=
  let w := fmtWidth f
  let (o, q) := tilePlace b t (32 / w) x.1 x.2
  Memory.writes lm (o + w / 8 * q) (natBytes (w / 8) v)

/-- The elements of `acst` into LM in row-major order, but for those that it has written already. -/
def acstWrite (lm : Bytes) (j : Job) (f : Nat) : List (Nat × Nat) → List Nat → Bytes
  | x :: xs, v :: vs =>
    acstWrite (if j.words.any (fun w => w.1 = 16 * x.1 + x.2) then lm else acstPut lm (descBase j.a) (descT j.a) f x v) j f xs vs
  | _, _ => lm

/-- What `acst` stores of each element, with its flags, and the accumulator after its rescale. -/
def acstValues (core : Core) (j : Job) (f : Nat) (rz : Bool) (k : Nat) : List (Nat × FpFlags) × Accum × FpFlags :=
  let (a, g) := rescale (accAt core k) j.epoch j.exp (fmtFloat f).isSome
  (a.el.map (fun v => storeElem f rz v.toNat), a, g)

def acstUnit (core : Core) (j : Job) (f : Nat) (rz : Bool) (k : Nat) : MatStep :=
  let (r, a, g) := acstValues core j f rz k
  let core := setAcc core k a
  { core := { core with lm := acstWrite core.lm j f cells (r.map Prod.fst) }
    job := { j with flags := r.foldl (fun h x => h ||| x.2) (j.flags ||| g) }
    ended := true }

/-! ### Scale and accumulate (R245, R379) -/

/-- One element: acc + partial × Round32(sa × sb), both roundings under the mode; the FP32 result as F36. -/
def scaccElem (mode : RMode) (acc part sa sb : Fp) : Nat × FpFlags :=
  let (s, g) := fpFinish fp32 mode (fpMul sa sb)
  let (v, h) := fpFinish fp32 mode (fpMulAdd part (dec32 s) acc)
  (v * 16, g ||| h)

/-- Scale factors sa_i and sb_j. -/
def scaleA (j : Job) (h : Bool) (i : Nat) : Fp :=
  match j.instr with
  | .scaccXreg _ _ _ _ _ _ => if h then fpDecode fp16 (bits j.x.toNat 0 16) else dec32 (bits j.x.toNat 0 32)
  | _ => if h then fpDecode fp16 (lane j.va 16 i) else dec32 (lane j.va 32 i)
def scaleB (j : Job) (h : Bool) (n : Nat) : Fp :=
  match j.instr with
  | .scaccXreg _ _ _ _ _ _ => if h then fpDecode fp16 (bits j.x.toNat 16 16) else dec32 (bits j.x.toNat 32 32)
  | _ => if h then fpDecode fp16 (lane j.va 16 (16 + n)) else dec32 (lane j.vb 32 n)

def scaccUnit (core : Core) (j : Job) (h rz : Bool) (ad as : Nat) (i : Bool) : MatStep :=
  let (p, g1) := rescale (accAt core as) j.epoch j.exp (!i)
  let core := setAcc core as p
  let (a, g2) := rescale (accAt core ad) j.epoch j.exp true
  let part := fun (n : Nat) => if i then fpOfInt (i36 n) else dec36 n
  let r := cells.map (fun x => scaccElem (rzMode rz) (dec36 (accNat a x.1 x.2)) (part (accNat p x.1 x.2))
    (scaleA j h x.1) (scaleB j h x.2))
  { core := setAcc core ad { a with el := r.map (fun x => BitVec.ofNat 36 x.1) }
    job := { j with flags := r.foldl (fun f x => f ||| x.2) (j.flags ||| g1 ||| g2) }
    ended := true }

/-- One unit of a running matrix job that is no promise job (R279, R382). -/
def matUnit (core : Core) (j : Job) : MatStep :=
  match j.instr with
  | .mm cls a1 b1 ad _ _ _ | .mmg cls a1 b1 ad _ _ _ => productUnit core j ad.toNat (floatClass cls.toNat a1 b1)
  | .mmQ _ _ _ ad _ _ _ => productUnit core j ad.toNat none
  | .aczero ad => { core := setAcc core ad.toNat { Accum.reset with epoch := j.epoch, exp := j.exp }, job := j, ended := true }
  | .acld f ad _ => acldUnit core j f.toNat ad.toNat
  | .acst f rz ad _ => acstUnit core j f.toNat rz ad.toNat
  | .scaccVector h rz ad as i _ | .scaccXreg h rz ad as i _ => scaccUnit core j h rz ad.toNat as.toNat i
  | _ => { core := core, job := j, ended := true }

/-- The reads of words of LM that a running job has still to make. -/
def wordsLeft (j : Job) : List Nat :=
  let all := match productClass j.instr, j.instr with
    | some c, _ => productWords j c
    | none, .acld f _ _ =>
      (cells.map (fun (x : Nat × Nat) => (tilePlace (descBase j.a) (descT j.a) (32 / fmtWidth f.toNat) x.1 x.2).1)).eraseDups
    | none, _ => []
  all.filter (fun w => !j.words.any (fun x => x.1 = w))

/-- One access of a running job by itself, its `n`-th (R218, R381): a word of an operand that it reads as it stands now, or an element that an
`acst` writes now. Other cores may store between it and the rest of the unit (R383). -/
def matAccess (core : Core) (j : Job) (n : Nat) : MatStep :=
  let still : MatStep := { core := core, job := j, ended := false }
  match j.instr with
  | .acst f rz ad _ =>
    (match (cells.filter (fun x => !j.words.any (fun w => w.1 = 16 * x.1 + x.2)))[n]? with
     | none => still
     | some x =>
       let v := ((acstValues core j f.toNat rz ad.toNat).1.getD (16 * x.1 + x.2) (0, 0)).1
       { still with
         core := { core with lm := acstPut core.lm (descBase j.a) (descT j.a) f.toNat x v }
         job := { j with words := (16 * x.1 + x.2, v) :: j.words } })
  | _ =>
    (match (wordsLeft j)[n]? with
     | none => still
     | some w => { still with job := { j with words := (w, lmWord core.lm (w % 2 ^ 19)) :: j.words } })

/-! ### Meanings -/

/-- The read of a block of the core's own LM at issue is held back (R212, R381). -/
def lmReadWaits (s : State) (off n : Nat) : Bool :=
  let t : Target := { kind := .rc, place := .lm s.cur.1 off, handoff := false, attr := 0 }
  footHolds s s.cur.1 false t.place n || !mayPerform s s.cur.1 (entry s t (.load (.scalar 0 false)) off n false false 0)

/-- The index vector of `mmg` is not produced (R371). -/
def indexWaits (s : State) (j : Job) : Bool :=
  match j.instr with
  | .mmg _ _ _ _ _ _ _ => s.here.busyV.getLsbD (shapeIv j.x)
  | _ => false

/-- The read of `mm.q`'s parameter block is held back (R371). -/
def matWaits (s : State) (j : Job) : Bool :=
  match j.instr with
  | .mmQ _ _ _ _ _ _ _ => lmReadWaits s j.off 128
  | _ => false

/-- A matrix command of the issuing context (R371, R380); it issues while the queue has a free entry (R161). -/
def matrixCmd (s : State) (i : Instr) : Result :=
  let j := captureOps s.here (newJob s i)
  let j := { j with off := shapeQp j.x }
  if s.me.queueFull .matrix then sleepIn s .stall
  else if indexWaits s j then sleepIn s .drain
  else match matCheckEarly j <|> paramRange j with
  | some f => raise s f
  | none =>
    if matWaits s j then sleepIn s .drain
    else
      let j := captureMatrix s.me s.here j
      match matCheckLate j with
      | some f => raise s f
      | none => enqueue s .matrix j 4

def execMm (cls : BitVec 2) (a1 b1 : Bool) (ad : BitVec 2) (ra rb : Reg) (x : Option (BitVec 3)) (s : State) : Result :=
  matrixCmd s (.mm cls a1 b1 ad ra rb x)
def execMmg (cls : BitVec 2) (a1 b1 : Bool) (ad : BitVec 2) (ra rb : Reg) (x : BitVec 3) (s : State) : Result :=
  matrixCmd s (.mmg cls a1 b1 ad ra rb x)
def execMmQ (group : BitVec 2) (a8 b8 : Bool) (ad : BitVec 2) (ra rb : Reg) (x : BitVec 3) (s : State) : Result :=
  matrixCmd s (.mmQ group a8 b8 ad ra rb x)
def execAczero (ad : BitVec 2) (s : State) : Result := matrixCmd s (.aczero ad)
def execAcld (fmt : BitVec 4) (ad : BitVec 2) (ra : Reg) (s : State) : Result := matrixCmd s (.acld fmt ad ra)
def execAcst (fmt : BitVec 4) (rz : Bool) (ad : BitVec 2) (ra : Reg) (s : State) : Result := matrixCmd s (.acst fmt rz ad ra)
def execScaccVector (h rz : Bool) (ad as : BitVec 2) (i : Bool) (vb : Reg) (s : State) : Result :=
  matrixCmd s (.scaccVector h rz ad as i vb)
def execScaccXreg (h rz : Bool) (ad as : BitVec 2) (i : Bool) (x : BitVec 3) (s : State) : Result :=
  matrixCmd s (.scaccXreg h rz ad as i x)

end Sys2Proof.Machine
end

