-- ==== Sys2Proof/Machine/MemAcc.lean ====
section
/-! DEFINITION. Loads and stores of a context at issue (spec/16_isa_memory.md R332 to R335, R328): their addresses, their checks
and the entries they make. What an entry does when it is performed stands in Order.lean. -/
namespace Sys2Proof.Machine

/-! ### Scalar accesses (R332) -/

def execLd (rd ra : Reg) (off : BitVec 10) (hint : BitVec 2) (w : BitVec 3) (s : State) : Result :=
  loadAt s 4 (addrImm s ra off (widthOf w.toNat)) (widthOf w.toNat) (.scalar rd (signedLoad w.toNat)) false 0 hint
def execSt (rd ra : Reg) (off : BitVec 10) (hint : BitVec 2) (w : BitVec 2) (s : State) : Result :=
  storeAt s 4 (addrImm s ra off (widthOf w.toNat)) (widthOf w.toNat) (s.gprN rd) false 0 hint
def execLdIndexed (rd ra rb : Reg) (acq : Bool) (scope : BitVec 3) (w : BitVec 3) (hint : BitVec 2) (s : State) : Result :=
  loadAt s 4 (addrIdx s ra rb) (widthOf w.toNat) (.scalar rd (signedLoad w.toNat)) acq scope.toNat hint
def execStIndexed (rd ra rb : Reg) (rel : Bool) (scope : BitVec 3) (w : BitVec 2) (hint : BitVec 2) (s : State) : Result :=
  storeAt s 4 (addrIdx s ra rb) (widthOf w.toNat) (s.gprN rd) rel scope.toNat hint

/-- R328: an 8-byte load into an extension register. -/
def execXld (xd : BitVec 3) (ra : Reg) (off : BitVec 14) (s : State) : Result :=
  loadAt s 4 ((s.gprN ra + 8 * off.toNat) % 2 ^ 64) 8 (.xreg xd) false 0 0

/-- R295: `ld.d` and `st.d` with an offset of 0 to 56. -/
def execLdDC (rd ra : BitVec 4) (off : BitVec 3) (s : State) : Result :=
  loadAt s 2 ((s.gprN (ra.setWidth 5) + 8 * off.toNat) % 2 ^ 64) 8 (.scalar (rd.setWidth 5) true) false 0 0
def execStDC (rd ra : BitVec 4) (off : BitVec 3) (s : State) : Result :=
  storeAt s 2 ((s.gprN (ra.setWidth 5) + 8 * off.toNat) % 2 ^ 64) 8 (s.gprN (rd.setWidth 5)) false 0 0

/-! ### Ring-slot accesses (R294, R335) -/

/-- An advance of the context on the handle is on its way: the use waits for it. -/
def handleWaits (s : State) (h : BitVec 4) : Bool := advancePending s s.cur.1 s.cur.2 h.toNat

def execLdRingSlot (rd : Reg) (h : BitVec 4) (k : BitVec 4) (off : BitVec 8) (w : BitVec 2) (s : State) : Result :=
  if handleWaits s h then sleepIn s .drain
  else match addrSlot s h.toNat k.toNat (off.toNat * widthOf w.toNat) (widthOf w.toNat) true with
  | .error f => raise s f
  | .ok a => loadAt s 4 a (widthOf w.toNat) (.scalar rd true) false 0 0

def execStRingSlot (rd : Reg) (h : BitVec 4) (k : BitVec 4) (off : BitVec 8) (w : BitVec 2) (s : State) : Result :=
  if handleWaits s h then sleepIn s .drain
  else match addrSlot s h.toNat k.toNat (off.toNat * widthOf w.toNat) (widthOf w.toNat) false with
  | .error f => raise s f
  | .ok a => storeAt s 4 a (widthOf w.toNat) (s.gprN rd) false 0 0

/-! ### Vector and tile accesses (R333, R334) -/

/-- One access of an instruction that makes several: its address and what it does. -/
structure Piece where
  va : Nat
  op : AccOp
  deriving DecidableEq, Repr

/-- The pieces in order, each of 64 bytes: all are checked before any enters its queue or pool (R333). -/
def checkPieces (s : State) (store : Bool) : List Piece → Except Flt (List (Piece × Target))
  | [] => .ok []
  | p :: r =>
    match checkAcc s s.cur.1 (if store then .store else .load) p.va 64 with
    | .error f => .error f
    | .ok t => (match checkPieces s store r with | .error f => .error f | .ok l => .ok ((p, t) :: l))

def pushPieces (s : State) (hint : BitVec 2) (l : List (Piece × Target)) : State :=
  l.foldl (fun s x =>
    let s := match x.1.op with | .load d => markBusy s d | _ => s
    pushAccess s ((entry s x.2 x.1.op x.1.va 64 false false 0).hinted hint)) s

/-- Issue the accesses of a vector or tile instruction. -/
def issuePieces (s : State) (store : Bool) (hint : BitVec 2) (ps : List Piece) : Result :=
  match checkPieces s store ps with
  | .error f => raise s f
  | .ok l =>
    match firstFlt (ps.map (fun p => stopBefore s s.cur.1 p.va 64 store)) with
    | some f => raise s f
    | none =>
      if l.any (fun x => footHolds s s.cur.1 store x.2.place 64) then sleepIn s .drain
      else retire (pushPieces s hint l) 4

/-- The address of a vector or tile operand: base plus 64 times the offset. -/
def addrVec (s : State) (ra : Reg) (off : BitVec 10) : Nat := addrImm s ra off 64

def storeVec (s : State) (r : Reg) : AccOp := .store (vreg s.here r.toNat).toNat

def execLdv (vd ra : Reg) (off : BitVec 10) (hint : BitVec 2) (s : State) : Result :=
  issuePieces s false hint [{ va := addrVec s ra off, op := .load (.vector vd) }]
def execStv (vd ra : Reg) (off : BitVec 10) (hint : BitVec 2) (s : State) : Result :=
  issuePieces s true hint [{ va := addrVec s ra off, op := storeVec s vd }]
def execLdvPair (vd ra : Reg) (off : BitVec 10) (hint : BitVec 2) (s : State) : Result :=
  issuePieces s false hint [{ va := addrVec s ra off, op := .load (.vector vd) },
    { va := (addrVec s ra off + 64) % 2 ^ 64, op := .load (.vector (vd + 1)) }]
def execStvPair (vd ra : Reg) (off : BitVec 10) (hint : BitVec 2) (s : State) : Result :=
  issuePieces s true hint [{ va := addrVec s ra off, op := storeVec s vd },
    { va := (addrVec s ra off + 64) % 2 ^ 64, op := storeVec s (vd + 1) }]

/-- The checks of a tile access before NOTGANG (R334). -/
def tileLocal (core va : Nat) : Option Flt :=
  match localPlace core va with
  | none => some (flt 3 4 va)
  | some (_, off) =>
    if off % 64 != 0 then some (flt 3 1 va)
    else if 393215 < off + 1983 then some (flt 3 2 va) else none

/-- The word of register d + r or d + k that stands at (r, k) of the tile. -/
def tileReg (s : State) (base : Nat) (t : Bool) (r k : Nat) : Nat :=
  if t then lane (vreg s.here (base + k)) 32 r else lane (vreg s.here (base + r)) 32 k

/-- The 64 bytes of row `r` of a stored tile: word k of the row stands at place (r + k) mod 16 (R187). -/
def tileRowData (s : State) (base : Nat) (t : Bool) (r : Nat) : Nat :=
  (packLanes 32 ((List.range 16).map (fun p => tileReg s base t r ((p + 16 - r) % 16)))).toNat

def tilePieces (a : Nat) (op : Nat → AccOp) : List Piece := (List.range 16).map (fun r => { va := a + 128 * r, op := op r })

def tileAccess (s : State) (store : Bool) (ra : Reg) (off : BitVec 10) (op : Nat → AccOp) : Result :=
  let a := addrVec s ra off
  match tileLocal s.cur.1 a with
  | some f => raise s f
  | none => issuePieces s store 0 (tilePieces a op)

def tileBase (hi : Bool) : Nat := if hi then 16 else 0

def execLdt (hi : Bool) (ra : Reg) (off : BitVec 10) (t : Bool) (s : State) : Result :=
  tileAccess s false ra off (fun r => .load (.tileRow (tileBase hi) r t))
def execStt (hi : Bool) (ra : Reg) (off : BitVec 10) (t : Bool) (s : State) : Result :=
  tileAccess s true ra off (fun r => .store (tileRowData s (tileBase hi) t r))

end Sys2Proof.Machine
end

