-- ==== Sys2Proof/Machine/Atomics.lean ====
section
/-! DEFINITION. Atomics (spec/16_isa_memory.md R336 to R338) and line entries (`rwb`, `rinv`, R340) at issue, and the
operations that an atomic performs at its home. -/
namespace Sys2Proof.Machine

/-! ### The operations (R336) -/

/-- The new value of an atomic of `w` bytes, none where it writes nothing. -/
def atomicNew (op w old v cmp : Nat) : Option Nat :=
  let m := 2 ^ (8 * w)
  let so := sext old (8 * w)
  let sv := sext v (8 * w)
  match op with
  | 0 => some ((old + v) % m)
  | 1 => some (old &&& v)
  | 2 => some (old ||| v)
  | 3 => some (old ^^^ v)
  | 4 => some (if sv < so then v else old)
  | 5 => some (if so < sv then v else old)
  | 6 => some (min old v)
  | 7 => some (max old v)
  | 8 => some v
  | 9 => if old = cmp % m then some v else none
  | _ => some (fadd32 old v).1

/-! ### Issue -/

/-- An address that names another package (R330). -/
def fabricAddr (a : Nat) : Bool := a / 2 ^ 56 = 128

/-- The endpoint word of x7: FABEP for reserved bits (R330). -/
def endpoint (s : State) : Except Flt (Nat × Nat) :=
  let e := (s.xr 7).toNat
  if bits e 18 46 != 0 then .error (flt 4 5) else .ok (bits e 6 12, bits e 0 6)

/-- A fabric atomic, which waits for its answer. -/
def Access.isRequest (e : Access) : Bool := match e.op, e.place with | .atomic _ _ _ _, .fabric _ _ _ => true | _, _ => false

/-- A request of the context is under way: the present instruction waits for its own answer, or for that of one that stood here before, as where
the supervisor has moved the PC. -/
def sentBefore (s : State) (sel : Access → Bool) : Option Sleep :=
  (s.me.accs.find? (fun e => e.ctx = s.cur.2 && sel e)).map (fun e => if e.pc = s.here.pc then .answer else .drain)

structure AtomicForm where
  op : Nat
  w : Nat
  acq : Bool
  rel : Bool
  scope : Nat
  ret : Option Reg
  cmp : DWord
  fabric : Bool
  deriving DecidableEq, Repr

/-- The entry of an atomic: a `ratom*` counts as a remote-atomic thread (R227). -/
def atomicEntry (s : State) (t : Target) (f : AtomicForm) (v : DWord) (va : Nat) : Access :=
  { entry s t (.atomic f.op v f.cmp f.ret) va f.w f.acq f.rel f.scope with remote := f.fabric }

/-- The page of a fabric atomic, as an entry's target (R224). The kind of a page in another package is known there: it comes with the
request's PERFORM. -/
def fabricPage (s : State) (pkg part va : Nat) : Target :=
  let t : Target := { kind := .rc, place := .fabric pkg part va, handoff := false, attr := 0 }
  if pkg != s.pkgId.toNat then t
  else match translate s part va true true with
    | .ok (a, _) => { t with kind := pageKind a, attr := a }
    | .error _ => t

/-- An atomic of the issuing context. A fabric form sleeps until its target has answered (R338). -/
def atomicAt (s : State) (ra rb : Reg) (f : AtomicForm) : Result :=
  let a := s.gprN ra
  let v := b64 (s.gprN rb % 2 ^ (8 * f.w))
  if a % f.w != 0 then raise s (flt 2 1 a)
  else if f.fabric && fabricAddr a then
    match endpoint s with
    | .error e => raise s { e with addr := a }
    | .ok (k, p) =>
      match sentBefore s Access.isRequest with
      | some w => sleepIn s w
      | none => sleepIn (pushAccess s (atomicEntry s (fabricPage s k p (a % 2 ^ 56)) f v a)) .answer
  else match checkAcc s s.cur.1 .atomic a f.w with
  | .error e => raise s e
  | .ok t =>
    if footHolds s s.cur.1 true t.place f.w then sleepIn s .drain
    else retire (pushAccess (match f.ret with | some r => markReg s r | none => s) (atomicEntry s t f v a)) 4

def atomicWidth (d : Bool) : Nat := if d then 8 else 4

def ratomAt (s : State) (op : Nat) (rd ra rb : Reg) (scope : BitVec 3) (rel ret d : Bool) : Result :=
  atomicAt s ra rb { op := op, w := atomicWidth d, acq := false, rel := rel, scope := scope.toNat,
                     ret := if ret then some rd else none, cmp := 0, fabric := true }

/-- `ord`: 1 acquire, 2 release, 3 both. -/
def amoAt (s : State) (op : Nat) (rd ra rb : Reg) (scope : BitVec 3) (ord : BitVec 2) (d : Bool) : Result :=
  atomicAt s ra rb { op := op, w := atomicWidth d, acq := ord.getLsbD 0, rel := ord.getLsbD 1, scope := scope.toNat,
                     ret := some rd, cmp := s.gpr rd, fabric := false }

def execRatomAdd (rd ra rb : Reg) (scope : BitVec 3) (rel ret d : Bool) (s : State) : Result := ratomAt s 0 rd ra rb scope rel ret d
def execRatomAnd (rd ra rb : Reg) (scope : BitVec 3) (rel ret d : Bool) (s : State) : Result := ratomAt s 1 rd ra rb scope rel ret d
def execRatomOr (rd ra rb : Reg) (scope : BitVec 3) (rel ret d : Bool) (s : State) : Result := ratomAt s 2 rd ra rb scope rel ret d
def execRatomXor (rd ra rb : Reg) (scope : BitVec 3) (rel ret d : Bool) (s : State) : Result := ratomAt s 3 rd ra rb scope rel ret d
def execRatomMin (rd ra rb : Reg) (scope : BitVec 3) (rel ret d : Bool) (s : State) : Result := ratomAt s 4 rd ra rb scope rel ret d
def execRatomMax (rd ra rb : Reg) (scope : BitVec 3) (rel ret d : Bool) (s : State) : Result := ratomAt s 5 rd ra rb scope rel ret d
def execRatomMinN (rd ra rb : Reg) (scope : BitVec 3) (rel ret d : Bool) (s : State) : Result := ratomAt s 6 rd ra rb scope rel ret d
def execRatomMaxN (rd ra rb : Reg) (scope : BitVec 3) (rel ret d : Bool) (s : State) : Result := ratomAt s 7 rd ra rb scope rel ret d
def execRatomSwap (rd ra rb : Reg) (scope : BitVec 3) (rel ret d : Bool) (s : State) : Result := ratomAt s 8 rd ra rb scope rel ret d
def execRatomFadd (rd ra rb : Reg) (scope : BitVec 3) (rel ret : Bool) (s : State) : Result := ratomAt s 10 rd ra rb scope rel ret false

def execAmoAdd (rd ra rb : Reg) (scope : BitVec 3) (ord : BitVec 2) (d : Bool) (s : State) : Result := amoAt s 0 rd ra rb scope ord d
def execAmoAnd (rd ra rb : Reg) (scope : BitVec 3) (ord : BitVec 2) (d : Bool) (s : State) : Result := amoAt s 1 rd ra rb scope ord d
def execAmoOr (rd ra rb : Reg) (scope : BitVec 3) (ord : BitVec 2) (d : Bool) (s : State) : Result := amoAt s 2 rd ra rb scope ord d
def execAmoXor (rd ra rb : Reg) (scope : BitVec 3) (ord : BitVec 2) (d : Bool) (s : State) : Result := amoAt s 3 rd ra rb scope ord d
def execAmoMin (rd ra rb : Reg) (scope : BitVec 3) (ord : BitVec 2) (d : Bool) (s : State) : Result := amoAt s 4 rd ra rb scope ord d
def execAmoMax (rd ra rb : Reg) (scope : BitVec 3) (ord : BitVec 2) (d : Bool) (s : State) : Result := amoAt s 5 rd ra rb scope ord d
def execAmoMinN (rd ra rb : Reg) (scope : BitVec 3) (ord : BitVec 2) (d : Bool) (s : State) : Result := amoAt s 6 rd ra rb scope ord d
def execAmoMaxN (rd ra rb : Reg) (scope : BitVec 3) (ord : BitVec 2) (d : Bool) (s : State) : Result := amoAt s 7 rd ra rb scope ord d
def execAmoSwap (rd ra rb : Reg) (scope : BitVec 3) (ord : BitVec 2) (d : Bool) (s : State) : Result := amoAt s 8 rd ra rb scope ord d
def execAmoCas (rd ra rb : Reg) (scope : BitVec 3) (ord : BitVec 2) (d : Bool) (s : State) : Result := amoAt s 9 rd ra rb scope ord d
def execAmoFadd (rd ra rb : Reg) (scope : BitVec 3) (ord : BitVec 2) (s : State) : Result := amoAt s 10 rd ra rb scope ord false

/-! ### `rwb` and `rinv` (R340) -/

/-- The end of the page, or of the part of the local region, that holds `va`. -/
def rangeEdge (s : State) (part va : Nat) : Nat :=
  if va < 0x1000000 then (va / 0x20000 + 1) * 0x20000
  else if (fixedPage s part va).isSome then (va / 0x4000 + 1) * 0x4000
  else match (s.part part).page? va with | some g => g.va + pageSize g.attr | none => va + 1

/-- Checks 2 to 6 of R194 at one byte. -/
def lineCheck (s : State) (core va : Nat) : Option Flt :=
  if va < 0x1000000 then
    match localPlace core va with
    | none => some (flt 4 3 va)
    | some (c, _) => failIf (!s.sameGang core c) (flt 5 6 va)
  else match (s.core core).part with
  | none => some (flt 4 1 va)
  | some p => (match translate s p va false false with | .error f => some f | .ok _ => none)

/-- The bytes of the range before the first page that fails, and that page's fault. -/
def walkRange (s : State) (core part : Nat) : Nat → Nat → Nat → Nat → Nat × Option Flt
  | 0, _, _, done => (done, none)
  | fuel + 1, va, n, done =>
    if n = 0 then (done, none)
    else match lineCheck s core va with
    | some f => (done, some f)
    | none =>
      let k := min n (rangeEdge s part va - va)
      walkRange s core part fuel (va + k) (n - k) (done + k)

def linesAt (s : State) (ra rb : Reg) (op : AccOp) : Result :=
  let a := s.gprN ra
  let n := s.gprN rb
  if n = 0 then retire s 4
  else if 2 ^ 32 < n then raise s (flt 3 5)
  else
    let (k, f) := walkRange s s.cur.1 (s.me.part.getD 0) (n / 0x4000 + 2) a n 0
    let t : Target := { kind := .rc, place := .lm s.cur.1 0, handoff := false, attr := 0 }
    let s := if k = 0 then s else pushAccess s (entry s t op a k false false 0)
    match f with
    | some f => raise s f
    | none => retire s 4

def execRwb (ra rb : Reg) (s : State) : Result := linesAt s ra rb .rwb
def execRinv (ra rb : Reg) (s : State) : Result := linesAt s ra rb .rinv

end Sys2Proof.Machine
end

