-- ==== Sys2Proof/Machine/Rings.lean ====
section
/-! DEFINITION. Ring handles, ring waits and advances, and messages (spec/08_execution.md R177, R178; spec/16_isa_memory.md
R349 to R351). -/
namespace Sys2Proof.Machine

def State.handle (s : State) (core h : Nat) : Handle := vget (s.core core).handles h Handle.unset
def State.setHandle (s : State) (core h : Nat) (x : Handle) : State :=
  s.modCore core (fun c => { c with handles := vset c.handles h x })

/-! ### `rinit` (R349) -/

/-- The wait of a context that sleeps on handle `h`: what it counts, and what it waits for (R350). -/
def Sleep.ringWait (w : Sleep) (h : Nat) : Option ((Handle → Nat) × Nat) :=
  match w with
  | .recv x => if x = h then some (Handle.filled, 1) else none
  | .rwf x n => if x = h then some (Handle.filled, n) else none
  | .rwe x n => if x = h then some (Handle.room, n) else none
  | _ => none

/-- A wait on the handle whose condition does not hold: one for which it does sleeps no longer (R163). -/
def ringAsleep (s : State) (core h : Nat) (w : Sleep) : Bool :=
  match w.ringWait h, useHandle s core h with
  | some (f, n), .ok r => decide (f r < n)
  | _, _ => false

/-- A context of the core sleeps on the handle. -/
def ringSleeper (s : State) (core h : Nat) : Bool := (List.range 11).any (fun k => ringAsleep s core h (s.ctx core k).sleep)

/-- BADDESC, then BUSY. -/
def rinitCheck (s : State) (h : Nat) (d : DWord) : Option Flt :=
  let n := d.toNat
  let home := bits n 41 4
  let count := bits n 32 9
  let o := s.handle (coreAt s.cur.1 home) h
  let bad := bits n 45 19 != 0 || (count != 0 &&
    (!ringShape (bits n 0 19) (bits n 19 13) count || !s.sameGang s.cur.1 (coreAt s.cur.1 home) ||
     (home != cicOf s.cur.1 && (o.count = 0 || o.proxy || o.base.toNat != bits n 0 19 || o.ssize.toNat != bits n 19 13 ||
       o.count.toNat != count))))
  failIf bad (flt 10 2) <|> failIf (ringSleeper s s.cur.1 h) (flt 10 9)

/-- The handle that `rinit` leaves. -/
def newHandle (core : Nat) (d : DWord) (p : DWord) : Handle :=
  let n := d.toNat
  let own := bits n 41 4 = cicOf core
  if bits n 32 9 = 0 then Handle.unset
  else
    { home := BitVec.ofNat 4 (bits n 41 4)
      base := BitVec.ofNat 19 (bits n 0 19)
      ssize := BitVec.ofNat 13 (bits n 19 13)
      count := BitVec.ofNat 9 (bits n 32 9)
      head := if own then p.setWidth 16 else 0
      tail := if own then p.setWidth 16 else 0
      proxy := !own }

/-- The owner of a handle is initialised anew or unset: a context that sleeps on a proxy of it wakes and faults with STALE, whatever the
new geometry is (R349); one whose condition holds already sleeps no longer. -/
def staleSleepers (s : State) (owner h : Nat) : State :=
  ((List.range 16).map (coreAt owner)).foldl (fun s j =>
    let k := s.handle j h
    if j = owner || !k.proxy || k.count = 0 || k.home.toNat != cicOf owner || !ringSleeper s j h then s
    else s.modCore j (fun c => { c with ctx := c.ctx.map (fun x => if ringAsleep s j h x.sleep then { x with sleep := .stale h } else x) })) s

def execRinit (h : BitVec 4) (ra rb : Reg) (s : State) : Result :=
  if handleWaits s h then sleepIn s .drain
  else match rinitCheck s h.toNat (s.gpr ra) with
  | some f => raise s f
  | none => retire ((staleSleepers s s.cur.1 h.toNat).setHandle s.cur.1 h.toNat (newHandle s.cur.1 (s.gpr ra) (s.gpr rb))) 4

/-! ### Waits (R350) -/

/-- The handle that a wait of the issuing context acts on; a sleeper whose owner was initialised meanwhile finds it STALE (R349). -/
def waitHandle (s : State) (h : Nat) : Except Flt Handle :=
  if s.here.sleep = .stale h then .error (flt 10 10) else useHandle s s.cur.1 h

def ringWait (s : State) (rd : Reg) (h : BitVec 4) (want : Nat) (have' : Handle → Nat) (w : Sleep) : Result :=
  if handleWaits s h then sleepIn s .drain
  else match waitHandle s h.toNat with
  | .error f => raise s f
  | .ok r =>
    if r.count.toNat < want then raise s (flt 10 8)
    else if want ≤ have' r then retireReg s 4 rd (b64 (have' r)) else sleepIn s w

def execRwf (rd : Reg) (h : BitVec 4) (ra : Reg) (s : State) : Result :=
  ringWait s rd h (s.gprN ra) Handle.filled (.rwf h.toNat (s.gprN ra))
def execRwe (rd : Reg) (h : BitVec 4) (ra : Reg) (s : State) : Result :=
  ringWait s rd h (s.gprN ra) Handle.room (.rwe h.toNat (s.gprN ra))

def execRecv (rd : Reg) (h : BitVec 4) (s : State) : Result :=
  if handleWaits s h then sleepIn s .drain
  else match waitHandle s h.toNat with
  | .error f => raise s f
  | .ok r =>
    if 0 < r.filled then
      retireReg s 4 rd (b64 (localAddr s.cur.1 (cicOf (ringOwner s s.cur.1 h.toNat))
        (r.base.toNat + r.head.toNat % r.count.toNat * r.ssize.toNat)))
    else sleepIn s (.recv h.toNat)

/-! ### Advances (R350) -/

/-- A pointer of the owner's handle moves; it is an event for `wfe` on the owner and on every core with a proxy. -/
def movePointer (s : State) (owner h : Nat) (producer : Bool) (n : Nat) : State :=
  let r := s.handle owner h
  let k := BitVec.ofNat 16 n
  let s := s.setHandle owner h (if producer then { r with tail := r.tail + k } else { r with head := r.head + k })
  if n = 0 then s
  else wfeEvent s (fun i => i = owner || (clusterKey i = clusterKey owner &&
    (s.handle i h).proxy && (s.handle i h).home.toNat = cicOf owner))

/-- OVERFLOW or UNDERFLOW against the handle with the advances that the core has already under way. -/
def advanceCheck (r : Handle) (producer : Bool) (under n : Nat) : Option Flt :=
  if producer then failIf (r.room < under + n) (flt 10 6) else failIf (r.filled < under + n) (flt 10 7)

/-- The entry is a proxy advance whose answer has not arrived (R409). -/
def Access.isProxy (e : Access) : Bool := match e.op with | .proxyAdvance _ _ _ _ _ _ => true | _ => false

/-- Advances of the owner core on the handle that have not been made. -/
def advancesUnder (c : Core) (h : Nat) (producer : Bool) : Nat :=
  c.accs.foldl (fun k e => match e.op with | .advance x p n => if x = h && p = producer then k + n else k | _ => k) 0

/-- An advance through a proxy (R350, R409): its release at `.clu` comes first, then the request leaves, and the context waits for the
owner's answer. A core that freezes before the request has left executes the advance again. The request carries what it was sent with, which no
later write of the sender's handle changes. -/
def advanceProxy (s : State) (h : BitVec 4) (producer : Bool) (n : Nat) : Result :=
  match sentBefore s Access.isProxy with
  | some w => sleepIn s w
  | none =>
    if !relDrained s 1 then sleepIn s .drain
    else
      let t : Target := { kind := .rc, place := .lm s.cur.1 0, handoff := false, attr := 0 }
      let op := AccOp.proxyAdvance (ringOwner s s.cur.1 h.toNat) h.toNat (s.handle s.cur.1 h.toNat) producer n false
      sleepIn (pushAccess s (entry s t op 0 0 false false 0)) .answer

def advance (s : State) (h : BitVec 4) (ra : Reg) (producer : Bool) : Result :=
  let n := s.gprN ra
  if handleWaits s h then sleepIn s .drain
  else if (s.handle s.cur.1 h.toNat).proxy then advanceProxy s h producer n
  else match useHandle s s.cur.1 h.toNat with
  | .error f => raise s f
  | .ok r =>
    match advanceCheck r producer (advancesUnder s.me h.toNat producer) n with
    | some f => raise s f
    | none =>
      let t : Target := { kind := .rc, place := .lm s.cur.1 0, handoff := false, attr := 0 }
      retire (pushAccess s (entry s t (.advance h.toNat producer n) 0 0 false true 1)) 4

def execRadvp (h : BitVec 4) (ra : Reg) (s : State) : Result := advance s h ra true
def execRadvc (h : BitVec 4) (ra : Reg) (s : State) : Result := advance s h ra false

/-! ### `send` (R351) -/

/-- BADARG and RESERVED of R351. -/
def sendStatus (s : State) (h : Nat) (a b : DWord) : Option Nat :=
  let i := a.toNat
  let n := bits b.toNat 19 12
  let off := bits b.toNat 0 19
  if bits b.toNat 31 33 != 0 || 4095 < i || 3071 < i || 393215 < off + n || s.me.part.isNone ||
      !(s.part (s.me.part.getD 0)).holdsCore i || (s.core i).withdrawn then some 3
  else if (h = 14 || h = 15) && (s.part (s.me.part.getD 0)).supervisor = i then some 4
  else none

/-- The partition is ACTIVE (R93). -/
def State.partAwake (s : State) (p : Nat) : Bool := (s.part p).dmState = .active

/-- The message leaves for the target's network interface. -/
def sendMessage (s : State) (dest h : Nat) (bs : List Byte) : State :=
  s.modCore dest (fun c => { c with inbox := c.inbox ++ [{ src := s.cur.1, srcCtx := s.cur.2, handle := h, bytes := bs }] })

def execSend (rd : Reg) (h : BitVec 4) (ra rb : Reg) (s : State) : Result :=
  match s.here.sleep with
  | .send (some st) => retireReg s 4 rd (b64 st)
  | .send none => .next s
  | _ =>
    let i := s.gprN ra
    let off := bits (s.gprN rb) 0 19
    let n := bits (s.gprN rb) 19 12 + 1
    if !relDrained s 3 || unsentBytes s s.cur.1 s.cur.2 s.nextKey (some (dieOf (i % 3072))) then sleepIn s .drain
    else match sendStatus s h.toNat (s.gpr ra) (s.gpr rb) with
    | some st => retireReg s 4 rd (b64 st)
    | none =>
      if lmReadWaits s off n then sleepIn s .drain
      else sleepIn (sendMessage s i h.toNat (Memory.reads s.me.lm off n)) (.send none)

/-! ### Delivery (R178) -/

/-- What the receiver's network interface does with a message: its status, or none while no slot is free. -/
def deliveryStatus (r : Handle) (n : Nat) : Option Nat :=
  if r.count = 0 || r.proxy then some 2
  else if r.ssize.toNat < n then some 1
  else if r.room = 0 then none
  else some 0

/-- Write a message whole into the slot at TAIL; then TAIL rises by 1. -/
def deliverInto (s : State) (core h : Nat) (bs : List Byte) : State :=
  let r := s.handle core h
  movePointer (writePlace s (.lm core (r.base.toNat + r.tail.toNat % r.count.toNat * r.ssize.toNat)) bs) core h true 1

/-- The sender learns its status. -/
def tellSender (s : State) (m : Msg) (st : Nat) : State :=
  s.modCtx m.src m.srcCtx (fun c => match c.sleep with | .send none => { c with sleep := .send (some st) } | _ => c)

/-- The first message that waits for handle `h` of a core is taken when it can be. -/
def execMessageDeliver (s : State) : Result :=
  let core := s.input.core
  match (s.core core).inbox.find? (fun m => m.handle = s.input.handle) with
  | none => .next s
  | some m =>
    match deliveryStatus (s.handle core m.handle) m.bytes.length with
    | none => .next s
    | some st =>
      let s := s.modCore core (fun c => { c with inbox := c.inbox.erase m })
      let s := if st = 0 then deliverInto s core m.handle m.bytes else s
      .next (tellSender s m st)

end Sys2Proof.Machine
end

