-- ==== Sys2Proof/Machine/Contest.lean ====
section
/-! DEFINITION. The contention plane (spec/06_contention_plane.md): the contest instructions and the rounds of a channel. -/
namespace Sys2Proof.Machine

/-- The key of R115. -/
def contestKey (mode : Nat) (v : DWord) : Nat :=
  let k := bits v.toNat 0 32
  match mode with
  | 0 => k
  | 2 => 0xffffffff - k
  | _ => if 0x7f800000 < k % 2 ^ 31 then 0xffffffff else k % 2 ^ 31

/-- Bits [16:0] of a core's contest word (R114). -/
def contestIdent (core ctx : Nat) : Nat := dieOf core * 2 ^ 14 + clusterOf core * 2 ^ 8 + cicOf core * 16 + ctx

/-- The context has slept in `WaitWhile` of its present instruction, which has passed its checks and goes on behind them (R120). -/
def State.contestWoken (s : State) (ch : Nat) : Bool := s.here.sleep = .contest ch

/-- The checks common to the contest instructions (R120). CONTEST subcodes 1 and 2. -/
def contestCheck (s : State) (ch : Nat) : Option Flt :=
  failIf (15 < ch) (flt 7 1) <|>
  failIf (!s.contestWoken ch && (14 ≤ ch || s.me.part.isNone || (s.chan ch).grant != s.me.part)) (flt 7 2)

/-- The context has an entry pending on the channel. -/
def State.contestPending (s : State) (ch : Nat) : Bool := s.here.ctPending.getLsbD ch

/-- `ctarm` (R120): the entry sets out for the die's tap, in program order with other requests of its context. -/
def armEntry (s : State) (mode : Nat) (ra rb : Reg) : Result :=
  let ch := s.gprN rb
  match contestCheck s ch <|> failIf (!s.contestWoken ch && (s.chan ch).failed) (flt 7 3) with
  | some f => raise s f
  | none =>
    if s.contestPending ch then sleepIn s (.contest ch)
    else
      let w : CWord := BitVec.ofNat 49 (contestKey mode (s.gpr ra) * 2 ^ 17 + contestIdent s.cur.1 s.cur.2)
      let s := s.modHere (fun c => { c with
        slots := vset c.slots ch none
        ctPending := c.ctPending ||| (1#16 <<< ch)
        cancelled := c.cancelled &&& ~~~(1#16 <<< ch) })
      retire (s.modChan ch (fun c => { c with arming := c.arming ++ [{ core := s.cur.1, ctx := s.cur.2, word := w }] })) 4

def execCtarmRaw (ra rb : Reg) (s : State) : Result := armEntry s 0 ra rb
def execCtarmAmax (ra rb : Reg) (s : State) : Result := armEntry s 1 ra rb
def execCtarmMin (ra rb : Reg) (s : State) : Result := armEntry s 2 ra rb

def CtOutcome.code : CtOutcome → Nat | .won => 1 | .lost => 2 | .cancelled => 3

/-- What a `ctres` reads: status, word and sequence number (R120). -/
def contestRead (s : State) (ch : Nat) : Nat × CWord × BitVec 32 :=
  match vget s.here.slots ch none with
  | none => (0, (s.chan ch).latestWord, (s.chan ch).latestSeq)
  | some r => (r.outcome.code, r.word, r.seq)

def readResult (s : State) (rd rb : Reg) (f : Nat → Nat × CWord × BitVec 32 → DWord) : Result :=
  let ch := s.gprN rb
  match contestCheck s ch with
  | some e => raise s e
  | none => if s.contestPending ch then sleepIn s (.contest ch) else retireReg s 4 rd (f ch (contestRead s ch))

def execCtresW (rd rb : Reg) (s : State) : Result :=
  readResult s rd rb (fun _ r => b64 (r.1 * 2 ^ 62 + r.2.2.toNat % 2 ^ 13 * 2 ^ 49 + r.2.1.toNat))
def execCtresId (rd rb : Reg) (s : State) : Result := readResult s rd rb (fun ch r => b64 (ch * 2 ^ 32 + r.2.2.toNat))

/-- `ctcancel` (R120): withdraws an entry whose window has not closed. -/
def execCtcancel (rd rb : Reg) (s : State) : Result :=
  let ch := s.gprN rb
  let mine := fun (e : CtEntry) => e.core = s.cur.1 && e.ctx = s.cur.2
  match contestCheck s ch with
  | some f => raise s f
  | none =>
    if s.contestPending ch && !(s.chan ch).round.any mine then
      let s1 := s.modHere (fun c => { c with
        slots := vset c.slots ch none
        ctPending := c.ctPending &&& ~~~(1#16 <<< ch) })
      let s2 := s1.modChan ch (fun c => { c with
        arming := c.arming.filter (fun e => !mine e)
        registered := c.registered.filter (fun e => !mine e) })
      retireReg s2 4 rd 1
    else retireReg s 4 rd 0

/-! ### Rounds (R108 to R113) -/

/-- The tap of the contender's die drives its word: an excluded die drives 0 on every line (R125). -/
def CtEntry.drives (s : State) (e : CtEntry) : Bool := !s.dieExcluded (bits e.word.toNat 14 3)

/-- An armed entry is registered at its die's tap (R120); on a failed channel it resolves CANCELLED (R113). The tap of an excluded die
registers nothing. -/
def execEntryRegister (s : State) : Result :=
  let i := s.input
  match (s.chan i.ch).arming.find? (fun e => e.core = i.core && e.ctx = i.ctx) with
  | none => .next s
  | some e =>
    if (s.chan i.ch).failed then .next (cancelIf s (· == e) false i.ch)
    else if !e.drives s then .next s
    else .next (s.modChan i.ch (fun c => { c with arming := c.arming.filter (· != e), registered := c.registered ++ [e] }))

/-- The root opens an arm window on an idle channel with an entry registered (R109), unless it is failing (R113). -/
def openWindow (c : Channel) : Channel :=
  if c.phase = .idle && !c.registered.isEmpty && c.voids < 64 then { c with phase := .window } else c

def execArmWindowOpen (s : State) : Result := .next (s.modChan s.input.ch openWindow)

/-- The arm window closes: the entries registered before form the round (R108). -/
def execArmWindowClose (s : State) : Result :=
  .next (s.modChan s.input.ch (fun c =>
    if c.phase = .window then { c with phase := .running, round := c.registered, registered := [] } else c))

/-- The greatest word of a round wins: an entry that drives 0 where another drives 1 withdraws (R110). -/
def roundWinner (l : List CtEntry) : Option CtEntry :=
  l.foldl (fun b e => match b with | none => some e | some w => if w.word.toNat < e.word.toNat then some e else some w) none

/-! ### The device's own entries (R114, R126, R149, R151) -/

/-- The contest word of an agent that is no core: DIE 0 to 3, or 4 for an agent of DX, CLUSTER 63, its kind and instance in CORE and CTX,
where a dispatch port is kind 0 and a collector kind 1, each instance 0 (DESIGN CHOICE, log 65). -/
def agentWord (key d kind : Nat) : CWord := BitVec.ofNat 49 (key * 2 ^ 17 + d * 2 ^ 14 + 63 * 2 ^ 8 + kind * 16)

/-- An agent of die `d` enters channel 14 or 15 with its candidate. -/
def enterClaim (s : State) (ch d node key : Nat) : State :=
  { s.modChan ch (fun c => { c with
      registered := c.registered ++ [{ core := ctAgent d, ctx := 0, word := agentWord key d (15 - ch) }] }) with
    claims := s.claims ++ [{ ch := ch, die := d, node := node, won := false, rival := none }] }

/-- The agent of a die has entered the channel, with a candidate that is still there. -/
def State.claiming (s : State) (ch d : Nat) : Bool :=
  s.claims.any (fun c => c.ch = ch && c.die = d && c.rival.isNone && (s.node? c.node).isSome)

/-- A claim after a round of its channel that `w` won: the winner may act on its candidate. A port that lost drops its candidate (R149), a
collector that lost waits for the victims of the winner's (R151). -/
def Claim.settle (w : CtEntry) (round : List CtEntry) (winner : Nat) (c : Claim) : Option Claim :=
  if w.core = ctAgent c.die then some { c with won := true }
  else if !round.any (fun e => e.core = ctAgent c.die) then some c
  else if c.ch = 15 then none
  else some { c with rival := some winner }

/-- The candidate for which an agent entered. -/
def winnerNode (s : State) (ch : Nat) (w : CtEntry) : Nat :=
  ((s.claims.find? (fun c => c.ch = ch && w.core = ctAgent c.die && c.rival.isNone)).map (·.node)).getD 0

/-- After a round the claims of its agents are settled; a port that lost makes its selection again. Claims that have won stand first, in the
order of their rounds. -/
def settleClaims (s : State) (ch : Nat) (w : CtEntry) (round : List CtEntry) : State :=
  let l := s.claims.filterMap (fun c => if c.ch = ch && c.rival.isNone && !c.won then c.settle w round (winnerNode s ch w) else some c)
  let first := fun (c : Claim) => c.won && s.claims.contains c
  { s with
    claims := l.filter first ++ l.filter (fun c => c.won && !first c) ++ l.filter (fun c => !c.won)
    selects := s.selects + (if ch = 15 then (round.filter (· != w)).length else 0) }

/-- An entry takes the outcome of its round (R120); a discarded one has no context, and an agent's is its claim's. -/
def resolveEntry (s : State) (ch : Nat) (w : CtEntry) (q : BitVec 32) (e : CtEntry) : State :=
  if e.core = ghost || ctAgent 0 ≤ e.core then s
  else s.modCtx e.core e.ctx (fun c => { c with
    slots := vset c.slots ch (some { outcome := if e.word = w.word then .won else .lost, word := w.word, seq := q })
    ctPending := c.ctPending &&& ~~~(1#16 <<< ch) })

/-- The parity slot ends (R110 to R112). The taps that veto come as `Input.mask`; an excluded die never vetoes (R125). -/
def endRound (s : State) (ch : Nat) (veto : Bool) : State :=
  let c := s.chan ch
  if c.phase != .running then s
  else
    let next := fun (s : State) => s.modChan ch (fun c => openWindow { c with phase := .idle, round := [], seq := c.seq + 1 })
    if veto then
      next (s.modChan ch (fun c => { c with voids := c.voids + 1, registered := c.round.filter (·.core != ghost) ++ c.registered }))
    else
      match roundWinner (c.round.filter (CtEntry.drives s)) with
      | none => next (s.modChan ch (fun c => { c with voids := 0 }))
      | some w =>
        let s := settleClaims (c.round.foldl (fun s e => resolveEntry s ch w c.seq e) s) ch w c.round
        next (s.modChan ch (fun c => { c with voids := 0, latestWord := w.word, latestSeq := c.seq }))

def execRoundEnd (s : State) : Result :=
  let veto := (List.range 4).any (fun d => s.input.mask.getLsbD d && !s.dieExcluded d)
  .next (endRound s s.input.ch veto)

/-- After 64 consecutive void rounds the channel is marked failed, fw3 logs it with the CLOCK, and its entries resolve
CANCELLED (R113). -/
def failChannel (s : State) (ch : Nat) : State :=
  if 64 ≤ (s.chan ch).voids && !(s.chan ch).failed then
    cancelIf { s.modChan ch (fun c => { c with failed := true }) with
      chanFails := s.chanFails ++ [(ch, s.clock)]
      claims := s.claims.filter (fun c => c.ch != ch) } (fun _ => true) false ch
  else s

/-- A channel that fw1 may grant: granted to no one, not failed, with no round under way (R116, R117). -/
def Channel.free (c : Channel) : Bool := c.grant.isNone && !c.failed && c.phase = .idle

/-- fw1 grants channel `into` in place of the failed channel `ch` (R113, R117). -/
def moveGrant (s : State) (ch into : Nat) : State :=
  match (s.chan ch).grant with
  | none => s
  | some p =>
    if (s.chan ch).failed && into < 14 && (s.chan into).free then
      let s := (s.modChan into (fun c => { c with grant := some p })).modChan ch (fun c => { c with grant := none })
      s.modPart p (fun q => { q with chmask := q.chmask &&& ~~~(1#16 <<< ch) ||| (1#16 <<< into) })
    else s

/-- CHANNEL_FAIL: `Input.ok` says that fw1 grants channel `Input.dst` in its place. -/
def execChannelFail (s : State) : Result :=
  let s := failChannel s s.input.ch
  .next (if s.input.ok then moveGrant s s.input.ch s.input.dst else s)

end Sys2Proof.Machine
end

