-- ==== Sys2Proof/WellFormed.lean ====
section
/-! DEFINITION. Which terms of `Instr` are instructions of the manual: operand values that no encoding admits, or an agent
the package does not have, are refused here (spec/14_isa_formats.md R296 to R298, and the bounds of R7, R16, R25, R37). -/
namespace Sys2Proof

/-- Lane formats of `vcmp` and `vred` (R359, R363). -/
def laneFormat (c : Nat) : Bool := c ≤ 2 || (6 ≤ c && c ≤ 8) || (10 ≤ c && c ≤ 12)

/-- Formats of `vcvt` (R361), and of `acld` and `acst` (R378). -/
def convFormat (c : Nat) : Bool := c ≤ 4 || (6 ≤ c && c ≤ 8) || (10 ≤ c && c ≤ 12)

/-- Width in bits of a format that `vcvt` takes (R229). -/
def convWidth (c : Nat) : Nat :=
  match c with | 0 | 8 | 12 => 32 | 1 | 2 | 7 | 11 => 16 | _ => 8

def convFloat (c : Nat) : Bool := c ≤ 4

/-- The words of `vcvt` that R361 accepts. -/
def vcvtForm (s d mode p : Nat) : Bool :=
  convFormat s && convFormat d && s != d && (convFloat s || convFloat d) && mode != 3 &&
  p < (if convWidth d ≤ convWidth s then convWidth s / convWidth d else convWidth d / convWidth s)

/-- The variants of `mm` and `mmg` (R375). -/
def mmForm (cls : Nat) (a1 b1 : Bool) : Bool :=
  match cls with | 1 => a1 == b1 | 3 => !a1 && !b1 | _ => true

/-- A scope on an access that may carry one (R296, R332, R336). -/
def scopeForm (ordered : Bool) (scope : Nat) : Bool := if ordered then scope ≤ 4 else scope = 0

def ratomForm (rd : Reg) (scope : BitVec 3) (rel ret : Bool) : Bool := scopeForm rel scope.toNat && (ret || rd = 0)
def amoForm (scope : BitVec 3) (ord : BitVec 2) : Bool := scopeForm (ord != 0) scope.toNat

def MailBox.ok : MailBox → Bool | .management => true | .supervisor p => p < 64

def HeldWrite.ok : HeldWrite → Bool
  | .vfReg vf _ _ => vf < 1024
  | .window core _ _ => core < 3072
  | _ => true

def RegSpace.ok : RegSpace → Bool
  | .vf i | .msix i => i < 1024
  | .pf | .recovery => true

def ErrSite.ok : ErrSite → Bool
  | .core i => i < 3072
  | .slice i => i < 192
  | .line a => a % 128 = 0

/-- The agents an event may name (R7, R16, R25, R37, R107). -/
def Input.wf (i : Input) : Bool :=
  i.core < 3072 && i.ctx < 11 && i.part < 64 && i.vf < 1024 && i.ring < 8 && i.vector < 16 && i.ch < 16 &&
  i.list < 8 && i.port < 16 && i.die < 4 && i.slice < 192 && i.va < 2 ^ 56 && i.line % 128 = 0 &&
  i.handle < 16 && i.pkg < 4096 && i.src < 8 && i.dst < 16 && i.mailbox.ok && i.space.ok && i.site.ok && i.held.ok && i.req.part < 64

/-- Well-formed instructions: the operand values that an encoding admits. An event is well formed with its `Input`. -/
def Instr.wf : Instr → Bool
  | .ld _ _ _ hint w => w != 7 && hint != 3
  | .st _ _ _ hint _ => hint != 3
  | .ldIndexed _ _ _ acq scope w hint => w != 7 && hint != 3 && scopeForm acq scope.toNat
  | .stIndexed _ _ _ rel scope _ hint => hint != 3 && scopeForm rel scope.toNat
  | .ldv _ _ _ hint | .stv _ _ _ hint => hint != 3
  | .ldvPair vd _ _ hint | .stvPair vd _ _ hint => hint != 3 && vd != 31
  | .ratomAdd rd _ _ scope rel ret _ | .ratomAnd rd _ _ scope rel ret _ | .ratomOr rd _ _ scope rel ret _
  | .ratomXor rd _ _ scope rel ret _ | .ratomMin rd _ _ scope rel ret _ | .ratomMax rd _ _ scope rel ret _
  | .ratomMinN rd _ _ scope rel ret _ | .ratomMaxN rd _ _ scope rel ret _ | .ratomSwap rd _ _ scope rel ret _
  | .ratomFadd rd _ _ scope rel ret => ratomForm rd scope rel ret
  | .amoAdd _ _ _ scope ord _ | .amoAnd _ _ _ scope ord _ | .amoOr _ _ _ scope ord _ | .amoXor _ _ _ scope ord _
  | .amoMin _ _ _ scope ord _ | .amoMax _ _ _ scope ord _ | .amoMinN _ _ _ scope ord _ | .amoMaxN _ _ _ scope ord _
  | .amoSwap _ _ _ scope ord _ | .amoCas _ _ _ scope ord _ | .amoFadd _ _ _ scope ord => amoForm scope ord
  | .caddRel _ _ scope | .cwaitAcq _ _ scope => scope.toNat ≤ 4
  | .sstep _ level => level.toNat ≤ 4
  | .fenceAcq scope | .fenceRel scope | .fenceAr scope | .fenceSc scope => scope.toNat ≤ 4
  | .vcmpeq _ _ _ fmt _ | .vcmpne _ _ _ fmt _ | .vcmplt _ _ _ fmt _ | .vcmple _ _ _ fmt _ => laneFormat fmt.toNat
  | .vcvt s d mode _ _ p => vcvtForm s.toNat d.toNat mode.toNat p.toNat
  | .vredadd _ _ fmt _ | .vredmin _ _ fmt _ | .vredmax _ _ fmt _ | .vamax _ _ fmt _ => laneFormat fmt.toNat
  | .vscc mode _ _ _ _ | .vquant mode _ _ _ _ | .vfacm mode _ _ _ _ => mode != 3
  | .mm cls a1 b1 _ _ _ _ | .mmg cls a1 b1 _ _ _ _ => mmForm cls.toNat a1 b1
  | .mmQ group _ _ _ _ _ _ => group != 3
  | .acld fmt _ _ | .acst fmt _ _ _ => convFormat fmt.toNat
  | .scaccVector h _ _ _ _ vb => h || vb != 31
  | .evterm idx _ => idx.toNat ≤ 23
  | .evclr _ idx => idx.toNat ≤ 27
  | .addiCS0 rd imm => !(rd = 0 && imm = 0)
  | _ => true

end Sys2Proof
end

