-- ==== Sys2Proof/Decode.lean ====
section
/-! DEFINITION. The decoder and the encoder of instruction words (spec/14_isa_formats.md R288 to R301). The decoder is total
on any bytes and rejects by name; the fields of a word are taken out here and nowhere else. -/
namespace Sys2Proof

/-- Why a word is refused: the ILLEGAL subcodes of R300 that decoding reports. -/
inductive DecErr where
  | noMajor | badFn | resv | badReg | badXsel | noXsel | zero | imEnd | badLevel
  deriving DecidableEq, Repr

/-- Subcodes of ILLEGAL (R300). -/
def DecErr.sub : DecErr → Nat
  | .noMajor => 1 | .badFn => 2 | .resv => 3 | .badReg => 4 | .badXsel => 5 | .noXsel => 6 | .zero => 7 | .imEnd => 8
  | .badLevel => 15

abbrev Dec := Except DecErr Instr

/-- One check of R301, before those that follow. -/
def rejectIf (bad : Bool) (e : DecErr) (k : Dec) : Dec := if bad then .error e else k

/-! ### Fields of a 32-bit word (R290) -/

def fMajor (w : Nat) : Nat := w / 2 % 64
def fRd (w : Nat) : Nat := w / 128 % 32
def fRa (w : Nat) : Nat := w / 4096 % 32
def fRb (w : Nat) : Nat := w / 131072 % 32
def fFn10 (w : Nat) : Nat := w / 4194304 % 1024
def fFn6 (w : Nat) : Nat := w / 4194304 % 64
def fXsel (w : Nat) : Nat := w / 268435456 % 16
def fImm15 (w : Nat) : Nat := w / 131072 % 32768
def fOff25 (w : Nat) : Nat := w / 128 % 33554432
def fImm20 (w : Nat) : Nat := w / 4096 % 1048576

def reg (n : Nat) : Reg := BitVec.ofNat 5 n
def bv (k n : Nat) : BitVec k := BitVec.ofNat k n
/-- Bit `i` of a function field. -/
def fbit (n i : Nat) : Bool := n / 2 ^ i % 2 = 1

/-- A required extension register (R292). -/
def xReq (x : Nat) (k : BitVec 3 → Dec) : Dec :=
  if 9 ≤ x then .error .badXsel else if x = 0 then .error .noXsel else k (bv 3 (x - 1))

/-- An optional extension register (R292). -/
def xOpt (x : Nat) (k : Option (BitVec 3) → Dec) : Dec :=
  if 9 ≤ x then .error .badXsel else k (if x = 0 then none else some (bv 3 (x - 1)))

/-- The mask of a vector word: M in fn10 [9], MASK in [8:6] (R298). -/
def fMask (fn : Nat) : Option (BitVec 3) := if fbit fn 9 then some (bv 3 (fn / 64 % 8)) else none
/-- M = 0 with a mask field that is not zero (R298). -/
def maskResv (fn : Nat) : Bool := !fbit fn 9 && fn / 64 % 8 != 0

/-! ### Families -/

/-- Major 0x00 (R297). -/
def decInt (fn : Nat) (rd ra rb : Reg) : Dec :=
  match fn with
  | 0 => .ok (.add rd ra rb)
  | 1 => .ok (.sub rd ra rb)
  | 2 => .ok (.and rd ra rb)
  | 3 => .ok (.or rd ra rb)
  | 4 => .ok (.xor rd ra rb)
  | 5 => .ok (.sll rd ra rb)
  | 6 => .ok (.srl rd ra rb)
  | 7 => .ok (.sra rd ra rb)
  | 8 => .ok (.slt rd ra rb)
  | 9 => .ok (.sltu rd ra rb)
  | 16 => .ok (.mul rd ra rb)
  | 17 => .ok (.mulh rd ra rb)
  | 18 => .ok (.mulhN rd ra rb)
  | 19 => .ok (.div rd ra rb)
  | 20 => .ok (.divN rd ra rb)
  | 21 => .ok (.rem rd ra rb)
  | 22 => .ok (.remN rd ra rb)
  | 24 => .ok (.min rd ra rb)
  | 25 => .ok (.max rd ra rb)
  | 26 => .ok (.minN rd ra rb)
  | 27 => .ok (.maxN rd ra rb)
  | _ => .error .badFn

/-- Major 0x05 (R296, R310). -/
def decShiftImm (imm : Nat) (rd ra : Reg) : Dec :=
  match imm / 4096 with
  | 0 => rejectIf (imm / 64 % 64 != 0) .resv (.ok (.slli rd ra (bv 6 imm)))
  | 1 => rejectIf (imm / 64 % 64 != 0) .resv (.ok (.srli rd ra (bv 6 imm)))
  | 2 => rejectIf (imm / 64 % 64 != 0) .resv (.ok (.srai rd ra (bv 6 imm)))
  | 3 => .ok (.slti rd ra (bv 12 imm))
  | 4 => .ok (.sltiu rd ra (bv 12 imm))
  | _ => .error .badFn

/-- Majors 0x10 and 0x11 (R332). -/
def decLd (imm : Nat) (rd ra : Reg) : Dec :=
  rejectIf (imm % 8 = 7 || imm / 8 % 4 = 3) .badFn (.ok (.ld rd ra (bv 10 (imm / 32)) (bv 2 (imm / 8)) (bv 3 imm)))
def decSt (imm : Nat) (rd ra : Reg) : Dec :=
  rejectIf (4 ≤ imm % 8 || imm / 8 % 4 = 3) .badFn (.ok (.st rd ra (bv 10 (imm / 32)) (bv 2 (imm / 8)) (bv 2 imm)))

/-- Major 0x12 (R332). -/
def decIndexed (fn : Nat) (rd ra rb : Reg) : Dec :=
  let scope := fn / 32 % 8
  let width := fn / 4 % 8
  let ordered := fbit fn 8
  rejectIf (fn % 4 = 3 || 5 ≤ scope || (!ordered && scope != 0)) .badFn
    (if fbit fn 9 then
      rejectIf (4 ≤ width) .badFn (.ok (.stIndexed rd ra rb ordered (bv 3 scope) (bv 2 width) (bv 2 fn)))
    else
      rejectIf (width = 7) .badFn (.ok (.ldIndexed rd ra rb ordered (bv 3 scope) (bv 3 width) (bv 2 fn))))

/-- Major 0x13 (R335). -/
def decRingSlot (imm ra : Nat) (rd : Reg) : Dec :=
  rejectIf (16 ≤ ra) .badReg
    (if fbit imm 2 then .ok (.stRingSlot rd (bv 4 ra) (bv 4 (imm / 2048)) (bv 8 (imm / 8)) (bv 2 imm))
     else .ok (.ldRingSlot rd (bv 4 ra) (bv 4 (imm / 2048)) (bv 8 (imm / 8)) (bv 2 imm)))

/-- Major 0x14 (R333). -/
def decVecAcc (imm rd : Nat) (ra : Reg) : Dec :=
  let off := bv 10 (imm / 32)
  let hint := bv 2 (imm / 8)
  rejectIf (imm / 8 % 4 = 3) .badFn (rejectIf (fbit imm 1) .resv (rejectIf (fbit imm 0 && rd = 31) .badReg
    (.ok (match fbit imm 2, fbit imm 0 with
      | false, false => .ldv (reg rd) ra off hint
      | true, false => .stv (reg rd) ra off hint
      | false, true => .ldvPair (reg rd) ra off hint
      | true, true => .stvPair (reg rd) ra off hint))))

/-- Major 0x15 (R334). -/
def decTile (imm rd : Nat) (ra : Reg) : Dec :=
  rejectIf (imm % 8 != 0) .resv (rejectIf (rd != 0 && rd != 16) .badReg
    (if fbit imm 3 then .ok (.stt (rd = 16) ra (bv 10 (imm / 32)) (fbit imm 4))
     else .ok (.ldt (rd = 16) ra (bv 10 (imm / 32)) (fbit imm 4))))

/-- The tag of an E word: bit 5 from fn6 [5], bits [4:0] from rd (R339, R385). -/
def fTag (fn6 rd : Nat) : BitVec 6 := bv 6 (fn6 / 32 % 2 * 32 + rd)

/-- Majors 0x18 and 0x1b (R339, R341). -/
def decGetPut (fn6 x rd : Nat) (ra rb : Reg) : Dec :=
  match fn6 % 32 with
  | 0 => xReq x (fun k => .ok (.get (fTag fn6 rd) ra rb k))
  | 1 => xReq x (fun k => .ok (.put (fTag fn6 rd) ra rb k))
  | _ => .error .badFn
def decCollective (fn6 x rd : Nat) (ra rb : Reg) : Dec :=
  match fn6 % 32 with
  | 0 => xReq x (fun k => .ok (.mldred (fTag fn6 rd) ra rb k))
  | 1 => xReq x (fun k => .ok (.mcst (fTag fn6 rd) ra rb k))
  | _ => .error .badFn

/-- Major 0x19 (R336). -/
def decRatom (fn : Nat) (rd ra rb : Reg) : Dec :=
  let scope := fn / 128
  let s := bv 3 scope
  let rel := fbit fn 6
  let ret := fbit fn 5
  let d := fbit fn 4
  rejectIf (5 ≤ scope || (!rel && scope != 0) || (fn % 16 = 10 && d)) .badFn
    (let k := fun i => rejectIf (!ret && rd != 0) .resv (.ok i)
     match fn % 16 with
     | 0 => k (.ratomAdd rd ra rb s rel ret d)
     | 1 => k (.ratomAnd rd ra rb s rel ret d)
     | 2 => k (.ratomOr rd ra rb s rel ret d)
     | 3 => k (.ratomXor rd ra rb s rel ret d)
     | 4 => k (.ratomMin rd ra rb s rel ret d)
     | 5 => k (.ratomMax rd ra rb s rel ret d)
     | 6 => k (.ratomMinN rd ra rb s rel ret d)
     | 7 => k (.ratomMaxN rd ra rb s rel ret d)
     | 8 => k (.ratomSwap rd ra rb s rel ret d)
     | 10 => k (.ratomFadd rd ra rb s rel ret)
     | _ => .error .badFn)

/-- Major 0x1c (R336). -/
def decAmo (fn : Nat) (rd ra rb : Reg) : Dec :=
  let scope := fn / 128
  let s := bv 3 scope
  let ord := bv 2 (fn / 32)
  let d := fbit fn 4
  rejectIf (5 ≤ scope || (fn / 32 % 4 = 0 && scope != 0) || (fn % 16 = 10 && d)) .badFn
    (match fn % 16 with
     | 0 => .ok (.amoAdd rd ra rb s ord d)
     | 1 => .ok (.amoAnd rd ra rb s ord d)
     | 2 => .ok (.amoOr rd ra rb s ord d)
     | 3 => .ok (.amoXor rd ra rb s ord d)
     | 4 => .ok (.amoMin rd ra rb s ord d)
     | 5 => .ok (.amoMax rd ra rb s ord d)
     | 6 => .ok (.amoMinN rd ra rb s ord d)
     | 7 => .ok (.amoMaxN rd ra rb s ord d)
     | 8 => .ok (.amoSwap rd ra rb s ord d)
     | 9 => .ok (.amoCas rd ra rb s ord d)
     | 10 => .ok (.amoFadd rd ra rb s ord)
     | _ => .error .badFn)

/-- Major 0x1a (R340). -/
def decLines (fn rd : Nat) (ra rb : Reg) : Dec :=
  match fn with
  | 0 => rejectIf (rd != 0) .resv (.ok (.rwb ra rb))
  | 1 => rejectIf (rd != 0) .resv (.ok (.rinv ra rb))
  | _ => .error .badFn

/-- Major 0x1d (R296, R343 to R346): fn10 [9:7] scope or L, [6:4] modifier, [3:0] op. -/
def decSync (fn rd ra rb : Nat) : Dec :=
  let scope := fn / 128
  let md := fn / 16 % 8
  let plain := fun (k : Dec) => rejectIf (md != 0 || scope != 0) .badFn k
  match fn % 16 with
  | 0 => (match md with
    | 0 => rejectIf (scope != 0) .badFn (rejectIf (rd != 0) .resv (.ok (.cadd (reg ra) (reg rb))))
    | 1 => rejectIf (5 ≤ scope) .badFn (rejectIf (rd != 0) .resv (.ok (.caddRel (reg ra) (reg rb) (bv 3 scope))))
    | _ => .error .badFn)
  | 1 => (match md with
    | 0 => rejectIf (scope != 0) .badFn (rejectIf (rd != 0) .resv (.ok (.cwait (reg ra) (reg rb))))
    | 1 => rejectIf (5 ≤ scope) .badFn (rejectIf (rd != 0) .resv (.ok (.cwaitAcq (reg ra) (reg rb) (bv 3 scope))))
    | _ => .error .badFn)
  | 2 => plain (rejectIf (rb != 0) .resv (.ok (.cread (reg rd) (reg ra))))
  | 3 => rejectIf (2 ≤ md || scope != 0) .badFn (rejectIf (ra != 0) .resv (rejectIf (8 ≤ rb) .badReg
      (.ok (if md = 1 then .barrRel (reg rd) (bv 3 rb) else .barrRlx (reg rd) (bv 3 rb)))))
  | 4 => plain (rejectIf (rd != 0) .resv (rejectIf (8 ≤ rb) .badReg (.ok (.bwait (bv 3 rb) (reg ra)))))
  | 5 => plain (rejectIf (8 ≤ rb) .badReg (.ok (.bmiss (reg rd) (bv 3 rb) (reg ra))))
  | 6 => rejectIf (md != 0) .badFn (rejectIf (5 ≤ scope) .badLevel (rejectIf (ra != 0 || rb != 0) .resv
      (.ok (.sstep (reg rd) (bv 3 scope)))))
  | 7 => plain (rejectIf (8 ≤ rb) .badReg (.ok (.binit (bv 3 rb) (reg ra) (reg rd))))
  | _ => .error .badFn

/-- Major 0x1e (R347). -/
def decFence (fn rd ra rb : Nat) : Dec :=
  let s := bv 3 (fn / 4)
  rejectIf (5 ≤ fn / 4 % 8) .badFn (rejectIf (fn / 32 != 0 || rd != 0 || ra != 0 || rb != 0) .resv
    (.ok (match fn % 4 with | 0 => .fenceAcq s | 1 => .fenceRel s | 2 => .fenceAr s | _ => .fenceSc s)))

/-- Major 0x1f (R348 to R351). -/
def decRing (fn rd ra rb : Nat) : Dec :=
  let hn := fn / 16 % 16
  let h := bv 4 hn
  let top := fn / 256 != 0
  let k := fun (bad : Bool) (i : Instr) => rejectIf (top || bad) .resv (.ok i)
  match fn % 16 with
  | 0 => k (hn != 0 || rb != 0) (.twany (reg rd) (reg ra))
  | 1 => k (hn != 0 || rb != 0 || rd != 0) (.twall (reg ra))
  | 2 => k (hn != 0 || rb != 0) (.tffr (reg rd) (reg ra))
  | 3 => k (rd != 0) (.rinit h (reg ra) (reg rb))
  | 4 => k (rb != 0) (.rwf (reg rd) h (reg ra))
  | 5 => k (rb != 0) (.rwe (reg rd) h (reg ra))
  | 6 => k (rd != 0 || rb != 0) (.radvp h (reg ra))
  | 7 => k (rd != 0 || rb != 0) (.radvc h (reg ra))
  | 8 => k (ra != 0 || rb != 0) (.recv (reg rd) h)
  | 9 => k false (.send (reg rd) h (reg ra) (reg rb))
  | _ => .error .badFn

/-- Majors 0x20 to 0x22 (R298, R357). -/
def decVecFloat (t : FLane) (fn : Nat) (vd va vb : Reg) : Dec :=
  let m := fMask fn
  let rz := fbit fn 5
  let k := fun (i : Instr) => rejectIf (maskResv fn) .resv (.ok i)
  let k1 := fun (i : Instr) => rejectIf (maskResv fn || vb != 0) .resv (.ok i)
  match fn % 32 with
  | 0 => k (.vaddFloat t vd va vb rz m)
  | 1 => k (.vsubFloat t vd va vb rz m)
  | 2 => k (.vmulFloat t vd va vb rz m)
  | 3 => k (.vfma t vd va vb rz m)
  | 4 => k (.vfnma t vd va vb rz m)
  | 5 => rejectIf rz .badFn (k (.vminFloat t vd va vb m))
  | 6 => rejectIf rz .badFn (k (.vmaxFloat t vd va vb m))
  | 7 => rejectIf rz .badFn (k1 (.vabs t vd va m))
  | 8 => rejectIf rz .badFn (k1 (.vneg t vd va m))
  | 9 => k (.vdiv t vd va vb rz m)
  | 10 => k1 (.vsqrt t vd va rz m)
  | _ => .error .badFn

/-- Majors 0x23 to 0x25 (R298, R358). -/
def decVecInt (t : ILane) (fn : Nat) (vd va vb : Reg) : Dec :=
  let m := fMask fn
  let n := fbit fn 5
  let k := fun (i : Instr) => rejectIf (maskResv fn) .resv (.ok i)
  let ks := fun (i : Instr) => rejectIf n .badFn (k i)
  match fn % 32 with
  | 0 => ks (.vaddInt t vd va vb m)
  | 1 => ks (.vsubInt t vd va vb m)
  | 2 => ks (.vmulInt t vd va vb m)
  | 3 => k (.vmulh t vd va vb n m)
  | 4 => k (.vminInt t vd va vb n m)
  | 5 => k (.vmaxInt t vd va vb n m)
  | 6 => ks (.vand t vd va vb m)
  | 7 => ks (.vor t vd va vb m)
  | 8 => ks (.vxor t vd va vb m)
  | 9 => ks (.vsll t vd va vb m)
  | 10 => ks (.vsrl t vd va vb m)
  | 11 => ks (.vsra t vd va vb m)
  | 12 => k (.vadds t vd va vb n m)
  | 13 => k (.vsubs t vd va vb n m)
  | _ => .error .badFn

/-- Major 0x26 (R359). -/
def decVcmp (fn rd : Nat) (va vb : Reg) : Dec :=
  let md := bv 3 rd
  let f := bv 4 fn
  let m := fMask fn
  rejectIf (!laneFormat (fn % 16)) .badFn (rejectIf (maskResv fn) .resv (rejectIf (8 ≤ rd) .badReg
    (.ok (match fn / 16 % 4 with
      | 0 => .vcmpeq md va vb f m | 1 => .vcmpne md va vb f m | 2 => .vcmplt md va vb f m | _ => .vcmple md va vb f m))))

/-- Major 0x27 (R360). -/
def decPermute (fn : Nat) (rd ra rb : Reg) : Dec :=
  let lane := bv 2 (fn / 16)
  let m := fMask fn
  let k := fun (bad : Bool) (i : Instr) => rejectIf (maskResv fn || bad) .resv (.ok i)
  match fn % 16 with
  | 0 => k (rb != 0) (.vmov lane rd ra m)
  | 1 => rejectIf (!fbit fn 9) .badFn (.ok (.vsel lane rd ra rb (bv 3 (fn / 64))))
  | 2 => k false (.vperm lane rd ra rb m)
  | 3 => k (rb != 0) (.vbcast lane rd ra m)
  | 4 => rejectIf (fbit fn 9) .badFn (k false (.vins lane rd ra rb))
  | 5 => rejectIf (fbit fn 9) .badFn (k false (.vext lane rd ra rb))
  | _ => .error .badFn

/-- Major 0x28 (R361); the part number p is the literal rb. -/
def decVcvt (fn rb : Nat) (vd va : Reg) : Dec :=
  rejectIf (!vcvtForm (fn / 64) (fn / 4 % 16) (fn % 4) rb) .badFn
    (.ok (.vcvt (bv 4 (fn / 64)) (bv 4 (fn / 4)) (bv 2 fn) vd va (bv 5 rb)))

/-- Major 0x29 (R363). -/
def decVred (fn : Nat) (rd va vb : Reg) : Dec :=
  let f := bv 4 fn
  let m := fMask fn
  rejectIf (!laneFormat (fn % 16)) .badFn (rejectIf (maskResv fn || vb != 0) .resv
    (.ok (match fn / 16 % 4 with
      | 0 => .vredadd rd va f m | 1 => .vredmin rd va f m | 2 => .vredmax rd va f m | _ => .vamax rd va f m)))

/-- Major 0x2a (R364 to R366). -/
def decQuant (fn6 x : Nat) (vd va rb : Reg) : Dec :=
  let mode := bv 2 (fn6 / 16)
  let d := fbit fn6 2
  rejectIf (fn6 / 16 = 3 || fbit fn6 3) .badFn
    (match fn6 % 4 with
     | 0 => rejectIf (rb != 0) .resv (xReq x (fun k => .ok (.vscc mode d vd va k)))
     | 1 => rejectIf (rb != 0) .resv (xReq x (fun k => .ok (.vquant mode d vd va k)))
     | 2 => rejectIf d .badFn (xReq x (fun k => .ok (.vfacm mode vd va rb k)))
     | _ => .error .badFn)

/-- Major 0x2b (R367). -/
def decMask (fn rd ra rb : Nat) : Dec :=
  let top := fn / 16 != 0
  let m := bv 3
  let k := fun (rsv badr : Bool) (i : Instr) => rejectIf (top || rsv) .resv (rejectIf badr .badReg (.ok i))
  match fn % 16 with
  | 0 => k false (8 ≤ rd || 8 ≤ ra || 8 ≤ rb) (.mand (m rd) (m ra) (m rb))
  | 1 => k false (8 ≤ rd || 8 ≤ ra || 8 ≤ rb) (.mor (m rd) (m ra) (m rb))
  | 2 => k false (8 ≤ rd || 8 ≤ ra || 8 ≤ rb) (.mxor (m rd) (m ra) (m rb))
  | 3 => k (rb != 0) (8 ≤ rd || 8 ≤ ra) (.mnot (m rd) (m ra))
  | 4 => k (rb != 0) (8 ≤ ra) (.mpop (reg rd) (m ra))
  | 5 => k (rb != 0) (8 ≤ ra) (.mfirst (reg rd) (m ra))
  | 6 => k (rb != 0) (8 ≤ rd) (.mset (m rd) (reg ra))
  | 7 => k (rb != 0) (8 ≤ ra) (.mget (reg rd) (m ra))
  | _ => .error .badFn

/-- Majors 0x2c to 0x30 (R375 to R379). -/
def decMm (fn6 x rd : Nat) (ra rb : Reg) : Dec :=
  rejectIf (!mmForm (fn6 / 16) (fbit fn6 3) (fbit fn6 2)) .badFn (rejectIf (fn6 % 4 != 0) .resv (rejectIf (4 ≤ rd) .badReg
    (xOpt x (fun k => .ok (.mm (bv 2 (fn6 / 16)) (fbit fn6 3) (fbit fn6 2) (bv 2 rd) ra rb k)))))
def decMmg (fn6 x rd : Nat) (ra rb : Reg) : Dec :=
  rejectIf (!mmForm (fn6 / 16) (fbit fn6 3) (fbit fn6 2)) .badFn (rejectIf (fn6 % 4 != 0) .resv (rejectIf (4 ≤ rd) .badReg
    (xReq x (fun k => .ok (.mmg (bv 2 (fn6 / 16)) (fbit fn6 3) (fbit fn6 2) (bv 2 rd) ra rb k)))))
def decMmQ (fn6 x rd : Nat) (ra rb : Reg) : Dec :=
  rejectIf (fn6 / 16 = 3) .badFn (rejectIf (fn6 % 4 != 0) .resv (rejectIf (4 ≤ rd) .badReg
    (xReq x (fun k => .ok (.mmQ (bv 2 (fn6 / 16)) (fbit fn6 3) (fbit fn6 2) (bv 2 rd) ra rb k)))))
def decAcc (fn rd ra rb : Nat) : Dec :=
  let f := fn / 64
  let mode := fn / 16 % 4
  match fn % 16 with
  | 0 => rejectIf (mode != 0 || f != 0) .badFn (rejectIf (rb != 0 || ra != 0) .resv (rejectIf (4 ≤ rd) .badReg
      (.ok (.aczero (bv 2 rd)))))
  | 1 => rejectIf (mode != 0 || !convFormat f) .badFn (rejectIf (rb != 0) .resv (rejectIf (4 ≤ rd) .badReg
      (.ok (.acld (bv 4 f) (bv 2 rd) (reg ra)))))
  | 2 => rejectIf (2 ≤ mode || !convFormat f) .badFn (rejectIf (rb != 0) .resv (rejectIf (4 ≤ rd) .badReg
      (.ok (.acst (bv 4 f) (mode = 1) (bv 2 rd) (reg ra)))))
  | _ => .error .badFn
def decScacc (fn6 x rd ra rb : Nat) : Dec :=
  let h := fbit fn6 2
  let rz := fbit fn6 0
  if fbit fn6 1 then
    rejectIf (fn6 / 8 != 0 || ra / 8 != 0 || rb != 0) .resv (rejectIf (4 ≤ rd) .badReg
      (xReq x (fun k => .ok (.scaccXreg h rz (bv 2 rd) (bv 2 ra) (fbit ra 2) k))))
  else
    rejectIf (fn6 / 8 != 0 || ra / 8 != 0 || x != 0) .resv (rejectIf (4 ≤ rd || (!h && rb = 31)) .badReg
      (.ok (.scaccVector h rz (bv 2 rd) (bv 2 ra) (fbit ra 2) (reg rb))))

/-- Majors 0x34 and 0x35 (R385, R391). -/
def decCopy (fn6 x rd : Nat) (ra rb : Reg) : Dec :=
  let t := fTag fn6 rd
  rejectIf (4 ≤ fn6 % 8) .badFn (rejectIf (fn6 / 8 % 4 != 0) .resv
    (xReq x (fun k => .ok (match fn6 % 8 with
      | 0 => .cpy t ra rb k | 1 => .cpy2 t ra rb k | 2 => .cpyg t ra rb k | _ => .cpys t ra rb k))))
def decOffload (fn6 x rd : Nat) (ra rb : Reg) : Dec :=
  let t := fTag fn6 rd
  let l := bv 3 (fn6 / 2)
  if fbit fn6 0 then rejectIf (fbit fn6 4 || rb != 0 || x != 0) .resv (.ok (.cpyr t l ra))
  else xReq x (fun k => .ok (.cpyl t (fbit fn6 4) l ra rb k))

/-- Major 0x38 (R394). -/
def decEvent (fn : Nat) (rd ra rb : Reg) : Dec :=
  let idx := fn / 16 % 32
  match fn % 16 with
  | 0 => rejectIf (24 ≤ idx) .badFn (rejectIf (fbit fn 9 || rd != 0 || rb != 0) .resv (.ok (.evterm (bv 5 idx) ra)))
  | 1 => rejectIf (idx < 24 || 28 ≤ idx) .badFn (rejectIf (fbit fn 9 || rd != 0) .resv (.ok (.evarm (bv 2 idx) ra rb)))
  | 2 => rejectIf (28 ≤ idx) .badFn (rejectIf (fbit fn 9 || ra != 0 || rb != 0) .resv (.ok (.evclr rd (bv 5 idx))))
  | _ => .error .badFn

/-- Major 0x39 (R398). -/
def decLaunch (fn : Nat) (rd ra rb : Reg) : Dec :=
  match fn % 4 with
  | 0 => rejectIf (fn / 4 != 0 || rb != 0) .resv (.ok (.launch rd ra))
  | 1 => rejectIf (fn / 4 != 0 || rb != 0) .resv (.ok (.launchRel rd ra))
  | 2 => rejectIf (fn / 16 != 0 || rd != 0) .resv (.ok (.hsig (bv 2 (fn / 4)) ra rb))
  | _ => .error .badFn

/-- Major 0x3a (R401). -/
def decPromise (fn6 x : Nat) (rd ra rb : Reg) : Dec :=
  match fn6 % 4 with
  | 0 => rejectIf (fn6 / 8 != 0) .resv (xReq x (fun k => .ok (.propen (fbit fn6 2) rd ra rb k)))
  | 1 => rejectIf (fn6 / 4 != 0 || x != 0) .resv (.ok (.predeem rd ra rb))
  | 2 => rejectIf (fn6 / 4 != 0 || x != 0 || rb != 0) .resv (.ok (.pquery rd ra))
  | _ => rejectIf (fn6 / 4 != 0 || x != 0 || rb != 0) .resv (.ok (.pretract rd ra))

/-- Major 0x3b (R118). -/
def decContest (fn : Nat) (rd ra rb : Reg) : Dec :=
  match fn % 16 with
  | 0 => rejectIf (fn / 16 != 0 || rd != 0) .resv (.ok (.ctarmRaw ra rb))
  | 4 => rejectIf (fn / 16 != 0 || rd != 0) .resv (.ok (.ctarmAmax ra rb))
  | 8 => rejectIf (fn / 16 != 0 || rd != 0) .resv (.ok (.ctarmMin ra rb))
  | 1 => rejectIf (fn / 16 != 0 || ra != 0) .resv (.ok (.ctresW rd rb))
  | 5 => rejectIf (fn / 16 != 0 || ra != 0) .resv (.ok (.ctresId rd rb))
  | 2 => rejectIf (fn / 16 != 0 || ra != 0) .resv (.ok (.ctcancel rd rb))
  | _ => .error .badFn

/-- Major 0x3c (R316 to R320). -/
def decContext (fn : Nat) (rd ra rb : Reg) : Dec :=
  let all := fn / 16 != 0 || rd != 0 || ra != 0 || rb != 0
  match fn % 16 with
  | 0 => rejectIf (fn / 16 != 0) .resv (.ok (.start rd ra rb))
  | 1 => rejectIf (fn / 16 != 0 || rb != 0) .resv (.ok (.hjoin rd ra))
  | 2 => rejectIf all .resv (.ok .halt)
  | 3 => rejectIf all .resv (.ok .yield)
  | 4 => rejectIf all .resv (.ok .follow)
  | 5 => rejectIf all .resv (.ok .unfollow)
  | _ => .error .badFn

/-- Major 0x3d (R322 to R327). -/
def decSystem (imm : Nat) (rd ra : Reg) : Dec :=
  let n := bv 12 imm
  match imm / 4096 with
  | 0 => rejectIf (ra != 0) .resv (.ok (.mfsr rd n))
  | 1 => rejectIf (rd != 0) .resv (.ok (.mtsr n ra))
  | 2 => rejectIf (rd != 0) .resv (.ok (.trap n ra))
  | 3 => rejectIf (rd != 0 || ra != 0) .resv (.ok (.brk n))
  | 4 => rejectIf (n != 0 || rd != 0 || ra != 0) .resv (.ok .wfe)
  | 5 => rejectIf (n != 0 || rd != 0 || ra != 0) .resv (.ok .nop)
  | _ => .error .badFn

/-- Major 0x3e (R328). -/
def decExt (imm rd : Nat) (ra : Reg) : Dec :=
  if fbit imm 14 then rejectIf (8 ≤ rd) .badReg (.ok (.xld (bv 3 rd) ra (bv 14 imm)))
  else rejectIf (imm % 16384 != 0) .resv (rejectIf (8 ≤ rd) .badReg (.ok (.xset (bv 3 rd) ra)))

/-- A 32-bit word (R296). -/
def decode32 (w : Nat) : Dec :=
  let rd := reg (fRd w)
  let ra := reg (fRa w)
  let rb := reg (fRb w)
  match fMajor w with
  | 0x00 => decInt (fFn10 w) rd ra rb
  | 0x01 => .ok (.addi rd ra (bv 15 (fImm15 w)))
  | 0x02 => .ok (.andi rd ra (bv 15 (fImm15 w)))
  | 0x03 => .ok (.ori rd ra (bv 15 (fImm15 w)))
  | 0x04 => .ok (.xori rd ra (bv 15 (fImm15 w)))
  | 0x05 => decShiftImm (fImm15 w) rd ra
  | 0x06 => .ok (.lui rd (bv 20 (fImm20 w)))
  | 0x07 => .ok (.jalr rd ra (bv 15 (fImm15 w)))
  | 0x08 => .ok (.beq ra rd (bv 15 (fImm15 w)))
  | 0x09 => .ok (.bne ra rd (bv 15 (fImm15 w)))
  | 0x0a => .ok (.blt ra rd (bv 15 (fImm15 w)))
  | 0x0b => .ok (.bge ra rd (bv 15 (fImm15 w)))
  | 0x0c => .ok (.bltu ra rd (bv 15 (fImm15 w)))
  | 0x0d => .ok (.bgeu ra rd (bv 15 (fImm15 w)))
  | 0x0e => .ok (.j (bv 25 (fOff25 w)))
  | 0x0f => .ok (.jal (bv 25 (fOff25 w)))
  | 0x10 => decLd (fImm15 w) rd ra
  | 0x11 => decSt (fImm15 w) rd ra
  | 0x12 => decIndexed (fFn10 w) rd ra rb
  | 0x13 => decRingSlot (fImm15 w) (fRa w) rd
  | 0x14 => decVecAcc (fImm15 w) (fRd w) ra
  | 0x15 => decTile (fImm15 w) (fRd w) ra
  | 0x18 => decGetPut (fFn6 w) (fXsel w) (fRd w) ra rb
  | 0x19 => decRatom (fFn10 w) rd ra rb
  | 0x1a => decLines (fFn10 w) (fRd w) ra rb
  | 0x1b => decCollective (fFn6 w) (fXsel w) (fRd w) ra rb
  | 0x1c => decAmo (fFn10 w) rd ra rb
  | 0x1d => decSync (fFn10 w) (fRd w) (fRa w) (fRb w)
  | 0x1e => decFence (fFn10 w) (fRd w) (fRa w) (fRb w)
  | 0x1f => decRing (fFn10 w) (fRd w) (fRa w) (fRb w)
  | 0x20 => decVecFloat .f (fFn10 w) rd ra rb
  | 0x21 => decVecFloat .bf (fFn10 w) rd ra rb
  | 0x22 => decVecFloat .h (fFn10 w) rd ra rb
  | 0x23 => decVecInt .w32 (fFn10 w) rd ra rb
  | 0x24 => decVecInt .w16 (fFn10 w) rd ra rb
  | 0x25 => decVecInt .w8 (fFn10 w) rd ra rb
  | 0x26 => decVcmp (fFn10 w) (fRd w) ra rb
  | 0x27 => decPermute (fFn10 w) rd ra rb
  | 0x28 => decVcvt (fFn10 w) (fRb w) rd ra
  | 0x29 => decVred (fFn10 w) rd ra rb
  | 0x2a => decQuant (fFn6 w) (fXsel w) rd ra rb
  | 0x2b => decMask (fFn10 w) (fRd w) (fRa w) (fRb w)
  | 0x2c => decMm (fFn6 w) (fXsel w) (fRd w) ra rb
  | 0x2d => decMmg (fFn6 w) (fXsel w) (fRd w) ra rb
  | 0x2e => decMmQ (fFn6 w) (fXsel w) (fRd w) ra rb
  | 0x2f => decAcc (fFn10 w) (fRd w) (fRa w) (fRb w)
  | 0x30 => decScacc (fFn6 w) (fXsel w) (fRd w) (fRa w) (fRb w)
  | 0x34 => decCopy (fFn6 w) (fXsel w) (fRd w) ra rb
  | 0x35 => decOffload (fFn6 w) (fXsel w) (fRd w) ra rb
  | 0x38 => decEvent (fFn10 w) rd ra rb
  | 0x39 => decLaunch (fFn10 w) rd ra rb
  | 0x3a => decPromise (fFn6 w) (fXsel w) rd ra rb
  | 0x3b => decContest (fFn10 w) rd ra rb
  | 0x3c => decContext (fFn10 w) rd ra rb
  | 0x3d => decSystem (fImm15 w) rd ra
  | 0x3e => decExt (fImm15 w) (fRd w) ra
  | _ => .error .noMajor

/-- A 16-bit word (R295). -/
def decode16 (w : Nat) : Dec :=
  let rd := bv 4 (w / 32)
  let ra := bv 4 (w / 512)
  let k := fun (i : Instr) => rejectIf (w / 8192 % 8 != 0) .resv (.ok i)
  if w % 65536 = 0 then .error .zero else
  match w / 2 % 16 with
  | 0 => .ok (.addiCS0 rd (bv 7 (w / 512)))
  | 1 => .ok (.addiC rd (bv 7 (w / 512)))
  | 2 => k (.addCS0 rd ra)
  | 3 => k (.addC rd ra)
  | 4 => k (.subC rd ra)
  | 5 => k (.andC rd ra)
  | 6 => k (.orC rd ra)
  | 7 => k (.xorC rd ra)
  | 8 => rejectIf (w / 32768 % 2 != 0) .resv (.ok (.slliC rd (bv 6 (w / 512))))
  | 9 => .ok (.ldDC rd (bv 4 (w / 4096)) (bv 3 (w / 512)))
  | 10 => .ok (.stDC rd (bv 4 (w / 4096)) (bv 3 (w / 512)))
  | 11 => .ok (.beqC rd (bv 7 (w / 512)))
  | 12 => .ok (.bneC rd (bv 7 (w / 512)))
  | 13 => .ok (.jC (bv 11 (w / 32)))
  | 14 => rejectIf (w / 512 % 128 != 0) .resv (.ok (.jrC rd))
  | _ => .ok (.andiC rd (bv 7 (w / 512)))

/-- The number a halfword or word of bytes holds, and its length in bytes (R288): `none` when the second halfword of a
32-bit word is missing. -/
def wordOf : List Byte → Option (Nat × Nat)
  | a :: b :: r =>
    let lo := a.toNat + 256 * b.toNat
    if lo % 2 = 0 then some (lo, 2)
    else match r with
      | c :: d :: _ => some (lo + 65536 * (c.toNat + 256 * d.toNat), 4)
      | _ => none
  | _ => none

/-- Decode the instruction that bytes begin with: the instruction, its word and its length in bytes. -/
def decodeBytes (bs : List Byte) : Except DecErr (Instr × BitVec 32 × Nat) :=
  match wordOf bs with
  | none => .error .imEnd
  | some (w, n) =>
    match (if n = 2 then decode16 w else decode32 w) with
    | .error e => .error e
    | .ok i => .ok (i, BitVec.ofNat 32 w, n)

/-- The bytes of a word as IM holds it: each halfword little-endian, the first at the lowest address. -/
def layWord (w : Nat) : List Byte :=
  [BitVec.ofNat 8 w, BitVec.ofNat 8 (w / 256), BitVec.ofNat 8 (w / 65536), BitVec.ofNat 8 (w / 16777216)]

/-- What the decoder reads from an instruction whose bits are `w`, numbered as spec/opcode_table.json numbers them. -/
def decodeTableWord (nbits w : Nat) : Option Instr :=
  match decodeBytes (layWord (w % 2 ^ nbits)) with
  | .ok (i, _, _) => some i
  | .error _ => none

/-! ### The encoder -/

def encR (major fn rb ra rd : Nat) : Nat := 1 + 2 * major + 128 * rd + 4096 * ra + 131072 * rb + 4194304 * fn
def encI (major imm ra rd : Nat) : Nat := 1 + 2 * major + 128 * rd + 4096 * ra + 131072 * imm
def encE (major x fn6 rb ra rd : Nat) : Nat := 1 + 2 * major + 128 * rd + 4096 * ra + 131072 * rb + 4194304 * fn6 + 268435456 * x
def encJ (major off : Nat) : Nat := 1 + 2 * major + 128 * off
def encU (major imm rd : Nat) : Nat := 1 + 2 * major + 128 * rd + 4096 * imm
def encC (op f : Nat) : Nat := 2 * op + 32 * f

def bn (b : Bool) : Nat := if b then 1 else 0
def encMask : Option (BitVec 3) → Nat | none => 0 | some m => 512 + 64 * m.toNat
def encX : Option (BitVec 3) → Nat | none => 0 | some x => x.toNat + 1
def encFLane : FLane → Nat | .f => 0x20 | .bf => 0x21 | .h => 0x22
def encILane : ILane → Nat | .w32 => 0x23 | .w16 => 0x24 | .w8 => 0x25

def encRatom (op : Nat) (rd ra rb : Reg) (scope : BitVec 3) (rel ret d : Bool) : Nat :=
  encR 0x19 (128 * scope.toNat + 64 * bn rel + 32 * bn ret + 16 * bn d + op) rb.toNat ra.toNat rd.toNat
def encAmo (op : Nat) (rd ra rb : Reg) (scope : BitVec 3) (ord : BitVec 2) (d : Bool) : Nat :=
  encR 0x1c (128 * scope.toNat + 32 * ord.toNat + 16 * bn d + op) rb.toNat ra.toNat rd.toNat
def encVF (t : FLane) (op : Nat) (vd va vb : Nat) (rz : Bool) (m : Option (BitVec 3)) : Nat :=
  encR (encFLane t) (encMask m + 32 * bn rz + op) vb va vd
def encVI (t : ILane) (op : Nat) (vd va vb : Reg) (n : Bool) (m : Option (BitVec 3)) : Nat :=
  encR (encILane t) (encMask m + 32 * bn n + op) vb.toNat va.toNat vd.toNat
def encTag (major op : Nat) (t : BitVec 6) (ra rb : Reg) (x : Nat) : Nat :=
  encE major x (t.toNat / 32 * 32 + op) rb.toNat ra.toNat (t.toNat % 32)
def encCmp (cond : Nat) (md : BitVec 3) (va vb : Reg) (fmt : BitVec 4) (m : Option (BitVec 3)) : Nat :=
  encR 0x26 (encMask m + 16 * cond + fmt.toNat) vb.toNat va.toNat md.toNat
def encRed (op : Nat) (rd va : Reg) (fmt : BitVec 4) (m : Option (BitVec 3)) : Nat :=
  encR 0x29 (encMask m + 16 * op + fmt.toNat) 0 va.toNat rd.toNat
def encPerm (op : Nat) (lane : BitVec 2) (m : Option (BitVec 3)) (rd ra rb : Nat) : Nat :=
  encR 0x27 (encMask m + 16 * lane.toNat + op) rb ra rd
def encBr (major : Nat) (ra rb : Reg) (off : BitVec 15) : Nat := encI major off.toNat ra.toNat rb.toNat
def encAcc4 (op : Nat) (rd ra : BitVec 4) : Nat := encC op (rd.toNat + 16 * ra.toNat)

/-- The length in bytes and the word of a well-formed instruction; an event has no word. -/
def encode : Instr → Option (Nat × Nat)
  | .add rd ra rb => some (4, encR 0x00 0 rb.toNat ra.toNat rd.toNat)
  | .sub rd ra rb => some (4, encR 0x00 1 rb.toNat ra.toNat rd.toNat)
  | .and rd ra rb => some (4, encR 0x00 2 rb.toNat ra.toNat rd.toNat)
  | .or rd ra rb => some (4, encR 0x00 3 rb.toNat ra.toNat rd.toNat)
  | .xor rd ra rb => some (4, encR 0x00 4 rb.toNat ra.toNat rd.toNat)
  | .sll rd ra rb => some (4, encR 0x00 5 rb.toNat ra.toNat rd.toNat)
  | .srl rd ra rb => some (4, encR 0x00 6 rb.toNat ra.toNat rd.toNat)
  | .sra rd ra rb => some (4, encR 0x00 7 rb.toNat ra.toNat rd.toNat)
  | .slt rd ra rb => some (4, encR 0x00 8 rb.toNat ra.toNat rd.toNat)
  | .sltu rd ra rb => some (4, encR 0x00 9 rb.toNat ra.toNat rd.toNat)
  | .mul rd ra rb => some (4, encR 0x00 16 rb.toNat ra.toNat rd.toNat)
  | .mulh rd ra rb => some (4, encR 0x00 17 rb.toNat ra.toNat rd.toNat)
  | .mulhN rd ra rb => some (4, encR 0x00 18 rb.toNat ra.toNat rd.toNat)
  | .div rd ra rb => some (4, encR 0x00 19 rb.toNat ra.toNat rd.toNat)
  | .divN rd ra rb => some (4, encR 0x00 20 rb.toNat ra.toNat rd.toNat)
  | .rem rd ra rb => some (4, encR 0x00 21 rb.toNat ra.toNat rd.toNat)
  | .remN rd ra rb => some (4, encR 0x00 22 rb.toNat ra.toNat rd.toNat)
  | .min rd ra rb => some (4, encR 0x00 24 rb.toNat ra.toNat rd.toNat)
  | .max rd ra rb => some (4, encR 0x00 25 rb.toNat ra.toNat rd.toNat)
  | .minN rd ra rb => some (4, encR 0x00 26 rb.toNat ra.toNat rd.toNat)
  | .maxN rd ra rb => some (4, encR 0x00 27 rb.toNat ra.toNat rd.toNat)
  | .addi rd ra imm => some (4, encI 1 imm.toNat ra.toNat rd.toNat)
  | .andi rd ra imm => some (4, encI 2 imm.toNat ra.toNat rd.toNat)
  | .ori rd ra imm => some (4, encI 3 imm.toNat ra.toNat rd.toNat)
  | .xori rd ra imm => some (4, encI 4 imm.toNat ra.toNat rd.toNat)
  | .slli rd ra sh => some (4, encI 5 (0 + sh.toNat) ra.toNat rd.toNat)
  | .srli rd ra sh => some (4, encI 5 (4096 + sh.toNat) ra.toNat rd.toNat)
  | .srai rd ra sh => some (4, encI 5 (8192 + sh.toNat) ra.toNat rd.toNat)
  | .slti rd ra imm => some (4, encI 5 (12288 + imm.toNat) ra.toNat rd.toNat)
  | .sltiu rd ra imm => some (4, encI 5 (16384 + imm.toNat) ra.toNat rd.toNat)
  | .lui rd imm => some (4, encU 6 imm.toNat rd.toNat)
  | .jalr rd ra imm => some (4, encI 7 imm.toNat ra.toNat rd.toNat)
  | .beq ra rb off => some (4, encBr 8 ra rb off)
  | .bne ra rb off => some (4, encBr 9 ra rb off)
  | .blt ra rb off => some (4, encBr 10 ra rb off)
  | .bge ra rb off => some (4, encBr 11 ra rb off)
  | .bltu ra rb off => some (4, encBr 12 ra rb off)
  | .bgeu ra rb off => some (4, encBr 13 ra rb off)
  | .j off => some (4, encJ 0x0e off.toNat)
  | .jal off => some (4, encJ 0x0f off.toNat)
  | .ld rd ra off hint w => some (4, encI 0x10 (32 * off.toNat + 8 * hint.toNat + w.toNat) ra.toNat rd.toNat)
  | .st rd ra off hint w => some (4, encI 0x11 (32 * off.toNat + 8 * hint.toNat + w.toNat) ra.toNat rd.toNat)
  | .ldIndexed rd ra rb acq scope w hint => some (4, encR 0x12 (256 * bn acq + 32 * scope.toNat + 4 * w.toNat + hint.toNat) rb.toNat ra.toNat rd.toNat)
  | .stIndexed rd ra rb rel scope w hint => some (4, encR 0x12 (512 + 256 * bn rel + 32 * scope.toNat + 4 * w.toNat + hint.toNat) rb.toNat ra.toNat rd.toNat)
  | .ldRingSlot rd h k off w => some (4, encI 0x13 (2048 * k.toNat + 8 * off.toNat + w.toNat) h.toNat rd.toNat)
  | .stRingSlot rd h k off w => some (4, encI 0x13 (2048 * k.toNat + 8 * off.toNat + 4 + w.toNat) h.toNat rd.toNat)
  | .ldv vd ra off hint => some (4, encI 0x14 (32 * off.toNat + 8 * hint.toNat + 0) ra.toNat vd.toNat)
  | .stv vd ra off hint => some (4, encI 0x14 (32 * off.toNat + 8 * hint.toNat + 4) ra.toNat vd.toNat)
  | .ldvPair vd ra off hint => some (4, encI 0x14 (32 * off.toNat + 8 * hint.toNat + 1) ra.toNat vd.toNat)
  | .stvPair vd ra off hint => some (4, encI 0x14 (32 * off.toNat + 8 * hint.toNat + 5) ra.toNat vd.toNat)
  | .ldt hi ra off t => some (4, encI 0x15 (32 * off.toNat + 16 * bn t + 0) ra.toNat (16 * bn hi))
  | .stt hi ra off t => some (4, encI 0x15 (32 * off.toNat + 16 * bn t + 8) ra.toNat (16 * bn hi))
  | .get t ra rb x => some (4, encTag 0x18 0 t ra rb (x.toNat + 1))
  | .put t ra rb x => some (4, encTag 0x18 1 t ra rb (x.toNat + 1))
  | .mldred t ra rb x => some (4, encTag 0x1b 0 t ra rb (x.toNat + 1))
  | .mcst t ra rb x => some (4, encTag 0x1b 1 t ra rb (x.toNat + 1))
  | .cpy t ra rb x => some (4, encTag 0x34 0 t ra rb (x.toNat + 1))
  | .cpy2 t ra rb x => some (4, encTag 0x34 1 t ra rb (x.toNat + 1))
  | .cpyg t ra rb x => some (4, encTag 0x34 2 t ra rb (x.toNat + 1))
  | .cpys t ra rb x => some (4, encTag 0x34 3 t ra rb (x.toNat + 1))
  | .ratomAdd rd ra rb scope rel ret d => some (4, encRatom 0 rd ra rb scope rel ret d)
  | .ratomAnd rd ra rb scope rel ret d => some (4, encRatom 1 rd ra rb scope rel ret d)
  | .ratomOr rd ra rb scope rel ret d => some (4, encRatom 2 rd ra rb scope rel ret d)
  | .ratomXor rd ra rb scope rel ret d => some (4, encRatom 3 rd ra rb scope rel ret d)
  | .ratomMin rd ra rb scope rel ret d => some (4, encRatom 4 rd ra rb scope rel ret d)
  | .ratomMax rd ra rb scope rel ret d => some (4, encRatom 5 rd ra rb scope rel ret d)
  | .ratomMinN rd ra rb scope rel ret d => some (4, encRatom 6 rd ra rb scope rel ret d)
  | .ratomMaxN rd ra rb scope rel ret d => some (4, encRatom 7 rd ra rb scope rel ret d)
  | .ratomSwap rd ra rb scope rel ret d => some (4, encRatom 8 rd ra rb scope rel ret d)
  | .ratomFadd rd ra rb scope rel ret => some (4, encRatom 10 rd ra rb scope rel ret false)
  | .amoAdd rd ra rb scope ord d => some (4, encAmo 0 rd ra rb scope ord d)
  | .amoAnd rd ra rb scope ord d => some (4, encAmo 1 rd ra rb scope ord d)
  | .amoOr rd ra rb scope ord d => some (4, encAmo 2 rd ra rb scope ord d)
  | .amoXor rd ra rb scope ord d => some (4, encAmo 3 rd ra rb scope ord d)
  | .amoMin rd ra rb scope ord d => some (4, encAmo 4 rd ra rb scope ord d)
  | .amoMax rd ra rb scope ord d => some (4, encAmo 5 rd ra rb scope ord d)
  | .amoMinN rd ra rb scope ord d => some (4, encAmo 6 rd ra rb scope ord d)
  | .amoMaxN rd ra rb scope ord d => some (4, encAmo 7 rd ra rb scope ord d)
  | .amoSwap rd ra rb scope ord d => some (4, encAmo 8 rd ra rb scope ord d)
  | .amoCas rd ra rb scope ord d => some (4, encAmo 9 rd ra rb scope ord d)
  | .amoFadd rd ra rb scope ord => some (4, encAmo 10 rd ra rb scope ord false)
  | .rwb ra rb => some (4, encR 0x1a 0 rb.toNat ra.toNat 0)
  | .rinv ra rb => some (4, encR 0x1a 1 rb.toNat ra.toNat 0)
  | .cadd ra rb => some (4, encR 0x1d 0 rb.toNat ra.toNat 0)
  | .caddRel ra rb scope => some (4, encR 0x1d (128 * scope.toNat + 16) rb.toNat ra.toNat 0)
  | .cwait ra rb => some (4, encR 0x1d 1 rb.toNat ra.toNat 0)
  | .cwaitAcq ra rb scope => some (4, encR 0x1d (128 * scope.toNat + 17) rb.toNat ra.toNat 0)
  | .cread rd ra => some (4, encR 0x1d 2 0 ra.toNat rd.toNat)
  | .barrRlx rd b => some (4, encR 0x1d 3 b.toNat 0 rd.toNat)
  | .barrRel rd b => some (4, encR 0x1d 19 b.toNat 0 rd.toNat)
  | .bwait b ra => some (4, encR 0x1d 4 b.toNat ra.toNat 0)
  | .bmiss rd b ra => some (4, encR 0x1d 5 b.toNat ra.toNat rd.toNat)
  | .sstep rd level => some (4, encR 0x1d (128 * level.toNat + 6) 0 0 rd.toNat)
  | .binit b ra rd => some (4, encR 0x1d 7 b.toNat ra.toNat rd.toNat)
  | .fenceAcq scope => some (4, encR 0x1e (4 * scope.toNat + 0) 0 0 0)
  | .fenceRel scope => some (4, encR 0x1e (4 * scope.toNat + 1) 0 0 0)
  | .fenceAr scope => some (4, encR 0x1e (4 * scope.toNat + 2) 0 0 0)
  | .fenceSc scope => some (4, encR 0x1e (4 * scope.toNat + 3) 0 0 0)
  | .twany rd ra => some (4, encR 0x1f 0 0 ra.toNat rd.toNat)
  | .twall ra => some (4, encR 0x1f 1 0 ra.toNat 0)
  | .tffr rd ra => some (4, encR 0x1f 2 0 ra.toNat rd.toNat)
  | .rinit h ra rb => some (4, encR 0x1f (16 * h.toNat + 3) rb.toNat ra.toNat 0)
  | .rwf rd h ra => some (4, encR 0x1f (16 * h.toNat + 4) 0 ra.toNat rd.toNat)
  | .rwe rd h ra => some (4, encR 0x1f (16 * h.toNat + 5) 0 ra.toNat rd.toNat)
  | .radvp h ra => some (4, encR 0x1f (16 * h.toNat + 6) 0 ra.toNat 0)
  | .radvc h ra => some (4, encR 0x1f (16 * h.toNat + 7) 0 ra.toNat 0)
  | .recv rd h => some (4, encR 0x1f (16 * h.toNat + 8) 0 0 rd.toNat)
  | .send rd h ra rb => some (4, encR 0x1f (16 * h.toNat + 9) rb.toNat ra.toNat rd.toNat)
  | .vaddFloat t vd va vb rz m => some (4, encVF t 0 vd.toNat va.toNat vb.toNat rz m)
  | .vsubFloat t vd va vb rz m => some (4, encVF t 1 vd.toNat va.toNat vb.toNat rz m)
  | .vmulFloat t vd va vb rz m => some (4, encVF t 2 vd.toNat va.toNat vb.toNat rz m)
  | .vfma t vd va vb rz m => some (4, encVF t 3 vd.toNat va.toNat vb.toNat rz m)
  | .vfnma t vd va vb rz m => some (4, encVF t 4 vd.toNat va.toNat vb.toNat rz m)
  | .vdiv t vd va vb rz m => some (4, encVF t 9 vd.toNat va.toNat vb.toNat rz m)
  | .vminFloat t vd va vb m => some (4, encVF t 5 vd.toNat va.toNat vb.toNat false m)
  | .vmaxFloat t vd va vb m => some (4, encVF t 6 vd.toNat va.toNat vb.toNat false m)
  | .vabs t vd va m => some (4, encVF t 7 vd.toNat va.toNat 0 false m)
  | .vneg t vd va m => some (4, encVF t 8 vd.toNat va.toNat 0 false m)
  | .vsqrt t vd va rz m => some (4, encVF t 10 vd.toNat va.toNat 0 rz m)
  | .vaddInt t vd va vb m => some (4, encVI t 0 vd va vb false m)
  | .vsubInt t vd va vb m => some (4, encVI t 1 vd va vb false m)
  | .vmulInt t vd va vb m => some (4, encVI t 2 vd va vb false m)
  | .vand t vd va vb m => some (4, encVI t 6 vd va vb false m)
  | .vor t vd va vb m => some (4, encVI t 7 vd va vb false m)
  | .vxor t vd va vb m => some (4, encVI t 8 vd va vb false m)
  | .vsll t vd va vb m => some (4, encVI t 9 vd va vb false m)
  | .vsrl t vd va vb m => some (4, encVI t 10 vd va vb false m)
  | .vsra t vd va vb m => some (4, encVI t 11 vd va vb false m)
  | .vmulh t vd va vb n m => some (4, encVI t 3 vd va vb n m)
  | .vminInt t vd va vb n m => some (4, encVI t 4 vd va vb n m)
  | .vmaxInt t vd va vb n m => some (4, encVI t 5 vd va vb n m)
  | .vadds t vd va vb n m => some (4, encVI t 12 vd va vb n m)
  | .vsubs t vd va vb n m => some (4, encVI t 13 vd va vb n m)
  | .vcmpeq md va vb fmt m => some (4, encCmp 0 md va vb fmt m)
  | .vcmpne md va vb fmt m => some (4, encCmp 1 md va vb fmt m)
  | .vcmplt md va vb fmt m => some (4, encCmp 2 md va vb fmt m)
  | .vcmple md va vb fmt m => some (4, encCmp 3 md va vb fmt m)
  | .vmov lane vd va m => some (4, encPerm 0 lane m vd.toNat va.toNat 0)
  | .vsel lane vd va vb m => some (4, encPerm 1 lane (some m) vd.toNat va.toNat vb.toNat)
  | .vperm lane vd va vb m => some (4, encPerm 2 lane m vd.toNat va.toNat vb.toNat)
  | .vbcast lane vd ra m => some (4, encPerm 3 lane m vd.toNat ra.toNat 0)
  | .vins lane vd ra rb => some (4, encPerm 4 lane none vd.toNat ra.toNat rb.toNat)
  | .vext lane rd va rb => some (4, encPerm 5 lane none rd.toNat va.toNat rb.toNat)
  | .vcvt s d mode vd va p => some (4, encR 0x28 (64 * s.toNat + 4 * d.toNat + mode.toNat) p.toNat va.toNat vd.toNat)
  | .vredadd rd va fmt m => some (4, encRed 0 rd va fmt m)
  | .vredmin rd va fmt m => some (4, encRed 1 rd va fmt m)
  | .vredmax rd va fmt m => some (4, encRed 2 rd va fmt m)
  | .vamax rd va fmt m => some (4, encRed 3 rd va fmt m)
  | .vscc mode e5 vd va x => some (4, encE 0x2a (x.toNat + 1) (16 * mode.toNat + 4 * bn e5) 0 va.toNat vd.toNat)
  | .vquant mode q8 vd va x => some (4, encE 0x2a (x.toNat + 1) (16 * mode.toNat + 4 * bn q8 + 1) 0 va.toNat vd.toNat)
  | .vfacm mode vd va rb x => some (4, encE 0x2a (x.toNat + 1) (16 * mode.toNat + 2) rb.toNat va.toNat vd.toNat)
  | .mand md ma mb => some (4, encR 0x2b 0 mb.toNat ma.toNat md.toNat)
  | .mor md ma mb => some (4, encR 0x2b 1 mb.toNat ma.toNat md.toNat)
  | .mxor md ma mb => some (4, encR 0x2b 2 mb.toNat ma.toNat md.toNat)
  | .mnot md ma => some (4, encR 0x2b 3 0 ma.toNat md.toNat)
  | .mpop rd ma => some (4, encR 0x2b 4 0 ma.toNat rd.toNat)
  | .mfirst rd ma => some (4, encR 0x2b 5 0 ma.toNat rd.toNat)
  | .mset md ra => some (4, encR 0x2b 6 0 ra.toNat md.toNat)
  | .mget rd ma => some (4, encR 0x2b 7 0 ma.toNat rd.toNat)
  | .mm cls a1 b1 ad ra rb x => some (4, encE 0x2c (encX x) (16 * cls.toNat + 8 * bn a1 + 4 * bn b1) rb.toNat ra.toNat ad.toNat)
  | .mmg cls a1 b1 ad ra rb x => some (4, encE 0x2d (x.toNat + 1) (16 * cls.toNat + 8 * bn a1 + 4 * bn b1) rb.toNat ra.toNat ad.toNat)
  | .mmQ group a8 b8 ad ra rb x => some (4, encE 0x2e (x.toNat + 1) (16 * group.toNat + 8 * bn a8 + 4 * bn b8) rb.toNat ra.toNat ad.toNat)
  | .aczero ad => some (4, encR 0x2f 0 0 0 ad.toNat)
  | .acld fmt ad ra => some (4, encR 0x2f (64 * fmt.toNat + 1) 0 ra.toNat ad.toNat)
  | .acst fmt rz ad ra => some (4, encR 0x2f (64 * fmt.toNat + 16 * bn rz + 2) 0 ra.toNat ad.toNat)
  | .scaccVector h rz ad as i vb => some (4, encE 0x30 0 (4 * bn h + bn rz) vb.toNat (4 * bn i + as.toNat) ad.toNat)
  | .scaccXreg h rz ad as i x => some (4, encE 0x30 (x.toNat + 1) (4 * bn h + 2 + bn rz) 0 (4 * bn i + as.toNat) ad.toNat)
  | .cpyl t r list ra rb x => some (4, encE 0x35 (x.toNat + 1) (t.toNat / 32 * 32 + 16 * bn r + 2 * list.toNat) rb.toNat ra.toNat (t.toNat % 32))
  | .cpyr t list ra => some (4, encE 0x35 0 (t.toNat / 32 * 32 + 2 * list.toNat + 1) 0 ra.toNat (t.toNat % 32))
  | .evterm idx ra => some (4, encR 0x38 (16 * idx.toNat) 0 ra.toNat 0)
  | .evarm slot ra rb => some (4, encR 0x38 (16 * (24 + slot.toNat) + 1) rb.toNat ra.toNat 0)
  | .evclr rd idx => some (4, encR 0x38 (16 * idx.toNat + 2) 0 0 rd.toNat)
  | .launch rd ra => some (4, encR 0x39 0 0 ra.toNat rd.toNat)
  | .launchRel rd ra => some (4, encR 0x39 1 0 ra.toNat rd.toNat)
  | .hsig ring ra rb => some (4, encR 0x39 (4 * ring.toNat + 2) rb.toNat ra.toNat 0)
  | .propen r rd ra rb x => some (4, encE 0x3a (x.toNat + 1) (4 * bn r) rb.toNat ra.toNat rd.toNat)
  | .predeem rd ra rb => some (4, encE 0x3a 0 1 rb.toNat ra.toNat rd.toNat)
  | .pquery rd ra => some (4, encE 0x3a 0 2 0 ra.toNat rd.toNat)
  | .pretract rd ra => some (4, encE 0x3a 0 3 0 ra.toNat rd.toNat)
  | .ctarmRaw ra rb => some (4, encR 0x3b 0 rb.toNat ra.toNat 0)
  | .ctarmAmax ra rb => some (4, encR 0x3b 4 rb.toNat ra.toNat 0)
  | .ctarmMin ra rb => some (4, encR 0x3b 8 rb.toNat ra.toNat 0)
  | .ctresW rd rb => some (4, encR 0x3b 1 rb.toNat 0 rd.toNat)
  | .ctresId rd rb => some (4, encR 0x3b 5 rb.toNat 0 rd.toNat)
  | .ctcancel rd rb => some (4, encR 0x3b 2 rb.toNat 0 rd.toNat)
  | .start k ra rb => some (4, encR 0x3c 0 rb.toNat ra.toNat k.toNat)
  | .hjoin rd k => some (4, encR 0x3c 1 0 k.toNat rd.toNat)
  | .halt => some (4, encR 0x3c 2 0 0 0)
  | .yield => some (4, encR 0x3c 3 0 0 0)
  | .follow => some (4, encR 0x3c 4 0 0 0)
  | .unfollow => some (4, encR 0x3c 5 0 0 0)
  | .mfsr rd sr => some (4, encI 0x3d sr.toNat 0 rd.toNat)
  | .mtsr sr ra => some (4, encI 0x3d (4096 + sr.toNat) ra.toNat 0)
  | .trap code ra => some (4, encI 0x3d (8192 + code.toNat) ra.toNat 0)
  | .brk code => some (4, encI 0x3d (12288 + code.toNat) 0 0)
  | .wfe => some (4, encI 0x3d 16384 0 0)
  | .nop => some (4, encI 0x3d 20480 0 0)
  | .xset xd ra => some (4, encI 0x3e 0 ra.toNat xd.toNat)
  | .xld xd ra off => some (4, encI 0x3e (16384 + off.toNat) ra.toNat xd.toNat)
  | .addiCS0 rd imm => some (2, encC 0 (rd.toNat + 16 * imm.toNat))
  | .addiC rd imm => some (2, encC 1 (rd.toNat + 16 * imm.toNat))
  | .addCS0 rd ra => some (2, encAcc4 2 rd ra)
  | .addC rd ra => some (2, encAcc4 3 rd ra)
  | .subC rd ra => some (2, encAcc4 4 rd ra)
  | .andC rd ra => some (2, encAcc4 5 rd ra)
  | .orC rd ra => some (2, encAcc4 6 rd ra)
  | .xorC rd ra => some (2, encAcc4 7 rd ra)
  | .slliC rd sh => some (2, encC 8 (rd.toNat + 16 * sh.toNat))
  | .ldDC rd ra off => some (2, encC 9 (rd.toNat + 16 * off.toNat + 128 * ra.toNat))
  | .stDC rd ra off => some (2, encC 10 (rd.toNat + 16 * off.toNat + 128 * ra.toNat))
  | .beqC ra off => some (2, encC 11 (ra.toNat + 16 * off.toNat))
  | .bneC ra off => some (2, encC 12 (ra.toNat + 16 * off.toNat))
  | .jC off => some (2, encC 13 off.toNat)
  | .jrC ra => some (2, encC 14 ra.toNat)
  | .andiC rd imm => some (2, encC 15 (rd.toNat + 16 * imm.toNat))
  | _ => none

/-- The bytes of a well-formed instruction as IM holds them. -/
def encodeBytes (i : Instr) : Option (List Byte) :=
  (encode i).map (fun e => (layWord e.2).take e.1)

/-- The length in bytes of an instruction's word (R288). -/
def Instr.len (i : Instr) : Nat := match encode i with | some (n, _) => n | none => 0

end Sys2Proof
end

