-- ==== Sys2Proof/Machine/Copy.lean ====
section
/-! DEFINITION. The copy engine (spec/19_isa_engines.md R385 to R389): checks at issue, the chunks of a job, and the copy
commands. -/
namespace Sys2Proof.Machine

/-! ### Issue checks (R387) -/

/-- 0 `cpy`, 1 `cpy2`, 2 `cpyg`, 3 `cpys`. -/
def copyOp : Instr → Nat
  | .cpy2 _ _ _ _ => 1 | .cpyg _ _ _ _ => 2 | .cpys _ _ _ _ => 3 | _ => 0

/-- Fields of a shape record held as four doublewords (R386). -/
def recRows (r : List DWord) : Nat := bits (r.getD 0 0).toNat 0 32
def recRowLen (r : List DWord) : Nat := bits (r.getD 0 0).toNat 32 32
def recSStride (r : List DWord) : Nat := bits (r.getD 1 0).toNat 0 40
def recDStride (r : List DWord) : Nat := bits (r.getD 2 0).toNat 0 40
def recIdx (r : List DWord) : Nat := bits (r.getD 3 0).toNat 0 56
def recFmt (r : List DWord) : Nat := bits (r.getD 3 0).toNat 56 4
/-- The element size z: the width in bytes, 1 for the 4-bit formats (R386). -/
def recSize (r : List DWord) : Nat := max 1 (fmtWidth (recFmt r) / 8)

/-- Check 4: a reserved field of the record, or IDX on `cpy2`. -/
def recReserved (op : Nat) (r : List DWord) : Bool :=
  bits (r.getD 1 0).toNat 40 24 != 0 || bits (r.getD 2 0).toNat 40 24 != 0 || bits (r.getD 3 0).toNat 60 4 != 0 ||
  (op = 1 && recIdx r != 0)

/-- Check 6. -/
def recMisaligned (op dst src : Nat) (r : List DWord) : Bool :=
  let z := recSize r
  dst % z != 0 || src % z != 0 || recRowLen r % z != 0 || recSStride r % z != 0 || recDStride r % z != 0 ||
  (2 ≤ op && recIdx r % 4 != 0)

/-- Checks 1 to 3: before the record is read. -/
def copyCheckEarly (op : Nat) (x : DWord) : Option Flt :=
  let x := x.toNat
  if op = 0 then failIf (bits x 32 32 != 0) (flt 3 6)
  else failIf (bits x 19 45 != 0) (flt 3 6) <|> failIf (x % 32 != 0) (flt 2 1) <|> failIf (393215 < x + 31) (flt 3 2)

/-- Checks 4 to 7. -/
def copyCheckLate (op dst src : Nat) (r : List DWord) : Option Flt :=
  if op = 0 then none
  else failIf (recReserved op r) (flt 3 11)
    <|> failIf (16777216 < recRows r || 16777216 < recRowLen r) (flt 3 5)
    <|> failIf (recMisaligned op dst src r) (flt 3 12)
    <|> failIf (1 < recRows r && recDStride r < recRowLen r) (flt 3 13)

/-- The shape record a command captures (R386). -/
def captureShape (c : Core) (j : Job) : Job :=
  if copyOp j.instr = 0 then j
  else { j with shape := (List.range 4).map (fun i => b64 (leNat (Memory.reads c.lm (j.x.toNat + 8 * i) 8))) }

/-! ### Rows and chunks (R388) -/

def copyRows (j : Job) : Nat := if copyOp j.instr = 0 then 1 else recRows j.shape
def copyRowLen (j : Job) : Nat := if copyOp j.instr = 0 then bits j.x.toNat 0 32 else recRowLen j.shape
def copyEmpty (j : Job) : Bool := copyRows j = 0 || copyRowLen j = 0

/-- Source and destination of the present row, with its index. -/
def copySrc (j : Job) (idx : Nat) : Nat :=
  j.b.toNat + (match copyOp j.instr with | 0 => 0 | 2 => idx * recSStride j.shape | _ => j.next * recSStride j.shape)
def copyDst (j : Job) (idx : Nat) : Nat :=
  j.a.toNat + (match copyOp j.instr with | 0 => 0 | 3 => idx * recDStride j.shape | _ => j.next * recDStride j.shape)

/-- The chunks of `cpy` run in descending order. -/
def copyDown (j : Job) : Bool :=
  copyOp j.instr = 0 && decide (j.b.toNat < j.a.toNat) && decide (j.a.toNat < j.b.toNat + copyRowLen j)

/-- The next chunk (offset, length) of a row of `len` bytes of which `done` are done: no 4 KiB boundary of either address. -/
def nextChunk (down : Bool) (src dst len done : Nat) : Nat × Nat :=
  if down then
    let e := len - done
    let lo := max ((src + e - 1) / 4096 * 4096 - src) ((dst + e - 1) / 4096 * 4096 - dst)
    (lo, e - lo)
  else (done, min (len - done) (min (4096 - (src + done) % 4096) (4096 - (dst + done) % 4096)))

/-! ### Line pieces -/

/-- The pieces of [a, a + n) that cross no line boundary: offset and length; `k` bounds their number. -/
def lineParts : Nat → Nat → Nat → Nat → List (Nat × Nat)
  | 0, _, _, _ => []
  | k + 1, a, o, n => if n = 0 then [] else
    let m := min n (128 - (a + o) % 128)
    (o, m) :: lineParts k a (o + m) (n - m)

def placeAddr : Place → Nat
  | .lm _ o => o | .phys pa => pa | .sched _ o => o | .mailbox _ o => o | .window _ o => o | .fabric _ _ va => va

def partsOf (pl : Place) (n : Nat) : List (Nat × Nat) := lineParts (n / 128 + 2) (placeAddr pl) 0 n

/-- Read a range as an agent of a die; POISON where a line is poisoned (R208). -/
def readRange (s : State) (die : Nat) (t : Target) (va n : Nat) : Except Flt (List Byte × State) :=
  (partsOf t.place n).foldl (fun r p =>
    match r with
    | .error f => .error f
    | .ok (bs, s) =>
      if poisonedAs s die t.handoff (t.place.add p.1) p.2 then .error (flt 6 1 (va + p.1))
      else
        let (b, s) := readAs s die t.handoff (t.place.add p.1) p.2
        .ok (bs ++ b, s)) (.ok ([], s))

/-- One piece written as an agent of a die for a job, with the job's cover of poisoned lines (R208). -/
def writePiece (s : State) (die : Nat) (handoff : Bool) (pl : Place) (bs : List Byte) (o : Origin) (run : Cover) : State × Cover :=
  let s := writeAs s die handoff pl bs o false
  match pl with
  | .phys pa =>
    if poisonedAs s die handoff pl bs.length then
      (let (run, full) := coverJob run pa bs.length
       (s.covered die handoff full, run))
    else (s, run)
  | _ => (s, run)

/-- Write a range as an agent of a die, with the lines that clear poison (R208). -/
def writeRange (s : State) (die : Nat) (t : Target) (bs : List Byte) (o : Origin) (run : Cover) : State × Cover :=
  (partsOf t.place bs.length).foldl (fun r p =>
    writePiece r.1 die t.handoff (t.place.add p.1) ((bs.drop p.1).take p.2) o r.2) (s, run)

/-! ### Chunks under way (R218)

The accesses of a job are performed in any order, line by line, but for two rules: a write follows the reads whose values it
carries, and overlapping accesses keep the order of the job's definition. A chunk is written only once it has been read whole, so
no byte of a failing chunk is written (R388, R389); of the chunks after it that had been opened, some bytes may have been. -/

/-- A move of a job: read or write a piece of its `k`-th open chunk. -/
structure ChunkMove where
  k : Nat
  write : Bool
  off : Nat
  len : Nat
  deriving DecidableEq, Repr

/-- Pieces still to be read, and still to be written. -/
def Chunk.toRead (c : Chunk) : List (Nat × Nat) := (partsOf c.src c.len).filter (fun p => !c.got.any (fun g => g.1 = p.1))
def Chunk.toWrite (c : Chunk) : List (Nat × Nat) := (partsOf c.dst c.len).filter (fun p => !c.put.contains p.1)

/-- An open chunk before this one has still to read or write bytes that a write of them would meet. -/
def Chunk.holdsWrite (c : Chunk) (pl : Place) (n : Nat) : Bool :=
  c.toRead.any (fun p => placeMeets (c.src.add p.1) p.2 pl n) || c.toWrite.any (fun p => placeMeets (c.dst.add p.1) p.2 pl n)

/-- An open chunk before this one has still to write bytes that a read of them would meet. -/
def Chunk.holdsRead (c : Chunk) (pl : Place) (n : Nat) : Bool := c.toWrite.any (fun p => placeMeets (c.dst.add p.1) p.2 pl n)

/-- The moves that the open chunks allow, the oldest first; `ear` are the open chunks before. -/
def chunkMoves : List Chunk → Nat → List Chunk → List ChunkMove
  | _, _, [] => []
  | ear, k, c :: r =>
    let reads := (c.toRead.filter (fun p => !ear.any (fun d => d.holdsRead (c.src.add p.1) p.2))).map
      (fun p => { k := k, write := false, off := p.1, len := p.2 : ChunkMove })
    let writes := if !c.toRead.isEmpty then [] else
      (c.toWrite.filter (fun p => !ear.any (fun d => d.holdsWrite (c.dst.add p.1) p.2))).map
        (fun p => { k := k, write := true, off := p.1, len := p.2 : ChunkMove })
    reads ++ writes ++ chunkMoves (ear ++ [c]) (k + 1) r

/-- The bytes of a chunk that has been read. -/
def Chunk.bytes (c : Chunk) : List Byte :=
  (partsOf c.src c.len).flatMap (fun p => ((c.got.find? (fun g => g.1 = p.1)).map (·.2)).getD [])

def Chunk.done (c : Chunk) : Bool := c.toRead.isEmpty && c.toWrite.isEmpty

def setChunk (l : List Chunk) (k : Nat) (c : Chunk) : List Chunk := if c.done then l.eraseIdx k else l.set k c

/-- The open chunks, the failure that ends the job, and its cover of poisoned lines. -/
structure Chunks where
  opened : List Chunk
  failed : Option Flt
  run : Cover
  deriving DecidableEq, Repr

/-- How a job's accesses are performed: a read answers bytes, a write nothing; `none` where the answer is still on its way. -/
structure ChunkPort where
  read : State → Place → Bool → Nat → Nat → State × Option (Except Flt (List Byte))
  write : State → Place → Bool → Nat → List Byte → Cover → State × Option (Except Flt Cover)

/-- A chunk has failed: it and the chunks after it are given up (R389). -/
def Chunks.fail (c : Chunks) (k : Nat) (f : Flt) : Chunks := { c with opened := c.opened.take k, failed := some f }

/-- One move of the open chunks. -/
def Chunks.move (p : ChunkPort) (s : State) (c : Chunks) (m : ChunkMove) : State × Chunks :=
  match c.opened[m.k]? with
  | none => (s, c)
  | some h =>
    if m.write then
      match p.write s (h.dst.add m.off) h.dstHandoff (h.dstVa + m.off) ((h.bytes.drop m.off).take m.len) c.run with
      | (s, none) => (s, c)
      | (s, some (.error f)) => (s, c.fail m.k f)
      | (s, some (.ok run)) => (s, { c with opened := setChunk c.opened m.k { h with put := h.put ++ [m.off] }, run := run })
    else
      match p.read s (h.src.add m.off) h.srcHandoff (h.srcVa + m.off) m.len with
      | (s, none) => (s, c)
      | (s, some (.error f)) => (s, c.fail m.k f)
      | (s, some (.ok bs)) => (s, { c with opened := setChunk c.opened m.k { h with got := h.got ++ [(m.off, bs)] } })

/-- What one unit of a job leaves: it goes on, it has done all its work, or a chunk failed. -/
inductive UnitEnd where | more | all | failed (f : Flt)
  deriving DecidableEq, Repr

/-- A job with no chunk open has ended when one failed, or when it has no chunk left. -/
def Chunks.out (c : Chunks) (more : Bool) : UnitEnd :=
  if !c.opened.isEmpty then .more
  else match c.failed with
    | some f => .failed f
    | none => if more then .more else .all

structure JobStep where
  state : State
  job : Job
  out : UnitEnd

/-- Who performs a job's chunks: how it checks a range, its die, and the origin of its stores. -/
structure CopyAgent where
  check : State → AccClass → Nat → Nat → Except Flt Target
  die : Nat
  origin : Origin

/-- The die's holding cache takes the lines of a range: an access that needs a further copy waits while the cache is full (R197). -/
def lineRoom (s : State) (die : Nat) (handoff : Bool) (pl : Place) (n : Nat) : Bool :=
  (partsOf pl n).all (fun p => match heldLine die handoff (pl.add p.1) with | some l => holdRoom s die l | none => true)

/-- Reads and writes of an agent of a die (R210, R221). -/
def diePort (die : Nat) (o : Origin) : ChunkPort where
  read := fun s pl handoff va n =>
    if !lineRoom s die handoff pl n then (s, none)
    else match readRange s die { kind := .rc, place := pl, handoff := handoff, attr := 0 } va n with
    | .error f => (s, some (.error f))
    | .ok (bs, s) => (s, some (.ok bs))
  write := fun s pl handoff _ bs run =>
    if !lineRoom s die handoff pl bs.length then (s, none)
    else let (s, run) := writePiece s die handoff pl bs o run; (s, some (.ok run))

/-- The index of row `r`, read from memory. -/
def readIndex (g : CopyAgent) (s : State) (j : Job) (r : Nat) : Except Flt (Nat × State) :=
  let va := recIdx j.shape + 4 * r
  match g.check s (.chunkRead false) va 4 with
  | .error f => .error f
  | .ok t => (match readRange s g.die t va 4 with | .error f => .error f | .ok (b, s) => .ok (leNat b, s))

/-- The index that a job has read ahead of a row's beginning. -/
def Job.index? (j : Job) (r : Nat) : Option Nat := (j.words.find? (fun w => w.1 = r)).map (·.2)

/-- The index of the present row: read when the row begins, or before, then kept. -/
def rowIndex (g : CopyAgent) (s : State) (j : Job) : Except Flt (Nat × State) :=
  if copyOp j.instr < 2 then .ok (0, s)
  else match j.params, j.index? j.next with
  | w :: _, _ => .ok (w.toNat, s)
  | [], some n => .ok (n, s)
  | [], none => readIndex g s j j.next

/-- The bytes of row `r`'s index may be written by row `q`, which the job's definition puts before it (R218, R388). -/
def rowMeets (j : Job) (q r : Nat) : Bool :=
  let ia := recIdx j.shape + 4 * r
  let d := fun (n : Nat) => rangeMeets ia 4 (j.a.toNat + n * recDStride j.shape) (copyRowLen j)
  if copyOp j.instr = 2 then d q
  else match (if q = j.next then (j.params.head?.map BitVec.toNat).or (j.index? q) else j.index? q) with
    | some n => d n
    | none => true

/-- The index read of row `r` may be made before the row begins: no row before it writes its bytes, and no chunk under way. -/
def indexAhead (g : CopyAgent) (s : State) (j : Job) (r : Nat) : Bool :=
  2 ≤ copyOp j.instr && decide (r < copyRows j) && (j.index? r).isNone && (List.range (r - j.next)).all (fun q => !rowMeets j (j.next + q) r) &&
  (match g.check s (.chunkRead false) (recIdx j.shape + 4 * r) 4 with
   | .ok t => !j.chunks.any (fun c => c.holdsRead t.place 4) && lineRoom s g.die t.handoff t.place 4
   | .error _ => false)

/-- The index of row `r` is read ahead; one that would fail is read when its row begins. -/
def readAhead (g : CopyAgent) (s : State) (j : Job) (r : Nat) : State × Job :=
  if !indexAhead g s j r then (s, j)
  else match readIndex g s j r with
    | .ok (n, s) => (s, { j with words := (r, n) :: j.words })
    | .error _ => (s, j)

/-- The index read of the next chunk's row would meet bytes that an open chunk has still to write, or finds no room. -/
def indexHeld (g : CopyAgent) (s : State) (j : Job) : Bool :=
  if copyOp j.instr < 2 || !j.params.isEmpty || (j.index? j.next).isSome then false
  else match g.check s (.chunkRead false) (recIdx j.shape + 4 * j.next) 4 with
    | .error _ => !j.chunks.isEmpty
    | .ok t => j.chunks.any (fun c => c.holdsRead t.place 4) || !lineRoom s g.die t.handoff t.place 4

/-- The two ranges of a chunk, checked (R194). -/
def checkChunk (g : CopyAgent) (s : State) (row off src dst n : Nat) : Except Flt Chunk :=
  match g.check s (.chunkRead false) src n with
  | .error f => .error f
  | .ok ts =>
    match g.check s (.chunkWrite false) dst n with
    | .error f => .error f
    | .ok td => .ok {
        row := row, off := off, src := ts.place, srcHandoff := ts.handoff, srcVa := src
        dst := td.place, dstHandoff := td.handoff, dstVa := dst, len := n, got := [], put := [] }

/-- A chunk is left to open. -/
def copyMore (j : Job) : Bool := decide (j.next < copyRows j) && j.failed.isNone

/-- The next chunk of a copy is opened: it is translated at its first access (R207, R388). -/
def openChunk (g : CopyAgent) (s : State) (j : Job) : State × Job :=
  match rowIndex g s j with
  | .error f => (s, { j with failed := some f })
  | .ok (idx, s) =>
    let len := copyRowLen j
    let (o, n) := nextChunk (copyDown j) (copySrc j idx) (copyDst j idx) len j.off
    match checkChunk g s j.next o (copySrc j idx + o) (copyDst j idx + o) n with
    | .error f => (s, { j with failed := some f })
    | .ok c =>
      let rowDone := len ≤ j.off + n
      (s, { j with
        chunks := j.chunks ++ [c]
        next := if rowDone then j.next + 1 else j.next
        off := if rowDone then 0 else j.off + n
        params := if rowDone then [] else [BitVec.ofNat 32 idx] })

def Job.setChunks (j : Job) (c : Chunks) : Job := { j with chunks := c.opened, failed := c.failed, run := c.run }
def Job.openChunks (j : Job) : Chunks := { opened := j.chunks, failed := j.failed, run := j.run }

/-- One unit of a running copy (R218, R279, R388, R389): its `k`-th allowed move, then the opening of its next chunk, then the index read of a
later row, while `go` holds (a stopped engine does neither). -/
def copyUnitBy (g : CopyAgent) (s : State) (j : Job) (go : Bool) (k : Nat) : JobStep :=
  let ms := chunkMoves [] 0 j.chunks
  let mayOpen := go && copyMore j && !indexHeld g s j
  let (s, j) :=
    match ms[k]? with
    | some m => (let (s, c) := j.openChunks.move (diePort g.die g.origin) s m; (s, j.setChunks c))
    | none =>
      if ms.length < k then (if go && copyMore j then readAhead g s j (j.next + (k - ms.length)) else (s, j))
      else if mayOpen then openChunk g s j else (s, j)
  { state := s, job := j, out := j.openChunks.out (copyMore j) }

/-- The copy engine of a core. -/
def coreAgent (core ctx : Nat) (tag : Option Nat) : CopyAgent :=
  { check := fun s cls va n => checkAcc s core cls va n, die := dieOf core, origin := .thread (core * 16 + ctx) tag }

def copyUnit (s : State) (core : Nat) (j : Job) (k : Nat) : JobStep :=
  copyUnitBy (coreAgent core j.ctx j.tag) s j (!(s.core core).engStopped) k

/-- The notice of a job with a tag whose chunk failed (R200, R267, R271). -/
def tagNotice (s : State) (core ctx tag : Nat) (f : Flt) : State :=
  coreNotice s core ctx 3 { f with info2 := 2 ^ tag } (b64 tag) 0

/-! ### Meanings -/

/-- A copy command of the issuing context; it issues while the queue has a free entry (R161). -/
def copyCmd (s : State) (i : Instr) (tag : Nat) : Result :=
  let j := captureOps s.here (newJob s i)
  let op := copyOp i
  if s.me.queueFull .copy then sleepIn s .stall
  else match copyCheckEarly op j.x with
  | some f => raise s f
  | none =>
    if op != 0 && lmReadWaits s j.x.toNat 32 then sleepIn s .drain
    else
      let j := { captureShape s.me j with tag := some tag }
      match copyCheckLate op j.a.toNat j.b.toNat j.shape with
      | some f => raise s f
      | none =>
        if s.me.tagBusy.getLsbD tag then sleepIn s .tagBusy
        else if copyEmpty j then retire ((endTag (takeTag s s.cur.1 tag) s.cur.1 tag false).modMe (fun c => c.addPulse .copy none)) 4
        else enqueue (takeTag s s.cur.1 tag) .copy j 4

def execCpy (tag : BitVec 6) (ra rb : Reg) (x : BitVec 3) (s : State) : Result := copyCmd s (.cpy tag ra rb x) tag.toNat
def execCpy2 (tag : BitVec 6) (ra rb : Reg) (x : BitVec 3) (s : State) : Result := copyCmd s (.cpy2 tag ra rb x) tag.toNat
def execCpyg (tag : BitVec 6) (ra rb : Reg) (x : BitVec 3) (s : State) : Result := copyCmd s (.cpyg tag ra rb x) tag.toNat
def execCpys (tag : BitVec 6) (ra rb : Reg) (x : BitVec 3) (s : State) : Result := copyCmd s (.cpys tag ra rb x) tag.toNat

end Sys2Proof.Machine
end

