-- ==== Sys2Proof/Machine/Promise.lean ====
section
/-! DEFINITION. Gradient promises (spec/12_promises.md R251 to R265; spec/19_isa_engines.md R401 to R405): the stage block,
references, watch entries and records, the reconcile queue, the units of a promise job, and the promise instructions. -/
namespace Sys2Proof.Machine

/-! ### The stage block (R252) -/

def stageWord (c : Core) (off n : Nat) : Nat := leNat (Memory.reads c.lm (stageArea c + off) n)

/-- A reserved field of the stage block itself is not zero (R262 check 2). -/
def stageReserved (c : Core) : Bool :=
  stageWord c 7 1 != 0 || stageWord c 0x40 1 / 2 != 0 || (Memory.reads c.lm (stageArea c + 0x41) 191).any (· != 0)

/-- VCTR [55:0]. -/
def stageVctr (c : Core) : Nat := stageWord c 0 7

/-! ### Matrix references (R253) -/

def refTile (r : DWord) (t : Nat) : Nat := refBase r + t / 2 * 2048 + t % 2 * 64

/-- A reference that an instruction checks is refused (R262 check 2). -/
def refBad (r : DWord) : Bool :=
  bits r.toNat 40 24 != 0 || bits r.toNat 20 4 != 0 || refRB r = 0 || refCB r = 0 || refBase r % 128 != 0 ||
  393215 < refTile r (refTiles r - 1) + 1983

/-- Footprints share a byte: the tiles of one parity fill one half of a run of 128-byte lines. -/
def refMeets (a b : DWord) : Bool :=
  let half := fun (r : DWord) (p : Nat) => 2048 * ((refTiles r + 1 - p) / 2)
  (List.range 2).any (fun p => half a p != 0 && half b p != 0 && rangeMeets (refBase a) (half a p) (refBase b) (half b p))

/-- The LM offset of element (r, c), and its length. -/
def refPlace (f : DWord) (r c : Nat) : Nat × Nat :=
  if refBf f then (tileWord (refTile f (r / 16 * refCols f + c / 32)) (r % 16) (c % 32 / 2) + 2 * (c % 2), 2)
  else (tileWord (refTile f (r / 16 * refCols f + c / 16)) (r % 16) (c % 16), 4)

/-- The bytes of an element. A redemption whose W has grown since `propen` names elements of its operands that no check holds inside LM
(log 68). -/
def refBytes (lm : Bytes) (a : Nat × Nat) : Nat :=
  if a.1 + a.2 ≤ 393216 then leNat (Memory.reads lm a.1 a.2) else bits (Config.wordBeyondLm (a.1 / 4 * 4)).toNat (8 * (a.1 % 4)) (8 * a.2)

/-- The read that element `e` of a tile makes of an operand in one of its four roles (left, GH, G, target). -/
def elKey (e role off : Nat) : Nat := 2 ^ 40 * (4 * e + role) + off

/-- An element with Widen, as element `e` of the tile reads it in a role: as it stood when the job read it (R218). -/
def refEl (j : Job) (lm : Bytes) (e role : Nat) (f : DWord) (r c : Nat) : Fp :=
  let a := refPlace f r c
  let v := match j.words.find? (fun w => w.1 = elKey e role a.1) with | some w => w.2 | none => refBytes lm a
  if refBf f then fpDecode bf16 v else dec32 v

/-- An element takes an FP32 value; what a BF16 element takes is free (log 68). -/
def putEl (lm : Bytes) (f : DWord) (r c v : Nat) : Bytes :=
  Memory.writes lm (refPlace f r c).1 (if refBf f then natBytes 2 (Config.narrowElement v).toNat else natBytes 4 v)

/-! ### Watch entries and records (R254) -/

/-- The 128 bytes of a watch entry. -/
def watchBytes (w : Watch) : List Byte :=
  watchHead w w.nextt ++ natBytes 4 w.eta.toNat ++ natBytes 4 w.etap.toNat ++ w.sf.flatMap (fun x => natBytes 4 x.toNat) ++
  natBytes 8 w.pref.toNat

/-- States (R255). -/
def stFree : BitVec 4 := 0
def stOpening : BitVec 4 := 1
def stOpen : BitVec 4 := 2
def stHeld : BitVec 4 := 3
def stRedeeming : BitVec 4 := 4
def stRedeemed : BitVec 4 := 5
def stRetracting : BitVec 4 := 6
def stRetracted : BitVec 4 := 7
def stExpired : BitVec 4 := 8

/-- A promise that keeps a younger ordered one waiting (R259). -/
def unsettled (w : Watch) : Bool := w.state = stOpening || w.state = stOpen || w.state = stHeld

def eligible (c : Core) (w : Watch) : Bool := !c.watch.toList.any (fun o => decide (o.id.toNat < w.id.toNat) && unsettled o)

def setPromise (c : Core) (k : Nat) (st : BitVec 4) : Core := writeRecord (c.setWatch k { c.watchAt k with state := st }) k

/-- Slots in ascending promise id. -/
def slotsById (c : Core) : List Nat :=
  let put := fun (k : Nat) (l : List Nat) =>
    l.takeWhile (fun b => decide ((c.watchAt b).id.toNat < (c.watchAt k).id.toNat)) ++
      k :: l.dropWhile (fun b => decide ((c.watchAt b).id.toNat < (c.watchAt k).id.toNat))
  (List.range 16).foldr put []

/-- A HELD promise that has become eligible is REDEEMING, and its job goes to the tail of the queue (R259). -/
def releaseHeld (c : Core) (k : Nat) : Core :=
  let w := c.watchAt k
  if w.state = stHeld && eligible c w then
    let mine := fun (r : RecJob) => r.slot = k && r.kind = .redemption
    let c := { c with
      recHeld := c.recHeld &&& ~~~(1#16 <<< k)
      recQ := c.recQ.filter (fun r => !mine r) ++ c.recQ.filter mine }
    setPromise c k stRedeeming
  else c

/-- After every change of state the HELD promises are tested, in ascending id (R259). -/
def testHeld (c : Core) : Core := (slotsById c).foldl releaseHeld c

def changePromise (c : Core) (k : Nat) (st : BitVec 4) : Core := testHeld (setPromise c k st)

/-- A job enters the reconcile queue (R257). NEXTT is that of the present job, which is still the open job while OPENING. -/
def queueRec (c : Core) (k : Nat) (kind : RecKind) (ctx key : Nat) : Core :=
  let w := c.watchAt k
  let c := if w.state = stOpening then c else c.setWatch k { w with nextt := 0, rnext := 0 }
  { c with recQ := c.recQ ++ [{ slot := k, kind := kind, ctx := ctx, key := key, wref := w.wref, vctr := w.vctr, ready := false }] }

/-! ### Expiry (R260) -/

def dueAt (w : Watch) (v : Nat) : Bool := w.state = stOpen && w.life != 0 && decide (w.vi.toNat + w.life.toNat ≤ v)

def expireOne (s : State) (core v k : Nat) : State :=
  let w := (s.core core).watchAt k
  if !dueAt w v then s
  else
    let retract := w.flags.getLsbD 0
    let s := s.modCore core (fun c =>
      if retract then changePromise (queueRec c k .retraction 0 0) k stRetracting else changePromise c k stExpired)
    let f : Flt := { kind := 9, sub := if retract then 1 else 0, addr := 0, info := w.id.toNat, info2 := v }
    coreNotice s core 0 2 f (b64 k) 0

def expiryCheck (s : State) (core v : Nat) : State := (slotsById (s.core core)).foldl (fun s k => expireOne s core v k) s

/-- Every context of the core has halted and only HELD jobs are queued: open promises expire with no notice (R264). -/
def gangQuiet (s : State) (core : Nat) : State :=
  let c := s.core core
  if c.node.isSome && (List.range 11).all (fun k => (c.context k).status != .live) && c.recQ.all c.heldJob then
    s.modCore core (fun c => (slotsById c).foldl (fun c k =>
      if (c.watchAt k).state = stOpening || (c.watchAt k).state = stOpen then changePromise c k stExpired else c) c)
  else s

/-! ### The units of a promise job (R258) -/

def joinFlags (l : List (Nat × FpFlags)) : FpFlags := l.foldl (fun g x => g ||| x.2) 0

/-- One accumulated sum over the batch, with one Round36 a term. -/
def batchSum (xs ys : List Fp) : Nat × FpFlags := dotFloat 0 (xs.zip ys)

/-- Round32(scale × v) taken from, or added to, an element. -/
def applyScaled (scale : Nat) (v cur : Fp) (minus : Bool) : Nat × FpFlags :=
  let (t, g) := round32 .rne (fpMul (dec32 scale) v)
  let (r, h) := round32 .rne (if minus then fpSub cur (dec32 t) else fpAdd cur (dec32 t))
  (r, g ||| h)

/-- D(b, j) := Round32(Widen(G) − GH), of the elements that `g` and `gh` give. -/
def diffEl (g gh : Fp) : Fp × FpFlags :=
  let (v, h) := round32 .rne (fpSub g gh)
  (dec32 v, h)

/-- The values a tile needs: which matrix the batch rows come from, which matrix is updated, and how. -/
structure TilePlan where
  left : DWord
  target : DWord
  tile : Nat
  diff : Bool
  scale : Nat
  minus : Bool
  round : Bool
  deriving DecidableEq, Repr

/-- The elements of a tile of W or P, its row and column in the matrix, and whether there is one: the last tile of a row may have fewer. -/
def TilePlan.size (p : TilePlan) : Nat := 16 * refWide p.target
def TilePlan.row (p : TilePlan) (e : Nat) : Nat := 16 * (p.tile / refCols p.target) + e / refWide p.target
def TilePlan.col (p : TilePlan) (e : Nat) : Nat := refWide p.target * (p.tile % refCols p.target) + e % refWide p.target
def TilePlan.inside (p : TilePlan) (e : Nat) : Bool := decide (p.col e < 16 * refCB p.target)

/-- Update element `e` of a tile of W or P, in row-major order (R258). -/
def doElem (lm : Bytes) (w : Watch) (p : TilePlan) (j : Job) (e : Nat) : Bytes × FpFlags :=
  if !p.inside e then (lm, 0) else
  let bs := List.range (16 * refRB w.xref)
  let gh := fun b => refEl j lm e 1 w.ghref b (p.col e)
  let col := bs.map (fun b => if p.diff then diffEl (refEl j lm e 2 w.gref b (p.col e)) (gh b) else (gh b, 0))
  let (sum, g) := batchSum (bs.map (fun b => refEl j lm e 0 p.left b (p.row e))) (col.map Prod.fst)
  let (v, g1) := if p.round then (let (q, h) := fpRound fp32 .rne (dec36 sum); (dec32 q, h)) else (dec36 sum, 0)
  let (n, g2) := applyScaled p.scale v (refEl j lm e 3 p.target (p.row e) (p.col e)) p.minus
  (putEl lm p.target (p.row e) (p.col e) n, joinFlags ((0, g ||| g1 ||| g2) :: (col.map (fun x => (0, x.2)))))

/-- The reads of element `e` of a tile: each with its key and its place. -/
def elemReads (w : Watch) (p : TilePlan) (e : Nat) : List (Nat × Nat × Nat) :=
  let rd := fun (role : Nat) (f : DWord) (r c : Nat) => let a := refPlace f r c; (elKey e role a.1, a)
  if !p.inside e then []
  else (List.range (16 * refRB w.xref)).flatMap (fun b =>
    [rd 0 p.left b (p.row e), rd 1 w.ghref b (p.col e)] ++ (if p.diff then [rd 2 w.gref b (p.col e)] else [])) ++
    [rd 3 p.target (p.row e) (p.col e)]

/-- An earlier element of the tile has still to write bytes that a read of element `e` takes (R218). -/
def elemLater (p : TilePlan) (from' e : Nat) (a : Nat × Nat) : Bool :=
  (List.range (e - from')).any (fun i =>
    let t := refPlace p.target (p.row (from' + i)) (p.col (from' + i))
    p.inside (from' + i) && rangeMeets t.1 t.2 a.1 a.2)

/-- The reads that a promise job has still to make in the tile that it does, and may make now. -/
def readsLeft (w : Watch) (p : TilePlan) (j : Job) : List (Nat × Nat × Nat) :=
  (List.range (p.size - j.off)).flatMap (fun i => (elemReads w p (j.off + i)).filter (fun x =>
    !j.words.any (fun y => y.1 = x.1) && !elemLater p j.off (j.off + i) x.2))

/-- es = Round32(ETA × S[Min(k, 7)]) with k = Max(VR − VI, 0). -/
def redeemScale (w : Watch) : Nat × FpFlags :=
  let k := w.vr.toNat - w.vi.toNat
  round32 .rne (fpMul (dec32 w.eta.toNat) (dec32 (w.sf.getD (min k 7) 0).toNat))

def planTile (w : Watch) (r : RecJob) (t : Nat) : TilePlan :=
  let n := refTiles r.wref
  match r.kind with
  | .opening => { left := w.xref, target := r.wref, tile := t, diff := false, scale := w.etao.toNat, minus := true, round := false }
  | .retraction => { left := w.xref, target := r.wref, tile := t, diff := false, scale := w.etao.toNat, minus := false, round := false }
  | .redemption =>
    if t < n then { left := w.xref, target := r.wref, tile := t, diff := true, scale := (redeemScale w).1, minus := true, round := false }
    else { left := w.href, target := w.pref, tile := t - n, diff := true, scale := w.etap.toNat, minus := false, round := true }

/-- An access to VCTR, to read it or to add to it: its value, or the fault of R265. -/
def readVctr (s : State) (core : Nat) (cls : AccClass) (va : Nat) : Except Flt (Place × Nat) :=
  match checkAcc s core cls va 8 with
  | .error f => .error f
  | .ok t => if s.poisoned t.place 8 then .error (flt 6 1 va) else .ok (t.place, counterValue s t.place)

/-- What the end of a job makes of its promise, with the counter's new value. -/
def settle (c : Core) (r : RecJob) (v : Nat) : Core :=
  let w := c.watchAt r.slot
  match r.kind with
  | .opening =>
    let c := c.setWatch r.slot { w with vi := b64 v }
    if w.state = stOpening then changePromise c r.slot stOpen
    else writeRecord (c.setWatch r.slot { w with vi := b64 v, nextt := 0, rnext := 0 }) r.slot
  | .redemption => changePromise c r.slot stRedeemed
  | .retraction => changePromise c r.slot stRetracted

def withRec (j : Job) (r : RecJob) : Job := { j with prom := some r }

/-- A promise job that fails: its record is written, and it starts anew with a read of VCTR when it goes on (R265). -/
def promFail (s : State) (core : Nat) (j : Job) (r : RecJob) (f : Flt) : JobStep :=
  { state := s.modCore core (fun c => stopRecord c r.slot), job := withRec { j with failed := some f } { r with ready := false }, out := .failed f }

/-- The start of a run: read VCTR as `cwait.acq` reads it, check expiry, and take VR once. -/
def promStart (s : State) (core : Nat) (j : Job) (r : RecJob) : JobStep :=
  match readVctr s core .counterRead r.vctr.toNat with
  | .error f => promFail s core j r f
  | .ok (_, v) =>
    let s := expiryCheck s core v
    let s := s.modCore core (fun c =>
      let w := c.watchAt r.slot
      if r.kind = .redemption && !w.flags.getLsbD 2 then c.setWatch r.slot { w with vr := b64 v, flags := w.flags ||| 4 } else c)
    let g := if r.kind = .redemption then (redeemScale ((s.core core).watchAt r.slot)).2 else 0
    { state := s, job := withRec { j with flags := j.flags ||| g, words := [] } { r with ready := true }, out := .more }

/-- The end of a job: one is added to VCTR as `cadd.rel` does. -/
def promEnd (s : State) (core : Nat) (j : Job) (r : RecJob) : JobStep :=
  match readVctr s core .counterAdd r.vctr.toNat with
  | .error f => promFail s core j r f
  | .ok (pl, _) =>
    let s := counterAdd s pl 1
    let v := counterValue s pl
    let s := s.modCore core (fun c => settle c r v)
    { state := expiryCheck s core v, job := j, out := .all }

/-- One element of the tile that NEXTT names; after its last the tile is done, and a job whose engine is stopped stops there. -/
def promElem (s : State) (core : Nat) (j : Job) (r : RecJob) : JobStep :=
  let w := (s.core core).watchAt r.slot
  let p := planTile w r w.nextt.toNat
  let (lm, g) := doElem (s.core core).lm w p j j.off
  let s := s.modCore core (fun c => { c with lm := lm })
  let j := { j with flags := j.flags ||| g, off := (j.off + 1) % p.size }
  if j.off != 0 then { state := s, job := j, out := .more }
  else
    let j := { j with words := [] }
    let s := s.modCore core (fun c => c.setWatch r.slot { w with nextt := w.nextt + 1 })
    if (s.core core).engStopped && !goesOn (s.core core) j r then
      { state := s.modCore core (fun c => stopRecord c r.slot), job := withRec j { r with ready := false }, out := .more }
    else { state := s, job := j, out := .more }

/-- One read of a promise job by itself, its `n`-th (R218): other cores may store between it and the rest of its element. -/
def promRead (s : State) (core : Nat) (j : Job) (r : RecJob) (n : Nat) : JobStep :=
  let c := s.core core
  let w := c.watchAt r.slot
  match (readsLeft w (planTile w r w.nextt.toNat) j)[n]? with
  | some x => { state := s, job := { j with words := (x.1, refBytes c.lm x.2) :: j.words }, out := .more }
  | none => { state := s, job := j, out := .more }

/-- One unit of a running promise job: the start, one element, or with `k` above 0 one read of it, or the end: where all tiles are done, only
the addition is left (R265). A job whose slot the supervisor has freed is dropped. -/
def promUnit (s : State) (core : Nat) (j : Job) (r : RecJob) (k : Nat) : JobStep :=
  let w := (s.core core).watchAt r.slot
  if w.state = stFree then { state := s, job := j, out := .all }
  else if jobTiles w r ≤ w.nextt.toNat then promEnd s core j r
  else if !r.ready then promStart s core j r
  else match k with
  | 0 => promElem s core j r
  | n + 1 => promRead s core j r n

/-! ### Checks at issue (R262) -/

def check1 (s : State) : Option Flt := failIf (stageArea s.me = 0) (flt 1 14)

def check2 (s : State) (refs : List DWord) (extra : Bool) : Option Flt :=
  failIf (stageReserved s.me || extra || refs.any refBad) (flt 3 15)

/-- Check 3: R194 checks 3 to 7 on VCTR, and the counter page. -/
def check3 (s : State) : Option Flt :=
  let a := stageVctr s.me
  if a % 8 != 0 then some (flt 2 1 a)
  else if a < 0x1000000 then some (flt 5 5 a)
  else match checkAcc s s.cur.1 .counterAdd a 8 with | .error f => some f | .ok _ => none

/-- The slot whose entry holds an id and is not FREE (R401). -/
def findPromise (c : Core) (id : DWord) : Option Nat :=
  (List.range 16).find? (fun k => (c.watchAt k).state != stFree && (c.watchAt k).id = id)

/-- Check 6 (R261). -/
def check6 (c : Core) (id : DWord) : Except Flt Nat :=
  let bad := fun (n : Nat) => Except.error (flt 9 n 0 id.toNat)
  match findPromise c id with
  | none => bad 4
  | some k =>
    let st := (c.watchAt k).state
    if st = stOpening || st = stOpen then .ok k
    else if st = stRedeemed then bad 2
    else if st = stHeld || st = stRedeeming then bad 3
    else bad 1

/-- Check 7 (R256). -/
def takeSlot (c : Core) : Option Nat :=
  ((List.range 16).find? (fun k => (c.watchAt k).state = stFree)).or
    ((List.range 16).find? (fun k =>
      (c.watchAt k).state = stRedeemed || (c.watchAt k).state = stRetracted || (c.watchAt k).state = stExpired))

/-- The stage block is read at issue as a read of the issuing context (R252). -/
def stageWaits (s : State) : Bool := stageArea s.me != 0 && lmReadWaits s (stageArea s.me) 256

/-! ### Meanings (R402 to R405) -/

/-- MODE[0], or 1 in a deterministic partition (R259). -/
def ordered (s : State) : Bool := stageWord s.me 0x40 1 % 2 = 1 || (s.part (s.me.part.getD 0)).det

def newWatch (s : State) (retract : Bool) (x h gh life : DWord) : Watch :=
  { Watch.free with
    id := s.me.idCount
    xref := x
    href := h
    ghref := gh
    wref := b64 (stageWord s.me 0x30 8)
    life := life.setWidth 32
    etao := BitVec.ofNat 32 (stageWord s.me 8 4)
    state := stOpening
    flags := BitVec.ofNat 8 ((if retract then 1 else 0) + if ordered s then 2 else 0)
    vctr := b64 (stageVctr s.me) }

def openShape (x h gh w : DWord) : Bool :=
  refRB w != refCB x || refCB w != refCB gh || refRB x != refRB h || refRB x != refRB gh || refBf w || refBf gh

def execPropen (retract : Bool) (rd ra rb : Reg) (x : BitVec 3) (s : State) : Result :=
  let xr := s.gpr ra
  let hr := s.gpr rb
  let gh := s.xr x.toNat
  let w := b64 (stageWord s.me 0x30 8)
  if stageWaits s then sleepIn s .drain
  else match check1 s <|> check2 s [w, xr, hr, gh] (bits (s.gprN rd) 32 32 != 0) <|> check3 s <|>
      failIf (openShape xr hr gh w) (flt 3 16) <|>
      failIf (refMeets w xr || refMeets w hr || refMeets w gh) (flt 3 17) with
  | some f => raise s f
  | none =>
    match takeSlot s.me with
    | none => raise s (flt 8 1)
    | some k =>
      let wt := newWatch s retract xr hr gh (s.gpr rd)
      let s' := s.modMe (fun c =>
        changePromise (queueRec ({ c with idCount := c.idCount + 1 }.setWatch k wt) k .opening s.cur.2 s.nextKey) k stOpening)
      retireReg s' 4 rd wt.id

def redeemShape (g p h gh : DWord) : Bool :=
  !refBf g || refRB g != refRB gh || refCB g != refCB gh || refBf p || refRB p != refCB h || refCB p != refCB gh

def redeemOverlap (w p : DWord) (l : List DWord) : Bool := refMeets w p || l.any (fun r => refMeets w r || refMeets p r)

/-- The values that `predeem` captures (R403). -/
def captureRedeem (c : Core) (w : Watch) (g : DWord) : Watch :=
  { w with
    gref := g
    wref := b64 (stageWord c 0x30 8)
    pref := b64 (stageWord c 0x38 8)
    eta := BitVec.ofNat 32 (stageWord c 8 4)
    etap := BitVec.ofNat 32 (stageWord c 12 4)
    sf := (List.range 8).map (fun i => BitVec.ofNat 32 (stageWord c (0x10 + 4 * i) 4)) }

def execPredeem (rd ra rb : Reg) (s : State) : Result :=
  let g := s.gpr rb
  let w := b64 (stageWord s.me 0x30 8)
  let p := b64 (stageWord s.me 0x38 8)
  if stageWaits s then sleepIn s .drain
  else match check1 s <|> check2 s [w, p, g] false <|> check3 s with
  | some f => raise s f
  | none =>
    match check6 s.me (s.gpr ra) with
    | .error f => raise s f
    | .ok k =>
      let e := s.me.watchAt k
      match failIf (redeemShape g p e.href e.ghref) (flt 3 16) <|>
          failIf (redeemOverlap w p [e.xref, e.href, e.ghref, g]) (flt 3 17) with
      | some f => raise s f
      | none =>
        let e' := captureRedeem s.me e g
        let c := queueRec (s.me.setWatch k e') k .redemption s.cur.2 s.nextKey
        let held := e.flags.getLsbD 1 && !eligible c e'
        let st := if held then stHeld else stRedeeming
        let c := if held then { c with recHeld := c.recHeld ||| (1#16 <<< k) } else c
        retireReg (s.setCore s.cur.1 (changePromise c k st)) 4 rd (st.setWidth 64)

def execPretract (rd ra : Reg) (s : State) : Result :=
  if stageWaits s then sleepIn s .drain
  else match check1 s <|> check2 s [] false <|> check3 s with
  | some f => raise s f
  | none =>
    match check6 s.me (s.gpr ra) with
    | .error f => raise s f
    | .ok k => retireReg (s.modMe (fun c => changePromise (queueRec c k .retraction s.cur.2 s.nextKey) k stRetracting)) 4 rd 6

/-- What `pquery` writes (R263). -/
def queryValue (c : Core) (id : DWord) : Nat :=
  match findPromise c id with
  | none => 15
  | some k => (c.watchAt k).state.toNat + 16 * k + 256 * (c.watchAt k).nextt.toNat

/-- A poisoned line faults the read of VCTR as it faults a `cread` (R208). -/
def execPquery (rd ra : Reg) (s : State) : Result :=
  if stageWaits s then sleepIn s .drain
  else match check1 s with
  | some f => raise s f
  | none =>
    let a := stageVctr s.me
    match checkAcc s s.cur.1 .counterRead a 8 with
    | .error f => raise s f
    | .ok t =>
      if !mayPerform s s.cur.1 (entry s t (.cread 0) a 8 false false 0) then sleepIn s .drain
      else if s.poisoned t.place 8 then raise s (flt 6 1 a)
      else
        let id := s.gpr ra
        let s := expiryCheck s s.cur.1 (counterValue s t.place)
        retireReg s 4 rd (b64 (queryValue s.me id))

end Sys2Proof.Machine
end

