-- ==== Sys2Proof/Machine/Crossbar.lean ====
section
/-! DEFINITION. The event crossbar (spec/08_execution.md R179 to R183; spec/19_isa_engines.md R394 to R397): counters, terms,
firings, and what enters an engine queue when an entry is free (R164, R257). -/
namespace Sys2Proof.Machine

def Core.slot (c : Core) (k : Nat) : ArmSlot := vget c.arm k ArmSlot.empty
def Core.modSlot (c : Core) (k : Nat) (f : ArmSlot → ArmSlot) : Core := { c with arm := vmod c.arm k ArmSlot.empty f }
def Core.counter (c : Core) (k : Nat) : EvCounter := vget c.counters k { config := 0, count := 0 }
def Core.setCounter (c : Core) (k : Nat) (x : EvCounter) : Core := { c with counters := vset c.counters k x }

/-! ### Counters and terms (R179, R180) -/

def EvCounter.thresh (x : EvCounter) : Nat := x.config.toNat / 256
def EvCounter.src (x : EvCounter) : Nat := x.config.toNat % 16
def termEnabled (t : BitVec 16) : Bool := t.getLsbD 15
def termSlot (t : BitVec 16) : Nat := bits t.toNat 8 2
def termAnd (t : BitVec 16) : Nat := t.toNat % 256

/-- Every counter of an AND mask is set; a counter with THRESH 0 is disabled. -/
def maskSet (c : Core) (m : Nat) : Bool :=
  m != 0 && (List.range 8).all (fun k => !m.testBit k || (0 < (c.counter k).thresh && (c.counter k).thresh ≤ (c.counter k).count.toNat))

/-- Firing subtracts THRESH from each counter of the mask. -/
def consume (c : Core) (m : Nat) : Core :=
  (List.range 8).foldl (fun c k =>
    if m.testBit k then
      let x := c.counter k
      c.setCounter k { x with count := BitVec.ofNat 8 (x.count.toNat - x.thresh) }
    else c) c

/-- A firing of a slot (R181): discarded when nothing is left to repeat; one above 255 pending is dropped. -/
def fireSlot (c : Core) (k key : Nat) : Core × Bool :=
  let a := c.slot k
  if a.rep = 0 then (c.modSlot k (fun a => { a with discard := a.discard + 1 }), false)
  else if 255 ≤ a.pending then (c, true)
  else (c.modSlot k (fun a => { a with pending := a.pending + 1, order := a.order ++ [4 * key + k] }), false)

/-- One cycle: the terms in order; a counter or a slot serves one term a cycle (R180). -/
structure Cycle where
  core : Core
  counters : Nat
  slots : Nat
  lost : List Nat
  fired : Bool
  deriving DecidableEq, Repr

def cycleTerm (start : Core) (key : Nat) (r : Cycle) (n : Nat) : Cycle :=
  let t := vget start.terms n 0
  let m := termAnd t
  let k := termSlot t
  if termEnabled t && maskSet start m && (m &&& r.counters) = 0 && !r.slots.testBit k then
    let (c, lost) := fireSlot (consume r.core m) k key
    { core := c, counters := r.counters ||| m, slots := r.slots ||| 2 ^ k, lost := if lost then r.lost ++ [k] else r.lost, fired := true }
  else r

def cycle (c : Core) (key : Nat) : Cycle :=
  (List.range 16).foldl (cycleTerm c key) { core := c, counters := 0, slots := 0, lost := [], fired := false }

/-- A job's completion raises the counters that count it (R179). -/
def pulse (c : Core) (p : Engine × Option Nat) : Core :=
  let code := match p.1 with | .matrix => 1 | .vector => 2 | .copy => 3
  (List.range 8).foldl (fun c k =>
    let x := c.counter k
    if x.src != 0 && (x.src = code || (some (x.src - 4) = p.2 && 4 ≤ x.src)) then
      c.setCounter k { x with count := BitVec.ofNat 8 (min 255 (x.count.toNat + 1)) }
    else c) c

/-- The source pulses of the present cycle are added. -/
def takePulses (c : Core) : Core := { c.pulses.foldl pulse c with pulses := [] }

/-- One cycle of a core's crossbar (R180): pulses are added, then the terms are evaluated. While the engines are stopped firings become
pending and none enters a queue (R269). -/
def evaluate (s : State) (core : Nat) : State :=
  let s := s.modCore core takePulses
  let r := cycle (s.core core) s.nextKey
  if !r.fired then s
  else
    let s := { s with nextKey := s.nextKey + 1 }.setCore core r.core
    let s := r.lost.foldl (fun s k => coreNotice s core ((r.core.slot k).ctx) 1 (flt 14 4) (b64 k) (r.core.slot k).word) s
    wfeEvent s (· == core)

/-- A crossbar with something to do in this cycle. -/
def Core.crossing (c : Core) : Bool := !c.pulses.isEmpty || (cycle c 0).fired

/-! ### Fired commands (R181 to R183, R396) -/

/-- An LM offset moved by a byte offset. One that leaves 19 bits stands as an offset beyond LM with the same place in its 64
bytes, which the range checks refuse in their turn (R380). -/
def moveOff (b : Nat) (by' : Int) : Nat :=
  let m := (b : Int) + by'
  if m < 0 || (524287 : Int) < m then 524224 + (m % 64).toNat else m.toNat

/-- A descriptor moved by a byte offset. -/
def moveDesc (d : DWord) (by' : Int) : DWord := b64 (d.toNat / 524288 * 524288 + moveOff (descBase d) by')

/-- The operands of firing `n` of a slot (R181, R380, R396). -/
def firedJob (s : State) (a : ArmSlot) (slot n : Nat) (i : Instr) : Job :=
  let j := { newJob s i with forkId := a.key, ctx := a.ctx, word := a.word, a := a.a, b := a.b, x := a.x, fired := some slot, off := 0 }
  let d : Int := a.stride * n
  let addr := fun (v : DWord) => b64 (wrap ((v.toNat : Int) + d) 64)
  match i with
  | .cpy t _ _ _ | .cpy2 t _ _ _ | .cpyg t _ _ _ | .cpys t _ _ _ =>
    { j with a := addr a.a, b := addr a.b, tag := some ((t.toNat + n) % 64) }
  | .mm _ _ _ _ _ _ _ | .mmg _ _ _ _ _ _ _ => { j with a := moveDesc a.a d, b := moveDesc a.b d }
  | .mmQ _ _ _ _ _ _ _ => { j with a := moveDesc a.a d, b := moveDesc a.b d, off := moveOff (shapeQp a.x) d }
  | .acld _ _ _ | .acst _ _ _ _ => { j with a := moveDesc a.a d }
  | _ => j

/-- What a fired command reads from LM as it fires waits for the accesses that its context made before `evarm` (R182): the shape
record of a copy, the parameter block of `mm.q`. -/
def firedWaits (s : State) (core : Nat) (j : Job) : Bool :=
  let s := { s with cur := (core, j.ctx), nextKey := j.forkId }
  match j.instr with
  | .cpy2 _ _ _ _ | .cpyg _ _ _ _ | .cpys _ _ _ _ => lmReadWaits s j.x.toNat 32
  | .mmQ _ _ _ _ _ _ _ => lmReadWaits s j.off 128
  | _ => false

/-- The issue checks of a fired command, and what it captures as it fires (R183). -/
def firedCheck (s : State) (core : Nat) (j : Job) : Except Flt Job :=
  let c := s.core core
  let fin := fun (f : Option Flt) (j : Job) => match f with | some f => Except.error f | none => Except.ok j
  match engineOf j.instr with
  | some .vector => fin (vecCheck j) j
  | some .matrix =>
    (match matCheckEarly j <|> paramRange j with
     | some f => .error f
     | none => let j := captureMatrix c (c.context j.ctx) j; fin (matCheckLate j) j)
  | _ =>
    (match copyCheckEarly (copyOp j.instr) j.x with
     | some f => .error f
     | none => let j := captureShape c j; fin (copyCheckLate (copyOp j.instr) j.a.toNat j.b.toNat j.shape) j)

/-- Among the firings that may enter, the one that became pending earliest (R164). -/
def oldestFiring (c : Core) (e : Engine) : Option Nat :=
  ((List.range 4).filter (fun k => c.firing e (c.slot k))).foldl (fun b k =>
    match b with
    | none => some k
    | some x => if (c.slot k).order.headD 0 < (c.slot x).order.headD 0 then some k else some x) none

/-- The slot after a firing has been taken; firings left over when REP reaches 0 are discarded (R181, R408). -/
def tookFiring (a : ArmSlot) : ArmSlot :=
  let rep := a.rep - 1
  let left := a.pending - 1
  { a with
    rep := rep
    fired := a.fired + 1
    pending := if rep = 0 then 0 else left
    discard := if rep = 0 then a.discard + BitVec.ofNat 32 left else a.discard
    order := if rep = 0 then [] else a.order.drop 1 }

/-- A firing enters its queue, or waits, or fails its checks and stays pending (R183). An empty copy completes at once. -/
def takeFiring (s : State) (core k : Nat) (e : Engine) : State × Bool :=
  let a := (s.core core).slot k
  match a.instr with
  | none => (s, false)
  | some i =>
    let j := firedJob s a k a.fired i
    if firedWaits s core j then (s, false)
    else match firedCheck s core j with
    | .error f => (takeSlotFault s core a.ctx 1 k f a.word, false)
    | .ok j =>
      let s := s.modCore core (fun c => c.modSlot k tookFiring)
      match j.tag with
      | none => (appendJob s core e j, true)
      | some t =>
        let s := takeTag s core t
        if copyEmpty j then ((endTag s core t false).modCore core (fun c => c.addPulse .copy (some k)), true)
        else (appendJob s core e j, true)

/-- A reconcile job that is not HELD enters the matrix queue (R257). -/
def takeRec (s : State) (core : Nat) : State × Bool :=
  match (s.core core).recQ.find? (fun r => !(s.core core).heldJob r) with
  | none => (s, false)
  | some r =>
    let j := { newJob s .nop with word := 0, ctx := r.ctx, forkId := r.key, prom := some r }
    let s := s.modCore core (fun c => { c with recQ := c.recQ.erase r })
    (gangQuiet (appendJob s core .matrix j) core, true)

/-- Free entries of an engine's queue are taken in the order of R164 and R257, while the engines are not stopped and accept a command (R91). -/
def refillOne : Nat → State → Nat → Engine → State
  | 0, s, _, _ => s
  | n + 1, s, core, e =>
    let c := s.core core
    if c.engStopped || !slotOpen s core || 2 ≤ (c.queue e).length then s
    else match oldestFiring c e with
    | some k => let (s, ok) := takeFiring s core k e; if ok then refillOne n s core e else s
    | none =>
      if e = .matrix then (let (s, ok) := takeRec s core; if ok then refillOne n s core e else s) else s

def refill (s : State) (core : Nat) : State :=
  [Engine.matrix, .vector, .copy].foldl (fun s e => refillOne 1030 s core e) s

/-- A core's crossbar over `n` cycles of the clock (R180); what fires enters its queue in its cycle where there is room. -/
def crossbarCycles : Nat → State → Nat → State
  | 0, s, _ => s
  | n + 1, s, core => if (s.core core).crossing then crossbarCycles n (refill (evaluate s core) core) core else s

/-- After a job of an engine has ended: its pulse, and the entry that it frees. -/
def afterJob (s : State) (core : Nat) (e : Engine) (fired : Option Nat) : State :=
  refill (s.modCore core (fun c => c.addPulse e fired)) core

/-! ### Meanings (R395 to R397) -/

def execEvterm (idx : BitVec 5) (ra : Reg) (s : State) : Result :=
  let v := s.gprN ra
  let n := idx.toNat
  let bad := bits v 16 48 != 0 || (if n < 16 then bits v 10 5 != 0 else bits v 4 4 != 0 || 8 ≤ v % 16)
  if bad then raise s (flt 3 6)
  else
    let w := BitVec.ofNat 16 v
    let s := s.modMe (fun c => if n < 16 then { c with terms := vset c.terms n w } else c.setCounter (n - 16) { config := w, count := 0 })
    retire s 4

/-- REP, INIT and STRIDE of a slot word. -/
def slotRep (w : DWord) : Nat := bits w.toNat 0 9
def slotInit (w : DWord) : Nat := bits w.toNat 9 2
def slotWordBad (w : DWord) : Bool := bits w.toNat 56 8 != 0 || bits w.toNat 11 21 != 0 || slotRep w = 0 || 256 < slotRep w

/-- Majors that a slot can hold (R396). -/
def armable (w : Nat) : Bool :=
  let m := w / 2 % 64
  w % 2 = 1 && ((0x20 ≤ m && m ≤ 0x2a) || (0x2c ≤ m && m ≤ 0x30) || m = 0x34)

/-- The registers that a captured word names are produced. -/
def namedReady (c : Context) (i : Instr) : Bool :=
  let (a, b, x) := namedRegs i
  (a.toList ++ b.toList).all (fun r => !c.busyS.getLsbD r.toNat || r = 0) && x.toList.all (fun r => !c.busyX.getLsbD r.toNat)

def armedSlot (s : State) (i : Instr) (w : BitVec 32) (sw : DWord) (old : ArmSlot) (k : Nat) : ArmSlot :=
  let j := captureOps s.here (newJob s i)
  { old with
    word := w
    instr := some i
    rep := slotRep sw
    pending := slotInit sw
    fired := 0
    ctx := s.cur.2
    stride := sext (sw.toNat / 2 ^ 32) 24
    key := s.nextKey
    discard := 0
    a := j.a
    b := j.b
    x := j.x
    order := List.replicate (slotInit sw) (4 * s.nextKey + k) }

def execEvarm (slot : BitVec 2) (ra rb : Reg) (s : State) : Result :=
  let pc := s.gprN ra
  let w := leNat (Memory.reads s.me.im pc 4)
  let old := s.me.slot slot.toNat
  if slotWordBad (s.gpr rb) then raise s (flt 3 6)
  else if pc % 2 = 1 || 65532 < pc then raise s (flt 2 2)
  else if !armable w then raise s (flt 1 34)
  else match decode32 w with
  | .error e => .next (takeFaultAt s s.cur.1 s.cur.2 (flt 1 e.sub) (BitVec.ofNat 32 w))
  | .ok i =>
    if old.rep != 0 || old.pending != 0 then raise s (flt 1 35)
    else if !namedReady s.here i then sleepIn s .drain
    else
      let a := armedSlot s i (BitVec.ofNat 32 w) (s.gpr rb) old slot.toNat
      let s := { s with nextKey := s.nextKey + 1 }.modMe (fun c => c.modSlot slot.toNat (fun _ => a))
      match retire s 4 with
      | .next s' => .next (refill s' s.cur.1)
      | r => r

def execEvclr (rd : Reg) (idx : BitVec 5) (s : State) : Result :=
  let n := idx.toNat
  let c := s.me
  if n < 16 then
    retireReg (s.modMe (fun c => { c with terms := vset c.terms n 0 })) 4 rd ((vget c.terms n 0).setWidth 64)
  else if n < 24 then
    let x := c.counter (n - 16)
    retireReg (s.modMe (fun c => c.setCounter (n - 16) { config := 0, count := 0 })) 4 rd
      (b64 (x.config.toNat + 65536 * x.count.toNat))
  else
    let a := c.slot (n - 24)
    retireReg (s.modMe (fun c => c.modSlot (n - 24) (fun a => { a with rep := 0, pending := 0, order := [] }))) 4 rd
      (b64 (a.rep + 512 * a.pending + 2 ^ 32 * a.discard.toNat))

end Sys2Proof.Machine
end

