-- ==== Sys2Proof/Machine/Signals.lean ====
section
/-! DEFINITION. What the package writes to the host: completion entries, token entries and MSI-X messages (spec/03_host.md R39,
R43, R56 to R61). -/
namespace Sys2Proof.Machine

/-- Cycles of CLOCK in one µs: it counts at 3.3 GHz (R299). -/
def cyclesPerUs : Nat := 3300

/-- Host memory at a PCIe bus address (R9). -/
def hostPa (bus : Nat) : Nat := 0x80000000000 + bus

/-- Entries of the rings. One whose address passes the host window's end is written past it, where no agent reads it
(DESIGN CHOICE, log 52). -/
def hostWrite (s : State) (bus : Nat) (bs : List Byte) : State := { s with mem := Memory.writes s.mem (hostPa bus) bs }

/-! ### Interrupt vectors (R61) -/

def Vf.vector (v : Vf) (k : Nat) : IrqVector := vget v.irq k IrqVector.reset
def Vf.setVector (v : Vf) (k : Nat) (x : IrqVector) : Vf := { v with irq := vset v.irq k x }

def IrqVector.countLimit (x : IrqVector) : Nat := max 1 (bits x.limit.toNat 0 16)
def IrqVector.timeLimit (x : IrqVector) : Nat := bits x.limit.toNat 16 16

/-- ICPEND: the timer runs in bit 16, and the pending count. -/
def IrqVector.icpend (x : IrqVector) : Nat := (if x.timer.isSome && x.timeLimit != 0 then 2 ^ 16 else 0) + x.pending.toNat

/-- The message goes out with the address and data of the moment. -/
def IrqVector.send (x : IrqVector) : IrqVector :=
  { x with pba := false, sent := x.sent + 1, msgAddr := x.addr, msgData := x.data }

/-- The message is sent, or held as the pending bit while the vector is masked; the count clears and the timer stops. -/
def IrqVector.fire (x : IrqVector) : IrqVector :=
  let x := { x with pending := 0, timer := none }
  if x.masked then { x with pba := true } else x.send

/-- Both conditions of R61 at a moment. -/
def IrqVector.due (x : IrqVector) (now : Nat) : Bool :=
  x.pending != 0 && (decide (x.countLimit ≤ x.pending.toNat) ||
    (x.timeLimit != 0 && (match x.timer with | some t => decide (t + x.timeLimit * cyclesPerUs ≤ now) | none => false)))

def IrqVector.test (x : IrqVector) (now : Nat) : IrqVector := if x.due now then x.fire else x

/-- One event of a vector. -/
def IrqVector.event (x : IrqVector) (now : Nat) : IrqVector :=
  IrqVector.test { x with pending := x.pending + 1, timer := if x.pending = 0 then some now else x.timer } now

def vectorEvent (s : State) (vf v : Nat) : State :=
  s.modVf vf (fun f => f.setVector v ((f.vector v).event s.clock))

/-! ### Completion rings (R56, R58) -/

/-- PHASE of count `n` (R56). -/
def phaseOf (n : BitVec 32) (log2 : BitVec 5) : Byte := if n.toNat / 2 ^ log2.toNat % 2 = 0 then 1 else 0

/-- The ring is enabled and the host has consumed enough. -/
def CplRing.open (c : CplRing) : Bool := c.enable && decide ((c.tail - c.head).toNat < 2 ^ c.log2.toNat)

/-- Write one entry of 31 bytes with its phase; an event of its vector. -/
def writeEntry (s : State) (vf : Nat) (bs : List Byte) (v : Nat) : State :=
  let c := (s.vf vf).cp
  let s := hostWrite s (c.base.toNat + 32 * (c.tail.toNat % 2 ^ c.log2.toNat)) (bs ++ [phaseOf c.tail c.log2])
  vectorEvent (s.modVf vf (fun f => { f with cp := { f.cp with tail := f.cp.tail + 1 } })) vf v

/-- An entry is posted: written, or put into the backlog; none where the backlog is full (R58). -/
def postEntry (s : State) (vf : Nat) (bs : List Byte) (v : Nat) : Option State :=
  let c := (s.vf vf).cp
  if c.wait.isEmpty && c.open then some (writeEntry s vf bs v)
  else if c.wait.length < 256 then
    some (s.modVf vf (fun f => { f with cp := { f.cp with wait := f.cp.wait ++ [(bs, v)] } }))
  else none

/-- Entries of the backlog are written in order while the ring has room; `fuel` is the backlog's length. -/
def drainEntries : Nat → State → Nat → State
  | 0, s, _ => s
  | n + 1, s, vf =>
    let c := (s.vf vf).cp
    match c.wait with
    | [] => s
    | (bs, v) :: r =>
      if c.open then drainEntries n (writeEntry (s.modVf vf (fun f => { f with cp := { f.cp with wait := r } })) vf bs v) vf
      else s

/-! ### Token rings (R59, R60) -/

def Vf.ring (f : Vf) (r : Nat) : TokRing := vget f.tk r TokRing.reset
def TokRing.open (t : TokRing) : Bool := t.enable && decide ((t.tail - t.head).toNat < 2 ^ t.log2.toNat)

def tokenBytes (t : Token) (r : TokRing) : List Byte :=
  natBytes 8 t.payload.toNat ++ natBytes 4 r.seq.toNat ++ natBytes 2 t.core ++ natBytes 1 t.ctx ++ [phaseOf r.tail r.log2]

def writeToken (s : State) (vf r : Nat) (t : Token) : State :=
  let k := (s.vf vf).ring r
  let s := hostWrite s (k.base.toNat + 16 * (k.tail.toNat % 2 ^ k.log2.toNat)) (tokenBytes t k)
  vectorEvent (s.modVf vf (fun f => { f with tk := vset f.tk r { k with tail := k.tail + 1, seq := k.seq + 1 } })) vf k.vector.toNat

/-- The front end accepts a token, or not while the queue of the function is full. -/
def acceptToken (s : State) (vf r : Nat) (t : Token) : Option State :=
  let f := s.vf vf
  if (f.ring r).open && !f.tokenQ.any (fun x => x.1 = r) then some (writeToken s vf r t)
  else if f.tokenQ.length < 64 then some (s.modVf vf (fun f => { f with tokenQ := f.tokenQ ++ [(r, t)] }))
  else none

/-- Waiting tokens of ring `r` are written in order while it has room. -/
def drainTokens : Nat → State → Nat → Nat → State
  | 0, s, _, _ => s
  | n + 1, s, vf, r =>
    let f := s.vf vf
    match f.tokenQ.find? (fun x => x.1 = r) with
    | none => s
    | some x =>
      if (f.ring r).open then
        drainTokens n (writeToken (s.modVf vf (fun f => { f with tokenQ := f.tokenQ.erase x })) vf r x.2) vf r
      else s

end Sys2Proof.Machine
end

