-- ==== Sys2Proof/Machine/Offload.lean ====
section
/-! DEFINITION. The activation offload engine and its lists (spec/03_host.md R62 to R65; spec/19_isa_engines.md R391 to R393). -/
namespace Sys2Proof.Machine

def State.offList (s : State) (p l : Nat) : OffList := vget (s.part p).offload l OffList.empty
def State.modOff (s : State) (p l : Nat) (f : OffList → OffList) : State :=
  s.modPart p (fun q => { q with offload := vmod q.offload l OffList.empty f })

/-- The number of entries in the list. -/
def OffList.count (o : OffList) : Nat := o.entries.length - o.base

/-! ### `cpyl` (R391, R392) -/

def cpylCheck (a b x : Nat) (o : OffList) (reset : Bool) : Option Flt :=
  let n := bits x 0 25
  failIf (bits x 25 39 != 0) (flt 3 6)
  <|> failIf (n = 0 || n % 256 != 0 || 2 ^ 24 < n) (flt 3 5)
  <|> failIf (a % 256 != 0 || b % 256 != 0) (flt 3 12)
  <|> failIf (2 ^ 42 ≤ b) (flt 3 14)
  <|> failIf (!reset && 4096 ≤ o.count) (flt 14 1)
  <|> failIf (!reset && o.replaying) (flt 14 2)

/-- The list after an append: with the reset bit it is emptied first (R64). -/
def OffList.append (o : OffList) (reset : Bool) (e : OffEntry) : OffList :=
  let o := if reset then { o with base := o.entries.length, replaying := false, cursor := -1 } else o
  { o with entries := o.entries ++ [{ e with idx := o.count }] }

def execCpyl (tag : BitVec 6) (reset : Bool) (list : BitVec 3) (ra rb : Reg) (x : BitVec 3) (s : State) : Result :=
  let p := s.me.part.getD 0
  let a := s.gprN ra
  let b := s.gprN rb
  let n := bits (s.xr x.toNat).toNat 0 25
  match cpylCheck a b (s.xr x.toNat).toNat (s.offList p list.toNat) reset with
  | some f => raise s f
  | none =>
    if s.me.tagBusy.getLsbD tag.toNat then sleepIn s .tagBusy
    else
      let (k, s) := s.freshKey
      let e : OffEntry := { id := k, idx := 0, src := a, bus := b, len := n, core := s.cur.1, ctx := s.cur.2,
                            tag := tag.toNat, work := OffWork.fresh, done := false, failed := false }
      retire ((takeTag s s.cur.1 tag.toNat).modOff p list.toNat (fun o => o.append reset e)) 4

/-! ### `cpyr` (R63, R393) -/

/-- The list after `cpyr` has taken `k` entries downward from the cursor. -/
def OffList.take (o : OffList) (k : Nat) (r : Replay) : OffList :=
  let c : Int := if o.replaying then o.cursor else o.entries.length - 1
  let n := min k (c + 1 - o.base).toNat
  let o := { o with replaying := true, cursor := max ((o.base : Int) - 1) (c - k) }
  if n = 0 then o else { o with replays := o.replays ++ [{ r with next := c.toNat, left := n }] }

/-- The entries a `cpyr` of `k` would take. -/
def OffList.avail (o : OffList) (k : Nat) : Nat :=
  min k ((if o.replaying then o.cursor else o.entries.length - 1) + 1 - (o.base : Int)).toNat

def execCpyr (tag : BitVec 6) (list : BitVec 3) (ra : Reg) (s : State) : Result :=
  let p := s.me.part.getD 0
  let k := s.gprN ra
  let o := s.offList p list.toNat
  if s.me.tagBusy.getLsbD tag.toNat then sleepIn s .tagBusy
  else
    let s := takeTag s s.cur.1 tag.toNat
    if o.count = 0 then
      retire (endTag (s.modOff p list.toNat (fun o => { o with replaying := true, cursor := o.base - 1 })) s.cur.1 tag.toNat false) 4
    else
      let (key, s) := s.freshKey
      let r : Replay := { id := key, core := s.cur.1, ctx := s.cur.2, tag := tag.toNat, next := 0, left := 0, work := OffWork.fresh }
      let s' := s.modOff p list.toNat (fun o => o.take k r)
      retire (if o.avail k = 0 then endTag s' s.cur.1 tag.toNat false else s') 4

/-! ### The engine -/

/-- The place of the device bytes of one 4 KiB chunk, as an agent of DX translates it (R194). -/
def dxChunk (s : State) (p va : Nat) (rd wr : Bool) : Except Flt Place :=
  match translateAgent s p va rd wr with
  | .error f => .error f
  | .ok (a, pl) => if wr && pageCounter a then .error (flt 5 5 va a.toNat) else .ok pl

/-- The tweak of R65: the list, the entry and the 4 KiB block in the entry (their places in the number: log 60). -/
def offTweak (l idx o : Nat) : Nat := o / 4096 + 2 ^ 16 * idx + 2 ^ 32 * l

/-- Data as it stands in host memory, from `o` bytes into an entry: ciphertext for a sealed partition (R65). -/
def sealBlock (s : State) (p l idx o : Nat) (bs : List Byte) : List Byte :=
  match (s.part p).key with
  | some k => xtsEncrypt (keyBytes k) (offTweak l idx o) (o % 4096 / 16) bs
  | none => bs
def openBlock (s : State) (p l idx o : Nat) (bs : List Byte) : List Byte :=
  match (s.part p).key with
  | some k => xtsDecrypt (keyBytes k) (offTweak l idx o) (o % 4096 / 16) bs
  | none => bs

/-- Bytes of the chunk that starts `o` bytes into an entry of `len` bytes: no 4 KiB boundary of the device address or of the
entry. -/
def chunkLen (va len o : Nat) : Nat := min (len - o) (min (4096 - (va + o) % 4096) (4096 - o % 4096))

/-- The chunk of an entry that starts at offset `o`: device to host, or host to device for a replay. Its device side is translated now
(R392, R393). -/
def offChunk (s : State) (p : Nat) (e : OffEntry) (replay : Bool) (o : Nat) : Except Flt Chunk :=
  match dxChunk s p (e.src + o) (!replay) replay with
  | .error f => .error f
  | .ok pl =>
    let host : Place := .phys (hostPa (e.bus + o))
    .ok { row := 0, off := o, len := chunkLen e.src e.len o, srcHandoff := false, dstHandoff := false, got := [], put := []
          src := if replay then host else pl, srcVa := e.src + o, dst := if replay then pl else host, dstVa := e.src + o }

/-- Poison is cleared on the lines that a piece covers whole (R208). -/
def clearLines (s : State) (pl : Place) (n : Nat) : State :=
  match pl with
  | .phys pa => { s with poison := s.poison.filter (fun l => !(decide (pa ≤ l) && decide (l + 128 ≤ pa + n))) }
  | _ => s

/-- The engine's accesses: it reads and writes at the homes, and the host sees what R65 gives. Every piece is a line of an entry, so that
it is covered whole. -/
def offPort (p l : Nat) (e : OffEntry) (replay : Bool) : ChunkPort where
  read := fun s pl _ va n =>
    if s.poisoned pl n then (s, some (.error (flt 6 1 va)))
    else
      let bs := readPlace s pl n
      (s, some (.ok (if replay then openBlock s p l e.idx (va - e.src) bs else bs)))
  write := fun s pl _ va bs run =>
    let bs' := if replay then bs else sealBlock s p l e.idx (va - e.src) bs
    (clearLines (writePlace s pl bs') pl bs.length, some (.ok run))

/-- One move of an entry's work: its `k`-th allowed access, or the opening of its next chunk (R218). -/
def offUnit (p l : Nat) (e : OffEntry) (replay : Bool) (k : Nat) (s : State) (w : OffWork) : State × OffWork :=
  match (chunkMoves [] 0 w.chunks)[k]? with
  | some m =>
    let (s, c) := Chunks.move (offPort p l e replay) s { opened := w.chunks, failed := w.err, run := w.run } m
    (s, { w with chunks := c.opened, err := c.failed, run := c.run })
  | none =>
    if e.len ≤ w.off || w.err.isSome then (s, w)
    else match offChunk s p e replay w.off with
    | .error f => (s, { w with err := some f })
    | .ok c => (s, { w with chunks := w.chunks ++ [c], off := w.off + c.len })

/-- All its data has moved, or it has failed. -/
def OffWork.over (w : OffWork) (len : Nat) : Bool := w.chunks.isEmpty && (w.err.isSome || decide (len ≤ w.off))

/-- Moves until the work is over; `fuel` bounds their number. -/
def offUnits (p l : Nat) (e : OffEntry) (replay : Bool) : Nat → State → OffWork → State × OffWork
  | 0, s, w => (s, w)
  | n + 1, s, w => if w.over e.len then (s, w) else (fun r => offUnits p l e replay n r.1 r.2) (offUnit p l e replay 0 s w)

/-- One access for `Input.amount` above 0, else all that is left. -/
def offAdvance (s : State) (p l : Nat) (e : OffEntry) (replay : Bool) (w : OffWork) : State × OffWork :=
  match s.input.amount with
  | 0 => offUnits p l e replay (e.len / 32 + 64) s w
  | k + 1 => offUnit p l e replay k s w

/-- A command's start condition, counted at a scope (R217). -/
def forked (s : State) (core ctx id scope : Nat) : Bool := forkReady s core ctx id scope

/-- Notice and end of a job of the offload engine. -/
def offEnd (s : State) (p core ctx tag : Nat) (f : Option Flt) : State :=
  match f with
  | none => endTag s core tag false
  | some f =>
    let k := mkPacket s 1 core ctx 3 { f with info2 := 2 ^ tag } (b64 tag) 0 (s.core core).nodeid
    endTag (sendNotice s p k) core tag true

/-- Jobs that stop with their gangs (R41): an entry not yet offloaded counts as failed, and replays end (log 64). -/
def OffList.drop (o : OffList) : OffList :=
  { o with
    entries := o.entries.map (fun e => if e.done then e else { e with work := OffWork.fresh, done := true, failed := true })
    replays := [] }

/-- All entries of the package that the engine has still to perform. -/
def pendingOff (s : State) : List OffEntry :=
  s.parts.flatMap (fun q => q.2.offload.toList.flatMap (fun o => o.entries.filter (fun e => !e.done)))

/-- The engine performs an entry: its start condition holds, as do those of all entries appended before it, of which at most three are
still to be performed (R62, R392; one engine with one order for all lists: log 44). -/
def offReady (s : State) (e : OffEntry) : Bool :=
  let ahead := (pendingOff s).filter (fun x => decide (x.id < e.id))
  !e.done && decide (ahead.length < 4) && (e :: ahead).all (fun x => forked s x.core x.ctx x.id 3)

/-- OFFLOAD_ENTRY_DONE: an entry's data is sent, or with `Input.amount` a part of it; then its tag completes. -/
def execOffloadEntryDone (s : State) : Result :=
  let i := s.input
  match (s.offList i.part i.list).entries[i.entry]? with
  | none => .next s
  | some e =>
    if !offReady s e then .next s
    else
      let (s, w) := offAdvance s i.part i.list e false e.work
      let fin := w.over e.len
      let s := s.modOff i.part i.list (fun o => { o with
        entries := o.entries.set i.entry { e with work := if fin then OffWork.fresh else w, done := fin, failed := fin && w.err.isSome } })
      .next (if fin then offEnd s i.part e.core e.ctx e.tag w.err else s)

/-- The replay at position `Input.entry` leaves its list, and its tag completes. -/
def endReplay (s : State) (p l k : Nat) (r : Replay) (f : Option Flt) : State :=
  offEnd (s.modOff p l (fun o => { o with replays := o.replays.eraseIdx k })) p r.core r.ctx r.tag f

/-- A replay after some of its present entry, in descending order (R63, R393). -/
def replayGoes (s : State) (p l k : Nat) (r : Replay) (w : OffWork) (len : Nat) : State :=
  if !w.over len then s.modOff p l (fun o => { o with replays := o.replays.set k { r with work := w } })
  else if w.err.isSome || r.left ≤ 1 then endReplay s p l k r w.err
  else s.modOff p l (fun o => { o with replays := o.replays.set k { r with next := r.next - 1, left := r.left - 1, work := OffWork.fresh } })

/-- REPLAY_ENTRY_DONE: the replay at position `Input.entry` performs its present entry, or with `Input.amount` a part of it. -/
def execReplayEntryDone (s : State) : Result :=
  let i := s.input
  let o := s.offList i.part i.list
  match o.replays[i.entry]? with
  | none => .next s
  | some r =>
    match o.entries[r.next]? with
    | none => .next s
    | some e =>
      if !e.done || !forked s r.core r.ctx r.id 0 then .next s
      else if e.failed then .next (endReplay s i.part i.list i.entry r (some (flt 14 5)))
      else
        let (s, w) := offAdvance s i.part i.list e true r.work
        .next (replayGoes s i.part i.list i.entry r w e.len)

end Sys2Proof.Machine
end

