-- ==== Sys2Proof/Machine/Launch.lean ====
section
/-! DEFINITION. Launches and host signals (spec/19_isa_engines.md R398 to R400; spec/07_scheduler.md R146; spec/03_host.md
R59, R60). -/
namespace Sys2Proof.Machine

/-! ### `launch` (R399) -/

/-- A field of a launch record. -/
def recField (bs : List Byte) (off n : Nat) : Nat := leNat ((bs.drop off).take n)

/-- Checks 1 and 2: before the record is read. -/
def launchCheckEarly (off : Nat) : Option Flt :=
  failIf (off % 64 != 0) (flt 2 1 off) <|> failIf (393215 < off + 63) (flt 3 2)

/-- Checks 3 and 4 on CCTR: its low 56 bits are an address; the rest is a reserved field, tested at bind. -/
def launchCheckLate (s : State) (bs : List Byte) : Option Flt :=
  let a := recField bs 0x20 7
  if a % 8 != 0 then some (flt 2 1 a)
  else if a < 0x1000000 then some (flt 5 5 a)
  else match checkAcc s s.cur.1 .counterAdd a 8 with | .error f => some f | .ok _ => none

/-- The node's source is a launch by a core of die `d`. -/
def launchedOn (d : Nat) (n : Node) : Bool := match n.src with | .launch c _ _ _ _ => dieOf c = d | _ => false

/-- A `launch.rel` that is not yet accepted. -/
def Access.isLaunch (e : Access) : Bool := match e.op with | .launch _ _ => true | _ => false

/-- The places of a die's launch queue that are taken: by its launched nodes that have not bound, and by each `launch.rel` that has
issued and is not yet accepted (log 31). -/
def launchTaken (s : State) (d : Nat) : Nat :=
  (s.nodes.filter (fun n => launchedOn d n && n.state = .blocked)).length +
  ((s.cores.filter (fun e => dieOf e.1 = d)).map (fun e => e.2.accs.countP Access.isLaunch)).sum

/-- The die's launch queue is full. -/
def launchFull (s : State) (d : Nat) : Bool := decide (256 ≤ launchTaken s d)

def NodeRec.empty : NodeRec where
  nodeid := 0
  kind := 0
  prio := 0
  part := 0
  flags := 0
  preds := 0
  succ := []
  ovfcnt := 0
  ovfptr := 0
  edgeq := []
  shape := 0
  eest := 0
  image := 0
  arg := 0
  arglen := 0
  cvec := 0
  gen := 0

/-- A node that has just become live. -/
def newNode (s : State) (src : NodeSrc) (part : Nat) : Node where
  key := s.nextKey
  src := src
  part := part
  record := NodeRec.empty
  state := .waiting
  count := 0
  level := 0
  promotions := 0
  levelSince := s.clock
  seq := s.nextKey
  edgePassed := false
  entry := none
  args := []
  desc := []
  status := 0
  sub := 0
  cores := []
  images := []
  steps := []
  area := none
  dispatchedAt := 0
  ranOn := []
  pin := none
  energy := 0
  children := 0
  edgesDone := false
  released := false
  posted := false
  gone := false
  stuck := none
  begun := []
  acked := []
  job := none
  pieces := []

/-- The node id of the partition's next launch (R146). -/
def launchId (q : Partition) : Nat := 2 ^ 63 + q.launched % 2 ^ 63

/-- The node that a context launches: BLOCKED at once, holding its record's bytes until it binds. -/
def launchNode (s : State) (core ctx p : Nat) (bs : List Byte) : State :=
  let parent := (s.core core).node.getD 0
  let src := NodeSrc.launch core ctx parent (recField bs 0x20 7) (recField bs 0x28 7)
  let n := { newNode s src p with
    record := { NodeRec.empty with nodeid := b64 (launchId (s.part p)), part := p }
    state := .blocked
    desc := bs }
  ({ s with nextKey := s.nextKey + 1, nodes := s.nodes ++ [n] }.modNode parent (fun m => { m with children := m.children + 1 })).modPart p
    (fun q => { q with launched := q.launched + 1 })

/-- The fork condition of a `launch.rel` before entry `id` (R217): its context's earlier accesses, at `.pkg`. -/
def launchReady (s : State) (core ctx id : Nat) : Bool := forkReady s core ctx id 3

/-- A launch of the issuing context. It sleeps while the die's launch queue is full (R399, R407). A `.rel` launch that finds room, and whose
earlier accesses have still to be performed, takes its place in the queue and does not block issue (R225): it stands as an entry, with rd not
produced until it is accepted, which is when it retires (DEDUCED, log 31). -/
def launchAt (s : State) (rd ra : Reg) (rel : Bool) : Result :=
  let off := s.gprN ra
  match launchCheckEarly off with
  | some f => raise s f
  | none =>
    if lmReadWaits s off 64 then sleepIn s .drain
    else
      let bs := Memory.reads s.me.lm off 64
      match launchCheckLate s bs with
      | some f => raise s f
      | none =>
        if launchFull s (dieOf s.cur.1) then sleepIn s .full
        else if rel && !launchReady s s.cur.1 s.cur.2 s.nextKey then
          let t : Target := { kind := .rc, place := .lm s.cur.1 off, handoff := false, attr := 0 }
          .next (issueOn (pushAccess (markReg s rd) (entry s t (.launch rd bs) 0 0 false false 0)) s.cur.1 s.cur.2 4 s.nextKey)
        else
          let p := s.me.part.getD 0
          retireReg (launchNode s s.cur.1 s.cur.2 p bs) 4 rd (b64 (launchId (s.part p)))

def execLaunch (rd ra : Reg) (s : State) : Result := launchAt s rd ra false
def execLaunchRel (rd ra : Reg) (s : State) : Result := launchAt s rd ra true

/-! ### `hsig` (R400) -/

def execHsig (ring : BitVec 2) (ra rb : Reg) (s : State) : Result :=
  if s.gprN rb / 16 != 0 then raise s (flt 3 6)
  else if !relDrained s 4 then sleepIn s .drain
  else
    let vf := 16 * s.me.part.getD 0 + s.gprN rb % 16
    let t : Token := { payload := s.gpr ra, core := s.cur.1, ctx := s.cur.2, node := s.me.node }
    match acceptToken s vf ring.toNat t with
    | some s => retire s 4
    | none => sleepIn s .full

end Sys2Proof.Machine
end

