-- ==== Sys2Proof/Machine/Sync.lean ====
section
/-! DEFINITION. Counters and wait tables (R203 to R205, R343, R418), barriers (R170 to R172, R344, R345), supersteps (R175,
R176, R227, R346), fences (R347) and tag waits (R348). -/
namespace Sys2Proof.Machine

/-! ### Gangs -/

/-- The gang of a core as a number: its node, or the core alone (R184). -/
def gangOf (s : State) (core : Nat) : Nat :=
  match (s.core core).node with | some k => k | none => 10 ^ 9 + core

/-- The cores of a core's gang. -/
def gangCores (s : State) (core : Nat) : List Nat :=
  match (s.core core).node with
  | some k => (match s.node? k with | some n => n.cores | none => [core])
  | none => [core]

/-! ### Counters -/

/-- The checks of a counter instruction (R343): alignment, R194 without check 8, and the counter page. -/
def counterTarget (s : State) (cls : AccClass) (a : Nat) : Except Flt Target := checkAcc s s.cur.1 cls a 8

def addCounter (s : State) (ra rb : Reg) (rel : Bool) (scope : Nat) : Result :=
  match counterTarget s .counterAdd (s.gprN ra) with
  | .error f => raise s f
  | .ok t => retire (pushAccess s (entry s t (.cadd (s.gpr rb)) (s.gprN ra) 8 false rel scope)) 4

def execCadd (ra rb : Reg) (s : State) : Result := addCounter s ra rb false 0
def execCaddRel (ra rb : Reg) (scope : BitVec 3) (s : State) : Result := addCounter s ra rb true scope.toNat

def execCread (rd ra : Reg) (s : State) : Result :=
  match counterTarget s .counterRead (s.gprN ra) with
  | .error f => raise s f
  | .ok t => retire (pushAccess (markReg s rd) (entry s t (.cread rd) (s.gprN ra) 8 false false 0)) 4

def waitFor (a target : Nat) : CWait := { addr := b64 a, target := b64 target, ticket := none, parked := false }

/-- Plain `cwait` (R418): the request sets out and the instruction retires; a second one does not issue. -/
def execCwait (ra rb : Reg) (s : State) : Result :=
  if s.here.cwait.isSome then sleepIn s .held
  else match counterTarget s .counterRead (s.gprN ra) with
  | .error f => raise s f
  | .ok t => retire (pushAccess (s.modHere (fun c => { c with cwait := some (waitFor (s.gprN ra) (s.gprN rb)) }))
      (entry s t (.wait (s.gpr rb)) (s.gprN ra) 8 false false 0)) 4

/-- The acquire read of a `cwait.acq` may be made now: no earlier entry holds it back (R212). -/
def acqReady (s : State) (t : Target) (a scope : Nat) : Bool :=
  mayPerform s s.cur.1 (entry s t (.cread 0) a 8 true false scope)

/-- `cwait.acq` sleeps until the counter reaches its target (R163); a plain wait that is pending holds it (R418). -/
def execCwaitAcq (ra rb : Reg) (scope : BitVec 3) (s : State) : Result :=
  if s.here.cwait.isSome && s.here.sleep != .cwaitAcq then sleepIn s .held
  else match counterTarget s .counterRead (s.gprN ra) with
  | .error f => raise s f
  | .ok t =>
    if s.gprN rb ≤ counterValue s t.place && acqReady s t (s.gprN ra) scope.toNat then
      retire (endWait (withdrawWaits s s.cur.1 s.cur.2) s.cur.1 s.cur.2) 4
    else if s.here.sleep = .cwaitAcq then .next s
    else sleepIn (s.modHere (fun c => { c with cwait := some (waitFor (s.gprN ra) (s.gprN rb)) })) .cwaitAcq

/-- The read of a context's wait may be made: no earlier entry holds a plain wait back (R212). -/
def waitReady (s : State) (core ctx : Nat) : Bool :=
  (s.ctx core ctx).sleep = .cwaitAcq || (s.core core).accs.any (fun e => e.ctx = ctx && e.isWait && mayPerform s core e)

/-- A home slice takes a `cwait` request (R205). -/
def execCwaitRequest (s : State) : Result :=
  let core := s.input.core
  let k := s.input.ctx
  let setWait := fun (s : State) (w : Option CWait) => s.modCtx core k (fun c => { c with cwait := w })
  match (s.ctx core k).cwait, (s.core core).part with
  | some w, some p =>
    if w.parked || (s.core core).issue = .frozen || !waitReady s core k then .next s
    else match translate s p w.addr.toNat true false with
    | .error _ => .next s
    | .ok (_, pl) =>
      let sl := counterSlice s pl
      let t := tget s.waits sl WaitTable.reset
      let put := fun (t : WaitTable) => { s with waits := tput s.waits sl (reserveEntry t) }
      let park := { t with entries := t.entries ++ [{ core := core, ctx := k, addr := counterKey pl, target := w.target }] }
      if w.target.toNat ≤ counterValue s pl then .next (endWait (withdrawWaits s core k) core k)
      else match w.ticket with
      | some n =>
        if n = t.serve && t.entries.length < 64 then
          .next (setWait (put { park with serve := t.serve + 1, tickets := t.tickets.filter (fun x => x.1 != n) })
            (some { w with parked := true, ticket := none }))
        else .next s
      | none =>
        if (if t.reservedEntry then 1 else 0) < 64 - t.entries.length then .next (setWait (put park) (some { w with parked := true }))
        else .next (setWait (put { t with issue := t.issue + 1, tickets := t.tickets ++ [(t.issue, (core, k))] })
          (some { w with ticket := some t.issue }))
  | _, _ => .next s

/-! ### Barriers (R170 to R172, R344, R345) -/

def State.barrier (s : State) (core b : Nat) : Barrier := vget (s.cluster (clusterKey core)).barriers b Barrier.free
def State.modBarrier (s : State) (core b : Nat) (f : Barrier → Barrier) : State :=
  s.modCluster (clusterKey core) (fun c => { c with barriers := vmod c.barriers b Barrier.free f })

/-- The bit of a context in the bitmaps of its cluster's barriers (R171). -/
def memberBit (core ctx : Nat) : Nat := 11 * cicOf core + ctx

/-- The phase completes when every member has arrived (R172). -/
def Barrier.test (b : Barrier) : Barrier :=
  if b.member &&& ~~~b.arrived = 0 then { b with arrived := 0, phase := b.phase + 1 } else b

/-- PERMIT CLUOWNED for another gang's barrier, NOTMEMBER for a free one (R170, R344). -/
def barrierOwned (s : State) (b : Nat) : Option Flt :=
  match (s.barrier s.cur.1 b).owner with
  | none => some (flt 5 8)
  | some g => failIf (g != gangOf s s.cur.1) (flt 5 7)

def barrierMember (s : State) (b : Nat) : Option Flt :=
  barrierOwned s b <|> failIf (!(s.barrier s.cur.1 b).member.getLsbD (memberBit s.cur.1 s.cur.2)) (flt 5 8)

/-- An arrival (R171, R172): the phase number arrived in, and the barrier after it. -/
def arriveAt (s : State) (core ctx b : Nat) : BitVec 32 × State :=
  ((s.barrier core b).phase, s.modBarrier core b (fun x =>
    Barrier.test { x with arrived := x.arrived ||| (1#176 <<< memberBit core ctx) }))

/-- The context's bit is set already, or an arrival of it is on its way: it arrives in the next phase (R171). -/
def arrivedHere (s : State) (b : Nat) : Bool :=
  (s.barrier s.cur.1 b).arrived.getLsbD (memberBit s.cur.1 s.cur.2) || arrivePending s s.cur.1 s.cur.2 b

def execBarrRlx (rd : Reg) (b : BitVec 3) (s : State) : Result :=
  match barrierMember s b.toNat with
  | some f => raise s f
  | none =>
    if arrivedHere s b.toNat then sleepIn s (.barr b.toNat)
    else
      let (ph, s) := arriveAt s s.cur.1 s.cur.2 b.toNat
      retireReg s 4 rd (ph.setWidth 64)

/-- `barr.rel` (R225): a release at `.clu`, then the arrival; it does not block issue. -/
def execBarrRel (rd : Reg) (b : BitVec 3) (s : State) : Result :=
  match barrierMember s b.toNat with
  | some f => raise s f
  | none =>
    if arrivedHere s b.toNat then sleepIn s (.barr b.toNat)
    else
      let t : Target := { kind := .rc, place := .lm s.cur.1 0, handoff := false, attr := 0 }
      retire (pushAccess (markReg s rd) (entry s t (.arrive b.toNat rd) 0 0 false true 1)) 4

def execBwait (b : BitVec 3) (ra : Reg) (s : State) : Result :=
  match barrierOwned s b.toNat with
  | some f => raise s f
  | none =>
    let ph : BitVec 32 := match s.here.sleep with | .bwait _ p => p | _ => (s.gpr ra).setWidth 32
    if (s.barrier s.cur.1 b.toNat).phase != ph then retire s 4 else sleepIn s (.bwait b.toNat ph)

/-- R345: a word of the members that have not arrived. -/
def execBmiss (rd : Reg) (b : BitVec 3) (ra : Reg) (s : State) : Result :=
  match barrierOwned s b.toNat with
  | some f => raise s f
  | none =>
    let x := s.barrier s.cur.1 b.toNat
    let j := s.gprN ra
    retireReg s 4 rd (if j ≤ 2 then b64 (bits (x.member &&& ~~~x.arrived).toNat (64 * j) 64) else 0)

/-- A context of the cluster sleeps on the barrier (R344): one whose phase has completed, or whose bit is clear again, has been woken and
sleeps no longer (R163, R172). -/
def barrierSleepers (s : State) (core b : Nat) : Bool :=
  let x := s.barrier core b
  ((List.range 16).map (coreAt core)).any (fun j => (List.range 11).any (fun k =>
    match (s.ctx j k).sleep with
    | .bwait y ph => y = b && x.phase = ph
    | .barr y => y = b && (x.arrived.getLsbD (memberBit j k) || arrivePending s j k b)
    | _ => false))

/-- Those that a completed phase has woken but that have not issued since stay woken where the phase number starts anew: they wait for a
number that it does not have. -/
def keepWoken (s : State) (core b : Nat) : State :=
  ((List.range 16).map (coreAt core)).foldl (fun s j => s.modCore j (fun c => { c with ctx := c.ctx.map (fun x =>
    match x.sleep with | .bwait y _ => if y = b then { x with sleep := .bwait y 0xffffffff } else x | _ => x) })) s

/-- R344: membership is the contexts of Gpr(rd) in the gang's cores of Gpr(ra). -/
def memberMap (s : State) (core : Nat) (cores ctxs : DWord) : BitVec 176 :=
  (List.range 16).foldl (fun m i =>
    if cores.getLsbD i && s.sameGang core (coreAt core i) then
      m ||| (BitVec.ofNat 176 (bits ctxs.toNat 0 11) <<< (11 * i)) else m) 0

/-- `binit` sets membership, and R172's test follows every change of it, so that a phase begun with no member completes at once
(DEDUCED, log 67). -/
def execBinit (b : BitVec 3) (ra rd : Reg) (s : State) : Result :=
  let x := s.barrier s.cur.1 b.toNat
  let g := gangOf s s.cur.1
  match failIf (x.owner.isSome && x.owner != some g) (flt 5 7) <|>
      failIf (x.arrived != 0 || barrierSleepers s s.cur.1 b.toNat) (flt 1 32) with
  | some f => raise s f
  | none => retire ((keepWoken s s.cur.1 b.toNat).modBarrier s.cur.1 b.toNat (fun _ =>
      Barrier.test { owner := some g, member := memberMap s s.cur.1 (s.gpr ra) (s.gpr rd), arrived := 0, phase := 0 })) 4

/-- A halting context leaves every membership of its cluster (R172). -/
def leaveBarriers (s : State) (core ctx : Nat) : State :=
  s.modCluster (clusterKey core) (fun c => { c with barriers := c.barriers.map (fun b =>
    if b.member.getLsbD (memberBit core ctx) then
      Barrier.test { b with member := b.member &&& ~~~(1#176 <<< memberBit core ctx) } else b) })

/-! ### Supersteps (R175, R176, R227) -/

def dmrFgroup (c : Core) : Nat := bits c.dmr.toNat 52 12
def dmrFgv (c : Core) : Bool := c.dmr.getLsbD 48

/-- The key of the domain of a core at a level (R175). -/
def stepDomain (s : State) (core level : Nat) : Nat :=
  match level with
  | 0 => core
  | 1 => gangOf s core * 256 + clusterKey core
  | 2 => gangOf s core * 256 + dieOf core
  | 3 => gangOf s core
  | _ => dmrFgroup (s.core core)

/-- An arrival of member `i` of a level-4 group in another package stands as this pair. -/
def remoteMember (i : Nat) : Nat × Nat := (100000 + i, 0)

/-- A port that carries traffic to another package is up (R24, R27): fw6's routes give the ports, all of them where it set none. -/
def reachable (s : State) (pkg : Nat) : Bool :=
  (List.range 16).any (fun p => (tget s.routes pkg 0xffff).getLsbD p && (vget s.ports p Port.reset).linkUp)

/-- A member that no operation can reach (R34): its port down, its die excluded, or its partition gone. DESIGN CHOICE (log 36): 'its
die' is the die of its owner core. What has become of a die or a partition of another package is told by that package's answer. -/
def memberAbsent (s : State) (m : Member) : Bool :=
  if m.pkg = s.pkgId.toNat then !(s.part m.part).present || (s.part m.part).dmState = .lost || s.dieExcluded (dieOf m.core)
  else !reachable s m.pkg

/-- A member of a group is absent: it cannot be reached, or its group's root in another package cannot (R29, R34: what passes between
that root and a member or a requester here goes through the same ports). -/
def memberGone (s : State) (g : Group) (m : Member) : Bool := memberAbsent s m || (g.root != s.pkgId.toNat && !reachable s g.root)

def namesMember (s : State) (core ctx : Nat) (m : Member) : Bool :=
  m.pkg = s.pkgId.toNat && some m.part = (s.core core).part && m.core = core && m.ctx = ctx

/-- The group of a context at level 4 (R176): a context that is not named in it is no member. -/
def stepGroup (s : State) (core ctx : Nat) : Option Group :=
  if dmrFgv (s.core core) then
    match tfind s.groups (dmrFgroup (s.core core)) with
    | some g => if g.members.any (namesMember s core ctx) then some g else none
    | none => none
  else none

/-- Every member of the domain has arrived; a core whose c0 is DONE counts as arrived (R176). -/
def stepComplete (s : State) (d : StepDom) (core : Nat) : Bool :=
  let here := fun (m : Nat × Nat) => d.arrived.contains m
  let cores := fun (f : Nat → Bool) => ((gangCores s core).filter f).all (fun j => here (j, 0) || (s.ctx j 0).status = .done)
  match d.level with
  | 0 => d.members.all here
  | 1 => cores (fun j => clusterKey j = clusterKey core)
  | 2 => cores (fun j => dieOf j = dieOf core)
  | 3 => cores (fun _ => true)
  | _ => match tfind s.groups d.domain with
    | some g => (List.range g.members.length).all (fun i =>
        match g.members[i]? with
        | some m => if m.pkg = s.pkgId.toNat then here (m.core, m.ctx) else here (remoteMember i)
        | none => true)
    | none => false

def State.stepDom (s : State) (level domain : Nat) : StepDom :=
  (s.steps.find? (fun d => d.level = level && d.domain = domain)).getD
    { level := level, domain := domain, members := [], arrived := [], released := [] }

/-- Nobody has a part in the domain's step. -/
def StepDom.empty (d : StepDom) : Bool := d.members.isEmpty && d.arrived.isEmpty && d.released.isEmpty

def State.setStep (s : State) (d : StepDom) : State :=
  let rest := s.steps.filter (fun e => !(e.level = d.level && e.domain = d.domain))
  { s with steps := if d.empty then rest else rest ++ [d] }

/-- Test a domain for completion (R176); `core` is a core of it. -/
def testStep (s : State) (level domain core : Nat) : State :=
  let d := s.stepDom level domain
  if !d.arrived.isEmpty && stepComplete s d core then
    s.setStep { d with members := [], arrived := [], released := d.released ++ d.arrived.filter (fun m => m.1 < 100000) }
  else s

/-- A member arrives; at level 0 the first arrival fixes the members (R176). -/
def arriveStep (s : State) (core ctx level : Nat) : State :=
  let dom := stepDomain s core level
  let d := s.stepDom level dom
  let live := ((List.range 11).filter (fun k => (s.ctx core k).status = .live)).map (fun k => (core, k))
  let d := { d with members := if d.members.isEmpty && level = 0 then live else d.members, arrived := d.arrived ++ [(core, ctx)] }
  testStep (s.setStep d) level dom core

/-- A context that halts leaves the steps of its core's domains: it is a member of none any more, whether it is started again or
not (R176). -/
def leaveSteps (s : State) (core ctx : Nat) : State :=
  let rest := fun (l : List (Nat × Nat)) => l.filter (fun m => m != (core, ctx))
  { s with steps := (s.steps.map (fun d =>
      if d.level < 4 then { d with members := rest d.members, arrived := rest d.arrived, released := rest d.released }
      else { d with released := rest d.released })).filter (fun d => !d.empty) }

/-- Every domain of a core is tested again after one of its contexts has halted. -/
def retestSteps (s : State) (core : Nat) : State :=
  (List.range 4).foldl (fun s l => testStep s l (stepDomain s core l) core) s

/-- An arrival from another package at a level-4 step. -/
def remoteArrival (s : State) (gid i : Nat) : State :=
  match tfind s.groups gid with
  | none => s
  | some g =>
    match g.members[i]? with
    | none => s
    | some m =>
      let d := s.stepDom 4 gid
      if m.pkg = s.pkgId.toNat || g.broken || d.arrived.contains (remoteMember i) then s
      else testStep (s.setStep { d with arrived := d.arrived ++ [remoteMember i] }) 4 gid 0

/-- The scope of a level (R227). -/
def stepScope (level : Nat) : Nat := level

/-- What a member waits for before it arrives (R227). -/
def stepDrained (s : State) (level : Nat) : Bool :=
  allDrained s s.cur.1 s.cur.2 (stepScope level) &&
  !(s.me.ni.any (fun n => n.ctx = s.cur.2 && (n.kind = .put || n.kind = .mcst))) &&
  !(s.me.accs.any (fun e => e.ctx = s.cur.2 && e.remote)) &&
  (level < 3 || !unsentBytes s s.cur.1 s.cur.2 s.nextKey none)

/-- The level-4 group is broken or a member of it is absent (R34, R176). -/
def stepBroken (s : State) (level : Nat) : Bool :=
  level = 4 && (match stepGroup s s.cur.1 s.cur.2 with | some g => g.broken || g.members.any (memberGone s g) | none => false)

/-- `sstep` (R176, R227, R346). A member that has arrived sleeps until its step completes. -/
def execSstep (rd : Reg) (level : BitVec 3) (s : State) : Result :=
  let l := level.toNat
  let me := (s.cur.1, s.cur.2)
  let d := s.stepDom l (stepDomain s s.cur.1 l)
  if 4 < l then raise s (flt 1 15)
  else if 1 ≤ l && l ≤ 3 && s.cur.2 != 0 then raise s (flt 1 11)
  else if l = 4 && (stepGroup s s.cur.1 s.cur.2).isNone then raise s (flt 5 8)
  else if d.released.contains me then retireReg (s.setStep { d with released := d.released.erase me }) 4 rd 0
  else if stepBroken s l then retireReg (s.setStep { d with arrived := d.arrived.erase me }) 4 rd 1
  else if d.arrived.contains me then sleepIn s (.sstep l)
  else if !stepDrained s l then sleepIn s (.sstep l)
  else
    let s := arriveStep s s.cur.1 s.cur.2 l
    let d := s.stepDom l (stepDomain s s.cur.1 l)
    if d.released.contains me then retireReg (s.setStep { d with released := d.released.erase me }) 4 rd 0
    else sleepIn s (.sstep l)

/-! ### Fences (R347) -/

/-- A fence retires at issue; its hold stands as an entry. -/
def fence (s : State) (kind : Nat) (scope : BitVec 3) : Result :=
  let t : Target := { kind := .rc, place := .lm s.cur.1 0, handoff := false, attr := 0 }
  retire (pushAccess s (entry s t (.fence kind) 0 0 false false scope.toNat)) 4

def execFenceAcq (scope : BitVec 3) (s : State) : Result := fence s 0 scope
def execFenceRel (scope : BitVec 3) (s : State) : Result := fence s 1 scope
def execFenceAr (scope : BitVec 3) (s : State) : Result := fence s 2 scope
def execFenceSc (scope : BitVec 3) (s : State) : Result := fence s 3 scope

/-! ### Tag waits (R201, R348) -/

/-- The stores that `sel` picks whose bytes have still to go home. -/
def storesHeld (s : State) (die : Nat) (sel : HeldStore → Bool) : List Nat :=
  ((s.die die).holding.flatMap (·.stores) ++ (s.paths.filter (fun p => p.1 / 1000 = die)).flatMap (fun p => p.2.flatMap (·.stores))).filter sel
    |>.map (·.seq)

/-- A join: the context's later accesses wait for these entries and stores (R219). -/
def pushJoin (s : State) (ids stores : List Nat) : State :=
  let t : Target := { kind := .rc, place := .lm s.cur.1 0, handoff := false, attr := 0 }
  if ids.isEmpty && stores.isEmpty then s else pushAccess s (entry s t (.join ids stores) 0 0 false false 0)

/-- A join of the tags of a mask (R219): the bytes that their threads wrote and that are not home yet. -/
def joinTags (s : State) (mask : DWord) : State :=
  pushJoin s [] (storesHeld s (dieOf s.cur.1) (fun h => h.owner / 16 = s.cur.1 &&
    (match h.tag with | some t => mask.getLsbD t | none => false)))

/-- The lowest tag of a mask that is done. -/
def doneTag (s : State) (mask : DWord) : Option Nat := (List.range 64).find? (fun t => (mask &&& s.me.tagDone).getLsbD t)

def execTwany (rd ra : Reg) (s : State) : Result :=
  if s.gpr ra = 0 then retireReg s 4 rd 64
  else match doneTag s (s.gpr ra) with
  | some t => retireReg (joinTags s (s.gpr ra &&& s.me.tagDone)) 4 rd (b64 t)
  | none => sleepIn s .tagWait

def execTwall (ra : Reg) (s : State) : Result :=
  if s.gpr ra &&& ~~~s.me.tagDone = 0 then retire (joinTags s (s.gpr ra)) 4 else sleepIn s .tagWait

def execTffr (rd ra : Reg) (s : State) : Result :=
  match doneTag s (s.gpr ra) with
  | some t => retireReg (joinTags s (1#64 <<< t)) 4 rd (b64 t)
  | none => retireReg s 4 rd 64

end Sys2Proof.Machine
end

