-- ==== Sys2Proof/Machine/Contexts.lean ====
section
/-! DEFINITION. Contexts, follow mode, and the system instructions that move no register file but their own
(spec/08_execution.md R155 to R168; spec/15_isa_scalar.md R316 to R320, R325 to R328). -/
namespace Sys2Proof.Machine

def ctxState : Flt := flt 1 11

/-! ### `start` and `hjoin` (R157, R159, R316, R317) -/

/-- The registers of a started helper (R157). FPFLAGS is not among those that a start zeroes. -/
def startedCtx (c : Context) (pc a : DWord) : Context :=
  { Context.reset with
    status := .live
    pc := pc
    s := vset Context.reset.s 3 a
    fpflags := c.fpflags }

def startCheck (s : State) (k e : Nat) : Option Flt :=
  failIf (s.cur.2 != 0 || k < 1 || 10 < k) ctxState
  <|> failIf ((s.ctx s.cur.1 k).status != .free) ctxState
  <|> failIf (e % 2 != 0 || 65536 ≤ e) (flt 2 2)

/-- A start is a fork at `.core`: it waits for c0's earlier accesses (R157, R217). -/
def execStart (k : BitVec 5) (ra rb : Reg) (s : State) : Result :=
  match startCheck s k.toNat (s.gprN ra) with
  | some f => raise s f
  | none =>
    if !forkReady s s.cur.1 0 s.nextKey 0 then sleepIn s .drain
    else retire (s.modCtx s.cur.1 k.toNat (fun c => startedCtx c (s.gpr ra) (s.gpr rb))) 4

/-- The entries of a context that have not been performed. -/
def openIds (s : State) (core ctx : Nat) : List Nat := ((s.core core).accs.filter (fun e => e.ctx = ctx)).map Access.id

/-- A join of a helper orders c0's later accesses after the helper's, and after those of the engine threads that it issued (R159, R219). That of
the threads which it did not join the bytes are waited for too is the model's reading (DEDUCED, log 76). -/
def joinHelper (s : State) (k : Nat) : State :=
  pushJoin s (openIds s s.cur.1 k) (storesHeld s (dieOf s.cur.1) (fun h => h.owner = s.cur.1 * 16 + k))

def execHjoin (rd : Reg) (k : BitVec 5) (s : State) : Result :=
  let n := k.toNat
  if s.cur.2 != 0 || n < 1 || 10 < n then raise s ctxState
  else match (s.ctx s.cur.1 n).status with
  | .free => raise s ctxState
  | .live => sleepIn s (.hjoin n)
  | .done =>
    let v := (s.ctx s.cur.1 n).exitVal
    retireReg ((joinHelper s n).modCtx s.cur.1 n (fun c => { c with status := .free })) 4 rd v

/-! ### `halt` (R158, R318) -/

/-- What the halt of c0 does to follow mode (R166, R168). -/
def haltFollow (s : State) (core : Nat) : State :=
  let c := s.core core
  let s := if c.fstate = 2 || c.fstate = 3 then endFollow s core c.fcause.toNat false else s
  if leaderOf s core = core then (waitingCores s core).foldl missFollow s else s

/-- A context halts: its exit value is s3, and it leaves barriers, supersteps, contests and waits. -/
def haltCtx (s : State) (core ctx : Nat) : State :=
  let s := endWait (withdrawWaits s core ctx) core ctx
  let s := s.modCtx core ctx (fun c => { c with status := .done, exitVal := c.gpr 3, sleep := .awake, cwait := none })
  let s := retestSteps (leaveSteps (leaveBarriers (dropEntries s core ctx) core ctx) core ctx) core
  let s := s.modCtx core ctx (fun c => { c with ctPending := 0 })
  gangQuiet (if ctx = 0 then haltFollow s core else s) core

def execHalt (s : State) : Result :=
  match retire s 4 with
  | .next s => .next (haltCtx s s.cur.1 s.cur.2)
  | r => r

/-! ### `yield` and `wfe` (R163, R319, R327) -/

/-- A context that is not frozen may retire its instruction. -/
def mayRetire (s : State) (core ctx : Nat) : Bool :=
  let c := s.core core
  c.issue = .running || (c.issue = .stepping && c.stepTarget = ctx)

/-- A sleeping instruction of 4 bytes that has waited long enough retires. Of a leader's c0 its followers have it to execute, and a
follower's has executed the head of its buffer (R167). -/
def wakeNext (s : State) (core ctx : Nat) (i : Instr) : State :=
  let pc := (s.ctx core ctx).pc
  if !mayRetire s core ctx then s
  else
    let t := retireAt s core ctx (pc + 4)
    if ctx != 0 then t
    else if (s.core core).fbuf.isEmpty then
      (if (s.core core).fstate = 1 then
        pushFollow t core { pc := pc, instr := i, word := BitVec.ofNat 32 (leNat (Memory.reads (s.core core).im pc.toNat 4)), nextPc := pc + 4, taken := false }
       else t)
    else popFollow t core pc

def yieldCycles : Nat := 16
def wfeCycles : Nat := 1024
def followCycles : Nat := 1024

def execYield (s : State) : Result :=
  match s.here.sleep with
  | .yield _ => .next s
  | _ => sleepIn s (.yield s.clock)

def execYieldExpiry (s : State) : Result :=
  let i := s.input
  match (s.ctx i.core i.ctx).sleep with
  | .yield t => .next (if t + yieldCycles ≤ s.clock then wakeNext s i.core i.ctx .yield else s)
  | _ => .next s

/-- An event that occurs in the cycle of issue wakes the context as one that comes later does, and no other earlier event
counts (R327). -/
def execWfe (s : State) : Result :=
  match s.here.sleep with
  | .wfe _ true => retire s 4
  | .wfe _ false => .next s
  | _ => sleepIn s (.wfe s.clock (s.me.eventAt = some s.clock))

def execWfeTimeout (s : State) : Result :=
  let i := s.input
  match (s.ctx i.core i.ctx).sleep with
  | .wfe t _ => .next (if t + wfeCycles ≤ s.clock then wakeNext s i.core i.ctx .wfe else s)
  | _ => .next s

/-! ### Follow (R165 to R168) -/

/-- The other cores of a core's gang in its cluster. -/
def gangMates (s : State) (core : Nat) : List Nat :=
  ((List.range 16).map (coreAt core)).filter (fun j => j != core && s.sameGang core j)

/-- A core waits at offset `f`. -/
def waitsAt (s : State) (f : DWord) (j : Nat) : Bool := (s.core j).fstate = 3 && (s.core j).fwait = some f

/-- A waiting core becomes a follower of `leader`, and goes on after its `follow`. -/
def becomeFollower (leader : Nat) (f : DWord) (s : State) (j : Nat) : State :=
  retireAt (s.modCore j (fun c => { c with
    fstate := 2
    fleader := BitVec.ofNat 4 (cicOf leader)
    fwait := none
    fleft := none
    fbuf := [] })) j 0 (f + 4)

/-- A core that was not at the rendezvous will find that its leader has left it. -/
def leftBehind (f : DWord) (s : State) (j : Nat) : State := s.modCore j (fun c => { c with fleft := some f })

/-- The leader's rendezvous at `f` ends: those waiting at `f` follow it (row 1 of R166). One at which no core waits leaves
STATE 0, own fetch: R168 has a leader lead while a follower remains (DEDUCED, log 53). -/
def endRendezvous (s : State) (leader : Nat) (f : DWord) : State :=
  let mates := gangMates s leader
  let on := mates.filter (waitsAt s f)
  let off := mates.filter (fun j => !waitsAt s f j && (s.core j).fstate != 2)
  let s := off.foldl (leftBehind f) (on.foldl (becomeFollower leader f) s)
  let s := s.modCore leader (fun c => { c with
    fstate := if on.isEmpty then 0 else 1
    fmask := on.foldl (fun m j => m ||| (1#16 <<< cicOf j)) c.fmask
    fwait := none })
  retireAt s leader 0 (f + 4)

/-- Every other gang core of the cluster whose c0 is LIVE waits at `f`. -/
def allWait (s : State) (leader : Nat) (f : DWord) : Bool :=
  (gangMates s leader).all (fun j => (s.ctx j 0).status != .live || waitsAt s f j)

/-- A core waits in `follow` at `f`. -/
def beginWait (s : State) (core : Nat) (f : DWord) : State :=
  sleepAt (s.modCore core (fun c => { c with fstate := 3, fwait := some f })) core 0 (.follow s.clock)

/-- The leader executes `follow` at `f`: cores that wait elsewhere miss, and it waits for the rest. -/
def leadFollow (s : State) (f : DWord) : State :=
  let s := ((waitingCores s s.cur.1).filter (fun j => !waitsAt s f j)).foldl missFollow s
  if allWait s s.cur.1 f then endRendezvous s s.cur.1 f else beginWait s s.cur.1 f

/-- The leader will not come to a core that waits at `f` (row 4 of R166). -/
def leaderGone (s : State) (leader : Nat) (f : DWord) : Bool :=
  let l := s.core leader
  l.fstate = 1 || (l.context 0).status = .done || (l.context 0).stopped || s.me.fleft = some f ||
  (l.fstate = 3 && l.fwait != some f)

/-- The bound of the leader's rendezvous at `f` has passed: it has left (R166). -/
def leaderLate (s : State) (leader : Nat) (f : DWord) : Bool :=
  (s.core leader).fwait = some f && mayRetire s leader 0 &&
  (match (s.ctx leader 0).sleep with | .follow t => decide (t + followCycles ≤ s.clock) | _ => false)

/-- A core other than the leader executes `follow` at `f`. -/
def joinFollow (s : State) (leader : Nat) (f : DWord) : State :=
  let s := if leaderLate s leader f then endRendezvous s leader f else s
  if leaderGone s leader f then (missFollow s s.cur.1).modCore s.cur.1 (fun c => { c with fleft := none })
  else
    let s := beginWait s s.cur.1 f
    if (s.core leader).fstate = 3 && allWait s leader f then endRendezvous s leader f else s

def execFollow (s : State) : Result :=
  let core := s.cur.1
  let leader := leaderOf s core
  if s.cur.2 != 0 then raise s ctxState
  else if s.me.fstate = 1 || s.me.fstate = 2 || (gangMates s core).isEmpty then retire s 4
  else if s.me.fstate = 3 then .next (if leader = core && allWait s core s.here.pc then endRendezvous s core s.here.pc else s)
  else .next (if leader = core then leadFollow s s.here.pc else joinFollow s leader s.here.pc)

/-- 1,024 cycles have passed at the leader's rendezvous (R166). -/
def execFollowTimeout (s : State) : Result :=
  let core := s.input.core
  match (s.core core).fwait with
  | some f => .next (if leaderOf s core = core && leaderLate s core f then endRendezvous s core f else s)
  | none => .next s

def execUnfollow (s : State) : Result :=
  if s.cur.2 != 0 then raise s ctxState
  else match retire s 4 with
  | .next s =>
    if s.me.fstate = 2 then .next (endFollow s s.cur.1 2 false)
    else if s.me.fstate = 1 then .next (s.modMe (fun c => { c with fstate := 0, fcause := 2 }))
    else .next s
  | r => r

/-! ### Calls, breaks and `nop` (R325 to R328) -/

/-- `trap` (R325): it waits as `fence.rel.pkg`, and until every byte that the context's stores left in holding copies is at its home, so that
the supervisor reads it there. -/
def execTrap (code : BitVec 12) (ra : Reg) (s : State) : Result :=
  if !relDrained s 3 || unsentBytes s s.cur.1 s.cur.2 s.nextKey none then sleepIn s .drain
  else
    let f : Flt := { kind := 12, sub := 5, addr := 0, info := code.toNat, info2 := s.gprN ra }
    retire (coreNotice s s.cur.1 s.cur.2 0 f s.here.pc s.word) 4

def execBrk (_code : BitVec 12) (s : State) : Result := raise s (flt 12 1)

def execNop (s : State) : Result := retire s 4

def execXset (xd : BitVec 3) (ra : Reg) (s : State) : Result := retire (s.setXr xd.toNat (s.gpr ra)) 4

end Sys2Proof.Machine
end

