-- ==== Sys2Proof/Machine/Special.lean ====
section
/-! DEFINITION. Special registers: `mfsr` and `mtsr` (spec/14_isa_formats.md R299; spec/15_isa_scalar.md R322 to R324). -/
namespace Sys2Proof.Machine

/-! ### The registers -/

/-- The numbers of R299. -/
def srKnown (n : Nat) : Bool := n ≤ 0x10 || (0x100 ≤ n && n ≤ 0x107)

/-- The read-only registers of R323. -/
def srReadOnly (n : Nat) : Bool :=
  n = 0x000 || n = 0x001 || n = 0x003 || n = 0x006 || n = 0x007 || n = 0x009 || n = 0x00a || n = 0x00b || n = 0x00c

/-- The registers that only c0 writes. -/
def srC0Only (n : Nat) : Bool := n = 0x002 || n = 0x008 || n = 0x010

/-- HELPERS (R160): LIVE in [10:1], DONE in [26:17]. -/
def helpersReg (c : Core) : Nat :=
  (List.range 11).foldl (fun v k =>
    if k = 0 then v
    else match (c.context k).status with
      | .live => v + 2 ^ k
      | .done => v + 2 ^ (16 + k)
      | .free => v) 0

/-- FOLLOWST (R169). -/
def followReg (c : Core) : Nat := c.fstate.toNat + 16 * c.fleader.toNat + 256 * c.fcause.toNat + 2 ^ 11 * c.fmask.toNat

def castOf (s : State) (core k : Nat) : CastReg := vget (s.cluster (clusterKey core)).casts k CastReg.free

/-- Writes of one cycle are applied in ascending core-in-cluster order: one that a higher core's write of this cycle follows
leaves that value (R173). -/
def CastReg.later (r : CastReg) (clock cic : Nat) : Bool :=
  match r.last with | some (t, k) => t = clock && decide (cic < k) | none => false

/-- The value of a register as one context of a core reads it (R322). R173 has a core see an applied broadcast write within 8 cycles: every core
sees it in the cycle of the write (DESIGN CHOICE, log 59). -/
def readSpecial (s : State) (core ctx n : Nat) : DWord :=
  let c := s.core core
  match n with
  | 0x000 => c.rank.setWidth 64
  | 0x001 => c.gangdim
  | 0x002 => c.dmr
  | 0x003 => b64 (core * 65536 + ctx)
  | 0x004 => c.tagDone
  | 0x005 => c.tagErr
  | 0x006 => c.tagBusy
  | 0x007 => b64 s.clock
  | 0x008 => c.lscale.setWidth 64
  | 0x009 => c.lsepoch.setWidth 64
  | 0x00a => BitVec.ofInt 64 (s.part (c.part.getD 0)).account
  | 0x00b => b64 (followReg c)
  | 0x00c => b64 (helpersReg c)
  | 0x00d => (c.context ctx).fpflags.setWidth 64
  | 0x00e => c.rngv.setWidth 64
  | 0x00f => c.rngm.setWidth 64
  | 0x010 => c.pbase.setWidth 64
  | _ => (castOf s core (n - 0x100)).value

/-- CLUOWNED for a broadcast register that another gang owns (R170). -/
def castFlt (s : State) (core n : Nat) : Option Flt :=
  if 0x100 ≤ n then
    match (castOf s core (n - 0x100)).owner with
    | some g => failIf (g != gangOf s core) (flt 5 7)
    | none => none
  else none

/-! ### The wait of RNGV and RNGM (R239) -/

def rngEngine (n : Nat) : Option Engine := if n = 0x00e then some .vector else if n = 0x00f then some .matrix else none

/-- Jobs of the engine that were queued before the access: the bound is fixed when the access first waits (log 33). -/
def rngBound (s : State) : Nat := match s.here.sleep with | .rng b => b | _ => s.nextKey

def rngWaits (s : State) (n : Nat) : Bool :=
  match rngEngine n with
  | some e => (s.me.queue e).any (fun j => decide (j.id < rngBound s))
  | none => false

def waitRng (s : State) : Result := sleepIn s (.rng (rngBound s))

/-! ### Writes (R323) -/

/-- A value that the register's own rule refuses: SRVALUE (R239, R247, R251). -/
def srBad (n v : Nat) : Bool :=
  match n with
  | 0x008 => bits v 8 56 != 0 || v % 256 = 0x80 || v % 256 = 0x81
  | 0x00e | 0x00f => bits v 32 32 != 0
  | 0x010 => bits v 19 45 != 0 || (v != 0 && (v % 256 != 0 || v < 4096 || 388864 < v))
  | _ => false

/-- A promise that keeps PBASE (R251). -/
def promiseBusy (c : Core) : Bool := c.watch.toList.any (fun w => unsettled w || w.state = stRedeeming || w.state = stRetracting)

/-- A write of PBASE frees every slot (R251); a slot that was not FREE has its record written where it lies (log 34). -/
def setPbase (c : Core) (v : Nat) : Core :=
  let c := (List.range 16).foldl (fun c k => if (c.watchAt k).state = stFree then c else setPromise c k stFree) c
  { c with pbase := BitVec.ofNat 19 v }

/-- The fields of DMR that a write takes: FGROUP and FGV (R175). -/
def dmrMask : DWord := 0xfff1000000000000

/-- A write that has passed its checks, by context `ctx` of a core. -/
def writeSpecial (s : State) (core ctx n : Nat) (v : DWord) : State :=
  match n with
  | 0x002 => s.modCore core (fun c => { c with dmr := (c.dmr &&& ~~~dmrMask) ||| (v &&& dmrMask) })
  | 0x004 => s.modCore core (fun c => { c with tagDone := c.tagDone &&& ~~~(v &&& ~~~c.tagBusy) })
  | 0x005 => s.modCore core (fun c => { c with tagErr := c.tagErr &&& ~~~(v &&& ~~~c.tagBusy) })
  | 0x008 => s.modCore core (fun c => { c with lscale := v.setWidth 8, lsepoch := c.lsepoch + 1 })
  | 0x00d => s.modCtx core ctx (fun c => { c with fpflags := c.fpflags &&& ~~~(v.setWidth 6) })
  | 0x00e => s.modCore core (fun c => c.seed .vector (v.setWidth 32))
  | 0x00f => s.modCore core (fun c => c.seed .matrix (v.setWidth 32))
  | 0x010 => s.modCore core (fun c => setPbase c v.toNat)
  | _ =>
    let s := s.modCluster (clusterKey core) (fun c => { c with casts := vmod c.casts (n - 0x100) CastReg.free (fun r =>
      if r.later s.clock (cicOf core) then r else { owner := some (gangOf s core), value := v, last := some (s.clock, cicOf core) }) })
    wfeEvent s (fun i => clusterKey i = clusterKey core)

/-- The checks of `mtsr` in their order. -/
def mtsrCheck (s : State) (n v : Nat) : Option Flt :=
  failIf (!srKnown n) (flt 1 9)
  <|> failIf (srReadOnly n) (flt 1 10)
  <|> failIf (s.cur.2 != 0 && srC0Only n) ctxState
  <|> failIf (srBad n v) (flt 1 12)
  <|> failIf (n = 0x010 && promiseBusy s.me) (flt 1 13)
  <|> castFlt s s.cur.1 n

/-! ### Meanings -/

def execMfsr (rd : Reg) (sr : BitVec 12) (s : State) : Result :=
  let n := sr.toNat
  match failIf (!srKnown n) (flt 1 9) <|> castFlt s s.cur.1 n with
  | some f => raise s f
  | none =>
    if rngWaits s n then waitRng s
    else retireReg s 4 rd (readSpecial s s.cur.1 s.cur.2 n)

def execMtsr (sr : BitVec 12) (ra : Reg) (s : State) : Result :=
  let n := sr.toNat
  match mtsrCheck s n (s.gprN ra) with
  | some f => raise s f
  | none =>
    if rngWaits s n then waitRng s
    else retire (writeSpecial s s.cur.1 s.cur.2 n (s.gpr ra)) 4

end Sys2Proof.Machine
end

