-- ==== Sys2Proof/Machine/Ni.lean ====
section
/-! DEFINITION. The network-interface threads of a core: `get`, `put` and the in-switch collectives (spec/02_fabric.md R28 to
R36; spec/16_isa_memory.md R330, R331, R339, R341, R342; spec/09_memory.md R195). -/
namespace Sys2Proof.Machine

/-! ### Fabric accesses served by this package (R331) -/

/-- A group that is installed and not broken holds members of both endpoints. -/
def sharesGroup (s : State) (pkg part pkg' part' : Nat) : Bool :=
  s.groups.any (fun g => !g.2.broken && g.2.members.any (fun m => m.pkg = pkg && m.part = part) &&
    g.2.members.any (fun m => m.pkg = pkg' && m.part = part'))

/-- The partition does not exist or is LOST, or has no core on a die that is present. -/
def partAbsent (s : State) (p : Nat) : Bool :=
  !(s.part p).present || (s.part p).dmState = .lost || (s.part p).rects.all (fun r => s.dieExcluded r.die)

/-- UNREACH, then FABPEER. -/
def fabricPeer (s : State) (pkg part target va : Nat) : Option Flt :=
  failIf (partAbsent s target) (flt 4 6 va)
  <|> failIf (!sharesGroup s pkg part s.pkgId.toNat target) (flt 5 10 va)

def fabWrites : FabOp → Bool | .read _ => false | _ => true
def fabReads : FabOp → Bool | .write _ => false | _ => true


/-- The target of a fabric access: the partition's page tables, then the rule on counter pages (R204). Pages that only the
supervisor core may reach take DEBUGWIN. -/
def fabricTarget (s : State) (part va : Nat) (op : FabOp) : Except Flt Target :=
  match translate s part va (fabReads op) (fabWrites op) with
  | .error f => .error f
  | .ok (a, pl) =>
    match pl with
    | .mailbox _ _ | .window _ _ => .error (flt 5 9 va a.toNat)
    | _ => if fabWrites op && pageCounter a then .error (flt 5 5 va a.toNat)
           else .ok { kind := pageKind a, place := pl, handoff := false, attr := a }

/-- The old value of an atomic at its home, and the memory after it. -/
def atomicAtHome (s : State) (pl : Place) (op w : Nat) (v cmp : DWord) : Nat × State :=
  let old := leNat (readPlace s pl w)
  (old, match atomicNew op w old v.toNat cmp.toNat with | some n => writePlace s pl (natBytes w n) | none => s)

/-- A fabric access performed at the target: the bytes it returns, and the run of full lines (R208). -/
structure FabResult where
  bytes : List Byte
  state : State
  run : Cover
  deriving DecidableEq, Repr

/-- An access of another partition to a sealed one (R74): it reads ciphertext, and its write is dropped. -/
def firewalled (s : State) (target : Nat) (t : Target) (op : FabOp) (run : Cover) : FabResult :=
  let w := match op with | .read n => n | .write _ => 0 | .atomic _ d _ => if d then 8 else 4
  { bytes := cipherBytes s target t.place w, state := if fabWrites op then s.firewallDrop else s, run := run }

/-! ### The peek path (R97, R104) -/

/-- A pseudo-channel's number in the package (R10). -/
def pseudoChannel (d o : Nat) : Nat := (3 * d + stackOf o) * 128 + pcOf o

/-- A partition holds channel group `g` of die `d` (R10, R16). -/
def holdsGroup (q : Partition) (d g : Nat) : Bool := q.groups.getLsbD (16 * d + g)

/-- The pseudo-channel is in self-refresh: every partition that holds its group is dormant (R97). -/
def refreshing (s : State) (d o : Nat) : Bool :=
  s.parts.any (fun e => e.2.present && holdsGroup e.2 d (groupOf o)) &&
  s.parts.all (fun e => !e.2.present || !holdsGroup e.2 d (groupOf o) || e.2.dmState = .dormant)

/-- The lowest line address of a pseudo-channel (R10). -/
def pcLine (k : Nat) : Nat := k / 384 * 0x4000000000 + k % 128 / 8 * 0x240000000 + k % 8 * 768 + k / 128 % 3 * 256

/-- The pseudo-channel leaves self-refresh for a peek. -/
def peekTouch (s : State) (d o : Nat) : State := { s with awakePcs := tput s.awakePcs (pseudoChannel d o) s.clock }

/-- A read of `n` bytes of a dormant partition at `va` comes by the peek path: the pseudo-channels it touches leave self-refresh. -/
def peekRange (s : State) (part va n : Nat) : State :=
  if (s.part part).dmState != .dormant then s
  else (List.range (n / 256 + 2)).foldl (fun s i =>
    match translateAgent s part (va + min (256 * i) (n - 1)) true false with
    | .ok (_, .phys pa) => (match paKind pa with | .home d o => if refreshing s d o then peekTouch s d o else s | _ => s)
    | _ => s) s

/-- A fabric access served in a partition of this package (R331). -/
def fabricServe (s : State) (pkg part target va : Nat) (op : FabOp) (run : Cover) : Except Flt FabResult :=
  match fabricPeer s pkg part target va with
  | some f => .error f
  | none =>
    match fabricTarget s target va op with
    | .error f => .error f
    | .ok t =>
      let s := match op with | .read n => peekRange s target va n | _ => s
      if (s.part target).sealed && (!(pkg = s.pkgId.toNat && part = target) || !s.partAwake target) then .ok (firewalled s target t op run)
      else match op with
      | .read n => (match readRange s 0 t va n with | .error f => .error f | .ok (b, s) => .ok { bytes := b, state := s, run := run })
      | .write bs =>
        let (s, run) := writeRange s 0 t bs (.thread 0 none) run
        .ok { bytes := [], state := s, run := run }
      | .atomic k d v =>
        let w := if d then 8 else 4
        if va % w != 0 then .error (flt 2 1 va)
        else if s.poisoned t.place w then .error (flt 6 1 va)
        else
          let (old, s) := atomicAtHome s t.place k w v 0
          .ok { bytes := natBytes w old, state := s, run := run }

/-- A wake write reaches a partition (R98, R103): a dormant one begins to wake, a collapsing one returns to ACTIVE. -/
def wakeRequest (s : State) (p : Nat) : State :=
  match (s.part p).dmState with
  | .dormant => s.modPart p (fun q => { q with dmState := .waking })
  | .collapsing => s.modPart p (fun q => { q with dmState := .active, idleSince := none })
  | _ => s

/-- The sentinel's store (R99): writes of up to 64 bytes. -/
def heldLimit : Nat := 1024

def fabBytes : FabOp → Nat | .read _ => 0 | .write bs => bs.length | .atomic _ _ _ => 8

/-- The places of up to 64 bytes that a held write takes (R99). -/
def heldPlaces (s : State) : HeldWrite → Nat
  | .fabric r | .request _ _ r => max 1 ((fabBytes r.op + 63) / 64)
  | .member _ _ _ _ _ bs => max 1 ((bs.length + 63) / 64)
  | .commit op _ => max 1 ((((s.colls.find? (fun o => o.key = op)).map (fun o => o.data.length)).getD 0 + 63) / 64)
  | _ => 1

/-- The places taken. -/
def heldTaken (s : State) : Nat := (s.held.map (fun h => heldPlaces s h.2)).sum

/-- The sentinel accepts a write for a partition that is not awake, and holds it (R98, R103); one that finds no room is refused
without loss, and its sender offers it again (R99). -/
def holdWriteFor (s : State) (p : Nat) (w : HeldWrite) : State :=
  if heldTaken s + heldPlaces s w ≤ heldLimit then wakeRequest { s with held := s.held ++ [(p, w)] } p else s

/-- A write for partition `p`: performed where that is ACTIVE or has only begun to collapse, else held. -/
def writeOrHold (s : State) (p : Nat) (w : HeldWrite) (perform : State → State) : State :=
  match (s.part p).dmState with
  | .active => perform s
  | .collapsing => perform (wakeRequest s p)
  | .dormant | .waking => holdWriteFor s p w
  | .lost => s

/-! ### `get` and `put` (R339) -/

/-- The length word and the LM range. -/
def getCheck (off x : Nat) : Option Flt :=
  failIf (bits x 12 52 != 0) (flt 3 6) <|> failIf (393215 < off + x % 4096) (flt 3 2)

/-- A thread of the issuing context, handed to the network interface. -/
def newThread (s : State) (kind : NiKind) (tag : Nat) : NiThread where
  id := s.nextKey
  ctx := s.cur.2
  kind := kind
  tag := tag
  lmOff := 0
  addr := 0
  len := 0
  fabric := none
  op := 0
  started := false
  next := 0
  chunks := []
  failed := none
  run := []

def pushThread (s : State) (t : NiThread) : Result :=
  if s.me.tagBusy.getLsbD t.tag then sleepIn s .tagBusy
  else retire ({ takeTag s s.cur.1 t.tag with nextKey := s.nextKey + 1 }.modMe (fun c => { c with ni := c.ni ++ [t] })) 4

def getPut (s : State) (kind : NiKind) (tag : BitVec 6) (ra rb : Reg) (x : BitVec 3) : Result :=
  let off := s.gprN ra
  let xw := (s.xr x.toNat).toNat
  let a := s.gprN rb
  let t := { newThread s kind tag.toNat with lmOff := off, addr := s.gpr rb, len := xw % 4096 + 1 }
  match getCheck off xw with
  | some f => raise s f
  | none =>
    if fabricAddr a then
      match endpoint s with
      | .error f => raise s { f with addr := a }
      | .ok e => pushThread s { t with addr := b64 (a % 2 ^ 56), fabric := some e }
    else pushThread s t

def execGet (tag : BitVec 6) (ra rb : Reg) (x : BitVec 3) (s : State) : Result := getPut s .get tag ra rb x
def execPut (tag : BitVec 6) (ra rb : Reg) (x : BitVec 3) (s : State) : Result := getPut s .put tag ra rb x

/-- The length of the thread's next chunk: no 4 KiB boundary of the other address. -/
def NiThread.chunk (t : NiThread) : Nat := min (t.len - t.next) (4096 - (t.addr.toNat + t.next) % 4096)

/-! ### Fabric channels (R209, R224) -/

/-- A request leaves for another package: it enters the channel of the virtual channel that `Input.ch` names. -/
def sendFabric (s : State) (core key pkg : Nat) (r : FabReq) : State :=
  let k := pkg * 4 + s.input.ch % 4
  { s with fabric := tput s.fabric k (tget s.fabric k [] ++ [{ core := core, key := key, req := r }]) }

/-- The channel in which a request to a package stands. -/
def fabricChannel (s : State) (core key pkg : Nat) (r : FabReq) : Option Nat :=
  ((List.range 4).map (pkg * 4 + ·)).find? (fun k => (tget s.fabric k []).contains { core := core, key := key, req := r })

/-- The head of a channel is performed and leaves it. -/
def popFabric (s : State) (k : Nat) : State := { s with fabric := match (tget s.fabric k []).drop 1 with | [] => tdel s.fabric k | q => tput s.fabric k q }

/-- What an agent has sent and no longer waits for leaves the channels. -/
def dropSends (s : State) (core key : Nat) : State :=
  { s with fabric := (s.fabric.map (fun e => (e.1, e.2.filter (fun x => !(x.core = core && x.key = key))))).filter (fun e => !e.2.isEmpty) }

/-- The bytes that an answer to a request has. -/
def answerLen : FabOp → Option Nat | .read n => some n | .write _ => none | .atomic _ d _ => some (if d then 8 else 4)

/-- A request to another package: sent, then answered when it stands at the head of its channel; the answer comes as `Input.ext`. -/
def askForeign (s : State) (core key pkg : Nat) (r : FabReq) : State × Option (Except Flt (List Byte)) :=
  if !reachable s pkg then (dropSends s core key, some (.error (flt 4 6 r.va)))
  else match fabricChannel s core key pkg r with
  | none => (sendFabric s core key pkg r, none)
  | some k =>
    if (tget s.fabric k []).head? != some { core := core, key := key, req := r } then (s, none)
    else match s.input.ext with
    | .none => (s, none)
    | .data bs => if (answerLen r.op).all (· = bs.length) then (popFabric s k, some (.ok bs)) else (s, none)
    | .fault q u => (popFabric s k, some (.error (flt q u r.va)))
    | .absent => (popFabric s k, some (.error (flt 4 6 r.va)))

/-- A request in an endpoint of the fabric. A write for a partition of this package that is not awake is held by the sentinel, and
answered when it is performed (R98, R331). -/
def askFabric (s : State) (core key pkg part va : Nat) (op : FabOp) (run : Cover) : State × Option (Except Flt (List Byte × Cover)) :=
  let r : FabReq := { srcPkg := s.pkgId.toNat, srcPart := (s.core core).part.getD 0, part := part, va := va, op := op }
  if pkg = s.pkgId.toNat then
    let w := HeldWrite.request core key r
    if s.held.contains (part, w) then (s, none)
    else if fabWrites op && (fabricPeer s r.srcPkg r.srcPart part va).isNone &&
        ((s.part part).dmState = .dormant || (s.part part).dmState = .waking) then (holdWriteFor s part w, none)
    else
      let s := if fabWrites op && (fabricPeer s r.srcPkg r.srcPart part va).isNone then wakeRequest s part else s
      match fabricServe s pkg r.srcPart part va op run with
      | .error f => (s, some (.error f))
      | .ok x => (x.state, some (.ok (x.bytes, x.run)))
  else match askForeign s core key pkg r with
  | (s, none) => (s, none)
  | (s, some (.error f)) => (s, some (.error f))
  | (s, some (.ok bs)) => (s, some (.ok (bs, run)))

/-! ### The chunks of `get` and `put` -/

/-- Reads and writes of a network-interface thread: at home within the package, else through the fabric. -/
def niPort (core key : Nat) (o : Origin) : ChunkPort where
  read := fun s pl handoff va n =>
    match pl with
    | .fabric k p a =>
      (match askFabric s core key k p a (.read n) [] with
       | (s, none) => (s, none)
       | (s, some (.error f)) => (s, some (.error f))
       | (s, some (.ok r)) => (s, some (.ok r.1)))
    | _ => (diePort (dieOf core) o).read s pl handoff va n
  write := fun s pl handoff va bs run =>
    match pl with
    | .fabric k p a =>
      (match askFabric s core key k p a (.write bs) run with
       | (s, none) => (s, none)
       | (s, some (.error f)) => (s, some (.error f))
       | (s, some (.ok r)) => (s, some (.ok r.2)))
    | _ => (diePort (dieOf core) o).write s pl handoff va bs run

/-- The other place of a thread's next chunk, checked (R194 without check 8); in a fabric endpoint the target checks it. -/
def niTarget (s : State) (core : Nat) (t : NiThread) : Except Flt Place :=
  let va := t.addr.toNat + t.next
  match t.fabric with
  | some (k, p) => .ok (.fabric k p va)
  | none => (match checkAcc s core (if t.kind = .get then .chunkRead true else .chunkWrite true) va t.chunk with
    | .error f => .error f
    | .ok tg => .ok tg.place)

/-- The next chunk of a thread is opened. -/
def niOpen (s : State) (core : Nat) (t : NiThread) : NiThread :=
  match niTarget s core t with
  | .error f => { t with failed := some f }
  | .ok pl =>
    let va := t.addr.toNat + t.next
    let lm := Place.lm core (t.lmOff + t.next)
    let get := t.kind = .get
    let c : Chunk := {
      row := 0, off := t.next, src := if get then pl else lm, srcHandoff := false, srcVa := va
      dst := if get then lm else pl, dstHandoff := false, dstVa := va, len := t.chunk, got := [], put := [] }
    { t with chunks := t.chunks ++ [c], next := t.next + t.chunk }

structure NiStep where
  state : State
  thread : NiThread
  out : UnitEnd

def NiThread.more (t : NiThread) : Bool := decide (t.next < t.len) && t.failed.isNone
def NiThread.openChunks (t : NiThread) : Chunks := { opened := t.chunks, failed := t.failed, run := t.run }
def NiThread.setChunks (t : NiThread) (c : Chunks) : NiThread := { t with chunks := c.opened, failed := c.failed, run := c.run }

/-- One unit of a `get` or `put`: its `k`-th allowed move, the last of them the opening of its next chunk. -/
def niChunk (s : State) (core : Nat) (t : NiThread) (k : Nat) : NiStep :=
  let (s, t) :=
    match (chunkMoves [] 0 t.chunks)[k]? with
    | some m => (let (s, c) := t.openChunks.move (niPort core t.id (.thread (core * 16 + t.ctx) (some t.tag))) s m; (s, t.setChunks c))
    | none => (s, if t.more then niOpen s core t else t)
  { state := s, thread := t, out := t.openChunks.out t.more }

/-- The pieces of a chunk that a request writes. -/
def Chunk.asked (s : State) (h : Chunk) (r : FabReq) : List (Nat × Nat) :=
  h.toWrite.filter (fun p => h.dst.add p.1 = .fabric s.pkgId.toNat r.part r.va)

/-- A held write of a `put` is refused when it is performed: its chunk fails. -/
def niRefused (s : State) (core key : Nat) (r : FabReq) (f : Flt) : State :=
  s.modCore core (fun c => { c with ni := c.ni.map (fun t =>
    match t.chunks.findIdx? (fun h => !(h.asked s r).isEmpty) with
    | some k => if t.id = key then t.setChunks (t.openChunks.fail k f) else t
    | none => t) })

/-- A held write of a `put` has been performed: the piece is written. -/
def niAnswered (s : State) (core key : Nat) (r : FabReq) : State :=
  s.modCore core (fun c => { c with ni := c.ni.map (fun t =>
    if t.id != key then t
    else
      let wrote := fun (h : Chunk) => { h with
        put := h.put ++ (h.asked s r).map (·.1) }
      { t with chunks := (t.chunks.map wrote).filter (fun h => !h.done) }) })

/-! ### Collectives (R341) -/

/-- XWORD, ACCESS, TRANGE. -/
def collCheck (a b x : Nat) : Option Flt :=
  let n := bits x 12 11 + 1
  failIf (bits x 56 8 != 0 || bits x 23 1 != 0) (flt 3 6)
  <|> failIf (b % 8 != 0) (flt 2 1 b)
  <|> failIf (393215 < a + 4 * n - 1 || 393215 < b + 7) (flt 3 2)

/-- `addr` holds the status word's offset, `len` the element count, and `next` the group word. -/
def collective (s : State) (kind : NiKind) (tag : BitVec 6) (ra rb : Reg) (x : BitVec 3) : Result :=
  let xw := (s.xr x.toNat).toNat
  match collCheck (s.gprN ra) (s.gprN rb) xw with
  | some f => raise s f
  | none => pushThread s { newThread s kind tag.toNat with
      lmOff := s.gprN ra
      addr := s.gpr rb
      len := bits xw 12 11 + 1
      next := xw }

def execMldred (tag : BitVec 6) (ra rb : Reg) (x : BitVec 3) (s : State) : Result := collective s .mldred tag ra rb x
def execMcst (tag : BitVec 6) (ra rb : Reg) (x : BitVec 3) (s : State) : Result := collective s .mcst tag ra rb x

/-- Bytes of an element of a member's buffer, and of a result element (R28, R341). -/
def Group.inSize (g : Group) : Nat := if g.fmt = 2 then 4 else 2
def Group.outSize (g : Group) : Nat := if g.fmt = 1 then 2 else 4

def Group.permits (g : Group) (store : Bool) : Bool := if store then g.flags / 2 % 2 = 1 else g.flags % 2 = 1

/-- The lowest member that is absent (R34). -/
def absentMember (s : State) (g : Group) : Option Nat :=
  (List.range g.members.length).find? (fun i =>
    g.killed.contains i || (match g.members[i]? with | some m => memberGone s g m | none => false))

def breakGroup (s : State) (gid : Nat) : State :=
  match tfind s.groups gid with
  | some g => { s with groups := tput s.groups gid { g with broken := true } }
  | none => s

def noMember : Nat := 0xffff

/-- How an operation ends at once: DENIED, or PEER_ABSENT with the absent member (R34, R342). -/
def collEarly (s : State) (core ctx gid : Nat) (store : Bool) : Option (Nat × Nat) :=
  match tfind s.groups gid with
  | none => some (3, noMember)
  | some g =>
    if !g.members.any (namesMember s core ctx) || !g.permits store then some (3, noMember)
    else match absentMember s g with
    | some i => some (1, i)
    | none => if g.broken then some (1, noMember) else none

def Group.none : Group :=
  { count := 0, fmt := 0, flags := 0, root := 0, gen := 0, members := [], broken := true, killed := [], part := 0 }

/-- A collective thread starts: its operation goes to the root, that of an `mcst` once its source elements have been read. -/
def startColl (s : State) (core : Nat) (t : NiThread) : State :=
  let gid := t.next % 4096
  let store := t.kind = .mcst
  let g := tget s.groups gid Group.none
  let early := collEarly s core t.ctx gid store
  let op : CollOp := {
    key := s.nextKey
    group := g
    part := (s.core core).part.getD 0
    core := core
    ctx := t.ctx
    thread := t.id
    store := store
    gid := gid
    e0 := bits t.next 24 32
    n := t.len
    lmOff := t.lmOff
    statOff := t.addr.toNat
    asked := s.clock
    answers := []
    staged := []
    committed := false
    written := []
    data := []
    moved := []
    ended := early }
  let s := { s with nextKey := s.nextKey + 1, colls := s.colls ++ [op] }
  match early with
  | some (1, _) => breakGroup s gid
  | _ => s

def State.coll? (s : State) (k : Nat) : Option CollOp := s.colls.find? (fun o => o.key = k)
def State.setColl (s : State) (o : CollOp) : State := { s with colls := s.colls.map (fun x => if x.key = o.key then o else x) }

/-- Every member port has performed its write. -/
def CollOp.allWritten (o : CollOp) : Bool := o.committed && (List.range o.group.members.length).all (o.written.contains ·)

/-- The status with which an operation has ended (R342). -/
def CollOp.status (o : CollOp) : Option (Nat × Nat) := if o.ended.isSome then o.ended else if o.allWritten then some (0, noMember) else none

def State.dropColl (s : State) (k : Nat) : State := { s with colls := s.colls.filter (fun x => x.key != k) }

/-- The bytes of LM that an operation reads or writes for its elements (R341). -/
def CollOp.size (o : CollOp) : Nat := o.n * if o.store then o.group.inSize else o.group.outSize

/-- The pieces that the thread has still to read, or to write. -/
def CollOp.toMove (o : CollOp) : List (Nat × Nat) :=
  (partsOf (.lm o.core o.lmOff) o.size).filter (fun p => !o.moved.any (fun m => m.1 = p.1))

/-- The source of an `mcst` has been read, and its data are at the root. -/
def CollOp.sent (o : CollOp) : Bool := !o.store || o.toMove.isEmpty

/-- A piece of an `mcst`'s source is read; with the last one the operation goes to the root, which asks the members. -/
def readSource (s : State) (o : CollOp) (p : Nat × Nat) : State :=
  let o := { o with moved := o.moved ++ [(p.1, readPlace s (.lm o.core (o.lmOff + p.1)) p.2)] }
  s.setColl (if o.sent then { o with
    asked := s.clock
    data := (partsOf (.lm o.core o.lmOff) o.size).flatMap (fun q => ((o.moved.find? (fun m => m.1 = q.1)).map (·.2)).getD []) } else o)

/-- A piece of an `mldred`'s result is written. -/
def writeResult (s : State) (o : CollOp) (p : Nat × Nat) : State :=
  (writePlace s (.lm o.core (o.lmOff + p.1)) ((o.data.drop p.1).take p.2)).setColl { o with moved := o.moved ++ [(p.1, [])] }

/-- An access of a collective's thread to its elements is due: to an `mcst`'s source before it has ended, to an `mldred`'s result once it
has ended with OK. -/
def CollOp.moving (o : CollOp) : Bool :=
  !o.toMove.isEmpty && if o.store then o.ended.isNone else o.ended.any (fun st => st.1 = 0)

/-- The status word is written to LM, after the result (R342). -/
def finishColl (s : State) (o : CollOp) (st : Nat × Nat) : State :=
  (writePlace s (.lm o.core o.statOff) (natBytes 8 (st.1 + 65536 * st.2))).dropColl o.key

/-- Member port `k` has performed its write. An operation whose thread is gone ends with the last of them. -/
def memberWrote (s : State) (op k : Nat) : State :=
  match s.coll? op with
  | none => s
  | some o =>
    let o := { o with written := o.written ++ [k] }
    if o.allWritten && !(s.core o.core).ni.any (fun t => t.id = o.thread) then s.dropColl op else s.setColl o

/-- The threads of a core are gone: of its operations, only the writes of one that is committed go on. -/
def dropColls (s : State) (core : Nat) : State :=
  { s with colls := s.colls.filter (fun o => o.core != core || (o.committed && !o.allWritten)) }

/-! ### Running a thread (R195, R217, R218) -/

def niSlots : Nat := 16

/-- The command at the head of the network interface's queue: the first that has not started (R209). -/
def niHead (c : Core) : Option NiThread := c.ni.find? (fun t => !t.started)

/-- A thread runs, or may start: it is at the head, its context's earlier accesses are performed at `.core`, and fewer than 16 run. -/
def niReady (s : State) (core : Nat) (t : NiThread) : Bool :=
  t.started || ((niHead (s.core core)).any (fun h => h.id = t.id) && forkReady s core t.ctx t.id 0 &&
    decide (((s.core core).ni.filter (·.started)).length < niSlots))

def setThread (s : State) (core : Nat) (t : NiThread) : State :=
  s.modCore core (fun c => { c with ni := c.ni.map (fun x => if x.id = t.id then t else x) })

/-- A thread starts. -/
def niStart (s : State) (core : Nat) (t : NiThread) : State :=
  if t.started then s
  else
    let s := setThread s core { t with started := true }
    if t.kind = .get || t.kind = .put then s else startColl s core { t with started := true }

/-- A thread ends, and its tag completes. -/
def niEnd (s : State) (core : Nat) (t : NiThread) (f : Option Flt) : State :=
  let s := (dropSends s core t.id).modCore core (fun c => { c with ni := c.ni.filter (fun x => x.id != t.id) })
  match f with
  | none => endTag s core t.tag false
  | some f => endTag (tagNotice s core t.ctx t.tag f) core t.tag true

/-- One unit of a thread: its `k`-th move, or the end of a collective whose status is known and whose result is in LM. -/
def niUnit (s : State) (core : Nat) (t : NiThread) (k : Nat) : State × Bool :=
  let s := niStart s core t
  let t := { t with started := true }
  match t.kind with
  | .get | .put =>
    let r := niChunk s core t k
    (match r.out with
     | .all => (niEnd r.state core r.thread none, true)
     | .failed f => (niEnd r.state core r.thread (some f), true)
     | .more => (setThread r.state core r.thread, false))
  | _ =>
    match s.colls.find? (fun o => o.core = core && o.thread = t.id) with
    | none => (s, true)
    | some o =>
      if o.moving then
        match o.toMove[k]? with
        | some p => (if o.store then readSource s o p else writeResult s o p, false)
        | none => (s, true)
      else match o.status with
      | none => (s, true)
      | some st => (niEnd (finishColl s o st) core t none, true)

/-- Units of a thread until it ends; `fuel` bounds its chunks. -/
def niUnits : Nat → State → Nat → Nat → State
  | 0, s, _, _ => s
  | n + 1, s, core, id =>
    match (s.core core).ni.find? (fun t => t.id = id) with
    | none => s
    | some t =>
      if !niReady s core t then s
      else
        let (s', stop) := niUnit s core t 0
        if stop then s' else niUnits n s' core id

/-- A thread of a core ends. An answer of another package serves one access. -/
def execNiThreadEnd (s : State) : Result :=
  let i := s.input
  match (s.core i.core).ni.find? (fun t => t.id = i.key) with
  | none => .next s
  | some t =>
    let foreign := match t.fabric with | some (k, _) => k != s.pkgId.toNat | none => false
    .next (niUnits (if foreign then 1 else 200) s i.core i.key)

/-! ### The root and the members (R30 to R36) -/

/-- Widen(In) as FP32 bits. -/
def widenIn (fmt v : Nat) : Nat := if fmt = 2 then v % 2 ^ 32 else (fpRound fp32 .rne (fpDecode bf16 (v % 65536))).1

/-- Out(e) of R30 from the members' elements in member order. The flags of these roundings reach no FPFLAGS: R235 names no receiver
for an `mldred` (DESIGN CHOICE, log 36). -/
def reduceElem (fmt : Nat) : List Nat → Nat
  | [] => 0
  | x :: r =>
    let acc := r.foldl (fun a v => (round32 .rne (fpAdd (dec32 a) (dec32 (widenIn fmt v)))).1) (widenIn fmt x)
    if fmt = 1 then (fpRound bf16 .rne (dec32 acc)).1 else acc

/-- The reduction of `n` elements. -/
def reduceAll (g : Group) (n : Nat) (ins : List (List Byte)) : List Byte :=
  (List.range n).flatMap (fun e => natBytes g.outSize
    (reduceElem g.fmt (ins.map (fun b => leNat ((b.drop (e * g.inSize)).take g.inSize)))))

def execMldredRoot (s : State) : Result :=
  match s.coll? s.input.op with
  | none => .next s
  | some o =>
    let ks := List.range o.group.members.length
    if o.store || o.ended.isSome || !ks.all (fun i => (tfind o.answers i).isSome) then .next s
    else .next (s.setColl { o with
      data := reduceAll o.group o.n (ks.map (fun i => tget o.answers i []))
      ended := some (0, noMember) })

/-- The address of a member's elements. -/
def memberVa (g : Group) (m : Member) (e0 : Nat) : Nat := m.va + e0 * g.inSize

/-- A notice to a member partition's supervisor (R31). -/
def memberNotice (s : State) (m : Member) (f : Flt) : State :=
  sendNotice s m.part (mkPacket s 1 m.core m.ctx 5 f 0 0 (s.core m.core).nodeid)

/-- A member's group has members of another partition. -/
def foreignGroup (g : Group) (m : Member) : Bool := g.members.any (fun x => x.pkg != m.pkg || x.part != m.part)

/-- A member of this package reads its elements; a dormant partition serves them by the peek path (R33).
Of a sealed partition a peek and another partition's group read ciphertext (R74, R104). -/
def readMember (s : State) (g : Group) (m : Member) (e0 n : Nat) : Except Flt (List Byte) :=
  let w := n * g.inSize
  if (s.part m.part).sealed && (foreignGroup g m || !s.partAwake m.part) then firmwareRead s m.part (memberVa g m e0) w
  else vread s m.part (memberVa g m e0) w

/-- The operation ends with a member's status. -/
def endColl (s : State) (o : CollOp) (st i : Nat) : State := s.setColl { o with ended := some (st, i) }

/-- The member timeout of R34: 100 µs. -/
def memberTimeout : Nat := 100 * cyclesPerUs

/-- A member that the root has asked 100 µs ago is absent for the operation (R34). -/
def CollOp.late (o : CollOp) (s : State) : Bool := decide (o.asked + memberTimeout ≤ s.clock)

/-- A member read of an operation of this package. A read that takes DIE_ABSENT at a home other than the member's own die is a
MEMBER_FAULT with a notice of that kind (DESIGN CHOICE, log 36: R31 does not name it). -/
def ownMemberRead (s : State) (o : CollOp) (i : Nat) (m : Member) : State :=
  let put := fun (b : List Byte) => s.setColl { o with answers := tput o.answers i b }
  if memberGone s o.group m then breakGroup (endColl s o 1 i) o.gid
  else if o.late s then endColl s o 1 i
  else if m.pkg = s.pkgId.toNat then
    match readMember s o.group m o.e0 o.n with
    | .ok b => (peekRange s m.part (memberVa o.group m o.e0) b.length).setColl { o with answers := tput o.answers i b }
    | .error f => endColl (memberNotice s m f) o 2 i
  else match s.input.ext with
    | .data b => if b.length = o.n * o.group.inSize then put b else s
    | .fault _ _ => endColl s o 2 i
    | .absent => breakGroup (endColl s o 1 i) o.gid
    | .none => s

/-- A read that a root elsewhere asks of a member here: group `key`, offset `off`, count `amount`. Only a fault leaves a mark. -/
def askedMemberRead (s : State) : State :=
  let i := s.input
  match tfind s.groups i.key with
  | none => s
  | some g =>
    match g.members[i.member]? with
    | none => s
    | some m =>
      if m.pkg != s.pkgId.toNat then s
      else if memberGone s g m then breakGroup s i.key
      else match readMember s g m i.off i.amount with | .ok b => peekRange s m.part (memberVa g m i.off) b.length | .error f => memberNotice s m f

def execMemberRead (s : State) : Result :=
  let i := s.input
  match s.coll? i.op with
  | none => .next (askedMemberRead s)
  | some o =>
    match o.group.members[i.member]? with
    | none => .next s
    | some m =>
      if o.store || o.ended.isSome || (tfind o.answers i.member).isSome then .next s
      else .next (ownMemberRead s o i.member m)

/-- Data that another package's operation staged with a member here (R32). -/
def State.staged? (s : State) : Option Staged :=
  s.staged.find? (fun x => x.pkg = s.input.pkg && x.op = s.input.op && x.index = s.input.member)

def State.unstage (s : State) : State :=
  { s with staged := s.staged.filter (fun x => !(x.pkg = s.input.pkg && x.op = s.input.op && x.index = s.input.member)) }

/-- The entries of another package's operation. -/
def State.opStaged (s : State) : List Staged := s.staged.filter (fun x => x.pkg = s.input.pkg && x.op = s.input.op)

/-- The root here gives another package's operation up before its commit: the discard drops every staged copy (R32). -/
def State.discard (s : State) : State :=
  { s with staged := s.staged.filter (fun x => x.committed || !(x.pkg = s.input.pkg && x.op = s.input.op)) }

/-- Every member of another package's operation has acknowledged. -/
def State.allStaged (s : State) : Bool :=
  s.opStaged.any (fun x => (List.range (tget s.groups x.gid Group.none).members.length).all (fun k => s.opStaged.any (·.index = k)))

/-- The root here asked the members of another package's operation 100 µs ago, and one of them has not acknowledged (R34). -/
def State.foreignLate (s : State) : Bool :=
  !s.allStaged && s.opStaged.any (fun y => y.rooted && !y.committed && decide (y.since + memberTimeout ≤ s.clock))

/-- The 100 µs of another package's operation, whose root is here, or the discard of a root elsewhere (R32, R34). -/
def timeoutForeign (s : State) : State :=
  match s.opStaged with
  | [] => s
  | x :: _ => if !x.rooted then s.unstage else if s.foreignLate then s.discard else s

/-- A root here gives a member up after 100 µs; the discard of a root elsewhere drops what was staged (R32). -/
def execMemberTimeout (s : State) : Result :=
  let i := s.input
  match s.coll? i.op with
  | none => .next (timeoutForeign s)
  | some o =>
    let answered := if o.store then o.staged.contains i.member else (tfind o.answers i.member).isSome
    if o.ended.isSome || o.committed || !o.sent || answered || o.group.members.length ≤ i.member || s.clock < o.asked + memberTimeout then .next s
    else .next (endColl s o 1 i.member)

/-- A root has a member stage data of another package's `mcst`: operation `op` of package `pkg`, group `key`, first element `off`. The
root may be elsewhere and the member here; or the root is here, and a member of another package acknowledges by `Input.ext`. -/
def stageForeign (s : State) : State :=
  let i := s.input
  match tfind s.groups i.key, i.req.op with
  | some g, .write bs =>
    (match g.members[i.member]? with
     | some m =>
       let rooted := g.root = s.pkgId.toNat
       let here := m.pkg = s.pkgId.toNat
       if (!here && !rooted) || g.broken || s.staged?.isSome || s.opStaged.any (·.committed) then s
       else if memberGone s g m || (!here && i.ext = .absent) then (if rooted then breakGroup s.discard i.key else s)
       else if s.foreignLate then s.discard
       else if !here && i.ext = .none then s
       else { s with staged := s.staged ++ [{
         pkg := i.pkg, op := i.op, gid := i.key, index := i.member, member := m, shared := foreignGroup g m
         off := memberVa g m i.off, bytes := bs, rooted := rooted
         since := match s.opStaged with | x :: _ => x.since | [] => s.clock
         committed := false }] }
     | none => s)
  | _, _ => s

/-- A member port stages the data and acknowledges; another package's acknowledgement comes as `Input.ext`. -/
def execMcstStage (s : State) : Result :=
  let i := s.input
  match s.coll? i.op with
  | none => .next (stageForeign s)
  | some o =>
    match o.group.members[i.member]? with
    | none => .next s
    | some m =>
      if !o.store || o.ended.isSome || o.committed || !o.sent || o.staged.contains i.member then .next s
      else if memberGone s o.group m || (m.pkg != s.pkgId.toNat && i.ext = .absent) then .next (breakGroup (endColl s o 1 i.member) o.gid)
      else if o.late s then .next (endColl s o 1 i.member)
      else if m.pkg != s.pkgId.toNat && i.ext = .none then .next s
      else .next (s.setColl { o with staged := o.staged ++ [i.member] })

/-- The root here commits another package's operation once every member has acknowledged; the commits to members of other packages
are sent with it (R32). -/
def rootForeign (s : State) : State :=
  match s.opStaged with
  | [] => s
  | x :: _ =>
    if !x.rooted || (tget s.groups x.gid Group.none).broken || !s.allStaged then s
    else
      let mine := fun (y : Staged) => y.pkg = x.pkg && y.op = x.op
      { s with staged := (s.staged.filter (fun y => !mine y || y.member.pkg = s.pkgId.toNat)).map (fun y =>
        if mine y then { y with committed := true } else y) }

/-- Every member has acknowledged: the root commits. -/
def execMcstCommit (s : State) : Result :=
  match s.coll? s.input.op with
  | none => .next (rootForeign s)
  | some o =>
    if !o.store || o.ended.isSome || o.committed || !(List.range o.group.members.length).all (o.staged.contains ·) then .next s
    else .next (s.setColl { o with committed := true })

/-- A member's write in this package, for a context of a partition. One that the page tables refuse is not made, and the supervisor
is told (log 36); a group with members of other partitions cannot write a sealed one (R74). -/
def writeMember (s : State) (part core ctx va : Nat) (shared : Bool) (bs : List Byte) : State :=
  let notice := fun (f : Flt) => sendNotice s part (mkPacket s 1 core ctx 5 f 0 0 (s.core core).nodeid)
  let ctr := (List.range bs.length).any (fun i =>
    match translate s part (va + i) false true with | .ok (a, _) => pageCounter a | .error _ => false)
  if (s.part part).sealed && shared then s.firewallDrop
  else if ctr then notice (flt 5 5 va)
  else match vwrite s part va bs with
  | .ok s => s
  | .error f => notice f

/-- The commit of another package's operation reaches the member port that staged its data; a root here has sent it before. -/
def commitForeign (s : State) : State :=
  match s.staged? with
  | none => s
  | some x =>
    let m := x.member
    if x.rooted && !x.committed then s
    else if partAbsent s m.part then s.unstage
    else
      let w := HeldWrite.member m.part m.core m.ctx x.off x.shared x.bytes
      let t := writeOrHold s m.part w (fun s => writeMember s m.part m.core m.ctx x.off x.shared x.bytes)
      if (s.part m.part).dmState = .dormant || (s.part m.part).dmState = .waking then
        (if t.held.length = s.held.length then s else t.unstage)
      else t.unstage

/-- The data of a committed operation travels to a member of another package through the fabric (R224): it has been performed. -/
def commitSent (s : State) (o : CollOp) (m : Member) : State × Bool :=
  let r : FabReq := { srcPkg := s.pkgId.toNat, srcPart := o.part, part := m.part, va := memberVa o.group m o.e0
                      op := .write o.data }
  if !reachable s m.pkg then (s, false)
  else match askForeign s ghost o.key m.pkg r with
  | (s, a) => (s, a.isSome)

/-- A member port performs its write when the commit arrives; for a partition that is not awake it is a wake write (R33). -/
def execMemberCommitWrite (s : State) : Result :=
  let i := s.input
  match s.coll? i.op with
  | none => .next (commitForeign s)
  | some o =>
    match o.group.members[i.member]? with
    | none => .next s
    | some m =>
      let done := fun (s : State) => memberWrote s i.op i.member
      if !o.committed || o.written.contains i.member || s.held.contains (m.part, .commit i.op i.member) then .next s
      else if m.pkg != s.pkgId.toNat then (let (s, ok) := commitSent s o m; .next (if ok then done s else s))
      else if (s.part m.part).dmState = .lost then .next (done s)
      else .next (writeOrHold s m.part (.commit i.op i.member) (fun s =>
        done (writeMember s m.part m.core m.ctx (memberVa o.group m o.e0) (foreignGroup o.group m) o.data)))

/-! ### Killed contexts (R35, R36) -/

/-- The indices of the members that name a context as owner. -/
def ownedBy (g : Group) (pkg core ctx : Nat) : List Nat :=
  (List.range g.members.length).filter (fun i =>
    match g.members[i]? with | some m => m.pkg = pkg && m.core = core && m.ctx = ctx | none => false)

/-- A group hears that a context is killed: it is broken, with the members that the context owned. -/
def Group.kill (g : Group) (pkg core ctx : Nat) : Group :=
  match ownedBy g pkg core ctx with
  | [] => g
  | l => { g with broken := true, killed := g.killed ++ l }

/-- A pending operation of such a group ends with PEER_ABSENT, unless its result or commit has left the root (R36). -/
def CollOp.kill (o : CollOp) (pkg core ctx : Nat) : CollOp :=
  match ownedBy o.group pkg core ctx with
  | [] => o
  | i :: _ => if o.ended.isSome || o.committed then o else { o with ended := some (1, i), answers := [], staged := [] }

def killGroups (s : State) (pkg core ctx : Nat) : State :=
  { s with
    groups := s.groups.map (fun e => (e.1, e.2.kill pkg core ctx))
    colls := s.colls.map (fun o => o.kill pkg core ctx)
    staged := s.staged.filter (fun x =>
      x.committed || (match tfind s.groups x.gid with | some g => (ownedBy g pkg core ctx).isEmpty | none => true)) }

/-- Members that no operation can reach break their group, and end its pending operations that are not committed (R34). -/
def breakAbsent (s : State) : State :=
  let gone := fun (g : Group) => g.members.findIdx? (memberGone s g)
  { s with
    groups := s.groups.map (fun e => (e.1, { e.2 with broken := e.2.broken || (gone e.2).isSome }))
    colls := s.colls.map (fun o => match gone o.group with
      | some i => if o.ended.isSome || o.committed then o else { o with ended := some (1, i), answers := [], staged := [] }
      | none => o)
    staged := s.staged.filter (fun x =>
      !x.rooted || x.committed || (match tfind s.groups x.gid with | some g => (gone g).isNone | none => true)) }

/-- A kill notice reaches the switches: one that fw6 of this package sent, or one from another package. -/
def execKillNotice (s : State) : Result :=
  let i := s.input
  if i.pkg = s.pkgId.toNat then
    if s.kills.contains (i.core, i.ctx) then
      .next (killGroups { s with kills := s.kills.erase (i.core, i.ctx) } i.pkg i.core i.ctx)
    else .next s
  else .next (killGroups s i.pkg i.core i.ctx)

end Sys2Proof.Machine
end

