-- ==== Sys2Proof/Machine/Engines.lean ====
section
/-! DEFINITION. Engine threads (spec/08_execution.md R164; spec/10_ordering.md R217, R218; spec/13_faults.md R279): START, the
units of a running job, and its end. -/
namespace Sys2Proof.Machine

/-! ### START (R217) -/

/-- A job that has not started may: the engine runs and accepts a command (R91), and the fork condition holds. A vector job waits for no access (R354). -/
def startReady (s : State) (core : Nat) (e : Engine) (j : Job) : Bool :=
  !j.started && !(s.core core).engStopped && slotOpen s core && (e = .vector || forkReady s core j.ctx j.forkId 0)

def setHead (c : Core) (e : Engine) (j : Job) : Core := c.setQueue e (j :: (c.queue e).drop 1)

/-- Free entries of the queue are taken first: a reconcile job that is not HELD enters the matrix queue (R257). -/
def execEngineStart (s : State) : Result :=
  let core := s.input.core
  let e := s.input.engine
  let s : State := refill s core
  match (s.core core).queue e with
  | [] => .next s
  | j :: _ =>
    if !startReady s core e j then .next s
    else
      let j' := if e = .vector then startVector (s.ctx core j.ctx) j else { j with started := true }
      .next (s.modCore core (fun c => setHead c e j'))

/-! ### Units -/

/-- Jobs that run to their end once started (R279, R382). -/
def wholeJob (j : Job) : Bool :=
  match engineOf j.instr, j.instr with
  | some .vector, _ => true
  | _, .aczero _ | _, .acld _ _ _ | _, .acst _ _ _ _ | _, .scaccVector _ _ _ _ _ _ | _, .scaccXreg _ _ _ _ _ _ => true
  | _, _ => false

/-- The head job of an engine leaves its queue; writes of its generator that waited for it (R239), counters, terms and queues follow (R164, R179). -/
def leaveQueue (s : State) (core : Nat) (e : Engine) (fired : Option Nat) : State :=
  gangQuiet (afterJob (s.modCore core (fun c => (c.setQueue e ((c.queue e).drop 1)).rngSettle)) core e fired) core

/-- The flags of a matrix or promise job are merged as it ends (R235). -/
def endMatrix (s : State) (core : Nat) (j : Job) (ctx : Nat) : State :=
  leaveQueue (mergeFlags s core ctx j.flags) core .matrix j.fired

/-- One unit of a matrix job, or with `k` above 0 one access of it by itself. -/
def matrixUnit (s : State) (core : Nat) (j : Job) (k : Nat) : State × Bool :=
  let m := match k with | 0 => matUnit (s.core core) j | n + 1 => matAccess (s.core core) j n
  let s := s.setCore core (setHead m.core .matrix m.job)
  if m.ended then (endMatrix s core m.job j.ctx, true) else (s, false)

/-- A fault of an instruction has stopped the core and its engines. -/
def instrFaulted (c : Core) : Bool := c.engStopped && c.ctx.toList.any (·.stopped)

/-- One unit of a promise job, or with `k` above 0 one read of it; a failure freezes the core with the slot in place of a PC (R265). On a core that a fault of an instruction
has stopped it stays pending, and arises again after the resume (R268). -/
def promiseUnit (s : State) (core : Nat) (j : Job) (r : RecJob) (k : Nat) : State × Bool :=
  let u := promUnit s core j r k
  let s := u.state.modCore core (fun c => setHead c .matrix u.job)
  match u.out with
  | .more => (s, false)
  | .all => (endMatrix s core u.job r.ctx, true)
  | .failed f => (if instrFaulted (s.core core) then s else takeSlotFault s core r.ctx 2 r.slot f 0, true)

/-- A copy job ends, and its tag completes (R200). -/
def endCopy (s : State) (core : Nat) (j : Job) (f : Option Flt) : State :=
  let t := j.tag.getD 0
  let s := match f with
    | none => endTag s core t false
    | some f => endTag (tagNotice s core j.ctx t f) core t true
  leaveQueue s core .copy j.fired

/-- One access of a copy job, or the opening of its next chunk. -/
def chunkUnit (s : State) (core : Nat) (j : Job) (k : Nat) : State × Bool :=
  let u := copyUnit s core j k
  let s := u.state.modCore core (fun c => setHead c .copy u.job)
  match u.out with
  | .more => (s, false)
  | .all => (endCopy s core u.job none, true)
  | .failed f => (endCopy s core u.job (some f), true)

def vectorUnit (s : State) (core : Nat) (j : Job) : State × Bool :=
  (leaveQueue (endVector s core j) core .vector j.fired, true)

/-- The started head job of an engine that may go on: a stopped engine ends only what it does not stop, the chunks of a copy that
are under way, and a promise job's tile or its counter addition (R264, R269, R279). -/
def runningJob (s : State) (core : Nat) (e : Engine) : Option Job :=
  match (s.core core).queue e with
  | j :: _ =>
    let goes := match j.prom with | some r => goesOn (s.core core) j r | none => wholeJob j || !j.chunks.isEmpty
    if j.started && (!(s.core core).engStopped || goes) then some j else none
  | [] => none

/-- One unit of an engine's running job, of a copy its `k`-th move, of a matrix job its `k`-th access or all that is left, and whether the job has ended or stopped. -/
def engineUnit (s : State) (core : Nat) (e : Engine) (j : Job) (k : Nat) : State × Bool :=
  match e, j.prom with
  | .vector, _ => vectorUnit s core j
  | .copy, _ => chunkUnit s core j k
  | .matrix, some r => promiseUnit s core j r k
  | .matrix, none => matrixUnit s core j k

/-- Units until the job ends; `fuel` bounds their number. -/
def engineUnits : Nat → State → Nat → Engine → State
  | 0, s, _, _ => s
  | n + 1, s, core, e =>
    match runningJob s core e with
    | none => s
    | some j => let (s', stop) := engineUnit s core e j 0; if stop then s' else engineUnits n s' core e

/-- A bound on the units of a job. -/
def unitBound (s : State) (core : Nat) (j : Job) : Nat :=
  match j.prom with
  | some r => 512 * jobTiles ((s.core core).watchAt r.slot) r + 4
  | none => if j.tag.isSome then copyRows j * (copyRowLen j / 16 + 12) + 1000 else 70

/-! ### Ends -/

def execEngineJobEnd (s : State) : Result :=
  let core := s.input.core
  let e := s.input.engine
  match runningJob s core e with
  | some j => .next (if j.prom.isSome then s else engineUnits (unitBound s core j) s core e)
  | none => .next s

def execReconcileJobEnd (s : State) : Result :=
  let core := s.input.core
  match runningJob s core .matrix with
  | some j => .next (if j.prom.isSome then engineUnits (unitBound s core j) s core .matrix else s)
  | none => .next s

end Sys2Proof.Machine
end

