-- ==== Sys2Proof/Machine/Image.lean ====
section
/-! DEFINITION. The layouts that the debug window and core images share (spec/13_faults.md R274, R282), and saving and
restoring a core (R174, R282 to R285). -/
namespace Sys2Proof.Machine

/-! ### Words of a context block (R282) -/

def Context.plainWait (c : Context) : Option CWait := if c.sleep = .cwaitAcq then none else c.cwait

/-- The state word. -/
def ctxStateWord (c : Context) : Nat :=
  (match c.status with | .free => 0 | .live => 1 | .done => 2) + (if c.sleep.asleep then 4 else 0) +
  (if c.stopped then 8 else 0) + (if c.plainWait.isSome then 16 else 0) + (if c.poisonLate then 32 else 0)

def outcomeCode : CtOutcome → Nat | .won => 1 | .lost => 2 | .cancelled => 3

def slotWord (k : Option CtSlot) (second : Bool) : Nat :=
  match k with
  | none => 0
  | some t => if second then t.seq.toNat else t.word.toNat + 2 ^ 61 * outcomeCode t.outcome

/-- The 8-byte word at an offset of the context block. -/
def ctxWord (c : Context) (off : Nat) : Nat :=
  if off = 0 then c.pc.toNat
  else if off = 8 then ctxStateWord c
  else if off = 0x10 then c.fpflags.toNat
  else if off = 0x18 then c.cancelled.toNat
  else if off = 0x20 then (match c.plainWait with | some w => w.addr.toNat | none => 0)
  else if off = 0x28 then (match c.plainWait with | some w => w.target.toNat | none => 0)
  else if off < 0x80 then 0
  else if off < 0xc0 then (vget c.m ((off - 0x80) / 8) 0).toNat
  else if off < 0x100 then (vget c.x ((off - 0xc0) / 8) 0).toNat
  else if off < 0x200 then (c.gpr ((off - 0x100) / 8)).toNat
  else if off < 0x300 then slotWord (vget c.slots ((off - 0x200) / 16) none) (off % 16 = 8)
  else if off < 0xb00 then bits (vget c.v ((off - 0x300) / 64) 0).toNat (8 * (off % 64)) 64
  else 0

/-- Bits [lo + 63 : lo] of a vector register replaced. -/
def setVecWord (v : Vec) (lo : Nat) (w : DWord) : Vec :=
  (v &&& ~~~((0xffffffffffffffff#512) <<< lo)) ||| (w.setWidth 512 <<< lo)

/-- A new PC: what a sleeping instruction had begun is left, and no breakpoint is passed (R276, R278). -/
def Context.setPc (c : Context) (v : DWord) : Context :=
  if c.pc = v then c
  else { c with pc := v, ibpPass := none, sleep := match c.sleep with | .send _ => .held | x => x }

/-- A write through the context aperture (R273). -/
def setCtxWord (c : Context) (off : Nat) (v : DWord) : Context :=
  if off = 0 then c.setPc v
  else if off = 0x10 then { c with fpflags := v.setWidth 6 }
  else if off < 0x80 then c
  else if off < 0xc0 then { c with m := vset c.m ((off - 0x80) / 8) v }
  else if off < 0x100 then { c with x := vset c.x ((off - 0xc0) / 8) v }
  else if off < 0x200 then c.setGpr ((off - 0x100) / 8) v
  else if off < 0x300 then c
  else if off < 0xb00 then { c with v := vmod c.v ((off - 0x300) / 64) 0 (fun x => setVecWord x (8 * (off % 64)) v) }
  else c

/-! ### Words of the crossbar (R282) -/

def armWord (a : ArmSlot) (off : Nat) : Nat :=
  match off with
  | 0 => a.word.toNat + 2 ^ 32 * (a.rep % 65536) + 2 ^ 48 * (a.pending % 256) + 2 ^ 56 * (a.ctx % 16)
  | 8 => wrap a.stride 64
  | 16 => a.discard.toNat
  | 24 => a.a.toNat
  | 32 => a.b.toNat
  | 40 => a.x.toNat
  | _ => 0

def xbarWord (c : Core) (off : Nat) : Nat :=
  if off < 0x200 then armWord (c.slot (off / 0x80)) (off % 0x80)
  else if off < 0x240 then (let x := c.counter ((off - 0x200) / 8); x.config.toNat + 65536 * x.count.toNat)
  else if off < 0x2c0 then (vget c.terms ((off - 0x240) / 8) 0).toNat
  else 0

/-- The command that a captured word stands for; a word that no slot can hold stands for none. -/
def armedInstr (w : Nat) : Option Instr :=
  if armable w then (match decode32 w with | .ok i => some i | .error _ => none) else none

/-- A write of a slot's word. Firings are indexed from 0 again when the command is replaced. -/
def setArmWord (a : ArmSlot) (off key k : Nat) (v : DWord) : ArmSlot :=
  match off with
  | 0 =>
    let w : BitVec 32 := v.setWidth 32
    let p := bits v.toNat 48 8
    { a with
      word := w
      instr := armedInstr w.toNat
      rep := bits v.toNat 32 16
      pending := p
      ctx := bits v.toNat 56 4
      fired := if a.word = w then a.fired else 0
      order := (a.order ++ List.replicate p (4 * key + k)).take p }
  | 8 => { a with stride := sext v.toNat 64 }
  | 16 => { a with discard := v.setWidth 32 }
  | 24 => { a with a := v }
  | 32 => { a with b := v }
  | 40 => { a with x := v }
  | _ => a

/-- The bits of a counter's and of a term's configuration that are not reserved (R179). -/
def counterMask : BitVec 16 := 0xff0f
def termMask : BitVec 16 := 0x83ff

def setXbarWord (c : Core) (off key : Nat) (v : DWord) : Core :=
  if off < 0x200 then c.modSlot (off / 0x80) (fun a => setArmWord a (off % 0x80) key (off / 0x80) v)
  else if off < 0x240 then
    c.setCounter ((off - 0x200) / 8) { config := v.setWidth 16 &&& counterMask, count := BitVec.ofNat 8 (bits v.toNat 16 8) }
  else if off < 0x2c0 then { c with terms := vset c.terms ((off - 0x240) / 8) (v.setWidth 16 &&& termMask) }
  else c

/-! ### Job records (R282) -/

def engineCode : Engine → Nat | .matrix => 1 | .vector => 2 | .copy => 3
def reconcileCode : Nat := 4

def recKindCode : RecKind → Nat | .opening => 0 | .redemption => 1 | .retraction => 2
def optCode (o : Option Nat) : Nat := match o with | some n => n + 1 | none => 0

/-- The captured operands of a job, from byte 16 of its record (the places are the model's: log 37). A reconcile job has no command: its
operands are its slot and kind, WREF, VCTR and the flags raised so far; a copy by a shape record holds the record it read at issue
(R386); a matrix job its loss-scale tag and its flags. -/
def operandWord (code : Nat) (j : Job) (off : Nat) : Nat :=
  match j.prom with
  | some r =>
    (match off with
     | 16 => r.slot + 256 * recKindCode r.kind
     | 24 => r.wref.toNat
     | 32 => r.vctr.toNat
     | 40 => j.flags.toNat
     | _ => 0)
  | none =>
    if off = 16 then j.a.toNat
    else if off = 24 then j.b.toNat
    else if code = 3 && copyOp j.instr != 0 then (j.shape.getD ((off - 32) / 8) 0).toNat
    else if off = 32 then j.x.toNat
    else if off = 40 then j.epoch.toNat + 2 ^ 32 * j.exp.toNat + 2 ^ 40 * j.flags.toNat
    else 0

/-- A word of a job record: engine, context, tag, arm slot and command; progress; operands (R282, log 37). -/
def jobWord (code : Nat) (j : Job) (off : Nat) : Nat :=
  if off = 0 then code + 256 * j.ctx + 2 ^ 16 * optCode j.tag + 2 ^ 24 * optCode j.fired + 2 ^ 32 * j.word.toNat
  else if off = 8 then j.next + 2 ^ 32 * j.off
  else operandWord code j off

/-- The matrix commands of a core, which are no promise jobs. -/
def Core.products (c : Core) : List Job := c.matQ.filter (fun j => j.prom.isNone)

/-- The eight records: matrix 2, vector 2, copy 2, reconcile 1, spare 1. -/
def jobRecord (c : Core) (n : Nat) : Option (Nat × Job) :=
  let prom := c.matQ.filter (fun j => j.prom.isSome)
  match n with
  | 0 | 1 => (c.products[n]?).map (fun j => (1, j))
  | 2 | 3 => (c.vecQ[n - 2]?).map (fun j => (2, j))
  | 4 | 5 => (c.copyQ[n - 4]?).map (fun j => (3, j))
  | 6 | 7 => (prom[n - 6]?).map (fun j => (reconcileCode, j))
  | _ => none

/-- Four indices of an `mmg`, of 16 bits each: R376 bounds them by the size of LM. -/
def indexWord (v : Vec) (q : Nat) : Nat := ((List.range 4).map (fun i => bits v.toNat (32 * (4 * q + i)) 16 * 2 ^ (16 * i))).sum

/-- Eight zero points of an `mm.q`'s parameter words, of a byte each: what its products need of them (R242). -/
def zeroWord (l : List (BitVec 32)) (q : Nat) : Nat :=
  ((List.range 8).map (fun i => bits (l.getD (8 * q + i) 0).toNat 16 8 * 2 ^ (8 * i))).sum

/-- A word of the spare record while a matrix command is queued: the index vectors of the queued `mmg` and the zero points of `mm.q`, 32 bytes
for each matrix record (the use is the model's: log 37). -/
def spareWord (c : Core) (off : Nat) : Nat :=
  match c.products[off / 32]? with
  | some j =>
    (match j.instr with
     | .mmg _ _ _ _ _ _ _ => indexWord j.va (off % 32 / 8)
     | .mmQ _ _ _ _ _ _ _ => zeroWord j.params (off % 32 / 8)
     | _ => 0)
  | none => 0

/-- The accumulator that a product adds to. -/
def productAcc : Instr → Nat
  | .mm _ _ _ ad _ _ _ | .mmg _ _ _ ad _ _ _ | .mmQ _ _ _ ad _ _ _ => ad.toNat
  | _ => 0

/-- The exact sum of the running integer product differs from its element: it lies beyond 36 bits. -/
def beyond36 (c : Core) (e : Nat) : Bool :=
  match c.products with
  | j :: _ => let a := accAt c (productAcc j.instr); partialSum j a e != i36 (a.el.getD e 0).toNat
  | [] => false

/-- 64 elements of the running product, a bit for each: bytes 48 to 63 of the two matrix records (the use is the model's: log 37). -/
def beyondWord (c : Core) (q : Nat) : Nat := ((List.range 64).map (fun i => if beyond36 c (64 * q + i) then 2 ^ i else 0)).sum

def jobRecWord (c : Core) (off : Nat) : Nat :=
  if off < 0x80 && 48 ≤ off % 64 then beyondWord c (off / 64 * 2 + (off % 64 - 48) / 8)
  else match jobRecord c (off / 64) with
  | some (code, j) => jobWord code j (off % 64)
  | none => if off / 64 = 7 then spareWord c (off % 64) else 0

/-! ### Ring handles, specials, accumulators -/

/-- A handle in its window form (R274). -/
def handleWord (h : Handle) (second : Bool) : Nat :=
  if second then h.head.toNat + 65536 * h.tail.toNat
  else h.base.toNat + 2 ^ 19 * h.ssize.toNat + 2 ^ 32 * h.count.toNat + 2 ^ 41 * h.home.toNat + (if h.proxy then 2 ^ 45 else 0)

/-- A handle in its image form, with the rank of its home core (R282). -/
def handleImage (h : Handle) (rank : Nat) (second : Bool) : Nat :=
  if second then (if h.proxy then 0 else h.head.toNat + 65536 * h.tail.toNat)
  else h.base.toNat + 2 ^ 19 * h.ssize.toNat + 2 ^ 32 * h.count.toNat + (if h.proxy then 2 ^ 45 else 0) +
    (if h.count = 0 then 0 else 2 ^ 46 * (rank % 4096))

/-- A handle with the fields of a first word. -/
def handleOf (v : Nat) (old : Handle) : Handle :=
  { old with
    base := BitVec.ofNat 19 v
    ssize := BitVec.ofNat 13 (v / 2 ^ 19)
    count := BitVec.ofNat 9 (v / 2 ^ 32)
    home := BitVec.ofNat 4 (v / 2 ^ 41)
    proxy := v.testBit 45 }

/-- The ten core specials in their order (R274). -/
def specialWord (c : Core) (n : Nat) : Nat :=
  match n with
  | 0 => c.lscale.toNat
  | 1 => c.lsepoch.toNat
  | 2 => c.pbase.toNat
  | 3 => c.rngv.toNat
  | 4 => c.rngm.toNat
  | 5 => c.idCount.toNat
  | 6 => followReg c
  | 7 => c.dmr.toNat
  | 8 => c.rank.toNat
  | 9 => c.gangdim.toNat
  | _ => 0

def accTag (a : Accum) : Nat := a.epoch.toNat + 2 ^ 32 * a.exp.toNat

/-- A word of a list of bytes. -/
def byteWord (l : List Byte) (off : Nat) : Nat := leNat ((l.drop off).take 8)

/-! ### Saving (R174, R282) -/

/-- The lowest-ranked core of the gang in its cluster keeps the phases and the broadcast values. -/
def keepsCluster (s : State) (core : Nat) : Bool := leaderOf s core = core

def pieceOf (s : State) (core i : Nat) (b : Barrier) : BarrierPiece where
  index := i
  member := BitVec.ofNat 11 (bits b.member.toNat (11 * cicOf core) 11)
  arrived := BitVec.ofNat 11 (bits b.arrived.toNat (11 * cicOf core) 11)
  phase := if keepsCluster s core then some b.phase else none

def barrierPieces (s : State) (core : Nat) : List BarrierPiece :=
  ((List.range 8).filter (fun i => (s.barrier core i).owner = some (gangOf s core))).map (fun i => pieceOf s core i (s.barrier core i))

def castPieces (s : State) (core : Nat) : List (Nat × DWord) :=
  if !keepsCluster s core then []
  else ((List.range 8).filter (fun i => (castOf s core i).owner = some (gangOf s core))).map (fun i => (i, (castOf s core i).value))

/-- The rank of a handle's home core. -/
def homeRank (s : State) (core h : Nat) : Nat := (s.core (ringOwner s core h)).rank.toNat

def saveImage (s : State) (core : Nat) : CoreImage where
  core := takePulses (s.core core)
  homes := (List.range 16).map (homeRank s core)
  barriers := barrierPieces s core
  casts := castPieces s core

/-- The parts of a gang's cores in supersteps, by rank. -/
def saveSteps (s : State) (cores : List Nat) : List StepSave :=
  let mine := fun (d : StepDom) (kind : Nat) (l : List (Nat × Nat)) =>
    (l.filter (fun m => cores.contains m.1)).map (fun m =>
      { level := d.level, rank := (s.core m.1).rank.toNat, ctx := m.2, kind := kind : StepSave })
  s.steps.flatMap (fun d => mine d 0 d.members ++ mine d 1 d.arrived ++ mine d 2 d.released)

/-- A gang's cores leave the supersteps of the domains they were in. -/
def dropSteps (s : State) (cores : List Nat) : State :=
  let keep := fun (l : List (Nat × Nat)) => l.filter (fun m => !cores.contains m.1)
  let steps := s.steps.map (fun d => { d with members := keep d.members, arrived := keep d.arrived, released := keep d.released })
  { s with steps := steps.filter (fun d => !d.empty) }

/-- A saved part comes back in the domain of the core that has the rank now. -/
def restoreStep (cores : List Nat) (s : State) (p : StepSave) : State :=
  match cores[p.rank]? with
  | none => s
  | some core =>
    let d := s.stepDom p.level (stepDomain s core p.level)
    let m := (core, p.ctx)
    match p.kind with
    | 0 => { s with steps := (s.steps.filter (fun e => !(e.level = d.level && e.domain = d.domain))) ++ [{ d with members := d.members ++ [m] }] }
    | 1 => s.setStep { d with arrived := d.arrived ++ [m] }
    | _ => s.setStep { d with released := d.released ++ [m] }

/-- The gang frees the barriers and broadcast registers that it owns (R170). -/
def freeObjects (s : State) (gang : Nat) : State :=
  { s with clusters := s.clusters.map (fun e => (e.1, { e.2 with
      barriers := e.2.barriers.map (fun b => if b.owner = some gang then Barrier.free else b)
      casts := e.2.casts.map (fun b => if b.owner = some gang then CastReg.free else b) })) }

/-! ### Restoring (R174, R284) -/

/-- A piece rebuilds its barrier in the cluster where its core lands. Where a restore groups the cores otherwise than the saved clusters did, R174
gives no phase and no broadcast value: those of the last core in rank order that brings one stand, and a barrier for which none does has
phase 0; the images of a resume set (R285) are placed with no test that their numbers are free, and take over an object that another gang
owns (DESIGN CHOICE, log 75). -/
def restoreBarrier (core gang : Nat) (s : State) (p : BarrierPiece) : State :=
  s.modBarrier core p.index (fun b =>
    { owner := some gang
      member := b.member ||| (p.member.setWidth 176 <<< (11 * cicOf core))
      arrived := b.arrived ||| (p.arrived.setWidth 176 <<< (11 * cicOf core))
      phase := p.phase.getD b.phase })

def restoreCast (core gang : Nat) (s : State) (p : Nat × DWord) : State :=
  s.modCluster (clusterKey core) (fun c => { c with casts := vset c.casts p.1 { owner := some gang, value := p.2, last := none } })

/-- A handle bound to its home's new place: unset, with a notice, when that lies in another cluster. -/
def rehome (core : Nat) (cores : List Nat) (homes : List Nat) (s : State) (h : Nat) : State :=
  let k := vget (s.core core).handles h Handle.unset
  if k.count = 0 then s
  else
    let set := fun (s : State) (v : Handle) => s.modCore core (fun c => { c with handles := vset c.handles h v })
    match cores[homes.getD h 0]? with
    | some o =>
      if clusterKey o = clusterKey core then set s { k with home := BitVec.ofNat 4 (cicOf o) }
      else set (coreNotice s core 0xf 4 (flt 14 21 0 h) 0 0) Handle.unset
    | none => set (coreNotice s core 0xf 4 (flt 14 21 0 h) 0 0) Handle.unset

/-- What a core takes from an image; place, debug registers and waiting messages are the core's own (R284). -/
def adoptImage (phys img : Core) : Core :=
  { phys with
    ctx := img.ctx
    im := img.im
    lm := img.lm
    acc := img.acc
    handles := img.handles
    tagDone := img.tagDone
    tagErr := img.tagErr
    tagBusy := img.tagBusy
    dmr := (phys.dmr &&& ~~~dmrMask) ||| (img.dmr &&& dmrMask)
    lscale := img.lscale
    lsepoch := img.lsepoch
    eventAt := none
    rngv := img.rngv
    rngm := img.rngm
    rngWrites := img.rngWrites
    pbase := img.pbase
    idCount := img.idCount
    watch := img.watch
    recQ := img.recQ
    recHeld := img.recHeld
    fcause := img.fcause
    vecQ := img.vecQ
    matQ := img.matQ
    copyQ := img.copyQ
    arm := img.arm
    counters := img.counters
    terms := img.terms }

/-- A core of the gang restores its image: its contexts restart under R163, and a pending plain wait is sent again (R284, R418). -/
def restoreImage (s : State) (gang : Nat) (cores : List Nat) (core : Nat) (img : CoreImage) : State :=
  let s := traceSleepEnds (s.modCore core (fun c => adoptImage c img.core)) core
  let s := s.modCore core (fun c => { c with ctx := c.ctx.map Context.resume })
  let s := (List.range 16).foldl (rehome core cores img.homes) s
  resendWaits (img.casts.foldl (restoreCast core gang) (img.barriers.foldl (restoreBarrier core gang) s)) core

/-- The numbers of the barriers and broadcast registers in a gang's images are free in a core's cluster (R174). -/
def objectsFree (s : State) (core : Nat) (imgs : List CoreImage) : Bool :=
  imgs.all (fun g => g.barriers.all (fun p => (s.barrier core p.index).owner.isNone) &&
    g.casts.all (fun p => (castOf s core p.1).owner.isNone))

/-! ### Images in memory (R282, R283, R285) -/

def imageLength : Nat := 0x7b000

/-- What the header says beside the digest (R283); `pkg` is the core's package index (R7). -/
structure ImageHead where
  flags : Nat
  rank : Nat
  nodeid : Nat
  gangdim : Nat
  part : Nat
  pkg : Nat
  clock : Nat
  deriving DecidableEq, Repr

def headWord (h : ImageHead) (off : Nat) : Nat :=
  match off with
  | 0 => 0x4c534349 + 2 ^ 32 + 2 ^ 48 * h.flags
  | 8 => imageLength + 2 ^ 32 * h.rank
  | 16 => h.nodeid
  | 24 => h.gangdim
  | 32 => h.part + 2 ^ 16 * h.pkg
  | 40 => h.clock
  | _ => 0

/-- The reconcile queue as slot numbers, and the bitmap of HELD slots. -/
def recBytes (c : Core) : List Byte :=
  padTo 16 (((c.recQ.take 16).map (fun r => BitVec.ofNat 8 r.slot)) ++ List.replicate 16 0xff) ++ natBytes 8 c.recHeld.toNat

/-- The pieces of R174 (the layout is the model's: log 37): of barrier `i` at 16i the member bits in [10:0], the arrived bits in
[26:16], bit 32 where there is a piece and bit 33 where the phase is in the next word's [31:0]; of the broadcast registers the
values at 0x80 and, at 0xc0, the mask of those that there are. -/
def pieceWord (g : CoreImage) (off : Nat) : Nat :=
  if off < 0x80 then
    (match g.barriers.find? (fun p => p.index = off / 16) with
     | none => 0
     | some p =>
       if off % 16 = 8 then (p.phase.getD 0).toNat
       else p.member.toNat + 2 ^ 16 * p.arrived.toNat + 2 ^ 32 + (if p.phase.isSome then 2 ^ 33 else 0))
  else if off < 0xc0 then ((g.casts.find? (fun p => p.1 = (off - 0x80) / 8)).map (fun p => p.2.toNat)).getD 0
  else if off = 0xc0 then (g.casts.map (fun p => 2 ^ p.1)).sum
  else 0

/-- An accumulator's elements packed at 36 bits, then its tag. -/
def accImageWord (a : Accum) (off : Nat) : Nat :=
  if off < 1152 then byteWord (natBytes 1152 (a.el.foldr (fun x n => n * 2 ^ 36 + x.toNat) 0)) off
  else if off = 1152 then accTag a
  else 0

/-- The 8-byte word at an offset of a core image before IM, the digest apart (R282). -/
def imageWord (h : ImageHead) (g : CoreImage) (off : Nat) : Nat :=
  let c := g.core
  if off < 0x100 then headWord h off
  else if off < 0x150 then specialWord c ((off - 0x100) / 8)
  else if off < 0x168 then (match off with | 0x150 => c.tagDone | 0x158 => c.tagErr | _ => c.tagBusy).toNat
  else if off < 0x200 then 0
  else if off < 0x300 then
    (let k := (off - 0x200) / 16
     handleImage (vget c.handles k Handle.unset) (g.homes.getD k 0) (off % 16 = 8))
  else if off < 0x400 then byteWord (recBytes c) (off - 0x300)
  else if off < 0x600 then jobRecWord c (off - 0x400)
  else if off < 0x700 then pieceWord g (off - 0x600)
  else if off < 0x800 then 0
  else if off < 0x1000 then byteWord (watchBytes (c.watchAt ((off - 0x800) / 128))) (off % 128)
  else if off < 0x1400 then xbarWord c (off - 0x1000)
  else if off < 0x2800 then accImageWord (vget c.acc ((off - 0x1400) / 0x500) Accum.reset) ((off - 0x1400) % 0x500)
  else if off < 0xa100 then ctxWord (c.context ((off - 0x2800) / 0xb00)) ((off - 0x2800) % 0xb00)
  else 0

/-- The image with its digest left 0. -/
def plainImage (h : ImageHead) (g : CoreImage) : List Byte :=
  (List.range 0x1600).flatMap (fun i => natBytes 8 (imageWord h g (8 * i))) ++
    (Memory.reads g.core.im 0 0x10000 ++ Memory.reads g.core.lm 0 0x60000)

/-- The bytes that DIGEST covers (R283). -/
def digested (bs : List Byte) : List Byte := bs.take 0x40 ++ (bs.drop 0x80).take (imageLength - 0x80)

/-- The bytes of a core image (R282, R283). -/
def imageBytes (h : ImageHead) (g : CoreImage) : List Byte :=
  let bs := plainImage h g
  bs.take 0x40 ++ (sha512 (digested bs) ++ bs.drop 0x80)

/-- The header of a core's image: bit 1 of FLAGS for a collapse, bit 2 for pre-emption. -/
def imageHead (s : State) (core : Nat) (collapse : Bool) : ImageHead :=
  let c := s.core core
  let p := (s.partOf core).getD 0
  { flags := (if (s.part p).sealed then 1 else 0) + (if collapse then 2 else 4)
    rank := c.rank.toNat
    nodeid := c.nodeid.toNat
    gangdim := c.gangdim.toNat
    part := p
    pkg := core
    clock := s.clock }

/-- A core's image is written to its area; the lines there, all written whole, are not poisoned (R208). -/
def storeImage (s : State) (core area : Nat) (collapse : Bool) : State :=
  { s with
    mem := Memory.paste s.mem area (imageBytes (imageHead s core collapse) (saveImage s core))
    poison := s.poison.filter (fun l => l < area || area + imageLength ≤ l) }

/-- Words of 8 bytes from an offset. -/
def wordsAt (bs : List Byte) (off n : Nat) : List DWord := (List.range n).map (fun i => b64 (recField bs (off + 8 * i) 8))

def slotOfWords (a b : Nat) : Option CtSlot :=
  let mk := fun o => some { outcome := o, word := BitVec.ofNat 49 a, seq := BitVec.ofNat 32 b : CtSlot }
  match a / 2 ^ 61 with | 1 => mk .won | 2 => mk .lost | 3 => mk .cancelled | _ => none

def vecOf {α : Type} (n : Nat) (d : α) (f : Nat → α) : Vector α n :=
  (List.range n).foldl (fun v i => vset v i (f i)) (Vector.replicate n d)

def decodeCtx (bs : List Byte) : Context :=
  let w := fun off => recField bs off 8
  let st := w 8
  { Context.reset with
    status := (match st % 4 with | 1 => .live | 2 => .done | _ => .free)
    pc := b64 (w 0)
    s := vecOf 32 0 (fun i => if i = 0 then 0 else b64 (w (0x100 + 8 * i)))
    v := vecOf 32 0 (fun i => BitVec.ofNat 512 (recField bs (0x300 + 64 * i) 64))
    m := vecOf 8 0 (fun i => b64 (w (0x80 + 8 * i)))
    x := vecOf 8 0 (fun i => b64 (w (0xc0 + 8 * i)))
    fpflags := BitVec.ofNat 6 (w 0x10)
    slots := vecOf 16 none (fun i => slotOfWords (w (0x200 + 16 * i)) (w (0x208 + 16 * i)))
    cancelled := BitVec.ofNat 16 (w 0x18)
    exitVal := b64 (w 0x118)
    sleep := if st.testBit 2 then .held else .awake
    cwait := if st.testBit 4 then some (waitFor (w 0x20) (w 0x28)) else none }

/-- A watch entry from its 128 bytes; VCTR is that of the stage block in the image, and the NEXTT that a job wrote last that of the record
there (log 37). -/
def decodeWatch (bs : List Byte) (vctr : DWord) (rnext : BitVec 32) : Watch :=
  let d := fun off => b64 (recField bs off 8)
  let q := fun off => BitVec.ofNat 32 (recField bs off 4)
  { Watch.free with
    id := d 0
    xref := d 8
    href := d 0x10
    ghref := d 0x18
    gref := d 0x20
    wref := d 0x28
    vi := d 0x30
    vr := d 0x38
    life := q 0x40
    etao := q 0x44
    state := BitVec.ofNat 4 (recField bs 0x48 1)
    flags := BitVec.ofNat 8 (recField bs 0x49 1)
    nextt := q 0x4c
    rnext := rnext
    eta := q 0x50
    etap := q 0x54
    sf := (List.range 8).map (fun i => q (0x58 + 4 * i))
    pref := d 0x78
    vctr := vctr }

def decodeAcc (bs : List Byte) : Accum :=
  let v := recField bs 0 1152
  { el := (List.range 256).map (fun e => BitVec.ofNat 36 (v / 2 ^ (36 * e)))
    epoch := BitVec.ofNat 32 (recField bs 1152 4)
    exp := BitVec.ofNat 8 (recField bs 1156 1) }

def codeOpt (n : Nat) : Option Nat := if n = 0 then none else some (n - 1)

/-- The reconcile job of a record, with the flags that it had raised; it reads VCTR again (R264). -/
def decodeRecJob (s : State) (bs : List Byte) : Job :=
  { newJob s .nop with
    word := 0
    ctx := recField bs 1 1
    next := recField bs 8 4
    off := recField bs 12 4
    flags := BitVec.ofNat 6 (recField bs 40 1)
    prom := some
      { slot := recField bs 16 1 % 16
        kind := (match recField bs 17 1 with | 0 => .opening | 1 => .redemption | _ => .retraction)
        ctx := recField bs 1 1
        key := 0
        wref := b64 (recField bs 24 8)
        vctr := b64 (recField bs 32 8)
        ready := false } }

/-- An index vector from 32 bytes. -/
def decodeIndex (bs : List Byte) : Vec := BitVec.ofNat 512 ((List.range 16).map (fun i => recField bs (2 * i) 2 * 2 ^ (32 * i))).sum

/-- The zero points of an `mm.q` as parameter words. Its scales were checked at issue, and no product reads them (R242). -/
def decodeZeros (bs : List Byte) : List (BitVec 32) := (List.range 32).map (fun i => BitVec.ofNat 32 (recField bs i 1 * 2 ^ 16))

/-- What a matrix job had captured: its record has the tag and the flags, and the spare record the indices of an `mmg` or the zero points of
an `mm.q`. The vectors of an `scacc` have no room in a record and are captured anew from the image's core (log 37). -/
def decodeMatrix (c : Core) (j : Job) (bs idx : List Byte) : Job :=
  let n := captureMatrix c (c.context j.ctx) j
  { j with
    epoch := BitVec.ofNat 32 (recField bs 40 4)
    exp := BitVec.ofNat 8 (recField bs 44 1)
    flags := BitVec.ofNat 6 (recField bs 45 1)
    params := match j.instr with | .mmQ _ _ _ _ _ _ _ => decodeZeros idx | _ => []
    va := match j.instr with | .mmg _ _ _ _ _ _ _ => decodeIndex idx | _ => n.va
    vb := n.vb }

/-- The exact sum of an element whose bit says that it lies beyond 36 bits. -/
def beyondSum (beyond : Bool) (v : Int) : Int := if !beyond then v else if v < 0 then v + 2 ^ 36 else v - 2 ^ 36

/-- The exact sums of the running integer product, whose bits stand in the two matrix records `ra` and `rb`. -/
def decodeSums (c : Core) (ra rb : List Byte) (j : Job) : Job :=
  let bs := (ra.drop 48).take 16 ++ (rb.drop 48).take 16
  if bs.all (· = 0) then j
  else { j with partial36 := (List.range 256).map (fun e =>
    beyondSum ((recField bs (e / 8) 1).testBit (e % 8)) (i36 ((accAt c (productAcc j.instr)).el.getD e 0).toNat)) }

/-- The job of a record, with the bytes of the spare record that belong to it. -/
def decodeJob (s : State) (c : Core) (bs idx : List Byte) : Option (Nat × Job) :=
  if recField bs 0 1 = reconcileCode then some (reconcileCode, decodeRecJob s bs)
  else match decode32 (recField bs 4 4) with
  | .error _ => none
  | .ok i =>
    let j := { newJob s i with
      ctx := recField bs 1 1
      word := BitVec.ofNat 32 (recField bs 4 4)
      a := b64 (recField bs 16 8)
      b := b64 (recField bs 24 8)
      x := b64 (recField bs 32 8)
      next := recField bs 8 4
      off := recField bs 12 4
      tag := codeOpt (recField bs 2 1)
      fired := codeOpt (recField bs 3 1) }
    match recField bs 0 1, engineOf i with
    | 1, some .matrix => some (1, decodeMatrix c j bs idx)
    | 2, some .vector => some (2, j)
    | 3, some .copy => some (3, if copyOp i = 0 then j else { j with x := 0, shape := (List.range 4).map (fun k => b64 (recField bs (32 + 8 * k) 8)) })
    | _, _ => none

/-- The reconcile queue: slots in order, each with the job that its state stands for; of a slot that stands twice, the first is
the opening. -/
def decodeRec (c : Core) : List Byte → List RecJob
  | [] => []
  | b :: r =>
    if 16 ≤ b.toNat then []
    else
      let w := c.watchAt b.toNat
      let kind : RecKind :=
        if r.contains b then .opening
        else if w.state = stRedeeming || w.state = stHeld then .redemption
        else if w.state = stRetracting then .retraction else .opening
      { slot := b.toNat, kind := kind, ctx := 0, key := 0, wref := w.wref, vctr := w.vctr, ready := false } :: decodeRec c r

/-- An arm slot from its 48 bytes, which carry no firing index: a slot read back from an image counts its firings from 0 anew (R183; DESIGN
CHOICE, log 37). -/
def decodeArm (bs : List Byte) (k : Nat) : ArmSlot :=
  (List.range 6).foldl (fun a i => setArmWord a (8 * i) 0 k (b64 (recField bs (8 * i) 8))) ArmSlot.empty

/-- The state of a core that an image's bytes hold (R282). While a matrix command is queued the last job record is the spare one. A register
that a queued vector command writes is not produced (R353). -/
def decodeCore (s : State) (bs : List Byte) : Core :=
  let sp := fun n => recField bs (0x100 + 8 * n) 8
  let lm := bytesAt 0 ((bs.drop 0x1b000).take 0x60000)
  let stage := b64 (leNat (Memory.reads lm (sp 2) 7))
  let c := { Core.reset with
    ctx := vecOf 11 Context.reset (fun k => decodeCtx ((bs.drop (0x2800 + 0xb00 * k)).take 0xb00))
    im := bytesAt 0 ((bs.drop 0xb000).take 0x10000)
    lm := lm
    acc := vecOf 4 Accum.reset (fun k => decodeAcc ((bs.drop (0x1400 + 0x500 * k)).take 0x500))
    handles := vecOf 16 Handle.unset (fun h =>
      let t := recField bs (0x208 + 16 * h) 8
      { handleOf (recField bs (0x200 + 16 * h) 8) Handle.unset with head := BitVec.ofNat 16 t, tail := BitVec.ofNat 16 (t / 65536) })
    lscale := BitVec.ofNat 8 (sp 0)
    lsepoch := BitVec.ofNat 32 (sp 1)
    pbase := BitVec.ofNat 19 (sp 2)
    rngv := BitVec.ofNat 32 (sp 3)
    rngm := BitVec.ofNat 32 (sp 4)
    idCount := b64 (sp 5)
    fcause := BitVec.ofNat 3 (sp 6 / 256)
    dmr := b64 (sp 7)
    tagDone := b64 (sp 10)
    tagErr := b64 (sp 11)
    tagBusy := b64 (sp 12)
    watch := vecOf 16 Watch.free (fun k => decodeWatch ((bs.drop (0x800 + 128 * k)).take 128) stage
      (BitVec.ofNat 32 (leNat (Memory.reads lm (sp 2 + 0x14c + 256 * k) 4))))
    recHeld := BitVec.ofNat 16 (recField bs 0x310 2)
    arm := vecOf 4 ArmSlot.empty (fun k => decodeArm ((bs.drop (0x1000 + 0x80 * k)).take 0x80) k)
    counters := vecOf 8 { config := 0, count := 0 } (fun e =>
      { config := BitVec.ofNat 16 (recField bs (0x1200 + 8 * e) 2), count := BitVec.ofNat 8 (recField bs (0x1202 + 8 * e) 1) })
    terms := vecOf 16 0 (fun t => BitVec.ofNat 16 (recField bs (0x1240 + 8 * t) 2)) }
  let rec' := fun (n : Nat) => (bs.drop (0x400 + 64 * n)).take 64
  let jobs := (List.range (if recField bs 0x400 1 = 0 then 8 else 7)).filterMap (fun n => decodeJob s c (rec' n) (((rec' 7).drop (32 * n)).take 32))
  let q := fun code => (jobs.filter (fun j => j.1 = code)).map Prod.snd
  let c := ((q 2).filter (fun j => j.fired.isNone)).foldl (fun c j => c.modContext j.ctx (fun x => x.marked j.instr)) c
  { c with
    matQ := q reconcileCode ++ (match q 1 with | j :: r => decodeSums c (rec' 0) (rec' 1) j :: r | [] => [])
    vecQ := q 2
    copyQ := q 3
    recQ := decodeRec c ((bs.drop 0x300).take 16) }

/-- Piece `i` of the barriers (log 37). -/
def decodeBarrier (bs : List Byte) (i : Nat) : Option BarrierPiece :=
  let w := recField bs (0x600 + 16 * i) 8
  if w.testBit 32 then some
    { index := i
      member := BitVec.ofNat 11 w
      arrived := BitVec.ofNat 11 (w / 2 ^ 16)
      phase := if w.testBit 33 then some (BitVec.ofNat 32 (recField bs (0x608 + 16 * i) 4)) else none }
  else none

def decodeCast (bs : List Byte) (i : Nat) : Option (Nat × DWord) :=
  if (recField bs 0x6c0 1).testBit i then some (i, b64 (recField bs (0x680 + 8 * i) 8)) else none

/-- An image in memory. -/
def decodeImage (s : State) (bs : List Byte) : CoreImage where
  core := decodeCore s bs
  homes := (List.range 16).map (fun h => bits (recField bs (0x200 + 16 * h) 8) 46 12)
  barriers := (List.range 8).filterMap (decodeBarrier bs)
  casts := (List.range 8).filterMap (decodeCast bs)

def zeroBytes (bs : List Byte) (off n : Nat) : Bool := ((bs.drop off).take n).all (· = 0)

/-- Only the bits of a mask are set in the 8-byte word at an offset. -/
def wordWithin (bs : List Byte) (off mask : Nat) : Bool := (recField bs off 8 ||| mask) = mask

/-- The bits of the ten specials that are not reserved and that a read can show as 1 (R142, R169, R175, R239, R247, R251). -/
def specialMasks : List Nat :=
  [0xff, 0xffffffff, 0x7ffff, 0xffffffff, 0xffffffff, 0xffffffffffffffff, 0x7fffff3, 0xfff1ffffffffc000, 0xfff, 0xffffff]

/-- Header, specials, queue and pieces: reserved bits are 0. -/
def headClear (bs : List Byte) : Bool :=
  recField bs 6 2 / 8 = 0 && recField bs 0x20 1 / 64 = 0 && recField bs 0x22 2 / 4096 = 0 && zeroBytes bs 0x21 1 &&
  wordWithin bs 0x18 0xffffff && (List.range 10).all (fun n => wordWithin bs (0x100 + 8 * n) (specialMasks.getD n 0)) &&
  zeroBytes bs 0x24 4 && zeroBytes bs 0x30 16 && zeroBytes bs 0x80 128 && zeroBytes bs 0x168 0x98 &&
  zeroBytes bs 0x312 0xee && zeroBytes bs 0x700 0x100 && zeroBytes bs 0xa100 0xf00

/-- A handle's two words: HOME 0, and nothing above the RANK (R282). -/
def handleClear (bs : List Byte) (h : Nat) : Bool :=
  wordWithin bs (0x200 + 16 * h) 0x03ffe1ffffffffff && wordWithin bs (0x208 + 16 * h) 0xffffffff

/-- A watch entry: bytes 0x4a and 0x4b, the high bits of STATE and FLAGS (R254), and those of its six matrix references (R253). -/
def watchClear (bs : List Byte) (k : Nat) : Bool :=
  let w := 0x800 + 128 * k
  [0x08, 0x10, 0x18, 0x20, 0x28, 0x78].all (fun o => wordWithin bs (w + o) 0xffff0fffff) &&
  recField bs (w + 0x48) 1 / 16 = 0 && recField bs (w + 0x49) 1 / 8 = 0 && zeroBytes bs (w + 0x4a) 2

/-- An arm slot: bytes 7 [7:4], 20 to 23 and 48 to 127. -/
def armClear (bs : List Byte) (k : Nat) : Bool :=
  let a := 0x1000 + 0x80 * k
  recField bs (a + 7) 1 / 16 = 0 && zeroBytes bs (a + 20) 4 && zeroBytes bs (a + 48) 80

def counterClear (bs : List Byte) (e : Nat) : Bool := wordWithin bs (0x1200 + 8 * e) (0xff0000 + counterMask.toNat)
def termClear (bs : List Byte) (t : Nat) : Bool := wordWithin bs (0x1240 + 8 * t) termMask.toNat

/-- An accumulator's block: [63:40] of the tag and what follows it. -/
def accClear (bs : List Byte) (a : Nat) : Bool := zeroBytes bs (0x1400 + 0x500 * a + 1157) 123

/-- A contest slot: [60:49] of the first word, the high half of the second, and an outcome of 0 to 3. -/
def slotClear (bs : List Byte) (off : Nat) : Bool := wordWithin bs off 0x6001ffffffffffff && wordWithin bs (off + 8) 0xffffffff

/-- A context block: a PC that a context can hold (R289), a status that has a meaning, and no reserved bit (log 37). -/
def ctxClear (bs : List Byte) (k : Nat) : Bool :=
  let o := 0x2800 + 0xb00 * k
  let pc := recField bs o 8
  decide (pc ≤ 65536) && pc % 2 = 0 && wordWithin bs (o + 8) 0x3f && decide (recField bs (o + 8) 1 % 4 < 3) &&
  wordWithin bs (o + 0x10) 0x3f && wordWithin bs (o + 0x18) 0xffff && zeroBytes bs (o + 0x30) 0x50 && zeroBytes bs (o + 0x100) 8 &&
  (List.range 16).all (fun i => slotClear bs (o + 0x200 + 16 * i))

/-- A reserved field of an image is not zero (R282, R285). -/
def imageReserved (bs : List Byte) : Bool :=
  !(headClear bs && (List.range 16).all (handleClear bs) && (List.range 16).all (watchClear bs) && (List.range 4).all (armClear bs) &&
    (List.range 8).all (counterClear bs) && (List.range 16).all (termClear bs) && zeroBytes bs 0x12c0 0x140 &&
    (List.range 4).all (accClear bs) && (List.range 11).all (ctxClear bs))

/-- GANGDIM's rows, columns and dies against a SHAPE (R285): rows, columns and dies used. -/
def imageRefused (bs : List Byte) (part rank rows cols dies : Nat) : Bool :=
  recField bs 0 4 != 0x4c534349 || recField bs 4 2 != 1 || recField bs 8 4 != imageLength || imageReserved bs ||
  (bs.drop 0x40).take 64 != sha512 (digested bs) || recField bs 0x20 1 % 64 != part || recField bs 0xc 4 != rank ||
  recField bs 0x18 1 != rows || recField bs 0x19 1 != cols || recField bs 0x1a 1 % 16 != dies

end Sys2Proof.Machine
end

