-- ==== Sys2Proof/Machine/Debug.lean ====
section
/-! DEFINITION. The mailboxes' registers (spec/04_trust.md R68, R72), the debug window (spec/13_faults.md R273, R274), its
actions (R275 to R278), and the delivery of fault packets and notices (R270 to R272). -/
namespace Sys2Proof.Machine

/-! ### Mailbox registers (R68, R69, R72) -/

def mailRead (m : MailState) (off : Nat) : DWord :=
  if off < 0x100 then memWord m.req off
  else if off = 0x108 then b64 ((if m.busy then 1 else 0) + (if m.done then 2 else 0) + 65536 * m.status.toNat)
  else if 0x200 ≤ off ∧ off < 0x400 then memWord m.resp (off - 0x200)
  else 0

/-- The codes of R69, and those that a supervisor mailbox accepts (R72). -/
def requestCodes : List Nat := [1, 2, 3, 4, 5, 6, 7, 0x10, 0x11]
def supervisorCodes : List Nat := [3, 4, 7, 0x10, 0x11]

/-- The answer to a request that fw0 turns away: BADREQ, or DENIED on a supervisor mailbox. -/
def turnedAway (b : MailBox) (m : MailState) : Option Nat :=
  let code := leNat (Memory.reads m.req 0 2)
  match b with
  | .management => if requestCodes.contains code then none else some 1
  | .supervisor p => if supervisorCodes.contains code && (Memory.read m.req 2).toNat % 64 = p then none else some 17

/-- A request is answered: the response buffer is 0 but for what the request returns (R69). -/
def MailState.answer (m : MailState) (status : Nat) (resp : Bytes) : MailState :=
  { m with busy := false, done := true, status := BitVec.ofNat 16 status, resp := resp }

/-- A write of MBREQ, or of MBDB, which submits the request unless one is busy: fw0 takes MBREQ as it stands then, and later
writes of MBREQ do not reach it (DESIGN CHOICE, log 61). -/
def mailWrite (b : MailBox) (m : MailState) (off : Nat) (v : DWord) : MailState :=
  if off < 0x100 then { m with req := Memory.writes m.req off (natBytes 8 v.toNat) }
  else if off = 0x100 && !m.busy then
    (match turnedAway b m with
     | some st => m.answer st []
     | none => { m with busy := true, done := false, taken := m.req })
  else m

def State.mailbox (s : State) : MailBox → MailState
  | .management => s.mail
  | .supervisor p => tget s.supMail p MailState.reset

def State.setMailbox (s : State) (b : MailBox) (m : MailState) : State :=
  match b with
  | .management => { s with mail := m }
  | .supervisor p => { s with supMail := tput s.supMail p m }

/-! ### Reading the window (R273, R274) -/

def issueCode : IssueState → Nat | .running => 0 | .frozen => 1 | .stepping => 2

/-- The answer to a proxy advance that had left the core when it froze is still to come (R409). -/
def Core.proxyOut (c : Core) : Bool := c.accs.any (fun e => match e.op with | .proxyAdvance _ _ _ _ _ froze => froze | _ => false)

def dwstat (c : Core) : Nat :=
  issueCode c.issue + (if c.stopping || c.proxyOut then 4 else 0) + (if c.engStopped then 8 else 0) + (if c.reqIgnored then 16 else 0) +
  65536 * c.lastKind.toNat

def selContext (c : Core) : Nat := c.dwsel.toNat % 16
def selAcc (c : Core) : Nat := bits c.dwsel.toNat 4 2
def selPage (c : Core) : Nat := bits c.dwsel.toNat 8 7
def selLm (c : Core) : Bool := c.dwsel.getLsbD 15

/-- The selected page exists: 16 pages of IM, 96 of LM. -/
def selPageOk (c : Core) : Bool := decide (selPage c < if selLm c then 96 else 16)

/-- The 8-byte word of a core at an aligned offset of its window. -/
def windowWord (c : Core) (off : Nat) : DWord :=
  let acc := vget c.acc (selAcc c) Accum.reset
  if off = 0x8 then b64 (dwstat c)
  else if off = 0x10 then c.dwsel.setWidth 64
  else if off < 0x40 then 0
  else if off < 0x60 then vget c.ibp ((off - 0x40) / 8) 0
  else if off < 0x80 then vget c.wpb ((off - 0x60) / 8) 0
  else if off < 0xa0 then vget c.wpc ((off - 0x80) / 8) 0
  else if off < 0x100 then 0
  else if off < 0x140 then (match c.packet with | some k => b64 (byteWord k.bytes (off - 0x100)) | none => 0)
  else if off < 0x200 then 0
  else if off < 0x300 then b64 (handleWord (vget c.handles ((off - 0x200) / 16) Handle.unset) (off % 16 = 8))
  else if off = 0x300 then c.tagDone
  else if off = 0x308 then c.tagErr
  else if off = 0x310 then c.tagBusy
  else if off < 0x368 then b64 (specialWord c ((off - 0x318) / 8))
  else if off = 0x370 then b64 (accTag acc)
  else if off < 0x800 then 0
  else if off < 0x1000 then b64 (acc.el.getD ((off - 0x800) / 8) 0).toNat
  else if off < 0x2000 then (if selContext c < 11 then b64 (ctxWord (c.context (selContext c)) (off - 0x1000)) else 0)
  else if off < 0x3000 then
    (if selPageOk c then memWord (if selLm c then c.lm else c.im) (4096 * selPage c + (off - 0x2000)) else 0)
  else if off < 0x3400 then b64 (xbarWord c (off - 0x3000))
  else if off < 0x3600 then b64 (jobRecWord c (off - 0x3400))
  else if off < 0x3800 then 0
  else b64 (byteWord (watchBytes (c.watchAt ((off - 0x3800) / 128))) (off % 128))

/-- The partition of a core, if it is dormant. -/
def dormantPart (s : State) (core : Nat) : Option Nat :=
  (s.partOf core).filter (fun p => (s.part p).dmState = .dormant)

/-- Where a core's image goes at a collapse. -/
def collapseArea (q : Partition) (core : Nat) : Option Nat :=
  q.saveArea.map (fun x => x.1 + ((List.range core).filter q.holdsCore).length * imageLength)

/-- The offset in a core's image of the word that the window shows at an offset (R274, R282); none where no image holds it. -/
def imageOffset (c : Core) (off : Nat) : Option Nat :=
  if 0x200 ≤ off ∧ off < 0x300 then some off
  else if 0x300 ≤ off ∧ off < 0x318 then some (0x150 + (off - 0x300))
  else if 0x318 ≤ off ∧ off < 0x368 then some (0x100 + (off - 0x318))
  else if off = 0x370 then some (0x1400 + 0x500 * selAcc c + 1152)
  else if 0x800 ≤ off ∧ off < 0x1000 then some (0x1400 + 0x500 * selAcc c + 36 * ((off - 0x800) / 8) / 8)
  else if 0x1000 ≤ off ∧ off < 0x2000 then some (0x2800 + 0xb00 * selContext c + (off - 0x1000) % 0xb00)
  else if 0x2000 ≤ off ∧ off < 0x3000 then some ((if selLm c then 0x1b000 else 0xb000) + 4096 * selPage c + (off - 0x2000))
  else if 0x3000 ≤ off ∧ off < 0x3400 then some (0x1000 + (off - 0x3000))
  else if 0x3400 ≤ off ∧ off < 0x3600 then some (0x400 + (off - 0x3400))
  else if 0x3800 ≤ off then some (0x800 + (off - 0x3800))
  else none

/-- A read of a dormant core's window comes by the peek path: the pseudo-channel of its word in the saved image leaves self-refresh
(R104, R105). -/
def windowPeek (s : State) (core off : Nat) : State :=
  match dormantPart s core with
  | none => s
  | some p =>
    if (s.part p).sealed then s
    else match collapseArea (s.part p) core, imageOffset (tget (s.part p).savedCores core (s.core core)) off with
    | some a, some o =>
      (match paKind (a + o) with | .home d l => if refreshing s d l then peekTouch s d l else s | _ => s)
    | _, _ => s

/-- A read of the window: of a dormant core it is served from the saved image, and of a sealed one it reads 0, for the supervisor
core that R74 admits is itself dormant (R105). -/
def windowRead (s : State) (core off : Nat) : DWord :=
  match dormantPart s core with
  | some p => if (s.part p).sealed then 0 else windowWord (tget (s.part p).savedCores core (s.core core)) off
  | none => windowWord (s.core core) off

/-! ### The actions of DWCTL (R275, R276) -/

/-- A request that cannot act sets DWSTAT[4]; one that acts clears it. -/
def ignoreReq (s : State) (core : Nat) : State := s.modCore core (fun c => { c with reqIgnored := true })
def acceptReq (s : State) (core : Nat) : State := s.modCore core (fun c => { c with reqIgnored := false })

/-- FREEZE ends a step too, with its instruction unretired (R277). -/
def freezeAction (s : State) (core : Nat) : State :=
  if (s.core core).issue = .frozen then ignoreReq s core
  else
    let s := freezeCore (acceptReq s core) core 0xf true
    postFault s core (mkPacket s 0 core 0xf 6 (flt 12 4) 0 0 (s.core core).nodeid)

def resumeAction (s : State) (core : Nat) : State :=
  if (s.core core).issue != .frozen then ignoreReq s core
  else refill (resumeCore (acceptReq s core) core) core

def targetLive (s : State) (core tgt : Nat) : Bool := tgt < 11 && (s.ctx core tgt).status = .live

/-- STEP: the engines, the crossbar and the reconcile queue go on, and only the target issues (R277). -/
def stepAction (s : State) (core tgt : Nat) : State :=
  if (s.core core).issue != .frozen || !targetLive s core tgt then ignoreReq s core
  else
    let s := if (s.ctx core tgt).sleep.asleep then traceTiming s core tgt 3 else s
    let s := (acceptReq s core).modCore core (fun c =>
      { c.enginesRun.modContext tgt (fun x => { x.resume with ibpPass := some x.pc }) with
        issue := .stepping
        stepTarget := tgt
        stepDone := false
        stepEntry := none })
    refill (resendWait s core tgt) core

def stopengAction (s : State) (core : Nat) : State :=
  if (s.core core).issue != .frozen then ignoreReq s core
  else (acceptReq s core).modCore core haltEngines

/-- HALTC: the target halts, and counts as killed (R35). -/
def haltcAction (s : State) (core tgt : Nat) : State :=
  if (s.core core).issue != .frozen || !targetLive s core tgt then ignoreReq s core
  else
    let s := acceptReq s core
    let s := haltCtx (if (s.ctx core tgt).sleep.asleep then traceTiming s core tgt 3 else s) core tgt
    { s with kills := s.kills ++ [(core, tgt)] }

/-- A write of DWCTL (R275). -/
def dwctlWrite (s : State) (core : Nat) (v : DWord) : State :=
  let tgt := bits v.toNat 8 4
  match bits v.toNat 0 5 with
  | 0 => s
  | 1 => freezeAction s core
  | 2 => resumeAction s core
  | 4 => stepAction s core tgt
  | 8 => stopengAction s core
  | 16 => haltcAction s core tgt
  | _ => ignoreReq s core

/-! ### Writing the window (R273) -/

/-- A first word that breaks the limits of R177; a count of 0 leaves the handle unset, whatever else it holds. -/
def handleBad (s : State) (core : Nat) (h : Handle) : Bool :=
  h.count != 0 && (!ringShape h.base.toNat h.ssize.toNat h.count.toNat || !s.sameGang core (coreAt core h.home.toNat) ||
    h.proxy != (h.home.toNat != cicOf core))

/-- A handle word is written; a first word initialises the handle anew (R349). -/
def writeHandle (s : State) (core h : Nat) (second : Bool) (v : DWord) : State :=
  let k := vget (s.core core).handles h Handle.unset
  let n := if second then { k with head := v.setWidth 16, tail := BitVec.ofNat 16 (v.toNat / 65536) } else handleOf v.toNat k
  let bad := if second then k.count.toNat < n.filled else handleBad s core n
  if bad then ignoreReq s core
  else (if second then s else staleSleepers s core h).setHandle core h n

/-- A write of a core special acts as an `mtsr` by c0 would; a refused value sets DWSTAT[4]. One of RNGV or RNGM waits for the engine's jobs
queued before it (R239). -/
def windowSpecial (s : State) (core n : Nat) (v : DWord) : State :=
  let sr := fun (k : Nat) => if srBad k v.toNat || (k = 0x010 && promiseBusy (s.core core)) then ignoreReq s core else writeSpecial s core 0 k v
  match n with
  | 0 => sr 0x008
  | 2 => sr 0x010
  | 3 | 4 => if srBad (n + 11) v.toNat then ignoreReq s core else
    s.modCore core (fun c => c.queueRng { engine := if n = 3 then .vector else .matrix, bound := s.nextKey, value := v.setWidth 32 })
  | 5 => s.modCore core (fun c => { c with idCount := v })
  | 7 => writeSpecial s core 0 0x002 v
  | _ => s

/-- A slot that the supervisor frees drops its job (R265). -/
def dropPromise (c : Core) (k : Nat) : Core :=
  let mine : Job → Bool := fun j => match j.prom with | some r => r.slot == k | none => false
  { c with
    recQ := c.recQ.filter (fun r => r.slot != k)
    recHeld := c.recHeld &&& ~~~(1#16 <<< k)
    matQ := c.matQ.filter (fun j => !mine j) }.rngSettle

/-- A write of a watch entry's STATE; a code that is no state is ignored. It may leave only HELD jobs queued (R264). -/
def writeWatchState (s : State) (core k : Nat) (v : DWord) : State :=
  let st : BitVec 4 := v.setWidth 4
  if 8 < st.toNat then s
  else refill (gangQuiet (s.modCore core (fun c => changePromise (if st = stFree then dropPromise c k else c) k st)) core) core

def setAccEl (c : Core) (e : Nat) (v : DWord) : Core :=
  { c with acc := vmod c.acc (selAcc c) Accum.reset (fun a => { a with el := a.el.set e (v.setWidth 36) }) }

def setAccTag (c : Core) (v : DWord) : Core :=
  { c with acc := vmod c.acc (selAcc c) Accum.reset (fun a =>
      { a with epoch := v.setWidth 32, exp := BitVec.ofNat 8 (v.toNat / 2 ^ 32) }) }

def setApertureWord (c : Core) (off : Nat) (v : DWord) : Core :=
  if !selPageOk c then c
  else if selLm c then { c with lm := Memory.writes c.lm (4096 * selPage c + off) (natBytes 8 v.toNat) }
  else { c with im := Memory.writes c.im (4096 * selPage c + off) (natBytes 8 v.toNat) }

/-- A PC that a context cannot hold is not taken; 65,536 arises only by sequential execution (R289, log 10). -/
def pcRefused (c : Context) (v : DWord) : Bool := v != c.pc && (v.toNat % 2 != 0 || decide (65534 < v.toNat))

/-- A write to a word that acts only while the core's issue is frozen. -/
def frozenWrite (s : State) (core off : Nat) (v : DWord) : State :=
  if 0x200 ≤ off ∧ off < 0x300 then writeHandle s core ((off - 0x200) / 16) (off % 16 = 8) v
  else if off = 0x308 then writeSpecial s core 0 0x005 v
  else if 0x318 ≤ off ∧ off < 0x368 then windowSpecial s core ((off - 0x318) / 8) v
  else if off = 0x370 then s.modCore core (fun c => setAccTag c v)
  else if 0x800 ≤ off ∧ off < 0x1000 then s.modCore core (fun c => setAccEl c ((off - 0x800) / 8) v)
  else if 0x1000 ≤ off ∧ off < 0x2000 then
    (let k := selContext (s.core core)
     if off = 0x1000 && pcRefused (s.ctx core k) v then ignoreReq s core
     else if k < 11 then s.modCtx core k (fun c => setCtxWord c (off - 0x1000) v) else s)
  else if 0x2000 ≤ off ∧ off < 0x3000 then s.modCore core (fun c => setApertureWord c (off - 0x2000) v)
  else if 0x3000 ≤ off ∧ off < 0x3400 then
    { s with nextKey := s.nextKey + 1 }.modCore core (fun c => setXbarWord c (off - 0x3000) s.nextKey v)
  else if 0x3800 ≤ off ∧ off < 0x4000 ∧ off % 128 = 0x48 then writeWatchState s core ((off - 0x3800) / 128) v
  else s

/-- An 8-byte write at an aligned offset of the window. -/
def windowWrite (s : State) (core off : Nat) (v : DWord) : State :=
  let set := fun (f : Core → Core) => s.modCore core f
  if off = 0 then dwctlWrite s core v
  else if off = 0x10 then set (fun c => { c with dwsel := v.setWidth 16 &&& 0xff3f })
  else if 0x40 ≤ off ∧ off < 0x60 then set (fun c => { c with ibp := vset c.ibp ((off - 0x40) / 8) (v &&& 0x87ff00000000fffe) })
  else if 0x60 ≤ off ∧ off < 0x80 then set (fun c => { c with wpb := vset c.wpb ((off - 0x60) / 8) (v &&& 0x00ffffffffffffff) })
  else if 0x80 ≤ off ∧ off < 0xa0 then set (fun c => { c with wpc := vset c.wpc ((off - 0x80) / 8) (v &&& 0xffff) })
  else if (s.core core).issue = .frozen then frozenWrite s core off v
  else s

/-- While the collector stops the core's node, writes of DWCTL wait (R276). -/
def windowWaits (s : State) (core off : Nat) : Bool := off = 0 && (s.core core).stopping

/-- A write to a core's window (R273): the core lies in a partition, on a die that is present (R19). To a core whose partition is
not awake it is a wake write (R105), and to a sealed one then dropped: its own supervisor core is not awake to make it (R74). -/
def windowStore (s : State) (core off : Nat) (v : DWord) : State :=
  match s.partOf core with
  | none => s
  | some p =>
    if s.dieExcluded (dieOf core) || windowWaits s core off then s
    else if (s.part p).sealed && ((s.part p).dmState = .dormant || (s.part p).dmState = .waking) then s
    else writeOrHold s p (.window core off v) (fun s => windowWrite s core off v)

/-- A DWCTL action of the event table: the write of its code (R275). -/
def dwctlEvent (s : State) (code : Nat) : Result := .next (windowStore s s.input.core 0 (b64 (code + 256 * s.input.ctx)))

def execDwctlFreeze (s : State) : Result := dwctlEvent s 1
def execDwctlResume (s : State) : Result := dwctlEvent s 2
def execDwctlStep (s : State) : Result := dwctlEvent s 4
def execDwctlStopeng (s : State) : Result := dwctlEvent s 8
def execDwctlHaltc (s : State) : Result := dwctlEvent s 16

/-- A supervisor write to a word of a window. -/
def execDebugWindowWrite (s : State) : Result :=
  let i := s.input
  if i.off % 8 != 0 || 0x4000 ≤ i.off then .next s else .next (windowStore s i.core i.off i.value)

/-- The stepped instruction has retired: issue freezes again, and BREAK STEP carries the next PC (R277). -/
def execStepEnd (s : State) : Result :=
  let core := s.input.core
  let c := s.core core
  if c.issue = .stepping && c.stepDone then
    let s := freezeCore s core 0xf false
    .next (postFault s core (mkPacket s 0 core c.stepTarget 6 (flt 12 3) (c.context c.stepTarget).pc 0 c.nodeid))
  else .next s

/-! ### Breakpoints (R278) -/

/-- An enabled IBP at `pc` stops context `k`, unless it may pass there once. -/
def ibpHit (c : Core) (k : Nat) (pc : DWord) : Bool :=
  (c.context k).ibpPass != some pc &&
  c.ibp.toList.any (fun b => b.getLsbD 63 && b.getLsbD (48 + k) && (b &&& 0xfffe) = pc)

/-- The instruction word at an offset of IM: 16 bits when bit 0 is 0 (R288). -/
def imWord (c : Core) (pc : Nat) : Nat :=
  let w := leNat (Memory.reads c.im pc 4)
  if w % 2 = 1 then w else w % 65536

/-- The PC at which a context issues next: a follower's c0 takes its leader's (R167). -/
def issuePc (c : Core) (k : Nat) : DWord :=
  match c.fbuf with
  | e :: _ => if k = 0 then e.pc else (c.context k).pc
  | [] => (c.context k).pc

/-- The context may issue: its core runs it, or steps it and has still to step; it is LIVE, and no fault holds it. -/
def mayIssue (s : State) (core k : Nat) : Bool :=
  let c := s.core core
  (c.issue = .running || (c.issue = .stepping && c.stepTarget = k && !c.stepDone && c.stepEntry.isNone)) &&
  (c.context k).status = .live && !(c.context k).stopped

/-- The context stops before the instruction at its PC, which it may pass once after a RESUME (R278). -/
def breakAt (s : State) (core k : Nat) (pc : DWord) : State :=
  State.modCtx (takeFaultAt (s.modCtx core k (fun x => { x with pc := pc })) core k (flt 12 2) (BitVec.ofNat 32 (imWord (s.core core) pc.toNat)))
    core k (fun x => { x with ibpPass := some pc })

def execBreakpointStop (s : State) : Result :=
  let i := s.input
  let c := s.core i.core
  let pc := issuePc c i.ctx
  .next (if mayIssue s i.core i.ctx && ibpHit c i.ctx pc then breakAt s i.core i.ctx pc else s)

/-! ### Reports (R270 to R272) -/

/-- A handle of the supervisor that takes a message now. -/
def reportOpen (s : State) (p h : Nat) : Bool :=
  let k := s.handle (s.part p).supervisor h
  s.partAwake p && k.count != 0 && !k.proxy && decide (64 ≤ k.ssize.toNat) && decide (0 < k.room)

/-- Deliver one message with the LOST of its partition. -/
def deliverReport (s : State) (p h : Nat) (k : Packet) : State :=
  let q := s.part p
  deliverInto (s.modPart p (fun q => { q with lost := 0 })) q.supervisor h { k with lost := q.lost }.bytes

def faultQueueSize : Nat := 64
def noticeQueueSize : Nat := 256

/-- A packet in flight reaches its handle, or the queue on DX, or waits at its core. -/
def forwardFault (s : State) (p : Nat) (k : Packet) : State :=
  let left := s.modPart p (fun q => { q with faultFlight := q.faultFlight.erase k })
  if (s.part p).faultQ.isEmpty && reportOpen s p 14 then deliverReport left p 14 k
  else if (s.part p).faultQ.length < faultQueueSize then left.modPart p (fun q => { q with faultQ := q.faultQ ++ [k] })
  else s

/-- A notice in flight reaches its handle or the queue on DX, or is dropped and counted. -/
def forwardNotice (s : State) (p : Nat) (k : Packet) : State :=
  if (s.part p).noticeQ.isEmpty && reportOpen s p 15 then deliverReport s p 15 k
  else if (s.part p).noticeQ.length < noticeQueueSize then s.modPart p (fun q => { q with noticeQ := q.noticeQ ++ [k] })
  else s.modPart p (fun q => { q with lost := q.lost + 1 })

def execNoticeDeliver (s : State) : Result :=
  let p := s.input.part
  let q := s.part p
  match q.noticeQ, reportOpen s p 15 with
  | k :: r, true => .next (deliverReport (s.modPart p (fun q => { q with noticeQ := r })) p 15 k)
  | _, _ =>
    match q.noticeFlight with
    | k :: r => .next (forwardNotice (s.modPart p (fun q => { q with noticeFlight := r })) p k)
    | [] => .next s

end Sys2Proof.Machine
end

