-- ==== Sys2Proof/Machine/Order.lean ====
section
/-! DEFINITION. What an entry does when it is performed (PERFORM, R212), the moves of the holding caches (R221, R222), and
fabric requests that arrive (R331). -/
namespace Sys2Proof.Machine

/-! ### Entries -/

def findAccess (s : State) (core id : Nat) : Option Access := (s.core core).accs.find? (fun e => e.id = id)

/-- The entry leaves its queue or pool. -/
def removeAccess (s : State) (core : Nat) (e : Access) : State :=
  s.modCore core (fun c => { c with accs := c.accs.filter (fun x => x.id != e.id) })

/-- A scalar register is produced (R211). -/
def produceReg (s : State) (core ctx : Nat) (r : Reg) (v : DWord) : State :=
  s.modCtx core ctx (fun c => { c.setGpr r.toNat v with busyS := c.busyS &&& ~~~(1#32 <<< r.toNat) })

/-- A notice of ORIGIN 0 about an access that is not performed (R338). -/
def accessNotice (s : State) (core : Nat) (e : Access) (f : Flt) : State :=
  coreNotice (removeAccess s core e) core e.ctx 0 f e.pc e.word

/-! ### Loads (R332 to R335) -/

/-- The value a scalar load writes. -/
def loadValue (signed : Bool) (len : Nat) (bs : List Byte) : DWord :=
  if signed then BitVec.ofInt 64 (sext (leNat bs) (8 * len)) else b64 (leNat bs)

/-- Replace lane `i` of 32 bits of a vector register. -/
def setLane32 (v : Vec) (i w : Nat) : Vec := (v &&& ~~~(0xffffffff#512 <<< (32 * i))) ||| (BitVec.ofNat 512 (w % 2 ^ 32) <<< (32 * i))

/-- Row `row` of a tile: word k stands at place (row + k) mod 16 (R187), and goes to the register of its row or column. -/
def loadRow (c : Context) (base row : Nat) (t : Bool) (bs : List Byte) : Context :=
  (List.range 16).foldl (fun c k =>
    let w := recField bs (4 * ((row + k) % 16)) 4
    let (r, i) := if t then (base + k, row) else (base + row, k)
    { c with v := vmod c.v r 0 (fun v => setLane32 v i w) }) c

/-- The other rows of a transposed tile have been loaded. -/
def lastRow (s : State) (core : Nat) (e : Access) (base : Nat) : Bool :=
  !(s.core core).accs.any (fun x => x.id != e.id && x.ctx = e.ctx &&
    (match x.op with | .load (.tileRow b _ _) => b = base | _ => false))

/-- The registers that a row of a tile produces. -/
def rowDone (s : State) (core : Nat) (e : Access) (base row : Nat) (t : Bool) : BitVec 32 :=
  if t then (if lastRow s core e base then 0xffff#32 <<< base else 0) else 1#32 <<< (base + row)

/-- The register that a failed entry was to write is free again, with its old value. -/
def releaseDst (s : State) (core : Nat) (e : Access) : State :=
  let reg := fun (r : Reg) => s.modCtx core e.ctx (fun c => { c with busyS := c.busyS &&& ~~~(1#32 <<< r.toNat) })
  match e.op with
  | .load (.scalar r _) | .cread r | .atomic _ _ _ (some r) => reg r
  | .load (.xreg x) => s.modCtx core e.ctx (fun c => { c with busyX := c.busyX &&& ~~~(1#8 <<< x.toNat) })
  | .load (.vector r) => s.modCtx core e.ctx (fun c => { c with busyV := c.busyV &&& ~~~(1#32 <<< r.toNat) })
  | .load (.tileRow base row t) => s.modCtx core e.ctx (fun c => { c with busyV := c.busyV &&& ~~~(rowDone s core e base row t) })
  | _ => s

/-- A load or a returning atomic that fails when performed: the core freezes, the context keeps the PC of its first
instruction not yet issued, and no register is written (R208, R268). -/
def lateFault (s : State) (core : Nat) (e : Access) (f : Flt) : State :=
  let s := removeAccess (releaseDst s core e) core e
  let s := if e.ctx = 0 then leaderFault s core else s
  let s := if (s.core core).issue = .frozen then s.modCore core haltEngines else stopCore (traceAt s core e.ctx 4 e.pc.toNat) core true
  let s := s.modCtx core e.ctx (fun c => { c with stopped := true, poisonLate := f.kind = 6 })
  postFault s core (mkPacket s 0 core e.ctx 0 f e.pc e.word (s.core core).nodeid)

/-- The destination of a load is written and produced. -/
def writeDst (s : State) (core : Nat) (e : Access) (dst : LoadDst) (bs : List Byte) : State :=
  match dst with
  | .scalar r signed => produceReg s core e.ctx r (loadValue signed e.len bs)
  | .xreg x => s.modCtx core e.ctx (fun c => { c with x := vset c.x x.toNat (b64 (leNat bs)), busyX := c.busyX &&& ~~~(1#8 <<< x.toNat) })
  | .vector r => s.modCtx core e.ctx (fun c =>
      { c with v := vset c.v r.toNat (BitVec.ofNat 512 (leNat bs)), busyV := c.busyV &&& ~~~(1#32 <<< r.toNat) })
  | .tileRow base row t =>
    s.modCtx core e.ctx (fun c => { loadRow c base row t bs with busyV := c.busyV &&& ~~~(rowDone s core e base row t) })

/-- A `.by` access of a line that the die could hold and does not: it is served at the home slice (R191). -/
def bypassed (s : State) (core : Nat) (e : Access) : Bool :=
  e.bypass && (match heldLine (dieOf core) e.handoff e.place with
    | some l => ((s.die (dieOf core)).copy? l).isNone
    | none => false)

/-- The access as it is performed: a bypassed one passes the holding cache. -/
def Access.seen (s : State) (core : Nat) (e : Access) : Access := { e with handoff := e.handoff && !bypassed s core e }

/-- No message of the line is still on its way: a bypassed access meets every byte that the die sent before. -/
def pathClear (s : State) (die line : Nat) : Bool := !(tget s.paths (pathKey die line) []).any (fun w => w.line = line)

/-- A context's earlier SO stores have all been sent and applied (R222). -/
def soSent (s : State) (die owner : Nat) : Bool :=
  let sel := fun (y : HeldStore) => y.so && y.owner = owner
  !(s.die die).holding.any (fun h => h.stores.any sel) && !s.paths.any (fun p => p.1 / 1000 = die && p.2.any (fun w => w.stores.any sel))

/-- A load or store of a handoff line waits for room in the holding cache (R197), a bypassed one for the line's messages and, as a
store on an SO page, for its context's earlier SO bytes. -/
def cacheWaits (s : State) (core : Nat) (e : Access) : Bool :=
  match heldLine (dieOf core) e.handoff e.place with
  | none => false
  | some l =>
    if bypassed s core e then !pathClear s (dieOf core) l || (e.isWrite && e.kind = .so && !soSent s (dieOf core) (core * 16 + e.ctx))
    else !holdRoom s (dieOf core) l

/-- The bytes that a load reads at its place; the mailbox and the windows are served there. -/
def placeLoad (s : State) (core : Nat) (e : Access) : List Byte × State :=
  match e.place with
  | .mailbox p off => (natBytes 8 (mailRead (tget s.supMail p MailState.reset) off).toNat, s)
  | .window c off => (natBytes 8 (windowRead s c off).toNat, windowPeek s c off)
  | _ => readAs s (dieOf core) e.handoff e.place e.len

def finishLoad (s : State) (core : Nat) (e : Access) (dst : LoadDst) (bs : List Byte) : State :=
  removeAccess (writeDst s core e dst bs) core e

/-- A load, from memory or from the context's own earlier writes (R212). -/
def performLoad (s : State) (core : Nat) (e : Access) (dst : LoadDst) : State :=
  if mayPerform s core e then
    if cacheWaits s core e then s
    else if poisonedAs s (dieOf core) (e.seen s core).handoff e.place e.len then lateFault s core e (flt 6 1 e.va.toNat)
    else
      let (bs, s) := placeLoad s core (e.seen s core)
      finishLoad s core e dst bs
  else match forwardBytes s core e with
  | some bs => finishLoad s core e dst bs
  | none => s

/-! ### Stores -/

/-- The bytes of a store at its place, with the run that may clear poison (R208). -/
def placeStore (s : State) (core : Nat) (e : Access) (bs : List Byte) : State :=
  let o : Origin := { owner := core * 16 + e.ctx, acc := some e.id, so := e.kind = .so, tag := none }
  let w := fun (s : State) => writeAs s (dieOf core) e.handoff e.place bs o (e.len = 64)
  match e.place with
  | .mailbox p off => s.setMailbox (.supervisor p) (mailWrite (.supervisor p) (s.mailbox (.supervisor p)) off (b64 (leNat bs)))
  | .window c off => windowStore s c off (b64 (leNat bs))
  | .phys pa =>
    let (run, full) := coverRun (s.ctx core e.ctx).storeRun pa e.len
    ((w s).covered (dieOf core) e.handoff full).modCtx core e.ctx (fun c => { c with storeRun := run })
  | _ => (w s).modCtx core e.ctx (fun c => { c with storeRun := none })

def performStore (s : State) (core : Nat) (e : Access) (d : Nat) : State :=
  let waits := match e.place with | .window c off => windowWaits s c off | _ => false
  if mayPerform s core e && !waits && !cacheWaits s core e then placeStore (removeAccess s core e) core (e.seen s core) (natBytes e.len d) else s

/-! ### Atomics (R336 to R338) -/

/-- The die that an atomic's target lies on has been excluded since its issue. -/
def targetGone (s : State) (pl : Place) : Bool := match pl with | .phys pa => s.absent pa | _ => false

/-- The line that the issuing die holds, through whichever mapping, goes home and its copy is dropped. -/
def releaseLine (s : State) (core : Nat) (pl : Place) : State :=
  match heldLine (dieOf core) true (realPlace s pl) with
  | some l => dropLine (flushLine s (dieOf core) l) (dieOf core) l
  | none => s

/-- An atomic is performed at its home: the copies of the issuing dies go first, those of every requester that a router has merged (R196, R337). -/
def releaseHolding (s : State) (core : Nat) (e : Access) : State :=
  ((core :: e.joined.map (·.1)).filter (· != ghost)).foldl (fun s i => releaseLine s i e.place) s

/-- A router has merged the request into another one, with which it is performed (R196). -/
def mergedAway (s : State) (core : Nat) (e : Access) : Bool :=
  s.cores.any (fun p => p.2.accs.any (fun a => a.joined.any (fun j => j.1 = core && j.2.1 = e.id) && !(p.1 = core && a.id = e.id)))

/-- The page kind of a fabric atomic in another package is known there: `Input.entry` tells it (0 SO, 1 RC, 2 UO). -/
def foreignKind (s : State) (e : Access) : Access :=
  match e.place with
  | .fabric k _ _ => if k = s.pkgId.toNat then e else { e with kind := match s.input.entry with | 0 => .so | 1 => .rc | _ => .uo }
  | _ => e

/-- An FP32 addition under way that a router may merge with another one (R196): on a MERGE page, outside deterministic partitions. That a
page of another package is a MERGE page is known there: the merging move tells it. -/
def mergeable (s : State) (core : Nat) (e : Access) : Bool :=
  (e.merge || (match e.place with | .fabric k _ _ => k != s.pkgId.toNat | _ => false)) && mayPerform s core e && !mergedAway s core e &&
  (match e.op, (s.core core).part with | .atomic 10 _ _ _, some p => !(s.part p).det | _, _ => false) &&
  (match e.place with | .fabric k p _ => k != s.pkgId.toNat || !(s.part p).det | _ => true)

/-- Two such additions to one word are under way at once. -/
def mayMerge (s : State) (core : Nat) (e : Access) (core' : Nat) (e' : Access) : Bool :=
  !(core = core' && e.id = e'.id) && realPlace s e.place = realPlace s e'.place && mergeable s core e && mergeable s core' e'

/-- The requests of which an entry consists, each with its core, key and value. -/
def Access.requests (core : Nat) (e : Access) : List (Nat × Nat × DWord) :=
  if e.joined.isEmpty then (match e.op with | .atomic _ v _ _ => [(core, e.id, v)] | _ => []) else e.joined

/-- A merge of a and b sends Round32(a + b) on, for both requesters (R196). -/
def mergeRequests (s : State) (core : Nat) (e : Access) (core' : Nat) (e' : Access) : State :=
  match e.op, e'.op with
  | .atomic op v cmp ret, .atomic _ w _ _ =>
    let a := { e with op := .atomic op (b64 (fadd32 v.toNat w.toNat).1) cmp ret, joined := e.requests core ++ e'.requests core' }
    let put := fun (s : State) (c : Nat) (a : Access) => s.modCore c (fun k => { k with accs := k.accs.map (fun x => if x.id = a.id then a else x) })
    put (put s core' { e' with joined := [] }) core a
  | _, _ => s

/-- The context still stands at the instruction that an answer is for. -/
def standsAt (s : State) (core : Nat) (e : Access) : Bool := (s.ctx core e.ctx).pc = e.pc && (s.ctx core e.ctx).status = .live

/-- The instruction that waited for the answer to its request retires, on a core that has stopped issuing too (R409), or it faults precisely
(R338, R350). A frozen core's refused one, which had no effect, executes again when the core resumes (R163). -/
def answerEntry (s : State) (core : Nat) (e : Access) (r : Except Flt (Option (Reg × DWord))) : State :=
  let s' := removeAccess s core e
  if !standsAt s core e then s'
  else match r with
  | .error f => if mayRetire s core e.ctx then takeFaultAt s' core e.ctx f e.word else s'
  | .ok w =>
    let s' := match w with | some (d, v) => s'.modCtx core e.ctx (fun c => c.setGpr d.toNat v) | none => s'
    let s' := retireAt s' core e.ctx (e.pc + 4)
    if e.ctx != 0 then s'
    else if (s.core core).fstate != 1 then popFollow s' core e.pc
    else match decode32 e.word.toNat with
      | .ok i => pushFollow s' core { pc := e.pc, instr := i, word := e.word, nextPc := e.pc + 4, taken := false }
      | .error _ => s'

/-- The context waits at issue for the answer to the access (R338). -/
def Access.isFabric (e : Access) : Bool := match e.place with | .fabric _ _ _ => true | _ => false

/-- An atomic has been performed, and `old` was the value before it. -/
def atomicDone (s : State) (core : Nat) (e : Access) (ret : Option Reg) (old : Nat) : State :=
  let v : DWord := BitVec.ofInt 64 (sext old (8 * e.len))
  if e.isFabric then answerEntry s core e (.ok (ret.map (fun d => (d, v))))
  else match ret with
    | some d => produceReg (removeAccess s core e) core e.ctx d v
    | none => removeAccess s core e

/-- An atomic is not performed: a fabric one faults precisely, a returning one as a load does (log 46), and of any other a notice goes to the
supervisor (R338). -/
def atomicFailed (s : State) (core : Nat) (e : Access) (ret : Option Reg) (f : Flt) : State :=
  if e.isFabric then answerEntry s core e (.error { f with addr := e.va.toNat })
  else if ret.isSome then lateFault s core e f else accessNotice s core e f

def Access.returns (e : Access) : Option Reg := match e.op with | .atomic _ _ _ ret => ret | _ => none

/-- Each requester of a merged addition gets the value it would have seen in one serial order of them (R196). -/
def answerMerged (s : State) : Nat → List (Nat × Nat × DWord) → State
  | _, [] => s
  | old, (c, k, v) :: r =>
    answerMerged (match findAccess s c k with
      | none => s
      | some e => atomicDone s c e e.returns old) (fadd32 old v.toNat).1 r

/-- The requests of a merged addition fail together. -/
def failMerged (s : State) (f : Flt) : List (Nat × Nat × DWord) → State
  | [] => s
  | (c, k, _) :: r =>
    failMerged (match findAccess s c k with
      | none => s
      | some e => atomicFailed s c e e.returns f) f r

def atomicAnswer (s : State) (core : Nat) (e : Access) (old : Nat) : State :=
  if e.joined.isEmpty then atomicDone s core e e.returns old else answerMerged s old e.joined

def atomicRefused (s : State) (core : Nat) (e : Access) (f : Flt) : State :=
  if e.joined.isEmpty then atomicFailed s core e e.returns f else failMerged s f e.joined

/-- An atomic of the package. -/
def performAtomic (s : State) (core : Nat) (e : Access) (op : Nat) (v cmp : DWord) : State :=
  if targetGone s e.place then atomicRefused s core e (flt 11 0 e.va.toNat)
  else if s.poisoned e.place e.len then atomicRefused s core e (flt 6 1 e.va.toNat)
  else
    let (old, s) := atomicAtHome (releaseHolding s core e) e.place op e.len v cmp
    atomicAnswer s core e old

/-- An atomic in an endpoint of the fabric, sent and then answered (R224, R331). -/
def performFabric (s : State) (core : Nat) (e : Access) (op : Nat) (v : DWord) (pkg part va : Nat) : State :=
  match askFabric (releaseHolding s core e) core e.id pkg part va (.atomic op (e.len = 8) v) [] with
  | (s, none) => s
  | (s, some (.error f)) => atomicRefused s core e f
  | (s, some (.ok r)) => atomicAnswer s core e (leNat r.1)

/-! ### Counters, arrivals, advances -/

/-- `cadd` at its home. One that meets a poisoned line is dropped, and a notice of ORIGIN 0 goes to the supervisor: R208 and R338 speak of loads and
non-returning atomics (DESIGN CHOICE, log 46). -/
def performCadd (s : State) (core : Nat) (e : Access) (n : DWord) : State :=
  if s.poisoned e.place 8 then accessNotice s core e (flt 6 1 e.va.toNat)
  else counterAdd (removeAccess s core e) e.place n.toNat

def performCread (s : State) (core : Nat) (e : Access) (rd : Reg) : State :=
  if s.poisoned e.place 8 then lateFault s core e (flt 6 1 e.va.toNat)
  else produceReg (removeAccess s core e) core e.ctx rd (b64 (counterValue s e.place))

def performArrive (s : State) (core : Nat) (e : Access) (b : Nat) (rd : Reg) : State :=
  let (ph, s) := arriveAt (removeAccess s core e) core e.ctx b
  produceReg s core e.ctx rd (ph.setWidth 64)

def performAdvance (s : State) (core : Nat) (e : Access) (h : Nat) (producer : Bool) (n : Nat) : State :=
  match advanceCheck (s.handle core h) producer 0 n with
  | some f => lateFault s core e f
  | none => movePointer (removeAccess s core e) core h producer n

/-- The owner's network interface answers a proxy advance (R349, R350): what the proxy recorded as it was sent is checked against the owner's
handle as it stands now. -/
def performProxy (s : State) (core : Nat) (e : Access) (owner h : Nat) (sent : Handle) (producer : Bool) (n : Nat) : State :=
  let r := s.handle owner h
  match failIf (sent.stale r) (flt 10 10) <|> advanceCheck r producer 0 n with
  | some f => answerEntry s core e (.error f)
  | none => answerEntry (movePointer s owner h producer n) core e (.ok none)

/-! ### `rwb` and `rinv` (R199, R223) -/

/-- The virtual addresses at which a partition's handoff pages show a line. -/
def lineVas (p : Partition) (line : Nat) : List Nat := ((pageVas p line).filter (fun g => pageHandoff g.1.attr)).map (·.2)

/-- The lines that the die holds, or has messages of on their way (R199), and that the entry's range touches. -/
def touchedLines (s : State) (core : Nat) (e : Access) : List Nat :=
  match (s.core core).part with
  | none => []
  | some p =>
    let sent := (s.paths.filter (fun q => q.1 / 1000 = dieOf core)).flatMap (fun q => q.2.map WtMsg.line)
    ((s.die (dieOf core)).holding.map Holding.line ++ sent).eraseDups.filter (fun l =>
      (lineVas (s.part p) l).any (fun va => rangeMeets va 128 e.va.toNat e.len))

def performLines (s : State) (core : Nat) (e : Access) (drop : Bool) : State :=
  let d := dieOf core
  let s' := (touchedLines s core e).foldl (fun s l => if drop then dropLine (flushLine s d l) d l else flushLine s d l) s
  removeAccess s' core e

/-- A `launch.rel`, which has its place in the launch queue, is accepted once its context's earlier accesses are performed (R399); it retires, and
so ends its step (R277). -/
def performLaunch (s : State) (core : Nat) (e : Access) (rd : Reg) (bs : List Byte) : State :=
  let p := (s.core core).part.getD 0
  if launchReady s core e.ctx e.id then
    (produceReg (removeAccess (launchNode s core e.ctx p bs) core e) core e.ctx rd (b64 (launchId (s.part p)))).modCore core (fun c =>
      if c.stepEntry = some e.id then { c with stepEntry := none, stepDone := true } else c)
  else s

/-! ### PERFORM -/

/-- PERFORM of an entry of a core (R212): nothing happens while an earlier entry holds it back. -/
def performAccess (s : State) (core : Nat) (e : Access) : State :=
  let go := mayPerform s core (foreignKind s e)
  match e.op with
  | .load dst => performLoad s core e dst
  | .store d => performStore s core e d
  | .atomic op v cmp _ =>
    if !go || mergedAway s core e then s
    else (match e.place with
      | .fabric k p va => performFabric s core e op v k p va
      | _ => performAtomic s core e op v cmp)
  | .cadd n => if go then performCadd s core e n else s
  | .cread rd => if go then performCread s core e rd else s
  | .fence k => if fenceOpen s core (s.core core).accs e k then s else removeAccess s core e
  | .join ids st => if joinOpen s core (s.core core).accs ids st then s else removeAccess s core e
  | .rwb => if go then performLines s core e false else s
  | .rinv => if go then performLines s core e true else s
  | .arrive b rd => if go then performArrive s core e b rd else s
  | .advance h p n => if go then performAdvance s core e h p n else s
  | .proxyAdvance o h k p n _ => performProxy s core e o h k p n
  | .wait _ => s
  | .launch rd bs => performLaunch s core e rd bs

/-! ### Holding-cache moves (R221, R222, R411) -/

/-- A message holds whole what it touches: the dirty bytes of a store of up to 8 bytes, and of a granule that a vector or tile access wrote. -/
def wholeUnits (m : BitVec 128) (h : Holding) : Bool := h.units.all (fun u => u &&& m = 0 || u &&& h.mask &&& ~~~m = 0)

/-- Bytes of two stores of a copy must travel in one message. -/
def goTogether (h : Holding) (x y : HeldStore) : Bool := h.whole x.mask &&& y.mask != 0

/-- Every earlier SO store of the context than `x` has been sent and applied (R222). One of whose bytes some must travel with those of `x`, in a
granule (R411) or a smaller store that `x` has written over (R221), goes home with the same message `m`: its bytes are then not overtaken (DEDUCED, log 69). -/
def soClear (s : State) (die : Nat) (h : Holding) (m : BitVec 128) (x : HeldStore) : Bool :=
  let sel := HeldStore.soBefore x.owner x.seq
  let goes := fun (g : Holding) (y : HeldStore) => g.line = h.line && y.mask &&& ~~~m = 0 && goTogether h x y
  !(s.die die).holding.any (fun g => g.stores.any (fun y => sel y && !goes g y)) &&
  !s.paths.any (fun p => p.1 / 1000 = die && p.2.any (fun w => w.stores.any sel))

def sendAllowed (s : State) (die : Nat) (h : Holding) (m : BitVec 128) : Bool :=
  m != 0 && m &&& ~~~h.mask = 0 && wholeUnits m h &&
  h.stores.all (fun x => !(x.so && x.mask &&& m != 0) || soClear s die h m x)

/-- SEND(d, l, m). -/
def sendBytes (s : State) (die : Nat) (h : Holding) (m : BitVec 128) : State :=
  let k := pathKey die h.line
  { s with paths := tput s.paths k (tget s.paths k [] ++ [h.message m]) }.modDie die (fun d => d.modCopy h.line (fun h => h.sent m))

def execHoldSend (s : State) : Result :=
  let i := s.input
  match (s.die i.die).copy? i.line with
  | some h => .next (if sendAllowed s i.die h i.mask then sendBytes s i.die h i.mask else s)
  | none => .next s

/-- APPLY(p): the message at the head of the path from a die to a home slice. -/
def execApply (s : State) : Result :=
  let k := s.input.die * 1000 + s.input.slice
  match tget s.paths k [] with
  | [] => .next s
  | w :: r => .next { applyMsgs s [w] with paths := if r.isEmpty then tdel s.paths k else tput s.paths k r }

/-- EVICT(d, l): a copy with no dirty byte is dropped. -/
def execEvict (s : State) : Result :=
  let i := s.input
  match (s.die i.die).copy? i.line with
  | some h => .next (if h.mask = 0 then dropLine s i.die i.line else s)
  | none => .next s

/-! ### Requests from other packages (R331) -/

/-- The access is made; its answer goes back to the other package. -/
def fabricServed (s : State) (r : FabReq) : State :=
  match fabricServe s r.srcPkg r.srcPart r.part r.va r.op [] with
  | .ok x => x.state
  | .error _ => s

/-- A router merges an FP32 addition that arrives with the addition `Input.key` of core `Input.core` to the same word (R196): it is answered in
one serial order with it, before it or, as `Input.entry` says, after it. -/
def mergeIncoming (s : State) (r : FabReq) : Option State :=
  match r.op, findAccess s s.input.core s.input.key, translate s r.part r.va true true with
  | .atomic 10 false v, some e, .ok (a, pl) =>
    (match e.op with
     | .atomic op w cmp ret =>
       if s.input.ok && pageMerge a && mergeable s s.input.core e && realPlace s e.place = pl && r.va % 4 = 0 && s.partAwake r.part && !(s.part r.part).sealed && !(s.part r.part).det then
         (let mine := e.requests s.input.core
          let other := [(ghost, 0, v)]
          let e' := { e with op := .atomic op (b64 (fadd32 w.toNat v.toNat).1) cmp ret
                             joined := if s.input.entry = 0 then other ++ mine else mine ++ other }
          some (s.modCore s.input.core (fun k => { k with accs := k.accs.map (fun x => if x.id = e.id then e' else x) })))
       else none
     | _ => none)
  | _, _, _ => none

/-- A write or atomic for a partition that is not awake is a wake write, held in its order (R98). -/
def execFabricRequest (s : State) : Result :=
  let r := s.input.req
  if r.srcPkg = s.pkgId.toNat then .next s
  else match fabricPeer s r.srcPkg r.srcPart r.part r.va with
  | some _ => .next s
  | none =>
    match r.op with
    | .read _ => .next (fabricServed s r)
    | .write _ | .atomic _ _ _ => .next <| (mergeIncoming s r).getD (writeOrHold s r.part (.fabric r) (fun s => fabricServed s r))

end Sys2Proof.Machine
end

