-- ==== Sys2Proof/Machine/FrontEnd.lean ====
section
/-! DEFINITION. The front end of DX: command rings, predecessor counts and credits, the posting of a node's completion entry
and its retirement, and the registers of a virtual function (spec/03_host.md R42 to R61; spec/07_scheduler.md R128, R417). -/
namespace Sys2Proof.Machine

/-! ### Slots and granules (R47, R51, R54) -/

def Vf.cmd (f : Vf) (r : Nat) : CmdRing := vget f.cr r CmdRing.reset
def Vf.modCmd (f : Vf) (r : Nat) (g : CmdRing → CmdRing) : Vf := { f with cr := vmod f.cr r CmdRing.reset g }
def State.cmd (s : State) (vf r : Nat) : CmdRing := (s.vf vf).cmd r
def State.modCmd (s : State) (vf r : Nat) (g : CmdRing → CmdRing) : State := s.modVf vf (fun f => f.modCmd r g)

def CmdRing.slots (c : CmdRing) : Nat := 2 ^ c.log2.toNat

/-- Bus address of granule `g` of a slot. -/
def granuleBus (c : CmdRing) (slot g : Nat) : Nat := c.base.toNat + 128 * slot + 64 * g

/-- A granule is read whole; none when it lies beyond the host window (R9). -/
def readGranule (s : State) (c : CmdRing) (slot g : Nat) : Option (List Byte) :=
  if granuleBus c slot g < 2 ^ 42 then some (Memory.reads s.mem (hostPa (granuleBus c slot g)) 64) else none

/-- The front end's reading of a record granule: one that cannot be read holds nothing (log 52). -/
def granule (s : State) (c : CmdRing) (slot g : Nat) : List Byte := (readGranule s c slot g).getD (List.replicate 64 0)

/-- The live node of a slot. -/
def Node.inSlot (n : Node) (vf r slot : Nat) : Bool := !n.gone && n.src = .ring vf r slot
def slotNode (s : State) (vf r slot : Nat) : Option Node := s.nodes.find? (fun n => n.inSlot vf r slot)
def slotLive (s : State) (vf r slot : Nat) : Bool := (slotNode s vf r slot).isSome

/-- Four 16-bit ids of EDGEQ. -/
def edgeIds (v : Nat) : List Nat := (List.range 4).map (fun i => bits v (16 * i) 16)

/-- The fields of a record in its two granules. -/
def parseRecord (g0 g1 : List Byte) : NodeRec where
  nodeid := b64 (recField g0 0 8)
  kind := recField g0 8 1
  prio := recField g0 9 1
  part := recField g0 0x0a 1
  flags := recField g0 0x0b 1
  preds := recField g0 0x0c 2
  succ := (List.range (min 6 (recField g0 0x0e 1))).map (fun i => recField g0 (0x10 + 2 * i) 2)
  ovfcnt := recField g0 0x1c 2
  ovfptr := recField g0 0x20 8
  edgeq := edgeIds (recField g0 0x28 8)
  shape := recField g0 0x30 8
  eest := recField g0 0x38 6
  image := recField g1 0 8
  arg := recField g1 8 8
  arglen := recField g1 0x10 2
  cvec := recField g1 0x12 1
  gen := b64 (recField g1 0x38 8)

/-! ### Admission (R47, R49) -/

/-- A WAITING node becomes BLOCKED, last among the BLOCKED. -/
def Node.block (n : Node) (seq : Nat) : Node := { n with state := .blocked, seq := seq }

/-- Admit a slot; a re-arm (`again`) keeps the placement of a pinned node (R153). -/
def admitSlot (s : State) (vf r slot : Nat) (again : Bool) : State :=
  let c := s.cmd vf r
  let rec0 := parseRecord (granule s c slot 0) []
  let held := tget c.credits slot 0
  let used := min rec0.preds held
  let n : Node := { newNode s (.ring vf r slot) (vf / 16) with record := rec0, count := rec0.preds - used, pin := if again then tfind c.pins slot else none }
  let n := if n.count = 0 then n.block n.key else n
  let s := s.modCmd vf r (fun c => { c with
    credits := if held = used then tdel c.credits slot else tput c.credits slot (held - used)
    pins := if again then c.pins else tdel c.pins slot })
  { s with nextKey := s.nextKey + 1, nodes := s.nodes ++ [n] }

def backlogFull (s : State) (vf : Nat) : Bool := decide (256 ≤ (s.vf vf).cp.wait.length)

/-- The slot of count CRHEAD may be admitted. -/
def mayAdmit (s : State) (vf r : Nat) : Bool :=
  let c := s.cmd vf r
  c.enable && c.head != c.tail && s.partAwake (vf / 16) && !backlogFull s vf && !slotLive s vf r (c.head.toNat % c.slots)

/-- Admission goes on in count order; `fuel` is the number of slots to admitSlots. -/
def admitRing : Nat → State → Nat → Nat → State
  | 0, s, _, _ => s
  | n + 1, s, vf, r =>
    if mayAdmit s vf r then
      let c := s.cmd vf r
      admitRing n ((admitSlot s vf r (c.head.toNat % c.slots) false).modCmd vf r (fun c => { c with head := c.head + 1 })) vf r
    else s

def admitSlots (s : State) (vf r : Nat) : State := admitRing ((s.cmd vf r).tail - (s.cmd vf r).head).toNat s vf r

/-- A successor is decremented, and blocks at 0 where it still waits, or a credit is held for its slot (R49, R128). For an index of 2^LOG2SLOTS or above, which only
an overflow list can hold, a credit is held too: it names no slot that is ever admitted (DESIGN CHOICE, log 28). -/
def decrement (s : State) (vf r slot : Nat) : State :=
  let credit := fun (c : CmdRing) =>
    if 65535 ≤ tget c.credits slot 0 then { c with creditLost := true } else { c with credits := tmod c.credits slot 0 (· + 1) }
  match slotNode s vf r slot with
  | some n =>
    if n.count = 0 then s.modCmd vf r credit
    else
      let s := s.modNode n.key (fun m => { m with count := m.count - 1 })
      if n.count = 1 && n.state = .waiting then { s with nextKey := s.nextKey + 1 }.modNode n.key (fun m => m.block s.nextKey) else s
  | none => s.modCmd vf r credit

/-- A re-admission by a cond node; none when the slot is skipped (R137, R413). -/
def readmit (s : State) (vf r slot : Nat) : Option State :=
  let c := s.cmd vf r
  if !c.enable || c.slots ≤ slot || slotLive s vf r slot then none else some (admitSlot s vf r slot true)

/-! ### The entry and the retirement (R56, R58, R128, R417) -/

/-- The 31 bytes of a node's entry before PHASE. -/
def nodeEntry (n : Node) (r slot : Nat) : List Byte :=
  natBytes 8 n.record.nodeid.toNat ++ natBytes 8 n.record.gen.toNat ++ natBytes 2 slot ++ natBytes 1 r ++ natBytes 1 n.status ++
  natBytes 4 n.sub ++ natBytes 4 (min n.energy (2 ^ 32 - 1)) ++ [0, 0, 0]

/-- A completed node of the function has still to post its entry. -/
def Node.holds (n : Node) (vf : Nat) : Bool :=
  n.state = .done && n.edgesDone && n.released && (match n.src with | .ring v _ _ => v = vf | _ => false)

/-- An entry that has no bound node to hold it, or that of a node that holds, waits before place `q` (R58): a node's, or the
one that fw3 holds for the supervisor core. -/
def heldBefore (s : State) (vf q : Nat) : Bool :=
  s.nodes.any (fun m => m.holds vf && m.record.cvec / 128 % 2 = 1 && decide (m.seq < q)) ||
  (vf % 16 = 0 && (match (s.part (vf / 16)).fw3Seq with | some k => decide (k < q) | none => false))

/-- The entry of a node is posted, behind those that wait before it; none while it must hold. -/
def postNode (s : State) (n : Node) : Option State :=
  match n.src with
  | .ring vf r slot =>
    if n.posted || n.record.cvec / 128 % 2 = 0 then some s
    else if heldBefore s vf n.seq then none
    else postEntry s vf (nodeEntry n r slot) (n.record.cvec % 16)
  | .launch _ _ _ _ _ => some s

/-- The node retires: its slot stops being live, its millpond entry frees, and admission resumes at its slot. -/
def retireNode (s : State) (n : Node) : State :=
  let s := { s with nodes := s.nodes.filter (fun m => m.key != n.key) }
  match n.src with | .ring vf r _ => admitSlots s vf r | _ => s

/-- Steps 4 and 5 of R128, or the hold of R58. -/
def finishNode (s : State) (key : Nat) : State :=
  match s.node? key with
  | none => s
  | some n => match postNode s n with | some s => retireNode s n | none => s

/-- A node enters steps 4 and 5. -/
def closeNode (s : State) (key : Nat) : State :=
  let q := s.nextKey
  finishNode ({ s with nextKey := q + 1 }.modNode key (fun n => { n with state := .done, edgesDone := true, released := true, seq := q })) key

/-- The bytes of fw3's entry for a fault on the supervisor core (R272). -/
def supervisorEntry (k : Packet) : List Byte :=
  natBytes 8 (2 ^ 64 - 1) ++ natBytes 8 0 ++ natBytes 2 k.core.toNat ++ natBytes 1 0 ++ natBytes 1 2 ++
  natBytes 4 (65536 * k.kind.toNat + k.sub.toNat) ++ natBytes 4 0 ++ natBytes 3 0

/-- fw3 posts the entry for a packet of the supervisor core, or takes its place behind those that wait (R58, R272). -/
def supervisorFault (s : State) (p : Nat) (k : Packet) : State :=
  let q := (s.part p).fw3Seq.getD s.nextKey
  match (if heldBefore s (16 * p) q then none else postEntry s (16 * p) (supervisorEntry k) 0) with
  | some s => s.modPart p (fun x => { x with faultFlight := x.faultFlight.erase k, fw3Seq := none })
  | none => { s with nextKey := s.nextKey + 1 }.modPart p (fun x => { x with fw3Seq := some q })

/-- fw3 tries again the entry that it holds. -/
def supervisorRetry (s : State) (vf : Nat) : State :=
  let q := s.part (vf / 16)
  if vf % 16 = 0 && q.fw3Seq.isSome then
    (match q.faultFlight.find? (fun k => k.core.toNat = q.supervisor) with | some k => supervisorFault s (vf / 16) k | none => s)
  else s

/-- Those that hold post in the order of their places. -/
def postHeld (s : State) (vf : Nat) : State :=
  supervisorRetry ((s.nodes.filter (fun n => n.holds vf)).foldl (fun s n => finishNode s n.key) s) vf

/-- Room in the ring or the backlog: entries that wait are written, nodes that hold post in their order, admission resumes. -/
def resumeVf (s : State) (vf : Nat) : State :=
  let s := drainEntries 256 s vf
  let s := (List.range ((s.nodes.filter (fun n => n.holds vf)).length + 1)).foldl (fun s _ => postHeld s vf) s
  (List.range 8).foldl (fun s r => admitSlots s vf r) s

/-- A node retires without having bound: granule 1 is read once for CVEC (R417). It has been at no level, and its retirement is no completion
at one (R138; DEDUCED, log 83). -/
def retireUnbound (s : State) (key status sub : Nat) : State :=
  match s.node? key with
  | none => s
  | some n =>
    let s := traceNode s n.part 5 n.record.nodeid
    let (cvec, s) := match n.src with
      | .ring vf r slot =>
        (match readGranule s (s.cmd vf r) slot 1 with
         | some g => (recField g 0x12 1, s)
         | none => (0, nodeNotice s n.part (flt 4 2 (granuleBus (s.cmd vf r) slot 1)) n.record.nodeid))
      | _ => (0, s)
    closeNode (s.modNode key (fun n => { n with status := status, sub := sub, energy := 0, record := { n.record with cvec := cvec, gen := 0 } })) key

def Node.unbound (n : Node) : Bool := n.state = .waiting || n.state = .blocked

/-! ### Registers of a virtual function (R42, R44, R48, R50) -/

/-- Size and enable after a write of a control register, and whether it is enabled now (R44). -/
def ctlWrite (enable : Bool) (log2 : BitVec 5) (v : Nat) : Bool × BitVec 5 :=
  let size := if enable then log2 else BitVec.ofNat 5 v
  (v.testBit 8 && (enable || decide (6 ≤ size.toNat ∧ size.toNat ≤ 16)), size)

/-- Nodes of a ring that have not bound are aborted (R50). -/
def abortRing (s : State) (vf r : Nat) : State :=
  (s.nodes.filter (fun n => n.unbound && (match n.src with | .ring v q _ => v = vf && q = r | _ => false))).foldl
    (fun s n => retireUnbound s n.key 2 0) s

/-- CRCTL. -/
def crctlWrite (s : State) (vf r v : Nat) : State :=
  let c := s.cmd vf r
  let (e, size) := ctlWrite c.enable c.log2 v
  let s := s.modCmd vf r (fun c => { c with enable := e, log2 := size })
  if e && !c.enable then
    s.modCmd vf r (fun c => { c with head := c.tail, overrun := false, creditLost := false, credits := [] })
  else if !e && c.enable then abortRing s vf r
  else s

/-- CRTAIL: the doorbell. -/
def crtailWrite (s : State) (vf r v : Nat) : State :=
  let c := s.cmd vf r
  let t : BitVec 32 := BitVec.ofNat 32 v
  let s := if c.slots < (t - c.head).toNat then s.modCmd vf r (fun c => { c with overrun := true })
    else s.modCmd vf r (fun c => { c with tail := t })
  admitSlots s vf r

/-- CPCTL. -/
def cpctlWrite (s : State) (vf v : Nat) : State :=
  let c := (s.vf vf).cp
  let (e, size) := ctlWrite c.enable c.log2 v
  let fresh := e && !c.enable
  let s := s.modVf vf (fun f => { f with cp := { f.cp with
    enable := e
    log2 := size
    tail := if fresh then 0 else f.cp.tail
    head := if fresh then 0 else f.cp.head } })
  resumeVf s vf

def cpheadWrite (s : State) (vf v : Nat) : State :=
  resumeVf (s.modVf vf (fun f => { f with cp := { f.cp with head := BitVec.ofNat 32 v } })) vf

def Vf.setRing (f : Vf) (t : Nat) (k : TokRing) : Vf := { f with tk := vset f.tk t k }

/-- TKCTL. Where the ring is enabled, tail and head start at 0 (R44), and SEQ runs on (DESIGN CHOICE, log 28). -/
def tkctlWrite (s : State) (vf t v : Nat) : State :=
  let k := (s.vf vf).ring t
  let (e, size) := ctlWrite k.enable k.log2 v
  let k' := { k with enable := e, log2 := size, vector := BitVec.ofNat 4 (v / 4096) }
  let k' := if e && !k.enable then { k' with tail := 0, head := 0 } else k'
  drainTokens 64 (s.modVf vf (fun f => f.setRing t k')) vf t

def tkheadWrite (s : State) (vf t v : Nat) : State :=
  drainTokens 64 (s.modVf vf (fun f => f.setRing t { f.ring t with head := BitVec.ofNat 32 v })) vf t

/-- ICCTL: both conditions are tested again. -/
def icctlWrite (s : State) (vf k v : Nat) : State :=
  s.modVf vf (fun f => f.setVector k (IrqVector.test { f.vector k with limit := BitVec.ofNat 32 v } s.clock))

def ringBase (v lo : Nat) : DWord := b64 (bits v lo (42 - lo) * 2 ^ lo)

/-- A write of a BAR0 register of a function whose partition is awake; other offsets are reserved or read only. -/
def vfRegWrite (s : State) (vf off : Nat) (w : DWord) : State :=
  let v := w.toNat
  if 0x100 ≤ off ∧ off < 0x200 then
    let r := (off - 0x100) / 32
    (match off % 32 with
     | 0 => s.modCmd vf r (fun c => if c.enable then c else { c with base := ringBase v 7 })
     | 8 => crctlWrite s vf r v
     | 16 => crtailWrite s vf r v
     | _ => s)
  else if off = 0x200 then s.modVf vf (fun f => if f.cp.enable then f else { f with cp := { f.cp with base := ringBase v 5 } })
  else if off = 0x208 then cpctlWrite s vf v
  else if off = 0x218 then cpheadWrite s vf v
  else if 0x300 ≤ off ∧ off < 0x380 then
    let t := (off - 0x300) / 32
    (match off % 32 with
     | 0 => s.modVf vf (fun f => if (f.ring t).enable then f else f.setRing t { f.ring t with base := ringBase v 4 })
     | 8 => tkctlWrite s vf t v
     | 24 => tkheadWrite s vf t v
     | _ => s)
  else if 0x400 ≤ off ∧ off < 0x500 ∧ off % 16 = 0 then icctlWrite s vf ((off - 0x400) / 16) v
  else s

/-- A write of a virtual function's BAR0: R45, and R98 to R103 for a partition that is not ACTIVE. -/
def vfWrite (s : State) (vf off : Nat) (v : DWord) : State :=
  let p := vf / 16
  if !(s.part p).present then s
  else match (s.part p).dmState with
    | .active => vfRegWrite s vf off v
    | .collapsing => vfRegWrite (wakeRequest s p) vf off v
    | .dormant | .waking => holdWriteFor s p (.vfReg vf off v)
    | .lost => s

/-! ### The MSI-X table in BAR2 (R42, R61) -/

/-- An 8-byte word of the table; what a mask held back goes out when it is taken away. -/
def msixWrite (s : State) (vf off : Nat) (v : DWord) : State :=
  if 0x100 ≤ off then s
  else s.modVf vf (fun f =>
    let x := f.vector (off / 16)
    let x := if off % 16 < 8 then { x with addr := v } else { x with data := v.setWidth 32, masked := v.getLsbD 32 }
    f.setVector (off / 16) (if x.pba && !x.masked then x.send else x))

/-! ### The events -/

/-- CRCTL is written with enable set and the size that `Input.amount` gives. -/
def execCmdRingEnable (s : State) : Result :=
  let i := s.input
  .next (vfWrite s i.vf (0x108 + 32 * i.ring) (b64 (256 + i.amount % 32)))

def execCmdRingDisable (s : State) : Result :=
  let i := s.input
  .next (vfWrite s i.vf (0x108 + 32 * i.ring) (b64 (s.cmd i.vf i.ring).log2.toNat))

def execCrtailDoorbell (s : State) : Result := .next (vfWrite s s.input.vf (0x110 + 32 * s.input.ring) s.input.value)

def execCompletionRingEnable (s : State) : Result := .next (vfWrite s s.input.vf 0x208 (b64 (256 + s.input.amount % 32)))

/-- TKCTL is written with enable set, the size `Input.amount` and the vector `Input.vector`. -/
def execTokenRingEnable (s : State) : Result :=
  let i := s.input
  .next (vfWrite s i.vf (0x308 + 32 * (i.ring % 4)) (b64 (4096 * i.vector + 256 + i.amount % 32)))

def execCpheadWrite (s : State) : Result := .next (vfWrite s s.input.vf 0x218 s.input.value)
def execTkheadWrite (s : State) : Result := .next (vfWrite s s.input.vf (0x318 + 32 * (s.input.ring % 4)) s.input.value)
def execIcctlWrite (s : State) : Result := .next (vfWrite s s.input.vf (0x400 + 16 * s.input.vector) s.input.value)

/-- The time condition of a vector is met (R61), in a dormant partition too. -/
def execCoalesceTimerExpiry (s : State) : Result :=
  .next (s.modVf s.input.vf (fun f => f.setVector s.input.vector ((f.vector s.input.vector).test s.clock)))

/-- The mask bit of a vector is cleared; a function whose partition does not exist ignores the write (R45). -/
def execMsixUnmask (s : State) : Result :=
  if !(s.part (s.input.vf / 16)).present then .next s
  else .next (s.modVf s.input.vf (fun f =>
    let x := { f.vector s.input.vector with masked := false }
    f.setVector s.input.vector (if x.pba then x.send else x)))

/-- Fault packets in order: the queue on DX first, then fw3's, then those in flight. -/
def execFaultPacketDeliver (s : State) : Result :=
  let p := s.input.part
  let q := s.part p
  let mine := fun (k : Packet) => k.core.toNat = q.supervisor
  match q.faultQ, reportOpen s p 14 with
  | k :: r, true => .next (deliverReport (s.modPart p (fun q => { q with faultQ := r })) p 14 k)
  | _, _ =>
    match q.faultFlight.find? (fun k => mine k && q.fw3Seq.isNone) with
    | some k => .next (supervisorFault s p k)
    | none =>
      match q.faultFlight.find? (fun k => !mine k) with
      | some k => .next (forwardFault s p k)
      | none => .next s

/-- A function-level reset of a virtual function (R46): its unbound nodes retire in silence, and the entries of the others
are dropped. R46 names the function's rings and registers; that its MSI-X table, its masks and its pending bits are reset with them is the
model's choice (DESIGN CHOICE, log 27). The backlog is empty then, so that an entry which fw3 holds enters it (R58). -/
def execFlrVf (s : State) : Result :=
  let vf := s.input.vf
  let mine : Node → Bool := fun n => match n.src with | .ring v _ _ => v = vf | _ => false
  let s := { s with vfs := tdel s.vfs vf, nodes := s.nodes.map (fun n => if mine n then { n with posted := true } else n) }
  .next (supervisorRetry ((s.nodes.filter (fun n => mine n && (n.unbound || n.holds vf))).foldl (fun s n => retireNode s n) s) vf)

end Sys2Proof.Machine
end

