-- ==== Sys2Proof/Machine/Bind.lean ====
section
/-! DEFINITION. Edge queues, the millpond's entries, the checks of a record and of its descriptor, placement, and NODE_BIND
(spec/07_scheduler.md R129 to R136, R140 to R142, R153, R415, R417; spec/03_host.md R52, R53; spec/13_faults.md R285). -/
namespace Sys2Proof.Machine

/-! ### Edge queues (R129, R131) -/

/-- Word `i` of edge entry `e`: 0 DEPTH, 1 PBIND, 2 PDONE, 3 CBIND, 4 CDONE. -/
def edgePlace (p e i : Nat) : Place := .sched p (64 * e + 8 * i)
def edgeWord (s : State) (p e i : Nat) : Nat := counterValue s (edgePlace p e i)
def edgeBump (s : State) (p e i : Nat) : State := counterAdd s (edgePlace p e i) 1

def NodeRec.inputs (r : NodeRec) : List Nat := (r.edgeq.take 2).filter (· != 0xffff)
def NodeRec.outputs (r : NodeRec) : List Nat := (r.edgeq.drop 2).filter (· != 0xffff)

/-- An id that names no configured queue. -/
def edgeBad (s : State) (p e : Nat) : Bool :=
  decide (1024 ≤ e) || edgeWord s p e 0 = 0 || 512 ≤ edgeWord s p e 0

def edgesRefused (s : State) (p : Nat) (r : NodeRec) : Bool := (r.inputs ++ r.outputs).any (edgeBad s p)

/-- The test of R131. -/
def edgesPass (s : State) (p : Nat) (r : NodeRec) : Bool :=
  r.outputs.all (fun e => edgeWord s p e 1 + r.outputs.count e ≤ edgeWord s p e 0 + edgeWord s p e 4) &&
  r.inputs.all (fun e => edgeWord s p e 3 + r.inputs.count e ≤ edgeWord s p e 2)

def edgesBind (s : State) (p : Nat) (r : NodeRec) : State :=
  r.inputs.foldl (fun s e => edgeBump s p e 3) (r.outputs.foldl (fun s e => edgeBump s p e 1) s)

def edgesDone (s : State) (p : Nat) (r : NodeRec) : State :=
  r.inputs.foldl (fun s e => edgeBump s p e 4) (r.outputs.foldl (fun s e => edgeBump s p e 2) s)

/-! ### Millpond entries (R132) -/

def millpondSize : Nat := 4096
def entriesHeld (s : State) : Nat := (s.nodes.filter (fun n => n.entry.isSome)).length
def entriesOf (s : State) (p : Nat) : Nat := (s.nodes.filter (fun n => n.entry.isSome && n.part = p)).length
def presentParts (s : State) : List Nat := (List.range 64).filter (fun p => (s.part p).present)

/-- A bind of partition `p` leaves every other one 16 entries, held or free. -/
def entryAllowed (s : State) (p : Nat) : Bool :=
  decide (entriesHeld s + 1 + (((presentParts s).filter (· != p)).map (fun q => 16 - entriesOf s q)).sum ≤ millpondSize)

/-- The entry that a bind takes, of which R132 says nothing: the lowest free one (DESIGN CHOICE, log 74). -/
def freeEntry (s : State) : Option Nat :=
  (List.range millpondSize).find? (fun e => s.nodes.all (fun n => n.entry != some e))

/-- The node may bind now, or its queues refuse it. -/
def bindable (s : State) (n : Node) : Bool :=
  n.state = .blocked && s.partAwake n.part && (edgesRefused s n.part n.record || (edgesPass s n.part n.record && entryAllowed s n.part))

/-- The order of the BLOCKED nodes of a partition (R132, R154). -/
def bindBefore (s : State) (a b : Node) : Bool :=
  if (s.part a.part).det then decide (a.record.nodeid.toNat < b.record.nodeid.toNat) || (a.record.nodeid = b.record.nodeid && decide (a.seq < b.seq))
  else decide (a.seq < b.seq)

/-- Round-robin distance of a partition after `last`. -/
def turnsAfter (last p : Nat) : Nat := (p + 63 - last % 64) % 64

/-- Entries do not reach for one more bind of each waiting partition beside what is guaranteed to every partition. -/
def entriesShort (s : State) (waiting : Nat → Bool) : Bool :=
  let need := fun p => if waiting p then 1 + (15 - entriesOf s p) else 16 - entriesOf s p
  decide (millpondSize < entriesHeld s + ((presentParts s).map need).sum)

/-- No node precedes `n` at the millpond: neither of its partition, nor, when entries are short, of another; a partition below
its 16 guaranteed entries waits for no other. -/
def bindTurn (s : State) (n : Node) : Bool :=
  let others := s.nodes.filter (fun m => bindable s m)
  others.all (fun m => !(m.part = n.part && bindBefore s m n)) &&
  (!entriesShort s (fun p => others.any (fun m => m.part = p)) || decide (entriesOf s n.part < 16) ||
    others.all (fun m => decide (entriesOf s m.part < 16) || turnsAfter s.lastTaken n.part ≤ turnsAfter s.lastTaken m.part))

/-! ### Checks of records (R51, R52, R146) -/

/-- The first offending field of a list in ascending offset. -/
def firstBad (l : List (Nat × Bool)) : Option Nat := (l.find? (·.2)).map (·.1)

def shapeRows (sh : Nat) : Nat := bits sh 0 8
def shapeCols (sh : Nat) : Nat := bits sh 8 8
def shapeDies (sh : Nat) : Nat := bits sh 20 4
def shapeMask (sh : Nat) : Nat := bits sh 24 4

/-- SHAPE is out of range, or set on a node that is no gang. -/
def shapeBad (kind sh : Nat) : Bool :=
  if kind != 0 then sh != 0
  else bits sh 28 36 != 0 || bits sh 16 4 != 0 || shapeDies sh = 0 || 4 < shapeDies sh ||
    shapeCols sh = 0 || 32 < shapeCols sh || shapeRows sh = 0 || 24 < shapeRows sh

def oneCore (sh : Nat) : Bool := shapeRows sh = 1 && shapeCols sh = 1 && shapeDies sh = 1

def anySet (bs : List Byte) : Bool := bs.any (· != 0)
def rangeSet (bs : List Byte) (off n : Nat) : Bool := anySet ((bs.drop off).take n)

/-- The record of a ring with `slots` slots, of partition `p`: its 128 bytes. -/
def recordBad (bs : List Byte) (p slots : Nat) : Option Nat :=
  let f := fun off n => recField bs off n
  let kind := f 8 1
  let sh := f 0x30 8
  let ns := f 0x0e 1
  let succ := fun i => f (0x10 + 2 * i) 2
  firstBad [
    (0x08, 5 < kind), (0x09, 7 < f 9 1), (0x0a, f 0x0a 1 != p),
    (0x0b, 7 < f 0x0b 1 || (f 0x0b 1 / 4 % 2 = 1 && !(kind = 0 && oneCore sh))),
    (0x0e, 6 < ns), (0x0f, f 0x0f 1 != 0),
    (0x10, (List.range 6).any (fun i => if i < ns then slots ≤ succ i else succ i != 0)),
    (0x1c, 4096 < f 0x1c 2), (0x1e, f 0x1e 2 != 0),
    (0x20, 2 ^ 56 ≤ f 0x20 8 || f 0x20 8 % 2 = 1 || (f 0x1c 2 = 0 && f 0x20 8 != 0)),
    (0x30, shapeBad kind sh), (0x38, f 0x3e 2 != 0),
    (0x40, 2 ^ 56 ≤ f 0x40 8 || (kind = 0 && f 0x40 8 % 64 != 0) || (kind = 5 && f 0x40 8 != 0)),
    (0x48, 2 ^ 56 ≤ f 0x48 8 || f 0x48 8 % 64 != 0), (0x50, 64 < f 0x50 2),
    (0x52, f 0x52 1 / 16 % 8 != 0), (0x53, rangeSet bs 0x53 37)]

/-- A launch record. -/
def launchBad (bs : List Byte) : Option Nat :=
  let f := fun off n => recField bs off n
  let kind := f 0 1
  firstBad [
    (0x00, 2 < kind), (0x01, 7 < f 1 1), (0x02, 3 < f 2 1), (0x03, 64 < f 3 1), (0x04, f 4 4 != 0),
    (0x08, shapeBad kind (f 8 8)), (0x10, 2 ^ 56 ≤ f 0x10 8 || (kind = 0 && f 0x10 8 % 64 != 0)),
    (0x18, 2 ^ 56 ≤ f 0x18 8 || f 0x18 8 % 64 != 0), (0x20, f 0x27 1 != 0), (0x28, f 0x2f 1 != 0),
    (0x30, f 0x36 2 != 0), (0x38, f 0x38 8 != 0)]

/-- A launched node's record, from its launch record. -/
def launchRecord (bs : List Byte) (nodeid : DWord) (p : Nat) : NodeRec :=
  let f := fun off n => recField bs off n
  { NodeRec.empty with
    nodeid := nodeid
    kind := f 0 1
    prio := f 1 1
    part := p
    flags := f 2 1
    shape := f 8 8
    image := f 0x10 8
    arg := f 0x18 8
    arglen := f 3 1
    eest := f 0x30 6 }

/-! ### Descriptors and headers (R133 to R136, R285, R390) -/

def headerMagic : Nat := 0x4c534749
def resumeMagic : Nat := 0x4c535253

def gangHeaderBad (h : List Byte) : Option Nat :=
  let f := fun i => recField h (4 * i) 4
  firstBad [
    (0, f 0 != headerMagic), (4, f 1 < 2 || 65536 < f 1 || f 1 % 2 = 1), (8, f 2 % 2 = 1 || f 1 ≤ f 2),
    (0x0c, f 3 % 64 != 0 || 393216 < f 3 + f 4), (0x10, f 4 % 64 != 0 || f 4 < 4096), (0x14, 1 < f 5), (0x18, rangeSet h 0x18 40)]

/-- Cores of a gang of this shape. -/
def shapeCores (sh : Nat) : Nat := shapeRows sh * shapeCols sh * shapeDies sh

/-- A resume set: its bytes up to the last address. -/
def resumeBad (h : List Byte) (sh : Nat) : Option Nat :=
  firstBad [
    (0, recField h 0 4 != resumeMagic), (4, recField h 4 4 != shapeCores sh), (8, rangeSet h 8 56),
    (0x40, (List.range (shapeCores sh)).any (fun i => let a := recField h (0x40 + 8 * i) 8; a % 4096 != 0 || 2 ^ 56 ≤ a))]

def condBad (h : List Byte) : Option Nat :=
  let f := fun off n => recField h off n
  firstBad [
    (0, f 0 8 % 8 != 0 || 2 ^ 56 ≤ f 0 8), (0x10, 3 < f 0x10 1), (0x11, f 0x11 1 != 0), (0x12, 4096 < f 0x12 2),
    (0x14, f 0x14 4 != 0), (0x18, f 0x18 8 % 2 = 1 || 2 ^ 56 ≤ f 0x18 8), (0x20, rangeSet h 0x20 32)]

/-- Formats by operation: reduce takes FP32 or BF16 into FP32, the others any code of R229 (log 50). -/
def baseDieBad (h : List Byte) : Option Nat :=
  let f := fun off n => recField h off n
  let op := f 0 1
  firstBad [
    (0, 2 < op), (1, 3 < f 1 1), (2, if op = 1 then !(f 2 1 = 0 || f 2 1 = 2) else 15 < f 2 1),
    (3, if op = 1 then f 3 1 != 0 else 15 < f 3 1), (8, f 0x0f 1 != 0), (0x10, f 0x17 1 != 0),
    (0x18, f 0x1f 1 != 0 || (op = 2 && f 0x18 8 != 0)), (0x20, if op = 0 then f 0x20 4 % 256 != 0 else f 0x20 4 != 0),
    (0x24, rangeSet h 0x24 28)]

/-- Words of the shape record in a copy descriptor. -/
def descShape (h : List Byte) : List DWord := (List.range 4).map (fun i => b64 (recField h (0x20 + 8 * i) 8))

/-- The field that R387's check names, as an offset in the descriptor. -/
def recReservedAt (op : Nat) (r : List DWord) : Nat :=
  if bits (r.getD 1 0).toNat 40 24 != 0 then 0x28 else if bits (r.getD 2 0).toNat 40 24 != 0 then 0x30
  else if recReserved op r then 0x38 else 0x20

def recMisalignedAt (op dst src : Nat) (r : List DWord) : Nat :=
  let z := recSize r
  if dst % z != 0 then 8 else if src % z != 0 then 0x10 else if recRowLen r % z != 0 then 0x24
  else if recSStride r % z != 0 then 0x28 else if recDStride r % z != 0 then 0x30 else if 2 ≤ op then 0x38 else 0x30

/-- The two stages of R390. -/
def copyDescBad (h : List Byte) : Option Nat :=
  let f := fun off n => recField h off n
  let op := f 0 1
  let r := descShape h
  let dst := f 8 7
  let src := f 0x10 7
  firstBad [
    (0, 3 < op), (1, rangeSet h 1 7), (8, f 0x0f 1 != 0 || dst < 0x1000000), (0x10, f 0x17 1 != 0 || src < 0x1000000),
    (0x18, op != 0 && f 0x18 8 != 0), (0x20, op = 0 && rangeSet h 0x20 32), (0x38, 2 ≤ op && recIdx r < 0x1000000),
    (0x18, op = 0 && 2 ^ 32 ≤ f 0x18 8), (recReservedAt op r, op != 0 && recReserved op r),
    (if 16777216 < recRows r then 0x20 else 0x24, op != 0 && (16777216 < recRows r || 16777216 < recRowLen r)),
    (recMisalignedAt op dst src r, op != 0 && recMisaligned op dst src r),
    (0x30, op != 0 && 1 < recRows r && recDStride r < recRowLen r)]

/-- What the kind's descriptor gives: its bytes, a refused field, or a failed read. -/
inductive DescRead where | bytes (b : List Byte) | refused (off : Nat) | failed (f : Flt)
  deriving DecidableEq, Repr

def descResult (b : List Byte) (bad : Option Nat) : DescRead := match bad with | some o => .refused o | none => .bytes b

/-- A gang image's header, or a resume set. -/
def readImageHead (s : State) (p image sh : Nat) : DescRead :=
  match vread s p image 64 with
  | .error f => .failed f
  | .ok h =>
    if recField h 0 4 != resumeMagic then descResult h (gangHeaderBad h)
    else if recField h 4 4 != shapeCores sh then .refused 4
    else match vread s p image (64 + 8 * shapeCores sh) with
      | .error f => .failed f
      | .ok b => descResult b (resumeBad b sh)

def readDescriptor (s : State) (p : Nat) (r : NodeRec) : DescRead :=
  let one := fun (bad : List Byte → Option Nat) =>
    match vread s p r.image 64 with | .error f => DescRead.failed f | .ok h => descResult h (bad h)
  match r.kind with
  | 0 => readImageHead s p r.image r.shape
  | 1 => one copyDescBad
  | 2 => one baseDieBad
  | 3 => one condBad
  | _ => .bytes []

/-! ### Placement (R140 to R142, R153) -/

def NodeRec.isSuper (r : NodeRec) : Bool := r.kind = 0 && r.flags / 4 % 2 = 1
def Node.pinned (s : State) (n : Node) : Bool := n.record.kind = 0 && (n.record.flags / 2 % 2 = 1 || (s.part n.part).det)

/-- Cores of the rectangle at an origin, in row-major order. -/
def rectCores (d rows cols row0 col0 : Nat) : List Nat :=
  (List.range rows).flatMap (fun r => (List.range cols).map (fun c => coreOf d (row0 + r) (col0 + c)))

/-- The first origin on a die at which every core of the rectangle is good. -/
def firstFit (good : Nat → Bool) (d rows cols : Nat) : Option (List Nat) :=
  ((List.range (25 - rows)).flatMap (fun r => (List.range (33 - cols)).map (fun c => (r, c)))).findSome? (fun o =>
    let l := rectCores d rows cols o.1 o.2
    if l.all good then some l else none)

/-- The fits on the allowed dies, in die order, for a chosen set of good cores. -/
def dieFits (good : Nat → Bool) (sh : Nat) : List (List Nat) :=
  (List.range 4).filterMap (fun d => if (shapeMask sh).testBit d then firstFit good d (shapeRows sh) (shapeCols sh) else none)

/-- A placement: the cores in rank order (R142). -/
def placeOn (good : Nat → Bool) (sh : Nat) : Option (List Nat) :=
  let l := dieFits good sh
  if l.length < shapeDies sh then none else some (l.take (shapeDies sh)).flatten

/-- A core of the partition that a gang node may ever have. -/
def ordinaryCore (s : State) (p i : Nat) : Bool := (s.part p).holdsCore i && i != (s.part p).supervisor

def coreFree (s : State) (i : Nat) : Bool := (s.core i).node.isNone
def withdrawn (s : State) (i : Nat) : Bool := (s.core i).withdrawn

/-- The placement of a pinned node: that of its first dispatch, or before it, as if every core were free and none withdrawn. A
re-armed slot whose record has another SHAPE by then keeps the cores of the first (DESIGN CHOICE, log 82: R153 does not say). -/
def pinnedCores (s : State) (n : Node) : Option (List Nat) :=
  n.pin.or <| placeOn (fun i => ordinaryCore s n.part i && !s.dieExcluded (dieOf i)) n.record.shape

/-- A running supervisor node of the partition. -/
def superRunning (s : State) (p : Nat) : Bool := s.nodes.any (fun n => n.part = p && n.state = .running && n.record.isSuper)

/-- Where a gang node goes when the cores that `free` picks are free. A suspended node that owned cluster objects goes only
where all their numbers are free in every cluster that it covers (R174): R140's scan passes over the other origins. -/
def placeWith (s : State) (n : Node) (free : Nat → Bool) : Option (List Nat) :=
  let good := fun i => free i && !withdrawn s i && !s.dieExcluded (dieOf i) && objectsFree s i n.images
  if n.record.isSuper then
    (if good (s.part n.part).supervisor && !superRunning s n.part then some [(s.part n.part).supervisor] else none)
  else if Node.pinned s n then
    (match pinnedCores s n with | some l => if l.all good then some l else none | none => none)
  else placeOn (fun i => ordinaryCore s n.part i && good i) n.record.shape

def placeNow (s : State) (n : Node) : Option (List Nat) := placeWith s n (coreFree s)

/-- Since when each READY gang of a partition has been unplaceable (R150). -/
def restick (s : State) (p : Nat) : State :=
  { s with nodes := s.nodes.map (fun n =>
      if n.part = p && n.state = .ready && n.record.kind = 0 then
        { n with stuck := if (placeNow s n).isSome then none else n.stuck.or (some s.clock) }
      else n) }

/-- The status of a gang node that no placement can ever serve: 4 NOFIT, 3 DIE_ABSENT (R140, R56). R140 tests for a fit "on any of its allowed
dies"; that a gang of k dies with a fit on some, but on fewer than k of them, ends too, is the model's choice: it could never be placed
(DESIGN CHOICE, log 71). -/
def unplaceable (s : State) (n : Node) : Option Nat :=
  if n.record.kind != 0 then none
  else if n.record.isSuper then
    let i := (s.part n.part).supervisor
    if withdrawn s i then some 4 else if s.dieExcluded (dieOf i) then some 3 else none
  else
    let good := fun i => ordinaryCore s n.part i && !withdrawn s i
    if (placeOn (fun i => good i && !s.dieExcluded (dieOf i)) n.record.shape).isSome then none
    else if (placeOn good n.record.shape).isSome then some 3 else some 4

/-! ### Ends of a node before it runs -/

/-- An event at which selection runs (R138): a run of it is owed. -/
def State.oweSelect (s : State) : State := { s with selects := s.selects + 1 }

/-- The node is DONE, and completes by NODE_COMPLETE; `release` decrements its successors. -/
def endNode (s : State) (key status sub : Nat) (release : Bool) : State :=
  s.modNode key (fun n => { n with state := .done, status := status, sub := sub, released := !release })

/-- BADREC with no successor released (R52, R132, R415). -/
def refuseNode (s : State) (key sub : Nat) : State := endNode s key 1 sub false

/-- A read that the front end made for the node failed (R415). -/
def readFailed (s : State) (n : Node) (sub : Nat) (f : Flt) : State := refuseNode (nodeNotice s n.part f n.record.nodeid) n.key sub

/-! ### Deficits (R138) -/

def weightOf (q : Partition) : Int := max 1 (q.quota.toNat : Int)
def costOf (n : Node) : Nat := if n.record.kind = 0 then shapeCores n.record.shape else 1

def Node.waits (n : Node) : Bool := n.state = .ready || n.state = .suspended

/-- The order of a level's nodes (R138, R154). -/
def ageBefore (s : State) (a b : Node) : Bool := bindBefore s a b

def insertNode (before : Node → Node → Bool) (n : Node) : List Node → List Node
  | [] => [n]
  | m :: r => if before n m then n :: m :: r else m :: insertNode before n r

/-- The READY and SUSPENDED nodes of a partition at a level, oldest first. -/
def levelNodes (s : State) (p level : Nat) : List Node :=
  (s.nodes.filter (fun n => n.part = p && n.level = level && n.waits)).foldl (fun l n => insertNode (ageBefore s) n l) []

/-- One growth of a deficit; a level without nodes has 0. -/
def growDeficit (s : State) (p level : Nat) : State :=
  s.modPart p (fun q => { q with deficit := vmod q.deficit level 0 (fun d =>
    match levelNodes s p level with
    | [] => 0
    | n :: _ => min (d + weightOf q) (max (4 * weightOf q) (costOf n))) })

def emptyLevel (s : State) (p level : Nat) : State := s.modPart p (fun q => { q with deficit := vset q.deficit level 0 })

/-- A node appears at a level. Where the partition had none there, its deficit was 0, and in a deterministic one it grows now. -/
def appear (s : State) (p level : Nat) : State :=
  if (levelNodes s p level).length != 1 then s
  else if (s.part p).det then growDeficit (emptyLevel s p level) p level else emptyLevel s p level

/-! ### NODE_BIND -/

/-- Notices and refusals of a record. -/
def recordRefused (s : State) (n : Node) (off : Nat) : State :=
  match n.src with
  | .ring _ _ _ => refuseNode s n.key off
  | .launch core ctx _ _ _ =>
    refuseNode (sendNotice s n.part (mkPacket s 1 core ctx 4 (flt 14 3) 0 0 n.record.nodeid)) n.key off

/-- The node is READY, or it can never be placed. -/
def readyNode (s : State) (key : Nat) : State :=
  let q := s.nextKey
  let s := { s with nextKey := q + 1 }.modNode key (fun n =>
    { n with state := .ready, level := n.record.prio, levelSince := s.clock, seq := q })
  match s.node? key with
  | none => s
  | some n =>
    let s := traceNode s n.part 3 n.record.nodeid
    match unplaceable s n with
    | some st => (endNode s key st 0 true).oweSelect
    | none => restick (appear s n.part n.level) n.part

/-- Arguments, then the descriptor. -/
def bindRest (s : State) (n : Node) : State :=
  match vread s n.part n.record.arg (64 * n.record.arglen) with
  | .error f => readFailed s n 0x48 f
  | .ok args =>
    match readDescriptor s n.part n.record with
    | .failed f => readFailed s n 0x40 f
    | .refused o => refuseNode s n.key (0x1000 + o)
    | .bytes d => readyNode (s.modNode n.key (fun n => { n with args := args, desc := d })) n.key

/-- The node takes an entry, its queues count it, and its record is read, which gives its level, also where it is refused (R138); the ids
that were tested stay its own (R131). -/
def bindNode (s : State) (n : Node) : State :=
  let s := edgesBind { s with lastTaken := n.part } n.part n.record
  let (r, bad) := match n.src with
    | .ring vf q slot =>
      let c := s.cmd vf q
      let g0 := granule s c slot 0
      let g1 := granule s c slot 1
      (parseRecord g0 g1, recordBad (g0 ++ g1) n.part c.slots)
    | .launch _ _ _ _ _ => (launchRecord n.desc n.record.nodeid n.part, launchBad n.desc)
  let n := { n with record := { r with edgeq := n.record.edgeq }, level := r.prio, entry := freeEntry s, edgePassed := true }
  let s := s.modNode n.key (fun _ => n)
  match bad with
  | some off => recordRefused s n off
  | none => bindRest s n

/-- NODE_BIND of node `Input.node`: refused by its queues (R131, R417), or bound. -/
def execNodeBind (s : State) : Result :=
  match s.node? s.input.node with
  | none => .next s
  | some n =>
    if !bindable s n || !bindTurn s n then .next s
    else if edgesRefused s n.part n.record then .next (retireUnbound s n.key 1 0x28)
    else .next (bindNode s n)

end Sys2Proof.Machine
end

