-- ==== Sys2Proof/Machine/Gang.lean ====
section
/-! DEFINITION. Launching, restoring and freeing the cores of a gang (spec/07_scheduler.md R142 to R145, R152;
spec/08_execution.md R175; spec/13_faults.md R284, R285, R287). -/
namespace Sys2Proof.Machine

/-! ### The release of a core (R142 to R144, R175) -/

/-- GANGDIM of a core of die part `part`. -/
def gangDim (sh part : Nat) : Nat := part * 2 ^ 20 + shapeDies sh * 2 ^ 16 + shapeCols sh * 256 + shapeRows sh

/-- CLUMEM: the cores of the gang in the core's cluster. -/
def clumem (cores : List Nat) (core : Nat) : Nat :=
  ((List.range 16).map (fun c => if cores.contains (coreAt core c) then 2 ^ c else 0)).sum

/-- DMR as the launch derives it. -/
def dmrOf (sh part core : Nat) (cores : List Nat) : Nat :=
  clumem cores core * 2 ^ 32 + part * 2 ^ 28 + shapeDies sh * 2 ^ 24 + clusterOf core * 2 ^ 18 + cicOf core * 2 ^ 14

/-- Place of a core in a gang: its rank, GANGDIM, DMR, and the core-in-cluster of its leader (R165). -/
structure Seat where
  rank : Nat
  dim : Nat
  dmr : Nat
  leader : Nat
  deriving DecidableEq, Repr

def seatOf (sh : Nat) (cores : List Nat) (rank core : Nat) : Seat :=
  let part := rank / (shapeRows sh * shapeCols sh)
  { rank := rank
    dim := gangDim sh part
    dmr := dmrOf sh part core cores
    leader := ((List.range 16).find? (fun c => cores.contains (coreAt core c))).getD (cicOf core) }

/-- A core at its release (R144): IM, LM, waiting messages and debug registers stay, the rest starts anew. -/
def Core.release (c : Core) (key part : Nat) (nodeid : DWord) (t : Seat) : Core :=
  { Core.reset with
    im := c.im
    lm := c.lm
    inbox := c.inbox
    dwsel := c.dwsel
    ibp := c.ibp
    wpb := c.wpb
    wpc := c.wpc
    withdrawn := c.withdrawn
    lasting := c.lasting
    rank := BitVec.ofNat 12 t.rank
    gangdim := b64 t.dim
    dmr := b64 t.dmr
    rngv := BitVec.ofNat 32 (t.rank + 1)
    rngm := BitVec.ofNat 32 (0x10000 + t.rank + 1)
    fleader := BitVec.ofNat 4 t.leader
    node := some key
    nodeid := nodeid
    part := some part }

/-- The cores of a node with their ranks. -/
def ranked (cores : List Nat) : List (Nat × Nat) := (List.range cores.length).zip cores

/-- Every core of the gang is reserved for the node and set to its state at release. -/
def seatGang (s : State) (n : Node) (cores : List Nat) : State :=
  (ranked cores).foldl (fun s x => s.modCore x.2 (fun c =>
    c.release n.key n.part n.record.nodeid (seatOf n.record.shape cores x.1 x.2))) s

/-- Steps 1 to 3 and 5 of R143 on one core: code, arguments, data, then c0 at ENTRY. -/
def loadCore (c : Core) (im args lm : List Byte) (lmoff entry : Nat) : Core :=
  { c with
    im := Memory.writes c.im 0 im
    lm := Memory.writes (Memory.writes c.lm 0 args) lmoff lm }.modContext 0 (fun x => { x with pc := b64 entry, status := .live })

/-- The node's saved images are discarded, and their area is free. -/
def Node.unsaved (n : Node) : Node := { n with images := [], steps := [], area := none }

/-- The node runs on its cores. -/
def runNode (s : State) (key : Nat) (cores : List Nat) : State :=
  s.modNode key (fun n => { n with
    state := .running
    cores := cores
    dispatchedAt := s.clock
    images := []
    steps := []
    area := none
    begun := []
    acked := [] })

/-! ### The three ways a gang starts (R143, R152, R285) -/

/-- From a gang image. A launch that stops at a failed read has written nothing yet: the image is read whole first (R415 leaves open what has been
written by then; DESIGN CHOICE, log 78). -/
def launchImage (s : State) (n : Node) (cores : List Nat) : State :=
  let f := fun i => recField n.desc (4 * i) 4
  match vread s n.part (n.record.image + 64) (f 1) with
  | .error e => readFailed s n 0x40 e
  | .ok im =>
    match vread s n.part (n.record.image + 64 + f 1) (f 3) with
    | .error e => readFailed s n 0x40 e
    | .ok lm =>
      let s := seatGang s n cores
      runNode (cores.foldl (fun s i => s.modCore i (fun c => loadCore c im n.args lm (f 4) (f 2))) s) n.key cores

/-- From images held for it: every core its own, by rank. -/
def restoreGang (s : State) (n : Node) (cores : List Nat) (imgs : List CoreImage) (steps : List StepSave) : State :=
  let s := runNode (seatGang s n cores) n.key cores
  let s := (cores.zip imgs).foldl (fun s x => restoreImage s n.key cores x.1 x.2) s
  let s := steps.foldl (restoreStep cores) s
  cores.foldl refill s

/-- The images that a resume set names, in rank order, or how the node ends instead. -/
def readImages (s : State) (n : Node) : List Nat → Except (Nat × Flt) (List CoreImage)
  | [] => .ok []
  | i :: r =>
    match vread s n.part (recField n.desc (0x40 + 8 * i) 8) imageLength with
    | .error f => .error (i, f)
    | .ok bs =>
      let sh := n.record.shape
      if imageRefused bs n.part i (shapeRows sh) (shapeCols sh) (shapeDies sh) then .error (i, flt 14 20)
      else match readImages s n r with
        | .error e => .error e
        | .ok l => .ok (decodeImage s bs :: l)

/-- From a resume set. -/
def launchResume (s : State) (n : Node) (cores : List Nat) : State :=
  match readImages s n (List.range cores.length) with
  | .error (i, f) => readFailed s n (0x20000 + i) f
  | .ok imgs => restoreGang s n cores imgs []

/-- A gang node is dispatched to its cores. -/
def launchGang (s : State) (n : Node) (cores : List Nat) : State :=
  if n.state = .suspended then restoreGang s n cores n.images n.steps
  else if recField n.desc 0 4 = resumeMagic then launchResume s n cores
  else launchImage s n cores

/-! ### Freeing cores (R145, R156, R170, R287) -/

/-- A core that no node holds any longer; a lasting one is withdrawn. c0 stays DONE until its next release (R156), and
helpers are discarded (R158). -/
def Core.freed (c : Core) : Core :=
  { c with
    node := none
    nodeid := 0
    part := none
    fstate := 0
    fmask := 0
    fbuf := []
    fwait := none
    stopping := false
    saved := false
    withdrawn := c.withdrawn || c.lasting
    ctx := (Vector.range 11).map (fun k =>
      let x := c.context k
      { x with
        status := if k = 0 && x.status = .done then .done else .free
        sleep := .awake
        cwait := none
        stopped := false }) }

/-- A node waits that can never be placed any more: it completes, and its saved images are discarded. -/
def retestNode (s : State) (n : Node) : State :=
  match unplaceable s n with
  | some st => (endNode (s.modNode n.key Node.unsaved) n.key st 0 true).oweSelect
  | none => s

def retestPlaces (s : State) (p : Nat) : State :=
  (s.nodes.filter (fun n => n.part = p && n.waits)).foldl retestNode s

/-- The node leaves its cores: what they have stored for it until now may still be on its way (R131, R147, R215). -/
def leftCores (s : State) (n : Node) : State :=
  { s with nextKey := s.nextKey + 1 }.modNode n.key (fun m => { m with ranOn := m.ranOn ++ n.cores.map (fun i => (i, s.nextKey)) })

/-- The cores of a gang are free, with its cluster objects; where one is withdrawn, placements are tested again. -/
def freeCores (s : State) (key part : Nat) (cores : List Nat) : State :=
  let gone := cores.any (fun i => (s.core i).lasting && !(s.core i).withdrawn)
  let s := freeObjects (dropSteps s cores) key
  let s := cores.foldl (fun s i => s.modCore i Core.freed) s
  restick (if gone then retestPlaces s part else s) part

/-! ### Clearing cores that are stopped without an image (R41) -/

/-- A core's engines, tags, crossbar and waiting accesses are discarded. -/
def Core.cleared (c : Core) : Core :=
  { c with
    vecQ := []
    matQ := []
    copyQ := []
    recQ := []
    recHeld := 0
    ni := []
    accs := []
    tagBusy := 0
    arm := Vector.replicate 4 ArmSlot.empty
    counters := Vector.replicate 8 { config := 0, count := 0 }
    terms := Vector.replicate 16 0
    rngWrites := []
    issue := .running
    engStopped := false
    stepDone := false
    stepEntry := none
    packet := none
    ctx := c.ctx.map (fun x => { x with ctPending := 0 }) }

/-- The accesses that the core has issued are performed, in an order that their rules allow. -/
def drainCore : Nat → State → Nat → State
  | 0, s, _ => s
  | n + 1, s, core =>
    match (s.core core).accs.find? (mayPerform s core) with
    | some e => drainCore n (performAccess s core e) core
    | none => s

/-- Accesses already issued and network-interface threads run to their end first; pending contest entries are cancelled, then
the core is cleared. Of its collectives, those that are committed reach their members still (R32). -/
def clearCore (s : State) (core : Nat) : State :=
  let s := drainCore (2 * (s.core core).accs.length) s core
  let s := (s.core core).ni.foldl (fun s t => niUnits 200 s core t.id) s
  let s := (List.range 11).foldl (fun s k => withdrawWaits (dropEntries s core k) core k) s
  dropColls (s.modCore core (fun c => { c.cleared with ctx := c.cleared.ctx.map (fun x => { x with status := .free }) })) core

/-- A running gang is cleared and its cores are free. -/
def clearGang (s : State) (n : Node) : State :=
  let s := n.cores.foldl clearCore s
  (freeCores s n.key n.part n.cores).oweSelect

end Sys2Proof.Machine
end

