-- ==== Sys2Proof/Machine/NodeJobs.lean ====
section
/-! DEFINITION. The jobs of copy nodes and base-die nodes (spec/07_scheduler.md R134, R135; spec/01_package.md R14, R15;
spec/19_isa_engines.md R390). -/
namespace Sys2Proof.Machine

/-- Checks of an access that the package makes for a partition: R194 without check 8, and no page that only the supervisor
core reaches (R273). Its reads and writes are made at home (R197). -/
def packageCheck (s : State) (p : Nat) (cls : AccClass) (va n : Nat) : Except Flt Target :=
  match translate s p va cls.reads cls.writes with
  | .error f => .error f
  | .ok (a, pl) =>
    match (match pl with | .mailbox _ _ | .window _ _ => some (flt 5 9 va a.toNat) | _ => counterRule cls n a pl va) with
    | some f => .error f
    | none => .ok { kind := pageKind a, place := pl, handoff := false, attr := a }

/-! ### Copy nodes -/

def packageAgent (p : Nat) : CopyAgent := { check := fun s cls va n => packageCheck s p cls va n, die := 0, origin := .thread 0 none }

def copyInstr (op : Nat) : Instr :=
  match op with | 0 => .cpy 0 0 0 0 | 1 => .cpy2 0 0 0 0 | 2 => .cpyg 0 0 0 0 | _ => .cpys 0 0 0 0

/-- The job of a copy descriptor. -/
def copyNodeJob (s : State) (h : List Byte) : Job :=
  { newJob s (copyInstr (recField h 0 1)) with
    ctx := 0
    a := b64 (recField h 8 7)
    b := b64 (recField h 0x10 7)
    x := b64 (recField h 0x18 8)
    shape := descShape h
    started := true }

/-- The node ends with OK, whatever became of its job (R134, R135). -/
def jobDone (s : State) (n : Node) (f : Option Flt) : State :=
  let s := match f with | some f => nodeNotice s n.part f n.record.nodeid | none => s
  (endNode (s.modNode n.key (fun m => { m with job := none, pieces := [] })) n.key 0 0 true).oweSelect

def copyNodeUnit (s : State) (n : Node) (j : Job) (k : Nat) : State :=
  let u := copyUnitBy (packageAgent n.part) s j true k
  match u.out with
  | .more => u.state.modNode n.key (fun m => { m with job := some u.job })
  | .all => jobDone u.state n none
  | .failed f => jobDone u.state n (some f)

/-! ### Base-die nodes -/

def bdOp (h : List Byte) : Nat := recField h 0 1
def bdDie (h : List Byte) : Nat := recField h 1 1
def bdSfmt (h : List Byte) : Nat := recField h 2 1
def bdDfmt (h : List Byte) : Nat := recField h 3 1
def bdCount (h : List Byte) : Nat := recField h 4 4
def bdSrc (h : List Byte) : Nat := recField h 8 7
def bdDst (h : List Byte) : Nat := recField h 0x10 7
def bdIdx (h : List Byte) : Nat := recField h 0x18 7
def bdRow (h : List Byte) : Nat := recField h 0x20 4

/-- Bytes that the job writes. -/
def bdLength (h : List Byte) : Nat :=
  if bdOp h = 0 then bdCount h * bdRow h else (bdCount h * fmtWidth (bdDfmt h) + 7) / 8

/-- Pieces: the 256-byte granules of the destination (R14). -/
def bdPieces (h : List Byte) : Nat := if bdLength h = 0 then 0 else (bdDst h + bdLength h - 1) / 256 - bdDst h / 256 + 1

/-- Offset and length of piece `k` within the destination. -/
def bdPiece (h : List Byte) (k : Nat) : Nat × Nat :=
  let lo := if k = 0 then 0 else 256 * (bdDst h / 256 + k) - bdDst h
  (lo, min (bdLength h) (256 * (bdDst h / 256 + k + 1) - bdDst h) - lo)

/-- A byte of an operand is homed on the job's die; the scheduler page on that of the supervisor core (R129). -/
def bdHomed (s : State) (h : List Byte) (va : Nat) (t : Target) : Option Flt :=
  match t.place with
  | .phys pa => failIf (homeDie pa != some (bdDie h)) (flt 4 4 va t.attr.toNat)
  | .sched p _ => failIf (dieOf (s.part p).supervisor != bdDie h) (flt 4 4 va t.attr.toNat)
  | _ => some (flt 4 4 va t.attr.toNat)

/-- Operand bytes. -/
def bdRead (s : State) (p : Nat) (h : List Byte) : Nat → Nat → Except Flt (List Byte)
  | _, 0 => .ok []
  | va, n + 1 =>
    match packageCheck s p (.chunkRead false) va 1 with
    | .error f => .error f
    | .ok t =>
      match bdHomed s h va t <|> failIf (s.poisoned t.place 1) (flt 6 1 va) with
      | some f => .error f
      | none => (match bdRead s p h (va + 1) n with | .error f => .error f | .ok r => .ok (readPlace s t.place 1 ++ r))

/-- Element `e` of an operand: its width may be 4 bits. -/
def bdElem (s : State) (p : Nat) (h : List Byte) (base fmt e : Nat) : Except Flt Nat :=
  let w := fmtWidth fmt
  match bdRead s p h (base + e * w / 8) (max 1 (w / 8)) with
  | .error f => .error f
  | .ok b => .ok (bits (leNat b) (e * w % 8) w)

/-- RoundTo of an element. An integer that the integer destination does not hold has no stated result: a free value of the
operand, so that a run of a deterministic partition repeats (R84; log 50). -/
def bdConvert (sf df v : Nat) : Nat :=
  let x := fmtInt sf v
  if (fmtFloat sf).isNone && (fmtFloat df).isNone && (x < fmtLo df || fmtHi df < x) then
    (Config.outOfRange sf df v).toNat % 2 ^ fmtWidth df
  else (convElem sf df .rne v).1

/-- One output element. The flags of its roundings reach no FPFLAGS: R235 names no receiver for a node's job (DESIGN CHOICE, log 50). -/
def bdOut (s : State) (p : Nat) (h : List Byte) (e : Nat) : Except Flt Nat :=
  match bdElem s p h (bdSrc h) (bdSfmt h) e with
  | .error f => .error f
  | .ok a =>
    if bdOp h = 1 then
      match bdElem s p h (bdIdx h) (bdSfmt h) e with
      | .error f => .error f
      | .ok b =>
        let w := fun v => dec32 (widenIn (if bdSfmt h = 0 then 2 else 0) v)
        .ok (round32 .rne (fpAdd (w a) (w b))).1
    else .ok (bdConvert (bdSfmt h) (bdDfmt h) a)

/-- Output elements `e` to `e + n - 1`. -/
def bdOuts (s : State) (p : Nat) (h : List Byte) : Nat → Nat → Except Flt (List Nat)
  | _, 0 => .ok []
  | e, n + 1 =>
    match bdOuts s p h e n with
    | .error f => .error f
    | .ok l => (match bdOut s p h (e + n) with | .error f => .error f | .ok v => .ok (l ++ [v]))

/-- Gathered bytes [o, o + n) of the destination. -/
def bdGather (s : State) (p : Nat) (h : List Byte) : Nat → Nat → Except Flt (List Byte)
  | _, 0 => .ok []
  | o, n + 1 =>
    match bdRead s p h (bdIdx h + 4 * (o / bdRow h)) 4 with
    | .error f => .error f
    | .ok ix =>
      match bdRead s p h (bdSrc h + leNat ix * bdRow h + o % bdRow h) 1 with
      | .error f => .error f
      | .ok b => (match bdGather s p h (o + 1) n with | .error f => .error f | .ok r => .ok (b ++ r))

/-- The elements packed, low first. -/
def packElems (w : Nat) (l : List Nat) : Nat := l.foldr (fun v acc => v % 2 ^ w + 2 ^ w * acc) 0

/-- The bytes of a piece. -/
def bdBytes (s : State) (p : Nat) (h : List Byte) (o n : Nat) : Except Flt (List Byte) :=
  if bdOp h = 0 then bdGather s p h o n
  else
    let w := fmtWidth (bdDfmt h)
    let e := 8 * o / w
    let last := min (bdCount h) ((8 * (o + n) + w - 1) / w)
    match bdOuts s p h e (last - e) with
    | .error f => .error f
    | .ok l => .ok (((natBytes (n + 16) (packElems w l)).drop (o - e * w / 8)).take n)

/-- The high half of a last byte that no 4-bit element takes stays as it was. -/
def keepNibble (s : State) (h : List Byte) (o n : Nat) (t : Target) (b : List Byte) : List Byte :=
  if bdOp h = 2 && fmtWidth (bdDfmt h) = 4 && bdCount h % 2 = 1 && o + n = bdLength h then
    putAt b (n - 1) [(b.getD (n - 1) 0 &&& 0xf) ||| ((readPlace s (t.place.add (n - 1)) 1).headD 0 &&& 0xf0)]
  else b

/-- The destination of a piece; the stack that R10 gives its granule. -/
def bdTarget (s : State) (p : Nat) (h : List Byte) (o n : Nat) : Except Flt Target :=
  match packageCheck s p (.chunkWrite false) (bdDst h + o) n with
  | .error f => .error f
  | .ok t => match bdHomed s h (bdDst h + o) t with | some f => .error f | none => .ok t

/-- The base die of a piece, by its destination. R15 does not say which one's BDERR shows a destination that is refused: the first stack of the
die does, also where the destination has a frame but is refused there (NOWRITE, HOME, CTRPAGE; DESIGN CHOICE, log 50). -/
def bdStack (h : List Byte) (t : Except Flt Target) : Nat :=
  3 * (bdDie h % 4) + (match t with
    | .ok t => (match t.place with | .phys pa => (match paKind pa with | .home _ o => stackOf o | _ => 0) | _ => 0)
    | .error _ => 0)

def State.modStack (s : State) (k : Nat) (f : BaseDie → BaseDie) : State :=
  { s with baseDies := vmod s.baseDies k { stat := 7, jobs := 0, err := 0 } f }

/-- The idle bit of an engine on the three base dies of the job's die: all three read busy from dispatch to the end of the job,
also one that has no piece of it, or none left (DESIGN CHOICE, log 50). -/
def bdIdle (s : State) (h : List Byte) (idle : Bool) : State :=
  (List.range 3).foldl (fun s j => s.modStack (3 * (bdDie h % 4) + j) (fun b =>
    { b with stat := if idle then b.stat ||| (1#3 <<< bdOp h) else b.stat &&& ~~~(1#3 <<< bdOp h) })) s

/-- The job ends; a failure sets the error bit of its engine, on the first stack where no granule has a place (log 50). -/
def bdEnd (s : State) (n : Node) (k : Nat) (f : Option Flt) : State :=
  let h := n.desc
  let s := if f.isSome then s.modStack k (fun b => { b with err := b.err ||| (1#3 <<< bdOp h) }) else s
  jobDone (bdIdle s h true) n f

/-- One piece of a base-die job (R14, R135). -/
def baseDieUnit (s : State) (n : Node) (k : Nat) : State :=
  let h := n.desc
  let (o, len) := bdPiece h k
  let t := bdTarget s n.part h o len
  let stack := bdStack h t
  match t with
  | .error f => bdEnd s n stack (some f)
  | .ok t =>
    match bdBytes s n.part h o len with
    | .error f => bdEnd s n stack (some f)
    | .ok b =>
      let s := (writeRange s (bdDie h) t (keepNibble s h o len t b) (.thread 0 none) []).1
      let s := s.modStack stack (fun b => { b with jobs := b.jobs + 1 })
      if bdPieces h ≤ n.pieces.length + 1 then bdEnd s n stack none
      else s.modNode n.key (fun m => { m with pieces := m.pieces ++ [k] })

/-- A piece that is still to be done: the one asked for, else the lowest. -/
def nextPiece (n : Node) (k : Nat) : Option Nat :=
  let left := fun k => decide (k < bdPieces n.desc) && !n.pieces.contains k
  if left k then some k else (List.range (bdPieces n.desc)).find? left

/-- The next unit of a node's job (PERFORM): move `k` of a copy, or piece `k`. -/
def nodeUnit (s : State) (n : Node) (k : Nat) : State :=
  if n.state != .running then s
  else match n.record.kind, n.job with
  | 1, some j => copyNodeUnit s n j k
  | 2, _ => (match nextPiece n k with | some k => baseDieUnit s n k | none => s)
  | _, _ => s

/-- A copy or base-die node starts; an empty job is done at once. -/
def startJob (s : State) (n : Node) : State :=
  let s := s.modNode n.key (fun m => { m with state := .running, dispatchedAt := s.clock })
  if n.record.kind = 1 then
    let j := copyNodeJob s n.desc
    if copyEmpty j then jobDone s n none else s.modNode n.key (fun m => { m with job := some j })
  else if bdPieces n.desc = 0 then jobDone s n none
  else bdIdle s n.desc false

/-- A base die has one engine of each kind. -/
def jobPlaceable (s : State) (n : Node) : Bool :=
  n.record.kind != 2 ||
  !s.nodes.any (fun m => m.record.kind = 2 && m.state = .running && bdDie m.desc = bdDie n.desc && bdOp m.desc = bdOp n.desc)

end Sys2Proof.Machine
end

