-- ==== Sys2Proof/Machine/Millpond.lean ====
section
/-! DEFINITION. Selection, dispatch and completion of nodes (spec/07_scheduler.md R127, R128, R136 to R139, R145 to R149;
spec/24_prog_generation.md R413, R414). -/
namespace Sys2Proof.Machine

/-! ### Cond nodes (R136, R137, R413) -/

def condHolds (op w v : Nat) : Bool :=
  match op with | 0 => w = v | 1 => w != v | 2 => decide (w < v) | _ => decide (v ≤ w)

/-- Re-admit the listed slots in order; the count is of those skipped. -/
def rearm (vf r : Nat) : State → List Nat → State × Nat
  | s, [] => (s, 0)
  | s, k :: l =>
    match readmit s vf r k with
    | some s => rearm vf r s l
    | none => let (s, n) := rearm vf r s l; (s, n + 1)

/-- 16-bit indices of a list of bytes. -/
def slotList (bs : List Byte) (n : Nat) : List Nat := (List.range n).map (fun i => recField bs (2 * i) 2)

/-- ARMLIST is read whole as it stands, and its slots are re-admitted; if it cannot be read, all count as skipped (R137). -/
def rearmList (s : State) (n : Node) (vf r va narm : Nat) : State × Nat :=
  match vread s n.part va (2 * narm) with
  | .ok l => rearm vf r s (slotList l narm)
  | .error e => (nodeNotice s n.part e n.record.nodeid, narm)

/-- The four steps of R413: ARMLIST, at `va`, is read when the node has retired. -/
def condTaken (s : State) (n : Node) (vf r va narm : Nat) : State :=
  let s := traceNode (edgesDone s n.part n.record) n.part 5 n.record.nodeid
  let s := (s.modNode n.key (fun m => { m with state := .done, edgesDone := true, released := true, gone := true, entry := none })).oweSelect
  let s := if (s.part n.part).det then growDeficit s n.part n.level else s
  let (s, skipped) := rearmList s n vf r va narm
  closeNode (s.modNode n.key (fun m => { m with status := 0, sub := 1 + 65536 * skipped })) n.key

def dispatchCond (s : State) (n : Node) : State :=
  let f := fun off k => recField n.desc off k
  match vread s n.part (f 0 7) 8 with
  | .error e => endNode (nodeNotice s n.part e n.record.nodeid) n.key 0 0 true
  | .ok w =>
    if !condHolds (f 0x10 1) (leNat w) (f 8 8) then endNode s n.key 0 0 true
    else match n.src with
    | .ring vf r _ => condTaken s n vf r (f 0x18 7) (f 0x12 2)
    | .launch _ _ _ _ _ => endNode s n.key 0 0 true

/-! ### Dispatch (R127, R143) -/

/-- The placement of a pinned node is computed at its first dispatch and kept, for its slot too (R153). -/
def pinNode (s : State) (n : Node) : State :=
  match if Node.pinned s n && !n.record.isSuper && n.pin.isNone then pinnedCores s n else none with
  | none => s
  | some l =>
    let s := s.modNode n.key (fun m => { m with pin := some l })
    match n.src with
    | .ring vf r slot => s.modCmd vf r (fun c => { c with pins := tput c.pins slot l })
    | .launch _ _ _ _ _ => s

/-- A pinned node whose placement lost a core ends at its next dispatch (R153). -/
def pinLost (s : State) (n : Node) : Bool :=
  Node.pinned s n && !n.record.isSuper && (match pinnedCores s n with | some l => l.any (withdrawn s) | none => true)

def dispatch (s : State) (n : Node) : State :=
  let s := pinNode (traceNode s n.part 4 n.record.nodeid) n
  match n.record.kind with
  | 0 =>
    if pinLost s n then (endNode (s.modNode n.key Node.unsaved) n.key 4 0 true).oweSelect
    else (match placeNow s n with | some l => launchGang s n l | none => s)
  | 1 | 2 => startJob s n
  | 3 => dispatchCond s n
  | _ => endNode s n.key 0 0 true

/-! ### Selection (R90, R138, R154) -/

/-- The energy check of R90. -/
def energyOk (q : Partition) (n : Node) : Bool :=
  decide ((n.record.eest : Int) ≤ q.account) || (decide (q.ceiling.toNat < n.record.eest) && q.account = q.ceiling.toNat)

/-- A node that needs cores on more than one die (R149). -/
def Node.multiDie (n : Node) : Bool := n.record.kind = 0 && decide (1 < shapeDies n.record.shape)

/-- The dispatch port that claims a placement: DX's where `Input.ok` says that it selects, and of the dies' the one that selects, `Input.die`,
where it has cores of it (R126, R149). -/
def claimPort (s : State) (cores : List Nat) : Nat :=
  if s.input.ok then 4
  else if cores.any (fun i => dieOf i = s.input.die) then s.input.die else dieOf (cores.headD 0)

/-- The low 29 bits of a key by node id (R154): the lower id wins. -/
def idKey (n : Node) : Nat := 2 ^ 29 - 1 - n.record.nodeid.toNat % 2 ^ 29

/-- The key of R149. -/
def portKey (s : State) (n : Node) : Nat :=
  n.level * 2 ^ 29 +
  (if (s.part n.part).det then idKey n
   else min ((s.clock - n.levelSince) / (16 * cyclesPerUs)) 0x1ffff * 2 ^ 12 + n.entry.getD 0 % 2 ^ 12)

/-- A port places its own die's nodes at once; for a multi-die node it must be free to enter channel 15. -/
def portReady (s : State) (n : Node) (cores : List Nat) : Bool :=
  !n.multiDie || (!(s.chan 15).failed && !s.claiming 15 (claimPort s cores))

def placeable (s : State) (n : Node) : Bool :=
  match n.record.kind with
  | 0 => pinLost s n || (match placeNow s n with | some l => portReady s n l | none => false)
  | _ => jobPlaceable s n

/-- A visit's choice: the oldest node that the deficit pays for, that has its energy, and that can be placed. -/
def chosen (s : State) (p level : Nat) : Option Node :=
  let q := s.part p
  (levelNodes s p level).find? (fun n => decide ((costOf n : Int) ≤ vget q.deficit level 0) && energyOk q n && placeable s n)

/-- The chosen node is paid for and dispatched; a level that it leaves without nodes has its deficit set to 0. -/
def serveNode (s : State) (n : Node) : State :=
  let s := s.modPart n.part (fun q => { q with deficit := vmod q.deficit n.level 0 (fun d => d - costOf n) })
  let s := dispatch { s with lastServed := vset s.lastServed n.level n.part } n
  restick (if (levelNodes s n.part n.level).isEmpty then emptyLevel s n.part n.level else s) n.part

/-- The choice of a run: dispatched, or, where it spans dies, entered into a round of channel 15 by its port. The run ends with
the entry too (DESIGN CHOICE, log 81: R138 speaks of its first dispatch). -/
def serveOrClaim (s : State) (n : Node) : State :=
  match placeNow s n with
  | some l => if n.multiDie && !pinLost s n then enterClaim s 15 (claimPort s l) n.key (portKey s n) else serveNode s n
  | none => serveNode s n

/-- One run of selection over the visits still to make; it ends at its first dispatch. -/
def selectOver : List (Nat × Nat) → State → State
  | [], s => s
  | (level, p) :: r, s =>
    if (levelNodes s p level).isEmpty then selectOver r (emptyLevel s p level)
    else
      let s := if (s.part p).det then s else growDeficit s p level
      match chosen s p level with
      | some n => serveOrClaim s n
      | none => selectOver r s

/-- The visits of a run: levels from 7 down, partitions from the one after the last served. -/
def visits (s : State) : List (Nat × Nat) :=
  (List.range 8).flatMap (fun k =>
    let level := 7 - k
    (((List.range 64).map (fun i => (vget s.lastServed level 63 + 1 + i) % 64)).filter (fun p =>
      (s.part p).present && s.partAwake p)).map (fun p => (level, p)))

/-- The port that won its round reserves the cores and dispatches its candidate; one that can no longer be placed is chosen
again. -/
def dispatchClaim (s : State) (c : Claim) : State :=
  let s := { s with claims := s.claims.erase c }
  match s.node? c.node with
  | none => s.oweSelect
  | some n =>
    if n.waits && decide ((costOf n : Int) ≤ vget (s.part n.part).deficit n.level 0) && energyOk (s.part n.part) n && (placeNow s n).isSome
    then serveNode s n else s.oweSelect

/-- NODE_SELECT by the dispatch port `Input.die`: what a port has won on channel 15 is dispatched; else one run of selection
that an event of R138 has called for. -/
def execNodeSelect (s : State) : Result :=
  match s.claims.find? (fun c => c.ch = 15 && c.won) with
  | some c => .next (dispatchClaim s c)
  | none => .next (if s.selects = 0 then s else selectOver (visits s) { s with selects := s.selects - 1 })

/-! ### Completion (R128, R145, R147, R148, R414) -/

/-- A core's part of a gang has ended: no job that its contexts issued is left, one of the offload engine included, which
holds its tag until its data has been sent (R57, R145). -/
def coreFinished (c : Core) : Bool :=
  (List.range 11).all (fun k => (c.context k).status != .live) && c.vecQ.isEmpty && c.matQ.isEmpty && c.copyQ.isEmpty &&
  c.recQ.isEmpty && c.ni.isEmpty && c.accs.isEmpty && c.tagBusy = 0

/-- A token of the node waits in a function's queue (R414). -/
def tokensWait (s : State) (key : Nat) : Bool := s.vfs.any (fun f => f.2.tokenQ.any (fun t => t.2.node = some key))

def joinsChildren (n : Node) : Bool := n.record.flags % 2 = 1

/-- A running gang has finished, and the collector has stopped none of its cores. -/
def gangFinished (s : State) (n : Node) : Bool :=
  n.state = .running && n.record.kind = 0 && n.acked.isEmpty && !s.flr && n.cores.all (fun i => coreFinished (s.core i)) &&
  !tokensWait s n.key && (!joinsChildren n || n.children = 0)

/-- Step 3 of R128. -/
def releaseSuccessors (s : State) (n : Node) : State :=
  match n.src with
  | .launch _ _ _ _ _ => s
  | .ring vf r _ =>
    let s := n.record.succ.foldl (fun s k => decrement s vf r k) s
    if n.record.ovfcnt = 0 then s
    else match vread s n.part n.record.ovfptr (2 * n.record.ovfcnt) with
      | .ok l => (slotList l n.record.ovfcnt).foldl (fun s k => decrement s vf r k) s
      | .error f => nodeNotice s n.part f n.record.nodeid

/-- Step 1 of R147: the status word; a write that fails is reported. -/
def writeStatus (s : State) (n : Node) (va : Nat) : State :=
  if va = 0 then s
  else match vwrite s n.part va (natBytes 8 (n.status + 256 * n.sub)) with
    | .ok s => s
    | .error f => nodeNotice s n.part f n.record.nodeid

/-- Step 2 of R147: the completion counter. -/
def countLaunch (s : State) (n : Node) (va : Nat) : State :=
  match packageCheck s n.part .counterAdd va 8 with
  | .ok t => counterAdd s t.place 1
  | .error f => nodeNotice s n.part f n.record.nodeid

/-- Bytes that the node's stores left in holding copies of lines homed on a die have all been applied there (R215), those of the cores that it
left at a suspension too. -/
def nodeSent (s : State) (n : Node) (pl : Place) : Bool :=
  match targetDie s pl with
  | some x => n.ranOn.all (fun i => (List.range 11).all (fun k => !unsentBytes s i.1 k i.2 (some x)))
  | none => true

/-- The arrivals that the node's completion makes are `.rel` at `.pkg`: its edge counts and its launch counter (R131, R147). -/
def relReady (s : State) (n : Node) : Bool :=
  ((n.record.inputs ++ n.record.outputs).isEmpty || nodeSent s n (.sched n.part 0)) &&
  (match n.src with
   | .launch _ _ _ cctr _ => (match packageCheck s n.part .counterAdd cctr 8 with | .ok t => nodeSent s n t.place | .error _ => true)
   | .ring _ _ _ => true)

/-- Steps 1 to 3 of R128, in a deterministic partition the growth of R138, then the entry or the launch's two steps. -/
def completeNode (s : State) (n : Node) : State :=
  let s := (traceNode s n.part 5 n.record.nodeid).oweSelect
  let s := if n.edgePassed then edgesDone s n.part n.record else s
  let s := if n.released then s else releaseSuccessors s n
  let s := if (s.part n.part).det then growDeficit s n.part n.level else s
  match n.src with
  | .ring _ _ _ => closeNode s n.key
  | .launch _ _ parent cctr status =>
    let s := countLaunch (writeStatus s n status) n cctr
    retireNode (s.modNode parent (fun m => { m with children := m.children - 1 })) n

/-- A DONE node completes once its arrivals may be performed. -/
def completeDone (s : State) (n : Node) : State := if relReady s n then completeNode s n else s

/-- NODE_COMPLETE of node `Input.node`: a finished gang frees its cores; a DONE node completes, or posts what it held. -/
def execNodeComplete (s : State) : Result :=
  match s.node? s.input.node with
  | none => .next s
  | some n =>
    if n.state = .done then .next (if n.edgesDone then finishNode s n.key else completeDone s n)
    else if gangFinished s n then
      let s := endNode (freeCores s n.key n.part n.cores) n.key 0 0 true
      let s := leftCores s n
      .next (match s.node? n.key with | some m => if relReady s m then completeNode s m else s.oweSelect | none => s)
    else .next s

/-! ### Promotion (R139) -/

def promoteCycles : Nat := 2000 * cyclesPerUs

/-- LEVEL_PROMOTION of node `Input.node`. -/
def execLevelPromotion (s : State) : Result :=
  match s.node? s.input.node with
  | none => .next s
  | some n =>
    if n.state != .ready || (s.part n.part).det || 2 ≤ n.promotions || 7 ≤ n.level || s.clock < n.levelSince + promoteCycles then .next s
    else
      let q := s.nextKey
      .next (appear ({ s with nextKey := q + 1 }.modNode n.key (fun m => { m with
        level := m.level + 1
        promotions := m.promotions + 1
        levelSince := s.clock
        seq := q })) n.part (n.level + 1))

end Sys2Proof.Machine
end

