-- ==== Sys2Proof/Machine/Frames.lean ====
section
/-! DEFINITION. Frames (spec/01_package.md R9 to R12; spec/09_memory.md R192, R193), and the areas of memory in which fw2 keeps core
images (spec/05_energy_dormancy.md R95; spec/13_faults.md R280). -/
namespace Sys2Proof.Machine

/-! ### Frames (R9 to R12, R192, R193) -/

/-- The offset within a page of the byte stored at a canonical address. -/
def pageOffset (g : Page) (pa : Nat) : Option Nat :=
  let f := pageFrame g.attr
  let a := if inSpread f then
      (match paKind pa with | .home d o => 0x10000000000 + (o / 4096 * 4 + d) * 4096 + o % 4096 | _ => pa)
    else pa
  if f ≤ a && a < f + pageSize g.attr then some (a - f) else none

def inPage (g : Page) (pa : Nat) : Bool := (pageOffset g pa).isSome

/-- Memory without the bytes that `sel` picks: they read 0. -/
def scrub (s : State) (sel : Nat → Bool) : State :=
  { s with
    mem := s.mem.filter (fun e => !sel e.1)
    poison := s.poison.filter (fun l => !sel l) }

/-- What a frame names (R9): a home range, the spread alias, the host window, base-die windows, debug windows, or a hole. -/
inductive FrameKind where | home (die lo hi : Nat) | spread (lo hi : Nat) | host | baseDie (k n : Nat) | window | hole
  deriving DecidableEq, Repr

def frameKind (a : DWord) : FrameKind :=
  let f := pageFrame a
  let last := f + pageSize a - 1
  match paKind f with
  | .home d o =>
    if inSpread f then (if inSpread last then .spread ((f - 0x10000000000) / 4) ((f - 0x10000000000 + pageSize a) / 4) else .hole)
    else if o + pageSize a ≤ 0x2400000000 then .home d o (o + pageSize a) else .hole
  | .host _ => (match paKind last with | .host _ => .host | _ => .hole)
  | .baseDie k _ => (match paKind last with | .baseDie _ _ => .baseDie k (pageSize a / 0x10000) | _ => .hole)
  | .window _ _ => (match paKind last with | .window _ _ => .window | _ => .hole)
  | .hole => .hole

/-- R193: the attribute word is refused. -/
def attrBad (a : DWord) (p : Nat) : Bool :=
  bits a.toNat 44 14 != 0 || bits a.toNat 3 6 != 0 || bits a.toNat 16 2 = 3 || bits a.toNat 14 2 = 3 || bits a.toNat 12 2 = 3 ||
  pageFrame a % pageSize a != 0 || (pageCounter a && (bits a.toNat 16 2 != 0 || pageKind a = .uo)) || frameKind a = .hole ||
  pagePart a != p


/-! ### Dies and the cores of a partition (R16, R70, R96) -/

def Rect.cores (r : Rect) : List Nat :=
  (List.range r.rows).flatMap (fun i => (List.range r.cols).map (fun j => coreOf r.die (r.row + i) (r.col + j)))

/-- Every core of the partition, once. -/
def Partition.allCores (q : Partition) : List Nat := (q.rects.flatMap Rect.cores).eraseDups

def onDie (q : Partition) (d : Nat) : Bool := q.rects.any (fun r => r.die = d)

/-- The die's core rails may collapse: every partition with a core on it is dormant with class 3 (R96). -/
def railsMay (s : State) (d : Nat) : Bool :=
  s.parts.any (fun e => e.2.present && onDie e.2 d) &&
  s.parts.all (fun e => !e.2.present || !onDie e.2 d || (e.2.wakeClass = 3 && e.2.dmState = .dormant))

/-- The die's core rails must be up: a partition with a core on it runs, or sits in a class that keeps them. -/
def railsMust (s : State) (d : Nat) : Bool :=
  s.parts.any (fun e => e.2.present && onDie e.2 d && (e.2.wakeClass != 3 || (e.2.dmState != .dormant && e.2.dmState != .waking)))

/-- The rails follow the partitions of their dies (R96); while one of class 3 wakes, they stand as they were until it is awake. -/
def settleRails (s : State) : State :=
  (List.range 4).foldl (fun s d => s.modDie d (fun x => { x with rails := railsMay s d || (x.rails && !railsMust s d) })) s

def groupDie (groups : BitVec 64) (d : Nat) : Bool := (groups >>> (16 * d)).setWidth 16 != 0#16

/-- The partition holds the channel groups of a die-local range. -/
def holdsRange (q : Partition) (d lo hi : Nat) : Bool :=
  (List.range 16).all (fun g => holdsGroup q d g || !(groupOf lo ≤ g && g ≤ groupOf (hi - 1)))

/-- Check 7 of MAP. -/
def frameAbsent (s : State) (a : DWord) : Bool :=
  match frameKind a with | .home d _ _ => s.dieExcluded d | .spread _ _ => (List.range 4).any s.dieExcluded | _ => false

/-- Check 8. -/
def frameDenied (q : Partition) (a : DWord) : Bool :=
  match frameKind a with
  | .home d lo hi => !holdsRange q d lo hi
  | .baseDie k n => (List.range n).any (fun i => !groupDie q.groups ((k + i) / 3))
  | .window => true
  | _ => false

/-- Check 9. -/
def spreadDenied (q : Partition) (a : DWord) : Bool :=
  match frameKind a with | .spread lo hi => (List.range 4).any (fun d => !holdsRange q d lo hi) | _ => false

/-- Two frames share storage. -/
def framesMeet (a b : DWord) : Bool :=
  match frameKind a, frameKind b with
  | .home d l h, .home e l' h' => d = e && decide (l < h') && decide (l' < h)
  | .spread l h, .spread l' h' | .home _ l h, .spread l' h' | .spread l h, .home _ l' h' => decide (l < h') && decide (l' < h)
  | _, _ => decide (pageFrame a < pageFrame b + pageSize b) && decide (pageFrame b < pageFrame a + pageSize a)

/-- One frame lies in a home range and the other in the spread alias. -/
def otherName (a b : DWord) : Bool :=
  match frameKind a, frameKind b with | .home _ _ _, .spread _ _ | .spread _ _, .home _ _ _ => true | _, _ => false

/-- Check 10 (R12). -/
def frameAliased (s : State) (a : DWord) : Bool :=
  s.parts.any (fun e => e.2.pages.any (fun g => otherName a g.attr && framesMeet a g.attr))

/-- Check 11. -/
def rangeMapped (q : Partition) (va size : Nat) : Bool :=
  q.pages.any (fun g => decide (g.va < va + size) && decide (va < g.va + pageSize g.attr))

/-- The frame of a number of 256 KiB frames. -/
def frameAttr (f : Nat) : DWord := b64 (f * 0x40000)

/-! ### Save areas (R95, R280; the choice of an area is the model's: log 66) -/

/-- The part of die `d`'s memory that a frame takes. -/
def frameOn (d : Nat) (a : DWord) : Option (Nat × Nat) :=
  match frameKind a with
  | .home e lo hi => if e = d then some (lo, hi) else none
  | .spread lo hi => some (lo, hi)
  | _ => none

/-- The save areas in use, each with its length: those kept for collapses, and those of saved gangs. -/
def areasHeld (s : State) : List (Nat × Nat) :=
  s.parts.filterMap (fun e => e.2.saveArea) ++ s.nodes.filterMap (·.area)

/-- What an area on die `d` may not meet: mapped frames, those being unmapped, lasting frames and other areas. -/
def obstacles (s : State) (d : Nat) : List (Nat × Nat) :=
  ((s.parts.flatMap (fun e => e.2.pages.map (·.attr))) ++ s.unmaps.map (·.page.attr) ++ s.badFrames.map frameAttr).filterMap (frameOn d) ++
  ((areasHeld s).filter (fun x => x.1 / 0x4000000000 = d)).map (fun x => (x.1 % 0x4000000000, x.1 % 0x4000000000 + x.2))

/-- A frame shares storage with a save area. -/
def onArea (s : State) (a : DWord) : Bool :=
  (areasHeld s).any (fun x => match frameOn (x.1 / 0x4000000000) a with
    | some (lo, hi) => decide (lo < x.1 % 0x4000000000 + x.2) && decide (x.1 % 0x4000000000 < hi)
    | none => false)

/-- The start of a free run of `n` bytes in channel group `g` of die `d`: under the group's end or under an obstacle. -/
def areaIn (s : State) (n d g : Nat) : Option Nat :=
  let lo := g * 0x240000000
  let hi := lo + 0x240000000
  let obs := obstacles s d
  let fits := fun b => decide (lo ≤ b) && decide (b + n ≤ hi) && obs.all (fun o => decide (b + n ≤ o.1) || decide (o.2 ≤ b))
  ((((hi :: obs.map (·.1)).filter (fun t => decide (n ≤ t))).map (fun t => (t - n) / 4096 * 4096)).find? fits).map
    (fun b => d * 0x4000000000 + b)

/-- An area of `n` bytes in the channel groups of partition `q`, on a die that is present. -/
def areaFor (s : State) (q : Partition) (n : Nat) : Option Nat :=
  (((List.range 4).filter (fun d => !s.dieExcluded d)).flatMap (fun d =>
    ((List.range 16).filter (holdsGroup q d)).filterMap (areaIn s n d))).head?

/-- The area that fw2 keeps for the cores of a new partition. -/
def reserveArea (s : State) (q : Partition) : Partition :=
  let n := ((List.range 3072).filter q.holdsCore).length * imageLength
  { q with saveArea := (areaFor s q n).map (fun a => (a, n)) }

end Sys2Proof.Machine
end

