-- ==== Sys2Proof/Machine/Collector.lean ====
section
/-! DEFINITION. Pre-emption: the choice of victims, the collector's stop of their cores, and the suspension of a node
(spec/07_scheduler.md R150 to R152; spec/13_faults.md R279 to R281; spec/06_contention_plane.md R123). -/
namespace Sys2Proof.Machine

/-! ### The choice (R150) -/

def preemptCycles : Nat := 100 * cyclesPerUs

/-- A gang that node `n` may displace. -/
def victimOf (s : State) (n v : Node) : Bool :=
  v.state = .running && v.record.kind = 0 && v.part = n.part && decide (v.level < n.level) && !v.record.isSuper &&
  v.cores.all (fun i => (s.core i).issue = .running && !(s.core i).stopping)

/-- Lowest level first, then most recently dispatched; ties go to the later order of the level, in a deterministic partition
to the lower node id (R83). -/
def victimBefore (s : State) (a b : Node) : Bool :=
  let tie := if (s.part a.part).det then decide (a.record.nodeid.toNat < b.record.nodeid.toNat) else decide (b.seq < a.seq)
  decide (a.level < b.level) || (a.level = b.level && (decide (b.dispatchedAt < a.dispatchedAt) || (b.dispatchedAt = a.dispatchedAt && tie)))

/-- A core of a gang that is being stopped already, and that the candidate may displace. -/
def leaving (s : State) (n : Node) (i : Nat) : Bool :=
  (s.core i).stopping && (match (s.core i).node.bind s.node? with
    | some v => v.part = n.part && decide (v.level < n.level) && !v.record.isSuper
    | none => false)

/-- The node fits once these gangs are gone, and those of lower level that are stopping already. -/
def fitsWithout (s : State) (n : Node) (vs : List Node) : Bool :=
  (placeWith s n (fun i => coreFree s i || leaving s n i || vs.any (fun v => v.cores.contains i))).isSome

/-- The shortest run of victims, from the first, that lets the node fit. -/
def victimsFrom (s : State) (n : Node) : List Node → List Node → Option (List Node)
  | vs, [] => if fitsWithout s n vs then some vs else none
  | vs, v :: r => if fitsWithout s n vs then some vs else victimsFrom s n (vs ++ [v]) r

/-- No victim beyond those needed. -/
def needed (s : State) (n : Node) : List Node → List Node → List Node
  | kept, [] => kept
  | kept, v :: r => if fitsWithout s n (kept ++ r) then needed s n kept r else needed s n (kept ++ [v]) r

/-- The victims, gangs of a list apart. -/
def victimsBut (s : State) (n : Node) (out : List Nat) : List Node :=
  let sorted := (s.nodes.filter (fun v => victimOf s n v && !out.contains v.key)).foldl (fun l v => insertNode (victimBefore s) v l) []
  match victimsFrom s n [] sorted with
  | some vs => needed s n [] vs
  | none => []

/-- fw2 allocates an area for the images of each victim in its partition's channel groups; the first that gets none is named. -/
def allocate (s : State) : List Node → State × Option Node
  | [] => (s, none)
  | v :: r =>
    let len := v.cores.length * imageLength
    match areaFor s (s.part v.part) len with
    | some a => allocate (s.modNode v.key (fun m => { m with area := some (a, len) })) r
    | none => (s, some v)

/-- The choice runs again without a victim that gets no area (R280); `fuel` bounds the runs. -/
def chooseVictims (s : State) (n : Node) : Nat → List Nat → State × List Node
  | 0, _ => (s, [])
  | fuel + 1, out =>
    let vs := victimsBut s n out
    match allocate s vs with
    | (t, none) => (t, vs)
    | (_, some v) => chooseVictims s n fuel (v.key :: out)

/-- The gangs to stop for node `n`, with an area allocated to each. -/
def victims (s : State) (n : Node) : State × List Node := chooseVictims s n (s.nodes.length + 1) []

/-- Every core of the victims gets a stop request. -/
def stopVictims (s : State) (vs : List Node) : State :=
  vs.foldl (fun s v => v.cores.foldl (fun s i => s.modCore i (fun c => { c with stopping := true })) s) s

/-! ### Two candidates for the same cores (R151) -/

/-- The key of channel 14. -/
def collectorKey (s : State) (n : Node) : Nat :=
  n.level * 2 ^ 29 + (if (s.part n.part).det then idKey n else n.entry.getD 0 % 2 ^ 12)

/-- A claim on channel 14 of another candidate that names cores which these victims hold. -/
def Claim.meets (s : State) (n : Node) (vs : List Node) (c : Claim) : Bool :=
  c.ch = 14 && c.node != n.key && c.rival.isNone && (match s.node? c.node with
    | some m => (victims s m).2.any (fun v => v.cores.any (fun i => vs.any (fun w => w.cores.contains i)))
    | none => false)

def contested (s : State) (n : Node) (vs : List Node) : Bool := s.claims.any (Claim.meets s n vs)

/-- The candidate that has won these cores before `n`, whose victims are still to be stopped: `n` has lost to it, by whatever round it
comes (R151). -/
def earlierWinner (s : State) (n : Node) (vs : List Node) : Option Nat :=
  ((s.claims.takeWhile (fun c => !(c.ch = 14 && c.node = n.key))).find? (fun c => c.won && c.meets s n vs)).map (·.node)

/-- A die's collector enters channel 14 for the candidate; it waits while each die of the victims has entered. -/
def enterCollector (s : State) (n : Node) (vs : List Node) : State :=
  match (vs.flatMap (·.cores)).find? (fun i => !s.claiming 14 (dieOf i)) with
  | some i => if (s.chan 14).failed then s else enterClaim s 14 (dieOf i) n.key (collectorKey s n)
  | none => s

/-- The victims of the candidate that won have been stopped: its claim is gone, and no core is stopping. -/
def rivalDone (s : State) (w : Nat) : Bool :=
  !s.claims.any (fun c => c.ch = 14 && c.node = w && c.won && (s.node? w).isSome) && !s.cores.any (fun e => e.2.stopping)

/-- The victims are stopped, unless another collector claims their cores as well: as `Input.ok` says, or by its claim that
stands. Then channel 14 settles it, and the loser chooses again after the winner's victims are stopped (R151). -/
def takeVictims (s : State) (n : Node) : State :=
  let (t, vs) := victims s n
  match s.claims.find? (fun c => c.ch = 14 && c.node = n.key) with
  | some c =>
    if c.won then
      match earlierWinner s n vs with
      | some w => { s with claims := s.claims.map (fun x => if x = c then { c with won := false, rival := some w } else x) }
      | none => stopVictims { t with claims := t.claims.erase c } vs
    else (match c.rival with
      | some w => if rivalDone s w then { s with claims := s.claims.erase c } else s
      | none => s)
  | none =>
    match earlierWinner s n vs with
    | some w => { s with claims := s.claims ++ [{ ch := 14, die := dieOf ((vs.flatMap (·.cores)).headD 0), node := n.key, won := false, rival := some w }] }
    | none => if vs.isEmpty then s else if s.input.ok || contested s n vs then enterCollector s n vs else stopVictims t vs

/-- The claim of a candidate that needs no victims any more, once its round is over. -/
def dropClaim (s : State) (key : Nat) : State :=
  { s with claims := s.claims.filter (fun c => !(c.ch = 14 && c.node = key && (c.won || c.rival.isSome))) }

/-- PREEMPT_CHOICE for node `Input.node`: its victims' cores get a stop request. -/
def execPreemptChoice (s : State) : Result :=
  match s.node? s.input.node with
  | none => .next s
  | some n =>
    let due := match n.stuck with | some t => decide (t + preemptCycles ≤ s.clock) | none => false
    if n.state != .ready || n.record.kind != 0 || !due || (placeNow s n).isSome then .next (dropClaim s n.key)
    else .next (takeVictims s n)

/-! ### The stop (R280, R281) -/

/-- Nothing of the core is under way outside its image: accesses, chunks of a copy, network threads, entries whose window has closed. -/
def drained (c : Core) : Bool :=
  c.accs.isEmpty && c.ni.isEmpty && c.copyQ.all (fun j => j.chunks.isEmpty) && (List.range 11).all (fun k => (c.context k).ctPending = 0)

/-- The offload engine still works on entries or replays of the core (R62, R63). -/
def offloading (s : State) (core : Nat) : Bool :=
  s.parts.any (fun e => e.2.offload.toList.any (fun o =>
    o.entries.any (fun x => x.core = core && !x.done) || o.replays.any (fun r => r.core = core)))

/-- Every class but the offload engine's has stopped at its unit, or has ended where it is not stopped, as a collective with its thread
(R279). -/
def coreStopped (s : State) (core : Nat) : Bool :=
  drained (s.core core) && [Engine.matrix, .vector, .copy].all (fun e => (runningJob s core e).isNone)

/-- The core is ready to acknowledge. -/
def classesStopped (s : State) (core : Nat) : Bool := coreStopped s core && !offloading s core

/-- A fault has met the core since the collector stopped it: one of its contexts, or its promise job. -/
def faulted (c : Core) : Bool := c.ctx.toList.any (·.stopped) || c.matQ.any (fun j => j.prom.isSome && j.failed.isSome)

/-- The collection is abandoned: cores already stopped resume, but for one that a fault has met (R281). -/
def abandon (s : State) (n : Node) : State :=
  let s := n.cores.foldl (fun s i =>
    let s := s.modCore i (fun c => { c with stopping := false, saved := false })
    if n.begun.contains i && !faulted (s.core i) then resumeCore s i else s) s
  s.modNode n.key (fun m => { m with begun := [], acked := [], area := none })

/-- Issue freezes and the engines stop. -/
def stopForCollector (s : State) (core : Nat) (n : Node) : State :=
  (stopCore (traceTiming s core 0xf 8) core true).modNode n.key (fun m => { m with begun := m.begun ++ [core] })

/-- The core's image goes to its place in the node's area. -/
def saveForCollector (s : State) (core : Nat) (n : Node) : State :=
  let s := match n.area with
    | some x => storeImage s core (x.1 + (s.core core).rank.toNat * imageLength) false
    | none => s
  s.modCore core (fun c => { c with saved := true })

/-- COLLECTOR_STOP of core `Input.core`: a fault that met a core of the node first ends the collection (R281). Else its stop, then its first acknowledgement once every class has stopped, then, once all
cores of the node have given theirs, its save, which is its second. -/
def execCollectorStop (s : State) : Result :=
  let core := s.input.core
  let c := s.core core
  match c.node.bind s.node? with
  | none => .next s
  | some n =>
    if !c.stopping then .next s
    else if n.begun.any (fun i => faulted (s.core i)) then .next (abandon s n)
    else if !n.begun.contains core then
      .next (if c.issue = .running then stopForCollector s core n else abandon s n)
    else if !n.acked.contains core then
      .next (if classesStopped s core then s.modNode n.key (fun m => { m with acked := m.acked ++ [core] }) else s)
    else if c.saved || !n.cores.all (fun i => n.acked.contains i && classesStopped s i) then .next s
    else .next (saveForCollector s core n)

/-! ### Suspension (R152, R280) -/

/-- The node is SUSPENDED with an image of every core, and its cores are free. -/
def suspendNode (s : State) (n : Node) : State :=
  let imgs := n.cores.map (saveImage s)
  let steps := saveSteps s n.cores
  let s := leftCores s n
  let s := s.modNode n.key (fun m => { m with state := .suspended, images := imgs, steps := steps, begun := [], acked := [], cores := [] })
  let s := n.cores.foldl (fun s i => s.modCore i Core.cleared) s
  (appear (freeCores s n.key n.part n.cores) n.part n.level).oweSelect

def execNodeSuspend (s : State) : Result :=
  match s.node? s.input.node with
  | none => .next s
  | some n =>
    if n.state = .running && n.record.kind = 0 && !n.cores.isEmpty && n.cores.all (fun i => (s.core i).saved) then .next (suspendNode s n)
    else .next s

end Sys2Proof.Machine
end

