-- ==== Sys2Proof/Machine/Perform.lean ====
section
/-! DEFINITION. PERFORM (spec/10_ordering.md R212, R218): the next unit of whatever waits under a key. -/
namespace Sys2Proof.Machine

/-- The next unit of a running engine job. -/
def performJob (s : State) (core id : Nat) : Option State :=
  ([Engine.vector, .matrix, .copy].findSome? (fun e =>
    match runningJob s core e with | some j => if j.id = id then some (engineUnit s core e j s.input.amount).1 else none | none => none))

/-- The next unit of a network-interface thread. -/
def performThread (s : State) (core id : Nat) : Option State :=
  match (s.core core).ni.find? (fun t => t.id = id) with
  | some t => if niReady s core t then some (niUnit s core t s.input.amount).1 else none
  | none => none

/-- The next unit of a running copy or base-die node. -/
def performNode (s : State) (key : Nat) : Option State := (s.node? key).map (fun n => nodeUnit s n s.input.amount)

/-- A router merges two additions: the entry `Input.key` of `Input.core`, and entry `Input.entry` of core `Input.node`. -/
def mergeMove (s : State) (core : Nat) (e : Access) : State :=
  match findAccess s s.input.node s.input.entry with
  | some e' => if mayMerge s core e s.input.node e' then mergeRequests s core e s.input.node e' else s
  | none => s

/-- PERFORM(a): an access of a context, of an engine thread, of a network-interface thread, or of a node's job (R212, R218). -/
def execPerform (s : State) : Result :=
  let core := s.input.core
  let key := s.input.key
  match findAccess s core key with
  | some e => .next (if s.input.ok then mergeMove s core e else performAccess s core e)
  | none => .next ((((performJob s core key).or (performThread s core key)).or (performNode s key)).getD s)

end Sys2Proof.Machine
end

