-- ==== Sys2Proof/Machine/Firmware.lean ====
section
/-! DEFINITION. What the firmware cores serve: the requests of the management and supervisor mailboxes (spec/04_trust.md R66 to
R72, R79 to R82, R86; spec/09_memory.md R192, R193, R207, R419; spec/02_fabric.md R28, R29; spec/22_prog_handoff.md R412). -/
namespace Sys2Proof.Machine

/-! ### Messages between firmware cores (R67) -/

/-- A queue of 16 messages for each ordered pair of cores: the sender's message enters, or with `Input.ok` the receiver takes
the oldest. A sender that finds the queue full stalls. -/
def execFwMailboxMessage (s : State) : Result :=
  let i := s.input
  let k := 8 * i.src + i.dst
  let q := tget s.fwQ k []
  if 8 ≤ i.dst then .next s
  else if i.ok then .next { s with fwQ := if q.length ≤ 1 then tdel s.fwQ k else tput s.fwQ k (q.drop 1) }
  else .next (if q.length < 16 then { s with fwQ := tput s.fwQ k (q ++ [i.msg]) } else s)

/-! ### Serving a request (R69 to R71) -/

/-- What serving a request gives: the state, the status and the bytes returned. -/
structure Reply where
  state : State
  status : Nat
  resp : List Byte
  deriving DecidableEq, Repr

def refuse (s : State) (status : Nat) : Reply := { state := s, status := status, resp := [] }
def granted (s : State) : Reply := { state := s, status := 0, resp := [] }

/-- The place of a mailbox in fw0's round: the management mailbox, then the supervisor mailboxes (R72). -/
def mailPlace : MailBox → Nat | .management => 0 | .supervisor p => p + 1

/-- The request that fw0 has taken from a mailbox. -/
def State.taken (s : State) (b : MailBox) : List Byte := Memory.reads (s.mailbox b).taken 0 256

/-- A frame is reused only after its unmap has completed. -/
def frameLeaving (s : State) (a : DWord) : Bool := s.unmaps.any (fun u => framesMeet a u.page.attr)

def rectOf (v : Nat) : Rect where
  die := bits v 0 2
  row := bits v 8 8
  col := bits v 16 8
  rows := bits v 24 8
  cols := bits v 32 8

/-- The rectangles that a PART_CREATE names (R70). -/
def createRects (bs : List Byte) : List Rect := (List.range (min 16 (recField bs 0x20 1))).map (fun r => rectOf (recField bs (0x28 + 8 * r) 8))

/-- A PART_CREATE names a die whose authentication has not ended (R78). -/
def createUnproven (s : State) (bs : List Byte) : Bool :=
  s.boot.authWait.any (fun d => (createRects bs).any (fun r => r.die = d) || groupDie (BitVec.ofNat 64 (recField bs 0x18 8)) d)

/-- The sentinel holds writes for a partition that has still to wake: they are performed before it is destroyed (R99, R102). -/
def wakeOwed (s : State) (p : Nat) : Bool :=
  ((s.part p).dmState = .dormant || (s.part p).dmState = .waking) && s.held.any (fun h => h.1 = p)

/-- A request waits in a mailbox that can be served now: not an unmap under way, nor a MAP of a frame that is being unmapped, nor a
PART_CREATE before the dies that it names have proved themselves or failed (R19; DESIGN CHOICE, log 25), nor a PART_DESTROY before the wake
that performs held writes (DEDUCED, log 61). -/
def servable (s : State) (b : MailBox) : Bool :=
  (s.mailbox b).busy && !(s.unmaps.any (fun u => u.mb = some b)) &&
  (match recField (s.taken b) 0 2 with
   | 1 => !createUnproven s (s.taken b)
   | 2 => !wakeOwed s (recField (s.taken b) 2 1 % 64)
   | 0x10 => !frameLeaving s (b64 (recField (s.taken b) 0x10 8))
   | _ => true)

/-- fw0 serves the mailboxes in turn, from the one after that served last (R72); one that cannot be served now is passed over. -/
def mailTurn (s : State) (b : MailBox) : Bool :=
  let rank := fun (b : MailBox) => (mailPlace b + 65 - (s.lastMail + 1)) % 65
  servable s b &&
  (MailBox.management :: s.supMail.map (fun e => MailBox.supervisor e.1)).all (fun x => !servable s x || rank b ≤ rank x)

/-- The bytes of a request with this code whose turn it is. -/
def waitingRequest (s : State) (b : MailBox) (code : Nat) : Option (List Byte) :=
  if mailTurn s b && recField (s.taken b) 0 2 = code then some (s.taken b) else none

def answer (s : State) (b : MailBox) (r : Reply) : State :=
  { r.state.setMailbox b ((s.mailbox b).answer r.status (bytesAt 0 r.resp)) with lastMail := mailPlace b }

/-- A partition for which requests are served: for a LOST one only PART_DESTROY is (R102). -/
def Partition.served (q : Partition) : Bool := q.present && q.dmState != .lost

def serve (s : State) (code : Nat) (f : List Byte → Reply) : Result :=
  match waitingRequest s s.input.mailbox code with
  | some bs => .next (answer s s.input.mailbox (f bs))
  | none => .next s

/-- Bits of a request that no field names: a field is its offset and the mask of its bits (R70). -/
def namedMask (l : List (Nat × Nat)) : Nat := l.foldl (fun m f => m ||| (f.2 * 2 ^ (8 * f.1))) 0xffff
def onlyNamed (bs : List Byte) (l : List (Nat × Nat)) : Bool := (leNat bs ||| namedMask l) = namedMask l

def ones (n : Nat) : Nat := 2 ^ n - 1

/-! ### PART_CREATE (R70, R71, R79, R116) -/

def Rect.bad (r : Rect) : Bool := r.rows = 0 || r.cols = 0 || 24 < r.row + r.rows || 32 < r.col + r.cols

def createFields : List (Nat × Nat) :=
  [(2, ones 6), (3, ones 4), (4, ones 12), (6, ones 14), (8, ones 32), (0x10, ones 48), (0x18, ones 64), (0x20, ones 8)] ++
  (List.range 16).map (fun r => (0x28 + 8 * r, 0xffffffff03))

def rectsMeet (a b : Rect) : Bool :=
  a.die = b.die && decide (a.row < b.row + b.rows) && decide (b.row < a.row + a.rows) && decide (a.col < b.col + b.cols) &&
  decide (b.col < a.col + a.cols)

/-- The operands are refused (BADREQ). -/
def createBad (bs : List Byte) (rects : List Rect) (sup : Nat) : Bool :=
  let n := recField bs 0x20 1
  !onlyNamed bs createFields || n = 0 || 16 < n || rangeSet bs (0x28 + 8 * n) (8 * (16 - n)) || rects.any Rect.bad ||
  !rects.any (fun r => r.holds sup)

def othersPresent (s : State) (p : Nat) : List Partition := (s.parts.filter (fun e => e.2.present && e.1 != p)).map (·.2)

/-- The number, a core or a channel group is taken (INUSE). -/
def createTaken (s : State) (p : Nat) (rects : List Rect) (groups : BitVec 64) (secret : Bool) : Bool :=
  (s.part p).present || (othersPresent s p).any (fun q => q.rects.any (fun a => rects.any (rectsMeet a)) ||
    (q.groups &&& groups != 0 && (secret || q.sealed)))

/-- A core or a channel group of an excluded die (DIEABSENT). -/
def createAbsent (s : State) (rects : List Rect) (groups : BitVec 64) : Bool :=
  (List.range 4).any (fun d => s.dieExcluded d && (rects.any (fun r => r.die = d) || groupDie groups d))

/-- The free channels among those asked for: granted to no one, not failed, with no round under way. -/
def freeChannels (s : State) (mask : Nat) : Nat :=
  ((List.range 14).map (fun ch =>
    if mask.testBit ch && (s.chan ch).free then 2 ^ ch else 0)).sum

def grantChannels (s : State) (p mask : Nat) : State :=
  (List.range 14).foldl (fun s ch => if mask.testBit ch then s.modChan ch (fun c => { c with grant := some p }) else s) s

/-- The X25519 private value of a partition key (R79). -/
def importSecret (k : Nat) : List Byte := natBytes 32 (Config.importSecret k).toNat

/-- The new partition. -/
def newPartition (now : Nat) (bs : List Byte) (rects : List Rect) (chmask : Nat) (key : Option Nat) : Partition :=
  let f := fun off n => recField bs off n
  { Partition.absent with
    present := true
    sealed := (f 3 1).testBit 0
    det := (f 3 1).testBit 1
    wakeClass := BitVec.ofNat 2 (f 3 1 / 4)
    supervisor := f 4 2
    rects := rects
    groups := BitVec.ofNat 64 (f 0x18 8)
    chmask := BitVec.ofNat 16 chmask
    quota := BitVec.ofNat 32 (f 8 4)
    ceiling := BitVec.ofNat 48 (f 0x10 6)
    account := f 0x10 6
    updatedAt := now
    key := key
    pubKey := (match key with | some k => x25519Public (importSecret k) | none => []) }

def partCreate (s : State) (bs : List Byte) : Reply :=
  let f := fun off n => recField bs off n
  let p := f 2 1 % 64
  let rects := createRects bs
  let groups : BitVec 64 := BitVec.ofNat 64 (f 0x18 8)
  let secret := (f 3 1).testBit 0
  if createBad bs rects (f 4 2) then refuse s 1
  else if createTaken s p rects groups secret then refuse s 14
  else if createAbsent s rects groups then refuse s 15
  else
    let mask := freeChannels s (f 6 2)
    let (k, s1) := s.freshKey
    let q := reserveArea s (newPartition s.clock bs rects mask (if secret then some k else none))
    let s := grantChannels (if secret then s1 else s) p mask
    { state := settleRails { s with parts := tput s.parts p q, supMail := tdel s.supMail p }, status := 0, resp := natBytes 2 mask }

def execPartCreate (s : State) : Result := serve s 1 (partCreate s)

def fixedFrom : Nat := 0x00fffd0000000000

/-! ### MAP and UNMAP (R207, R419) -/

def mapStatus (s : State) (bs : List Byte) : Nat :=
  let p := recField bs 2 1 % 64
  let va := recField bs 8 8
  let a := b64 (recField bs 0x10 8)
  let q := s.part p
  if !q.served then 13
  else if !onlyNamed bs [(2, ones 6), (8, ones 56), (0x10, ones 64)] then 1
  else if attrBad a p then 10
  else if va % pageSize a != 0 then 1
  else if va < 0x1000000 then 9
  else if fixedFrom < va + pageSize a then 20
  else if frameAbsent s a then 15
  else if frameDenied q a then 19
  else if spreadDenied q a then 8
  else if frameAliased s a then 7
  else if rangeMapped q va (pageSize a) then 18
  else 0

/-- The frames that a partition has mapped since it was created (R81), as attribute words. -/
def noteFrame (l : List DWord) (a : DWord) : List DWord := if l.contains a then l else a :: l

/-- The mapping is installed; a counter page is zeroed (R203). -/
def installPage (s : State) (p : Nat) (g : Page) : State :=
  let s := s.modPart p (fun q => { q with pages := q.pages ++ [g], mapped := noteFrame q.mapped g.attr })
  if pageCounter g.attr then scrub s (inPage g) else s

def mapPage (s : State) (bs : List Byte) : Reply :=
  let p := recField bs 2 1 % 64
  let a := b64 (recField bs 0x10 8)
  match mapStatus s bs with
  | 0 => { state := installPage s p { va := recField bs 8 8, attr := a }, status := 0, resp := natBytes 8 a.toNat }
  | st => refuse s st

def execMapPage (s : State) : Result :=
  match waitingRequest s s.input.mailbox 0x10 with
  | some bs => .next (answer s s.input.mailbox (mapPage s bs))
  | none => .next s

/-- The entry is removed; the request is answered when the unmap has completed. -/
def startUnmap (s : State) (mb : Option MailBox) (p : Nat) (g : Page) : State :=
  let u : Unmapping := { mb := mb, part := p, page := g }
  let s : State := { s with
    unmaps := s.unmaps ++ [u]
    lastMail := (match mb with | some b => mailPlace b | none => s.lastMail) }
  s.modPart p (fun q => { q with pages := q.pages.erase g })

def execUnmapPage (s : State) : Result :=
  let b := s.input.mailbox
  match waitingRequest s b 0x11 with
  | none => .next s
  | some bs =>
    let p := recField bs 2 1 % 64
    let va := recField bs 8 8
    if !(s.part p).served then .next (answer s b (refuse s 13))
    else if !onlyNamed bs [(2, ones 6), (8, ones 56)] then .next (answer s b (refuse s 1))
    else if fixedFrom ≤ va then .next (answer s b (refuse s 20))
    else match pageAt (s.part p).pages va with
      | none => .next (answer s b (refuse s 12))
      | some g => .next (startUnmap s (some b) p g)

/-- A place on a page. -/
def onPage (g : Page) : Place → Bool | .phys pa => inPage g pa | _ => false

/-- A chunk under way touches a page. -/
def Chunk.touches (g : Page) (c : Chunk) : Bool := onPage g c.src || onPage g c.dst

/-- The three conditions of R228: accesses of contexts and of engine threads, those of the offload engine among them, messages, copies. A plain `cwait` has made its last
read, and its next request translates again (log 38). -/
def unmapDrained (s : State) (g : Page) : Bool :=
  s.cores.all (fun c => c.2.accs.all (fun e => e.isWait || !onPage g e.place) &&
    c.2.copyQ.all (fun j => !j.chunks.any (Chunk.touches g)) && c.2.ni.all (fun t => !t.chunks.any (Chunk.touches g))) &&
  s.nodes.all (fun n => match n.job with | some j => !j.chunks.any (Chunk.touches g) | none => true) &&
  s.parts.all (fun e => e.2.offload.toList.all (fun o =>
    o.entries.all (fun x => !x.work.chunks.any (Chunk.touches g)) && o.replays.all (fun r => !r.work.chunks.any (Chunk.touches g)))) &&
  s.paths.all (fun p => p.2.all (fun w => !inPage g w.line)) &&
  (List.range 4).all (fun d => (s.die d).holding.all (fun h => !inPage g h.line))

/-- Pending waits on an unmapped page leave their wait table (R205): nothing is performed through the old entry afterwards (R228). -/
def dropWaits (s : State) (p : Nat) (g : Page) : State :=
  s.cores.foldl (fun s c => (List.range 11).foldl (fun s k =>
    match (s.ctx c.1 k).cwait with
    | some w =>
      if (s.core c.1).part = some p && g.va ≤ w.addr.toNat && decide (w.addr.toNat < g.va + pageSize g.attr) then
        (withdrawWaits s c.1 k).modCtx c.1 k (fun x => { x with cwait := some { w with ticket := none, parked := false } })
      else s
    | none => s) s) s

/-- UNMAP_DONE of the oldest unmap of partition `Input.part` for a mailbox. -/
def execUnmapDone (s : State) : Result :=
  match s.unmaps.find? (fun u => u.part = s.input.part && u.mb.isSome) with
  | none => .next s
  | some u =>
    if !unmapDrained s u.page then .next s
    else
      let s := dropWaits { s with unmaps := s.unmaps.erase u } u.part u.page
      .next (match u.mb with | some b => answer s b (granted s) | none => s)

/-! ### PART_DESTROY (R71, R81, R117) -/

/-- Every node of a partition is gone, its running gangs cleared, and its functions are as after reset. -/
def dropNodes (s : State) (p : Nat) : State :=
  let mine := s.nodes.filter (fun n => n.part = p)
  let s := (mine.filter (fun n => n.state = .running)).foldl (fun s n =>
    if n.record.kind = 0 then clearGang s n
    else if n.record.kind = 2 then (bdIdle s n.desc true).oweSelect else s) s
  { s with nodes := s.nodes.filter (fun n => n.part != p), vfs := s.vfs.filter (fun e => e.1 / 16 != p) }

/-- A grant ends: entries whose window has not closed resolve CANCELLED, and a window that is open runs its round, so that
the channel is free only after it (R109, R117). -/
def endGrants (s : State) (p : Nat) : State :=
  (List.range 16).foldl (fun s ch =>
    if (s.chan ch).grant = some p then
      (cancelIf s (fun _ => true) false ch).modChan ch (fun c => { c with grant := none })
    else s) s

/-- Storage that the partition leaves and that is scrubbed: groups no other partition holds, and every frame that it has ever
mapped. R81 asks for the latter before fw2 maps such a frame again: that it is done at PART_DESTROY, also where another
partition maps the frame, is the model's choice (DESIGN CHOICE, log 62). -/
def leaves (s : State) (p : Nat) (pa : Nat) : Bool :=
  match paKind pa with
  | .home d o =>
    (holdsGroup (s.part p) d (groupOf o) && !(othersPresent s p).any (fun q => holdsGroup q d (groupOf o))) ||
    (s.part p).mapped.any (fun a => inPage { va := 0, attr := a } pa)
  | _ => false

/-- A core leaves its partition; what is lasting in it stays. -/
def orphan (s : State) (i : Nat) : State :=
  s.modCore i (fun c => { Core.reset with
    im := c.im
    lm := c.lm
    withdrawn := c.withdrawn
    lasting := c.lasting })

def partDestroy (s : State) (bs : List Byte) : Reply :=
  let p := recField bs 2 1 % 64
  let q := s.part p
  if !onlyNamed bs [(2, ones 6)] then refuse s 1
  else if !q.present then refuse s 13
  else
    let s : State := endGrants (dropNodes s p) p
    let gone := leaves s p
    let s : State := { s with
      paths := (s.paths.map (fun e => (e.1, e.2.filter (fun w => !gone w.line)))).filter (fun e => !e.2.isEmpty)
      dies := s.dies.map (fun d => { d with holding := d.holding.filter (fun h => !gone h.line) })
      unmaps := s.unmaps.filter (fun u => u.part != p)
      held := s.held.filter (fun h => h.1 != p)
      supMail := tdel s.supMail p }
    let s := ((s.cores.map (·.1)).filter q.holdsCore).foldl orphan (scrub s gone)
    granted (settleRails (breakAbsent { s with parts := tdel s.parts p }))

def execPartDestroy (s : State) : Result := serve s 2 (partDestroy s)

/-! ### GROUP_SET (R28, R29) -/

def memberOf (b : List Byte) : Member where
  va := recField b 0 8
  pkg := recField b 8 2
  part := recField b 10 1
  ctx := recField b 11 1
  core := recField b 12 2

def Member.reserved (m : Member) (b : List Byte) : Bool :=
  2 ^ 56 ≤ m.va || 4095 < m.pkg || 63 < m.part || 15 < m.ctx || 4095 < m.core || recField b 14 2 != 0

/-- The header is refused. -/
def groupBad (h : List Byte) : Bool :=
  let f := fun off n => recField h off n
  4095 < f 0 2 || f 2 2 = 0 || 1024 < f 2 2 || 2 < f 4 1 || 3 < f 5 1 || rangeSet h 0x10 48

/-- The root is a switch that reaches every member: one outside this package only while a port towards it is up; what this package cannot know
of the fabric's tree, fw6 learns as `Input.ok` (log 63). -/
def rootReaches (s : State) (root : Nat) (ms : List Member) : Bool :=
  decide (root < 0x2000) && (root = s.pkgId.toNat || (reachable s root && s.input.ok)) &&
  ms.all (fun m => m.pkg = s.pkgId.toNat || (reachable s m.pkg && s.input.ok))

/-- A member of a sealed partition where not all are of that one partition under its package's own switch. Whether a member
partition of another package is sealed comes as `Input.foreignSealed` (log 63). -/
def groupSealed (s : State) (root : Nat) (ms : List Member) : Bool :=
  ms.any (fun m => (if m.pkg = s.pkgId.toNat then (s.part m.part).sealed else s.input.foreignSealed) &&
    !(root = m.pkg && ms.all (fun x => x.pkg = m.pkg && x.part = m.part)))

def installGroup (s : State) (p : Nat) (h : List Byte) (es : List (List Byte)) : Reply :=
  let ms := es.map memberOf
  let gid := recField h 0 2
  let gen := b64 (recField h 8 8)
  let root := recField h 6 2
  if groupBad h || es.any (fun b => (memberOf b).reserved b) then refuse s 2
  else if (match tfind s.groups gid with | some g => decide (gen.toNat ≤ g.gen.toNat) | none => false) then refuse s 3
  else if !rootReaches s root ms then refuse s 4
  else if (tfind s.groups gid).isNone && 4096 ≤ s.groups.length then refuse s 5
  else if groupSealed s root ms then refuse s 6
  else
    let g : Group := {
      count := ms.length
      fmt := recField h 4 1
      flags := recField h 5 1
      root := root
      gen := gen
      members := ms
      broken := false
      killed := []
      part := p }
    granted { s with groups := tput s.groups gid g }

/-- GROUP_SET; what it reads of a dormant partition comes by the peek path, whether the request is refused or not (R104). -/
def groupSet (s : State) (bs : List Byte) : Reply :=
  let p := recField bs 2 1 % 64
  let va := recField bs 8 8
  if !onlyNamed bs [(2, ones 6), (8, ones 64)] || va % 64 != 0 then refuse s 1
  else if !(s.part p).served then refuse s 13
  else
    let s := peekRange s p va 64
    match firmwareRead s p va 64 with
    | .error _ => refuse s 12
    | .ok h =>
      if groupBad h then refuse s 2
      else
        let s := peekRange s p (va + 64) (16 * recField h 2 2)
        match firmwareRead s p (va + 64) (16 * recField h 2 2) with
        | .error _ => refuse s 12
        | .ok b =>
        installGroup s p h
          ((List.range (recField h 2 2)).map (fun i => (b.drop (16 * i)).take 16))

def execGroupSet (s : State) : Result := serve s 3 (groupSet s)

/-! ### ATTEST and KEY_IMPORT (R79, R80, R82) -/

def identitySeed : List Byte := natBytes 32 Config.identitySeed.toNat
/-- The DX Ed25519 identity public key (R76 IDKEY, R82). -/
def identityKey : List Byte := ed25519Public identitySeed

/-- The firmware image that runs. -/
def runningImage (b : BootState) : List Byte := if b.running = some 1 then b.slotB else b.slotA

/-- The report before its signature (R82). What counts as trace on is not said there: any of TRCTL[2:0] set, and the stop mode of TRCTL[3] does
not count (DESIGN CHOICE, log 20). -/
def reportHead (s : State) (p : Nat) (nonce : List Byte) : List Byte :=
  let q := s.part p
  let img := runningImage s.boot
  let flag := fun (b : Bool) (n : Nat) => if b then n else 0
  natBytes 4 0x4c534154 ++ natBytes 4 1 ++ padTo 32 nonce ++ identityKey ++
  natBytes 4 (match s.boot.running with | some k => k.toNat | none => 0) ++ natBytes 4 (recField img 4 4) ++
  sha512 (img.drop 256) ++
  (List.range 4).map (fun d => (s.die d).excluded.setWidth 8) ++
  natBytes 4 (flag q.present 1 + flag q.sealed 2 + flag q.det 4 + flag (q.trctl &&& 7 != 0) 8 + 16 * p) ++
  padTo 32 q.pubKey ++ List.replicate 264 0

def attest (s : State) (bs : List Byte) : Reply :=
  let p := recField bs 2 1 % 64
  let nonce := (bs.drop 8).take 32
  if !onlyNamed bs [(2, ones 6), (8, ones 256)] then refuse s 1
  else if !(s.part p).served then refuse s 13
  else
    let h := reportHead s p nonce
    { state := s.modPart p (fun q => { q with salt := some nonce })
      status := 0
      resp := h ++ ed25519Sign identitySeed h }

def execAttest (s : State) : Result := serve s 4 (attest s)

/-- The info string "lorsor-import" (R80). -/
def importInfo : List Byte := [0x6c, 0x6f, 0x72, 0x73, 0x6f, 0x72, 0x2d, 0x69, 0x6d, 0x70, 0x6f, 0x72, 0x74]

/-- R80 steps 1 to 3: the blob is a 12-byte IV, the ciphertext and a 16-byte tag. -/
def importOpen (k : Nat) (owner salt blob : List Byte) : Option (List Byte) :=
  let n := blob.length - 28
  gcmOpen (hkdf salt (x25519 (importSecret k) owner) importInfo) (blob.take 12) ((blob.drop 12).take n) (blob.drop (12 + n))

def keyImport (s : State) (bs : List Byte) : Reply :=
  let p := recField bs 2 1 % 64
  let q := s.part p
  let len := recField bs 0x30 4
  if !onlyNamed bs [(2, ones 6), (8, ones 256), (0x28, ones 64), (0x30, ones 32), (0x38, ones 64)] || len < 29 || 16777216 < len then refuse s 1
  else if !q.served then refuse s 13
  else match q.key, q.salt with
    | none, _ => refuse s 1
    | some _, none => refuse s 16
    | some k, some salt =>
      let s := peekRange s p (recField bs 0x28 8) len
      match vread s p (recField bs 0x28 8) len with
      | .error _ => refuse s 12
      | .ok blob =>
        match importOpen k ((bs.drop 8).take 32) salt blob with
        | none => refuse s 11
        | some plain => (match vwrite s p (recField bs 0x38 8) plain with | .ok s => granted s | .error _ => refuse s 12)

def execKeyImport (s : State) : Result := serve s 5 (keyImport s)

/-! ### TRACE_SET and INSPECT (R86, R412) -/

def traceSet (s : State) (bs : List Byte) : Reply :=
  let p := recField bs 2 1 % 64
  let w := fun off => BitVec.ofNat 64 (recField bs off 8)
  if !onlyNamed bs [(2, ones 6), (8, ones 4), (0x10, ones 56 - ones 12), (0x18, ones 32)] then refuse s 1
  else if !(s.part p).served then refuse s 13
  else granted (s.modPart p (fun q => { q with trctl := w 8, trbase := w 0x10, trsize := w 0x18 }))

def execTraceSet (s : State) : Result := serve s 6 (traceSet s)

/-- Where the line asked for lies, with its page's attributes. -/
def inspectPlace (s : State) (p va : Nat) : Option (DWord × Place) :=
  match fixedPage s p va with
  | some (a, pl) => some (a, pl)
  | none => ((s.part p).page? va).map (fun g => (g.attr, Place.phys (canon (pageFrame g.attr + (va - g.va)))))

/-- The line lies on an excluded die (R19). INSPECT of one, or of a holding copy of one, is answered with 15 DIEABSENT: R71 and R412 name no status
for it (DESIGN CHOICE, log 79). -/
def inspectAbsent (s : State) : Place → Bool
  | .phys pa => s.absent pa
  | .sched p _ => s.dieExcluded (dieOf (s.part p).supervisor)
  | .window i _ => s.dieExcluded (dieOf i)
  | _ => false

/-- The line asked for: its bytes, its mask, and whether it is present. -/
def inspectLine (s : State) (a : DWord) (pl : Place) (die : Nat) (home : Bool) : List Byte × BitVec 128 × Bool :=
  let none' := (List.replicate 128 (0 : Byte), (0 : BitVec 128), false)
  if home then (readPlace s pl 128, 0, true)
  else match heldLine die (pageHandoff a) pl with
    | none => none'
    | some l => (match (s.die die).copy? l with | some h => (h.bytes, h.mask, true) | none => none')

def inspect (s : State) (bs : List Byte) : Reply :=
  let p := recField bs 2 1 % 64
  let sel := recField bs 3 1
  if !onlyNamed bs [(2, ones 6), (3, ones 3), (8, ones 56 - ones 7)] then refuse s 1
  else if !(s.part p).served then refuse s 13
  else if (s.part p).sealed then refuse s 6
  else match inspectPlace s p (recField bs 8 8) with
    | none => refuse s 12
    | some (a, pl) =>
      if inspectAbsent s pl then refuse s 15
      else
        let (b, m, here) := inspectLine s a pl (sel % 4) (sel.testBit 2)
        { state := if sel.testBit 2 then peekRange s p (recField bs 8 8) 128 else s
          status := 0
          resp := b ++ natBytes 16 m.toNat ++ [if here then 1 else 0] }

def execInspect (s : State) : Result := serve s 7 (inspect s)

end Sys2Proof.Machine
end

