-- ==== Sys2Proof/Machine/Errors.lean ====
section
/-! DEFINITION. Transient and lasting errors, poison at the home, withdrawal of a core and retirement of a frame (R208,
R286, R287). -/
namespace Sys2Proof.Machine

/-- One second of the CLOCK. -/
def errorWindow : Nat := 1000000 * cyclesPerUs

def frameOf (pa : Nat) : Nat := canon pa / 0x40000
def isHbm (pa : Nat) : Bool := (homeDie pa).isSome

def markLasting (s : State) (f : Nat) : State :=
  { s with badFrames := if s.badFrames.contains f then s.badFrames else f :: s.badFrames }

/-- A lasting core is withdrawn when its node completes or is suspended, or at once where it has none (R287): then gangs may become
unplaceable, for now or for good (R140, R150). -/
def lastingCore (s : State) (i : Nat) : State :=
  let s := s.modCore i (fun c => { c with
    lasting := true
    withdrawn := c.withdrawn || c.node.isNone })
  match s.partOf i with
  | some p => if (s.core i).withdrawn then restick (retestPlaces s p) p else s
  | none => s

/-- A line is poisoned at its home (R208). -/
def poisonLine (s : State) (pa : Nat) : State :=
  let l := lineOf (canon pa)
  { s with poison := if s.poison.contains l then s.poison else l :: s.poison }

/-- The promise job that runs on a core: its engine runs, or it goes on although the engine is stopped (R264). -/
def runningPromise (s : State) (i : Nat) : Option RecJob := (runningJob s i .matrix).bind Job.prom

/-- The running promise job stops where the fault has met it: the tiles already done stay, NEXTT marks the first not done (R265). -/
def failPromise (c : Core) (r : RecJob) (f : Flt) : Core :=
  let c := match c.matQ with | j :: q => { c with matQ := { j with failed := some f, prom := some { r with ready := false } } :: q } | [] => c
  stopRecord c r.slot

/-- The node whose collection has stopped the core and has not its first acknowledgement yet: a fault of the core abandons it (R281). -/
def collecting (s : State) (i : Nat) : Option Node :=
  (s.core i).node.bind s.node? |>.filter (fun n => (s.core i).stopping && n.begun.contains i && !n.acked.contains i)

/-- POISON, CORE of a core that has not stopped issue and engines both, or is not yet acknowledged to a collection; one that has raises no
fault (R269, R281). -/
def coreFault (s : State) (i : Nat) : State :=
  match collecting s i with
  | some n => abandon (takeSlotFault s i 0xf 0 0 (flt 6 2) 0) { n with begun := n.begun.filter (· != i) }
  | none => if (s.core i).issue = .frozen && (s.core i).engStopped then s else takeSlotFault s i 0xf 0 0 (flt 6 2) 0

/-- An uncorrectable error inside a core: lasting at once, and the core freezes with POISON, CORE. Where it meets an operand
tile of the running promise job, as `Input.ok` says, the packet names the job's slot in place of a PC (R265). -/
def coreError (s : State) (i : Nat) : State :=
  let s := lastingCore s i
  match (if s.input.ok then runningPromise s i else none) with
  | some r => takeSlotFault (s.modCore i (fun c => failPromise c r (flt 6 2))) i r.ctx 2 r.slot (flt 6 2) 0
  | none => coreFault s i

/-- One more error in the window of a structure, which slides over a second; and the errors that it then holds (R286). -/
def countError (s : State) (key : Nat) : State × Nat :=
  let times := s.clock :: (tget s.errCounts key []).filter (fun t => decide (s.clock < t + errorWindow))
  ({ s with errCounts := tput s.errCounts key times }, times.length)

def frameKey (pa : Nat) : Nat := 20000 + frameOf pa

/-- The errors charged to a partition stand beside the windows (R208). -/
def partKey (p : Nat) : Nat := 100000000 + p

/-- The partition named in the PART of the page that holds a line. -/
def linePart (s : State) (pa : Nat) : Option Nat := (s.parts.flatMap (fun e => e.2.pages)).find? (fun g => inPage g (canon pa)) |>.map (fun g => pagePart g.attr)

/-- An error on a line that another context's access evicts (R208): charged to the partition of its page, and counted in the page's window. -/
def victimError (s : State) (pa : Nat) : State :=
  let s := match linePart s pa with | some p => (countError s (partKey p)).1 | none => s
  let (s, n) := countError s (frameKey pa)
  if Config.frameThreshold < n then markLasting s (frameOf pa) else s

/-- UNCORRECTABLE_ERROR. In an L2 slice, `Input.ok` says that the line is a victim of another context's access. -/
def execUncorrectableError (s : State) : Result :=
  let pa := s.input.line
  match s.input.site with
  | .core i => .next (if i < 3072 then coreError s i else s)
  | .slice k => .next (if isHbm pa && homeSlice pa = k then (if s.input.ok then victimError (poisonLine s pa) pa else poisonLine s pa) else s)
  | .line a => .next (if isHbm a then markLasting (poisonLine s a) (frameOf a) else s)

/-- The structure's key in the table of error windows, its threshold, and what a lasting one leads to. -/
def errorKey : ErrSite → Nat | .core i => i | .slice k => 10000 + k | .line a => frameKey a

def errorThreshold : ErrSite → Nat
  | .core _ => Config.coreThreshold
  | .slice _ => Config.sliceThreshold
  | .line _ => Config.frameThreshold

def siteExists : ErrSite → Bool | .core i => decide (i < 3072) | .slice k => decide (k < 192) | .line a => isHbm a

/-- A lasting structure's action; the failing ways of an L2 slice affect time only. -/
def lastingSite (s : State) : ErrSite → State
  | .core i => lastingCore s i
  | .slice _ => s
  | .line a => markLasting s (frameOf a)

/-- CORRECTABLE_ERROR: it is counted over a sliding second; a count above the threshold makes the structure lasting. -/
def execCorrectableError (s : State) : Result :=
  let x := s.input.site
  if !siteExists x then .next s
  else
    let (s, n) := countError s (errorKey x)
    .next (if errorThreshold x < n then lastingSite s x else s)

/-! ### Retirement of a frame -/

/-- The page stands on a lasting frame. -/
def onBadFrame (s : State) (g : Page) : Bool := s.badFrames.any (fun f => framesMeet g.attr (frameAttr f))

/-- The same attributes over another frame. -/
def Page.move (g : Page) (frame : Nat) : Page :=
  { g with attr := b64 (g.attr.toNat - pageFrame g.attr + frame) }

/-- A frame that the page can move to: of the partition's channel groups, mapped nowhere, leaving no other page, sound. -/
def freeFrame (s : State) (p : Nat) (g : Page) : Bool :=
  !attrBad g.attr p && !frameAbsent s g.attr && !frameDenied (s.part p) g.attr && !spreadDenied (s.part p) g.attr &&
  !s.parts.any (fun e => e.2.pages.any (fun h => framesMeet g.attr h.attr)) &&
  !frameLeaving s g.attr && !onBadFrame s g && !onArea s g.attr && (homeDie (pageFrame g.attr)).isSome

/-- The bytes and the poisoned lines of a page are copied to another frame. Of a sealed partition the key engine moves the
page on the partition's behalf: the tweak is the physical address (R79), so that fw2 never holds its plaintext (R74). -/
def copyFrame (s : State) (old new : Page) : State :=
  let target := fun pa => (pageOffset old pa).map (fun o => canon (pageFrame new.attr + o))
  let s := scrub s (inPage new)
  let cells := s.mem.filterMap (fun e => (target e.1).map (fun a => (a, e.2)))
  let lines := s.poison.filterMap target
  { s with
    mem := cells.foldl (fun m e => Memory.write m e.1 e.2) s.mem
    poison := lines ++ s.poison }

/-- The notice of fw2, with the old physical address in INFO. -/
def retireNotice (s : State) (p : Nat) (g : Page) (sub : Nat) : State := nodeNotice s p (flt 14 sub 0 (pageFrame g.attr)) 0

/-- The retirement of a page begins with its unmap; with no free frame the page stays. -/
def retireStart (s : State) (p : Nat) (found : Bool) : State :=
  match pageAt (s.part p).pages s.input.va with
  | none => s
  | some g =>
    if !onBadFrame s g then s
    else if found then startUnmap s none p g
    else retireNotice s p g 23

/-- The unmap has completed: the page is copied, a dormant partition's by the peek path (R104), and mapped again at its address. -/
def retireFinish (s : State) (u : Unmapping) (found : Bool) (frame : Nat) : State :=
  let p := u.part
  let g := u.page
  let t : State := dropWaits { s with unmaps := s.unmaps.erase u } p g
  let back := fun (t : State) (h : Page) => t.modPart p (fun q => { q with pages := q.pages ++ [h], mapped := noteFrame q.mapped h.attr })
  if !unmapDrained s g then s
  else if !found then retireNotice (back t g) p g 23
  else if !freeFrame s p (g.move frame) then s
  else retireNotice (back (copyFrame (peekRange t p g.va (pageSize g.attr)) g (g.move frame)) (g.move frame)) p g 22

/-- FRAME_RETIRE for the page of partition `Input.part` at `Input.va`: `Input.ok` says that fw2 finds a free frame, and
`Input.line` is its address. -/
def execFrameRetire (s : State) : Result :=
  let p := s.input.part
  match s.unmaps.find? (fun u => u.mb.isNone && u.part = p && u.page.va ≤ s.input.va && s.input.va < u.page.va + pageSize u.page.attr) with
  | some u => .next (retireFinish s u s.input.ok s.input.line)
  | none => .next (retireStart s p s.input.ok)

end Sys2Proof.Machine
end

