-- ==== Sys2Proof/Machine/Dormancy.lean ====
section
/-! DEFINITION. Energy accounts, collapse, wake and the peek path (R88 to R106), and the boot log that a failing wake
writes to (R416). -/
namespace Sys2Proof.Machine

/-! ### Energy accounts (R88 to R91) -/

def accountFloor : Int := -(2 ^ 47)

/-- The account after one update. -/
def nextAccount (q : Partition) (metered : Nat) : Int :=
  max accountFloor (min (q.ceiling.toNat : Int) (q.account + q.quota.toNat - metered))

def throttleTrace (s : State) (p code : Nat) : State := trace s p 1 2 0xf 0xfff code

/-- Throttling begins at the first update that leaves the account negative; `restored` is the update that ends it. -/
def throttleTest (s : State) (p : Nat) : State :=
  let q := s.part p
  if q.account < 0 then
    let t := s.modPart p (fun q => { q with
      throttled := true
      restored := none })
    if q.throttled then t else throttleTrace t p 6
  else if q.throttled && q.restored.isNone then s.modPart p (fun q => { q with restored := some s.clock })
  else s

/-- ENERGY_UPDATE of partition `Input.part`: `Input.shares` is what its running nodes' cores and engines metered in this
microsecond, by node, and `Input.amount` everything else that R89 charges to it. -/
def execEnergyUpdate (s : State) : Result :=
  let p := s.input.part
  let l := s.input.shares
  if !(s.part p).present || s.clock < (s.part p).updatedAt + cyclesPerUs then .next s
  else
    let total := s.input.amount + (l.map (·.2)).sum
    let s := l.foldl (fun s e => match s.node? e.1 with
      | some n => if n.part = p && n.state = .running then s.modNode e.1 (fun n => { n with energy := n.energy + e.2 }) else s
      | none => s) s
    let s := s.modPart p (fun q => { q with
      account := nextAccount q total
      updatedAt := q.updatedAt + cyclesPerUs })
    .next (throttleTest s p).oweSelect

def execThrottleEnd (s : State) : Result :=
  let p := s.input.part
  if (s.part p).throttled && (s.part p).restored.isSome then
    .next (throttleTrace (s.modPart p (fun q => { q with
      throttled := false
      restored := none })) p 7)
  else .next s

/-! ### Idleness (R94) -/

def partCores (s : State) (p : Nat) : List Nat := (s.cores.map (·.1)).filter (s.part p).holdsCore

/-- A core has no engine job, no network thread (an in-switch collective is outstanding while its thread is), and every context is halted
or asleep in `recv`. -/
def coreIdle (c : Core) : Bool :=
  c.vecQ.isEmpty && c.matQ.isEmpty && c.copyQ.isEmpty && c.recQ.isEmpty && c.ni.isEmpty &&
  c.ctx.toList.all (fun x => x.status != .live || (match x.sleep with | .recv _ => true | _ => false))

def isIdle (s : State) (p : Nat) : Bool :=
  s.nodes.all (fun n => n.part != p || n.unbound) && (partCores s p).all (fun i => coreIdle (s.core i)) &&
  (s.part p).offload.toList.all (fun o => o.replays.isEmpty && o.entries.all (·.done)) &&
  (List.range 16).all (fun k => (s.vf (16 * p + k)).cp.wait.isEmpty && (s.vf (16 * p + k)).tokenQ.isEmpty)

/-- Since when each partition is idle: looked at whenever the clock advances. -/
def noteIdle (s : State) : State :=
  { s with parts := s.parts.map (fun e => (e.1, { e.2 with
      idleSince := if isIdle s e.1 then some (e.2.idleSince.getD s.clock) else none })) }

/-- The partition has been idle for its dwell time since a moment no earlier than `t0`. -/
def idleFor (s : State) (p t0 : Nat) : Bool :=
  let q := s.part p
  q.dwell != 0 && isIdle s p &&
  (match q.idleSince with | some t => decide (max t t0 + q.dwell.toNat * cyclesPerUs ≤ s.clock) | none => false)

/-- The partition has been idle for its dwell time (R97, reason 1). -/
def dwellMet (s : State) (p : Nat) : Bool := idleFor s p 0

/-- A collapse on idleness is due: after a refused one, a further dwell time has passed (R97). -/
def dwellDue (s : State) (p : Nat) : Bool := idleFor s p ((s.part p).refusedAt.getD 0)

/-! ### Collapse (R95, R97) -/

/-- Reason 1. -/
def sharesActive (s : State) (p : Nat) : Bool :=
  s.parts.any (fun e => e.1 != p && e.2.present && e.2.groups &&& (s.part p).groups != 0 && e.2.dmState = .active && !dwellMet s e.1)

/-- Reason 2. -/
def dieFull (s : State) (p : Nat) : Bool :=
  (s.part p).wakeClass = 0 && (List.range 4).any (fun d => onDie (s.part p) d &&
    decide (8 ≤ (s.parts.filter (fun e => e.2.present && e.2.wakeClass = 0 && onDie e.2 d &&
      (e.2.dmState = .dormant || e.2.dmState = .collapsing))).length))

/-- Reason 3. -/
def frozenByFault (s : State) (p : Nat) : Bool :=
  (partCores s p).any (fun i => (s.core i).issue = .frozen && (match (s.core i).packet with | some k => k.origin != 6 | none => false))

def collapseRefusal (s : State) (p : Nat) : Option Nat :=
  if sharesActive s p then some 1
  else if dieFull s p then some 2
  else if frozenByFault s p then some 3
  else if !isIdle s p then some 4
  else none

/-- Step 1: the collapse begins, or is refused with its reason. -/
def startCollapse (s : State) (p : Nat) (onIdle : Bool) : State :=
  match collapseRefusal s p with
  | some r => s.modPart p (fun q => { q with
      dmReason := BitVec.ofNat 8 r
      refusedAt := if onIdle then some s.clock else q.refusedAt })
  | none => s.modPart p (fun q => { q with dmState := .collapsing })

def execDmCollapse (s : State) : Result :=
  let p := s.input.part
  .next (if (s.part p).present && (s.part p).dmState = .active then startCollapse s p false else s)

def execDwellExpiry (s : State) : Result :=
  let p := s.input.part
  .next (if (s.part p).present && (s.part p).dmState = .active && dwellDue s p then startCollapse s p true else s)

/-- The partition's line. -/
def ownsLine (q : Partition) (l : Nat) : Bool := q.pages.any (fun g => inPage g l)

/-- Step 2: dirty lines of the partition's pages go home, and the copies are dropped. -/
def writeBack (s : State) (p : Nat) : State :=
  let mine := ownsLine (s.part p)
  let s := (List.range 4).foldl (fun s d =>
    (((s.die d).holding.map (·.line)).filter mine).foldl (fun s l => dropLine (flushLine s d l) d l) s) s
  s.paths.foldl (fun s e => applyThrough s e.1 (fun w => mine w.line)) s

/-- Step 3 for one core: waits and contest entries end, and the image is saved. -/
def saveCore (p : Nat) (s : State) (i : Nat) : State :=
  let c := s.core i
  let s := (stopCore s i true).modCore i takePulses
  let img : Core := { s.core i with
    issue := c.issue
    engStopped := c.engStopped }
  let s := match collapseArea (s.part p) i with | some a => storeImage s i a true | none => s
  s.modPart p (fun q => { q with savedCores := tput q.savedCores i img })

/-- A contest entry of the partition takes part in a running round: the save waits for its outcome, as pre-emption does (R106, R123). -/
def inRound (s : State) (p : Nat) : Bool :=
  (List.range 16).any (fun ch => (s.chan ch).round.any (fun e => (s.part p).holdsCore e.core))

/-- A cluster's clocks and PLL may stop: every core of it is unowned or of a dormant partition of class 2 or 3 (R96). -/
def clocksMay (s : State) (core : Nat) : Bool :=
  ((List.range 16).map (coreAt core)).all (fun i =>
    s.parts.all (fun e => !e.2.present || !e.2.holdsCore i || (2 ≤ e.2.wakeClass.toNat && e.2.dmState = .dormant)))

/-- The depth at which a dormant partition sits: its class, or the deepest its neighbours allow (R96). -/
def depthOf (s : State) (p : Nat) : Nat :=
  let q := s.part p
  let cl := q.wakeClass.toNat
  if cl = 3 && (List.range 4).all (fun d => !onDie q d || railsMay s d) then 3
  else if 2 ≤ cl && q.allCores.all (clocksMay s) then 2
  else min cl 1

/-- The interrupt vectors' pending counts are saved for the reads of R100. -/
def saveIrqs (s : State) (p : Nat) : State :=
  { s with vfs := s.vfs.map (fun e => (e.1, if e.1 / 16 = p then
      { e.2 with irq := e.2.irq.map (fun x => { x with shown := BitVec.ofNat 32 x.icpend }) } else e.2)) }

/-- Steps 2 to 6; every core of the partition is saved, also one that has run nothing. -/
def execCollapseComplete (s : State) : Result :=
  let p := s.input.part
  if !(s.part p).present || (s.part p).dmState != .collapsing || inRound s p then .next s
  else
    let s := (s.part p).allCores.foldl (saveCore p) (saveIrqs (writeBack s p) p)
    .next (settleRails (s.modPart p (fun q => { q with
      dmState := .dormant
      collapses := q.collapses + 1
      collapsedAt := s.clock
      peekPages := q.pages })))

/-! ### Wake writes (R98 to R103) -/

/-- DMCMD 2: a wake write that carries no write. -/
def execDmWake (s : State) : Result := .next (wakeRequest s s.input.part)

def execDmtimerExpiry (s : State) : Result :=
  let p := s.input.part
  let q := s.part p
  .next (if q.dmState = .dormant && q.timer != 0 && decide (q.collapsedAt + q.timer.toNat * cyclesPerUs ≤ s.clock) then wakeRequest s p else s)

/-- The answer of a held request reaches what sent it: a fabric atomic of a context, or a piece of a `put` (R98, R331). -/
def requestDone (s : State) (core key : Nat) (r : FabReq) (x : Except Flt (List Byte)) : State :=
  match findAccess s core key with
  | some e => (match x with | .ok bs => atomicAnswer s core e (leNat bs) | .error f => atomicRefused s core e f)
  | none => (match x with | .ok _ => niAnswered s core key r | .error f => niRefused s core key r f)

/-- A held write is performed. -/
def performHeld (s : State) : HeldWrite → State
  | .vfReg vf off v => vfRegWrite s vf off v
  | .fabric r => fabricServed s r
  | .request core key r =>
    (match fabricServe s s.pkgId.toNat r.srcPart r.part r.va r.op [] with
     | .ok x => requestDone x.state core key r (.ok x.bytes)
     | .error f => requestDone s core key r (.error f))
  | .commit op k =>
    (match s.coll? op with
     | some o =>
       (match o.group.members[k]? with
        | some m =>
          memberWrote (writeMember s m.part m.core m.ctx (memberVa o.group m o.e0) (foreignGroup o.group m) o.data) op k
        | none => s)
     | none => s)
  | .member part core ctx va shared bs => writeMember s part core ctx va shared bs
  | .window core off v => windowWrite s core off v
  | .wakeOnly => s

/-- A write that reaches a partition from outside it: the function's registers, a fabric write, a core's window. -/
def outsideWrite (s : State) (p : Nat) : HeldWrite → Bool
  | .vfReg vf _ _ => vf / 16 = p
  | .fabric r => r.part = p && r.srcPkg != s.pkgId.toNat && (fabricPeer s r.srcPkg r.srcPart p r.va).isNone &&
      fabWrites r.op
  | .window core _ _ => (s.part p).holdsCore core && !(s.part p).sealed
  | .wakeOnly => true
  | _ => false

/-- WAKE_WRITE: the sentinel accepts `Input.held` for a partition that is not ACTIVE. -/
def execWakeWrite (s : State) : Result :=
  let p := s.input.part
  let w := s.input.held
  if !(s.part p).present || (s.part p).dmState = .active || !outsideWrite s p w then .next s
  else if w = .wakeOnly then .next (wakeRequest s p)
  else .next (writeOrHold s p w (fun s => performHeld s w))

/-! ### Waking (R101, R102) -/

/-- A record of the boot log, or its loss where the log is full (R416). -/
def logBoot (s : State) (step result detail clock : Nat) (data : List Byte) : State :=
  let r : BootRec := { step := BitVec.ofNat 16 step, result := BitVec.ofNat 8 result, detail := BitVec.ofNat 8 detail, clock := b64 clock, data := data }
  let b := s.boot
  if b.log.length < 126 then { s with boot := { b with log := b.log ++ [r] } }
  else { s with boot := { b with recLost := if b.recLost = 0xffffffff then b.recLost else b.recLost + 1 } }

/-- Partitions with a core or a channel group on a die. -/
def partsOn (s : State) (d : Nat) : List Nat :=
  (s.parts.filter (fun e => e.2.present && (onDie e.2 d || groupDie e.2.groups d))).map (·.1)

/-- A held write is dropped: the collective whose commit it is does not wait for it. -/
def dropHeld (s : State) (h : Nat × HeldWrite) : State :=
  match h.2 with
  | .commit op k => memberWrote s op k
  | _ => s

/-- A die fails re-authentication: it is excluded, its partitions are LOST, and their held writes are dropped and counted. -/
def loseDie (s : State) (d : Nat) : State :=
  let l := partsOn s d
  let s := s.modDie d (fun x => { x with excluded := 1, rails := false })
  let s := l.foldl (fun s p => s.modPart p (fun q => { q with dmState := .lost })) s
  let dropped := s.held.filter (fun h => l.contains h.1)
  let s := breakAbsent (dropped.foldl dropHeld s)
  let s := { s with
    held := s.held.filter (fun h => !l.contains h.1)
    boot := { s.boot with heldLost := s.boot.heldLost + b64 dropped.length } }
  logBoot s 8 1 d s.clock (natBytes 8 ((l.map (fun p => 2 ^ p)).sum) ++ List.replicate 8 0)

/-- The dies of a partition of class 3, with rails that collapsed, that fail: `Input.authOk` says which answer rightly. -/
def failingDies (s : State) (p : Nat) : List Nat :=
  if (s.part p).wakeClass != 3 then []
  else (List.range 4).filter (fun d => onDie (s.part p) d && (s.die d).rails && !s.dieExcluded d && !s.input.authOk.getLsbD d)

/-- A core restores what the collapse saved. Contexts asleep in `recv` stay asleep until their tail moves (R101). -/
def wakeCore (s : State) (e : Nat × Core) : State :=
  let asleep := fun (c : Core) => { c with ctx := Vector.ofFn (fun (k : Fin 11) =>
    match (e.2.context k).sleep with
    | .recv h => { c.context k with sleep := .recv h }
    | _ => c.context k) }
  resendWaits (s.modCore e.1 (fun c => { asleep (adoptImage c e.2) with
    issue := e.2.issue
    engStopped := e.2.engStopped })) e.1

def pcHeld (q : Partition) (k : Nat) : Bool := holdsGroup q (k / 384) (k % 128 / 8)

/-- The state is ACTIVE, and held writes are performed in the order of their acceptance. -/
def wakeDone (s : State) (p : Nat) : State :=
  let s := (s.part p).savedCores.foldl wakeCore s
  let q := s.part p
  let s := { s with awakePcs := s.awakePcs.filter (fun e => !pcHeld q e.1) }
  let s := s.modPart p (fun q => { q with
    dmState := .active
    wakes := q.wakes + 1
    idleSince := none
    savedCores := []
    peekPages := [] })
  let s := settleRails s
  let mine := s.held.filter (fun h => h.1 = p)
  let s := { s with held := s.held.filter (fun h => h.1 != p) }
  mine.foldl (fun s h => performHeld s h.2) s

def execWakeComplete (s : State) : Result :=
  let p := s.input.part
  if !(s.part p).present || (s.part p).dmState != .waking then .next s
  else match failingDies s p with
    | [] => .next (wakeDone s p)
    | l => .next (l.foldl loseDie s)

/-! ### The peek path (R104) -/

/-- PEEK_READ of the line `Input.line`: its pseudo-channel leaves self-refresh, and the read is answered from memory. -/
def execPeekRead (s : State) : Result :=
  match paKind s.input.line with
  | .home d o => .next (if refreshing s d o && !s.dieExcluded d then peekTouch s d o else s)
  | _ => .next s

def execPeekIdle (s : State) : Result :=
  match paKind s.input.line with
  | .home d o =>
    let k := pseudoChannel d o
    (match tfind s.awakePcs k with
     | some t => .next (if t + 10 * cyclesPerUs ≤ s.clock then { s with awakePcs := tdel s.awakePcs k } else s)
     | none => .next s)
  | _ => .next s

end Sys2Proof.Machine
end

