-- ==== Sys2Proof/Machine/Fabric.lean ====
section
/-! DEFINITION. The Forwyn links: flits and their check, replay, retraining, ports going down and coming up (R22 to R25,
R32). -/
namespace Sys2Proof.Machine

/-! ### CRC-64 (R22) -/

/-- The generator of R22, reflected. -/
def crcPoly : BitVec 64 := 0xc96c5795d7870f42

def crcBit (r : BitVec 64) (b : Bool) : BitVec 64 := (r >>> 1) ^^^ (if r.getLsbD 0 != b then crcPoly else 0)

/-- One byte, least significant bit first. -/
def crcByte (r : BitVec 64) (v : Byte) : BitVec 64 := (List.range 8).foldl (fun r i => crcBit r (v.getLsbD i)) r

def crc64 (bs : List Byte) : BitVec 64 := ~~~(bs.foldl crcByte (BitVec.allOnes 64))

/-- The check field stands in bytes 248 to 255. -/
def flitOk (f : BitVec 2048) : Bool :=
  crc64 ((List.range 248).map (fun i => (f >>> (8 * i)).setWidth 8)) = (f >>> 1984).setWidth 64

/-! ### Ports (R23 to R25) -/

def State.port (s : State) (p : Nat) : Port := vget s.ports p Port.reset
def State.modPort (s : State) (p : Nat) (f : Port → Port) : State := { s with ports := vmod s.ports p Port.reset f }

def Port.running (p : Port) : Bool := p.present && p.linkUp && !p.retraining

/-- FLIT_RECEIVE of `Input.flit`, whose header carries the sequence number `Input.amount`: a flit that passes both checks is
accepted, and any other is refused and changes nothing. -/
def execFlitReceive (s : State) : Result :=
  let i := s.input
  let p := s.port i.port
  .next (if p.running && flitOk i.flit && i.amount = p.rxSeq.toNat then s.modPort i.port (fun p => { p with rxSeq := p.rxSeq + 1 })
    else s)

/-- The replay buffer (R23). -/
def replayFlits : Nat := 512
/-- Failed replays of one flit before a retrain, and failed retrains before the port goes down (R24). -/
def replayTries : Nat := 8
def retrainTries : Nat := 3

/-- FLIT_REPLAY: the refused flit and every later one, `Input.amount` in all, are sent again; `Input.ok` says that the flit is
accepted now. -/
def execFlitReplay (s : State) : Result :=
  let i := s.input
  .next (if (s.port i.port).running && 0 < i.amount && decide (i.amount ≤ replayFlits) && decide ((s.port i.port).failedReplays < replayTries) then
      s.modPort i.port (fun p => { p with
        replays := p.replays + b64 i.amount
        failedReplays := if i.ok then 0 else p.failedReplays + 1 })
    else s)

/-- PORT_RETRAIN. It is counted in FPRETRAIN as it begins, and FPSTAT keeps bit [1] and the lanes in [11:4] while the port retrains (DESIGN
CHOICE, log 4: R25 does not say). -/
def execPortRetrain (s : State) : Result :=
  let i := s.input
  .next (if (s.port i.port).running && decide (replayTries ≤ (s.port i.port).failedReplays) && decide ((s.port i.port).failedRetrains < retrainTries)
    then s.modPort i.port (fun p => { p with
      retraining := true
      retrains := p.retrains + 1 })
    else s)

/-- PORT_RETRAIN_END: `Input.ok` says that it succeeded, with the lanes `Input.lanes`. -/
def execPortRetrainEnd (s : State) : Result :=
  let i := s.input
  .next (if (s.port i.port).retraining then
      s.modPort i.port (fun p => { p with
        retraining := false
        lanes := i.lanes
        failedReplays := if i.ok then 0 else p.failedReplays
        failedRetrains := if i.ok then 0 else p.failedRetrains + 1 })
    else s)

/-- PORT_DOWN: `Input.ok` says that this port holds no undelivered commit; one that holds some keeps retraining (R32). Groups that lose
a member with it are broken. FPSTAT[11:4] reads 0 once the port is down (DESIGN CHOICE, log 4: R25 does not say). -/
def execPortDown (s : State) : Result :=
  let i := s.input
  let p := s.port i.port
  let due := p.running && decide (retrainTries ≤ p.failedRetrains)
  if !due then .next s
  else if !i.ok then .next (s.modPort i.port (fun p => { p with failedRetrains := retrainTries - 1 }))
  else .next (breakAbsent (s.modPort i.port (fun p => { p with
    linkUp := false
    down := true
    lanes := 0 })))

/-- PORT_BRING_UP: fw6 brings a port of the carrier up, and FPSTAT then shows it present, with the lanes and the next sequence number that the link trains to. -/
def execPortBringUp (s : State) : Result :=
  let i := s.input
  .next (if !(s.port i.port).linkUp then
      s.modPort i.port (fun p => { p with
        present := true
        linkUp := true
        down := false
        retraining := false
        lanes := i.lanes
        failedReplays := 0
        failedRetrains := 0
        rxSeq := BitVec.ofNat 12 i.amount })
    else s)

end Sys2Proof.Machine
end

