-- ==== Sys2Proof/Machine/Boot.lean ====
section
/-! DEFINITION. Package reset and boot, recovery, authentication of the dies, and the carrier's signals (R19 to R21, R75 to
R78, R416). -/
namespace Sys2Proof.Machine

/-! ### The firmware image (R75, R77) -/

def fwMagic : Nat := 0x4c534657
def bodyMax : Nat := 8 * 1024 * 1024

/-- The status code of the first failing check of R77; 0 where all pass. -/
def imageStatus (img : List Byte) : Nat :=
  let key := (img.drop 0x10).take 32
  if recField img 0 4 != fwMagic then 5
  else if rangeSet img 0x70 144 then 7
  else if bodyMax < recField img 8 8 || recField img 8 8 + 256 != img.length then 4
  else if leNat (sha512 key) != Config.vendorKeyHash.toNat then 6
  else if !ed25519Verify key (sha512 (img.drop 256)) ((img.drop 0x30).take 64) then 2
  else if recField img 4 4 < Config.minVersion then 3
  else 0

/-- Its record in the boot log: the result, the failing check and the security version. -/
def logSlot (s : State) (step : Nat) (img : List Byte) : State :=
  let st := imageStatus img
  logBoot s step (if st = 0 then 0 else 1) st 0 (natBytes 4 (recField img 4 4) ++ List.replicate 12 0)

/-- fw5 sets and locks the port limits once no die waits any more (R26). -/
def lockLimits (s : State) : State :=
  if s.boot.authWait.isEmpty then
    let s := (List.range 16).foldl (fun s p => s.modPort p (fun q => { q with limit := Config.portLimit p })) s
    logBoot s 7 0 0 s.clock (List.replicate 16 0)
  else s

/-- The firmware is released from a slot: stacks train, and the dies whose stacks trained wait to be authenticated. -/
def releaseFirmware (s : State) (slot : Nat) (img : List Byte) (trained : BitVec 12) : State :=
  let s := logBoot s 3 0 slot s.clock ((sha512 (img.drop 256)).take 16)
  let s := (List.range 12).foldl (fun s k => logBoot s 5 (if trained.getLsbD k then 0 else 1) k s.clock (List.replicate 16 0)) s
  let bad : Nat → Bool := fun d => (List.range 3).any (fun j => !trained.getLsbD (3 * d + j))
  let s := (List.range 4).foldl (fun s d =>
    if bad d then logBoot (s.modDie d (fun x => { x with excluded := 2 })) 6 2 d s.clock (natBytes 1 2 ++ List.replicate 15 0) else s) s
  lockLimits { s with
    fresh := s.fresh + 16
    boot := { s.boot with
      running := some (BitVec.ofNat 1 slot)
      nonceAt := s.fresh
      authWait := (List.range 4).filter (fun d => !bad d) } }

/-- The boot ROM's steps. -/
def bootRom (s : State) (trained : BitVec 12) : State :=
  let b := s.boot
  let s := logSlot s 1 b.slotA
  if imageStatus b.slotA = 0 then releaseFirmware s 0 b.slotA trained
  else
    let s := logSlot s 2 b.slotB
    if imageStatus b.slotB = 0 then releaseFirmware s 1 b.slotB trained
    else
      let s := logBoot s 4 0 0 0 (List.replicate 16 0)
      { s with boot := { s.boot with recovery := true } }

/-- The cap in fuses (R20, R73), in W. -/
def fusedCap : Nat := 2600

/-- What a package reset leaves: the flash, the host's memory, the carrier's signals, and the model's own fields. -/
def afterReset (s : State) : State :=
  let c := s.carrier
  { State.reset with
    schedule := s.schedule
    input := s.input
    fresh := s.fresh
    nextKey := s.nextKey
    mem := s.mem.filter (fun e => match paKind e.1 with | .host _ => true | _ => false)
    pkgId := BitVec.ofNat 12 s.input.pkg
    dies := Vector.replicate 4 { excluded := 0, lowest := c.flowSignal, rails := false, holding := [] }
    boot := { BootState.reset with
      running := none
      slotA := s.boot.slotA
      slotB := s.boot.slotB }
    carrier := { c with
      cap := fusedCap
      flowFault := c.flowSignal
      thermal := false } }

/-- PERST#: `Input.trained` says which stacks train, and `Input.pkg` is the package id that fw6 assigns. -/
def execPerstReset (s : State) : Result := .next (bootRom (afterReset s) s.input.trained)

/-! ### Authentication of the dies (R78) -/

/-- The nonce that DX sends to a die: 32 bytes from the random source. -/
def dxNonce (b : BootState) (d : Nat) : List Byte :=
  (List.range 4).flatMap (fun k => natBytes 8 (Config.freeValue (b.nonceAt + 4 * d + k)).toNat)

/-- Both nonces: what each side signs. -/
def bothNonces (s : State) (d : Nat) : List Byte := dxNonce s.boot d ++ ((natBytes 128 s.input.flit.toNat).drop 32).take 32

/-- A die answers with its public key, its nonce and its signature over both nonces: the first 128 bytes of `Input.flit`. DX
checks the key against the hash fused for the die, and the signature. R78 names neither the hash function, taken as SHA-512, nor the
order of the nonces, taken as DX's first (DESIGN CHOICE, log 60). -/
def dieProves (s : State) (d : Nat) : Bool :=
  let bs := natBytes 128 s.input.flit.toNat
  let key := bs.take 32
  decide (leNat (sha512 key) = (Config.dieKeyHash d).toNat) &&
  ed25519Verify key (bothNonces s d) (bs.drop 64)

/-- DX's signature for the die, with its identity key. -/
def dxProof (s : State) (d : Nat) : List Byte := ed25519Sign identitySeed (bothNonces s d)

/-- The die checks DX's public key against the hash fused in it, and DX's signature. -/
def dieAccepts (s : State) (d : Nat) : Bool :=
  decide (leNat (sha512 identityKey) = (Config.dxKeyHash d).toNat) && ed25519Verify identityKey (bothNonces s d) (dxProof s d)

/-- A die's authentication ends with a reason, 0 where it is present; after the last, the port limits are locked (R26). -/
def dieResolved (s : State) (d reason : Nat) : State :=
  let s := if reason = 0 then s else s.modDie d (fun x => { x with excluded := BitVec.ofNat 2 reason })
  let s := logBoot s 6 (if reason = 0 then 0 else 1) d s.clock (natBytes 1 reason ++ List.replicate 15 0)
  lockLimits { s with boot := { s.boot with authWait := s.boot.authWait.erase d } }

def authLimit : Nat := 10000 * cyclesPerUs

/-- A die answers in time: it is present where DX and the die accept each other. -/
def execDieAuthentication (s : State) : Result :=
  let d := s.input.die
  .next (if s.boot.authWait.contains d && decide (s.clock < authLimit) then
      dieResolved s d (if dieProves s d && dieAccepts s d then 0 else 1) else s)

def execDieAuthTimeout (s : State) : Result :=
  let d := s.input.die
  .next (if s.boot.authWait.contains d && decide (authLimit ≤ s.clock) then dieResolved s d 3 else s)

/-! ### Recovery (R76, R77) -/

def State.modBoot (s : State) (f : BootState → BootState) : State := { s with boot := f s.boot }

/-- A command acts only in recovery. -/
def recoveryDo (s : State) (f : BootState → BootState) : State := if s.boot.recovery then s.modBoot f else s

def clearImage (b : BootState) : BootState :=
  { b with
    image := []
    tooBig := false
    rvstatus := 0 }

def appendChunk (b : BootState) : BootState :=
  let n := b.rvlen.toNat
  if n = 0 || 0x80000 < n then { b with rvstatus := 8 }
  else if b.tooBig || 256 + bodyMax < b.image.length + n then
    { b with
      tooBig := true
      rvstatus := 1 }
  else
    { b with
      image := b.image ++ Memory.reads b.stage 0 n
      rvstatus := 0 }

/-- Command 3. After TOOBIG the image must be cleared first: until then nothing is checked or written and the status stays
TOOBIG (DESIGN CHOICE, log 25). -/
def verifyWrite (b : BootState) : BootState :=
  if b.tooBig then { b with rvstatus := 1 }
  else match imageStatus b.image with
  | 0 =>
    if b.rvslot = 0 then { b with
      slotA := b.image
      rvstatus := 0 }
    else { b with
      slotB := b.image
      rvstatus := 0 }
  | st => { b with rvstatus := BitVec.ofNat 8 st }

def rebootRecovery (s : State) : State := if s.boot.recovery then bootRom (afterReset s) s.input.trained else s

def execRvClearImage (s : State) : Result := .next (recoveryDo s clearImage)
def execRvAppend (s : State) : Result := .next (recoveryDo s appendChunk)
def execRvVerifyWrite (s : State) : Result := .next (recoveryDo s verifyWrite)
def execRvReset (s : State) : Result := .next (rebootRecovery s)

/-- A write of the recovery BAR. -/
def recoveryWrite (s : State) (off : Nat) (v : DWord) : State :=
  if off = 0x200 then
    (match v.toNat with
     | 1 => recoveryDo s clearImage
     | 2 => recoveryDo s appendChunk
     | 3 => recoveryDo s verifyWrite
     | 4 => rebootRecovery s
     | _ => s)
  else recoveryDo s (fun b =>
    if off = 0x208 then { b with rvlen := v.setWidth 20 }
    else if off = 0x210 then { b with rvslot := v.setWidth 1 }
    else if 0x80000 ≤ off ∧ off < 0x100000 then { b with stage := Memory.writes b.stage (off - 0x80000) (natBytes 8 v.toNat) }
    else b)

/-! ### The carrier (R20, R21) -/

def State.modCarrier (s : State) (f : Carrier → Carrier) : State := { s with carrier := f s.carrier }

def setLowest (s : State) (b : Bool) : State := { s with dies := s.dies.map (fun d => { d with lowest := b }) }

/-- The dies leave the lowest clock once the signal is gone and software has cleared FLOWFAULT. -/
def flowTest (s : State) : State := if s.carrier.flowSignal || s.carrier.flowFault then s else setLowest s false

def execFlowFaultAssert (s : State) : Result :=
  .next (setLowest (s.modCarrier (fun c => { c with
    flowSignal := true
    flowFault := true })) true)

def execFlowFaultDeassert (s : State) : Result := .next (flowTest (s.modCarrier (fun c => { c with flowSignal := false })))

/-- A request of fw4 for the cap `Input.amount`: ignored above the fused cap; with 0 there is none. -/
def requestCap (c : Carrier) (w : Nat) : Carrier := if 0 < w && w ≤ fusedCap then { c with cap := w } else c

/-- The governor takes fw4's request, and starts or stops limiting clocks, as `Input.ok` says. -/
def execHardPowerCap (s : State) : Result :=
  .next (s.modCarrier (fun c => { requestCap c s.input.amount with capActive := s.input.ok }))
def execThermalAlert (s : State) : Result := .next (s.modCarrier (fun c => { c with thermal := true }))
def execPwrgoodChange (s : State) : Result := .next (s.modCarrier (fun c => { c with pwrGood := s.input.ok }))

/-- A write of PKGSTAT: the latched bits are W1C, and FLOWFAULT stays while its signal is asserted. -/
def pkgstatWrite (s : State) (v : DWord) : State :=
  flowTest (s.modCarrier (fun c => { c with
    flowFault := c.flowFault && !(v.getLsbD 4 && !c.flowSignal)
    thermal := c.thermal && !v.getLsbD 3 }))

/-- PKGSTAT as it reads. -/
def pkgstat (s : State) : DWord :=
  let c := s.carrier
  let one := fun (b : Bool) (k : Nat) => if b then 2 ^ k else 0
  let present := ((List.range 4).map (fun d => one (s.boot.running.isSome && !s.boot.authWait.contains d && !s.dieExcluded d) (8 + d))).sum
  b64 (c.id.toNat * 2 ^ 12 + present + one c.flowFault 4 + one c.thermal 3 + one c.capActive 2 + one c.pwrGood 1 + one s.boot.recovery 0)

end Sys2Proof.Machine
end

