-- ==== Sys2Proof/Machine/Host.lean ====
section
/-! DEFINITION. The host's writes of registers, what registers read as, and the reset of the physical function (R38 to R46,
R68, R76, R86, R93, R100). -/
namespace Sys2Proof.Machine

/-! ### Function-level reset of the physical function (R41) -/

/-- Every ring is disabled with its registers at reset; interrupt vectors are no rings. -/
def Vf.dropRings (f : Vf) : Vf := { Vf.reset with irq := f.irq }

/-- A frozen core that no node holds is cleared like those of a gang. -/
def clearFrozen (s : State) (i : Nat) : State := if (s.core i).issue = .frozen then clearCore s i else s

/-- The queued fault packets and notices of some cores are discarded. -/
def Partition.dropPackets (q : Partition) (of : Nat → Bool) : Partition :=
  let keep := fun (l : List Packet) => l.filter (fun k => !of k.core.toNat)
  { q with
    faultQ := keep q.faultQ
    faultFlight := keep q.faultFlight
    noticeQ := keep q.noticeQ
    noticeFlight := keep q.noticeFlight }

/-- What is left of a partition's nodes is discarded, with its frozen cores and the reports of those that have faulted since the
reset began; launch totals stay. -/
def flrPart (s : State) (p : Nat) : State :=
  let vfs := s.vfs
  let hurt := fun (i : Nat) => (s.core i).issue = .frozen && faulted (s.core i)
  let s := (dropNodes s p).modPart p (fun q => { q.dropPackets hurt with
    fw3Seq := none
    offload := q.offload.map OffList.drop })
  { (partCores s p).foldl clearFrozen s with vfs := vfs }

/-- A node whose cores must first be stopped. -/
def Node.runsGang (n : Node) : Bool := n.state = .running && n.record.kind = 0

/-- The reset begins: rings are disabled, every node but the running gangs is discarded with the reports of frozen cores, and the
gangs' cores stop as for the collector. -/
def flrBegin (s : State) : State :=
  let frozen := fun (i : Nat) => (s.core i).issue = .frozen
  let s := (presentParts s).foldl (fun s p => s.modPart p (fun q => q.dropPackets frozen)) s
  let s := (s.nodes.filter (fun n => n.state = .running && n.record.kind = 2)).foldl (fun s n => bdIdle s n.desc true) s
  let s : State := { s with
    flr := true
    nodes := s.nodes.filter Node.runsGang
    vfs := s.vfs.map (fun e => (e.1, e.2.dropRings)) }
  (s.nodes.flatMap (·.cores)).foldl (fun s i => if (s.core i).issue = .frozen then s else stopCore s i true) s

/-- Accesses, network-interface threads and in-switch collectives of the gangs and of frozen cores have run to completion, and every
engine has reached its unit (R279). -/
def flrDrained (s : State) : Bool :=
  (s.nodes.flatMap (·.cores) ++ (s.cores.map (·.1)).filter (fun i => (s.core i).issue = .frozen)).all (coreStopped s)

/-- FLR_PF begins the reset of R41, and ends it as soon as what must complete first has; until then it is taken again. -/
def execFlrPf (s : State) : Result :=
  let s := if s.flr then s else flrBegin s
  .next (if flrDrained s then { (presentParts s).foldl flrPart s with flr := false } else s)

/-! ### Register writes -/

/-- Energy and dormancy block (R93). -/
def dormancyWrite (s : State) (p off : Nat) (v : DWord) : State :=
  if !(s.part p).present then s
  else match off with
  | 0x18 => s.modPart p (fun q => { q with dwell := v.setWidth 32 })
  | 0x20 =>
    if v = 1 then (if (s.part p).dmState = .active then startCollapse s p false else s)
    else if v = 2 then wakeRequest s p
    else s
  | 0x28 => s.modPart p (fun q => { q with timer := v.setWidth 32 })
  | _ => s

/-- A write of PF BAR0 (R40). -/
def pfWrite (s : State) (off : Nat) (v : DWord) : State :=
  if s.boot.recovery then s
  else if off = 0x100 then pkgstatWrite s v
  else if 0x2000 ≤ off ∧ off < 0x4000 then
    s.setMailbox .management (mailWrite .management (s.mailbox .management) (off - 0x2000) v)
  else if 0x8000 ≤ off ∧ off < 0x9000 then dormancyWrite s ((off - 0x8000) / 0x40) (off % 0x40) v
  else s

/-- REGISTER_WRITE: the 8 bytes `Input.value` at offset `Input.off` of a register space. The spec gives no access width for the
BARs: only aligned 8-byte accesses are modelled, and a write at another offset has no effect (DESIGN CHOICE, log 28). -/
def execRegisterWrite (s : State) : Result :=
  let off := s.input.off
  let v := s.input.value
  if off % 8 != 0 then .next s
  else match s.input.space with
  | .pf => .next (pfWrite s off v)
  | .vf i => .next (vfWrite s i off v)
  | .msix i => .next (if (s.part (i / 16)).present then msixWrite s i off v else s)
  | .recovery => .next (recoveryWrite s off v)

/-! ### What registers read as; a read changes nothing -/

def flag (b : Bool) (k : Nat) : Nat := if b then 2 ^ k else 0

/-- Forwyn port registers (R25). -/
def portRead (p : Port) (off : Nat) : Nat :=
  match off with
  | 0 => flag p.present 0 + flag p.linkUp 1 + flag p.down 2 + flag p.retraining 3 + p.lanes.toNat * 16
  | 8 => p.replays.toNat
  | 0x10 => p.retrains.toNat
  | 0x18 => p.limit.toNat
  | _ => 0

/-- Trace control words (R86). -/
def traceRead (q : Partition) (off : Nat) : Nat :=
  match off with
  | 0 => q.trctl.toNat
  | 8 => q.trbase.toNat
  | 0x10 => q.trsize.toNat
  | 0x18 => q.trwptr.toNat
  | 0x20 => q.trdrop.toNat
  | _ => 0

def DmState.code : DmState → Nat | .active => 0 | .collapsing => 1 | .dormant => 2 | .waking => 3 | .lost => 4

/-- Energy and dormancy registers (R93). -/
def dormancyRead (q : Partition) (off : Nat) : Nat :=
  match off with
  | 0 => (BitVec.ofInt 64 q.account).toNat
  | 8 => q.quota.toNat
  | 0x10 => q.ceiling.toNat
  | 0x18 => q.dwell.toNat
  | 0x28 => q.timer.toNat
  | 0x30 => q.dmReason.toNat * 2 ^ 16 + q.wakeClass.toNat * 2 ^ 6 + q.dmState.code
  | 0x38 => q.wakes.toNat * 2 ^ 32 + q.collapses.toNat
  | _ => 0

/-- A record of the boot log (R416). -/
def BootRec.bytes (r : BootRec) : List Byte :=
  natBytes 2 r.step.toNat ++ natBytes 1 r.result.toNat ++ natBytes 1 r.detail.toNat ++ natBytes 4 0 ++ natBytes 8 r.clock.toNat ++ r.data

def bootLog (b : BootState) : List Byte :=
  natBytes 4 0x4c53424c ++ natBytes 4 b.log.length ++ natBytes 8 b.firewall.toNat ++ natBytes 8 b.heldLost.toNat ++
  natBytes 4 b.recLost.toNat ++ List.replicate 36 0 ++ b.log.flatMap BootRec.bytes

def bootLogRead (s : State) (off : Nat) : Nat := recField (bootLog s.boot) off 8

/-- An aligned 8-byte read of PF BAR0 (R40). -/
def pfRead (s : State) (off : Nat) : DWord :=
  if s.boot.recovery || off % 8 != 0 then 0
  else if off = 0 then Config.deviceRevision.setWidth 64
  else if off = 0x100 then pkgstat s
  else if 0x1000 ≤ off ∧ off < 0x1400 then b64 (portRead (s.port ((off - 0x1000) / 0x40)) (off % 0x40))
  else if 0x3000 ≤ off ∧ off < 0x4000 then b64 (bootLogRead s (off - 0x3000))
  else if 0x2000 ≤ off ∧ off < 0x3000 then mailRead s.mail (off - 0x2000)
  else if 0x4000 ≤ off ∧ off < 0x5000 then b64 (traceRead (s.part ((off - 0x4000) / 0x40)) (off % 0x40))
  else if 0x8000 ≤ off ∧ off < 0x9000 then
    (if (s.part ((off - 0x8000) / 0x40)).present then b64 (dormancyRead (s.part ((off - 0x8000) / 0x40)) (off % 0x40)) else 0)
  else 0

/-- The recovery BAR (R76). -/
def recoveryRead (s : State) (off : Nat) : DWord :=
  let b := s.boot
  if !b.recovery || off % 8 != 0 then 0
  else if off = 0 then Config.deviceRevision.setWidth 64
  else if off = 0x100 then pkgstat s
  else if off = 0x208 then b.rvlen.setWidth 64
  else if off = 0x210 then b.rvslot.setWidth 64
  else if off = 0x218 then b64 (b.rvstatus.toNat * 2 ^ 8)
  else if 0x400 ≤ off ∧ off < 0x420 then b64 (recField identityKey (off - 0x400) 8)
  else if 0x1000 ≤ off ∧ off < 0x2000 then b64 (bootLogRead s (off - 0x1000))
  else if 0x80000 ≤ off ∧ off < 0x100000 then memWord b.stage (off - 0x80000)
  else 0

/-- A command ring's registers. -/
def cmdRead (c : CmdRing) (off : Nat) : Nat :=
  match off with
  | 0 => c.base.toNat
  | 8 => flag c.enable 8 + c.log2.toNat
  | 0x10 => c.tail.toNat
  | _ => flag c.overrun 40 + flag c.creditLost 39 + c.head.toNat

def tokRead (k : TokRing) (off : Nat) : Nat :=
  match off with
  | 0 => k.base.toNat
  | 8 => k.vector.toNat * 2 ^ 12 + flag k.enable 8 + k.log2.toNat
  | 0x10 => k.tail.toNat
  | _ => k.head.toNat

/-- The registers of a function as they stand (R42); of those that no write reaches, ICPEND may change in a dormant partition, and reads as
the collapse saved it (R100). -/
def vfRegRead (s : State) (vf off : Nat) : Nat :=
  let q := s.part (vf / 16)
  let f := s.vf vf
  if off = 0 then vf % 1024 + (vf / 16) % 64 * 2 ^ 10
  else if !q.present then 0
  else if off = 8 then 1 + flag q.det 1 + flag (q.dmState = .dormant) 2 + flag q.sealed 3
  else if 0x100 ≤ off ∧ off < 0x200 then cmdRead (f.cmd ((off - 0x100) / 0x20)) (off % 0x20)
  else if off = 0x200 then f.cp.base.toNat
  else if off = 0x208 then flag f.cp.enable 8 + f.cp.log2.toNat
  else if off = 0x210 then flag (!f.cp.wait.isEmpty) 32 + f.cp.tail.toNat
  else if off = 0x218 then f.cp.head.toNat
  else if 0x300 ≤ off ∧ off < 0x380 then tokRead (f.ring ((off - 0x300) / 0x20)) (off % 0x20)
  else if 0x400 ≤ off ∧ off < 0x500 then
    (let x := f.vector ((off - 0x400) / 16)
     if off % 16 = 0 then x.limit.toNat
     else if q.dmState = .dormant || q.dmState = .waking then x.shown.toNat else x.icpend)
  else 0

/-- The registers of a function that keep what is written. -/
def vfWritable (off : Nat) : Bool :=
  (0x100 ≤ off && off < 0x200 && off % 0x20 != 0x18) || off = 0x200 || off = 0x208 || off = 0x218 ||
  (0x300 ≤ off && off < 0x380 && off % 0x20 != 0x10) || (0x400 ≤ off && off < 0x500 && off % 16 = 0)

/-- The bits of a writable register that are not reserved (R42). -/
def vfNamed (off : Nat) : Nat :=
  let field := fun (lo n : Nat) => (2 ^ n - 1) * 2 ^ lo
  if off < 0x200 then (match off % 0x20 with | 0 => field 7 35 | 8 => field 8 1 + field 0 5 | _ => field 0 32)
  else if off = 0x200 then field 5 37
  else if off = 0x208 then field 8 1 + field 0 5
  else if 0x300 ≤ off && off < 0x380 then (match off % 0x20 with | 0 => field 4 38 | 8 => field 12 4 + field 8 1 + field 0 5 | _ => field 0 32)
  else field 0 32

/-- The last write that the sentinel holds for a register; reserved bits read 0 (R3, R100). -/
def heldValue (s : State) (vf off : Nat) : Option DWord :=
  s.held.reverse.findSome? (fun h => match h.2 with
    | .vfReg v o w => if v = vf && o = off then some (b64 (w.toNat &&& vfNamed off)) else none
    | _ => none)

/-! ### Configuration space (R38, R76) -/

/-- The fields of the SR-IOV capability that R38 names. -/
inductive SrIov where | totalVfs | firstVfOffset | vfStride
  deriving DecidableEq, Repr

/-- The capability as it reads: in recovery it reports no virtual function. -/
def srIovRead (s : State) : SrIov → Nat
  | .totalVfs => if s.boot.recovery then 0 else 1024
  | .firstVfOffset => 1
  | .vfStride => 1

/-- The function number of VF index `i`, the physical function being 0. -/
def vfFunction (s : State) (i : Nat) : Nat := srIovRead s .firstVfOffset + i * srIovRead s .vfStride

/-- An aligned 8-byte read of VF BAR0 (R45, R100); in recovery only the recovery BAR and configuration space answer (R76). -/
def vfRead (s : State) (vf off : Nat) : DWord :=
  if off % 8 != 0 || s.boot.recovery then 0
  else if vfWritable off && (s.part (vf / 16)).present && !s.partAwake (vf / 16) then (heldValue s vf off).getD (b64 (vfRegRead s vf off))
  else b64 (vfRegRead s vf off)

/-- An aligned 8-byte read of VF BAR2: the MSI-X table, an address and then data and vector control, and the pending bits. -/
def msixRead (s : State) (vf off : Nat) : DWord :=
  let x := (s.vf vf).vector (off / 16)
  if off % 8 != 0 || s.boot.recovery then 0
  else if off < 256 then (if off % 16 = 0 then x.addr else b64 (x.data.toNat + flag x.masked 32))
  else if off = 0x800 then b64 ((List.range 16).map (fun v => flag ((s.vf vf).vector v).pba v)).sum
  else 0

end Sys2Proof.Machine
end

