-- ==== Sys2Proof/Machine/Scalar.lean ====
section
/-! DEFINITION. Integer register operations, immediate forms, branches and jumps (spec/15_isa_scalar.md R307 to R315), the
mask operations (R367), and the 16-bit forms of them (R295). -/
namespace Sys2Proof.Machine

/-! ### Integer register operations (R308, R309) -/

/-- Write Gpr(rd) from two registers and go on. -/
def aluReg (s : State) (len : Nat) (f : DWord → DWord → DWord) (rd ra rb : Reg) : Result :=
  retireReg s len rd (f (s.gpr ra) (s.gpr rb))

/-- Write Gpr(rd) from a register and an immediate and go on. -/
def aluImm (s : State) (len : Nat) (f : DWord → DWord) (rd ra : Reg) : Result := retireReg s len rd (f (s.gpr ra))

def opSll (a b : DWord) : DWord := a <<< (b.toNat % 64)
def opSrl (a b : DWord) : DWord := a >>> (b.toNat % 64)
def opSra (a b : DWord) : DWord := a.sshiftRight (b.toNat % 64)
def opSlt (a b : DWord) : DWord := if a.toInt < b.toInt then 1 else 0
def opSltu (a b : DWord) : DWord := if a.toNat < b.toNat then 1 else 0
def opMulh (a b : DWord) : DWord := BitVec.ofInt 64 ((a.toInt * b.toInt) / (2 ^ 64 : Nat))
def opMulhN (a b : DWord) : DWord := b64 (a.toNat * b.toNat / 2 ^ 64)
/-- R309: division truncates toward zero; by zero the quotient is all ones; −2^63 / −1 is −2^63. -/
def opDiv (a b : DWord) : DWord := if b = 0 then -1 else BitVec.ofInt 64 (a.toInt.tdiv b.toInt)
def opDivN (a b : DWord) : DWord := if b = 0 then -1 else b64 (a.toNat / b.toNat)
def opRem (a b : DWord) : DWord := if b = 0 then a else BitVec.ofInt 64 (a.toInt.tmod b.toInt)
def opRemN (a b : DWord) : DWord := if b = 0 then a else b64 (a.toNat % b.toNat)
def opMin (a b : DWord) : DWord := if b.toInt < a.toInt then b else a
def opMax (a b : DWord) : DWord := if a.toInt < b.toInt then b else a
def opMinN (a b : DWord) : DWord := if b.toNat < a.toNat then b else a
def opMaxN (a b : DWord) : DWord := if a.toNat < b.toNat then b else a

def execAdd (rd ra rb : Reg) (s : State) : Result := aluReg s 4 (· + ·) rd ra rb
def execSub (rd ra rb : Reg) (s : State) : Result := aluReg s 4 (· - ·) rd ra rb
def execAnd (rd ra rb : Reg) (s : State) : Result := aluReg s 4 (· &&& ·) rd ra rb
def execOr (rd ra rb : Reg) (s : State) : Result := aluReg s 4 (· ||| ·) rd ra rb
def execXor (rd ra rb : Reg) (s : State) : Result := aluReg s 4 (· ^^^ ·) rd ra rb
def execSll (rd ra rb : Reg) (s : State) : Result := aluReg s 4 opSll rd ra rb
def execSrl (rd ra rb : Reg) (s : State) : Result := aluReg s 4 opSrl rd ra rb
def execSra (rd ra rb : Reg) (s : State) : Result := aluReg s 4 opSra rd ra rb
def execSlt (rd ra rb : Reg) (s : State) : Result := aluReg s 4 opSlt rd ra rb
def execSltu (rd ra rb : Reg) (s : State) : Result := aluReg s 4 opSltu rd ra rb
def execMul (rd ra rb : Reg) (s : State) : Result := aluReg s 4 (· * ·) rd ra rb
def execMulh (rd ra rb : Reg) (s : State) : Result := aluReg s 4 opMulh rd ra rb
def execMulhN (rd ra rb : Reg) (s : State) : Result := aluReg s 4 opMulhN rd ra rb
def execDiv (rd ra rb : Reg) (s : State) : Result := aluReg s 4 opDiv rd ra rb
def execDivN (rd ra rb : Reg) (s : State) : Result := aluReg s 4 opDivN rd ra rb
def execRem (rd ra rb : Reg) (s : State) : Result := aluReg s 4 opRem rd ra rb
def execRemN (rd ra rb : Reg) (s : State) : Result := aluReg s 4 opRemN rd ra rb
def execMin (rd ra rb : Reg) (s : State) : Result := aluReg s 4 opMin rd ra rb
def execMax (rd ra rb : Reg) (s : State) : Result := aluReg s 4 opMax rd ra rb
def execMinN (rd ra rb : Reg) (s : State) : Result := aluReg s 4 opMinN rd ra rb
def execMaxN (rd ra rb : Reg) (s : State) : Result := aluReg s 4 opMaxN rd ra rb

/-! ### Immediate forms (R310, R311) -/

def imm64 {w : Nat} (i : BitVec w) : DWord := i.signExtend 64
def shamt (sh : BitVec 6) : DWord := sh.setWidth 64

def execAddi (rd ra : Reg) (imm : BitVec 15) (s : State) : Result := aluImm s 4 (· + imm64 imm) rd ra
def execAndi (rd ra : Reg) (imm : BitVec 15) (s : State) : Result := aluImm s 4 (· &&& imm64 imm) rd ra
def execOri (rd ra : Reg) (imm : BitVec 15) (s : State) : Result := aluImm s 4 (· ||| imm64 imm) rd ra
def execXori (rd ra : Reg) (imm : BitVec 15) (s : State) : Result := aluImm s 4 (· ^^^ imm64 imm) rd ra
def execSlli (rd ra : Reg) (sh : BitVec 6) (s : State) : Result := aluImm s 4 (opSll · (shamt sh)) rd ra
def execSrli (rd ra : Reg) (sh : BitVec 6) (s : State) : Result := aluImm s 4 (opSrl · (shamt sh)) rd ra
def execSrai (rd ra : Reg) (sh : BitVec 6) (s : State) : Result := aluImm s 4 (opSra · (shamt sh)) rd ra
def execSlti (rd ra : Reg) (imm : BitVec 12) (s : State) : Result := aluImm s 4 (opSlt · (imm64 imm)) rd ra
def execSltiu (rd ra : Reg) (imm : BitVec 12) (s : State) : Result := aluImm s 4 (opSltu · (imm64 imm)) rd ra

/-- R311: Sext(imm20, 20) × 4,096. -/
def execLui (rd : Reg) (imm : BitVec 20) (s : State) : Result := retireReg s 4 rd (imm64 imm <<< 12)

/-! ### Branches and jumps (R312 to R315) -/

/-- A branch of `len` bytes at the PC to Pc + 2 × offset. -/
def branchIf (s : State) (len : Nat) (c : Bool) (off : Int) : Result :=
  if c then jumpTo s (s.here.pc.toNat + 2 * off) else retire s len

def execBeq (ra rb : Reg) (off : BitVec 15) (s : State) : Result := branchIf s 4 (s.gpr ra == s.gpr rb) off.toInt
def execBne (ra rb : Reg) (off : BitVec 15) (s : State) : Result := branchIf s 4 (s.gpr ra != s.gpr rb) off.toInt
def execBlt (ra rb : Reg) (off : BitVec 15) (s : State) : Result :=
  branchIf s 4 (decide ((s.gpr ra).toInt < (s.gpr rb).toInt)) off.toInt
def execBge (ra rb : Reg) (off : BitVec 15) (s : State) : Result :=
  branchIf s 4 (decide ((s.gpr rb).toInt ≤ (s.gpr ra).toInt)) off.toInt
def execBltu (ra rb : Reg) (off : BitVec 15) (s : State) : Result :=
  branchIf s 4 (decide (s.gprN ra < s.gprN rb)) off.toInt
def execBgeu (ra rb : Reg) (off : BitVec 15) (s : State) : Result :=
  branchIf s 4 (decide (s.gprN rb ≤ s.gprN ra)) off.toInt

def execJ (off : BitVec 25) (s : State) : Result := jumpTo s (s.here.pc.toNat + 2 * off.toInt)

/-- A jump that links NextPc in `rd`; a refused target leaves `rd` as it was (R314, R315). -/
def linkTo (s : State) (rd : Reg) (t : Int) : Result :=
  if t < 0 || 65534 < t || t % 2 != 0 then raise s (flt 2 2)
  else jumpTo (s.setGpr rd (s.here.pc + 4)) t

def execJal (off : BitVec 25) (s : State) : Result := linkTo s 1 (s.here.pc.toNat + 2 * off.toInt)

/-- R314: the target is read before the link is written. -/
def execJalr (rd ra : Reg) (imm : BitVec 15) (s : State) : Result := linkTo s rd (s.gpr ra + imm64 imm).toNat

/-- The outcome of a conditional branch of the context that issues, for which a follower is compared with its leader (R168). -/
def branchTaken (s : State) : Instr → Bool
  | .beq ra rb _ => s.gpr ra == s.gpr rb
  | .bne ra rb _ => s.gpr ra != s.gpr rb
  | .blt ra rb _ => decide ((s.gpr ra).toInt < (s.gpr rb).toInt)
  | .bge ra rb _ => decide ((s.gpr rb).toInt ≤ (s.gpr ra).toInt)
  | .bltu ra rb _ => decide (s.gprN ra < s.gprN rb)
  | .bgeu ra rb _ => decide (s.gprN rb ≤ s.gprN ra)
  | .beqC ra _ => s.gpr (ra.setWidth 5) == 0
  | .bneC ra _ => s.gpr (ra.setWidth 5) != 0
  | _ => false

/-! ### Mask operations (R367) -/

def setMask (s : State) (md : BitVec 3) (v : DWord) : Result := retire (s.setMr md.toNat v) 4

def execMand (md ma mb : BitVec 3) (s : State) : Result := setMask s md (s.mr ma.toNat &&& s.mr mb.toNat)
def execMor (md ma mb : BitVec 3) (s : State) : Result := setMask s md (s.mr ma.toNat ||| s.mr mb.toNat)
def execMxor (md ma mb : BitVec 3) (s : State) : Result := setMask s md (s.mr ma.toNat ^^^ s.mr mb.toNat)
def execMnot (md ma : BitVec 3) (s : State) : Result := setMask s md (~~~(s.mr ma.toNat))

/-- The number of 1 bits, and the index of the lowest 1 bit or 64. -/
def popCount (v : DWord) : Nat := ((List.range 64).filter (fun i => v.getLsbD i)).length
def lowBit (v : DWord) : Nat := ((List.range 64).find? (fun i => v.getLsbD i)).getD 64

def execMpop (rd : Reg) (ma : BitVec 3) (s : State) : Result := retireReg s 4 rd (b64 (popCount (s.mr ma.toNat)))
def execMfirst (rd : Reg) (ma : BitVec 3) (s : State) : Result := retireReg s 4 rd (b64 (lowBit (s.mr ma.toNat)))
def execMset (md : BitVec 3) (ra : Reg) (s : State) : Result := setMask s md (s.gpr ra)
def execMget (rd : Reg) (ma : BitVec 3) (s : State) : Result := retireReg s 4 rd (s.mr ma.toNat)

/-! ### 16-bit forms (R295): the alias, with NextPc = Pc + 2 -/

def creg (r : BitVec 4) : Reg := r.setWidth 5

def execAddiCS0 (rd : BitVec 4) (imm : BitVec 7) (s : State) : Result := aluImm s 2 (· + imm64 imm) (creg rd) 0
def execAddiC (rd : BitVec 4) (imm : BitVec 7) (s : State) : Result := aluImm s 2 (· + imm64 imm) (creg rd) (creg rd)
def execAddCS0 (rd ra : BitVec 4) (s : State) : Result := aluReg s 2 (· + ·) (creg rd) (creg ra) 0
def execAddC (rd ra : BitVec 4) (s : State) : Result := aluReg s 2 (· + ·) (creg rd) (creg rd) (creg ra)
def execSubC (rd ra : BitVec 4) (s : State) : Result := aluReg s 2 (· - ·) (creg rd) (creg rd) (creg ra)
def execAndC (rd ra : BitVec 4) (s : State) : Result := aluReg s 2 (· &&& ·) (creg rd) (creg rd) (creg ra)
def execOrC (rd ra : BitVec 4) (s : State) : Result := aluReg s 2 (· ||| ·) (creg rd) (creg rd) (creg ra)
def execXorC (rd ra : BitVec 4) (s : State) : Result := aluReg s 2 (· ^^^ ·) (creg rd) (creg rd) (creg ra)
def execSlliC (rd : BitVec 4) (sh : BitVec 6) (s : State) : Result :=
  aluImm s 2 (opSll · (shamt sh)) (creg rd) (creg rd)
def execAndiC (rd : BitVec 4) (imm : BitVec 7) (s : State) : Result := aluImm s 2 (· &&& imm64 imm) (creg rd) (creg rd)
def execBeqC (ra : BitVec 4) (off : BitVec 7) (s : State) : Result := branchIf s 2 (s.gpr (creg ra) == 0) off.toInt
def execBneC (ra : BitVec 4) (off : BitVec 7) (s : State) : Result := branchIf s 2 (s.gpr (creg ra) != 0) off.toInt
def execJC (off : BitVec 11) (s : State) : Result := jumpTo s (s.here.pc.toNat + 2 * off.toInt)
def execJrC (ra : BitVec 4) (s : State) : Result := jumpTo s (s.gprN (creg ra))

end Sys2Proof.Machine
end

