-- ==== Sys2Proof/Machine/Dispatch.lean ====
section
/-! DEFINITION. One arm for every row of spec/opcode_table.json, each one call of its meaning. -/
namespace Sys2Proof.Machine

def exec (i : Instr) (s : State) : Host.Outcome State Fault Refusal :=
  match i with
  | .add rd ra rb => Sys2Proof.Machine.execAdd rd ra rb s
  | .sub rd ra rb => Sys2Proof.Machine.execSub rd ra rb s
  | .and rd ra rb => Sys2Proof.Machine.execAnd rd ra rb s
  | .or rd ra rb => Sys2Proof.Machine.execOr rd ra rb s
  | .xor rd ra rb => Sys2Proof.Machine.execXor rd ra rb s
  | .sll rd ra rb => Sys2Proof.Machine.execSll rd ra rb s
  | .srl rd ra rb => Sys2Proof.Machine.execSrl rd ra rb s
  | .sra rd ra rb => Sys2Proof.Machine.execSra rd ra rb s
  | .slt rd ra rb => Sys2Proof.Machine.execSlt rd ra rb s
  | .sltu rd ra rb => Sys2Proof.Machine.execSltu rd ra rb s
  | .mul rd ra rb => Sys2Proof.Machine.execMul rd ra rb s
  | .mulh rd ra rb => Sys2Proof.Machine.execMulh rd ra rb s
  | .mulhN rd ra rb => Sys2Proof.Machine.execMulhN rd ra rb s
  | .div rd ra rb => Sys2Proof.Machine.execDiv rd ra rb s
  | .divN rd ra rb => Sys2Proof.Machine.execDivN rd ra rb s
  | .rem rd ra rb => Sys2Proof.Machine.execRem rd ra rb s
  | .remN rd ra rb => Sys2Proof.Machine.execRemN rd ra rb s
  | .min rd ra rb => Sys2Proof.Machine.execMin rd ra rb s
  | .max rd ra rb => Sys2Proof.Machine.execMax rd ra rb s
  | .minN rd ra rb => Sys2Proof.Machine.execMinN rd ra rb s
  | .maxN rd ra rb => Sys2Proof.Machine.execMaxN rd ra rb s
  | .addi rd ra imm => Sys2Proof.Machine.execAddi rd ra imm s
  | .andi rd ra imm => Sys2Proof.Machine.execAndi rd ra imm s
  | .ori rd ra imm => Sys2Proof.Machine.execOri rd ra imm s
  | .xori rd ra imm => Sys2Proof.Machine.execXori rd ra imm s
  | .slli rd ra sh => Sys2Proof.Machine.execSlli rd ra sh s
  | .srli rd ra sh => Sys2Proof.Machine.execSrli rd ra sh s
  | .srai rd ra sh => Sys2Proof.Machine.execSrai rd ra sh s
  | .slti rd ra imm => Sys2Proof.Machine.execSlti rd ra imm s
  | .sltiu rd ra imm => Sys2Proof.Machine.execSltiu rd ra imm s
  | .lui rd imm => Sys2Proof.Machine.execLui rd imm s
  | .jalr rd ra imm => Sys2Proof.Machine.execJalr rd ra imm s
  | .beq ra rb off => Sys2Proof.Machine.execBeq ra rb off s
  | .bne ra rb off => Sys2Proof.Machine.execBne ra rb off s
  | .blt ra rb off => Sys2Proof.Machine.execBlt ra rb off s
  | .bge ra rb off => Sys2Proof.Machine.execBge ra rb off s
  | .bltu ra rb off => Sys2Proof.Machine.execBltu ra rb off s
  | .bgeu ra rb off => Sys2Proof.Machine.execBgeu ra rb off s
  | .j off => Sys2Proof.Machine.execJ off s
  | .jal off => Sys2Proof.Machine.execJal off s
  | .ld rd ra off hint w => Sys2Proof.Machine.execLd rd ra off hint w s
  | .st rd ra off hint w => Sys2Proof.Machine.execSt rd ra off hint w s
  | .ldIndexed rd ra rb acq scope w hint => Sys2Proof.Machine.execLdIndexed rd ra rb acq scope w hint s
  | .stIndexed rd ra rb rel scope w hint => Sys2Proof.Machine.execStIndexed rd ra rb rel scope w hint s
  | .ldRingSlot rd h k off w => Sys2Proof.Machine.execLdRingSlot rd h k off w s
  | .stRingSlot rd h k off w => Sys2Proof.Machine.execStRingSlot rd h k off w s
  | .ldv vd ra off hint => Sys2Proof.Machine.execLdv vd ra off hint s
  | .stv vd ra off hint => Sys2Proof.Machine.execStv vd ra off hint s
  | .ldvPair vd ra off hint => Sys2Proof.Machine.execLdvPair vd ra off hint s
  | .stvPair vd ra off hint => Sys2Proof.Machine.execStvPair vd ra off hint s
  | .ldt hi ra off t => Sys2Proof.Machine.execLdt hi ra off t s
  | .stt hi ra off t => Sys2Proof.Machine.execStt hi ra off t s
  | .get tag ra rb x => Sys2Proof.Machine.execGet tag ra rb x s
  | .put tag ra rb x => Sys2Proof.Machine.execPut tag ra rb x s
  | .ratomAdd rd ra rb scope rel ret d => Sys2Proof.Machine.execRatomAdd rd ra rb scope rel ret d s
  | .ratomAnd rd ra rb scope rel ret d => Sys2Proof.Machine.execRatomAnd rd ra rb scope rel ret d s
  | .ratomOr rd ra rb scope rel ret d => Sys2Proof.Machine.execRatomOr rd ra rb scope rel ret d s
  | .ratomXor rd ra rb scope rel ret d => Sys2Proof.Machine.execRatomXor rd ra rb scope rel ret d s
  | .ratomMin rd ra rb scope rel ret d => Sys2Proof.Machine.execRatomMin rd ra rb scope rel ret d s
  | .ratomMax rd ra rb scope rel ret d => Sys2Proof.Machine.execRatomMax rd ra rb scope rel ret d s
  | .ratomMinN rd ra rb scope rel ret d => Sys2Proof.Machine.execRatomMinN rd ra rb scope rel ret d s
  | .ratomMaxN rd ra rb scope rel ret d => Sys2Proof.Machine.execRatomMaxN rd ra rb scope rel ret d s
  | .ratomSwap rd ra rb scope rel ret d => Sys2Proof.Machine.execRatomSwap rd ra rb scope rel ret d s
  | .ratomFadd rd ra rb scope rel ret => Sys2Proof.Machine.execRatomFadd rd ra rb scope rel ret s
  | .amoAdd rd ra rb scope ord d => Sys2Proof.Machine.execAmoAdd rd ra rb scope ord d s
  | .amoAnd rd ra rb scope ord d => Sys2Proof.Machine.execAmoAnd rd ra rb scope ord d s
  | .amoOr rd ra rb scope ord d => Sys2Proof.Machine.execAmoOr rd ra rb scope ord d s
  | .amoXor rd ra rb scope ord d => Sys2Proof.Machine.execAmoXor rd ra rb scope ord d s
  | .amoMin rd ra rb scope ord d => Sys2Proof.Machine.execAmoMin rd ra rb scope ord d s
  | .amoMax rd ra rb scope ord d => Sys2Proof.Machine.execAmoMax rd ra rb scope ord d s
  | .amoMinN rd ra rb scope ord d => Sys2Proof.Machine.execAmoMinN rd ra rb scope ord d s
  | .amoMaxN rd ra rb scope ord d => Sys2Proof.Machine.execAmoMaxN rd ra rb scope ord d s
  | .amoSwap rd ra rb scope ord d => Sys2Proof.Machine.execAmoSwap rd ra rb scope ord d s
  | .amoCas rd ra rb scope ord d => Sys2Proof.Machine.execAmoCas rd ra rb scope ord d s
  | .amoFadd rd ra rb scope ord => Sys2Proof.Machine.execAmoFadd rd ra rb scope ord s
  | .rwb ra rb => Sys2Proof.Machine.execRwb ra rb s
  | .rinv ra rb => Sys2Proof.Machine.execRinv ra rb s
  | .mldred tag ra rb x => Sys2Proof.Machine.execMldred tag ra rb x s
  | .mcst tag ra rb x => Sys2Proof.Machine.execMcst tag ra rb x s
  | .cadd ra rb => Sys2Proof.Machine.execCadd ra rb s
  | .caddRel ra rb scope => Sys2Proof.Machine.execCaddRel ra rb scope s
  | .cwait ra rb => Sys2Proof.Machine.execCwait ra rb s
  | .cwaitAcq ra rb scope => Sys2Proof.Machine.execCwaitAcq ra rb scope s
  | .cread rd ra => Sys2Proof.Machine.execCread rd ra s
  | .barrRlx rd b => Sys2Proof.Machine.execBarrRlx rd b s
  | .barrRel rd b => Sys2Proof.Machine.execBarrRel rd b s
  | .bwait b ra => Sys2Proof.Machine.execBwait b ra s
  | .bmiss rd b ra => Sys2Proof.Machine.execBmiss rd b ra s
  | .sstep rd level => Sys2Proof.Machine.execSstep rd level s
  | .binit b ra rd => Sys2Proof.Machine.execBinit b ra rd s
  | .fenceAcq scope => Sys2Proof.Machine.execFenceAcq scope s
  | .fenceRel scope => Sys2Proof.Machine.execFenceRel scope s
  | .fenceAr scope => Sys2Proof.Machine.execFenceAr scope s
  | .fenceSc scope => Sys2Proof.Machine.execFenceSc scope s
  | .twany rd ra => Sys2Proof.Machine.execTwany rd ra s
  | .twall ra => Sys2Proof.Machine.execTwall ra s
  | .tffr rd ra => Sys2Proof.Machine.execTffr rd ra s
  | .rinit h ra rb => Sys2Proof.Machine.execRinit h ra rb s
  | .rwf rd h ra => Sys2Proof.Machine.execRwf rd h ra s
  | .rwe rd h ra => Sys2Proof.Machine.execRwe rd h ra s
  | .radvp h ra => Sys2Proof.Machine.execRadvp h ra s
  | .radvc h ra => Sys2Proof.Machine.execRadvc h ra s
  | .recv rd h => Sys2Proof.Machine.execRecv rd h s
  | .send rd h ra rb => Sys2Proof.Machine.execSend rd h ra rb s
  | .vaddFloat t vd va vb rz m => Sys2Proof.Machine.execVaddFloat t vd va vb rz m s
  | .vsubFloat t vd va vb rz m => Sys2Proof.Machine.execVsubFloat t vd va vb rz m s
  | .vmulFloat t vd va vb rz m => Sys2Proof.Machine.execVmulFloat t vd va vb rz m s
  | .vfma t vd va vb rz m => Sys2Proof.Machine.execVfma t vd va vb rz m s
  | .vfnma t vd va vb rz m => Sys2Proof.Machine.execVfnma t vd va vb rz m s
  | .vminFloat t vd va vb m => Sys2Proof.Machine.execVminFloat t vd va vb m s
  | .vmaxFloat t vd va vb m => Sys2Proof.Machine.execVmaxFloat t vd va vb m s
  | .vabs t vd va m => Sys2Proof.Machine.execVabs t vd va m s
  | .vneg t vd va m => Sys2Proof.Machine.execVneg t vd va m s
  | .vdiv t vd va vb rz m => Sys2Proof.Machine.execVdiv t vd va vb rz m s
  | .vsqrt t vd va rz m => Sys2Proof.Machine.execVsqrt t vd va rz m s
  | .vaddInt t vd va vb m => Sys2Proof.Machine.execVaddInt t vd va vb m s
  | .vsubInt t vd va vb m => Sys2Proof.Machine.execVsubInt t vd va vb m s
  | .vmulInt t vd va vb m => Sys2Proof.Machine.execVmulInt t vd va vb m s
  | .vmulh t vd va vb n m => Sys2Proof.Machine.execVmulh t vd va vb n m s
  | .vminInt t vd va vb n m => Sys2Proof.Machine.execVminInt t vd va vb n m s
  | .vmaxInt t vd va vb n m => Sys2Proof.Machine.execVmaxInt t vd va vb n m s
  | .vand t vd va vb m => Sys2Proof.Machine.execVand t vd va vb m s
  | .vor t vd va vb m => Sys2Proof.Machine.execVor t vd va vb m s
  | .vxor t vd va vb m => Sys2Proof.Machine.execVxor t vd va vb m s
  | .vsll t vd va vb m => Sys2Proof.Machine.execVsll t vd va vb m s
  | .vsrl t vd va vb m => Sys2Proof.Machine.execVsrl t vd va vb m s
  | .vsra t vd va vb m => Sys2Proof.Machine.execVsra t vd va vb m s
  | .vadds t vd va vb n m => Sys2Proof.Machine.execVadds t vd va vb n m s
  | .vsubs t vd va vb n m => Sys2Proof.Machine.execVsubs t vd va vb n m s
  | .vcmpeq md va vb fmt m => Sys2Proof.Machine.execVcmpeq md va vb fmt m s
  | .vcmpne md va vb fmt m => Sys2Proof.Machine.execVcmpne md va vb fmt m s
  | .vcmplt md va vb fmt m => Sys2Proof.Machine.execVcmplt md va vb fmt m s
  | .vcmple md va vb fmt m => Sys2Proof.Machine.execVcmple md va vb fmt m s
  | .vmov lane vd va m => Sys2Proof.Machine.execVmov lane vd va m s
  | .vsel lane vd va vb m => Sys2Proof.Machine.execVsel lane vd va vb m s
  | .vperm lane vd va vb m => Sys2Proof.Machine.execVperm lane vd va vb m s
  | .vbcast lane vd ra m => Sys2Proof.Machine.execVbcast lane vd ra m s
  | .vins lane vd ra rb => Sys2Proof.Machine.execVins lane vd ra rb s
  | .vext lane rd va rb => Sys2Proof.Machine.execVext lane rd va rb s
  | .vcvt src dst mode vd va part => Sys2Proof.Machine.execVcvt src dst mode vd va part s
  | .vredadd rd va fmt m => Sys2Proof.Machine.execVredadd rd va fmt m s
  | .vredmin rd va fmt m => Sys2Proof.Machine.execVredmin rd va fmt m s
  | .vredmax rd va fmt m => Sys2Proof.Machine.execVredmax rd va fmt m s
  | .vamax rd va fmt m => Sys2Proof.Machine.execVamax rd va fmt m s
  | .vscc mode e5 vd va x => Sys2Proof.Machine.execVscc mode e5 vd va x s
  | .vquant mode q8 vd va x => Sys2Proof.Machine.execVquant mode q8 vd va x s
  | .vfacm mode vd va rb x => Sys2Proof.Machine.execVfacm mode vd va rb x s
  | .mand md ma mb => Sys2Proof.Machine.execMand md ma mb s
  | .mor md ma mb => Sys2Proof.Machine.execMor md ma mb s
  | .mxor md ma mb => Sys2Proof.Machine.execMxor md ma mb s
  | .mnot md ma => Sys2Proof.Machine.execMnot md ma s
  | .mpop rd ma => Sys2Proof.Machine.execMpop rd ma s
  | .mfirst rd ma => Sys2Proof.Machine.execMfirst rd ma s
  | .mset md ra => Sys2Proof.Machine.execMset md ra s
  | .mget rd ma => Sys2Proof.Machine.execMget rd ma s
  | .mm cls a1 b1 ad ra rb x => Sys2Proof.Machine.execMm cls a1 b1 ad ra rb x s
  | .mmg cls a1 b1 ad ra rb x => Sys2Proof.Machine.execMmg cls a1 b1 ad ra rb x s
  | .mmQ group a8 b8 ad ra rb x => Sys2Proof.Machine.execMmQ group a8 b8 ad ra rb x s
  | .aczero ad => Sys2Proof.Machine.execAczero ad s
  | .acld fmt ad ra => Sys2Proof.Machine.execAcld fmt ad ra s
  | .acst fmt rz ad ra => Sys2Proof.Machine.execAcst fmt rz ad ra s
  | .scaccVector h rz ad as ix vb => Sys2Proof.Machine.execScaccVector h rz ad as ix vb s
  | .scaccXreg h rz ad as ix x => Sys2Proof.Machine.execScaccXreg h rz ad as ix x s
  | .cpy tag ra rb x => Sys2Proof.Machine.execCpy tag ra rb x s
  | .cpy2 tag ra rb x => Sys2Proof.Machine.execCpy2 tag ra rb x s
  | .cpyg tag ra rb x => Sys2Proof.Machine.execCpyg tag ra rb x s
  | .cpys tag ra rb x => Sys2Proof.Machine.execCpys tag ra rb x s
  | .cpyl tag reset list ra rb x => Sys2Proof.Machine.execCpyl tag reset list ra rb x s
  | .cpyr tag list ra => Sys2Proof.Machine.execCpyr tag list ra s
  | .evterm idx ra => Sys2Proof.Machine.execEvterm idx ra s
  | .evarm slot ra rb => Sys2Proof.Machine.execEvarm slot ra rb s
  | .evclr rd idx => Sys2Proof.Machine.execEvclr rd idx s
  | .launch rd ra => Sys2Proof.Machine.execLaunch rd ra s
  | .launchRel rd ra => Sys2Proof.Machine.execLaunchRel rd ra s
  | .hsig ring ra rb => Sys2Proof.Machine.execHsig ring ra rb s
  | .propen retract rd ra rb x => Sys2Proof.Machine.execPropen retract rd ra rb x s
  | .predeem rd ra rb => Sys2Proof.Machine.execPredeem rd ra rb s
  | .pquery rd ra => Sys2Proof.Machine.execPquery rd ra s
  | .pretract rd ra => Sys2Proof.Machine.execPretract rd ra s
  | .ctarmRaw ra rb => Sys2Proof.Machine.execCtarmRaw ra rb s
  | .ctarmAmax ra rb => Sys2Proof.Machine.execCtarmAmax ra rb s
  | .ctarmMin ra rb => Sys2Proof.Machine.execCtarmMin ra rb s
  | .ctresW rd rb => Sys2Proof.Machine.execCtresW rd rb s
  | .ctresId rd rb => Sys2Proof.Machine.execCtresId rd rb s
  | .ctcancel rd rb => Sys2Proof.Machine.execCtcancel rd rb s
  | .start k ra rb => Sys2Proof.Machine.execStart k ra rb s
  | .hjoin rd k => Sys2Proof.Machine.execHjoin rd k s
  | .halt => Sys2Proof.Machine.execHalt s
  | .yield => Sys2Proof.Machine.execYield s
  | .follow => Sys2Proof.Machine.execFollow s
  | .unfollow => Sys2Proof.Machine.execUnfollow s
  | .mfsr rd sr => Sys2Proof.Machine.execMfsr rd sr s
  | .mtsr sr ra => Sys2Proof.Machine.execMtsr sr ra s
  | .trap code ra => Sys2Proof.Machine.execTrap code ra s
  | .brk code => Sys2Proof.Machine.execBrk code s
  | .wfe => Sys2Proof.Machine.execWfe s
  | .nop => Sys2Proof.Machine.execNop s
  | .xset xd ra => Sys2Proof.Machine.execXset xd ra s
  | .xld xd ra off => Sys2Proof.Machine.execXld xd ra off s
  | .addiCS0 rd imm => Sys2Proof.Machine.execAddiCS0 rd imm s
  | .addiC rd imm => Sys2Proof.Machine.execAddiC rd imm s
  | .addCS0 rd ra => Sys2Proof.Machine.execAddCS0 rd ra s
  | .addC rd ra => Sys2Proof.Machine.execAddC rd ra s
  | .subC rd ra => Sys2Proof.Machine.execSubC rd ra s
  | .andC rd ra => Sys2Proof.Machine.execAndC rd ra s
  | .orC rd ra => Sys2Proof.Machine.execOrC rd ra s
  | .xorC rd ra => Sys2Proof.Machine.execXorC rd ra s
  | .slliC rd sh => Sys2Proof.Machine.execSlliC rd sh s
  | .ldDC rd ra off => Sys2Proof.Machine.execLdDC rd ra off s
  | .stDC rd ra off => Sys2Proof.Machine.execStDC rd ra off s
  | .beqC ra off => Sys2Proof.Machine.execBeqC ra off s
  | .bneC ra off => Sys2Proof.Machine.execBneC ra off s
  | .jC off => Sys2Proof.Machine.execJC off s
  | .jrC ra => Sys2Proof.Machine.execJrC ra s
  | .andiC rd imm => Sys2Proof.Machine.execAndiC rd imm s
  | .perstReset => Sys2Proof.Machine.execPerstReset s
  | .dieAuthentication => Sys2Proof.Machine.execDieAuthentication s
  | .dieAuthTimeout => Sys2Proof.Machine.execDieAuthTimeout s
  | .rvClearImage => Sys2Proof.Machine.execRvClearImage s
  | .rvAppend => Sys2Proof.Machine.execRvAppend s
  | .rvVerifyWrite => Sys2Proof.Machine.execRvVerifyWrite s
  | .rvReset => Sys2Proof.Machine.execRvReset s
  | .flowFaultAssert => Sys2Proof.Machine.execFlowFaultAssert s
  | .flowFaultDeassert => Sys2Proof.Machine.execFlowFaultDeassert s
  | .flitReceive => Sys2Proof.Machine.execFlitReceive s
  | .flitReplay => Sys2Proof.Machine.execFlitReplay s
  | .portRetrain => Sys2Proof.Machine.execPortRetrain s
  | .portRetrainEnd => Sys2Proof.Machine.execPortRetrainEnd s
  | .portDown => Sys2Proof.Machine.execPortDown s
  | .portBringUp => Sys2Proof.Machine.execPortBringUp s
  | .mldredRoot => Sys2Proof.Machine.execMldredRoot s
  | .memberRead => Sys2Proof.Machine.execMemberRead s
  | .memberTimeout => Sys2Proof.Machine.execMemberTimeout s
  | .mcstStage => Sys2Proof.Machine.execMcstStage s
  | .mcstCommit => Sys2Proof.Machine.execMcstCommit s
  | .memberCommitWrite => Sys2Proof.Machine.execMemberCommitWrite s
  | .killNotice => Sys2Proof.Machine.execKillNotice s
  | .flrPf => Sys2Proof.Machine.execFlrPf s
  | .flrVf => Sys2Proof.Machine.execFlrVf s
  | .cmdRingEnable => Sys2Proof.Machine.execCmdRingEnable s
  | .cmdRingDisable => Sys2Proof.Machine.execCmdRingDisable s
  | .crtailDoorbell => Sys2Proof.Machine.execCrtailDoorbell s
  | .completionRingEnable => Sys2Proof.Machine.execCompletionRingEnable s
  | .tokenRingEnable => Sys2Proof.Machine.execTokenRingEnable s
  | .cpheadWrite => Sys2Proof.Machine.execCpheadWrite s
  | .tkheadWrite => Sys2Proof.Machine.execTkheadWrite s
  | .icctlWrite => Sys2Proof.Machine.execIcctlWrite s
  | .coalesceTimerExpiry => Sys2Proof.Machine.execCoalesceTimerExpiry s
  | .msixUnmask => Sys2Proof.Machine.execMsixUnmask s
  | .offloadEntryDone => Sys2Proof.Machine.execOffloadEntryDone s
  | .replayEntryDone => Sys2Proof.Machine.execReplayEntryDone s
  | .fwMailboxMessage => Sys2Proof.Machine.execFwMailboxMessage s
  | .partCreate => Sys2Proof.Machine.execPartCreate s
  | .partDestroy => Sys2Proof.Machine.execPartDestroy s
  | .groupSet => Sys2Proof.Machine.execGroupSet s
  | .attest => Sys2Proof.Machine.execAttest s
  | .keyImport => Sys2Proof.Machine.execKeyImport s
  | .traceSet => Sys2Proof.Machine.execTraceSet s
  | .inspect => Sys2Proof.Machine.execInspect s
  | .mapPage => Sys2Proof.Machine.execMapPage s
  | .unmapPage => Sys2Proof.Machine.execUnmapPage s
  | .unmapDone => Sys2Proof.Machine.execUnmapDone s
  | .energyUpdate => Sys2Proof.Machine.execEnergyUpdate s
  | .throttleEnd => Sys2Proof.Machine.execThrottleEnd s
  | .dmCollapse => Sys2Proof.Machine.execDmCollapse s
  | .dmWake => Sys2Proof.Machine.execDmWake s
  | .dwellExpiry => Sys2Proof.Machine.execDwellExpiry s
  | .collapseComplete => Sys2Proof.Machine.execCollapseComplete s
  | .dmtimerExpiry => Sys2Proof.Machine.execDmtimerExpiry s
  | .wakeWrite => Sys2Proof.Machine.execWakeWrite s
  | .wakeComplete => Sys2Proof.Machine.execWakeComplete s
  | .peekRead => Sys2Proof.Machine.execPeekRead s
  | .peekIdle => Sys2Proof.Machine.execPeekIdle s
  | .entryRegister => Sys2Proof.Machine.execEntryRegister s
  | .armWindowOpen => Sys2Proof.Machine.execArmWindowOpen s
  | .armWindowClose => Sys2Proof.Machine.execArmWindowClose s
  | .roundEnd => Sys2Proof.Machine.execRoundEnd s
  | .channelFail => Sys2Proof.Machine.execChannelFail s
  | .nodeBind => Sys2Proof.Machine.execNodeBind s
  | .nodeSelect => Sys2Proof.Machine.execNodeSelect s
  | .nodeComplete => Sys2Proof.Machine.execNodeComplete s
  | .levelPromotion => Sys2Proof.Machine.execLevelPromotion s
  | .preemptChoice => Sys2Proof.Machine.execPreemptChoice s
  | .collectorStop => Sys2Proof.Machine.execCollectorStop s
  | .nodeSuspend => Sys2Proof.Machine.execNodeSuspend s
  | .yieldExpiry => Sys2Proof.Machine.execYieldExpiry s
  | .wfeTimeout => Sys2Proof.Machine.execWfeTimeout s
  | .followTimeout => Sys2Proof.Machine.execFollowTimeout s
  | .messageDeliver => Sys2Proof.Machine.execMessageDeliver s
  | .engineJobEnd => Sys2Proof.Machine.execEngineJobEnd s
  | .niThreadEnd => Sys2Proof.Machine.execNiThreadEnd s
  | .reconcileJobEnd => Sys2Proof.Machine.execReconcileJobEnd s
  | .cwaitRequest => Sys2Proof.Machine.execCwaitRequest s
  | .uncorrectableError => Sys2Proof.Machine.execUncorrectableError s
  | .correctableError => Sys2Proof.Machine.execCorrectableError s
  | .frameRetire => Sys2Proof.Machine.execFrameRetire s
  | .fabricRequest => Sys2Proof.Machine.execFabricRequest s
  | .perform => Sys2Proof.Machine.execPerform s
  | .engineStart => Sys2Proof.Machine.execEngineStart s
  | .holdSend => Sys2Proof.Machine.execHoldSend s
  | .apply => Sys2Proof.Machine.execApply s
  | .evict => Sys2Proof.Machine.execEvict s
  | .dwctlFreeze => Sys2Proof.Machine.execDwctlFreeze s
  | .dwctlResume => Sys2Proof.Machine.execDwctlResume s
  | .dwctlStep => Sys2Proof.Machine.execDwctlStep s
  | .stepEnd => Sys2Proof.Machine.execStepEnd s
  | .dwctlStopeng => Sys2Proof.Machine.execDwctlStopeng s
  | .dwctlHaltc => Sys2Proof.Machine.execDwctlHaltc s
  | .breakpointStop => Sys2Proof.Machine.execBreakpointStop s
  | .debugWindowWrite => Sys2Proof.Machine.execDebugWindowWrite s
  | .faultPacketDeliver => Sys2Proof.Machine.execFaultPacketDeliver s
  | .noticeDeliver => Sys2Proof.Machine.execNoticeDeliver s
  | .registerWrite => Sys2Proof.Machine.execRegisterWrite s
  | .hardPowerCap => Sys2Proof.Machine.execHardPowerCap s
  | .thermalAlert => Sys2Proof.Machine.execThermalAlert s
  | .pwrgoodChange => Sys2Proof.Machine.execPwrgoodChange s

end Sys2Proof.Machine
end

