-- ==== Sys2Proof/Machine/Fetch.lean ====
section
/-! DEFINITION. Issue: fetching an instruction's bytes from IM, decoding them, the conditions of R161, R211 and R418 under
which a context issues, and the stream that followers execute (R167, R168, R288, R289, R301). -/
namespace Sys2Proof.Machine

/-- The bytes from an offset of IM: four, or those that are left (R288, R289). -/
def fetchBytes (c : Core) (pc : Nat) : List Byte := Memory.reads c.im pc (min 4 (65536 - pc))

def fetchDecode (c : Core) (pc : Nat) : Except DecErr (Instr × BitVec 32 × Nat) := decodeBytes (fetchBytes c pc)

/-- What a follower's c0 has still to execute comes before its own fetch. -/
def streamHead (c : Core) (k : Nat) : Option FollowEntry := if k = 0 then c.fbuf.head? else none

/-- Own fetch is gated off while c0 follows (R167). -/
def fetchGated (c : Core) (k : Nat) : Bool := k = 0 && c.fstate = 2 && c.fbuf.isEmpty

/-- A follower buffers up to 8 instructions (R167). -/
def followBuffer : Nat := 8

def followersFull (s : State) (core : Nat) : Bool :=
  (followersOf s core).any (fun j => decide (followBuffer ≤ (s.core j).fbuf.length))

/-- The partition of a core is ACTIVE; contexts of another do not run (R106). -/
def coreAwake (s : State) (core : Nat) : Bool := match s.partOf core with | some p => s.partAwake p | none => true

/-- Instructions whose next PC a follower computes for itself (R168). -/
def divergent : Instr → Bool
  | .beq _ _ _ | .bne _ _ _ | .blt _ _ _ | .bge _ _ _ | .bltu _ _ _ | .bgeu _ _ _ | .jalr _ _ _
  | .beqC _ _ | .bneC _ _ | .jrC _ => true
  | _ => false

/-- The instruction has retired: its context is not kept at it, and the core has not stopped at it. -/
def retired (s : State) (core k : Nat) : Bool :=
  (s.ctx core k).status != .live || ((s.ctx core k).sleep = .awake && !(s.ctx core k).stopped)

/-- The outcome or the target of a follower's branch differs from its leader's (R168). -/
def parted (s : State) (core : Nat) (e : FollowEntry) : Bool :=
  divergent e.instr && ((s.ctx core 0).pc != e.nextPc || branchTaken s e.instr != e.taken)

/-- A follower has executed an instruction of the stream; one that parted from its leader follows no longer. -/
def streamDone (s : State) (core : Nat) (e : FollowEntry) : State :=
  if parted s core e then endFollow s core 1 false else popFollow s core e.pc

/-- What follows an instruction of context `k` that exec has answered with a next state. -/
def afterIssue (s : State) (core k : Nat) (lead : Bool) (head : Option FollowEntry) (pc : DWord) (i : Instr) (w : BitVec 32) : State :=
  if !retired s core k then s
  else match head with
  | some e => streamDone s core e
  | none => if lead then pushFollow s core { pc := pc, instr := i, word := w, nextPc := (s.ctx core k).pc, taken := branchTaken s i } else s

/-- A pending plain `cwait` holds the instruction at issue (R418). -/
def heldAtIssue (s : State) (core k : Nat) (i : Instr) : Bool := heldByWait i && (s.ctx core k).plainWait.isSome

/-- The state in which a context's instruction is executed: the context that issues, and its word. -/
def issuing (s : State) (core k : Nat) (w : BitVec 32) : State :=
  { s with
    cur := (core, k)
    word := w }

/-- What the issue of a decoded instruction makes; none where its operands, or its followers' buffers, are not ready. -/
def tryInstr (s : State) (core k : Nat) (head : Option FollowEntry) (pc : DWord) (i : Instr) (w : BitVec 32) : Option Result :=
  let c := s.core core
  let lead := k = 0 && c.fstate = 1
  if !regsReady c k i || (lead && followersFull s core) then none
  else if heldAtIssue s core k i then some (.next (sleepAt s core k .held))
  else some (match exec i (issuing s core k w) with
    | .next t => .next (afterIssue t core k lead head pc i w)
    | .fault f => .fault f
    | .refused r => .refused r)

/-- A word that does not decode faults ILLEGAL at issue (R300, R301). -/
def issueIllegal (s : State) (core k : Nat) (pc : Nat) (e : DecErr) : State :=
  let w := BitVec.ofNat 32 (imWord (s.core core) pc)
  takeFaultAt (issuing s core k w) core k (flt 1 e.sub) w

/-- What the issue of context `k` of a core would make, whoever's turn it is; none where it cannot issue. -/
def tryIssue (s : State) (core k : Nat) : Option Result :=
  let c := s.core core
  let pc := issuePc c k
  if !mayIssue s core k || fetchGated c k || !coreAwake s core || !slotOpen s core then none
  else if pc.toNat % 2 != 0 || 65536 < pc.toNat then some (.fault (.pcOutsideIm pc))
  else if ibpHit c k pc then some (.next (breakAt s core k pc))
  else match streamHead c k with
  | some e => tryInstr s core k (some e) e.pc e.instr e.word
  | none => match fetchDecode c pc.toNat with
    | .error e => some (.next (issueIllegal s core k pc.toNat e))
    | .ok (i, w, _) => tryInstr s core k none pc i w

/-! ### One issue a cycle, in turn (R161, R162) -/

/-- The instruction of a context took an issue slot: it retired, faulted or fell asleep, and was not asleep before. One that only
stalls takes none. -/
def tookSlot (s t : State) (core k : Nat) : Bool :=
  let c := t.ctx core k
  !(s.ctx core k).sleep.issued && (c.stopped || c.status != .live || c.sleep = .awake || c.sleep.issued)

/-- The context is ready. -/
def ready (s : State) (core k : Nat) : Bool :=
  match tryIssue s core k with
  | none => false
  | some (.next t) => tookSlot s t core k
  | some _ => true

/-- The contexts that come before `k`: from the one after that which issued last. -/
def beforeTurn (c : Core) (k : Nat) : List Nat := ((List.range 11).map (fun i => (c.lastIssue + 1 + i) % 11)).takeWhile (· != k)

/-- The core has issued nothing in this cycle, and no context before `k` is ready. -/
def myTurn (s : State) (core k : Nat) : Bool :=
  (s.core core).issuedAt != some s.clock && (beforeTurn (s.core core) k).all (fun j => !ready s core j)

def noteIssue (s : State) (core k : Nat) : State :=
  s.modCore core (fun c => { c with lastIssue := k, issuedAt := some s.clock })

/-- Context `k` of a core issues, where it may and it is its turn. -/
def issue (s : State) (core k : Nat) : Result :=
  match tryIssue s core k with
  | none => .next s
  | some (.next t) =>
    if !tookSlot s t core k then .next t else if myTurn s core k then .next (noteIssue t core k) else .next s
  | some r => if myTurn s core k then r else .next s

/-- A context of the core is ready. -/
def anyReady (s : State) (core : Nat) : Bool := (List.range 11).any (ready s core)

/-- A core that has not used this cycle's issue slot has a ready context: the cycle does not end before it issues. -/
def owesIssue (s : State) : Bool := s.cores.any (fun e => e.2.issuedAt != some s.clock && anyReady s e.1)

/-! ### Placing an instruction where the next one is fetched -/

/-- The longest instruction: 4 bytes (R288). -/
def placeWord (m : Bytes) (pc nbits w : Nat) : Bytes := Memory.writes m pc (layWord (w % 2 ^ nbits))

/-- A context that issues the instruction at its PC, with nothing outstanding. -/
def Context.ready (c : Context) : Context :=
  { c with
    status := .live
    sleep := .awake
    cwait := none
    stopped := false
    busyS := 0
    busyV := 0
    busyM := 0
    busyX := 0
    ibpPass := some c.pc }

def Core.readyAt (c : Core) (k : Nat) : Core :=
  { c.modContext k Context.ready with
    lastIssue := (k + 10) % 11
    issuedAt := none
    issue := .running
    fstate := 0
    fbuf := [] }

end Sys2Proof.Machine
end

