-- ==== Sys2Proof/Machine/Policy.lean ====
section
/-! DEFINITION. What the machine does next: a move of State.schedule, or, where that is empty, the first move of a fixed
list that changes something, or a cycle of the clock. All moves of a cycle are made before the clock goes on, so none that stays
possible waits for ever (R210, log 1). -/
namespace Sys2Proof.Machine

/-- Moments that the CLOCK does not pass before what is due then has happened: of a partition the next update of its account (R88), the end
of a throttling within 2 µs of the update that ends it, and while throttled the next cycle in which its cores may issue (R91). -/
def partDues (s : State) (p : Nat) : List Nat :=
  let q := s.part p
  [q.updatedAt + cyclesPerUs] ++ q.restored.toList.map (· + 2 * cyclesPerUs) ++ (if q.throttled then [s.clock + 4 - s.clock % 4] else [])

/-- The end of a sleep that the CLOCK bounds, where the context may then go on (R163, R166). -/
def sleepDue (s : State) (core k : Nat) : List Nat :=
  if !mayRetire s core k then []
  else match (s.ctx core k).sleep with
    | .yield t => [t + yieldCycles]
    | .wfe t _ => [t + wfeCycles]
    | .follow t => if k = 0 && leaderOf s core = core then [t + followCycles] else []
    | _ => []

def dues (s : State) : List Nat :=
  (presentParts s).flatMap (partDues s) ++ s.cores.flatMap (fun e => (List.range 11).flatMap (sleepDue s e.1))

/-- Cycles that may pass at once: none before a ready context has issued in this cycle (R161, R162), one while a context is ready, and
none beyond what is due. -/
def maxCycles (s : State) (n : Nat) : Nat :=
  if owesIssue s then 0
  else (dues s).foldl (fun m t => min m (t - s.clock)) (if s.cores.any (fun e => anyReady s e.1) then min n 1 else n)

/-- Cycles pass: the crossbars work in each; idleness is looked at first (R94). -/
def passTime (s : State) (n : Nat) : State :=
  let s := s.cores.foldl (fun s e => crossbarCycles n s e.1) (noteIdle s)
  { s with clock := s.clock + n }

/-- At most `n` cycles pass. -/
def passCycles (s : State) (n : Nat) : State := if maxCycles s n = 0 then s else passTime s (maxCycles s n)

/-- The host writes its own memory, below bus address 2^42 (R9). -/
def hostStore (s : State) (bus : Nat) (bs : List Byte) : State :=
  if bus + bs.length ≤ 2 ^ 42 then hostWrite s bus bs else s

/-- A cause of a core's engines or crossbar froze the core between `s` and `t`. -/
def engineFroze (s t : State) (core : Nat) : Bool :=
  (s.core core).issue != .frozen && (t.core core).issue = .frozen &&
  (match (t.core core).packet with | some k => k.origin = 1 || k.origin = 2 | none => false)

/-- An instruction of the core, at its turn in this cycle, faults. -/
def faultsNow (s : State) (core : Nat) : Bool :=
  (List.range 11).any (fun k => match tryIssue s core k with
    | some (.next t) => tookSlot s t core k && (t.ctx core k).stopped && myTurn s core k
    | _ => false)

/-- Of a fault of an instruction and one of an engine in the same cycle the instruction's comes first: the engine's unit is not done yet
(R268). An error that comes from outside a core waits for nothing. -/
def engineYields (s t : State) : Instr → Bool
  | .uncorrectableError => false
  | _ => s.cores.any (fun e => engineFroze s t e.1 && faultsNow s e.1)

/-- An event happens. -/
def doEvent (s : State) (i : Instr) : Result :=
  match exec i s with
  | .next t => .next (if engineYields s t i then s else t)
  | r => r

/-- Carry out a move. An event brings its input with it; one whose input names no agent does nothing. -/
def doMove (s : State) : Move → Result
  | .issue core k => issue s core k
  | .event i inp => if inp.wf then doEvent { s with input := inp } i else .next s
  | .tick n => .next (passCycles s n)
  | .hostWrite bus bs => .next (hostStore s bus bs)
  | .remoteArrive g m => .next (remoteArrival s g m)
  | .route pkg ports => .next { s with routes := tput s.routes pkg ports }
  | .traceLoad p busy => .next (s.modPart p (fun q => { q with trload := busy }))

/-! ### The moves tried when none is scheduled -/

def Input.at (core ctx : Nat) : Input :=
  { Input.none with
    core := core
    ctx := ctx }

/-- The end of a sleep that the clock bounds. -/
def sleepMoves (core k : Nat) : Sleep → List Move
  | .yield _ => [.event .yieldExpiry (Input.at core k)]
  | .wfe _ _ => [.event .wfeTimeout (Input.at core k)]
  | .follow _ => [.event .followTimeout (Input.at core k)]
  | _ => []

/-- Moves of one core: the end of a step, its accesses and engines, its network interface, its inbox, its issue. -/
def coreMoves (s : State) (core : Nat) : List Move :=
  let c := s.core core
  let on := Input.at core 0
  let keyed := fun (n : Nat) => { on with key := n }
  let engine := fun (e : Engine) => { on with engine := e }
  let waits := (List.range 11).filter (fun k => (c.context k).cwait.isSome)
  [.event .stepEnd on] ++
  c.accs.map (fun e => .event .perform (keyed e.id)) ++
  [Engine.vector, .matrix, .copy].flatMap (fun e => [.event .engineStart (engine e), .event .engineJobEnd (engine e)]) ++
  [.event .reconcileJobEnd on] ++
  c.ni.map (fun t => .event .niThreadEnd (keyed t.id)) ++
  c.inbox.map (fun m => .event .messageDeliver { on with handle := m.handle }) ++
  waits.map (fun k => .event .cwaitRequest (Input.at core k)) ++
  (List.range 11).flatMap (fun k => sleepMoves core k (c.context k).sleep) ++
  [.event .collectorStop on] ++
  (List.range 11).map (fun i => .issue core ((c.lastIssue + 1 + i) % 11))

/-- Moves of a channel of the contention plane (R108 to R113). -/
def channelMoves (s : State) (ch : Nat) : List Move :=
  let on : Input := { Input.none with ch := ch }
  (s.chan ch).arming.map (fun e => .event .entryRegister { Input.at e.core e.ctx with ch := ch }) ++
  [.event .armWindowOpen on, .event .armWindowClose on, .event .roundEnd on, .event .channelFail on]

/-- Moves of a partition: its reports, its offload lists, its unmaps, its dormancy. -/
def partMoves (s : State) (p : Nat) : List Move :=
  let on : Input := { Input.none with part := p }
  [.event .faultPacketDeliver on, .event .noticeDeliver on, .event .unmapDone on] ++
  [.event .energyUpdate on, .event .throttleEnd on, .event .dwellExpiry on, .event .collapseComplete on, .event .dmtimerExpiry on,
    .event .wakeComplete { on with authOk := 0xf }] ++
  (List.range 8).flatMap (fun l =>
    let o := s.offList p l
    (List.range o.entries.length).map (fun e => .event .offloadEntryDone { on with list := l, entry := e }) ++
    (List.range o.replays.length).map (fun e => .event .replayEntryDone { on with list := l, entry := e }))

/-- A request that waits in a mailbox is served: the event of its code (R69). -/
def mailMoves (s : State) (b : MailBox) : List Move :=
  let on : Input := { Input.none with mailbox := b }
  if !(s.mailbox b).busy then []
  else match recField (s.taken b) 0 2 with
    | 1 => [.event .partCreate on] | 2 => [.event .partDestroy on] | 3 => [.event .groupSet on] | 4 => [.event .attest on]
    | 5 => [.event .keyImport on] | 6 => [.event .traceSet on] | 7 => [.event .inspect on]
    | 0x10 => [.event .mapPage on] | 0x11 => [.event .unmapPage on]
    | _ => []

/-- fw2 moves the pages that stand on lasting frames, each to the first frame that it may take (R287). -/
def retireMoves (s : State) (p : Nat) : List Move :=
  let places := fun (g : Page) => (List.range 4).flatMap (fun d => (List.range (0x2400000000 / pageSize g.attr)).map (fun k =>
    d * 0x4000000000 + k * pageSize g.attr))
  let move := fun (g : Page) =>
    let f := (places g).find? (fun a => freeFrame s p (g.move a))
    Move.event .frameRetire { Input.none with part := p, va := g.va, ok := f.isSome, line := f.getD 0 }
  if s.badFrames.isEmpty then []
  else ((s.part p).pages.filter (onBadFrame s)).map move ++
    (s.unmaps.filter (fun u => u.mb.isNone && u.part = p)).map (fun u => move u.page)

/-- A die that has not proved itself in time; a reset of the function that goes on; a pseudo-channel left idle (R78, R41, R104). -/
def chipMoves (s : State) : List Move :=
  s.boot.authWait.map (fun d => .event .dieAuthTimeout { Input.none with die := d }) ++
  (if s.flr then [.event .flrPf Input.none] else []) ++
  s.awakePcs.map (fun e => .event .peekIdle { Input.none with line := pcLine e.1 })

/-- Moves of a node. -/
def nodeMoves (n : Node) : List Move :=
  let on : Input := { Input.none with node := n.key }
  [.event .nodeBind on, .event .nodeComplete on, .event .nodeSuspend on, .event .levelPromotion on, .event .preemptChoice on] ++
  (List.range (max 1 n.pieces.length)).map (fun i => .event .perform { on with key := n.key, amount := n.pieces.getD i 0 })

/-- Copies without dirty bytes are dropped every so many cycles: an EVICT stays possible, and so is made some day (R210). -/
def evictPeriod : Nat := 4096

def evictMoves (s : State) : List Move :=
  if s.clock % evictPeriod != evictPeriod - 1 then []
  else (List.range 4).flatMap (fun d => (s.die d).holding.map (fun h => .event .evict { Input.none with die := d, line := h.line }))

/-- Moves of the holding copies and the write-through paths (R221): a SEND of all dirty bytes of a copy, or of one store's. -/
def holdMoves (s : State) : List Move :=
  (List.range 4).flatMap (fun d => (s.die d).holding.flatMap (fun h => (h.mask :: h.stores.map (fun x => h.whole x.mask)).map (fun m =>
    .event .holdSend { Input.none with die := d, line := h.line, mask := m }))) ++
  s.paths.map (fun e => .event .apply { Input.none with die := e.1 / 1000, slice := e.1 % 1000 })

/-- Timers of the interrupt vectors (R61). -/
def timerMoves (s : State) : List Move :=
  s.vfs.flatMap (fun e => ((List.range 16).filter (fun k => (e.2.vector k).timer.isSome)).map (fun k =>
    .event .coalesceTimerExpiry { Input.none with vf := e.1, vector := k }))

/-- Moves of the operations under way between endpoints (R30 to R36). -/
def collMoves (s : State) : List Move :=
  s.colls.flatMap (fun o =>
    let on : Input := { Input.none with op := o.key }
    (List.range o.group.members.length).flatMap (fun i =>
      [.event .memberRead { on with member := i }, .event .mcstStage { on with member := i },
        .event .memberTimeout { on with member := i }]) ++
    [.event .mldredRoot on, .event .mcstCommit on] ++
    (List.range o.group.members.length).map (fun i => .event .memberCommitWrite { on with member := i })) ++
  s.kills.map (fun k => .event .killNotice { Input.at k.1 k.2 with pkg := s.pkgId.toNat })

def allMoves (s : State) : List Move :=
  s.cores.flatMap (fun e => coreMoves s e.1) ++ collMoves s ++ (List.range 16).flatMap (channelMoves s) ++
  (presentParts s).flatMap (fun p => partMoves s p ++ retireMoves s p) ++
  (MailBox.management :: s.supMail.map (fun e => MailBox.supervisor e.1)).flatMap (mailMoves s) ++ chipMoves s ++ s.nodes.flatMap nodeMoves ++ [.event .nodeSelect Input.none] ++
  timerMoves s ++ holdMoves s ++ evictMoves s

/-- A move changes the machine, apart from which context and which input stand last. -/
def changes (s : State) (m : Move) : Bool :=
  match doMove s m with
  | .next t => { t with cur := s.cur, word := s.word, input := s.input } != s
  | .fault _ => true
  | .refused _ => true

/-- The first move that changes something, or a cycle of the clock. -/
def chooseMove (s : State) : Move := ((allMoves s).find? (changes s)).getD (.tick 1)

end Sys2Proof.Machine
end

