-- ==== Sys2Proof/Machine/Step.lean ====
section
/-! DEFINITION. One step of the machine, and an instruction placed where the next step fetches it. -/
namespace Sys2Proof.Machine

/-- The next move of the schedule, or else the one that the policy chooses. -/
def step (s : State) : Host.Outcome State Fault Refusal :=
  match s.schedule with
  | m :: r => doMove { s with schedule := r } m
  | [] => doMove s (chooseMove s)

/-- The instruction whose bits are `w` stands at the PC of the context that issued last, and that context issues next. -/
def State.withFetchWord (s : State) (nbits w : Nat) : State :=
  let core := s.cur.1
  let k := s.cur.2
  let pc := (s.ctx core k).pc.toNat
  let s := s.modCore core (fun c => { c.readyAt k with im := placeWord c.im pc nbits w })
  { s with schedule := [.issue core k] }

end Sys2Proof.Machine
end

