-- ==== Sys2Proof/Safety.lean ====
section
/-! DEFINITION. What a safe run is, and what an instruction leaves, in the terms that statements use. -/
namespace Sys2Proof.Safety
open Sys2Proof.Machine

/-- The machine goes on: no fault of the model and no refusal ends the run. -/
def Goes (s : State) : Prop := ∃ t, step s = .next t

/-- A run of `n` steps that goes on throughout. -/
def SafeRun : Nat → State → Prop
  | 0, _ => True
  | n + 1, s => ∃ t, step s = .next t ∧ SafeRun n t

/-- Every memory that stands in a state is in its canonical form: addresses rise strictly, and no listed byte is 0. -/
def MemoryOk (s : State) : Bool :=
  Memory.wf s.mem && s.cores.all (fun c => Memory.wf c.2.im && Memory.wf c.2.lm) &&
  s.parts.all (fun p => Memory.wf p.2.sched) && Memory.wf s.mail.req && Memory.wf s.mail.resp && Memory.wf s.boot.stage

/-- The memories of every core, and of every core image that a partition or a node keeps, are in their canonical form, and every poisoned
line lies at a multiple of 128. -/
def CoreMemoryOk (s : State) : Bool :=
  let ok := fun (c : Core) => Memory.wf c.im && Memory.wf c.lm
  s.cores.all (fun e => ok e.2) && s.parts.all (fun p => p.2.savedCores.all (fun e => ok e.2)) &&
  s.nodes.all (fun n => n.images.all (fun g => ok g.core)) && s.poison.all (fun l => l % 128 = 0)

/-! ### The running context -/

/-- The running context is one of its core's eleven and is not asleep (R155, R163). -/
abbrev Runs (s : State) : Prop := s.cur.2 < 11 ∧ s.here.sleep.asleep = false

/-- The partition of a core records no trace (R86). -/
def Untraced (s : State) (core : Nat) : Prop := ∀ p, s.partOf core = some p → (s.part p).trctl = 0

/-- The running context has retired its instruction and goes on at `pc`; the instruction had the effect `f` on the registers
of the context, and no other effect. A stepped instruction has then ended its step (R277). -/
def goneTo (s : State) (pc : DWord) (f : Context → Context) : State :=
  s.modCore s.cur.1 (fun c => { c.modContext s.cur.2 (fun x => { f x with pc := pc, sleep := .awake, ibpPass := none }) with
    stepDone := c.stepDone || (c.issue = .stepping && c.stepTarget = s.cur.2) })

/-- As `goneTo`, past an instruction of `len` bytes. -/
def after (s : State) (len : Nat) (f : Context → Context) : State := goneTo s (s.here.pc + b64 len) f

/-- Only registers of the running context differ: its core apart from it, every other core, every byte of memory and every
other piece of the machine are as they were, but for the end of a step (R277). -/
def OnlyHere (s t : State) : Prop :=
  t = { s with cores := t.cores } ∧
  (∀ j, j ≠ s.cur.1 → t.core j = s.core j) ∧
  t.me = { s.me with
    ctx := t.me.ctx
    stepDone := t.me.stepDone } ∧
  (∀ k, k ≠ s.cur.2 → t.me.context k = s.me.context k)

/-- The registers of a context apart from its PC and its scalar registers are as they were; it is awake. -/
def OnlyScalars (c d : Context) : Prop :=
  d = { c with
    s := d.s
    pc := d.pc
    sleep := .awake
    ibpPass := none }

end Sys2Proof.Safety
end

