-- ==== Sys2Proof/Certificates/Slice0/Obligations.lean ====
section
/-! DEFINITION. The statements for the provers. -/
open Sys2Proof Sys2Proof.Machine Sys2Proof.Safety

/-! ### Integer instructions -/

/-- R308, R309: every operation of major 0x00 writes Gpr(rd) as the table gives, and never faults; division truncates toward
zero. -/
def Obligations.RegisterOperations : Prop :=
  (∀ (s : State) (rd ra rb : Reg), Runs s →
    let a := s.gpr ra
    let b := s.gpr rb
    let writes := fun (i : Instr) (v : Int) => exec i s = .next (after s 4 (fun c => c.setGpr rd.toNat (BitVec.ofInt 64 v)))
    writes (.add rd ra rb) (a.toInt + b.toInt) ∧
    writes (.sub rd ra rb) (a.toInt - b.toInt) ∧
    writes (.and rd ra rb) (a &&& b).toNat ∧
    writes (.or rd ra rb) (a ||| b).toNat ∧
    writes (.xor rd ra rb) (a ^^^ b).toNat ∧
    writes (.sll rd ra rb) (a.toNat * 2 ^ (b.toNat % 64)) ∧
    writes (.srl rd ra rb) (a.toNat / 2 ^ (b.toNat % 64)) ∧
    writes (.sra rd ra rb) (a.toInt / 2 ^ (b.toNat % 64)) ∧
    writes (.slt rd ra rb) (if a.toInt < b.toInt then 1 else 0) ∧
    writes (.sltu rd ra rb) (if a.toNat < b.toNat then 1 else 0) ∧
    writes (.mul rd ra rb) (a.toInt * b.toInt) ∧
    writes (.mulh rd ra rb) (a.toInt * b.toInt / 2 ^ 64) ∧
    writes (.mulhN rd ra rb) (a.toNat * b.toNat / 2 ^ 64) ∧
    writes (.min rd ra rb) (min a.toInt b.toInt) ∧
    writes (.max rd ra rb) (max a.toInt b.toInt) ∧
    writes (.minN rd ra rb) (min a.toNat b.toNat) ∧
    writes (.maxN rd ra rb) (max a.toNat b.toNat)) ∧
  (∀ (s : State) (rd ra rb : Reg), Runs s →
    let a := s.gpr ra
    let b := s.gpr rb
    let writes := fun (i : Instr) (v : Int) => exec i s = .next (after s 4 (fun c => c.setGpr rd.toNat (BitVec.ofInt 64 v)))
    let q : Int := if b = 0 then -1 else if a.toInt = -2 ^ 63 ∧ b.toInt = -1 then -2 ^ 63 else a.toInt.tdiv b.toInt
    let m : Int := if b = 0 then a.toInt else if a.toInt = -2 ^ 63 ∧ b.toInt = -1 then 0 else a.toInt - q * b.toInt
    let qn : Int := if b = 0 then -1 else (a.toNat : Int).tdiv b.toNat
    let mn : Int := if b = 0 then a.toNat else a.toNat - qn * b.toNat
    writes (.div rd ra rb) q ∧ writes (.rem rd ra rb) m ∧ writes (.divN rd ra rb) qn ∧ writes (.remN rd ra rb) mn)

/-- R310, R311: the immediate operations of majors 0x01 to 0x05, the kinds of major 0x05 that are refused, and `lui`, which
writes the sign-extended immediate times 4,096. R367, R327, R328: the mask operations (`mpop` counts the 1 bits, `mfirst` gives the
lowest 1 bit, or 64); `nop` does nothing; `xset` writes an extension register and nothing else. -/
def Obligations.ImmediateAndMaskOperations : Prop :=
  (((∀ (s : State) (rd ra : Reg) (imm : BitVec 15) (imm12 : BitVec 12) (sh : BitVec 6), Runs s →
    let a := s.gpr ra
    let writes := fun (i : Instr) (v : Int) => exec i s = .next (after s 4 (fun c => c.setGpr rd.toNat (BitVec.ofInt 64 v)))
    writes (.addi rd ra imm) (a.toInt + imm.toInt) ∧
    writes (.andi rd ra imm) (a &&& imm.signExtend 64).toNat ∧
    writes (.ori rd ra imm) (a ||| imm.signExtend 64).toNat ∧
    writes (.xori rd ra imm) (a ^^^ imm.signExtend 64).toNat ∧
    writes (.slli rd ra sh) (a.toNat * 2 ^ sh.toNat) ∧
    writes (.srli rd ra sh) (a.toNat / 2 ^ sh.toNat) ∧
    writes (.srai rd ra sh) (a.toInt / 2 ^ sh.toNat) ∧
    writes (.slti rd ra imm12) (if a.toInt < imm12.toInt then 1 else 0) ∧
    writes (.sltiu rd ra imm12) (if a.toNat < (imm12.signExtend 64).toNat then 1 else 0)) ∧
  (∀ w : Nat, w < 2 ^ 32 → w % 2 = 1 → w / 2 % 64 = 5 → 5 ≤ w / 2 ^ 29 → decode32 w = .error .badFn)) ∧
  (∀ (s : State) (rd : Reg) (imm : BitVec 20), Runs s →
    exec (.lui rd imm) s = .next (after s 4 (fun c => c.setGpr rd.toNat (BitVec.ofInt 64 (imm.toInt * 4096)))))) ∧
  ((∀ (s : State) (rd ra : Reg) (md ma mb : BitVec 3), Runs s →
    let a := s.mr ma.toNat
    let b := s.mr mb.toNat
    let writes := fun (i : Instr) (v : DWord) => exec i s = .next (after s 4 (fun c => { c with m := vset c.m md.toNat v }))
    let scalar := fun (i : Instr) (v : DWord) => exec i s = .next (after s 4 (fun c => c.setGpr rd.toNat v))
    writes (.mand md ma mb) (a &&& b) ∧
    writes (.mor md ma mb) (a ||| b) ∧
    writes (.mxor md ma mb) (a ^^^ b) ∧
    writes (.mnot md ma) (~~~a) ∧
    writes (.mset md ra) (s.gpr ra) ∧
    scalar (.mget rd ma) a ∧
    scalar (.mpop rd ma) (BitVec.ofNat 64 ((List.range 64).countP a.getLsbD)) ∧
    (a = 0 → scalar (.mfirst rd ma) 64) ∧
    (∀ i, a.getLsbD i = true → (∀ j, j < i → a.getLsbD j = false) → scalar (.mfirst rd ma) (BitVec.ofNat 64 i))) ∧
  (∀ (s : State) (xd : BitVec 3) (ra : Reg), Runs s →
    exec .nop s = .next (after s 4 id) ∧
    exec (.xset xd ra) s = .next (after s 4 (fun c => { c with x := vset c.x xd.toNat (s.gpr ra) }))))

/-! ### Control transfer -/

/-- R312, with the targets of R315: a branch that is taken goes to Pc + 2 × offset, any other to NextPc; a target outside
0 to 65,534 faults ALIGN, IMTARGET. A record of the branch may enter the trace (R87), which changes no core. -/
def Obligations.Branches : Prop :=
  ∀ (s : State) (ra rb : Reg) (off : BitVec 15), Runs s → s.here.pc.toNat % 2 = 0 →
    let a := s.gpr ra
    let b := s.gpr rb
    let target : Int := s.here.pc.toNat + 2 * off.toInt
    let branch := fun (i : Instr) (taken : Prop) =>
      (¬taken → exec i s = .next (after s 4 id)) ∧
      (taken → 0 ≤ target → target ≤ 65534 → ∃ t, exec i s = .next t ∧ t.cores = (goneTo s (BitVec.ofInt 64 target) id).cores ∧
        (Untraced s s.cur.1 → t = goneTo s (BitVec.ofInt 64 target) id)) ∧
      (taken → target < 0 ∨ 65534 < target → exec i s = .next (takeFault s (flt 2 2)))
    branch (.beq ra rb off) (a = b) ∧
    branch (.bne ra rb off) (a ≠ b) ∧
    branch (.blt ra rb off) (a.toInt < b.toInt) ∧
    branch (.bge ra rb off) (b.toInt ≤ a.toInt) ∧
    branch (.bltu ra rb off) (a.toNat < b.toNat) ∧
    branch (.bgeu ra rb off) (b.toNat ≤ a.toNat)

/-- R313, with the targets of R315: `j` goes to Pc + 2 × offset; `jal` writes s1 := NextPc and goes there; a target outside IM
faults with no effect. R314: `jalr` reads its target, then links, then jumps; an odd target or one above 65,534 faults with no effect. -/
def Obligations.Jumps : Prop :=
  (∀ (s : State) (off : BitVec 25), Runs s → s.here.pc.toNat % 2 = 0 →
    let target : Int := s.here.pc.toNat + 2 * off.toInt
    let jump := fun (i : Instr) (f : Context → Context) =>
      (0 ≤ target → target ≤ 65534 → ∃ t, exec i s = .next t ∧ t.cores = (goneTo s (BitVec.ofInt 64 target) f).cores ∧
        (Untraced s s.cur.1 → t = goneTo s (BitVec.ofInt 64 target) f)) ∧
      (target < 0 ∨ 65534 < target → exec i s = .next (takeFault s (flt 2 2)))
    jump (.j off) id ∧ jump (.jal off) (fun c => c.setGpr 1 (s.here.pc + 4))) ∧
  (∀ (s : State) (rd ra : Reg) (imm : BitVec 15), Runs s →
    let target := s.gpr ra + imm.signExtend 64
    (target.toNat % 2 ≠ 0 ∨ 65534 < target.toNat → exec (.jalr rd ra imm) s = .next (takeFault s (flt 2 2))) ∧
    (target.toNat % 2 = 0 → target.toNat ≤ 65534 → ∃ t, exec (.jalr rd ra imm) s = .next t ∧
      t.cores = (goneTo s target (fun c => c.setGpr rd.toNat (s.here.pc + 4))).cores ∧
      (Untraced s s.cur.1 → t = goneTo s target (fun c => c.setGpr rd.toNat (s.here.pc + 4)))))

/-- R295: a 16-bit form does what its alias does, on registers s0 to s15, and NextPc is Pc + 2; `jr.c` faults as R314 gives. -/
def Obligations.CompressedForms : Prop :=
  ∀ (s : State) (rd ra : BitVec 4) (imm : BitVec 7) (sh : BitVec 6), Runs s →
    let d : Reg := rd.setWidth 5
    let a := s.gpr (rd.setWidth 5)
    let b := s.gpr (ra.setWidth 5)
    let writes := fun (i : Instr) (v : DWord) => exec i s = .next (after s 2 (fun c => c.setGpr d.toNat v))
    let goes := fun (i : Instr) (taken : Prop) (target : Int) =>
      (¬taken → exec i s = .next (after s 2 id)) ∧
      (taken → 0 ≤ target → target ≤ 65534 → target % 2 = 0 → ∃ t, exec i s = .next t ∧
        t.cores = (goneTo s (BitVec.ofInt 64 target) id).cores ∧ (Untraced s s.cur.1 → t = goneTo s (BitVec.ofInt 64 target) id)) ∧
      (taken → target < 0 ∨ 65534 < target ∨ target % 2 ≠ 0 → exec i s = .next (takeFault s (flt 2 2)))
    writes (.addiCS0 rd imm) (imm.signExtend 64) ∧
    writes (.addiC rd imm) (a + imm.signExtend 64) ∧
    writes (.addCS0 rd ra) b ∧
    writes (.addC rd ra) (a + b) ∧
    writes (.subC rd ra) (a - b) ∧
    writes (.andC rd ra) (a &&& b) ∧
    writes (.orC rd ra) (a ||| b) ∧
    writes (.xorC rd ra) (a ^^^ b) ∧
    writes (.slliC rd sh) (a <<< sh.toNat) ∧
    writes (.andiC rd imm) (a &&& imm.signExtend 64) ∧
    goes (.beqC ra imm) (b = 0) (s.here.pc.toNat + 2 * imm.toInt) ∧
    goes (.bneC ra imm) (b ≠ 0) (s.here.pc.toNat + 2 * imm.toInt) ∧
    (∀ off : BitVec 11, goes (.jC off) True (s.here.pc.toNat + 2 * off.toInt)) ∧
    goes (.jrC ra) True b.toNat

/-! ### Contexts and system instructions -/

/-- R157, R159, R316, R317: c0 starts a FREE helper at an even offset of IM: the helper is LIVE there with its argument in s3 and
every other register 0; a wrong number, another context, or a helper that is not FREE faults CTXSTATE, a bad offset IMTARGET.
Joining a DONE helper gives its exit value and makes it FREE; a LIVE one is waited for; any other join faults CTXSTATE. -/
def Obligations.Helpers : Prop :=
  (∀ (s : State) (k : BitVec 5) (ra rb : Reg), Runs s →
    let free := s.cur.2 = 0 ∧ 1 ≤ k.toNat ∧ k.toNat ≤ 10 ∧ (s.ctx s.cur.1 k.toNat).status = .free
    let even := s.gprN ra % 2 = 0 ∧ s.gprN ra < 65536
    (¬free → exec (.start k ra rb) s = .next (takeFault s (flt 1 11))) ∧
    (free → ¬even → exec (.start k ra rb) s = .next (takeFault s (flt 2 2))) ∧
    (free → even → (∀ e ∈ s.me.accs, e.ctx ≠ 0) → ∃ t, exec (.start k ra rb) s = .next t ∧
      (t.ctx s.cur.1 k.toNat).status = .live ∧ (t.ctx s.cur.1 k.toNat).pc = s.gpr ra ∧
      (t.ctx s.cur.1 k.toNat).sleep = .awake ∧
      (∀ r, (t.ctx s.cur.1 k.toNat).gpr r = if r = 3 then s.gpr rb else 0) ∧
      (∀ r, vget (t.ctx s.cur.1 k.toNat).v r 0 = 0 ∧ vget (t.ctx s.cur.1 k.toNat).m r 0 = 0 ∧
        vget (t.ctx s.cur.1 k.toNat).x r 0 = 0) ∧
      t.here = { s.here with
        pc := s.here.pc + 4
        sleep := .awake
        ibpPass := none } ∧
      (∀ j l, (j, l) ≠ s.cur → (j, l) ≠ (s.cur.1, k.toNat) → t.ctx j l = s.ctx j l) ∧
      t = { s with cores := t.cores })) ∧
  (∀ (s : State) (rd : Reg) (k : BitVec 5), Runs s →
    let h := s.ctx s.cur.1 k.toNat
    let named := s.cur.2 = 0 ∧ 1 ≤ k.toNat ∧ k.toNat ≤ 10
    (¬named ∨ h.status = .free → exec (.hjoin rd k) s = .next (takeFault s (flt 1 11))) ∧
    (named → h.status = .live → ∃ t, exec (.hjoin rd k) s = .next t ∧ t.here = { s.here with sleep := .hjoin k.toNat }) ∧
    (named → h.status = .done → ∃ t, exec (.hjoin rd k) s = .next t ∧
      t.here = { s.here.setGpr rd.toNat h.exitVal with
        pc := s.here.pc + 4
        sleep := .awake
        ibpPass := none } ∧
      t.ctx s.cur.1 k.toNat = { h with status := .free }))

/-- R156, R158, R163, R318, R319, R327: `halt` makes the context DONE with the value of its s3 as its exit value; no register
changes. `yield` sleeps, and goes on at NextPc once 16 cycles have passed; `wfe` sleeps, and goes on at NextPc once an event of
R163 has come, from the cycle of issue on, or once 1,024 cycles have passed.
The end of a sleep may enter the trace (R87), which changes no core; what a leader's followers do then is R167's. -/
def Obligations.HaltYieldWait : Prop :=
  (∀ (s : State), Runs s → ∃ t, exec .halt s = .next t ∧
    t.here.status = .done ∧ t.here.exitVal = s.here.gpr 3 ∧ t.here.s = s.here.s ∧ t.here.v = s.here.v ∧ t.here.m = s.here.m ∧
    t.here.x = s.here.x ∧ t.here.ctPending = 0 ∧ t.here.cwait = none ∧ ((∀ p, (s.part p).trctl = 0) → t.mem = s.mem)) ∧
  (∀ (s : State), s.cur.2 < 11 →
    ((s.here.sleep = .awake → ∃ t, exec .yield s = .next t ∧ t.cores = (s.modHere (fun c => { c with sleep := .yield s.clock })).cores) ∧
     (s.here.sleep = .awake → ∃ t, exec .wfe s = .next t ∧ t.cores = (s.modHere (fun c => { c with sleep := .wfe s.clock (s.me.eventAt = some s.clock) })).cores) ∧
     (∀ n, s.here.sleep = .wfe n true → ∃ t, exec .wfe s = .next t ∧ t.cores = (after s 4 id).cores)) ∧
    (s.input.core = s.cur.1 → s.input.ctx = s.cur.2 → s.me.issue = .running →
      let alone := s.cur.2 ≠ 0 ∨ s.me.fstate ≠ 1 ∧ s.me.fbuf = []
      (∀ n, s.here.sleep = .yield n → n + 16 ≤ s.clock → ∃ t, exec .yieldExpiry s = .next t ∧ t.here = (after s 4 id).here ∧
        (alone → t.cores = (after s 4 id).cores)) ∧
      (∀ n b, s.here.sleep = .wfe n b → n + 1024 ≤ s.clock → ∃ t, exec .wfeTimeout s = .next t ∧ t.here = (after s 4 id).here ∧
        (alone → t.cores = (after s 4 id).cores))))

/-- R165, R166, R320: a helper's `follow` or `unfollow` faults CTXSTATE; a core with no other core of its gang in its cluster
goes on past `follow`; a core that is not the leader and whose leader may still come waits at its PC; `unfollow` ends
leading (CAUSE 2), and does nothing in STATE 0.
When a leader may still come is the model's reading (log 53). -/
def Obligations.FollowMode : Prop :=
  ∀ (s : State), Runs s →
    (s.cur.2 ≠ 0 → exec .follow s = .next (takeFault s (flt 1 11)) ∧ exec .unfollow s = .next (takeFault s (flt 1 11))) ∧
    (s.cur.2 = 0 → gangMates s s.cur.1 = [] → exec .follow s = .next (after s 4 id)) ∧
    (s.cur.2 = 0 → gangMates s s.cur.1 ≠ [] → s.me.fstate = 0 → leaderOf s s.cur.1 ≠ s.cur.1 →
      leaderGone s (leaderOf s s.cur.1) s.here.pc = false → (s.core (leaderOf s s.cur.1)).fwait = none →
      (s.core (leaderOf s s.cur.1)).fstate ≠ 3 →
      ∃ t, exec .follow s = .next t ∧ t.me.fstate = 3 ∧ t.me.fwait = some s.here.pc ∧ t.here.pc = s.here.pc ∧
        t.here.sleep = .follow s.clock) ∧
    (s.cur.2 = 0 → s.me.fstate = 0 → exec .unfollow s = .next (after s 4 id)) ∧
    (s.cur.2 = 0 → s.me.fstate = 1 → ∃ t, exec .unfollow s = .next t ∧ t.me.fstate = 0 ∧ t.me.fcause = 2 ∧
      t.here.pc = s.here.pc + 4) ∧
    (∀ f n, s.input.core = s.cur.1 → s.me.issue = .running → s.here.sleep = .follow n → s.cur.2 = 0 → s.me.fwait = some f →
      leaderOf s s.cur.1 = s.cur.1 → n + 1024 ≤ s.clock → (∀ j ∈ gangMates s s.cur.1, (s.core j).fwait ≠ some f) →
      ∃ t, exec .followTimeout s = .next t ∧ t.me.fstate = 0 ∧ t.me.fwait = none ∧ t.here.pc = f + 4 ∧ t.here.sleep = .awake)

/-- R268, R269, R271, R325, R326: taking a fault of the present instruction: the core is frozen with its engines stopped, the
packet carries the kind, the subcode, the address, the PC and the word, and the instruction has had no effect on the context;
`brk` takes BREAK, BRK. Once every earlier access that `fence.rel.pkg` waits for has been performed, and no byte of the context's
stores is still on its way, `trap` sends its notice, as the table of the rule gives it, and goes on at NextPc; before that it waits. -/
def Obligations.FaultsAndTraps : Prop :=
  (∀ (s : State), s.cur.2 < 11 →
    (∀ code, exec (.brk code) s = .next (takeFault s (flt 12 1))) ∧
    (∀ f : Flt, let t := takeFault s f
      ∃ k, t.me.issue = .frozen ∧ t.me.engStopped = true ∧ t.me.packet = some k ∧ t.here.stopped = true ∧
        k.typ = 0 ∧ k.kind = BitVec.ofNat 8 f.kind ∧ k.sub = BitVec.ofNat 16 f.sub ∧ k.origin = 0 ∧
        k.core = BitVec.ofNat 16 s.cur.1 ∧ k.ctx = BitVec.ofNat 8 s.cur.2 ∧
        k.pc = s.here.pc ∧ k.word = s.word ∧ k.addr = b64 f.addr ∧ k.info = b64 f.info ∧ k.clock = b64 s.clock ∧
        t.here.pc = s.here.pc ∧ t.here.s = s.here.s ∧ t.here.v = s.here.v ∧ t.here.m = s.here.m ∧ t.here.x = s.here.x ∧
        ((∀ p, (s.part p).trctl = 0) → t.mem = s.mem))) ∧
  (∀ (s : State) (code : BitVec 12) (ra : Reg) (p : Nat), Runs s → s.partOf s.cur.1 = some p →
    let sent := unsentBytes s s.cur.1 s.cur.2 s.nextKey none = false
    (relDrained s 3 = true → sent → ∃ t k, exec (.trap code ra) s = .next t ∧
      (t.part p).noticeFlight = (s.part p).noticeFlight ++ [k] ∧
      k.typ = 1 ∧ k.kind = 12 ∧ k.sub = 5 ∧ k.origin = 0 ∧ k.pc = s.here.pc ∧ k.word = s.word ∧
      k.info = code.setWidth 64 ∧ k.info2 = s.gpr ra ∧
      t.cores = (after s 4 id).cores ∧ t.mem = s.mem) ∧
    (relDrained s 3 = false ∨ ¬sent → exec (.trap code ra) s = .next (sleepAt s s.cur.1 s.cur.2 .drain)))

/-! ### Special registers -/

/-- R299, R322: `mfsr` gives each register of the table; a number outside it faults BADSR, and a broadcast register
that another gang owns faults CLUOWNED (R170). RNGV and RNGM are read once the engine's queue holds nothing (R239).
Which jobs a read of RNGV or RNGM waits for is the model's choice (log 33); so is that a broadcast register reads as it stands, where
R173 and R322 give the latest value that the core has seen, within 8 cycles of its application (log 59). -/
def Obligations.ReadSpecial : Prop :=
  ∀ (s : State) (rd : Reg) (n : BitVec 12), Runs s →
    let c := s.me
    let reads := fun (v : DWord) => exec (.mfsr rd n) s = .next (after s 4 (fun c => c.setGpr rd.toNat v))
    let cast := vget (s.cluster (clusterKey s.cur.1)).casts (n.toNat - 0x100) CastReg.free
    (0x010 < n.toNat → n.toNat < 0x100 ∨ 0x107 < n.toNat → exec (.mfsr rd n) s = .next (takeFault s (flt 1 9))) ∧
    (n = 0x000 → reads (c.rank.setWidth 64)) ∧
    (n = 0x001 → reads c.gangdim) ∧
    (n = 0x002 → reads c.dmr) ∧
    (n = 0x003 → reads (BitVec.ofNat 64 (s.cur.1 * 65536 + s.cur.2))) ∧
    (n = 0x004 → reads c.tagDone) ∧
    (n = 0x005 → reads c.tagErr) ∧
    (n = 0x006 → reads c.tagBusy) ∧
    (n = 0x007 → reads (BitVec.ofNat 64 s.clock)) ∧
    (n = 0x008 → reads (c.lscale.setWidth 64)) ∧
    (n = 0x009 → reads (c.lsepoch.setWidth 64)) ∧
    (n = 0x00a → ∀ p, c.part = some p → reads (BitVec.ofInt 64 (s.part p).account)) ∧
    (n = 0x00b → reads (BitVec.ofNat 64
      (c.fstate.toNat + 2 ^ 4 * c.fleader.toNat + 2 ^ 8 * c.fcause.toNat + 2 ^ 11 * c.fmask.toNat))) ∧
    (n = 0x00c → ∃ v, reads v ∧ ∀ k, 1 ≤ k → k ≤ 10 →
      (v.getLsbD k = true ↔ (c.context k).status = .live) ∧ (v.getLsbD (16 + k) = true ↔ (c.context k).status = .done)) ∧
    (n = 0x00d → reads (s.here.fpflags.setWidth 64)) ∧
    (n = 0x00e → c.vecQ = [] → reads (c.rngv.setWidth 64)) ∧
    (n = 0x00f → c.matQ = [] → reads (c.rngm.setWidth 64)) ∧
    (n = 0x010 → reads (c.pbase.setWidth 64)) ∧
    (0x100 ≤ n.toNat → n.toNat ≤ 0x107 → cast.owner = none ∨ cast.owner = some (gangOf s s.cur.1) → reads cast.value) ∧
    (0x100 ≤ n.toNat → n.toNat ≤ 0x107 → ∀ g, cast.owner = some g → g ≠ gangOf s s.cur.1 →
      exec (.mfsr rd n) s = .next (takeFault s (flt 5 7)))

/-- R299, R323: `mtsr` writes what each register takes: DMR its FGROUP and FGV, TAGDONE and TAGERR clear what is written as
1 of tags that are not busy, LSCALE counts an epoch, FPFLAGS clears what is written as 1, RNGV and RNGM take 1 for 0
(R239), PBASE 0 or a legal base while no slot holds a promise, and else refuses with SRVALUE or PBUSY (R251), a broadcast register its value and its owner (R170), or what
a higher core of the cluster wrote in the same cycle (R173). The refusals are BADSR, SRRO, CTXSTATE outside c0, SRVALUE.
Which jobs a write of RNGV or RNGM waits for is the model's choice (log 33); that a broadcast write is applied when it issues is, too (log 59). -/
def Obligations.WriteSpecial : Prop :=
  ∀ (s : State) (ra : Reg) (n : BitVec 12), Runs s →
    let v := s.gpr ra
    let writes := fun (f : Core → Core) => exec (.mtsr n ra) s = .next (after (s.modMe f) 4 id)
    let faults := fun (f : Flt) => exec (.mtsr n ra) s = .next (takeFault s f)
    let cast := vget (s.cluster (clusterKey s.cur.1)).casts (n.toNat - 0x100) CastReg.free
    (0x010 < n.toNat → n.toNat < 0x100 ∨ 0x107 < n.toNat → faults (flt 1 9)) ∧
    (n = 0 ∨ n = 1 ∨ n = 3 ∨ n = 6 ∨ n = 7 ∨ n = 9 ∨ n = 0xa ∨ n = 0xb ∨ n = 0xc → faults (flt 1 10)) ∧
    (n = 2 ∨ n = 8 ∨ n = 0x10 → s.cur.2 ≠ 0 → faults (flt 1 11)) ∧
    (n = 2 → s.cur.2 = 0 → writes (fun c => { c with
      dmr := (c.dmr &&& ~~~0xfff1000000000000) ||| (v &&& 0xfff1000000000000) })) ∧
    (n = 4 → writes (fun c => { c with tagDone := c.tagDone &&& ~~~(v &&& ~~~c.tagBusy) })) ∧
    (n = 5 → writes (fun c => { c with tagErr := c.tagErr &&& ~~~(v &&& ~~~c.tagBusy) })) ∧
    (n = 8 → s.cur.2 = 0 → v.toNat < 256 → v ≠ 0x80 → v ≠ 0x81 → writes (fun c => { c with
      lscale := v.setWidth 8
      lsepoch := c.lsepoch + 1 })) ∧
    (n = 8 → s.cur.2 = 0 → 256 ≤ v.toNat ∨ v = 0x80 ∨ v = 0x81 → faults (flt 1 12)) ∧
    (n = 0xd → exec (.mtsr n ra) s = .next (after s 4 (fun c => { c with fpflags := c.fpflags &&& ~~~(v.setWidth 6) }))) ∧
    (n = 0xe → v.toNat < 2 ^ 32 → s.me.vecQ = [] → writes (fun c => { c with rngv := if v = 0 then 1 else v.setWidth 32 })) ∧
    (n = 0xf → v.toNat < 2 ^ 32 → s.me.matQ = [] → writes (fun c => { c with rngm := if v = 0 then 1 else v.setWidth 32 })) ∧
    (n = 0xe ∨ n = 0xf → 2 ^ 32 ≤ v.toNat → faults (flt 1 12)) ∧
    (n = 0x10 → s.cur.2 = 0 → v = 0 ∨ v.toNat % 256 = 0 ∧ 4096 ≤ v.toNat ∧ v.toNat ≤ 388864 →
      (∀ k, k < 16 → (s.me.watchAt k).state = 0) → writes (fun c => { c with pbase := v.setWidth 19 })) ∧
    (n = 0x10 → s.cur.2 = 0 → v ≠ 0 → v.toNat % 256 ≠ 0 ∨ v.toNat < 4096 ∨ 388864 < v.toNat → faults (flt 1 12)) ∧
    (n = 0x10 → s.cur.2 = 0 → v = 0 ∨ v.toNat % 256 = 0 ∧ 4096 ≤ v.toNat ∧ v.toNat ≤ 388864 →
      (∃ k, k < 16 ∧ (s.me.watchAt k).state ∈ [1, 2, 3, 4, 6]) → faults (flt 1 13)) ∧
    (0x100 ≤ n.toNat → n.toNat ≤ 0x107 → cast.owner = none ∨ cast.owner = some (gangOf s s.cur.1) →
      ∃ t, exec (.mtsr n ra) s = .next t ∧ t.here.pc = s.here.pc + 4 ∧
        let cast' := vget (t.cluster (clusterKey s.cur.1)).casts (n.toNat - 0x100) CastReg.free
        (∀ k, cast.last = some (s.clock, k) → cicOf s.cur.1 < k → cast' = cast) ∧
        ((∀ k, cast.last = some (s.clock, k) → k ≤ cicOf s.cur.1) →
          cast' = { owner := some (gangOf s s.cur.1), value := v, last := some (s.clock, cicOf s.cur.1) })) ∧
    (0x100 ≤ n.toNat → n.toNat ≤ 0x107 → ∀ g, cast.owner = some g → g ≠ gangOf s s.cur.1 → faults (flt 5 7))

/-! ### Memory accesses at issue -/

/-- R194: the checks of an access, the first that fails deciding: alignment, the local region with its holes and its
gang (R184, R330), canonical addresses, the page, its frame, the die, the partition, the rights NOREAD and NOWRITE, a line homed on
another die (loads and stores), and counter pages, which ordinary stores and atomics may not write and which alone counter operations
reach (R204). -/
def Obligations.AccessChecks : Prop :=
  ∀ (s : State) (core a w : Nat) (cls : AccClass), 0 < w →
    cls ∈ [AccClass.load, .xload, .store, .atomic, .counterRead, .counterAdd] →
    let e := checkAcc s core cls a w
    let counter := cls = .counterRead ∨ cls = .counterAdd
    let reads := cls ≠ .store
    let writes := cls = .store ∨ cls = .atomic ∨ cls = .counterAdd
    let local' := fun (c off : Nat) => (counter → e = .error (flt 5 5 a)) ∧
      (¬counter → e = .ok { kind := .rc, place := .lm c off, handoff := false, attr := 0 })
    (a % w ≠ 0 → e = .error (flt 2 1 a)) ∧
    (a % w = 0 → a < 0x60000 → local' core a) ∧
    (a % w = 0 → 0x60000 ≤ a → a < 0x100000 → e = .error (flt 4 3 a)) ∧
    (a % w = 0 → ∀ c off, c < 16 → 0x60000 ≤ off → off < 0x80000 → a = 0x100000 + 0x80000 * c + off → e = .error (flt 4 3 a)) ∧
    (a % w = 0 → 0x900000 ≤ a → a < 0x1000000 → e = .error (flt 4 3 a)) ∧
    (a % w = 0 → ∀ c off, c < 16 → off < 0x60000 → a = 0x100000 + 0x80000 * c + off →
      (s.sameGang core (coreAt core c) = true → local' (coreAt core c) off) ∧
      (s.sameGang core (coreAt core c) = false → e = .error (flt 5 6 a))) ∧
    (a % w = 0 → 2 ^ 56 ≤ a → e = .error (flt 4 1 a)) ∧
    (∀ p, a % w = 0 → 0x1000000 ≤ a → a < 2 ^ 56 → (s.core core).part = some p → fixedPage s p a = none →
      ((s.part p).page? a = none → e = .error (flt 4 1 a)) ∧
      (∀ g, (s.part p).page? a = some g →
        let pa := pageFrame g.attr + (a - g.va)
        (g.attr.getLsbD 0 = false → e = .error (flt 4 1 a)) ∧
        (g.attr.getLsbD 0 = true → paKind pa = .hole → e = .error (flt 4 2 a g.attr.toNat)) ∧
        (g.attr.getLsbD 0 = true → paKind pa ≠ .hole → s.absent pa = true → e = .error (flt 11 0 a)) ∧
        (g.attr.getLsbD 0 = true → paKind pa ≠ .hole → s.absent pa = false →
          (pagePart g.attr ≠ p → e = .error (flt 5 3 a g.attr.toNat)) ∧
          (pagePart g.attr = p → reads → g.attr.getLsbD 1 = false → e = .error (flt 5 1 a g.attr.toNat)) ∧
          (pagePart g.attr = p → writes → (reads → g.attr.getLsbD 1 = true) → g.attr.getLsbD 2 = false →
            e = .error (flt 5 2 a g.attr.toNat)) ∧
          (pagePart g.attr = p → (reads → g.attr.getLsbD 1 = true) → (writes → g.attr.getLsbD 2 = true) →
            let remote := homeDie (canon pa) ≠ none ∧ homeDie (canon pa) ≠ some (dieOf core) ∧ pageHandoff g.attr = false ∧
              (cls = .load ∨ cls = .xload ∨ cls = .store)
            let forbidden := (counter ∧ g.attr.getLsbD 10 = false) ∨ ((cls = .store ∨ cls = .atomic) ∧ g.attr.getLsbD 10 = true)
            (remote → e = .error (flt 5 4 a g.attr.toNat)) ∧
            (¬remote → forbidden → e = .error (flt 5 5 a g.attr.toNat)) ∧
            (¬remote → ¬forbidden →
              e = .ok { kind := pageKind g.attr, place := .phys (canon pa), handoff := pageHandoff g.attr, attr := g.attr })))))

/-- R332, R328, R295: a scalar load computes its address, takes the first check of R194 that fails as its fault, and else
enters its queue or pool with its destination marked as not yet produced. A load whose bytes overlap the range of a watchpoint that
watches reads takes WATCH, READ (R278). -/
def Obligations.LoadsIssue : Prop :=
  ∀ (s : State) (rd ra rb : Reg) (rdc rac : BitVec 4) (xd : BitVec 3) (off : BitVec 10) (off14 : BitVec 14) (offc : BitVec 3)
    (hint : BitVec 2) (w scope : BitVec 3) (acq : Bool), Runs s →
    let issues := fun (i : Instr) (len a w : Nat) (dst : LoadDst) (acq : Bool) (scope : Nat) (hint : BitVec 2) =>
      let cls := match dst with | .xreg _ => AccClass.xload | _ => AccClass.load
      let watched := ∃ k, k < 4 ∧ (vget s.me.wpc k 0).getLsbD 0 = true ∧
        let base := (vget s.me.wpb k 0).toNat % 2 ^ 56
        let n := (vget s.me.wpc k 0).toNat / 4 % 2 ^ 14
        0 < n ∧ n ≤ 4096 ∧ base < a + w ∧ a < base + n
      (∀ f, checkAcc s s.cur.1 cls a w = .error f → exec i s = .next (takeFault s f)) ∧
      (∀ t, checkAcc s s.cur.1 cls a w = .ok t → watched → exec i s = .next (takeFault s (flt 13 1 a))) ∧
      (∀ t, checkAcc s s.cur.1 cls a w = .ok t → ¬watched →
        footHolds s s.cur.1 false t.place w = false →
        exec i s = .next (after (pushAccess (markBusy s dst) ((entry s t (.load dst) a w acq false scope).hinted hint)) len id))
    let width := 2 ^ (w.toNat % 4)
    let dst := LoadDst.scalar rd (decide (w.toNat < 4))
    issues (.ld rd ra off hint w) 4 (((s.gprN ra : Int) + off.toInt * width) % 2 ^ 64).toNat width dst false 0 hint ∧
    issues (.ldIndexed rd ra rb acq scope w hint) 4 ((s.gprN ra + s.gprN rb) % 2 ^ 64) width dst acq scope.toNat hint ∧
    issues (.xld xd ra off14) 4 ((s.gprN ra + 8 * off14.toNat) % 2 ^ 64) 8 (.xreg xd) false 0 0 ∧
    issues (.ldDC rdc rac offc) 2 ((s.gprN (rac.setWidth 5) + 8 * offc.toNat) % 2 ^ 64) 8 (.scalar (rdc.setWidth 5) true) false 0 0

/-- R332, R295: a scalar store takes the first check of R194 that fails as its fault, WATCH, WRITE where a watchpoint that watches
writes overlaps its bytes (R278), and else enters its queue or pool with the low bytes of its register. -/
def Obligations.StoresIssue : Prop :=
  ∀ (s : State) (rd ra rb : Reg) (rdc rac : BitVec 4) (off : BitVec 10) (offc : BitVec 3)
    (hint w : BitVec 2) (scope : BitVec 3) (rel : Bool), Runs s →
    let issues := fun (i : Instr) (len a w data : Nat) (rel : Bool) (scope : Nat) (hint : BitVec 2) =>
      let watched := ∃ k, k < 4 ∧ (vget s.me.wpc k 0).getLsbD 1 = true ∧
        let base := (vget s.me.wpb k 0).toNat % 2 ^ 56
        let n := (vget s.me.wpc k 0).toNat / 4 % 2 ^ 14
        0 < n ∧ n ≤ 4096 ∧ base < a + w ∧ a < base + n
      (∀ f, checkAcc s s.cur.1 .store a w = .error f → exec i s = .next (takeFault s f)) ∧
      (∀ t, checkAcc s s.cur.1 .store a w = .ok t → watched → exec i s = .next (takeFault s (flt 13 2 a))) ∧
      (∀ t, checkAcc s s.cur.1 .store a w = .ok t → ¬watched →
        footHolds s s.cur.1 true t.place w = false →
        exec i s = .next (after (pushAccess s ((entry s t (.store data) a w false rel scope).hinted hint)) len id))
    issues (.st rd ra off hint w) 4 (((s.gprN ra : Int) + off.toInt * 2 ^ w.toNat) % 2 ^ 64).toNat (2 ^ w.toNat) (s.gprN rd) false 0
      hint ∧
    issues (.stIndexed rd ra rb rel scope w hint) 4 ((s.gprN ra + s.gprN rb) % 2 ^ 64) (2 ^ w.toNat) (s.gprN rd) rel scope.toNat hint ∧
    issues (.stDC rdc rac offc) 2 ((s.gprN (rac.setWidth 5) + 8 * offc.toNat) % 2 ^ 64) 8 (s.gprN (rdc.setWidth 5)) false 0 0

/-- R294, R335: a ring-slot access of an own handle: entry k from HEAD for a load, from TAIL for a store; RING UNSET, NOTFILLED,
NOTFREE and SLOTOFF are its faults. -/
def Obligations.RingSlotAccesses : Prop :=
  ∀ (s : State) (rd : Reg) (h k : BitVec 4) (off : BitVec 8) (w : BitVec 2), Runs s →
    let r := vget s.me.handles h.toNat Handle.unset
    let width := 2 ^ w.toNat
    let slot := fun (p : BitVec 16) => r.base.toNat + (p.toNat + k.toNat) % r.count.toNat * r.ssize.toNat + off.toNat * width
    let ld := exec (.ldRingSlot rd h k off w) s
    let st := exec (.stRingSlot rd h k off w) s
    (∀ e ∈ s.me.accs, e.ctx ≠ s.cur.2) → r.proxy = false →
    (r.count = 0 → ld = .next (takeFault s (flt 10 1)) ∧ st = .next (takeFault s (flt 10 1))) ∧
    (r.count ≠ 0 → r.filled ≤ k.toNat → ld = .next (takeFault s (flt 10 3))) ∧
    (r.count ≠ 0 → r.count.toNat - r.filled ≤ k.toNat → st = .next (takeFault s (flt 10 4))) ∧
    (r.count ≠ 0 → k.toNat < r.filled → r.ssize.toNat < off.toNat * width + width → ld = .next (takeFault s (flt 10 5))) ∧
    (r.count ≠ 0 → k.toNat < r.count.toNat - r.filled → r.ssize.toNat < off.toNat * width + width →
      st = .next (takeFault s (flt 10 5))) ∧
    (r.count ≠ 0 → k.toNat < r.filled → off.toNat * width + width ≤ r.ssize.toNat → slot r.head % width = 0 → slot r.head < 0x60000 →
      watchHit s.me (slot r.head) width false = none → s.me.matQ = [] →
      ld = .next (after (pushAccess (markBusy s (.scalar rd true))
        (entry s { kind := .rc, place := .lm s.cur.1 (slot r.head), handoff := false, attr := 0 }
          (.load (.scalar rd true)) (slot r.head) width false false 0)) 4 id)) ∧
    (r.count ≠ 0 → k.toNat < r.count.toNat - r.filled → off.toNat * width + width ≤ r.ssize.toNat → slot r.tail % width = 0 →
      slot r.tail < 0x60000 → watchHit s.me (slot r.tail) width true = none → s.me.matQ = [] →
      st = .next (after (pushAccess s
        (entry s { kind := .rc, place := .lm s.cur.1 (slot r.tail), handoff := false, attr := 0 }
          (.store (s.gprN rd)) (slot r.tail) width false false 0)) 4 id))

/-- R333, R334: a vector access takes the first check of R194 that fails as its fault, and else enters its queue or pool; a pair
checks both granules, the low one first, before either enters. A tile access names LM of the gang: TLOCAL, TALIGN, TRANGE, then
NOTGANG, and else its 16 rows of 64 bytes enter in order: of a stored row r the word k is word k of register vd + r, or with `t` word r of
register vd + k, and stands at place (r + k) mod 16 (R187). An access whose bytes a watchpoint watches takes WATCH, READ or WRITE (R278),
once every check of R194 has passed. -/
def Obligations.VectorAndTileAccesses : Prop :=
  ∀ (s : State) (vd ra : Reg) (off : BitVec 10) (hint : BitVec 2) (hi tr : Bool), Runs s →
    let a := ((s.gprN ra : Int) + off.toInt * 64) % 2 ^ 64 |>.toNat
    let b := (a + 64) % 2 ^ 64
    let free := fun (wr : Bool) (va : Nat) (pl : Place) => watchHit s.me va 64 wr = none ∧ footHolds s s.cur.1 wr pl 64 = false
    let enter := fun (h : BitVec 2) (s : State) (op : AccOp) (va : Nat) (t : Target) =>
      pushAccess s ((entry s t op va 64 false false 0).hinted h)
    let load := fun (h : BitVec 2) (s : State) (d : LoadDst) (va : Nat) (t : Target) => enter h (markBusy s d) (.load d) va t
    let data := fun (r : Reg) => AccOp.store (vget s.here.v r.toNat 0).toNat
    let word := fun (v : Vec) (k : Nat) => v.extractLsb' (32 * k) 32
    let watched := fun (dir va : Nat) => ∃ k, k < 4 ∧ (vget s.me.wpc k 0).getLsbD dir = true ∧
      let from' := (vget s.me.wpb k 0).toNat % 2 ^ 56
      let n := (vget s.me.wpc k 0).toNat / 4 % 2 ^ 14
      0 < n ∧ n ≤ 4096 ∧ from' < va + 64 ∧ va < from' + n
    (∀ f, checkAcc s s.cur.1 .load a 64 = .error f →
      exec (.ldv vd ra off hint) s = .next (takeFault s f) ∧ exec (.ldvPair vd ra off hint) s = .next (takeFault s f)) ∧
    (∀ f, checkAcc s s.cur.1 .store a 64 = .error f →
      exec (.stv vd ra off hint) s = .next (takeFault s f) ∧ exec (.stvPair vd ra off hint) s = .next (takeFault s f)) ∧
    (∀ t f, checkAcc s s.cur.1 .load a 64 = .ok t → checkAcc s s.cur.1 .load b 64 = .error f →
      exec (.ldvPair vd ra off hint) s = .next (takeFault s f)) ∧
    (∀ t f, checkAcc s s.cur.1 .store a 64 = .ok t → checkAcc s s.cur.1 .store b 64 = .error f →
      exec (.stvPair vd ra off hint) s = .next (takeFault s f)) ∧
    (∀ t, checkAcc s s.cur.1 .load a 64 = .ok t → free false a t.place →
      exec (.ldv vd ra off hint) s = .next (after (load hint s (.vector vd) a t) 4 id) ∧
      (∀ u, checkAcc s s.cur.1 .load b 64 = .ok u → free false b u.place →
        exec (.ldvPair vd ra off hint) s =
          .next (after (load hint (load hint s (.vector vd) a t) (.vector (vd + 1)) b u) 4 id))) ∧
    (∀ t, checkAcc s s.cur.1 .store a 64 = .ok t → free true a t.place →
      exec (.stv vd ra off hint) s = .next (after (enter hint s (data vd) a t) 4 id) ∧
      (∀ u, checkAcc s s.cur.1 .store b 64 = .ok u → free true b u.place →
        exec (.stvPair vd ra off hint) s = .next (after (enter hint (enter hint s (data vd) a t) (data (vd + 1)) b u) 4 id))) ∧
    (∀ t, checkAcc s s.cur.1 .load a 64 = .ok t →
      (watched 0 a → exec (.ldv vd ra off hint) s = .next (takeFault s (flt 13 1 a))) ∧
      (∀ u, checkAcc s s.cur.1 .load b 64 = .ok u →
        (watched 0 a → exec (.ldvPair vd ra off hint) s = .next (takeFault s (flt 13 1 a))) ∧
        (¬watched 0 a → watched 0 b → exec (.ldvPair vd ra off hint) s = .next (takeFault s (flt 13 1 b))))) ∧
    (∀ t, checkAcc s s.cur.1 .store a 64 = .ok t →
      (watched 1 a → exec (.stv vd ra off hint) s = .next (takeFault s (flt 13 2 a))) ∧
      (∀ u, checkAcc s s.cur.1 .store b 64 = .ok u →
        (watched 1 a → exec (.stvPair vd ra off hint) s = .next (takeFault s (flt 13 2 a))) ∧
        (¬watched 1 a → watched 1 b → exec (.stvPair vd ra off hint) s = .next (takeFault s (flt 13 2 b))))) ∧
    (let faults := fun (f : Flt) => exec (.ldt hi ra off tr) s = .next (takeFault s f) ∧ exec (.stt hi ra off tr) s = .next (takeFault s f)
     let base := if hi then 16 else 0
     (localPlace s.cur.1 a = none → faults (flt 3 4 a)) ∧
     (∀ c lm, localPlace s.cur.1 a = some (c, lm) →
       let row := fun (r : Nat) => ({ kind := .rc, place := .lm c (lm + 128 * r), handoff := false, attr := 0 } : Target)
       (lm % 64 ≠ 0 → faults (flt 3 1 a)) ∧
       (lm % 64 = 0 → 393215 < lm + 1983 → faults (flt 3 2 a)) ∧
       (lm % 64 = 0 → lm + 1983 ≤ 393215 → s.sameGang s.cur.1 c = false → faults (flt 5 6 a)) ∧
       (lm % 64 = 0 → lm + 1983 ≤ 393215 → s.sameGang s.cur.1 c = true →
         ((∀ r, r < 16 → free false (a + 128 * r) (row r).place) →
           exec (.ldt hi ra off tr) s = .next (after ((List.range 16).foldl
             (fun s r => load 0 s (.tileRow base r tr) (a + 128 * r) (row r)) s) 4 id)) ∧
         (∀ rows : Nat → Vec, (∀ r k, r < 16 → k < 16 → word (rows r) ((r + k) % 16) =
             (if tr then word (vget s.here.v (base + k) 0) r else word (vget s.here.v (base + r) 0) k)) →
           (∀ r, r < 16 → free true (a + 128 * r) (row r).place) →
           exec (.stt hi ra off tr) s = .next (after ((List.range 16).foldl
             (fun t r => enter 0 t (.store (rows r).toNat) (a + 128 * r) (row r)) s) 4 id)) ∧
         (∀ r, r < 16 → (∀ q, q < r → ¬watched 0 (a + 128 * q)) → watched 0 (a + 128 * r) →
           exec (.ldt hi ra off tr) s = .next (takeFault s (flt 13 1 (a + 128 * r)))) ∧
         (∀ r, r < 16 → (∀ q, q < r → ¬watched 1 (a + 128 * q)) → watched 1 (a + 128 * r) →
           exec (.stt hi ra off tr) s = .next (takeFault s (flt 13 2 (a + 128 * r)))))))

/-- R336 to R338: an atomic enters its pool under its operation; a misaligned one faults; a remote form whose address names
another package sleeps until it is answered, with reserved endpoint bits FABEP; it counts as a remote-atomic thread (R227). -/
def Obligations.AtomicsIssue : Prop :=
  ∀ (s : State) (rd ra rb : Reg) (scope : BitVec 3) (ord : BitVec 2) (rel ret d : Bool), Runs s →
    let a := s.gprN ra
    let local' := fun (far : Bool) (i : Instr) (op w : Nat) (acq rel : Bool) (out : Option Reg) (cmp : DWord) =>
      (a % w ≠ 0 → exec i s = .next (takeFault s (flt 2 1 a))) ∧
      (a % w = 0 → far = false ∨ a / 2 ^ 56 ≠ 128 →
        (∀ f, checkAcc s s.cur.1 .atomic a w = .error f → exec i s = .next (takeFault s f)) ∧
        (∀ t, checkAcc s s.cur.1 .atomic a w = .ok t → footHolds s s.cur.1 true t.place w = false →
          exec i s = .next (after (pushAccess (match out with | some r => markBusy s (.scalar r false) | none => s)
            { entry s t (.atomic op (BitVec.ofNat 64 (s.gprN rb % 2 ^ (8 * w))) cmp out) a w acq rel scope.toNat with
              remote := far }) 4 id)))
    let remote := fun (i : Instr) (op w : Nat) =>
      local' true i op w false rel (if ret then some rd else none) 0 ∧
      (a % w = 0 → a / 2 ^ 56 = 128 → 2 ^ 18 ≤ (s.xr 7).toNat → exec i s = .next (takeFault s (flt 4 5 a))) ∧
      (a % w = 0 → a / 2 ^ 56 = 128 → (s.xr 7).toNat < 2 ^ 18 → (∀ e ∈ s.me.accs, e.ctx ≠ s.cur.2) →
        exec i s = .next (sleepAt (pushAccess s
          { entry s (fabricPage s ((s.xr 7).toNat / 64) ((s.xr 7).toNat % 64) (a % 2 ^ 56))
              (.atomic op (BitVec.ofNat 64 (s.gprN rb % 2 ^ (8 * w))) 0 (if ret then some rd else none)) a w false rel scope.toNat with
            remote := true })
          s.cur.1 s.cur.2 .answer))
    let amo := fun (i : Instr) (op w : Nat) => local' false i op w (ord.getLsbD 0) (ord.getLsbD 1) (some rd) (s.gpr rd)
    let w := if d then 8 else 4
    remote (.ratomAdd rd ra rb scope rel ret d) 0 w ∧ remote (.ratomAnd rd ra rb scope rel ret d) 1 w ∧
    remote (.ratomOr rd ra rb scope rel ret d) 2 w ∧ remote (.ratomXor rd ra rb scope rel ret d) 3 w ∧
    remote (.ratomMin rd ra rb scope rel ret d) 4 w ∧ remote (.ratomMax rd ra rb scope rel ret d) 5 w ∧
    remote (.ratomMinN rd ra rb scope rel ret d) 6 w ∧ remote (.ratomMaxN rd ra rb scope rel ret d) 7 w ∧
    remote (.ratomSwap rd ra rb scope rel ret d) 8 w ∧ remote (.ratomFadd rd ra rb scope rel ret) 10 4 ∧
    amo (.amoAdd rd ra rb scope ord d) 0 w ∧ amo (.amoAnd rd ra rb scope ord d) 1 w ∧ amo (.amoOr rd ra rb scope ord d) 2 w ∧
    amo (.amoXor rd ra rb scope ord d) 3 w ∧ amo (.amoMin rd ra rb scope ord d) 4 w ∧ amo (.amoMax rd ra rb scope ord d) 5 w ∧
    amo (.amoMinN rd ra rb scope ord d) 6 w ∧ amo (.amoMaxN rd ra rb scope ord d) 7 w ∧ amo (.amoSwap rd ra rb scope ord d) 8 w ∧
    amo (.amoCas rd ra rb scope ord d) 9 w ∧ amo (.amoFadd rd ra rb scope ord) 10 4

/-! ### Counters, fences, tags, barriers, supersteps -/

/-- R203, R205, R343, R418: `cadd` and `cread` enter their pool; a plain `cwait` enters it with its repeated read (R225) and goes
on, a second one waits; `cwait.acq` goes on once its counter has reached the target, and else sleeps; a home slice answers a
request that no earlier entry holds back (R212) and whose target is reached, and parks any other while it has an entry. -/
def Obligations.Counters : Prop :=
  (∀ (s : State) (rd ra rb : Reg) (scope : BitVec 3) (t : Target), Runs s →
    let a := s.gprN ra
    let wait : CWait := { addr := s.gpr ra, target := s.gpr rb, ticket := none, parked := false }
    (checkAcc s s.cur.1 .counterAdd a 8 = .ok t →
      exec (.cadd ra rb) s = .next (after (pushAccess s (entry s t (.cadd (s.gpr rb)) a 8 false false 0)) 4 id) ∧
      exec (.caddRel ra rb scope) s =
        .next (after (pushAccess s (entry s t (.cadd (s.gpr rb)) a 8 false true scope.toNat)) 4 id)) ∧
    (checkAcc s s.cur.1 .counterRead a 8 = .ok t →
      exec (.cread rd ra) s =
        .next (after (pushAccess (markBusy s (.scalar rd false)) (entry s t (.cread rd) a 8 false false 0)) 4 id) ∧
      (s.here.cwait = none →
        exec (.cwait ra rb) s = .next (after (pushAccess (s.modHere (fun c => { c with cwait := some wait }))
          (entry s t (.wait (s.gpr rb)) a 8 false false 0)) 4 id) ∧
        ((s.gpr rb).toNat ≤ counterValue s t.place → (∀ e ∈ s.me.accs, e.ctx ≠ s.cur.2) →
          ∃ u, exec (.cwaitAcq ra rb scope) s = .next u ∧ u.mem = s.mem ∧ (∀ j, j ≠ s.cur.1 → u.core j = s.core j) ∧
            u.here = { s.here with
              pc := s.here.pc + 4
              sleep := .awake
              ibpPass := none }) ∧
        (counterValue s t.place < (s.gpr rb).toNat →
          ∃ u, exec (.cwaitAcq ra rb scope) s = .next u ∧
            u.here = { s.here with
              cwait := some wait
              sleep := .cwaitAcq }))) ∧
    (s.here.cwait ≠ none →
      exec (.cwait ra rb) s = .next (sleepAt s s.cur.1 s.cur.2 .held) ∧
      exec (.cwaitAcq ra rb scope) s = .next (sleepAt s s.cur.1 s.cur.2 .held)) ∧
    (a % 8 ≠ 0 → exec (.cadd ra rb) s = .next (takeFault s (flt 2 1 a)) ∧
      exec (.cread rd ra) s = .next (takeFault s (flt 2 1 a)))) ∧
  (∀ (s : State) (w : CWait) (p : Nat) (attr : DWord) (pl : Place),
    s.input.ctx < 11 → (s.ctx s.input.core s.input.ctx).cwait = some w → (s.core s.input.core).part = some p →
    w.parked = false → (s.core s.input.core).issue ≠ .frozen → waitReady s s.input.core s.input.ctx = true → translate s p w.addr.toNat true false = .ok (attr, pl) →
    let table := tget s.waits (counterSlice s pl) WaitTable.reset
    (w.target.toNat ≤ counterValue s pl → ∃ t, exec .cwaitRequest s = .next t ∧ (t.ctx s.input.core s.input.ctx).cwait = none) ∧
    (counterValue s pl < w.target.toNat → w.ticket = none → table.entries.length < 63 →
      ∃ t, exec .cwaitRequest s = .next t ∧
        (t.ctx s.input.core s.input.ctx).cwait = some { w with parked := true } ∧
        (tget t.waits (counterSlice s pl) WaitTable.reset).entries = table.entries ++
          [{ core := s.input.core, ctx := s.input.ctx, addr := counterKey pl, target := w.target }]))

/-- R216, R340, R347: a fence retires at once and leaves an entry; `rwb` and `rinv` of no byte do nothing, of a range in the core's own
LM enter one entry for it, and of more than 2^32 bytes fault SHAPE. While an access that a fence waits for at its scope has not been
performed, none of the accesses that its kind holds back may be (R213, R216); overlapping accesses, SO accesses, and accesses after an
`.acq` read keep their order, a release waits for what is before it (R212), and nothing else keeps an access from being performed
when only fences that wait for nothing stand before it; a pending plain `cwait` holds back no later read (R225, R418). -/
def Obligations.FencesAndLines : Prop :=
  (∀ (s : State) (ra rb : Reg) (scope : BitVec 3), Runs s →
    let t : Target := { kind := .rc, place := .lm s.cur.1 0, handoff := false, attr := 0 }
    let enters := fun (i : Instr) (op : AccOp) (a n scope : Nat) =>
      exec i s = .next (after (pushAccess s (entry s t op a n false false scope)) 4 id)
    enters (.fenceAcq scope) (.fence 0) 0 0 scope.toNat ∧
    enters (.fenceRel scope) (.fence 1) 0 0 scope.toNat ∧
    enters (.fenceAr scope) (.fence 2) 0 0 scope.toNat ∧
    enters (.fenceSc scope) (.fence 3) 0 0 scope.toNat ∧
    (s.gpr rb = 0 → exec (.rwb ra rb) s = .next (after s 4 id) ∧ exec (.rinv ra rb) s = .next (after s 4 id)) ∧
    (0 < s.gprN rb → s.gprN ra + s.gprN rb ≤ 0x60000 →
      enters (.rwb ra rb) .rwb (s.gprN ra) (s.gprN rb) 0 ∧ enters (.rinv ra rb) .rinv (s.gprN ra) (s.gprN rb) 0) ∧
    (2 ^ 32 < s.gprN rb → exec (.rwb ra rb) s = .next (takeFault s (flt 3 5)) ∧ exec (.rinv ra rb) s = .next (takeFault s (flt 3 5)))) ∧
  (∀ (s : State) (core : Nat) (x f b : Access), x ∈ (s.core core).accs → f ∈ (s.core core).accs → x.ctx = b.ctx → f.ctx = b.ctx →
    x.id < f.id → f.id < b.id →
    let held := mayPerform s core b = false
    let counts := x.within s core f.scope = true
    let moves := x.isAccess = true ∨ x.isLines = true
    (f.op = .fence 0 → counts → x.isRead = true → x.onSoRc = true → b.isAccess = true → b.onSoRc = true → held) ∧
    (f.op = .fence 1 → counts → moves → x.onSoRc = true → b.isWrite = true → b.onSoRc = true → held) ∧
    (f.op = .fence 2 → counts → moves → x.onSoRc = true → b.isAccess = true → b.onSoRc = true → held) ∧
    (f.op = .fence 3 → counts → moves → b.isAccess = true ∨ b.isArrival = true → held)) ∧
  (∀ (s : State) (core : Nat) (e b : Access), e ∈ (s.core core).accs → e.ctx = b.ctx → e.id < b.id → e.isAccess = true → b.isAccess = true →
    let held := mayPerform s core b = false
    (e.isWait = false ∨ b.isWrite = true → e.kind = .so → b.kind = .so → held) ∧
    (e.isWait = false ∨ b.isWrite = true → e.place = b.place → 0 < e.len → 0 < b.len → held) ∧
    (e.acq = true → e.isRead = true → e.onSoRc = true → b.onSoRc = true → held) ∧
    (b.rel = true → b.isWrite = true → b.onSoRc = true → e.onSoRc = true → e.within s core b.scope = true → held)) ∧
  (∀ (s : State) (core : Nat) (b : Access), b.rel = false →
    (∀ e ∈ (s.core core).accs, e.ctx = b.ctx → e.id < b.id → ∃ k, e.op = .fence k) → mayPerform s core b = true) ∧
  (∀ (s : State) (core : Nat) (b : Access), b.rel = false → b.isWrite = false →
    (∀ e ∈ (s.core core).accs, e.ctx = b.ctx → e.id < b.id → e.isWait = true ∧ e.acq = false) → mayPerform s core b = true)

/-- R201, R348: `twany` gives the lowest tag of its mask that is done, 64 for no tag, and sleeps while none is; `twall`
goes on once all are; `tffr` never waits. R219: where bytes that the threads of the tags joined have stored into holding copies are not
home yet, no later access of the context is performed until they are; else nothing but the register and the PC changes.
That bytes of an earlier thread of the same tag count too is the model's reading (log 76). -/
def Obligations.TagWaits : Prop :=
  ∀ (s : State) (rd ra : Reg), Runs s →
    let done := s.gpr ra &&& s.me.tagDone
    let gives := fun (i : Instr) (n : Nat) => exec i s = .next (after s 4 (fun c => c.setGpr rd.toNat (BitVec.ofNat 64 n)))
    let out := fun (mask : DWord) => (storesHeld s (dieOf s.cur.1) (fun h => h.owner / 16 = s.cur.1 &&
      (match h.tag with | some t => mask.getLsbD t | none => false))) ≠ []
    let joins := fun (i : Instr) (mask : DWord) (f : Context → Context) =>
      (¬out mask → exec i s = .next (after s 4 f)) ∧
      (out mask → ∃ t, exec i s = .next t ∧ t.here = (after s 4 f).here ∧ t.mem = s.mem ∧ t.dies = s.dies ∧
        ∀ b : Access, b.ctx = s.cur.2 → s.nextKey < b.id → b.isAccess = true → mayPerform t s.cur.1 b = false)
    (∀ k, done.getLsbD k = true → (∀ j, j < k → done.getLsbD j = false) →
      let reg := fun (c : Context) => c.setGpr rd.toNat (BitVec.ofNat 64 k)
      joins (.twany rd ra) done reg ∧ joins (.tffr rd ra) (1#64 <<< k) reg) ∧
    (s.gpr ra = 0 → gives (.twany rd ra) 64) ∧
    (done = 0 → gives (.tffr rd ra) 64) ∧
    (s.gpr ra ≠ 0 → done = 0 → exec (.twany rd ra) s = .next (sleepAt s s.cur.1 s.cur.2 .tagWait)) ∧
    (done = s.gpr ra → joins (.twall ra) done id) ∧
    (done ≠ s.gpr ra → exec (.twall ra) s = .next (sleepAt s s.cur.1 s.cur.2 .tagWait))

/-- R170 to R172, R225, R344, R345: arriving at, waiting for and setting up a barrier of the running core's cluster. -/
def Obligations.Barriers : Prop :=
  ∀ (s : State) (rd ra : Reg) (b : BitVec 3), Runs s → s.cur.1 < 3072 →
    let x := vget (s.cluster (clusterKey s.cur.1)).barriers b.toNat Barrier.free
    let x' := fun (t : State) => vget (t.cluster (clusterKey s.cur.1)).barriers b.toNat Barrier.free
    let me := 11 * cicOf s.cur.1 + s.cur.2
    let arrived := x.arrived ||| (1#176 <<< me)
    let gang := gangOf s s.cur.1
    (∀ i ∈ [Instr.barrRlx rd b, .barrRel rd b, .bwait b ra, .bmiss rd b ra],
      (x.owner = none → exec i s = .next (takeFault s (flt 5 8))) ∧
      (∀ g, x.owner = some g → g ≠ gang → exec i s = .next (takeFault s (flt 5 7)))) ∧
    (x.owner = some gang → x.member.getLsbD me = false →
      exec (.barrRlx rd b) s = .next (takeFault s (flt 5 8)) ∧ exec (.barrRel rd b) s = .next (takeFault s (flt 5 8))) ∧
    (x.owner = some gang → x.member.getLsbD me = true → x.arrived.getLsbD me = false → (∀ e ∈ s.me.accs, e.ctx ≠ s.cur.2) →
      (∃ t, exec (.barrRlx rd b) s = .next t ∧ t.cores = (after s 4 (fun c => c.setGpr rd.toNat (x.phase.setWidth 64))).cores ∧
        (x.member &&& ~~~arrived ≠ 0 → x' t = { x with arrived := arrived }) ∧
        (x.member &&& ~~~arrived = 0 → x' t = { x with
          arrived := 0
          phase := x.phase + 1 })) ∧
      exec (.barrRel rd b) s = .next (after (pushAccess (markBusy s (.scalar rd false))
        (entry s { kind := .rc, place := .lm s.cur.1 0, handoff := false, attr := 0 }
          (.arrive b.toNat rd) 0 0 false true 1)) 4 id)) ∧
    (x.owner = some gang → x.member.getLsbD me = true → x.arrived.getLsbD me = true →
      exec (.barrRlx rd b) s = .next (sleepAt s s.cur.1 s.cur.2 (.barr b.toNat))) ∧
    (x.owner = some gang → x.phase ≠ (s.gpr ra).setWidth 32 → exec (.bwait b ra) s = .next (after s 4 id)) ∧
    (x.owner = some gang → x.phase = (s.gpr ra).setWidth 32 →
      exec (.bwait b ra) s = .next (sleepAt s s.cur.1 s.cur.2 (.bwait b.toNat x.phase))) ∧
    (x.owner = some gang → exec (.bmiss rd b ra) s = .next (after s 4 (fun c => c.setGpr rd.toNat
      (if s.gprN ra ≤ 2 then ((x.member &&& ~~~x.arrived) >>> (64 * s.gprN ra)).setWidth 64 else 0)))) ∧
    (x.owner = none ∨ x.owner = some gang → x.arrived = 0 → barrierSleepers s s.cur.1 b.toNat = false →
      ∃ t, exec (.binit b ra rd) s = .next t ∧ t.cores = (after s 4 id).cores ∧
        (x' t).owner = some gang ∧ (x' t).arrived = 0 ∧
        (∀ i k, i < 16 → k < 11 → (x' t).member.getLsbD (11 * i + k) =
          ((s.gpr ra).getLsbD i && s.sameGang s.cur.1 (coreAt s.cur.1 i) && (s.gpr rd).getLsbD k)) ∧
        ((x' t).member ≠ 0 → (x' t).phase = 0)) ∧
    (x.owner = none ∨ x.owner = some gang → x.arrived ≠ 0 ∨ barrierSleepers s s.cur.1 b.toNat = true →
      exec (.binit b ra rd) s = .next (takeFault s (flt 1 32))) ∧
    (∀ g, x.owner = some g → g ≠ gang → exec (.binit b ra rd) s = .next (takeFault s (flt 5 7)))

/-- R176, R227, R346: the only LIVE context of a core completes a level-0 step at once and reads 0; one of two LIVE contexts
that arrives first sleeps; a core of no gang completes levels 1 to 3 alone; levels 5 to 7 are illegal, a helper takes no part at
levels 1 to 3, and a context that is in no group none at level 4. -/
def Obligations.Superstep : Prop :=
  ∀ (s : State) (rd : Reg) (level : BitVec 3), Runs s →
    (4 < level.toNat → exec (.sstep rd level) s = .next (takeFault s (flt 1 15))) ∧
    (1 ≤ level.toNat → level.toNat ≤ 3 → s.cur.2 ≠ 0 → exec (.sstep rd level) s = .next (takeFault s (flt 1 11))) ∧
    (s.me.dmr.getLsbD 48 = false → exec (.sstep rd 4) s = .next (takeFault s (flt 5 8))) ∧
    (1 ≤ level.toNat → level.toNat ≤ 3 → s.cur.2 = 0 → s.me.node = none → s.steps = [] → (∀ e ∈ s.me.accs, e.ctx ≠ 0) →
      (∀ n ∈ s.me.ni, n.ctx ≠ 0) → unsentBytes s s.cur.1 0 s.nextKey none = false →
      exec (.sstep rd level) s = .next (after s 4 (fun c => c.setGpr rd.toNat 0))) ∧
    (s.steps = [] → s.here.status = .live → (∀ e ∈ s.me.accs, e.ctx ≠ s.cur.2) → (∀ n ∈ s.me.ni, n.ctx ≠ s.cur.2) →
      ((∀ k, k < 11 → k ≠ s.cur.2 → (s.me.context k).status ≠ .live) →
        exec (.sstep rd 0) s = .next (after s 4 (fun c => c.setGpr rd.toNat 0))) ∧
      (∀ k, k < 11 → k ≠ s.cur.2 → (s.me.context k).status = .live →
        ∃ t, exec (.sstep rd 0) s = .next t ∧ t.here = { s.here with sleep := .sstep 0 } ∧
          ∃ d ∈ t.steps, d.level = 0 ∧ d.domain = s.cur.1 ∧ s.cur ∈ d.arrived ∧ s.cur ∈ d.members ∧ (s.cur.1, k) ∈ d.members))

/-! ### Rings and messages -/

/-- R177, R349, R350: `rinit` sets the core's own handle, or unsets it with COUNT 0; `rwf` and `rwe` give the filled and the
free entries once there are enough, and sleep before; the advances enter their entry, or fault OVERFLOW, UNDERFLOW. -/
def Obligations.Rings : Prop :=
  ∀ (s : State) (rd ra rb : Reg) (h : BitVec 4), Runs s → (∀ e ∈ s.me.accs, e.ctx ≠ s.cur.2) →
    let r := vget s.me.handles h.toNat Handle.unset
    let n := s.gprN ra
    let base := n % 2 ^ 19
    let ssize := n / 2 ^ 19 % 2 ^ 13
    let count := n / 2 ^ 32 % 2 ^ 9
    let filled := (r.tail - r.head).toNat
    let gives := fun (i : Instr) (v : Nat) => exec i s = .next (after s 4 (fun c => c.setGpr rd.toNat (BitVec.ofNat 64 v)))
    let t : Target := { kind := .rc, place := .lm s.cur.1 0, handoff := false, attr := 0 }
    let own : Handle := { home := BitVec.ofNat 4 (cicOf s.cur.1), base := BitVec.ofNat 19 base, ssize := BitVec.ofNat 13 ssize,
                          count := BitVec.ofNat 9 count, head := (s.gpr rb).setWidth 16, tail := (s.gpr rb).setWidth 16,
                          proxy := false }
    (n < 2 ^ 45 → n / 2 ^ 41 = cicOf s.cur.1 → (∀ j, ringSleeper s j h.toNat = false) →
      (count ≠ 0 → ringShape base ssize count = true →
        exec (.rinit h ra rb) s = .next (after (s.modMe (fun c => { c with handles := vset c.handles h.toNat own })) 4 id)) ∧
      (count = 0 → exec (.rinit h ra rb) s =
        .next (after (s.modMe (fun c => { c with handles := vset c.handles h.toNat Handle.unset })) 4 id))) ∧
    (2 ^ 45 ≤ n → exec (.rinit h ra rb) s = .next (takeFault s (flt 10 2))) ∧
    (r.count = 0 → ∀ i ∈ [Instr.rwf rd h ra, .rwe rd h ra, .radvp h ra, .radvc h ra, .recv rd h],
      exec i s = .next (takeFault s (flt 10 1))) ∧
    (r.count ≠ 0 → r.proxy = false →
      (n ≤ r.count.toNat → n ≤ filled → gives (.rwf rd h ra) filled) ∧
      (n ≤ r.count.toNat → filled < n → exec (.rwf rd h ra) s = .next (sleepAt s s.cur.1 s.cur.2 (.rwf h.toNat n))) ∧
      (n ≤ r.count.toNat → n ≤ r.count.toNat - filled → gives (.rwe rd h ra) (r.count.toNat - filled)) ∧
      (n ≤ r.count.toNat → r.count.toNat - filled < n →
        exec (.rwe rd h ra) s = .next (sleepAt s s.cur.1 s.cur.2 (.rwe h.toNat n))) ∧
      (r.count.toNat < n → exec (.rwf rd h ra) s = .next (takeFault s (flt 10 8)) ∧
        exec (.rwe rd h ra) s = .next (takeFault s (flt 10 8))) ∧
      (s.me.accs = [] →
        (n ≤ r.count.toNat - filled → exec (.radvp h ra) s =
          .next (after (pushAccess s (entry s t (.advance h.toNat true n) 0 0 false true 1)) 4 id)) ∧
        (r.count.toNat - filled < n → exec (.radvp h ra) s = .next (takeFault s (flt 10 6))) ∧
        (n ≤ filled → exec (.radvc h ra) s =
          .next (after (pushAccess s (entry s t (.advance h.toNat false n) 0 0 false true 1)) 4 id)) ∧
        (filled < n → exec (.radvc h ra) s = .next (takeFault s (flt 10 7)))) ∧
      (0 < filled → gives (.recv rd h) (r.base.toNat + r.head.toNat % r.count.toNat * r.ssize.toNat)) ∧
      (filled = 0 → exec (.recv rd h) s = .next (sleepAt s s.cur.1 s.cur.2 (.recv h.toNat))))

/-- R178, R351: `send` answers BADARG and RESERVED at once; else its message leaves for the target and it sleeps until it
is told its status, which it then gives. A message that is taken stands whole in the slot at TAIL, TAIL rises by 1, and its
sender is told 0; a full ring keeps it waiting; one for an unset handle or a proxy (UNSET), or longer than SSIZE (TOOLONG), writes
nothing, and its sender is told 2 or 1. -/
def Obligations.Messages : Prop :=
  (∀ (s : State) (rd ra rb : Reg) (h : BitVec 4), s.cur.2 < 11 →
    let off := s.gprN rb % 2 ^ 19
    let len := s.gprN rb / 2 ^ 19 % 2 ^ 12 + 1
    (s.here.sleep = .awake → s.me.accs = [] → unsentBytes s s.cur.1 s.cur.2 s.nextKey none = false →
      (2 ^ 31 ≤ s.gprN rb ∨ 3071 < s.gprN ra ∨ 0x60000 < off + len →
        exec (.send rd h ra rb) s = .next (after s 4 (fun c => c.setGpr rd.toNat 3))) ∧
      (∀ p, s.gprN rb < 2 ^ 31 → s.gprN ra < 3072 → off + len ≤ 0x60000 → s.me.part = some p → (s.part p).holdsCore (s.gprN ra) = true →
        (s.core (s.gprN ra)).withdrawn = false → 14 ≤ h.toNat → (s.part p).supervisor = s.gprN ra →
        exec (.send rd h ra rb) s = .next (after s 4 (fun c => c.setGpr rd.toNat 4))) ∧
      (sendStatus s h.toNat (s.gpr ra) (s.gpr rb) = none → s.me.matQ = [] →
        ∃ t, exec (.send rd h ra rb) s = .next t ∧ t.here.sleep = .send none ∧ t.here.pc = s.here.pc ∧
          (t.core (s.gprN ra)).inbox = (s.core (s.gprN ra)).inbox ++
            [{ src := s.cur.1, srcCtx := s.cur.2, handle := h.toNat, bytes := Memory.reads s.me.lm off len }])) ∧
    (∀ st, s.here.sleep = .send (some st) → ∃ t, exec (.send rd h ra rb) s = .next t ∧
      t.cores = (after s 4 (fun c => c.setGpr rd.toNat (BitVec.ofNat 64 st))).cores)) ∧
  (∀ (s : State) (m : Msg),
    let core := s.input.core
    let r := vget (s.core core).handles m.handle Handle.unset
    let slot := r.base.toNat + r.tail.toNat % r.count.toNat * r.ssize.toNat
    let refused := fun (n : Nat) => ∃ t, exec .messageDeliver s = .next t ∧ (t.core core).inbox = (s.core core).inbox.erase m ∧
      (∀ j, (t.core j).lm = (s.core j).lm ∧ (t.core j).handles = (s.core j).handles) ∧ t.mem = s.mem ∧
      (m.srcCtx < 11 → (s.ctx m.src m.srcCtx).sleep = .send none → (t.ctx m.src m.srcCtx).sleep = .send (some n))
    (s.core core).inbox.find? (fun x => x.handle = s.input.handle) = some m → m.handle < 16 →
    (r.count = 0 ∨ r.proxy = true → refused 2) ∧
    (r.count ≠ 0 → r.proxy = false → r.ssize.toNat < m.bytes.length → refused 1) ∧
    (r.count ≠ 0 → r.proxy = false → m.bytes.length ≤ r.ssize.toNat → (r.tail - r.head).toNat < r.count.toNat → ∃ t, exec .messageDeliver s = .next t ∧
      (t.core core).inbox = (s.core core).inbox.erase m ∧
      Memory.reads (t.core core).lm slot m.bytes.length = m.bytes ∧
      (∀ a, a < slot ∨ slot + m.bytes.length ≤ a → Memory.read (t.core core).lm a = Memory.read (s.core core).lm a) ∧
      (vget (t.core core).handles m.handle Handle.unset).tail = r.tail + 1 ∧
      (m.srcCtx < 11 → (s.ctx m.src m.srcCtx).sleep = .send none → (t.ctx m.src m.srcCtx).sleep = .send (some 0))) ∧
    (r.count ≠ 0 → r.proxy = false → m.bytes.length ≤ r.ssize.toNat → r.count.toNat ≤ (r.tail - r.head).toNat →
      exec .messageDeliver s = .next s))

/-! ### Engine commands -/

/-- R161, R164, R353, R371, R380: each of the 43 vector commands (`vadd` to `vfacm`) stalls while two jobs stand in the vector queue or a
pending firing is to take its free entry, then takes the fault of its operands, and else enters the queue with its operands captured; its
destination is not produced until the job ends. Each of the eight matrix commands stalls while the matrix queue is full or a pending firing
or a reconcile job is to take its free entry, waits until the index vector of an `mmg` is produced, then takes the fault of its descriptors,
words and parameters, waits for what else it reads at issue, and else enters the queue with its operands captured. -/
def Obligations.EngineCommands : Prop :=
  (∀ (s : State) (i : Instr), Runs s → engineOf i = some .vector →
    let j := captureOps s.here (newJob s i)
    let full := 2 ≤ s.me.vecQ.length ∨ ∃ k, k < 4 ∧ s.me.firing .vector (s.me.slot k) = true
    (full → exec i s = .next (sleepAt s s.cur.1 s.cur.2 .stall)) ∧
    (∀ f, ¬full → vecCheck j = some f → exec i s = .next (takeFault s f)) ∧
    (vecCheck j = none → ¬full → exec i s = .next (after (appendJob (s.modHere (fun c => { c with
      busyS := c.busyS ||| (uses i).ws
      busyV := c.busyV ||| (uses i).wv
      busyM := c.busyM ||| (uses i).wm })) s.cur.1 .vector j) 4 id))) ∧
  (∀ (s : State) (i : Instr), Runs s → engineOf i = some .matrix →
    let j := { captureOps s.here (newJob s i) with off := shapeQp (captureOps s.here (newJob s i)).x }
    let j' := captureMatrix s.me s.here j
    let early := matCheckEarly j <|> paramRange j
    let full := 2 ≤ s.me.matQ.length ∨ s.me.recWaiting = true ∨ ∃ k, k < 4 ∧ s.me.firing .matrix (s.me.slot k) = true
    (full → exec i s = .next (sleepAt s s.cur.1 s.cur.2 .stall)) ∧
    let wait := exec i s = .next (sleepAt s s.cur.1 s.cur.2 .drain)
    let unmade := ∃ (cls : BitVec 2) (a1 b1 : Bool) (ad : BitVec 2) (ra rb : Reg) (x : BitVec 3), i = .mmg cls a1 b1 ad ra rb x ∧
      s.here.busyV.getLsbD (j.x.toNat / 2 ^ 16 % 2 ^ 5) = true
    (¬full → unmade → wait) ∧
    (∀ f, ¬full → ¬unmade → early = some f → exec i s = .next (takeFault s f)) ∧
    (¬full → ¬unmade → early = none → matWaits s j = true → wait) ∧
    (¬full → ¬unmade → early = none → matWaits s j = false →
      (∀ f, matCheckLate j' = some f → exec i s = .next (takeFault s f)) ∧
      (matCheckLate j' = none →
        exec i s = .next (after (appendJob s s.cur.1 .matrix j') 4 id))))

/-- R161, R200, R385 to R387: a copy command stalls while the copy queue is full or a pending firing is to take its free entry. Then
`cpy` refuses a length word with its upper half set, waits while its tag is busy, completes its tag at once for no bytes, which counts as a copy that has ended (R179), and else enters the copy queue under its tag; the strided, gather and scatter forms capture their shape
record first. -/
def Obligations.CopyCommands : Prop :=
  ∀ (s : State) (tag : BitVec 6) (ra rb : Reg) (x : BitVec 3), Runs s →
    let x' := (s.xr x.toNat).toNat
    let busy := s.me.tagBusy.getLsbD tag.toNat
    let full := 2 ≤ s.me.copyQ.length ∨ ∃ k, k < 4 ∧ s.me.firing .copy (s.me.slot k) = true
    let queued := fun (i : Instr) (j : Job) =>
      (busy = true → exec i s = .next (sleepAt s s.cur.1 s.cur.2 .tagBusy)) ∧
      (busy = false → 0 < copyRows j → 0 < copyRowLen j →
        exec i s = .next (after (appendJob (takeTag s s.cur.1 tag.toNat) s.cur.1 .copy j) 4 id))
    let plain := { captureOps s.here (newJob s (.cpy tag ra rb x)) with tag := some tag.toNat }
    (full → ∀ i ∈ [Instr.cpy tag ra rb x, .cpy2 tag ra rb x, .cpyg tag ra rb x, .cpys tag ra rb x],
      exec i s = .next (sleepAt s s.cur.1 s.cur.2 .stall)) ∧
    (¬full → 2 ^ 32 ≤ x' → exec (.cpy tag ra rb x) s = .next (takeFault s (flt 3 6))) ∧
    (¬full → x' < 2 ^ 32 → queued (.cpy tag ra rb x) plain) ∧
    (¬full → x' = 0 → busy = false → ∃ t, exec (.cpy tag ra rb x) s = .next t ∧ t.here.pc = s.here.pc + 4 ∧
      t.me.tagDone.getLsbD tag.toNat = true ∧ t.me.tagBusy.getLsbD tag.toNat = false ∧ t.me.copyQ = s.me.copyQ ∧
      t.me.pulses = (s.me.addPulse .copy none).pulses ∧ t.mem = s.mem) ∧
    (∀ i ∈ [Instr.cpy2 tag ra rb x, .cpyg tag ra rb x, .cpys tag ra rb x],
      let j := { captureShape s.me (captureOps s.here (newJob s i)) with tag := some tag.toNat }
      (¬full → 2 ^ 19 ≤ x' → exec i s = .next (takeFault s (flt 3 6))) ∧
      (¬full → x' < 2 ^ 19 → x' % 32 ≠ 0 → exec i s = .next (takeFault s (flt 2 1))) ∧
      (¬full → x' % 32 = 0 → x' + 31 ≤ 393215 → lmReadWaits s x' 32 = false →
        (∀ f, copyCheckLate (copyOp i) j.a.toNat j.b.toNat j.shape = some f → exec i s = .next (takeFault s f)) ∧
        (copyCheckLate (copyOp i) j.a.toNat j.b.toNat j.shape = none → queued i j)))

/-- R339, R341: `get`, `put`, `mldred` and `mcst` refuse a word with a reserved bit and an LM range that does not fit, the last two before it a
status word at no multiple of 8; they wait while their tag is busy, and else hand a thread to the network interface under their tag. -/
def Obligations.NetworkCommands : Prop :=
  ∀ (s : State) (tag : BitVec 6) (ra rb : Reg) (x : BitVec 3), Runs s →
    let x' := (s.xr x.toNat).toNat
    let m : DWord := 1#64 <<< tag.toNat
    let hands := fun (i : Instr) (t : NiThread) =>
      (s.me.tagBusy.getLsbD tag.toNat = true → exec i s = .next (sleepAt s s.cur.1 s.cur.2 .tagBusy)) ∧
      (s.me.tagBusy.getLsbD tag.toNat = false → exec i s = .next (after ({ s with nextKey := s.nextKey + 1 }.modMe (fun c => { c with
        tagBusy := c.tagBusy ||| m
        tagDone := c.tagDone &&& ~~~m
        tagErr := c.tagErr &&& ~~~m
        ni := c.ni ++ [t] })) 4 id))
    let thread := fun (k : NiKind) =>
      { newThread s k tag.toNat with
        lmOff := s.gprN ra
        addr := s.gpr rb }
    (4096 ≤ x' → ∀ i ∈ [Instr.get tag ra rb x, .put tag ra rb x], exec i s = .next (takeFault s (flt 3 6))) ∧
    (x' < 4096 → 393215 < s.gprN ra + x' → ∀ i ∈ [Instr.get tag ra rb x, .put tag ra rb x],
      exec i s = .next (takeFault s (flt 3 2))) ∧
    (x' < 4096 → s.gprN ra + x' ≤ 393215 → s.gprN rb / 2 ^ 56 ≠ 128 →
      hands (.get tag ra rb x) { thread .get with len := x' + 1 } ∧ hands (.put tag ra rb x) { thread .put with len := x' + 1 }) ∧
    (x' < 4096 → s.gprN ra + x' ≤ 393215 → s.gprN rb / 2 ^ 56 = 128 → (s.xr 7).toNat < 2 ^ 18 →
      let far := fun (k : NiKind) => { thread k with
        addr := BitVec.ofNat 64 (s.gprN rb % 2 ^ 56)
        len := x' + 1
        fabric := some ((s.xr 7).toNat / 64, (s.xr 7).toNat % 64) }
      hands (.get tag ra rb x) (far .get) ∧ hands (.put tag ra rb x) (far .put)) ∧
    (x' < 4096 → s.gprN ra + x' ≤ 393215 → s.gprN rb / 2 ^ 56 = 128 → 2 ^ 18 ≤ (s.xr 7).toNat →
      ∀ i ∈ [Instr.get tag ra rb x, .put tag ra rb x], exec i s = .next (takeFault s (flt 4 5 (s.gprN rb)))) ∧
    (2 ^ 56 ≤ x' ∨ x' / 2 ^ 23 % 2 = 1 → ∀ i ∈ [Instr.mldred tag ra rb x, .mcst tag ra rb x],
      exec i s = .next (takeFault s (flt 3 6))) ∧
    (x' < 2 ^ 56 → x' / 2 ^ 23 % 2 = 0 → ∀ i ∈ [Instr.mldred tag ra rb x, .mcst tag ra rb x],
      (s.gprN rb % 8 ≠ 0 → exec i s = .next (takeFault s (flt 2 1 (s.gprN rb)))) ∧
      (s.gprN rb % 8 = 0 → 393215 < s.gprN ra + 4 * (x' / 2 ^ 12 % 2 ^ 11 + 1) - 1 ∨ 393215 < s.gprN rb + 7 →
        exec i s = .next (takeFault s (flt 3 2)))) ∧
    (let n := x' / 2 ^ 12 % 2 ^ 11 + 1
     x' < 2 ^ 56 → x' / 2 ^ 23 % 2 = 0 → s.gprN rb % 8 = 0 → s.gprN ra + 4 * n - 1 ≤ 393215 → s.gprN rb + 7 ≤ 393215 →
     hands (.mldred tag ra rb x) { thread .mldred with
       len := n
       next := x' } ∧
     hands (.mcst tag ra rb x) { thread .mcst with
       len := n
       next := x' })

/-- R217, R354: the head job of an engine starts once its fork condition holds, and a vector job at once, while the engines
are not stopped; a job that has started stays as it is, and so does one before whose command its context made an access within its die
that has not been performed. Engines of a throttled partition accept a command in one cycle of four (R91).
When an engine starts is a move of the schedule, and which cycles those are is the model's choice (logs 1, 70). -/
def Obligations.EngineStart : Prop :=
  ∀ (s : State) (j : Job) (q : List Job),
    let core := s.input.core
    let e := s.input.engine
    (s.core core).queue e = j :: q → (s.core core).recQ = [] → (∀ k, k < 4 → ((s.core core).slot k).pending = 0) →
    (j.started = false → (s.core core).engStopped = false → slotOpen s core = true → e ≠ .vector → (∀ x ∈ (s.core core).accs, x.ctx ≠ j.ctx) →
      exec .engineStart s = .next (s.modCore core (fun c => c.setQueue e ({ j with started := true } :: q)))) ∧
    (j.started = false → (s.core core).engStopped = false → slotOpen s core = true → e = .vector →
      exec .engineStart s = .next (s.modCore core (fun c => c.setQueue e (startVector (s.ctx core j.ctx) j :: q)))) ∧
    (j.started = true ∨ (s.core core).engStopped = true ∨ slotOpen s core = false → exec .engineStart s = .next s) ∧
    (∀ x ∈ (s.core core).accs, x.ctx = j.ctx → x.id < j.forkId → x.isAccess = true → x.within s core 0 = true → e ≠ .vector →
      exec .engineStart s = .next s)

/-- R354 to R366: a running vector job ends: it leaves the queue, its flags are gathered and its destinations are produced; each active
lane of a float or integer operation, of a move, a conversion or a quantisation holds what the table of the rule gives, each other lane
and every other register stay as they were; a compare writes the bits of its mask, a reduction or `vext` its scalar register, and a
conversion or `vscc` that rounds stochastically draws from RNGV in ascending order of its elements (R238). Its end is a pulse of the crossbar
(R179). Said for a core on which no firing is pending, and no write of RNGV or RNGM by the debug window.
A difference that is exactly zero is +0 in `vsub` and `vfnma` as in a sum (R231): the model's reading (log 73), which the functions `fpSub` and
`fpMulSub` state. -/
def Obligations.VectorJobEnd : Prop :=
  ∀ (s : State) (j : Job) (q : List Job),
    let core := s.input.core
    let c := s.ctx core j.ctx
    let r := vecResult j (s.core core).rngv
    s.input.engine = .vector → (s.core core).vecQ = j :: q → j.started = true → j.fired = none → j.prom = none → j.ctx < 11 →
    engineOf j.instr = some .vector → c.status = .live → (s.core core).recQ = [] → (s.core core).rngWrites = [] → (∀ k, k < 4 → ((s.core core).slot k).pending = 0) →
    ∃ u, exec .engineJobEnd s = .next u ∧
      let d := u.ctx core j.ctx
      let lane := fun (w : Nat) (v : Vec) (k : Nat) => v.extractLsb' (w * k) w
      let holds := fun (w : Nat) (vd : Reg) (m : Option (BitVec 3)) (f : Nat → BitVec w) =>
        (∀ k, w * k < 512 → lane w (vget d.v vd.toNat 0) k =
          if m = none ∨ j.mask.getLsbD k = true then f k else lane w (vget c.v vd.toNat 0) k) ∧
        (∀ n, n ≠ vd.toNat → vget d.v n 0 = vget c.v n 0)
      (u.core core).vecQ = q ∧ (u.core core).pulses = ((s.core core).addPulse .vector none).pulses ∧ u.mem = s.mem ∧ d.fpflags = c.fpflags ||| r.flags ∧ d.pc = c.pc ∧
      d.busyS = c.busyS &&& ~~~(uses j.instr).ws ∧ d.busyV = c.busyV &&& ~~~(uses j.instr).wv ∧
      d.busyM = c.busyM &&& ~~~(uses j.instr).wm ∧
      (∀ (t : ILane) (vd va vb : Reg) (n : Bool) (m : Option (BitVec 3)),
        let w := match t with | .w32 => 32 | .w16 => 16 | .w8 => 8
        let clamp := fun (x : Int) => BitVec.ofInt w
          (if n then max 0 (min (2 ^ w - 1) x) else max (-(2 ^ (w - 1))) (min (2 ^ (w - 1) - 1) x))
        let value := fun (a : BitVec w) => if n then (a.toNat : Int) else a.toInt
        ∀ op : BitVec w → BitVec w → BitVec w,
          (j.instr, op) ∈ ([(Instr.vaddInt t vd va vb m, fun a b => a + b), (.vsubInt t vd va vb m, fun a b => a - b),
            (.vmulInt t vd va vb m, fun a b => a * b), (.vand t vd va vb m, fun a b => a &&& b),
            (.vor t vd va vb m, fun a b => a ||| b), (.vxor t vd va vb m, fun a b => a ^^^ b),
            (.vsll t vd va vb m, fun a b => a <<< (b.toNat % w)), (.vsrl t vd va vb m, fun a b => a >>> (b.toNat % w)),
            (.vsra t vd va vb m, fun a b => a.sshiftRight (b.toNat % w)),
            (.vmulh t vd va vb n m, fun a b => BitVec.ofInt w (value a * value b / 2 ^ w)),
            (.vminInt t vd va vb n m, fun a b => if value a ≤ value b then a else b),
            (.vmaxInt t vd va vb n m, fun a b => if value a ≤ value b then b else a),
            (.vadds t vd va vb n m, fun a b => clamp (value a + value b)),
            (.vsubs t vd va vb n m, fun a b => clamp (value a - value b))] : List (Instr × (BitVec w → BitVec w → BitVec w))) →
          holds w vd m (fun k => op (lane w j.va k) (lane w j.vb k))) ∧
      (∀ (l : BitVec 2) (vd va vb : Reg) (m : Option (BitVec 3)),
        let w := match l.toNat with | 0 => 32 | 1 => 16 | 2 => 8 | _ => 64
        ∀ f : Nat → BitVec w,
          (j.instr, f) ∈ ([(Instr.vmov l vd va m, fun k => lane w j.va k), (.vbcast l vd va m, fun _ => j.a.setWidth w),
            (.vperm l vd va vb m, fun k => lane w j.va ((lane w j.vb k).toNat % (512 / w)))] :
            List (Instr × (Nat → BitVec w))) → holds w vd m f) ∧
      (∀ (t : FLane) (vd va vb : Reg) (rz : Bool) (m : Option (BitVec 3)),
        let w := match t with | .f => 32 | _ => 16
        let fmt := match t with | .f => fp32 | .bf => bf16 | .h => fp16
        let x := fun (v : Vec) (k : Nat) => fpDecode fmt (lane w v k).toNat
        let rounded := fun (rz : Bool) (r : Fp × FpFlags) => BitVec.ofNat w (fpFinish fmt (if rz then .rtz else .rne) r).1
        ∀ f : Nat → BitVec w,
          (j.instr, f) ∈ ([(Instr.vaddFloat t vd va vb rz m, fun k => rounded rz (fpAdd (x j.va k) (x j.vb k))),
            (.vsubFloat t vd va vb rz m, fun k => rounded rz (fpSub (x j.va k) (x j.vb k))),
            (.vmulFloat t vd va vb rz m, fun k => rounded rz (fpMul (x j.va k) (x j.vb k))),
            (.vdiv t vd va vb rz m, fun k => rounded rz (fpDiv (x j.va k) (x j.vb k))),
            (.vsqrt t vd va rz m, fun k => rounded rz (fpSqrt (x j.va k))),
            (.vfma t vd va vb rz m, fun k => rounded rz (fpMulAdd (x j.va k) (x j.vb k) (x j.vd k))),
            (.vfnma t vd va vb rz m, fun k => rounded rz (fpMulSub (x j.va k) (x j.vb k) (x j.vd k))),
            (.vminFloat t vd va vb m, fun k => rounded false (fpMin (x j.va k) (x j.vb k), 0)),
            (.vmaxFloat t vd va vb m, fun k => rounded false (fpMaxOf (x j.va k) (x j.vb k), 0)),
            (.vabs t vd va m, fun k => rounded false ((x j.va k).abs, 0)),
            (.vneg t vd va m, fun k => rounded false ((x j.va k).neg, 0))] : List (Instr × (Nat → BitVec w))) → holds w vd m f) ∧
      (∀ (md : BitVec 3) (va vb : Reg) (fmt : BitVec 4) (m : Option (BitVec 3)) (cond : Nat),
        (j.instr, cond) ∈ [(Instr.vcmpeq md va vb fmt m, 0), (.vcmpne md va vb fmt m, 1), (.vcmplt md va vb fmt m, 2),
          (.vcmple md va vb fmt m, 3)] →
        let w := fmtWidth fmt.toNat
        let meets := fun (k : Nat) =>
          let a := (lane w j.va k).toNat
          let b := (lane w j.vb k).toNat
          match fmtFloat fmt.toNat with
          | some F =>
            let eq := fpEq (fpDecode F a) (fpDecode F b)
            let lt := fpLt (fpDecode F a) (fpDecode F b)
            (match cond with | 0 => eq | 1 => !eq | 2 => lt | _ => lt || eq) = true
          | none =>
            let x := fmtInt fmt.toNat a
            let y := fmtInt fmt.toNat b
            (match cond with | 0 => x = y | 1 => x ≠ y | 2 => x < y | _ => x ≤ y)
        (∀ k, k < 64 → ((vget d.m md.toNat 0).getLsbD k = true ↔ k < 512 / w ∧ (m = none ∨ j.mask.getLsbD k = true) ∧ meets k)) ∧
        (∀ n, n ≠ md.toNat → vget d.m n 0 = vget c.m n 0)) ∧
      (∀ (l : BitVec 2) (vd va vb ra rb rd : Reg) (m : BitVec 3),
        let w := match l.toNat with | 0 => 32 | 1 => 16 | 2 => 8 | _ => 64
        (j.instr = .vsel l vd va vb m → holds w vd none (fun k => if j.mask.getLsbD k then lane w j.va k else lane w j.vb k)) ∧
        (j.instr = .vins l vd ra rb → holds w vd none
          (fun k => if k = j.b.toNat then j.a.setWidth w else lane w (vget c.v vd.toNat 0) k)) ∧
        (j.instr = .vext l rd va rb → rd ≠ 0 → d.gpr rd.toNat = BitVec.ofNat 64 (lane w j.va j.b.toNat).toNat)) ∧
      (∀ (sf df : BitVec 4) (mode : BitVec 2) (vd va : Reg) (part : BitVec 5), j.instr = .vcvt sf df mode vd va part → mode.toNat ≤ 2 →
        let ws := fmtWidth sf.toNat
        let wd := fmtWidth df.toNat
        let n := 512 / max ws wd
        let src := if ws < wd then part.toNat * n else 0
        let dst := if wd < ws then part.toNat * n else 0
        let draws := drawList n (s.core core).rngv
        let round := fun (k : Nat) => match mode.toNat with | 0 => RMode.rne | 1 => .rtz | _ => .sr (draws.1.getD k 0)
        (u.core core).rngv = (if mode = 2 then draws.2 else (s.core core).rngv) ∧
        holds wd vd none (fun k => if dst ≤ k ∧ k < dst + n then
          BitVec.ofNat wd (convElem sf.toNat df.toNat (round (k - dst)) (lane ws j.va (src + (k - dst))).toNat).1
          else lane wd (vget c.v vd.toNat 0) k)) ∧
      (∀ (rd va : Reg) (fmt : BitVec 4) (m : Option (BitVec 3)), rd ≠ 0 →
        let w := fmtWidth fmt.toNat
        let on := fun (k : Nat) => m.isNone || j.mask.getLsbD k
        let act := ((List.range (512 / w)).filter on).map (fun k => (lane w j.va k).toNat)
        let gives := fun (v : DWord) => d.gpr rd.toNat = v
        (fmtFloat fmt.toNat = none →
          let x := act.map (fmtInt fmt.toNat)
          (j.instr = .vredadd rd va fmt m → gives (BitVec.ofInt 64 x.sum)) ∧
          (j.instr = .vredmin rd va fmt m → gives (BitVec.ofInt 64 (x.foldl min (fmtHi fmt.toNat)))) ∧
          (j.instr = .vredmax rd va fmt m → gives (BitVec.ofInt 64 (x.foldl max (fmtLo fmt.toNat)))) ∧
          (j.instr = .vamax rd va fmt m → gives (BitVec.ofInt 64 ((x.map (fun v => (v.natAbs : Int))).foldl max 0)))) ∧
        (∀ F, fmtFloat fmt.toNat = some F →
          let x := act.map (fpDecode F)
          let fp := fun (v : Fp) => BitVec.ofNat 64 (fpRound fp32 .rne v).1
          (j.instr = .vredadd rd va fmt m → gives (BitVec.ofNat 64 (treeAdd ((List.range (512 / w)).map (fun k =>
            if on k then (fpRound fp32 .rne (fpDecode F (lane w j.va k).toNat)).1 else 0x80000000))).1)) ∧
          (j.instr = .vredmin rd va fmt m → gives (fp (x.foldl fpMin (.inf false)))) ∧
          (j.instr = .vredmax rd va fmt m → gives (fp (x.foldl fpMaxOf (.inf true)))) ∧
          (j.instr = .vamax rd va fmt m → gives (fp ((x.map Fp.abs).foldl fpMaxOf (.fin false 0 0)))))) ∧
      (∀ (mode : BitVec 2) (narrow : Bool) (vd va rb : Reg) (x : BitVec 3), mode.toNat ≤ 2 →
        let first := if mode = 1 then RMode.rtz else .rne
        let word := j.x.toNat
        let draws := drawList 16 (s.core core).rngv
        let last := fun (k : Nat) => match mode.toNat with | 0 => RMode.rne | 1 => .rtz | _ => .sr (draws.1.getD k 0)
        let places := fun (w part : Nat) (f : Nat → Nat) => holds w vd none (fun k =>
          if 16 * part ≤ k ∧ k < 16 * part + 16 then BitVec.ofNat w (f (k - 16 * part)) else lane w (vget c.v vd.toNat 0) k)
        let el := fun (k : Nat) => (lane 32 j.va k).toNat
        (j.instr = .vscc mode narrow vd va x → (u.core core).rngv = (if mode = 2 then draws.2 else (s.core core).rngv) ∧
          places 8 (word / 2 ^ 32 % 4) (fun k => (sccLane narrow first (last k) (el k) (word % 2 ^ 32)).1)) ∧
        (j.instr = .vquant mode narrow vd va x → places (if narrow then 8 else 4) (word / 2 ^ 32 % 8)
          (fun k => (quantLane first narrow (word / 2 ^ 16 % 2 ^ 8) (word % 2 ^ 16) (el k)).1)) ∧
        (j.instr = .vfacm mode vd va rb x → holds 32 vd none (fun k =>
          BitVec.ofNat 32 (facmLane first (j.b.toNat % 2 ^ 32) (word % 2 ^ 32) (el k)).1)))

/-- R373 to R379: a running matrix job ends: `mm`, `mmg` and `mm.q` leave in each element of their accumulator, brought to the loss scale
of the command (R248), the sum of the products over the K window, rounded once a term in ascending k (R244) or exact and then clamped;
`aczero` zeroes, `acld` loads and `acst` stores every element of a tile, and `scacc` adds one accumulator scaled to another (R245).
No other accumulator, register or byte of LM changes. R388, R389: a `cpy` within the core's own LM leaves the bytes of its source at its
destination, as they stood, though the two overlap, changes no others, and completes its tag. Said for a core on which no firing is
pending, and of a copy for ranges that cross no 4 KiB boundary. -/
def Obligations.MatrixAndCopyJobEnds : Prop :=
  (∀ (s : State) (j : Job) (q : List Job),
    let core := s.input.core
    let c := s.core core
    s.input.engine = .matrix → c.matQ = j :: q → j.started = true → j.prom = none → j.fired = none → j.words = [] → j.partial36 = [] →
    j.ctx < 11 → (c.context j.ctx).status = .live → c.engStopped = false → c.recQ = [] → (∀ k, k < 4 → (c.slot k).pending = 0) →
    (∀ a, a < 4 → (vget c.acc a Accum.reset).el.length = 256) →
    ∃ u, exec .engineJobEnd s = .next u ∧
      let word := fun (lm : Bytes) (b r k : Nat) => leNat (Memory.reads lm (b + 128 * r + 4 * ((r + k) % 16)) 4)
      let tile := fun (lm : Bytes) (d : DWord) (e r k : Nat) =>
        let b := d.toNat % 2 ^ 19
        (if d.getLsbD 19 then word lm b (k / e) r else word lm b r (k / e)) / 2 ^ (32 / e * (k % e)) % 2 ^ (32 / e)
      let scaled := fun (a : BitVec 2) (float : Bool) => (rescale (vget c.acc a.toNat Accum.reset) j.epoch j.exp float).1
      let old := fun (a : BitVec 2) (float : Bool) (r k : Nat) => ((scaled a float).el.getD (16 * r + k) 0).toNat
      let acc := fun (a : BitVec 2) => vget (u.core core).acc a.toNat Accum.reset
      let gives := fun (a : BitVec 2) (f : Nat → Nat → Nat) => (∀ r k, r < 16 → k < 16 → (acc a).el.getD (16 * r + k) 0 = BitVec.ofNat 36 (f r k)) ∧
        (acc a).epoch = j.epoch ∧ (acc a).exp = j.exp
      let only := fun (l : List (BitVec 2)) => ∀ a, a ∉ l → acc a = vget c.acc a.toNat Accum.reset
      let rows := fun (i : Instr) => match i with | .acst _ _ _ _ => True | _ => False
      (u.core core).matQ = q ∧ u.mem = s.mem ∧ (u.core core).pulses = (c.addPulse .matrix none).pulses ∧
      (∀ k, ((u.core core).context k).s = (c.context k).s ∧ ((u.core core).context k).v = (c.context k).v ∧
        ((u.core core).context k).m = (c.context k).m ∧ ((u.core core).context k).pc = (c.context k).pc) ∧
      (¬rows j.instr → (u.core core).lm = c.lm) ∧
      (∀ ad, j.instr = .aczero ad → gives ad (fun _ _ => 0) ∧ only [ad]) ∧
      (∀ f ad ra, j.instr = .acld f ad ra →
        gives ad (fun r k => loadElem f.toNat (tile c.lm j.a (32 / fmtWidth f.toNat) r k)) ∧ only [ad]) ∧
      (∀ f rz ad ra, j.instr = .acst f rz ad ra →
        let w := fmtWidth f.toNat
        let float := (fmtFloat f.toNat).isSome
        w = 8 ∨ w = 16 ∨ w = 32 →
        (∀ r k, r < 16 → k < 16 → tile (u.core core).lm j.a (32 / w) r k = (storeElem f.toNat rz (old ad float r k)).1 % 2 ^ w) ∧
        (∀ x, (∀ r, r < 16 → x < j.a.toNat % 2 ^ 19 + 128 * r ∨ j.a.toNat % 2 ^ 19 + 128 * r + 64 ≤ x) →
          Memory.read (u.core core).lm x = Memory.read c.lm x) ∧
        acc ad = scaled ad float ∧ only [ad]) ∧
      (∀ (h rz : Bool) (ad as : BitVec 2) (int : Bool) (vb : Reg) (x : BitVec 3) (sa sb : Nat → Fp),
        (j.instr, sa, sb) ∈ ([(Instr.scaccVector h rz ad as int vb,
            fun r => if h then fpDecode fp16 (lane j.va 16 r) else dec32 (lane j.va 32 r),
            fun k => if h then fpDecode fp16 (lane j.va 16 (16 + k)) else dec32 (lane j.vb 32 k)),
          (.scaccXreg h rz ad as int x,
            fun _ => if h then fpDecode fp16 (j.x.toNat % 2 ^ 16) else dec32 (j.x.toNat % 2 ^ 32),
            fun _ => if h then fpDecode fp16 (j.x.toNat / 2 ^ 16 % 2 ^ 16) else dec32 (j.x.toNat / 2 ^ 32))] :
          List (Instr × (Nat → Fp) × (Nat → Fp))) →
        let part := fun (n : Nat) => if int then fpOfInt (i36 n) else dec36 n
        let dst := fun (r k : Nat) => if as = ad then old as (!int) r k else old ad true r k
        gives ad (fun r k => (scaccElem (if rz then .rtz else .rne) (dec36 (dst r k)) (part (old as (!int) r k)) (sa r) (sb k)).1) ∧
        (as ≠ ad → acc as = scaled as (!int)) ∧ only [ad, as]) ∧
      (∀ (cl : MmClass), productClass j.instr = some cl → j.next = (window j.instr j.x).1 →
        let ks := (List.range (window j.instr j.x).2).map (· + (window j.instr j.x).1)
        let gathered := fun (r k : Nat) =>
          leNat (Memory.reads c.lm (j.a.toNat % 2 ^ 19 + 64 * (lane j.va 32 r) + 4 * (k / cl.ea)) 4) / 2 ^ (32 / cl.ea * (k % cl.ea)) % 2 ^ (32 / cl.ea)
        let right := fun (k n : Nat) => tile c.lm j.b cl.eb n k
        (∀ (cls : BitVec 2) (a1 b1 : Bool) (ad : BitVec 2) (ra rb : Reg) (x : BitVec 3) (x' : Option (BitVec 3)) (left : Nat → Nat → Nat),
          (j.instr, left) ∈ ([(Instr.mm cls a1 b1 ad ra rb x', tile c.lm j.a cl.ea), (.mmg cls a1 b1 ad ra rb x, gathered)] :
            List (Instr × (Nat → Nat → Nat))) →
          only [ad] ∧
          (∀ fa fb, cls.toNat ≤ 1 → fmtFloat (mmFormat cls.toNat a1) = some fa → fmtFloat (mmFormat cls.toNat b1) = some fb →
            gives ad (fun r n => (dotFloat (old ad true r n) (ks.map (fun k => (fpDecode fa (left r k), fpDecode fb (right k n))))).1)) ∧
          (2 ≤ cls.toNat → gives ad (fun r n => (satI36 (i36 (old ad false r n) +
            (ks.map (fun k => fmtInt (mmFormat cls.toNat a1) (left r k) * fmtInt (mmFormat cls.toNat b1) (right k n))).sum)).1))) ∧
        (∀ (g : BitVec 2) (a8 b8 : Bool) (ad : BitVec 2) (ra rb : Reg) (x : BitVec 3), j.instr = .mmQ g a8 b8 ad ra rb x →
          let zp := fun (n : Nat) => ((j.params.getD n 0).toNat / 2 ^ 16 % 2 ^ 8 : Int)
          only [ad] ∧ gives ad (fun r n => (satI36 (i36 (old ad false r n) +
            (ks.map (fun k => ((tile c.lm j.a cl.ea r k : Int) - zp r) * ((right k n : Int) - zp (16 + n)))).sum)).1)))) ∧
  (∀ (s : State) (j : Job) (q : List Job) (tag : BitVec 6) (ra rb : Reg) (x : BitVec 3),
    let core := s.input.core
    let c := s.core core
    let n := j.x.toNat
    s.input.engine = .copy → c.copyQ = j :: q → j.instr = .cpy tag ra rb x → j.tag = some tag.toNat → j.started = true → j.fired = none →
    j.prom = none → j.chunks = [] → j.next = 0 → j.off = 0 → j.params = [] → j.words = [] → j.failed = none →
    c.engStopped = false → c.recQ = [] → (∀ k, k < 4 → (c.slot k).pending = 0) → (∃ k, k < 11 ∧ (c.context k).status = .live) →
    0 < n → j.b.toNat + n ≤ 0x60000 → j.a.toNat + n ≤ 0x60000 → j.b.toNat % 4096 + n ≤ 4096 → j.a.toNat % 4096 + n ≤ 4096 →
    ∃ u, exec .engineJobEnd s = .next u ∧ (u.core core).copyQ = q ∧
      Memory.reads (u.core core).lm j.a.toNat n = Memory.reads c.lm j.b.toNat n ∧
      (∀ y, y < j.a.toNat ∨ j.a.toNat + n ≤ y → Memory.read (u.core core).lm y = Memory.read c.lm y) ∧
      (u.core core).tagDone.getLsbD tag.toNat = true ∧ (u.core core).tagBusy.getLsbD tag.toNat = false ∧
      (u.core core).pulses = (c.addPulse .copy none).pulses ∧ u.mem = s.mem)

/-! ### Crossbar, offload, launches -/

/-- R179, R181, R395 to R397: `evterm` sets a term or a counter and refuses reserved bits; `evclr` gives what a term, counter or
slot held and clears it; `evarm` refuses a bad slot word, a bad offset, a word that cannot be armed or decoded and a busy slot,
in that order, waits for the registers that its word names, and else fills the slot with the word at an offset of IM, the
operands that it names and INIT pending firings, which enter their queue where it has room. -/
def Obligations.Crossbar : Prop :=
  ∀ (s : State) (rd ra rb : Reg) (idx : BitVec 5) (slot : BitVec 2), Runs s →
    let v := s.gprN ra
    let n := idx.toNat
    let sw := s.gprN rb
    let sets := fun (f : Core → Core) => exec (.evterm idx ra) s = .next (after (s.modMe f) 4 id)
    let gives := fun (f : Core → Core) (x : Nat) =>
      exec (.evclr rd idx) s = .next (after (s.modMe f) 4 (fun c => c.setGpr rd.toNat (BitVec.ofNat 64 x)))
    (2 ^ 16 ≤ v ∨ (n < 16 ∧ v / 2 ^ 10 % 2 ^ 5 ≠ 0) ∨ (16 ≤ n ∧ (v / 16 % 16 ≠ 0 ∨ 8 ≤ v % 16)) →
      exec (.evterm idx ra) s = .next (takeFault s (flt 3 6))) ∧
    (n < 16 → v < 2 ^ 16 → v / 2 ^ 10 % 2 ^ 5 = 0 → sets (fun c => { c with terms := vset c.terms n (BitVec.ofNat 16 v) })) ∧
    (16 ≤ n → n < 24 → v < 2 ^ 16 → v / 16 % 16 = 0 → v % 16 < 8 →
      sets (fun c => c.setCounter (n - 16) { config := BitVec.ofNat 16 v, count := 0 })) ∧
    (n < 16 → gives (fun c => { c with terms := vset c.terms n 0 }) (vget s.me.terms n 0).toNat) ∧
    (16 ≤ n → n < 24 → gives (fun c => c.setCounter (n - 16) { config := 0, count := 0 })
      ((s.me.counter (n - 16)).config.toNat + 2 ^ 16 * (s.me.counter (n - 16)).count.toNat)) ∧
    (24 ≤ n → n < 28 → gives (fun c => c.modSlot (n - 24) (fun a => { a with
        rep := 0
        pending := 0
        order := [] }))
      ((s.me.slot (n - 24)).rep + 2 ^ 9 * (s.me.slot (n - 24)).pending + 2 ^ 32 * (s.me.slot (n - 24)).discard.toNat)) ∧
    (let w := leNat (Memory.reads s.me.im v 4)
     let major := w / 2 % 64
     let good := 0 < sw % 2 ^ 9 ∧ sw % 2 ^ 9 ≤ 256 ∧ sw / 2 ^ 11 % 2 ^ 21 = 0 ∧ sw < 2 ^ 56
     let offset := v % 2 = 0 ∧ v ≤ 65532
     let armable := w % 2 = 1 ∧ (0x20 ≤ major ∧ major ≤ 0x2a ∨ 0x2c ≤ major ∧ major ≤ 0x30 ∨ major = 0x34)
     let x := s.me.slot slot.toNat
     let ends := fun (t : State) => exec (.evarm slot ra rb) s = .next t
     (¬good → ends (takeFault s (flt 3 6))) ∧
     (good → ¬offset → ends (takeFault s (flt 2 2))) ∧
     (good → offset → ¬armable → ends (takeFault s (flt 1 34))) ∧
     (good → offset → armable →
       (∀ e, decode32 w = .error e → ends (takeFaultAt s s.cur.1 s.cur.2 (flt 1 e.sub) (BitVec.ofNat 32 w))) ∧
       (∀ i, decode32 w = .ok i →
         (x.rep ≠ 0 ∨ x.pending ≠ 0 → ends (takeFault s (flt 1 35))) ∧
         (x.rep = 0 → x.pending = 0 → namedReady s.here i = false → ends (sleepAt s s.cur.1 s.cur.2 .drain)) ∧
         (x.rep = 0 → x.pending = 0 → namedReady s.here i = true →
           let j := captureOps s.here (newJob s i)
           ends (refill (after ({ s with nextKey := s.nextKey + 1 }.modMe (fun c => c.modSlot slot.toNat (fun a => { a with
             word := BitVec.ofNat 32 w
             instr := some i
             rep := sw % 2 ^ 9
             pending := sw / 2 ^ 9 % 4
             fired := 0
             ctx := s.cur.2
             stride := (BitVec.ofNat 24 (sw / 2 ^ 32)).toInt
             key := s.nextKey
             discard := 0
             a := j.a
             b := j.b
             x := j.x
             order := List.replicate (sw / 2 ^ 9 % 4) (4 * s.nextKey + slot.toNat) }))) 4 id) s.cur.1)))))

/-- R62 to R65, R391 to R393: `cpyl` appends an entry under its tag, `cpyr` of an empty list completes its tag and of another
takes entries from the newest downward; the engine carries an entry of a partition that is not sealed to the host byte by
byte, and a replayed one back. Said of an entry that lies in one 4 KiB page and of which nothing has moved.
That LISTFULL comes before REPLAYING, and that the engine keeps one order of entries for all lists, are the model's choices (log 44). -/
def Obligations.Offload : Prop :=
  (∀ (s : State) (tag : BitVec 6) (list x : BitVec 3) (ra rb : Reg) (p : Nat), Runs s → s.me.part = some p →
    s.me.tagBusy.getLsbD tag.toNat = false →
    let o := vget (s.part p).offload list.toNat OffList.empty
    let count := o.entries.length - o.base
    let n := (s.xr x.toNat).toNat
    (n % 256 = 0 → 0 < n → n ≤ 2 ^ 24 → s.gprN ra % 256 = 0 → s.gprN rb % 256 = 0 → s.gprN rb < 2 ^ 42 → count < 4096 →
      o.replaying = false → ∃ t, exec (.cpyl tag false list ra rb x) s = .next t ∧ t.here.pc = s.here.pc + 4 ∧
        t.me.tagBusy.getLsbD tag.toNat = true ∧
        (vget (t.part p).offload list.toNat OffList.empty).entries = o.entries ++
          [{ id := s.nextKey, idx := count, src := s.gprN ra, bus := s.gprN rb, len := n, core := s.cur.1, ctx := s.cur.2,
             tag := tag.toNat, work := OffWork.fresh, done := false, failed := false }] ∧ t.mem = s.mem) ∧
    (n % 256 = 0 → 0 < n → n ≤ 2 ^ 24 → s.gprN ra % 256 = 0 → s.gprN rb % 256 = 0 → s.gprN rb < 2 ^ 42 → 4096 ≤ count →
      exec (.cpyl tag false list ra rb x) s = .next (takeFault s (flt 14 1))) ∧
    (count = 0 → ∃ t, exec (.cpyr tag list ra) s = .next t ∧ t.here.pc = s.here.pc + 4 ∧
      t.me.tagDone.getLsbD tag.toNat = true ∧ t.me.tagBusy.getLsbD tag.toNat = false) ∧
    (0 < count → 0 < s.gprN ra → o.replaying = false → ∃ t, exec (.cpyr tag list ra) s = .next t ∧ t.here.pc = s.here.pc + 4 ∧
      t.me.tagBusy.getLsbD tag.toNat = true ∧
      (vget (t.part p).offload list.toNat OffList.empty).replaying = true ∧
      (vget (t.part p).offload list.toNat OffList.empty).replays = o.replays ++
        [{ id := s.nextKey, core := s.cur.1, ctx := s.cur.2, tag := tag.toNat, next := o.entries.length - 1,
           left := min (s.gprN ra) count, work := OffWork.fresh }])) ∧
  (∀ (s : State) (e : OffEntry) (pa : Nat) (attr : DWord),
    let p := s.input.part
    let o := vget (s.part p).offload s.input.list OffList.empty
    s.input.list < 8 → o.entries[s.input.entry]? = some e → e.done = false → (s.part p).key = none → 0 < e.len →
    e.len ≤ 4096 - e.src % 4096 → e.bus + e.len ≤ 2 ^ 42 → e.tag < 64 → homeDie pa ≠ none → e.work = OffWork.fresh → s.input.amount = 0 →
    (offReady s e = false → exec .offloadEntryDone s = .next s) ∧
    (offReady s e = true →
      translateAgent s p e.src true false = .ok (attr, .phys pa) → s.poisoned (.phys pa) e.len = false →
      ∃ t, exec .offloadEntryDone s = .next t ∧
        Memory.reads t.mem (0x80000000000 + e.bus) e.len = Memory.reads s.mem pa e.len ∧
        (vget (t.part p).offload s.input.list OffList.empty).entries[s.input.entry]? = some { e with
          done := true
          failed := false } ∧
        (t.core e.core).tagDone.getLsbD e.tag = true)) ∧
  (∀ (s : State) (r : Replay) (e : OffEntry) (pa : Nat) (attr : DWord),
    let p := s.input.part
    let o := vget (s.part p).offload s.input.list OffList.empty
    o.replays[s.input.entry]? = some r → o.entries[r.next]? = some e → e.done = true → e.failed = false → r.left = 1 → r.tag < 64 →
    (s.part p).key = none → 0 < e.len → e.len ≤ 4096 - e.src % 4096 → e.bus + e.len ≤ 2 ^ 42 → homeDie pa ≠ none →
    r.work = OffWork.fresh → s.input.amount = 0 → s.poisoned (.phys (0x80000000000 + e.bus)) e.len = false →
    (∀ a ∈ (s.core r.core).accs, a.ctx ≠ r.ctx) → translateAgent s p e.src false true = .ok (attr, .phys pa) → pageCounter attr = false →
    ∃ t, exec .replayEntryDone s = .next t ∧
      Memory.reads t.mem pa e.len = Memory.reads s.mem (0x80000000000 + e.bus) e.len ∧ (t.core r.core).tagDone.getLsbD r.tag = true)

/-- R59, R60, R146, R398 to R400: a launch takes the first of its checks that fails as its fault, sleeps while the die's queue holds 256
records, and else makes a node BLOCKED with the bytes of its record and gives its id; `hsig` waits for what a release at `.sys` waits for,
then hands a token to the ring, or leaves it in the queue of the function, and sleeps while that is full.
What counts as a launched node is the model's choice (log 31). -/
def Obligations.LaunchesAndTokens : Prop :=
  ∀ (s : State) (rd ra rb : Reg) (ring : BitVec 2) (p : Nat), Runs s → s.me.part = some p →
    let off := s.gprN ra
    let record := Memory.reads s.me.lm off 64
    let nid := BitVec.ofNat 64 (2 ^ 63 + (s.part p).launched % 2 ^ 63)
    let vf := 16 * p + s.gprN rb % 16
    let token : Token := { payload := s.gpr ra, core := s.cur.1, ctx := s.cur.2, node := s.me.node }
    (∀ i ∈ [Instr.launch rd ra, .launchRel rd ra],
      (off % 64 ≠ 0 → exec i s = .next (takeFault s (flt 2 1 off))) ∧
      (off % 64 = 0 → 393215 < off + 63 → exec i s = .next (takeFault s (flt 3 2))) ∧
      (off % 64 = 0 → off + 63 ≤ 393215 → lmReadWaits s off 64 = false →
        (∀ f, launchCheckLate s record = some f → exec i s = .next (takeFault s f)) ∧
        (launchCheckLate s record = none → launchFull s (dieOf s.cur.1) = true →
          exec i s = .next (sleepAt s s.cur.1 s.cur.2 .full))) ∧
      (off % 64 = 0 → off + 63 ≤ 393215 → (∀ e ∈ s.me.accs, e.ctx ≠ s.cur.2) → s.me.matQ = [] →
        launchCheckLate s record = none → launchFull s (dieOf s.cur.1) = false →
        ∃ t, exec i s = .next t ∧ t.cores = (after s 4 (fun c => c.setGpr rd.toNat nid)).cores ∧
          (t.part p).launched = (s.part p).launched + 1 ∧
          (∃ n ∈ t.nodes, n.key = s.nextKey ∧ n.state = .blocked ∧ n.record.nodeid = nid ∧ n.part = p ∧ n.desc = record) ∧
          t.mem = s.mem)) ∧
    (16 ≤ s.gprN rb → exec (.hsig ring ra rb) s = .next (takeFault s (flt 3 6))) ∧
    (s.gprN rb < 16 → relDrained s 4 = false → exec (.hsig ring ra rb) s = .next (sleepAt s s.cur.1 s.cur.2 .drain)) ∧
    (s.gprN rb < 16 → relDrained s 4 = true → ∀ u, acceptToken s vf ring.toNat token = some u →
      exec (.hsig ring ra rb) s = .next (after u 4 id)) ∧
    (s.gprN rb < 16 → relDrained s 4 = true → (vget (s.vf vf).tk ring.toNat TokRing.reset).enable = false → (s.vf vf).tokenQ.length < 64 →
      ∃ t, exec (.hsig ring ra rb) s = .next t ∧ t.cores = (after s 4 id).cores ∧
        (t.vf vf).tokenQ = (s.vf vf).tokenQ ++ [(ring.toNat, token)]) ∧
    (s.gprN rb < 16 → relDrained s 4 = true → (vget (s.vf vf).tk ring.toNat TokRing.reset).enable = false → 64 ≤ (s.vf vf).tokenQ.length →
      exec (.hsig ring ra rb) s = .next (sleepAt s s.cur.1 s.cur.2 .full))

/-! ### Promises -/

/-- R251 to R263, R401 to R405: a core with no promise area faults PNOSTAGE; `propen` takes the lowest FREE slot and queues an
opening, `predeem` redeems an open promise or holds it behind an older ordered one, `pretract` retracts it, `pquery` reads
it; a redemption job that has done its tiles adds one to its version counter and leaves its promise REDEEMED. Said for a core
on which no promise is held and none can expire. -/
def Obligations.Promises : Prop :=
  (∀ (s : State) (retract : Bool) (rd ra rb : Reg) (x : BitVec 3), Runs s → s.me.matQ = [] →
    (∀ e ∈ s.me.accs, e.ctx ≠ s.cur.2) → (∀ k, k < 16 → (s.me.watchAt k).state ≠ 3 ∧ (s.me.watchAt k).life = 0) →
    let stage := s.me.pbase.toNat
    let field := fun (off n : Nat) => BitVec.ofNat 64 (leNat (Memory.reads s.me.lm (stage + off) n))
    let w := field 0x30 8
    let p := field 0x38 8
    let ordered := leNat (Memory.reads s.me.lm (stage + 0x40) 1) % 2 = 1 ∨ (s.part (s.me.part.getD 0)).det = true
    let done := fun (t : State) (v : DWord) => t.here = { s.here.setGpr rd.toNat v with
      pc := s.here.pc + 4
      sleep := .awake
      ibpPass := none }
    let job := fun (k : Nat) (kind : RecKind) (w : DWord) (v : DWord) =>
      ({ slot := k, kind := kind, ctx := s.cur.2, key := s.nextKey, wref := w, vctr := v, ready := false } : RecJob)
    (s.me.pbase = 0 → ∀ i ∈ [Instr.propen retract rd ra rb x, .predeem rd ra rb, .pretract rd ra, .pquery rd ra],
      exec i s = .next (takeFault s (flt 1 14))) ∧
    (s.me.pbase ≠ 0 → check3 s = none →
      (∀ k, k < 16 → (s.me.watchAt k).state = 0 → (∀ j, j < k → (s.me.watchAt j).state ≠ 0) →
        check2 s [w, s.gpr ra, s.gpr rb, s.xr x.toNat] (decide (2 ^ 32 ≤ s.gprN rd)) = none →
        openShape (s.gpr ra) (s.gpr rb) (s.xr x.toNat) w = false →
        refMeets w (s.gpr ra) = false → refMeets w (s.gpr rb) = false → refMeets w (s.xr x.toNat) = false →
        ∃ t, exec (.propen retract rd ra rb x) s = .next t ∧ done t s.me.idCount ∧ t.me.idCount = s.me.idCount + 1 ∧
          (t.me.watchAt k).id = s.me.idCount ∧ (t.me.watchAt k).state = 1 ∧ (t.me.watchAt k).xref = s.gpr ra ∧
          (t.me.watchAt k).href = s.gpr rb ∧ (t.me.watchAt k).ghref = s.xr x.toNat ∧
          (t.me.watchAt k).life = (s.gpr rd).setWidth 32 ∧
          ((t.me.watchAt k).flags.getLsbD 0 = true ↔ retract = true) ∧ ((t.me.watchAt k).flags.getLsbD 1 = true ↔ ordered) ∧
          t.me.recQ = s.me.recQ ++ [job k .opening w (field 0 7)]) ∧
      ((∀ k, k < 16 → (s.me.watchAt k).state = 2) →
        check2 s [w, s.gpr ra, s.gpr rb, s.xr x.toNat] (decide (2 ^ 32 ≤ s.gprN rd)) = none →
        openShape (s.gpr ra) (s.gpr rb) (s.xr x.toNat) w = false →
        refMeets w (s.gpr ra) = false → refMeets w (s.gpr rb) = false → refMeets w (s.xr x.toNat) = false →
        exec (.propen retract rd ra rb x) s = .next (takeFault s (flt 8 1))) ∧
      (∀ k, k < 16 → (s.me.watchAt k).state = 2 → (s.me.watchAt k).id = s.gpr ra → (∀ j, j < k → (s.me.watchAt j).id ≠ s.gpr ra) →
        let e := s.me.watchAt k
        (check2 s [] false = none → ∃ t, exec (.pretract rd ra) s = .next t ∧ done t 6 ∧ (t.me.watchAt k).state = 6 ∧
          t.me.recQ = s.me.recQ ++ [job k .retraction e.wref e.vctr]) ∧
        (check2 s [w, p, s.gpr rb] false = none → redeemShape (s.gpr rb) p e.href e.ghref = false →
          redeemOverlap w p [e.xref, e.href, e.ghref, s.gpr rb] = false →
          (e.flags.getLsbD 1 = false ∨ eligible s.me e = true → ∃ t, exec (.predeem rd ra rb) s = .next t ∧ done t 4 ∧
            (t.me.watchAt k).state = 4 ∧ (t.me.watchAt k).gref = s.gpr rb ∧ (t.me.watchAt k).pref = p ∧
            t.me.recQ = s.me.recQ ++ [job k .redemption w e.vctr] ∧ t.me.recHeld = s.me.recHeld) ∧
          (e.flags.getLsbD 1 = true → eligible s.me e = false → ∃ t, exec (.predeem rd ra rb) s = .next t ∧ done t 3 ∧
            (t.me.watchAt k).state = 3 ∧ t.me.recQ = s.me.recQ ++ [job k .redemption w e.vctr] ∧
            t.me.recHeld.getLsbD k = true))) ∧
      ((∀ k, k < 16 → (s.me.watchAt k).id ≠ s.gpr ra) → check2 s [] false = none →
        exec (.pretract rd ra) s = .next (takeFault s (flt 9 4 0 (s.gprN ra))))) ∧
    (∀ t, s.me.pbase ≠ 0 → checkAcc s s.cur.1 .counterRead (field 0 7).toNat 8 = .ok t → s.poisoned t.place 8 = false →
      (∀ k, k < 16 → (s.me.watchAt k).state ≠ 0 → (s.me.watchAt k).id = s.gpr ra →
        (∀ j, j < k → (s.me.watchAt j).state = 0 ∨ (s.me.watchAt j).id ≠ s.gpr ra) →
        exec (.pquery rd ra) s = .next (after s 4 (fun c => c.setGpr rd.toNat
          (BitVec.ofNat 64 ((s.me.watchAt k).state.toNat + 2 ^ 4 * k + 2 ^ 8 * (s.me.watchAt k).nextt.toNat))))) ∧
      ((∀ k, k < 16 → (s.me.watchAt k).id ≠ s.gpr ra) → exec (.pquery rd ra) s = .next (after s 4 (fun c => c.setGpr rd.toNat 15))))) ∧
  (∀ (s : State) (j : Job) (q : List Job) (r : RecJob) (t : Target) (pa : Nat),
    let core := s.input.core
    let w := (s.core core).watchAt r.slot
    (s.core core).matQ = j :: q → j.prom = some r → j.started = true → j.fired = none → (s.core core).engStopped = false →
    r.kind = .redemption → r.ready = true → r.slot < 16 → w.state = 4 → jobTiles w r ≤ w.nextt.toNat →
    (s.core core).recQ = [] → (∀ k, k < 4 → ((s.core core).slot k).pending = 0) →
    ((s.core core).context 0).status = .live →
    (∀ k, k < 16 → ((s.core core).watchAt k).state ≠ 3 ∧ ((s.core core).watchAt k).life = 0) → s.waits = [] →
    checkAcc s core .counterAdd r.vctr.toNat 8 = .ok t → t.place = .phys pa → homeDie pa ≠ none → s.poisoned (.phys pa) 8 = false →
    ∃ u, exec .reconcileJobEnd s = .next u ∧ (u.core core).matQ = q ∧ ((u.core core).watchAt r.slot).state = 5 ∧
      leNat (Memory.reads u.mem pa 8) = min (leNat (Memory.reads s.mem pa 8) + 1) (2 ^ 64 - 1))

/-! ### Contests -/

/-- R114, R115, R120: the entry of `ctarm` carries its key and the place of its context and sets out for the die's tap; a
context with an entry pending waits; `ctres` gives what the slot holds, or the latest word while it is EMPTY; `ctcancel`
withdraws an entry whose window has not closed. Channels that are not the partition's, or have failed, fault.
That `ctarm` clears its bit of the cancelled mask is the model's choice (log 40). -/
def Obligations.ContestInstructions : Prop :=
  ∀ (s : State) (rd ra rb : Reg), Runs s →
    let ch := s.gprN rb
    let c := vget s.channels ch Channel.reset
    let bit : BitVec 16 := 1#16 <<< ch
    let k := s.gprN ra % 2 ^ 32
    let slot := vget s.here.slots ch none
    let mine := fun (e : CtEntry) => e.core = s.cur.1 ∧ e.ctx = s.cur.2
    let gives := fun (i : Instr) (v : Nat) => exec i s = .next (after s 4 (fun c => c.setGpr rd.toNat (BitVec.ofNat 64 v)))
    let arms := fun (i : Instr) (key : Nat) =>
      exec i s = .next (after (s.modChan ch (fun c => { c with arming := c.arming ++
        [{ core := s.cur.1, ctx := s.cur.2, word := BitVec.ofNat 49 (key * 2 ^ 17 + contestIdent s.cur.1 s.cur.2) }] })) 4
        (fun x => { x with
          slots := vset x.slots ch none
          ctPending := x.ctPending ||| bit
          cancelled := x.cancelled &&& ~~~bit }))
    let all := [Instr.ctarmRaw ra rb, .ctarmAmax ra rb, .ctarmMin ra rb, .ctresW rd rb, .ctresId rd rb, .ctcancel rd rb]
    (15 < ch → ∀ i ∈ all, exec i s = .next (takeFault s (flt 7 1))) ∧
    (ch ≤ 15 → 14 ≤ ch ∨ s.me.part = none ∨ c.grant ≠ s.me.part → ∀ i ∈ all, exec i s = .next (takeFault s (flt 7 2))) ∧
    (∀ p, ch < 14 → s.me.part = some p → c.grant = some p →
      (c.failed = true → ∀ i ∈ all.take 3, exec i s = .next (takeFault s (flt 7 3))) ∧
      (s.here.ctPending.getLsbD ch = true →
        (c.failed = false → ∀ i ∈ all.take 3, exec i s = .next (sleepAt s s.cur.1 s.cur.2 (.contest ch))) ∧
        exec (.ctresW rd rb) s = .next (sleepAt s s.cur.1 s.cur.2 (.contest ch)) ∧
        exec (.ctresId rd rb) s = .next (sleepAt s s.cur.1 s.cur.2 (.contest ch)) ∧
        ((∃ e ∈ c.round, mine e) → gives (.ctcancel rd rb) 0) ∧
        ((∀ e ∈ c.round, ¬mine e) → ∃ t, exec (.ctcancel rd rb) s = .next t ∧
          t.here = { s.here.setGpr rd.toNat 1 with
            slots := vset s.here.slots ch none
            ctPending := s.here.ctPending &&& ~~~bit
            pc := s.here.pc + 4
            sleep := .awake
            ibpPass := none } ∧
          (∀ e, e ∈ (vget t.channels ch Channel.reset).arming ↔ e ∈ c.arming ∧ ¬mine e) ∧
          (∀ e, e ∈ (vget t.channels ch Channel.reset).registered ↔ e ∈ c.registered ∧ ¬mine e))) ∧
      (s.here.ctPending.getLsbD ch = false →
        (c.failed = false → arms (.ctarmRaw ra rb) k ∧ arms (.ctarmMin ra rb) (2 ^ 32 - 1 - k) ∧
          arms (.ctarmAmax ra rb) (if 0x7f800000 < k % 2 ^ 31 then 2 ^ 32 - 1 else k % 2 ^ 31)) ∧
        (slot = none → gives (.ctresW rd rb) (c.latestSeq.toNat % 2 ^ 13 * 2 ^ 49 + c.latestWord.toNat) ∧
          gives (.ctresId rd rb) (ch * 2 ^ 32 + c.latestSeq.toNat)) ∧
        (∀ r, slot = some r →
          gives (.ctresW rd rb) ((match r.outcome with | .won => 1 | .lost => 2 | .cancelled => 3) * 2 ^ 62 +
            r.seq.toNat % 2 ^ 13 * 2 ^ 49 + r.word.toNat) ∧
          gives (.ctresId rd rb) (ch * 2 ^ 32 + r.seq.toNat)) ∧
        gives (.ctcancel rd rb) 0))

/-- R108 to R113, R125: an entry that reaches the tap of a die that is not excluded is registered; the root opens an arm window for it and closes it over the
entries that stand registered; the greatest word wins the round and every entry learns it; a vetoed round is void and its
entries enter the next; after 64 void rounds the channel fails and its entries are CANCELLED, and fw1 may grant another channel in
its place (R117).
When a void round's entries enter the next is the model's choice (log 40). -/
def Obligations.ContestRounds : Prop :=
  ∀ (s : State), s.input.ch < 16 →
    let ch := s.input.ch
    let c := vget s.channels ch Channel.reset
    let chan := fun (t : State) => vget t.channels ch Channel.reset
    let drives := fun (e : CtEntry) => !s.dieExcluded (e.word.toNat / 2 ^ 14 % 8)
    (∀ e, c.arming.find? (fun e => e.core = s.input.core && e.ctx = s.input.ctx) = some e → c.failed = false → drives e = false →
      exec .entryRegister s = .next s) ∧
    (∀ e, c.arming.find? (fun e => e.core = s.input.core && e.ctx = s.input.ctx) = some e → c.failed = false → drives e = true →
      ∃ t, exec .entryRegister s = .next t ∧ t.cores = s.cores ∧ (chan t).registered = c.registered ++ [e] ∧
        (chan t).arming = c.arming.filter (· ≠ e)) ∧
    (c.phase = .idle → c.registered ≠ [] → c.voids < 64 →
      exec .armWindowOpen s = .next (s.modChan ch (fun c => { c with phase := .window }))) ∧
    (c.phase = .window → exec .armWindowClose s = .next (s.modChan ch (fun c => { c with
      phase := .running
      round := c.registered
      registered := [] }))) ∧
    (∀ w ∈ c.round, c.phase = .running → (∀ d, d < 4 → s.input.mask.getLsbD d = true → s.dieExcluded d = true) →
      drives w = true → (∀ e ∈ c.round, e.core < 3072 ∧ e.ctx < 11 ∧ (drives e = true → e.word.toNat ≤ w.word.toNat)) →
      c.round.Pairwise (fun a b => (a.core, a.ctx) ≠ (b.core, b.ctx)) →
      ∃ t, exec .roundEnd s = .next t ∧ (chan t).seq = c.seq + 1 ∧ (chan t).voids = 0 ∧ (chan t).round = [] ∧
        (chan t).latestWord = w.word ∧ (chan t).latestSeq = c.seq ∧
        ∀ e ∈ c.round, vget (t.ctx e.core e.ctx).slots ch none =
          some { outcome := if e.word = w.word then .won else .lost, word := w.word, seq := c.seq } ∧
          (t.ctx e.core e.ctx).ctPending.getLsbD ch = false) ∧
    (∀ d, d < 4 → c.phase = .running → s.input.mask.getLsbD d = true → s.dieExcluded d = false →
      (∀ e ∈ c.round, e.core ≠ 65535) →
      ∃ t, exec .roundEnd s = .next t ∧ t.cores = s.cores ∧ (chan t).voids = c.voids + 1 ∧ (chan t).seq = c.seq + 1 ∧
        (chan t).registered = c.round ++ c.registered ∧ (chan t).round = []) ∧
    (64 ≤ c.voids → c.failed = false →
      (∀ e ∈ c.arming ++ c.registered, e.core < 3072 ∧ e.ctx < 11) →
      ∃ t, exec .channelFail s = .next t ∧ (chan t).failed = true ∧ (chan t).arming = [] ∧ (chan t).registered = [] ∧
        ∀ e ∈ c.arming ++ c.registered, vget (t.ctx e.core e.ctx).slots ch none =
          some { outcome := .cancelled, word := 0, seq := c.latestSeq } ∧
          (t.ctx e.core e.ctx).ctPending.getLsbD ch = false) ∧
    (∀ p, c.failed = true → c.grant = some p → s.input.ok = true → s.input.dst < 14 →
      let d := vget s.channels s.input.dst Channel.reset
      d.grant = none → d.failed = false → d.phase = .idle → ∃ t, exec .channelFail s = .next t ∧ (chan t).grant = none ∧
        (vget t.channels s.input.dst Channel.reset).grant = some p ∧ t.cores = s.cores) ∧
    (c.voids < 64 → s.input.ok = false → exec .channelFail s = .next s)

/-! ### Accesses performed -/

/-- PERFORM (R212, R332 to R334, R328, R336 to R338, R203): a load gives its register (scalar, extension or vector, or the words of a tile
row, R187) the bytes at its place, in LM or at home, and changes no other register and no byte of storage; a store writes its bytes and no others; an atomic, in LM or at its home line, writes what its operation makes of the old value,
and a returning form gives that back (said of one that no router has merged with another, R196); `cadd` adds and saturates. Each entry
then leaves its queue. -/
def Obligations.Perform : Prop :=
  ∀ (s : State) (e : Access) (c off pa : Nat),
    let core := s.input.core
    let gone := fun (t : State) => (t.core core).accs = (s.core core).accs.filter (fun x => x.id ≠ e.id)
    let home := homeDie pa = some (dieOf core) ∧ s.poisoned (.phys pa) e.len = false
    let local' := Memory.reads (s.core c).lm off e.len
    let atHome := Memory.reads s.mem pa e.len
    let value := fun (bs : List Byte) (signed : Bool) =>
      if signed then (BitVec.ofNat (8 * e.len) (leNat bs)).signExtend 64 else BitVec.ofNat 64 (leNat bs)
    (s.core core).accs.find? (fun x => x.id = s.input.key) = some e → mayPerform s core e = true → e.ctx < 11 → 0 < e.len →
    s.input.ok = false →
    (∀ dst bs, e.op = .load dst → e.place = .lm c off ∧ bs = local' ∨ e.place = .phys pa ∧ home ∧ bs = atHome →
      ∃ t, exec .perform s = .next t ∧ gone t ∧ t.mem = s.mem ∧ (∀ j, (t.core j).lm = (s.core j).lm) ∧
        let x := s.ctx core e.ctx
        let y := t.ctx core e.ctx
        y.m = x.m ∧ y.pc = x.pc ∧ y.status = x.status ∧
        match dst with
        | .scalar r signed => y.gpr r.toNat = (if r = 0 then 0 else value bs signed) ∧ y.busyS.getLsbD r.toNat = false ∧
          (∀ q, q ≠ r.toNat → y.gpr q = x.gpr q) ∧ y.x = x.x ∧ y.v = x.v
        | .xreg r => vget y.x r.toNat 0 = BitVec.ofNat 64 (leNat bs) ∧ y.busyX.getLsbD r.toNat = false ∧
          (∀ q, q ≠ r.toNat → vget y.x q 0 = vget x.x q 0) ∧ y.s = x.s ∧ y.v = x.v
        | .vector r => vget y.v r.toNat 0 = BitVec.ofNat 512 (leNat bs) ∧ y.busyV.getLsbD r.toNat = false ∧
          (∀ q, q ≠ r.toNat → vget y.v q 0 = vget x.v q 0) ∧ y.s = x.s ∧ y.x = x.x
        | .tileRow base row tr => e.len = 64 → base + 15 < 32 → row < 16 → y.s = x.s ∧ y.x = x.x ∧
          (tr = false → y.busyV.getLsbD (base + row) = false) ∧
          (tr = true → (∀ a ∈ (s.core core).accs, a.ctx = e.ctx → ∀ q u, a.op = .load (.tileRow base q u) → a.id = e.id) →
            ∀ k, k < 16 → y.busyV.getLsbD (base + k) = false) ∧
          ∀ q j, q < 32 → j < 16 → (vget y.v q 0).extractLsb' (32 * j) 32 =
            if tr = true ∧ j = row ∧ base ≤ q ∧ q < base + 16 then BitVec.ofNat 32 (leNat ((bs.drop (4 * ((row + (q - base)) % 16))).take 4))
            else if tr = false ∧ q = base + row then BitVec.ofNat 32 (leNat ((bs.drop (4 * ((row + j) % 16))).take 4))
            else (vget x.v q 0).extractLsb' (32 * j) 32) ∧
    (∀ d, e.op = .store d → e.place = .lm c off → ∃ t, exec .perform s = .next t ∧ gone t ∧ t.mem = s.mem ∧
      Memory.reads (t.core c).lm off e.len = natBytes e.len d ∧
      (∀ a, a < off ∨ off + e.len ≤ a → Memory.read (t.core c).lm a = Memory.read (s.core c).lm a) ∧
      (∀ j, j ≠ c → (t.core j).lm = (s.core j).lm)) ∧
    (∀ d, e.op = .store d → e.place = .phys pa → homeDie pa = some (dieOf core) → ∃ t, exec .perform s = .next t ∧ gone t ∧
      Memory.reads t.mem pa e.len = natBytes e.len d ∧
      (∀ a, a < pa ∨ pa + e.len ≤ a → Memory.read t.mem a = Memory.read s.mem a) ∧ (∀ j, (t.core j).lm = (s.core j).lm)) ∧
    (∀ op v cmp ret old (f : Nat → Nat), e.op = .atomic op v cmp ret → e.joined = [] → mergedAway s core e = false →
      e.place = .lm c off ∧ old = leNat local' ∨ e.place = .phys pa ∧ home ∧ s.absent pa = false ∧ old = leNat atHome →
      let signed := fun (x : Nat) => (BitVec.ofNat (8 * e.len) x).toInt
      (op, f) ∈ [(0, fun x => (x + v.toNat) % 2 ^ (8 * e.len)), (1, fun x => x &&& v.toNat), (2, fun x => x ||| v.toNat),
        (3, fun x => x ^^^ v.toNat), (4, fun x => if signed v.toNat < signed x then v.toNat else x),
        (5, fun x => if signed x < signed v.toNat then v.toNat else x), (6, fun x => min x v.toNat), (7, fun x => max x v.toNat),
        (8, fun _ => v.toNat), (9, fun x => if x = cmp.toNat % 2 ^ (8 * e.len) then v.toNat else x), (10, fun x => (fadd32 x v.toNat).1)] →
      ∃ t, exec .perform s = .next t ∧ gone t ∧
        (∀ r, ret = some r → r ≠ 0 → (t.ctx core e.ctx).gpr r.toNat = (BitVec.ofNat (8 * e.len) old).signExtend 64 ∧
          (t.ctx core e.ctx).busyS.getLsbD r.toNat = false) ∧
        (ret = none → (t.ctx core e.ctx).s = (s.ctx core e.ctx).s) ∧
        (e.place = .lm c off → Memory.reads (t.core c).lm off e.len = natBytes e.len (f old) ∧ t.mem = s.mem ∧
          (∀ a, a < off ∨ off + e.len ≤ a → Memory.read (t.core c).lm a = Memory.read (s.core c).lm a) ∧
          (∀ j, j ≠ c → (t.core j).lm = (s.core j).lm)) ∧
        (e.place = .phys pa → Memory.reads t.mem pa e.len = natBytes e.len (f old) ∧
          (∀ a, a < pa ∨ pa + e.len ≤ a → Memory.read t.mem a = Memory.read s.mem a) ∧ (∀ j, (t.core j).lm = (s.core j).lm))) ∧
    (∀ n, e.op = .cadd n → e.place = .phys pa → homeDie pa ≠ none → s.poisoned (.phys pa) 8 = false →
      ∃ t, exec .perform s = .next t ∧ (∀ x ∈ (t.core core).accs, x.id ≠ e.id) ∧
        leNat (Memory.reads t.mem pa 8) = min (leNat (Memory.reads s.mem pa 8) + n.toNat) (2 ^ 64 - 1) ∧
        (∀ a, a < pa ∨ pa + 8 ≤ a → Memory.read t.mem a = Memory.read s.mem a) ∧ (∀ j, (t.core j).lm = (s.core j).lm))

/-- R221: the message at the head of a path leaves its dirty bytes at home and no others; a holding copy whose dirty bytes are
sent stands clean; only a clean copy is dropped. -/
def Obligations.HoldingMoves : Prop :=
  ∀ (s : State), s.input.die < 4 →
    let key := s.input.die * 1000 + s.input.slice
    let copy := fun (t : State) => ((t.die s.input.die).holding).find?
      (fun h => h.line = s.input.line)
    (∀ w r, tget s.paths key [] = w :: r → ∃ t, exec .apply s = .next t ∧ tget t.paths key [] = r ∧
      (∀ i b, w.bytes[i]? = some b → w.mask.getLsbD i = true → Memory.read t.mem (w.line + i) = b) ∧
      (∀ a, (∀ i, i < w.bytes.length → w.mask.getLsbD i = true → a ≠ w.line + i) → Memory.read t.mem a = Memory.read s.mem a) ∧
      t.cores = s.cores) ∧
    (tget s.paths key [] = [] → exec .apply s = .next s) ∧
    (∀ h, copy s = some h → h.mask ≠ 0 → s.input.mask = h.mask → (∀ x ∈ h.stores, x.so = false) →
      (∀ x ∈ h.stores, x.mask &&& ~~~h.mask = 0) →
      ∃ t h' w, exec .holdSend s = .next t ∧ copy t = some h' ∧ h'.mask = 0 ∧ h'.bytes = h.bytes ∧
        tget t.paths (pathKey s.input.die h.line) [] = tget s.paths (pathKey s.input.die h.line) [] ++ [w] ∧
        w.line = h.line ∧ w.bytes = h.bytes ∧ w.mask = h.mask ∧ t.mem = s.mem) ∧
    (∀ h, copy s = some h → (h.mask = 0 → ∃ t, exec .evict s = .next t ∧ copy t = none ∧ t.mem = s.mem) ∧
      (h.mask ≠ 0 → exec .evict s = .next s))

/-! ### Fabric and collectives -/

/-- R195, R339: a `get` of bytes of the core's own LM ends with those bytes at its destination and its tag done; R98, R331: a
fabric write or atomic from another package writes its bytes in an ACTIVE partition at once and no others, and is held for one that sleeps,
which begins to wake; a read changes nothing, and wakes no partition.
What an access that waits for a wake keeps is the model's choice (log 22). -/
def Obligations.FabricAccesses : Prop :=
  (∀ (s : State) (t : NiThread),
    let core := s.input.core
    (s.core core).ni.find? (fun x => x.id = s.input.key) = some t → t.kind = .get → t.fabric = none → t.next = 0 → t.tag < 64 →
    t.chunks = [] → t.failed = none → t.started = true ∨ (s.core core).ni.find? (fun x => !x.started) = some t →
    (∀ e ∈ (s.core core).accs, e.ctx ≠ t.ctx) → ((s.core core).ni.filter (fun x => x.started)).length < 16 →
    0 < t.len → t.len ≤ 4096 - t.addr.toNat % 4096 → t.addr.toNat + t.len ≤ 0x60000 →
    ∃ u, exec .niThreadEnd s = .next u ∧
      Memory.reads (u.core core).lm t.lmOff t.len = Memory.reads (s.core core).lm t.addr.toNat t.len ∧
      (∀ a, a < t.lmOff ∨ t.lmOff + t.len ≤ a → Memory.read (u.core core).lm a = Memory.read (s.core core).lm a) ∧
      (u.core core).tagDone.getLsbD t.tag = true ∧ (u.core core).tagBusy.getLsbD t.tag = false ∧
      (u.core core).ni = (s.core core).ni.filter (fun x => x.id ≠ t.id) ∧ u.mem = s.mem) ∧
  (∀ (s : State),
    let r := s.input.req
    (r.srcPkg = s.pkgId.toNat → exec .fabricRequest s = .next s) ∧
    let frame := fun (t : State) (pa n : Nat) => t.cores = s.cores ∧ t.held = s.held ∧
      ∀ a, a < pa ∨ pa + n ≤ a → Memory.read t.mem a = Memory.read s.mem a
    (∀ n, r.op = .read n → ∃ t, exec .fabricRequest s = .next t ∧ t.mem = s.mem ∧ t.cores = s.cores ∧ t.parts = s.parts ∧ t.held = s.held) ∧
    (∀ attr pa, r.srcPkg ≠ s.pkgId.toNat → fabricPeer s r.srcPkg r.srcPart r.part r.va = none → (s.part r.part).dmState = .active →
      (s.part r.part).sealed = false → pageCounter attr = false → homeDie pa ≠ none →
      (∀ bs, r.op = .write bs → translate s r.part r.va false true = .ok (attr, .phys pa) → bs.length ≤ 4096 - pa % 4096 →
        ∃ t, exec .fabricRequest s = .next t ∧ Memory.reads t.mem pa bs.length = bs ∧ frame t pa bs.length) ∧
      (∀ op wide v (f : Nat → Nat), r.op = .atomic op wide v → translate s r.part r.va true true = .ok (attr, .phys pa) →
        let w := if wide then 8 else 4
        r.va % w = 0 → pa % w = 0 → s.poisoned (.phys pa) w = false →
        (op, f) ∈ [(0, fun x => (x + v.toNat) % 2 ^ (8 * w)), (1, fun x => x &&& v.toNat), (2, fun x => x ||| v.toNat), (3, fun x => x ^^^ v.toNat)] →
        ∃ t, exec .fabricRequest s = .next t ∧ Memory.reads t.mem pa w = natBytes w (f (leNat (Memory.reads s.mem pa w))) ∧ frame t pa w)) ∧
    (r.srcPkg ≠ s.pkgId.toNat → fabricPeer s r.srcPkg r.srcPart r.part r.va = none → (∀ n, r.op ≠ .read n) →
      (s.part r.part).dmState = .dormant → heldTaken s + heldPlaces s (.fabric r) ≤ 1024 → ∃ t, exec .fabricRequest s = .next t ∧ t.held = s.held ++ [(r.part, .fabric r)] ∧
        (t.part r.part).dmState = .waking ∧ t.mem = s.mem) ∧
    (∀ f, r.srcPkg ≠ s.pkgId.toNat → fabricPeer s r.srcPkg r.srcPart r.part r.va = some f → exec .fabricRequest s = .next s))

/-- R30 to R36: the root asks every member once, of a store when its data has been read, and ends a reduction when all have answered; a member that is absent, or has
not answered within 100 µs, ends the operation; a store is committed once every member has staged it, and each member then
writes it; a killed context breaks the groups that name it. -/
def Obligations.Collectives : Prop :=
  ∀ (s : State),
    let i := s.input
    (∀ o m, s.coll? i.op = some o → o.group.members[i.member]? = some m → o.ended = none → m.pkg = s.pkgId.toNat →
      (o.store = false → tfind o.answers i.member = none → memberGone s o.group m = false → o.asked + 330000 ≤ s.clock →
        exec .memberRead s = .next (s.setColl { o with ended := some (1, i.member) })) ∧
      (o.store = false → tfind o.answers i.member = none → memberGone s o.group m = false → s.clock < o.asked + 330000 →
        ∀ b, readMember s o.group m o.e0 o.n = .ok b → ∃ t, exec .memberRead s = .next t ∧ t.mem = s.mem ∧
          t.coll? i.op = some { o with answers := tput o.answers i.member b }) ∧
      (o.store = false → tfind o.answers i.member = none → memberGone s o.group m = true → ∃ t, exec .memberRead s = .next t ∧
        t.coll? i.op = some { o with ended := some (1, i.member) } ∧
        (∀ g, tfind s.groups o.gid = some g → tfind t.groups o.gid = some { g with broken := true })) ∧
      (o.store = true → o.committed = false → o.sent = true → i.member ∉ o.staged → memberGone s o.group m = false → s.clock < o.asked + 330000 →
        ∃ t, exec .mcstStage s = .next t ∧ t.coll? i.op = some { o with staged := o.staged ++ [i.member] }) ∧
      (o.committed = true → (s.core o.core).ni.any (fun t => t.id = o.thread) = true → i.member ∉ o.written → (m.part, HeldWrite.commit i.op i.member) ∉ s.held →
        (s.part m.part).dmState = .active → (s.part m.part).sealed = false →
        (∀ k attr pl, k < o.data.length → translate s m.part (memberVa o.group m o.e0 + k) false true = .ok (attr, pl) →
          pageCounter attr = false) →
        ∀ u, vwrite s m.part (memberVa o.group m o.e0) o.data = .ok u →
          exec .memberCommitWrite s = .next (u.setColl { o with written := o.written ++ [i.member] }))) ∧
    (∀ o, s.coll? i.op = some o → o.ended = none → i.member < o.group.members.length → o.committed = false → o.sent = true →
      o.asked + 330000 ≤ s.clock → (o.store = true → i.member ∉ o.staged) → (o.store = false → tfind o.answers i.member = none) →
      ∃ t, exec .memberTimeout s = .next t ∧ t.coll? i.op = some { o with ended := some (1, i.member) }) ∧
    (∀ o, s.coll? i.op = some o → s.clock < o.asked + 330000 → exec .memberTimeout s = .next s) ∧
    (∀ o, s.coll? i.op = some o → o.ended = none → o.store = false →
      ((∀ k, k < o.group.members.length → tfind o.answers k ≠ none) → ∃ t, exec .mldredRoot s = .next t ∧
        t.coll? i.op = some { o with
          data := reduceAll o.group o.n ((List.range o.group.members.length).map (fun k => tget o.answers k []))
          ended := some (0, 0xffff) }) ∧
      (∀ k, k < o.group.members.length → tfind o.answers k = none → exec .mldredRoot s = .next s)) ∧
    (∀ o, s.coll? i.op = some o → o.ended = none → o.store = true → o.committed = false →
      ((∀ k, k < o.group.members.length → k ∈ o.staged) → ∃ t, exec .mcstCommit s = .next t ∧
        t.coll? i.op = some { o with committed := true }) ∧
      (∀ k, k < o.group.members.length → k ∉ o.staged → exec .mcstCommit s = .next s)) ∧
    (i.pkg ≠ s.pkgId.toNat ∨ (i.core, i.ctx) ∈ s.kills → ∃ t, exec .killNotice s = .next t ∧ ∀ gid g, tfind s.groups gid = some g →
      ∃ g', tfind t.groups gid = some g' ∧ g'.members = g.members ∧
        ((∃ m ∈ g.members, m.pkg = i.pkg ∧ m.core = i.core ∧ m.ctx = i.ctx) → g'.broken = true) ∧
        ((∀ m ∈ g.members, ¬(m.pkg = i.pkg ∧ m.core = i.core ∧ m.ctx = i.ctx)) → g' = g))

/-- R22 to R25: a flit with the right check field and sequence number is accepted and any other is refused with no effect;
replays are counted, the eighth failure retrains the link, and a third failed retrain takes the port down, unless it holds a
commit that has not been delivered (R32).
What a link carries beyond the checked fields is an input (log 26), and that a retrain counts as it begins (log 4), the model's choices. -/
def Obligations.Links : Prop :=
  ∀ (s : State),
    let i := s.input
    let p := vget s.ports i.port Port.reset
    let becomes := fun (e : Instr) (f : Port → Port) => exec e s = .next { s with ports := vset s.ports i.port (f p) }
    let running := p.present = true ∧ p.linkUp = true ∧ p.retraining = false
    (running → flitOk i.flit = true → i.amount = p.rxSeq.toNat → becomes .flitReceive (fun p => { p with rxSeq := p.rxSeq + 1 })) ∧
    (flitOk i.flit = false ∨ i.amount ≠ p.rxSeq.toNat ∨ ¬running → exec .flitReceive s = .next s) ∧
    (running → 0 < i.amount → i.amount ≤ 512 → p.failedReplays < 8 → becomes .flitReplay (fun p => { p with
      replays := p.replays + BitVec.ofNat 64 i.amount
      failedReplays := if i.ok then 0 else p.failedReplays + 1 })) ∧
    (running → 8 ≤ p.failedReplays → p.failedRetrains < 3 → becomes .portRetrain (fun p => { p with
      retraining := true
      retrains := p.retrains + 1 })) ∧
    (p.failedReplays < 8 → exec .portRetrain s = .next s) ∧
    (p.retraining = true → becomes .portRetrainEnd (fun p => { p with
      retraining := false
      lanes := i.lanes
      failedReplays := if i.ok then 0 else p.failedReplays
      failedRetrains := if i.ok then 0 else p.failedRetrains + 1 })) ∧
    (running → 3 ≤ p.failedRetrains → i.ok = false → becomes .portDown (fun p => { p with failedRetrains := 2 })) ∧
    (i.port < 16 → running → 3 ≤ p.failedRetrains → i.ok = true → ∃ t, exec .portDown s = .next t ∧
      vget t.ports i.port Port.reset = { p with
        linkUp := false
        down := true
        lanes := 0 }) ∧
    (p.failedRetrains < 3 → exec .portDown s = .next s) ∧
    (p.linkUp = false → becomes .portBringUp (fun p => { p with
      present := true
      linkUp := true
      down := false
      retraining := false
      lanes := i.lanes
      failedReplays := 0
      failedRetrains := 0
      rxSeq := BitVec.ofNat 12 i.amount }))

/-! ### Debug window and reports -/

/-- R273 to R278: FREEZE, RESUME, STEP, STOPENG and HALTC each act in the issue state that the rule names and set DWSTAT[4]
in any other; they wait while the collector stops the core; the end of a step and a breakpoint freeze the core with their
packet; a window write keeps its mask, and is held for a core whose partition is dormant (R105).
That a write of a PC outside IM at offset 0x1000 is ignored with DWSTAT[4] is the model's choice (log 10): R273 says that the PC takes the
value written. -/
def Obligations.DebugUnit : Prop :=
  ∀ (s : State), s.input.core < 3072 → s.input.ctx < 11 →
    let core := s.input.core
    let k := s.input.ctx
    let c := s.core core
    let ignored := s.modCore core (fun c => { c with reqIgnored := true })
    let froze := fun (t : State) (pk : Packet) => (t.core core).issue = .frozen ∧ (t.core core).packet = some pk ∧
      pk.typ = 0 ∧ pk.core = BitVec.ofNat 16 core ∧ pk.kind = 12
    (c.stopping = true → ∀ i ∈ [Instr.dwctlFreeze, .dwctlResume, .dwctlStep, .dwctlStopeng, .dwctlHaltc], exec i s = .next s) ∧
    (s.partOf core = none → ∀ i ∈ [Instr.dwctlFreeze, .dwctlResume, .dwctlStep, .dwctlStopeng, .dwctlHaltc], exec i s = .next s) ∧
    (∀ p, s.partOf core = some p → (s.part p).dmState = .active → s.dieExcluded (dieOf core) = false → c.stopping = false →
      (c.issue ≠ .frozen → ∃ t pk, exec .dwctlFreeze s = .next t ∧ froze t pk ∧ pk.sub = 4 ∧ pk.origin = 6 ∧
        (t.core core).engStopped = true ∧ (t.core core).reqIgnored = false) ∧
      (c.issue = .frozen → exec .dwctlFreeze s = .next ignored) ∧
      (c.issue ≠ .frozen → ∀ i ∈ [Instr.dwctlResume, .dwctlStep, .dwctlStopeng, .dwctlHaltc], exec i s = .next ignored) ∧
      (c.issue = .frozen → c.recQ = [] → (∀ j, j < 4 → (c.slot j).pending = 0) →
        (∃ t, exec .dwctlResume s = .next t ∧ (t.core core).issue = .running ∧ (t.core core).engStopped = false ∧
          (∀ j, j < 11 → (t.ctx core j).stopped = false ∧ (t.ctx core j).pc = (s.ctx core j).pc ∧ (t.ctx core j).s = (s.ctx core j).s)) ∧
        ((c.context k).status = .live → ∃ t, exec .dwctlStep s = .next t ∧ (t.core core).issue = .stepping ∧
          (t.core core).stepTarget = k ∧ (t.core core).stepDone = false ∧ (t.core core).engStopped = false)) ∧
      (c.issue = .frozen → ∃ t, exec .dwctlStopeng s = .next t ∧ (t.core core).engStopped = true ∧ (t.core core).issue = .frozen) ∧
      (c.issue = .frozen → (c.context k).status = .live → ∃ t, exec .dwctlHaltc s = .next t ∧ (t.ctx core k).status = .done ∧
        t.kills = s.kills ++ [(core, k)]) ∧
      (c.issue = .frozen → (c.context k).status ≠ .live →
        exec .dwctlStep s = .next ignored ∧ exec .dwctlHaltc s = .next ignored)) ∧
    (c.issue = .stepping → c.stepDone = true → ∃ t pk, exec .stepEnd s = .next t ∧ froze t pk ∧ pk.sub = 3 ∧ pk.origin = 6 ∧
      pk.ctx = BitVec.ofNat 8 c.stepTarget ∧ pk.pc = (c.context c.stepTarget).pc) ∧
    (c.issue ≠ .stepping ∨ c.stepDone = false → exec .stepEnd s = .next s) ∧
    (c.issue = .running → (c.context k).status = .live → (c.context k).stopped = false → c.fbuf = [] → (c.context k).ibpPass = none →
      (∃ j, j < 4 ∧ (vget c.ibp j 0).getLsbD 63 = true ∧ (vget c.ibp j 0).getLsbD (48 + k) = true ∧
        vget c.ibp j 0 &&& 0xfffe = (c.context k).pc) →
      ∃ t pk, exec .breakpointStop s = .next t ∧ froze t pk ∧ pk.sub = 2 ∧ pk.pc = (c.context k).pc ∧ (t.ctx core k).stopped = true) ∧
    (c.issue = .frozen → exec .breakpointStop s = .next s) ∧
    (∀ p, s.partOf core = some p → (s.part p).dmState = .active → s.dieExcluded (dieOf core) = false →
      (s.input.off = 0x10 → exec .debugWindowWrite s =
        .next (s.modCore core (fun c => { c with dwsel := s.input.value.setWidth 16 &&& 0xff3f }))) ∧
      (∀ j, j < 4 → s.input.off = 0x40 + 8 * j → exec .debugWindowWrite s =
        .next (s.modCore core (fun c => { c with ibp := vset c.ibp j (s.input.value &&& 0x87ff00000000fffe) }))) ∧
      (s.input.off = 0x1000 → c.issue = .frozen → selContext c < 11 → s.input.value ≠ (c.context (selContext c)).pc →
        s.input.value.toNat % 2 ≠ 0 ∨ 65534 < s.input.value.toNat → exec .debugWindowWrite s = .next ignored) ∧
      (0x200 ≤ s.input.off → s.input.off < 0x4000 → c.issue ≠ .frozen → exec .debugWindowWrite s = .next s)) ∧
    (∀ p, s.partOf core = some p → (s.part p).dmState = .dormant → s.dieExcluded (dieOf core) = false → (s.part p).sealed = false →
      s.input.off % 8 = 0 → 0 < s.input.off → s.input.off < 0x4000 → heldTaken s < 1024 → ∃ t, exec .debugWindowWrite s = .next t ∧
        t.held = s.held ++ [(p, .window core s.input.off s.input.value)] ∧ (t.part p).dmState = .waking ∧ t.cores = s.cores) ∧
    (s.partOf core = none → exec .debugWindowWrite s = .next s)

/-- R270 to R272: the oldest packet of a queue enters the supervisor's ring on handle 14 or 15 when a slot is free, with the
count of what was lost before it; a notice that finds the queue full is dropped and counted. -/
def Obligations.Reports : Prop :=
  ∀ (s : State),
    let p := s.input.part
    let q := s.part p
    let sup := q.supervisor
    let handle := fun (h : Nat) => vget (s.core sup).handles h Handle.unset
    let slot := fun (h : Nat) => (handle h).base.toNat + (handle h).tail.toNat % (handle h).count.toNat * (handle h).ssize.toNat
    let opened := fun (h : Nat) => (handle h).count ≠ 0 ∧ (handle h).proxy = false ∧ 64 ≤ (handle h).ssize.toNat ∧
      ((handle h).tail - (handle h).head).toNat < (handle h).count.toNat
    let took := fun (t : State) (h : Nat) (k : Packet) =>
      Memory.reads (t.core sup).lm (slot h) 64 = { k with lost := q.lost }.bytes ∧
      (vget (t.core sup).handles h Handle.unset).tail = (handle h).tail + 1 ∧ (t.part p).lost = 0
    (∀ k r, q.dmState = .active → q.faultQ = k :: r → opened 14 →
      ∃ t, exec .faultPacketDeliver s = .next t ∧ took t 14 k ∧ (t.part p).faultQ = r) ∧
    (∀ k r, q.dmState = .active → q.noticeQ = k :: r → opened 15 →
      ∃ t, exec .noticeDeliver s = .next t ∧ took t 15 k ∧ (t.part p).noticeQ = r) ∧
    ((handle 15).count = 0 → (∀ k r, q.noticeFlight = k :: r → q.noticeQ.length < 256 →
        ∃ t, exec .noticeDeliver s = .next t ∧ (t.part p).noticeQ = q.noticeQ ++ [k] ∧ (t.part p).noticeFlight = r ∧
          (t.part p).lost = q.lost) ∧
      (∀ k r, q.noticeFlight = k :: r → 256 ≤ q.noticeQ.length →
        ∃ t, exec .noticeDeliver s = .next t ∧ (t.part p).noticeQ = q.noticeQ ∧ (t.part p).noticeFlight = r ∧
          (t.part p).lost = q.lost + 1))

/-! ### Firmware -/

/-- R67 to R71, R79 to R82, R86, R192, R207, R412: a queue between firmware cores holds 16 messages in order; a request that
fw0 has taken from a mailbox whose turn it is (R72) is served under its code and answered with its status and bytes, NOPART where
its partition does not exist or is LOST (R102); `MAP` enters its page, `UNMAP` removes it and is answered once nothing of it is outstanding.
The order of two statuses that both apply, and that a request stands as it was when it was submitted, are the model's choices (logs 13,
61). -/
def Obligations.FirmwareCalls : Prop :=
  ∀ (s : State),
    let i := s.input
    let b := i.mailbox
    let m := s.mailbox b
    let bs := s.taken b
    let code := leNat (bs.take 2)
    let p := leNat ((bs.drop 2).take 1) % 64
    let q := tget s.fwQ (8 * i.src + i.dst) []
    let answered := fun (u : State) (status : Nat) (resp : List Byte) => { u.setMailbox b { m with
      busy := false
      done := true
      status := BitVec.ofNat 16 status
      resp := bytesAt 0 resp } with lastMail := mailPlace b }
    let table := [(Instr.partCreate, 1, partCreate s bs), (.partDestroy, 2, partDestroy s bs), (.groupSet, 3, groupSet s bs),
      (.attest, 4, attest s bs), (.keyImport, 5, keyImport s bs), (.traceSet, 6, traceSet s bs), (.inspect, 7, inspect s bs)]
    (8 ≤ i.dst → exec .fwMailboxMessage s = .next s) ∧
    (i.dst < 8 → i.ok = false → q.length < 16 → exec .fwMailboxMessage s =
      .next { s with fwQ := tput s.fwQ (8 * i.src + i.dst) (q ++ [i.msg]) }) ∧
    (i.dst < 8 → i.ok = false → 16 ≤ q.length → exec .fwMailboxMessage s = .next s) ∧
    (i.dst < 8 → i.ok = true → ∃ t, exec .fwMailboxMessage s = .next t ∧ tget t.fwQ (8 * i.src + i.dst) [] = q.drop 1) ∧
    (m.busy = true → s.unmaps = [] → (code = 1 → s.boot.authWait = []) →
      (code = 2 → s.held = []) → (∀ x, servable s x = true → x = b) → mailTurn s b = true) ∧
    (∀ e ∈ table, (mailTurn s b = false ∨ code ≠ e.2.1 → exec e.1 s = .next s) ∧
      (mailTurn s b = true → code = e.2.1 → exec e.1 s = .next (answered e.2.2.state e.2.2.status e.2.2.resp))) ∧
    (∀ e ∈ table.drop 2, (s.part p).dmState = .lost → e.2.2.state = s ∧ (e.2.2.status = 13 ∨ e.2.2.status = 1)) ∧
    (∀ e ∈ table.drop 1, (s.part p).present = false → e.2.2.state = s ∧ (e.2.2.status = 13 ∨ e.2.2.status = 1)) ∧
    ((partCreate s bs).status = 0 → ((partCreate s bs).state.part p).present = true ∧ (s.part p).present = false ∧
      ((partCreate s bs).state.part p).supervisor = leNat ((bs.drop 4).take 2) ∧
      ((partCreate s bs).state.part p).holdsCore (leNat ((bs.drop 4).take 2)) = true) ∧
    ((partDestroy s bs).status = 0 → ((partDestroy s bs).state.part p).present = false) ∧
    ((traceSet s bs).status = 0 → ∃ t, (traceSet s bs).state = t ∧
      (t.part p).trctl = BitVec.ofNat 64 (leNat ((bs.drop 8).take 8)) ∧ (t.part p).trbase = BitVec.ofNat 64 (leNat ((bs.drop 16).take 8)) ∧
      (t.part p).trwptr = (s.part p).trwptr) ∧
    (mailTurn s b = true → code = 0x10 →
      let page : Page := { va := leNat ((bs.drop 8).take 8), attr := BitVec.ofNat 64 (leNat ((bs.drop 16).take 8)) }
      (mapStatus s bs ≠ 0 → exec .mapPage s = .next (answered s (mapStatus s bs) [])) ∧
      (mapStatus s bs = 0 → ∃ t, exec .mapPage s = .next t ∧ (t.part p).pages = (s.part p).pages ++ [page] ∧
        (t.mailbox b).status = 0 ∧ (t.mailbox b).busy = false)) ∧
    (mailTurn s b = true → code = 0x11 →
      ((s.part p).present = false ∨ (s.part p).dmState = .lost → exec .unmapPage s = .next (answered s 13 [])) ∧
      (∀ g, (s.part p).present = true → (s.part p).dmState ≠ .lost → onlyNamed bs [(2, 63), (8, 2 ^ 56 - 1)] = true → leNat ((bs.drop 8).take 8) < 0x00fffd0000000000 →
        pageAt (s.part p).pages (leNat ((bs.drop 8).take 8)) = some g → ∃ t, exec .unmapPage s = .next t ∧
          t.unmaps = s.unmaps ++ [{ mb := some b, part := p, page := g }] ∧ (t.part p).pages = (s.part p).pages.erase g)) ∧
    (∀ u mb, s.unmaps.find? (fun u => u.part = i.part && u.mb.isSome) = some u → u.mb = some mb →
      (unmapDrained s u.page = false → exec .unmapDone s = .next s) ∧
      (unmapDrained s u.page = true → ∃ t, exec .unmapDone s = .next t ∧ t.unmaps = s.unmaps.erase u ∧
        (t.mailbox mb).status = 0 ∧ (t.mailbox mb).busy = false ∧ (t.mailbox mb).done = true))

/-! ### The host -/

/-- R43 to R48, R54, R60, R61: writes of the registers of an awake partition's function. A ring is enabled with a size of 6 to
16 and starts at its tail; a ring without nodes to abort is disabled; a doorbell that asks for more than the ring holds is an
overrun, and one that gives a next slot admits it with its credits; the completion ring and a token ring start at count 0; a
vector's conditions are tested when its limits change, when its time is up, and when it is unmasked.
What a disabled ring keeps and the order of admission are the model's choices (logs 28, 29). -/
def Obligations.FrontEnd : Prop :=
  ∀ (s : State), s.input.vf < 1024 → (s.part (s.input.vf / 16)).present = true → (s.part (s.input.vf / 16)).dmState = .active →
    let i := s.input
    let c := s.cmd i.vf i.ring
    let f := s.vf i.vf
    let asked : BitVec 32 := i.value.setWidth 32
    let idle := (∀ r, r < 8 → (s.cmd i.vf r).enable = false) ∧ (∀ n ∈ s.nodes, n.holds i.vf = false) ∧
      (s.part (i.vf / 16)).fw3Seq = none
    (i.ring < 8 →
      (c.enable = false → i.amount < 32 → ∃ t, exec .cmdRingEnable s = .next t ∧ t.nodes = s.nodes ∧
        t.cmd i.vf i.ring = (if 6 ≤ i.amount ∧ i.amount ≤ 16 then { c with
          enable := true
          log2 := BitVec.ofNat 5 i.amount
          head := c.tail
          overrun := false
          creditLost := false
          credits := [] } else { c with log2 := BitVec.ofNat 5 i.amount })) ∧
      (c.enable = true → (∀ n ∈ s.nodes, ∀ q, n.src = .ring i.vf i.ring q → n.unbound = false) →
        ∃ t, exec .cmdRingDisable s = .next t ∧ t.nodes = s.nodes ∧ t.cmd i.vf i.ring = { c with enable := false }) ∧
      (c.enable = false → ∃ t, exec .crtailDoorbell s = .next t ∧ t.nodes = s.nodes ∧ t.cmd i.vf i.ring =
        (if c.slots < (asked - c.head).toNat then { c with overrun := true } else { c with tail := asked })) ∧
      (c.enable = true → c.head = c.tail → c.slots < (asked - c.head).toNat → ∃ t, exec .crtailDoorbell s = .next t ∧
        t.nodes = s.nodes ∧ t.cmd i.vf i.ring = { c with overrun := true }) ∧
      (c.enable = true → c.head = c.tail → asked = c.tail + 1 → f.cp.wait.length < 256 →
        slotLive s i.vf i.ring (c.head.toNat % c.slots) = false →
        let slot := c.head.toNat % c.slots
        let preds := recField (granule s c slot 0) 0x0c 2
        let held := tget c.credits slot 0
        ∃ t n, exec .crtailDoorbell s = .next t ∧ t.nodes = s.nodes ++ [n] ∧ n.src = .ring i.vf i.ring slot ∧
          n.part = i.vf / 16 ∧ n.record.nodeid = b64 (recField (granule s c slot 0) 0 8) ∧
          n.count = preds - min preds held ∧ n.state = (if preds ≤ held then .blocked else .waiting) ∧
          (t.cmd i.vf i.ring).head = asked ∧ (t.cmd i.vf i.ring).tail = asked ∧
          tget (t.cmd i.vf i.ring).credits slot 0 = held - min preds held)) ∧
    (idle → f.cp.wait = [] →
      (f.cp.enable = false → 6 ≤ i.amount → i.amount ≤ 16 → ∃ t, exec .completionRingEnable s = .next t ∧
        (t.vf i.vf).cp = { f.cp with
          enable := true
          log2 := BitVec.ofNat 5 i.amount
          tail := 0
          head := 0 }) ∧
      (∃ t, exec .cpheadWrite s = .next t ∧ (t.vf i.vf).cp = { f.cp with head := asked } ∧ t.mem = s.mem)) ∧
    (i.ring < 4 → f.tokenQ = [] →
      ((f.ring i.ring).enable = false → 6 ≤ i.amount → i.amount ≤ 16 → i.vector < 16 → ∃ t, exec .tokenRingEnable s = .next t ∧
        (t.vf i.vf).ring i.ring = { f.ring i.ring with
          enable := true
          log2 := BitVec.ofNat 5 i.amount
          vector := BitVec.ofNat 4 i.vector
          tail := 0
          head := 0 }) ∧
      (∃ t, exec .tkheadWrite s = .next t ∧ (t.vf i.vf).ring i.ring = { f.ring i.ring with head := asked } ∧ t.mem = s.mem)) ∧
    (i.vector < 16 →
      let x := f.vector i.vector
      (x.pending = 0 → ∃ t, exec .icctlWrite s = .next t ∧ (t.vf i.vf).vector i.vector = { x with limit := asked }) ∧
      (∀ b, x.pending ≠ 0 → x.limit.toNat / 65536 ≠ 0 → x.timer = some b → b + x.limit.toNat / 65536 * 3300 ≤ s.clock →
        ∃ t, exec .coalesceTimerExpiry s = .next t ∧ (t.vf i.vf).vector i.vector = (if x.masked then { x with
          pending := 0
          timer := none
          pba := true } else { x with
          pending := 0
          timer := none
          pba := false
          sent := x.sent + 1
          msgAddr := x.addr
          msgData := x.data })) ∧
      (x.pending = 0 → ∃ t, exec .coalesceTimerExpiry s = .next t ∧ (t.vf i.vf).vector i.vector = x) ∧
      (∃ t, exec .msixUnmask s = .next t ∧ (t.vf i.vf).vector i.vector = (if x.pba then { x with
          masked := false
          pba := false
          sent := x.sent + 1
          msgAddr := x.addr
          msgData := x.data } else { x with masked := false })))

/-- R39 to R46, R68, R76, R100: a register write at an offset that is not aligned has no effect; the physical function's
mailbox takes nothing in recovery, and PKGSTAT is cleared bit by bit; a function of an absent partition takes no
write, and one of a dormant partition is held; a reset of a function whose nodes have left leaves its registers at reset; a
reset of the physical function disables every ring when it begins, and it ends once what has been issued is performed.
What a reset of the physical function keeps, its two phases, and that an absent partition's function takes no write, are the
model's choices (logs 27, 28, 64). -/
def Obligations.RegisterWrites : Prop :=
  ∀ (s : State),
    let i := s.input
    (i.off % 8 ≠ 0 → exec .registerWrite s = .next s) ∧
    (i.space = .pf → s.boot.recovery = true → exec .registerWrite s = .next s) ∧
    (i.space = .pf → i.off = 0x100 → s.boot.recovery = false → ∃ t, exec .registerWrite s = .next t ∧
      t.carrier = { s.carrier with
        flowFault := s.carrier.flowFault && !(i.value.getLsbD 4 && !s.carrier.flowSignal)
        thermal := s.carrier.thermal && !i.value.getLsbD 3 } ∧
      t.boot = s.boot ∧ t.parts = s.parts ∧ t.mem = s.mem) ∧
    (∀ v, i.space = .vf v → (s.part (v / 16)).present = false → exec .registerWrite s = .next s) ∧
    (∀ v, i.space = .vf v → i.off % 8 = 0 → (s.part (v / 16)).present = true → (s.part (v / 16)).dmState = .dormant →
      heldTaken s < 1024 → ∃ t, exec .registerWrite s = .next t ∧
        t.held = s.held ++ [(v / 16, .vfReg v i.off i.value)] ∧ (t.part (v / 16)).dmState = .waking ∧ t.vfs = s.vfs) ∧
    (i.space = .recovery → i.off = 0x208 → s.boot.recovery = true →
      exec .registerWrite s = .next { s with boot := { s.boot with rvlen := i.value.setWidth 20 } }) ∧
    ((∀ n ∈ s.nodes, ∀ r q, n.src ≠ .ring i.vf r q) → (i.vf % 16 = 0 → (s.part (i.vf / 16)).fw3Seq = none) → ∃ t, exec .flrVf s = .next t ∧ t.vf i.vf = Vf.reset ∧
      (∀ w, w ≠ i.vf → t.vf w = s.vf w) ∧ t.mem = s.mem ∧ t.parts = s.parts) ∧
    (s.flr = false → ∃ t, exec .flrPf s = .next t ∧ (s.nodes = [] → (∀ e ∈ s.cores, e.2.issue ≠ .frozen) → t.flr = false) ∧
      ∀ v r, r < 8 → (t.cmd v r).enable = false ∧ (t.vf v).cp.enable = false ∧ (t.vf v).tokenQ = []) ∧
    (s.flr = true → flrDrained s = false → exec .flrPf s = .next s) ∧
    (s.flr = true → flrDrained s = true → ∃ t, exec .flrPf s = .next t ∧ t.flr = false ∧ t.vfs = s.vfs)

/-! ### Boot, the carrier, errors, dormancy -/

/-- R20, R21, R75 to R78: a package reset leaves the two firmware slots, the flash and the host's memory, and boots from slot
A, else from slot B, else into recovery; a die whose answer fails, that refuses DX's, or that has not answered in 10 ms, is excluded; in recovery
an image is cleared, extended, verified into its slot, and booted; the carrier's signals are latched in PKGSTAT, and a request for a cap
above the fused one is ignored.
What a reset keeps of memory, how long TOOBIG stands, the order of the log, and the hash and the order of the nonces of an authentication
are the model's choices (logs 9, 24, 25, 60). -/
def Obligations.BootAndCarrier : Prop :=
  ∀ (s : State),
    let i := s.input
    let b := s.boot
    let n := b.rvlen.toNat
    let boot := fun (f : BootState → BootState) => ({ s with boot := f b } : State)
    let carrier := fun (f : Carrier → Carrier) => ({ s with carrier := f s.carrier } : State)
    (∃ t, exec .perstReset s = .next t ∧ t.boot.slotA = b.slotA ∧ t.boot.slotB = b.slotB ∧ t.parts = [] ∧ t.nodes = [] ∧ t.vfs = [] ∧
      t.clock = 0 ∧ (∀ a o, paKind a = .host o → Memory.read t.mem a = Memory.read s.mem a) ∧
      (∀ a, (∀ o, paKind a ≠ .host o) → Memory.read t.mem a = 0) ∧
      (t.boot.recovery = true ↔ imageStatus b.slotA ≠ 0 ∧ imageStatus b.slotB ≠ 0) ∧
      (imageStatus b.slotA = 0 → t.boot.running = some 0) ∧
      (imageStatus b.slotA ≠ 0 → imageStatus b.slotB = 0 → t.boot.running = some 1) ∧
      t.carrier.flowFault = s.carrier.flowSignal ∧ t.carrier.thermal = false) ∧
    (i.die ∉ b.authWait → exec .dieAuthentication s = .next s ∧ exec .dieAuthTimeout s = .next s) ∧
    (s.clock < 33000000 → exec .dieAuthTimeout s = .next s) ∧
    (33000000 ≤ s.clock → exec .dieAuthentication s = .next s) ∧
    (i.die ∈ b.authWait → i.die < 4 →
      (s.clock < 33000000 → dieProves s i.die = true → dieAccepts s i.die = true → ∃ t, exec .dieAuthentication s = .next t ∧
        t.boot.authWait = b.authWait.erase i.die ∧ t.dies = s.dies) ∧
      (s.clock < 33000000 → dieProves s i.die = false ∨ dieAccepts s i.die = false → ∃ t, exec .dieAuthentication s = .next t ∧
        t.boot.authWait = b.authWait.erase i.die ∧ t.dieExcluded i.die = true) ∧
      (33000000 ≤ s.clock → ∃ t, exec .dieAuthTimeout s = .next t ∧ t.boot.authWait = b.authWait.erase i.die ∧
        t.dieExcluded i.die = true)) ∧
    (b.recovery = false → ∀ e ∈ [Instr.rvClearImage, .rvAppend, .rvVerifyWrite, .rvReset], exec e s = .next s) ∧
    (b.recovery = true →
      exec .rvClearImage s = .next (boot (fun b => { b with
        image := []
        tooBig := false
        rvstatus := 0 })) ∧
      (n = 0 ∨ 0x80000 < n → exec .rvAppend s = .next (boot (fun b => { b with rvstatus := 8 }))) ∧
      (0 < n → n ≤ 0x80000 → b.tooBig = false → b.image.length + n ≤ 256 + 8388608 → exec .rvAppend s = .next (boot (fun b => { b with
        image := b.image ++ Memory.reads b.stage 0 n
        rvstatus := 0 }))) ∧
      (0 < n → n ≤ 0x80000 → 256 + 8388608 < b.image.length + n → exec .rvAppend s = .next (boot (fun b => { b with
        tooBig := true
        rvstatus := 1 }))) ∧
      (b.tooBig = true → exec .rvVerifyWrite s = .next (boot (fun b => { b with rvstatus := 1 }))) ∧
      (b.tooBig = false → imageStatus b.image ≠ 0 → exec .rvVerifyWrite s =
        .next (boot (fun b => { b with rvstatus := BitVec.ofNat 8 (imageStatus b.image) }))) ∧
      (b.tooBig = false → imageStatus b.image = 0 → exec .rvVerifyWrite s = .next (boot (fun b => if b.rvslot = 0 then { b with
        slotA := b.image
        rvstatus := 0 } else { b with
        slotB := b.image
        rvstatus := 0 }))) ∧
      exec .rvReset s = exec .perstReset s) ∧
    (∃ t, exec .flowFaultAssert s = .next t ∧ t = { s with
      carrier := { s.carrier with
        flowSignal := true
        flowFault := true }
      dies := s.dies.map (fun d => { d with lowest := true }) }) ∧
    (exec .flowFaultDeassert s = .next { s with
      carrier := { s.carrier with flowSignal := false }
      dies := if s.carrier.flowFault then s.dies else s.dies.map (fun d => { d with lowest := false }) }) ∧
    exec .hardPowerCap s = .next (carrier (fun c => { c with
      cap := if 0 < i.amount ∧ i.amount ≤ 2600 then i.amount else c.cap
      capActive := i.ok })) ∧
    exec .thermalAlert s = .next (carrier (fun c => { c with thermal := true })) ∧
    exec .pwrgoodChange s = .next (carrier (fun c => { c with pwrGood := i.ok }))

/-- R208, R286, R287: an uncorrectable error in a core makes it lasting and freezes it with POISON, CORE; one of a memory line
poisons the line and makes its frame lasting; correctable errors are counted over one second, and a count above the threshold
makes the structure lasting; a page on a lasting frame is unmapped, and mapped again at the frame found for it, with a
notice.
A core already frozen takes no second packet unless its engines run, after a step.
The CTX and PC of the packet, the thresholds and the frame that is found are the model's choices (logs 18, 19). -/
def Obligations.ErrorsAndRetirement : Prop :=
  ∀ (s : State),
    let i := s.input
    let recent := (tget s.errCounts (errorKey i.site) []).filter (fun t => s.clock < t + 3300000000)
    let counted : State := { s with errCounts := tput s.errCounts (errorKey i.site) (s.clock :: recent) }
    let mine := fun (u : Unmapping) => u.mb.isNone && u.part = i.part && decide (u.page.va ≤ i.va) && decide (i.va < u.page.va + pageSize u.page.attr)
    (∀ k, i.site = .core k → k < 3072 → (s.core k).issue ≠ .frozen →
      ∃ t pk, exec .uncorrectableError s = .next t ∧ (t.core k).lasting = true ∧ (t.core k).issue = .frozen ∧
        (t.core k).packet = some pk ∧ pk.kind = 6 ∧ pk.sub = 2 ∧ ((s.core k).node = none → (t.core k).withdrawn = true)) ∧
    (∀ k, i.site = .core k → k < 3072 → (s.core k).issue = .frozen → (s.core k).stopping = false → i.ok = false →
      ((s.core k).engStopped = true → ∃ t, exec .uncorrectableError s = .next t ∧ (t.core k).lasting = true ∧
        (t.core k).packet = (s.core k).packet ∧ (t.core k).issue = .frozen) ∧
      ((s.core k).engStopped = false → ∃ t pk, exec .uncorrectableError s = .next t ∧ (t.core k).lasting = true ∧
        (t.core k).engStopped = true ∧ (t.core k).packet = some pk ∧ pk.kind = 6 ∧ pk.sub = 2)) ∧
    (∀ a, i.site = .line a → isHbm a = true → ∃ t, exec .uncorrectableError s = .next t ∧ lineOf (canon a) ∈ t.poison ∧
      frameOf a ∈ t.badFrames ∧ t.mem = s.mem ∧ t.cores = s.cores) ∧
    (siteExists i.site = true → recent.length + 1 ≤ errorThreshold i.site → exec .correctableError s = .next counted) ∧
    (errorThreshold i.site < recent.length + 1 →
      (∀ k, i.site = .core k → k < 3072 → ∃ t, exec .correctableError s = .next t ∧ (t.core k).lasting = true) ∧
      (∀ a, i.site = .line a → isHbm a = true → ∃ t, exec .correctableError s = .next t ∧ frameOf a ∈ t.badFrames)) ∧
    (s.unmaps.find? mine = none →
      (pageAt (s.part i.part).pages i.va = none → exec .frameRetire s = .next s) ∧
      (∀ g, pageAt (s.part i.part).pages i.va = some g →
        (onBadFrame s g = false → exec .frameRetire s = .next s) ∧
        (onBadFrame s g = true → i.ok = true → ∃ t, exec .frameRetire s = .next t ∧
          t.unmaps = s.unmaps ++ [{ mb := none, part := i.part, page := g }] ∧ (t.part i.part).pages = (s.part i.part).pages.erase g) ∧
        (onBadFrame s g = true → i.ok = false → ∃ t k, exec .frameRetire s = .next t ∧
          (t.part i.part).noticeFlight = (s.part i.part).noticeFlight ++ [k] ∧ k.kind = 14 ∧ k.sub = 23 ∧
          k.info = b64 (pageFrame g.attr) ∧ (t.part i.part).pages = (s.part i.part).pages))) ∧
    (∀ u, s.unmaps.find? mine = some u →
      (unmapDrained s u.page = false → exec .frameRetire s = .next s) ∧
      (unmapDrained s u.page = true → i.ok = true → freeFrame s i.part (u.page.move i.line) = true →
        ∃ t k, exec .frameRetire s = .next t ∧ t.unmaps = s.unmaps.erase u ∧
          (t.part i.part).pages = (s.part i.part).pages ++ [u.page.move i.line] ∧
          (t.part i.part).noticeFlight = (s.part i.part).noticeFlight ++ [k] ∧ k.kind = 14 ∧ k.sub = 22 ∧
          k.info = b64 (pageFrame u.page.attr)))

/-- R88 to R91, R94 to R104: one microsecond of an account; throttling ends once; a collapse begins, or gives its reason; a
wake, a timer or a write ends dormancy; a woken partition's cores come back with the registers, contexts and memories that were saved, and
its held writes are then performed in the order in which they were held; the peek path wakes one pseudo-channel for 10 µs.
The order of the reasons, and that a wake fails by an input, are the model's choices (logs 21, 23). -/
def Obligations.Dormancy : Prop :=
  ∀ (s : State),
    let i := s.input
    let p := i.part
    let q := s.part p
    let wakes := fun (e : Instr) => ∃ t, exec e s = .next t ∧ t.mem = s.mem ∧ t.cores = s.cores ∧
      t.part p = (if q.dmState = .dormant then { q with dmState := .waking } else if q.dmState = .collapsing then { q with
        dmState := .active
        idleSince := none } else q)
    (q.present = true → q.updatedAt + 3300 ≤ s.clock → ∃ t, exec .energyUpdate s = .next t ∧
      (t.part p).account = max (-(2 ^ 47)) (min (q.ceiling.toNat : Int) (q.account + q.quota.toNat - (i.amount + (i.shares.map (·.2)).sum : Nat))) ∧
      (t.part p).updatedAt = q.updatedAt + 3300 ∧ ((t.part p).account < 0 → (t.part p).throttled = true)) ∧
    (s.clock < q.updatedAt + 3300 → exec .energyUpdate s = .next s) ∧
    (q.throttled = true → q.restored ≠ none → ∃ t, exec .throttleEnd s = .next t ∧ (t.part p).throttled = false) ∧
    (q.throttled = false → exec .throttleEnd s = .next s) ∧
    (q.present = true → q.dmState = .active →
      (collapseRefusal s p = none → exec .dmCollapse s = .next (s.modPart p (fun q => { q with dmState := .collapsing }))) ∧
      (∀ r, collapseRefusal s p = some r → exec .dmCollapse s = .next (s.modPart p (fun q => { q with dmReason := BitVec.ofNat 8 r }))) ∧
      (dwellDue s p = true → collapseRefusal s p = none → exec .dwellExpiry s =
        .next (s.modPart p (fun q => { q with dmState := .collapsing }))) ∧
      (dwellDue s p = false → exec .dwellExpiry s = .next s)) ∧
    (q.dmState ≠ .active → exec .dmCollapse s = .next s ∧ exec .dwellExpiry s = .next s) ∧
    wakes .dmWake ∧
    (q.dmState = .dormant → q.timer ≠ 0 → q.collapsedAt + q.timer.toNat * 3300 ≤ s.clock → wakes .dmtimerExpiry) ∧
    (q.timer = 0 → exec .dmtimerExpiry s = .next s) ∧
    (q.present = true → q.dmState ≠ .active → i.held = .wakeOnly → wakes .wakeWrite) ∧
    (∀ vf off v, q.present = true → q.dmState = .dormant → i.held = .vfReg vf off v → vf / 16 = p → heldTaken s < 1024 →
      ∃ t, exec .wakeWrite s = .next t ∧ t.held = s.held ++ [(p, i.held)] ∧ (t.part p).dmState = .waking) ∧
    (q.present = true → q.dmState = .collapsing → inRound s p = true → exec .collapseComplete s = .next s) ∧
    (q.present = true → q.dmState = .collapsing → inRound s p = false → ∃ t, exec .collapseComplete s = .next t ∧ (t.part p).dmState = .dormant ∧
      (t.part p).collapses = q.collapses + 1 ∧ (t.part p).collapsedAt = s.clock) ∧
    (q.dmState ≠ .collapsing → exec .collapseComplete s = .next s) ∧
    (q.present = true → q.dmState = .waking → failingDies s p = [] → q.savedCores.Pairwise (fun a b => a.1 ≠ b.1) →
      ∃ u, exec .wakeComplete s = .next ((s.held.filter (fun h => h.1 = p)).foldl (fun v h => performHeld v h.2) u) ∧
        (u.part p).dmState = .active ∧ (u.part p).wakes = q.wakes + 1 ∧ (u.part p).savedCores = [] ∧
        u.held = s.held.filter (fun h => h.1 ≠ p) ∧ u.mem = s.mem ∧
        (∀ e ∈ q.savedCores, let c := u.core e.1
          c.im = e.2.im ∧ c.lm = e.2.lm ∧ c.acc = e.2.acc ∧ c.handles = e.2.handles ∧ c.tagDone = e.2.tagDone ∧ c.tagBusy = e.2.tagBusy ∧
          c.issue = e.2.issue ∧ c.vecQ = e.2.vecQ ∧ c.matQ = e.2.matQ ∧ c.copyQ = e.2.copyQ ∧ c.watch = e.2.watch ∧
          ∀ k, k < 11 → (c.context k).pc = (e.2.context k).pc ∧ (c.context k).s = (e.2.context k).s ∧ (c.context k).v = (e.2.context k).v ∧
            (c.context k).m = (e.2.context k).m ∧ (c.context k).x = (e.2.context k).x ∧ (c.context k).status = (e.2.context k).status) ∧
        (∀ i, (∀ e ∈ q.savedCores, e.1 ≠ i) → u.core i = s.core i)) ∧
    (q.dmState ≠ .waking → exec .wakeComplete s = .next s) ∧
    (∀ d o, paKind i.line = .home d o → refreshing s d o = true → s.dieExcluded d = false →
      exec .peekRead s = .next { s with awakePcs := tput s.awakePcs (pseudoChannel d o) s.clock }) ∧
    (∀ d o t, paKind i.line = .home d o → tfind s.awakePcs (pseudoChannel d o) = some t →
      (t + 33000 ≤ s.clock → exec .peekIdle s = .next { s with awakePcs := tdel s.awakePcs (pseudoChannel d o) }) ∧
      (s.clock < t + 33000 → exec .peekIdle s = .next s))

/-! ### Nodes -/

/-- R129 to R133, R139, R417: a node binds only while it is BLOCKED, awake and in its turn; queues that are refused retire it
before it binds, with an entry of status BADREC, subcode 0x28, where its CVEC asks for one, and else it is READY or already DONE, with the queue ids that were tested; a READY node that has
waited 2 ms rises one level, at most twice. -/
def Obligations.NodeBinding : Prop :=
  ∀ (s : State) (n : Node), s.node? s.input.node = some n →
    (bindable s n = false ∨ bindTurn s n = false → exec .nodeBind s = .next s) ∧
    (bindable s n = true → bindTurn s n = true →
      (edgesRefused s n.part n.record = false → ∃ t m, exec .nodeBind s = .next t ∧ t.node? n.key = some m ∧
        (m.state = .ready ∨ m.state = .done) ∧ m.edgePassed = true ∧ m.record.edgeq = n.record.edgeq ∧ m.src = n.src) ∧
      (∀ vf r slot g, edgesRefused s n.part n.record = true → n.src = .ring vf r slot → (s.part n.part).trctl = 0 →
        readGranule s (s.cmd vf r) slot 1 = some g → ((s.cmd vf r).enable = true → (s.cmd vf r).head = (s.cmd vf r).tail) →
        let cvec := recField g 0x12 1
        let c := (s.vf vf).cp
        let entry := 0x80000000000 + c.base.toNat + 32 * (c.tail.toNat % 2 ^ c.log2.toNat)
        (cvec < 128 → ∃ t, exec .nodeBind s = .next t ∧ t.node? n.key = none ∧ t.mem = s.mem ∧ t.cores = s.cores) ∧
        (128 ≤ cvec → cvec < 256 → (∀ m ∈ s.nodes, m.holds vf = false) → (s.part (vf / 16)).fw3Seq = none → c.wait = [] → c.open = true →
          entry + 32 ≤ 0x80000000000 + 2 ^ 42 →
          ∃ t, exec .nodeBind s = .next t ∧ t.node? n.key = none ∧ t.cores = s.cores ∧ (t.vf vf).cp.tail = c.tail + 1 ∧
            Memory.reads t.mem entry 32 = natBytes 8 n.record.nodeid.toNat ++ natBytes 8 0 ++ natBytes 2 slot ++ natBytes 1 r ++ [1] ++
              natBytes 4 0x28 ++ natBytes 4 0 ++ [0, 0, 0, phaseOf c.tail c.log2] ∧
            (∀ a, a < entry ∨ entry + 32 ≤ a → Memory.read t.mem a = Memory.read s.mem a)))) ∧
    (n.state = .ready → (s.part n.part).det = false → n.promotions < 2 → n.level < 7 → n.levelSince + 6600000 ≤ s.clock →
      ∃ t m, exec .levelPromotion s = .next t ∧ t.node? n.key = some m ∧ m.level = n.level + 1 ∧ m.promotions = n.promotions + 1 ∧
        m.levelSince = s.clock ∧ m.state = .ready ∧ m.record = n.record) ∧
    (n.state ≠ .ready ∨ (s.part n.part).det = true ∨ 2 ≤ n.promotions ∨ 7 ≤ n.level ∨ s.clock < n.levelSince + 6600000 →
      exec .levelPromotion s = .next s)

/-- R138, R142 to R145, R128, R131, R56: with no node waiting a selection changes no node, and none is made that no event called
for; the one node that waits, a host signal or a join, is selected and ends with OK; a gang whose image can be read stands on its cores, after
its launch and after the selection that dispatches it, with c0 LIVE at ENTRY, every register 0, its code at 0, its data at LMOFF and its rank; a gang that has finished frees its cores; a node that has ended
waits until its arrivals may be performed, then posts its entry and retires.
When a node is selected, and the registers that R144 does not name, are the model's choices (logs 30, 49). -/
def Obligations.NodeRuns : Prop :=
  (∀ (s : State), (∀ n ∈ s.nodes, n.waits = false) → ∃ t, exec .nodeSelect s = .next t ∧ t.nodes = s.nodes ∧ t.cores = s.cores ∧
    t.mem = s.mem) ∧
  (∀ (s : State) (n : Node), s.nodes = [n] → n.state = .ready → 4 ≤ n.record.kind → n.level < 8 → n.part < 64 →
    (s.part n.part).present = true → (s.part n.part).dmState = .active → (s.part n.part).det = false →
    0 ≤ vget (s.part n.part).deficit n.level 0 → energyOk (s.part n.part) n = true → s.claims = [] → s.selects ≠ 0 →
    ∃ t m, exec .nodeSelect s = .next t ∧ t.node? n.key = some m ∧ m.state = .done ∧ m.status = 0 ∧ m.released = false ∧
      t.cores = s.cores) ∧
  (∀ (s : State), s.claims = [] → s.selects = 0 → exec .nodeSelect s = .next s) ∧
  (∀ (s : State) (n m : Node) (l : List Nat) (im lm : List Byte),
    let word := fun (i : Nat) => recField n.desc (4 * i) 4
    let started := fun (t : State) =>
      (∀ k i, l[k]? = some i → let c := t.core i
        let x := t.ctx i 0
        x.status = .live ∧ x.pc = b64 (word 2) ∧
        (∀ h, h < 11 → let y := t.ctx i h
          (0 < h → y.status = .free) ∧ ∀ r, y.gpr r = 0 ∧ vget y.v r 0 = 0 ∧ vget y.m r 0 = 0 ∧ vget y.x r 0 = 0) ∧ Memory.reads c.im 0 im.length = im ∧
        Memory.reads c.lm (word 4) lm.length = lm ∧ c.rank = BitVec.ofNat 12 k ∧ c.node = some n.key ∧ c.part = some n.part) ∧
      (∀ j, j ∉ l → t.core j = s.core j) ∧ t.mem = s.mem ∧ ∃ m', t.node? n.key = some m' ∧ m'.state = .running ∧ m'.cores = l
    vread s n.part (n.record.image + 64) (word 1) = .ok im → vread s n.part (n.record.image + 64 + word 1) (word 3) = .ok lm →
    l.Nodup →
      (s.node? n.key = some m → started (launchImage s n l)) ∧
      (s.nodes = [n] → n.state = .ready → n.record.kind = 0 → n.multiDie = false → word 0 ≠ resumeMagic → n.level < 8 → n.part < 64 →
        (s.part n.part).present = true → (s.part n.part).dmState = .active → (s.part n.part).trctl = 0 →
        (costOf n : Int) ≤ vget (s.part n.part).deficit n.level 0 → energyOk (s.part n.part) n = true →
        s.claims = [] → s.selects ≠ 0 → placeNow s n = some l → ∃ t, exec .nodeSelect s = .next t ∧ started t)) ∧
  (∀ (s : State) (n : Node), s.node? s.input.node = some n →
    (n.state ≠ .done → gangFinished s n = false → exec .nodeComplete s = .next s) ∧
    (n.state ≠ .done → gangFinished s n = true → ∃ t, exec .nodeComplete s = .next t ∧ ∀ i ∈ n.cores, (t.core i).node = none) ∧
    (n.state = .done → n.edgesDone = false → relReady s n = false → exec .nodeComplete s = .next s) ∧
    (∀ vf r slot, n.state = .done → n.edgesDone = false → relReady s n = true → n.src = .ring vf r slot → n.edgePassed = false → n.released = true →
      n.posted = false → (s.part n.part).det = false → (s.part n.part).trctl = 0 →
      ((s.cmd vf r).enable = true → (s.cmd vf r).head = (s.cmd vf r).tail) →
      (n.record.cvec < 128 → ∃ t, exec .nodeComplete s = .next t ∧ t.node? n.key = none ∧ t.mem = s.mem) ∧
      (let c := (s.vf vf).cp
       let addr := c.base.toNat + 32 * (c.tail.toNat % 2 ^ c.log2.toNat)
       128 ≤ n.record.cvec → n.record.cvec < 256 → (∀ m ∈ s.nodes, m.holds vf = false) → (s.part (vf / 16)).fw3Seq = none → c.wait = [] → c.open = true → addr + 32 ≤ 2 ^ 42 →
        ∃ t, exec .nodeComplete s = .next t ∧ t.node? n.key = none ∧ (t.vf vf).cp.tail = c.tail + 1 ∧
          Memory.reads t.mem (0x80000000000 + addr) 32 = nodeEntry n r slot ++ [phaseOf c.tail c.log2] ∧
          (∀ a, a < 0x80000000000 + addr ∨ 0x80000000000 + addr + 32 ≤ a → Memory.read t.mem a = Memory.read s.mem a))))

/-- R150 to R152, R280, R281: a READY gang that has not fitted for 100 µs has its victims' cores asked to stop, or, where another
collector claims them too, its collector enters channel 14; a core that is running stops, and acknowledges once its classes have
stopped, one that is not running makes the collector give up, and so does one that faults after it stopped; once all have acknowledged each core is saved to its place in
the node's area, and the node is then SUSPENDED with an image of every core, its cores free.
When a victim is saved, where its area lies, and that an input says whether the cores are contested are the model's choices
(logs 30, 40, 66). -/
def Obligations.Preemption : Prop :=
  ∀ (s : State) (n : Node),
    let core := s.input.core
    let c := s.core core
    (s.node? s.input.node = some n →
      (∀ b, n.state = .ready → n.record.kind = 0 → n.stuck = some b → b + 330000 ≤ s.clock → placeNow s n = none →
        s.claims = [] →
        (s.input.ok = false → ∃ t, exec .preemptChoice s = .next t ∧ t.mem = s.mem ∧ t.claims = [] ∧
          (∀ v ∈ (victims s n).2, ∀ i ∈ v.cores, (t.core i).stopping = true) ∧
          (∀ i, (∀ v ∈ (victims s n).2, i ∉ v.cores) → t.core i = s.core i)) ∧
        (s.input.ok = true → (s.chan 14).failed = false → (∃ v ∈ (victims s n).2, v.cores ≠ []) →
          ∃ t d, exec .preemptChoice s = .next t ∧ t.cores = s.cores ∧ t.mem = s.mem ∧ t.nodes = s.nodes ∧
            t.claims = [{ ch := 14, die := d, node := n.key, won := false, rival := none }])) ∧
      (n.state ≠ .ready ∨ n.stuck = none ∨ placeNow s n ≠ none → exec .preemptChoice s = .next { s with
        claims := s.claims.filter (fun c => !(c.ch = 14 && c.node = n.key && (c.won || c.rival.isSome))) }) ∧
      (n.state = .running → n.record.kind = 0 → n.cores ≠ [] → n.cores.Nodup →
        (∀ i ∈ n.cores, (s.core i).saved = true ∧ (s.core i).lasting = false) →
        ∃ t m, exec .nodeSuspend s = .next t ∧ t.node? n.key = some m ∧ m.state = .suspended ∧ m.images.length = n.cores.length ∧
          m.cores = [] ∧ ∀ i ∈ n.cores, (t.core i).node = none ∧ (t.core i).stopping = false) ∧
      ((∃ i ∈ n.cores, (s.core i).saved = false) → exec .nodeSuspend s = .next s)) ∧
    (c.node = some n.key → s.node? n.key = some n → c.stopping = false → exec .collectorStop s = .next s) ∧
    (c.node = some n.key → s.node? n.key = some n → c.stopping = true → (∃ i ∈ n.begun, faulted (s.core i) = true) →
      ∃ t m, exec .collectorStop s = .next t ∧ (∀ i ∈ n.cores, (t.core i).stopping = false ∧ (t.core i).saved = false) ∧
        t.node? n.key = some m ∧ m.begun = [] ∧ m.acked = [] ∧ m.state = n.state) ∧
    (c.node = some n.key → s.node? n.key = some n → (∀ i ∈ n.begun, faulted (s.core i) = false) →
      (c.stopping = true → core ∉ n.begun → c.issue = .running → ∃ t m, exec .collectorStop s = .next t ∧
        (t.core core).issue = .frozen ∧ (t.core core).engStopped = true ∧ t.node? n.key = some m ∧ m.begun = n.begun ++ [core]) ∧
      (c.stopping = true → core ∉ n.begun → c.issue ≠ .running → n.begun = [] → ∃ t, exec .collectorStop s = .next t ∧
        ∀ i ∈ n.cores, (t.core i).stopping = false ∧ (t.core i).saved = false) ∧
      (c.stopping = true → core ∈ n.begun → core ∉ n.acked →
        (classesStopped s core = false → exec .collectorStop s = .next s) ∧
        (classesStopped s core = true → ∃ t m, exec .collectorStop s = .next t ∧ t.cores = s.cores ∧ t.mem = s.mem ∧
          t.node? n.key = some m ∧ m.acked = n.acked ++ [core])) ∧
      (c.stopping = true → core ∈ n.begun → core ∈ n.acked → c.saved = true ∨ (∃ i ∈ n.cores, i ∉ n.acked ∨ classesStopped s i = false) →
        exec .collectorStop s = .next s) ∧
      (c.stopping = true → core ∈ n.begun → core ∈ n.acked → c.saved = false →
        (∀ i ∈ n.cores, i ∈ n.acked ∧ classesStopped s i = true) →
        ∃ t, exec .collectorStop s = .next t ∧ (t.core core).saved = true ∧ (n.area = none → t.mem = s.mem) ∧
          (∀ x a, n.area = some x → a < x.1 + c.rank.toNat * 503808 ∨ x.1 + (c.rank.toNat + 1) * 503808 ≤ a →
            Memory.read t.mem a = Memory.read s.mem a)))

/-! ### The whole machine -/

/-- R38, R44, R46, R61, R93, R108, R157: what reset leaves: nothing runs, no partition, node or ring stands, every register of a
context is 0, links are down, channels have not failed, and every memory is in its canonical form. The values are the spec's
where it gives one, and else the model's choice (logs 2 to 4). -/
def Obligations.ResetState : Prop :=
  State.reset.clock = 0 ∧ State.reset.mem = [] ∧ State.reset.nodes = [] ∧ (∀ p, (State.reset.part p).present = false) ∧
  (∀ core k, k < 11 → (State.reset.ctx core k).status = .free ∧ (State.reset.ctx core k).pc = 0 ∧
    (State.reset.ctx core k).fpflags = 0 ∧ ∀ r, (State.reset.ctx core k).gpr r = 0) ∧
  (∀ core, (State.reset.core core).issue = .running ∧ (State.reset.core core).accs = [] ∧ (State.reset.core core).tagDone = 0 ∧
    (State.reset.core core).tagErr = 0 ∧ (State.reset.core core).tagBusy = 0) ∧
  (∀ vf r, (State.reset.cmd vf r).enable = false ∧ (State.reset.vf vf).cp.enable = false ∧ ((State.reset.vf vf).ring r).enable = false) ∧
  (∀ p, (vget State.reset.ports p Port.reset).linkUp = false) ∧
  (∀ ch, (State.reset.chan ch).failed = false ∧ (State.reset.chan ch).latestSeq = 0xffffffff ∧ (State.reset.chan ch).grant = none) ∧
  MemoryOk State.reset = true ∧ CoreMemoryOk State.reset = true

/-- A step whose move is an issue runs the instruction that the bytes at the PC decode to, and, where that takes the cycle's
issue slot, only in the turn of its context (R161), and on a core of a throttled partition in one cycle of four (R91); a follower runs the instruction at the head of its buffer (R167); a word that
does not decode faults ILLEGAL; a step whose move is an event runs that event with its input (one that would freeze a core for a cause of its
engines waits where an instruction of the core faults in the same cycle, R268), and the clock goes on only by a tick, not
while a core that has not used the cycle has a ready context.
Which move comes next is the model's free schedule, and which cycles those are its choice (logs 1, 70). -/
def Obligations.StepRunsDecoded : Prop :=
  ∀ (s : State) (r : List Move),
    let s' := { s with schedule := r }
    let becomes := fun (core k : Nat) (u : State) =>
      step s = .next (if tookSlot s' u core k = true then (if myTurn s' core k = true then noteIssue u core k else s') else u)
    (∀ core k i w n, s.schedule = .issue core k :: r →
      let c := s'.core core
      let pc := issuePc c k
      mayIssue s' core k = true → fetchGated c k = false → coreAwake s' core = true → pc.toNat % 2 = 0 → pc.toNat ≤ 65536 →
      ibpHit c k pc = false → slotOpen s' core = true → streamHead c k = none → fetchDecode c pc.toNat = .ok (i, w, n) → regsReady c k i = true →
      (c.fstate = 1 → k = 0 → followersFull s' core = false) → heldAtIssue s' core k i = false →
      ∀ t, exec i (issuing s' core k w) = .next t →
        becomes core k (afterIssue t core k (decide (k = 0 ∧ c.fstate = 1)) none pc i w)) ∧
    (∀ core e, s.schedule = .issue core 0 :: r →
      let c := s'.core core
      let pc := issuePc c 0
      mayIssue s' core 0 = true → coreAwake s' core = true → pc.toNat % 2 = 0 → pc.toNat ≤ 65536 →
      ibpHit c 0 pc = false → slotOpen s' core = true → streamHead c 0 = some e → regsReady c 0 e.instr = true → c.fstate = 2 → heldAtIssue s' core 0 e.instr = false →
      ∀ t, exec e.instr (issuing s' core 0 e.word) = .next t → becomes core 0 (afterIssue t core 0 false (some e) e.pc e.instr e.word)) ∧
    (∀ core k e, s.schedule = .issue core k :: r →
      let c := s'.core core
      let pc := issuePc c k
      mayIssue s' core k = true → fetchGated c k = false → coreAwake s' core = true → pc.toNat % 2 = 0 → pc.toNat ≤ 65536 →
      ibpHit c k pc = false → slotOpen s' core = true → streamHead c k = none → fetchDecode c pc.toNat = .error e →
        becomes core k (issueIllegal s' core k pc.toNat e)) ∧
    (∀ core k, s.schedule = .issue core k :: r → slotOpen s' core = false → step s = .next s') ∧
    (∀ n, s.schedule = .tick n :: r → step s = .next (passCycles s' n) ∧ (owesIssue s' = true → step s = .next s')) ∧
    (∀ i inp, s.schedule = .event i inp :: r → inp.wf = true →
      let u := { s' with input := inp }
      (∀ t, exec i u = .next t → step s = .next (if engineYields u t i = true then u else t)) ∧
      (∀ t, exec i u = .next t → (∀ core, (t.core core).issue = .frozen → (u.core core).issue = .frozen) → step s = .next t) ∧
      ((∀ t, exec i u ≠ .next t) → step s = exec i u))

/-- R288, R295, R296: a few words, written out from the encoding tables, and what they decode to. -/
def Obligations.DecodeWords : Prop :=
  decodeTableWord 32 (1 + 2 * 0x00 + 2 ^ 7 * 1 + 2 ^ 12 * 2 + 2 ^ 17 * 3 + 2 ^ 22 * 1) = some (.sub 1 2 3) ∧
  decodeTableWord 32 (1 + 2 * 0x01 + 2 ^ 7 * 4 + 2 ^ 12 * 5 + 2 ^ 17 * 0x7fff) = some (.addi 4 5 (-1)) ∧
  decodeTableWord 32 (1 + 2 * 0x06 + 2 ^ 7 * 9 + 2 ^ 12 * 0x12345) = some (.lui 9 0x12345) ∧
  decodeTableWord 32 (1 + 2 * 0x0a + 2 ^ 7 * 3 + 2 ^ 12 * 2 + 2 ^ 17 * 0x7ffc) = some (.blt 2 3 (-4)) ∧
  decodeTableWord 32 (1 + 2 * 0x10 + 2 ^ 7 * 4 + 2 ^ 12 * 5 + 2 ^ 17 * (2 ^ 5 * 0x3ff + 3)) = some (.ld 4 5 (-1) 0 3) ∧
  decodeTableWord 32 (1 + 2 * 0x1d + 2 ^ 7 * 5 + 2 ^ 22 * (2 ^ 7 * 3 + 6)) = some (.sstep 5 3) ∧
  decodeTableWord 32 (1 + 2 * 0x16) = none ∧
  decodeTableWord 16 (2 * 3 + 2 ^ 5 * 7 + 2 ^ 9 * 9) = some (.addC 7 9) ∧
  decodeTableWord 16 (2 * 9 + 2 ^ 5 * 7 + 2 ^ 9 * 5 + 2 ^ 12 * 9) = some (.ldDC 7 9 5) ∧
  decodeTableWord 16 0 = none

/-- R288 to R296: a well-formed instruction's bytes, whatever follows them, decode to it with every operand; and bytes that
decode give a well-formed instruction whose word they are. -/
def Obligations.EncodeDecode : Prop :=
  (∀ (i : Instr) (n w : Nat), i.wf = true → encode i = some (n, w) →
    ∀ r, decodeBytes ((layWord w).take n ++ r) = .ok (i, BitVec.ofNat 32 w, n)) ∧
  (∀ bs i w n, decodeBytes bs = .ok (i, w, n) → i.wf = true ∧ encode i = some (n, w.toNat))

/-- The machine goes on from every state: an exception is taken, not stopped at, and no instruction is refused. The one stop is
the issue move of a LIVE context whose PC (of a follower's c0, that at the head of its buffer) stands outside IM or is odd, where the spec
gives no fetch.
That this one case is a stop is the model's choice (log 10). -/
def Obligations.StepGoesOn : Prop :=
  ∀ s : State, (∃ t, step s = .next t) ∨
    ∃ core k, s.schedule.headD (chooseMove s) = .issue core k ∧ ((s.core core).context k).status = .live ∧
      let pc := issuePc (s.core core) k
      step s = .fault (.pcOutsideIm pc) ∧ (pc.toNat % 2 = 1 ∨ 65536 < pc.toNat)

/-- R210, R212: an instruction changes no byte of memory, no holding copy, no path and no poisoned line when it issues, but for `hsig`,
which may hand its token to the host; its accesses do so when they are performed. Nor does one change a byte of any core's LM or IM where no
core has a promise area (the records of promises are written into it, R253). Said where no partition records a trace. -/
def Obligations.FrameAtIssue : Prop :=
  ∀ (s t : State) (i : Instr), encode i ≠ none → (∀ ring ra rb, i ≠ .hsig ring ra rb) → (∀ p, (s.part p).trctl = 0) →
    exec i s = .next t → (∀ a, Memory.read t.mem a = Memory.read s.mem a) ∧ t.dies = s.dies ∧ t.paths = s.paths ∧ t.poison = s.poison ∧
      ((∀ j, (s.core j).pbase = 0) → ∀ j, (t.core j).lm = (s.core j).lm ∧ (t.core j).im = (s.core j).im)

/-- The memory's canonical form is an invariant of every step.
The canonical form and the 0 of an unlisted byte are the model's choice (log 3). -/
def Obligations.MemoryStaysCanonical : Prop :=
  ∀ (s t : State), Memory.wf s.mem = true → step s = .next t → Memory.wf t.mem = true

/-- The memories of every core, and those of every core image that stands saved, keep their canonical form in every step, and every
poisoned line lies at a multiple of 128 (R208).
The canonical form and the 0 of an unlisted byte are the model's choice (log 3). -/
def Obligations.CoreMemoryStaysCanonical : Prop :=
  ∀ (s t : State), CoreMemoryOk s = true → step s = .next t → CoreMemoryOk t = true
end

