-- ==== Sys2Proof/Laws/Memory.lean ====
section
/-! SUPPORT. Laws of memory: every write keeps the canonical form, a read after a write gives what was written, and a write
leaves every other byte alone. -/
namespace Sys2Proof.Machine

theorem Memory.wf_cons (a : Nat) (b : Byte) (r : Bytes) :
    Memory.wf ((a, b) :: r) = true ↔ b ≠ 0 ∧ (∀ c ∈ r, a < c.1) ∧ Memory.wf r = true := by
  simp [Memory.wf, and_assoc]

/-- Keys of a memory with a byte put into it: the address of the byte, or one listed before. -/
theorem Memory.mem_put (m : Bytes) (a : Nat) (b : Byte) : ∀ c ∈ Memory.put m a b, c.1 = a ∨ c ∈ m := by
  induction m with
  | nil => simp [Memory.put]
  | cons e r ih =>
    obtain ⟨a', b'⟩ := e
    intro c hc
    unfold Memory.put at hc
    split at hc
    · simp at hc; rcases hc with h | h <;> simp_all
    · split at hc
      · rcases List.mem_cons.1 hc with h | h <;> simp_all
      · rcases List.mem_cons.1 hc with h | h
        · simp [h]
        · rcases ih c h with h' | h' <;> simp [h']

theorem Memory.wf_put (m : Bytes) (a : Nat) (b : Byte) (hb : b ≠ 0) (h : Memory.wf m = true) :
    Memory.wf (Memory.put m a b) = true := by
  induction m with
  | nil => simpa [Memory.put, Memory.wf] using hb
  | cons e r ih =>
    obtain ⟨a', b'⟩ := e
    obtain ⟨h1, h2, h3⟩ := (Memory.wf_cons a' b' r).1 h
    unfold Memory.put
    split
    · rename_i hlt
      refine (Memory.wf_cons a b _).2 ⟨hb, ?_, h⟩
      intro c hc
      rcases List.mem_cons.1 hc with hc | hc
      · simp [hc, hlt]
      · exact Nat.lt_trans hlt (h2 c hc)
    · split
      · rename_i _ he
        subst he
        exact (Memory.wf_cons a b r).2 ⟨hb, h2, h3⟩
      · rename_i hn hne
        refine (Memory.wf_cons a' b' _).2 ⟨h1, ?_, ih h3⟩
        intro c hc
        rcases Memory.mem_put r a b c hc with hk | hk
        · omega
        · exact h2 c hk

theorem Memory.wf_filter (m : Bytes) (p : Nat × Byte → Bool) (h : Memory.wf m = true) : Memory.wf (m.filter p) = true := by
  induction m with
  | nil => rfl
  | cons e r ih =>
    obtain ⟨h1, h2, h3⟩ := (Memory.wf_cons e.1 e.2 r).1 h
    rw [List.filter_cons]
    split
    · exact (Memory.wf_cons e.1 e.2 _).2 ⟨h1, fun c hc => h2 c (List.mem_of_mem_filter hc), ih h3⟩
    · exact ih h3

/-- A write of one byte keeps the canonical form. -/
theorem Memory.wf_write (m : Bytes) (a : Nat) (b : Byte) (h : Memory.wf m = true) : Memory.wf (Memory.write m a b) = true := by
  unfold Memory.write
  split
  · exact Memory.wf_filter _ _ h
  · exact Memory.wf_put _ _ _ ‹_› h

theorem Memory.wf_writes (m : Bytes) (a : Nat) (bs : List Byte) (h : Memory.wf m = true) : Memory.wf (Memory.writes m a bs) = true := by
  induction bs generalizing m a with
  | nil => exact h
  | cons b r ih => exact ih _ _ (Memory.wf_write m a b h)

theorem Memory.read_put_same (m : Bytes) (a : Nat) (b : Byte) : Memory.read (Memory.put m a b) a = b := by
  induction m with
  | nil => simp [Memory.put, Memory.read]
  | cons e r ih =>
    obtain ⟨a', b'⟩ := e
    unfold Memory.put
    split
    · simp [Memory.read]
    · split
      · simp [Memory.read]
      · simp [Memory.read, Ne.symm ‹a ≠ a'›, ih]

theorem Memory.read_put_ne (m : Bytes) {a c : Nat} (b : Byte) (h : c ≠ a) : Memory.read (Memory.put m a b) c = Memory.read m c := by
  induction m with
  | nil => simp [Memory.put, Memory.read, Ne.symm h]
  | cons e r ih =>
    obtain ⟨a', b'⟩ := e
    unfold Memory.put
    split
    · simp [Memory.read, Ne.symm h]
    · split
      · rename_i he
        subst he
        simp [Memory.read, Ne.symm h]
      · simp only [Memory.read, ih]

theorem Memory.read_filter_same (m : Bytes) (a : Nat) : Memory.read (m.filter (fun c => c.1 != a)) a = 0 := by
  induction m with
  | nil => rfl
  | cons e r ih =>
    rw [List.filter_cons]
    split
    · rename_i hne
      have : e.1 ≠ a := by simpa using hne
      simp [Memory.read, this, ih]
    · exact ih

theorem Memory.read_filter_ne (m : Bytes) {a c : Nat} (h : c ≠ a) :
    Memory.read (m.filter (fun e => e.1 != a)) c = Memory.read m c := by
  induction m with
  | nil => rfl
  | cons e r ih =>
    obtain ⟨a', b'⟩ := e
    rw [List.filter_cons]
    split
    · simp [Memory.read, ih]
    · rename_i hne
      have : a' = a := by simpa using hne
      simp [Memory.read, this, Ne.symm h, ih]

/-- The byte just written is read back. -/
theorem Memory.read_write_same (m : Bytes) (a : Nat) (b : Byte) : Memory.read (Memory.write m a b) a = b := by
  unfold Memory.write
  split
  · rw [Memory.read_filter_same, ‹b = 0›]
  · exact Memory.read_put_same _ _ _

/-- A write leaves every other byte alone. -/
theorem Memory.read_write_ne (m : Bytes) {a c : Nat} (b : Byte) (h : c ≠ a) : Memory.read (Memory.write m a b) c = Memory.read m c := by
  unfold Memory.write
  split
  · exact Memory.read_filter_ne _ h
  · exact Memory.read_put_ne _ _ h

/-- A write of several bytes leaves every byte outside them alone. -/
theorem Memory.read_writes_out (m : Bytes) (a : Nat) (bs : List Byte) {c : Nat} (h : c < a ∨ a + bs.length ≤ c) :
    Memory.read (Memory.writes m a bs) c = Memory.read m c := by
  induction bs generalizing m a with
  | nil => rfl
  | cons b r ih =>
    simp at h
    rw [Memory.writes, ih _ _ (by omega), Memory.read_write_ne _ _ (by omega)]

/-- Each byte written is read back. -/
theorem Memory.read_writes_in (m : Bytes) (a : Nat) (bs : List Byte) {i : Nat} (hi : i < bs.length) :
    Memory.read (Memory.writes m a bs) (a + i) = bs[i] := by
  induction bs generalizing m a i with
  | nil => simp at hi
  | cons b r ih =>
    rw [Memory.writes]
    cases i with
    | zero =>
      rw [Memory.read_writes_out _ _ _ (by omega), Nat.add_zero, Memory.read_write_same]
      rfl
    | succ j =>
      have hj : j < r.length := by simpa using hi
      have := ih (Memory.write m a b) (a + 1) hj
      rw [show a + (j + 1) = a + 1 + j by omega]
      simpa using this

/-- What is written is read back as one number (R1). -/
theorem Memory.reads_writes (m : Bytes) (a : Nat) (bs : List Byte) :
    Memory.reads (Memory.writes m a bs) a bs.length = bs := by
  apply List.ext_getElem
  · simp [Memory.reads]
  · intro i h1 h2
    simp only [Memory.reads, List.getElem_map, List.getElem_range]
    exact Memory.read_writes_in m a bs h2

theorem natBytes_length (n v : Nat) : (natBytes n v).length = n := by
  induction n generalizing v with
  | zero => rfl
  | succ n ih => simp [natBytes, ih]

/-- The little-endian bytes of a number give it back (R1). -/
theorem leNat_natBytes (n v : Nat) : leNat (natBytes n v) = v % 256 ^ n := by
  induction n generalizing v with
  | zero => simp [natBytes, leNat, Nat.mod_one]
  | succ n ih =>
    simp only [natBytes, leNat, ih]
    rw [Nat.pow_succ, Nat.mul_comm (256 ^ n) 256, Nat.mod_mul]
    simp

/-! ### A long run of bytes at once -/

/-- The keys of a run of bytes lie in the run, and its form is canonical. -/
theorem bytesAt_keys (a : Nat) (bs : List Byte) : ∀ c ∈ bytesAt a bs, a ≤ c.1 ∧ c.1 < a + bs.length := by
  induction bs generalizing a with
  | nil => simp [bytesAt]
  | cons b r ih =>
    intro c hc
    have k : ∀ x ∈ bytesAt (a + 1) r, a ≤ x.1 ∧ x.1 < a + (b :: r).length := fun x hx => by
      have := ih (a + 1) x hx
      simp only [List.length_cons]
      omega
    unfold bytesAt at hc
    split at hc
    · exact k c hc
    · rcases List.mem_cons.1 hc with h | h
      · subst h
        simp
      · exact k c h

theorem bytesAt_wf (a : Nat) (bs : List Byte) : Memory.wf (bytesAt a bs) = true := by
  induction bs generalizing a with
  | nil => rfl
  | cons b r ih =>
    unfold bytesAt
    split
    · exact ih _
    · exact (Memory.wf_cons a b _).2 ⟨‹_›, fun c hc => (bytesAt_keys _ _ c hc).1, ih _⟩

/-- Two canonical memories, the keys of the first all below those of the second. -/
theorem Memory.wf_append (m k : Bytes) (hm : Memory.wf m = true) (hk : Memory.wf k = true) (h : ∀ c ∈ m, ∀ d ∈ k, c.1 < d.1) :
    Memory.wf (m ++ k) = true := by
  induction m with
  | nil => exact hk
  | cons e r ih =>
    obtain ⟨h1, h2, h3⟩ := (Memory.wf_cons e.1 e.2 r).1 hm
    refine (Memory.wf_cons e.1 e.2 (r ++ k)).2 ⟨h1, fun c hc => ?_, ih h3 (fun c hc => h c (List.mem_cons_of_mem _ hc))⟩
    rcases List.mem_append.1 hc with g | g
    · exact h2 c g
    · exact h e (List.mem_cons_self ..) c g

theorem Memory.wf_paste (m : Bytes) (a : Nat) (bs : List Byte) (h : Memory.wf m = true) : Memory.wf (Memory.paste m a bs) = true := by
  refine Memory.wf_append _ _ (Memory.wf_filter _ _ h) (Memory.wf_append _ _ (bytesAt_wf _ _) (Memory.wf_filter _ _ h) ?_) ?_
  · intro c hc d hd
    have := bytesAt_keys a bs c hc
    have := List.of_mem_filter hd
    simp at this
    omega
  · intro c hc d hd
    have hc := List.of_mem_filter hc
    simp at hc
    rcases List.mem_append.1 hd with g | g
    · have := bytesAt_keys a bs d g
      omega
    · have := List.of_mem_filter g
      simp at this
      omega

end Sys2Proof.Machine
end

