-- ==== Sys2Proof/Laws/Tables.lean ====
section
/-! SUPPORT. Laws of tables and vectors: what is read after a write. -/
namespace Sys2Proof.Machine

theorem tfind_tput_same {α : Type} (t : Table α) (k : Nat) (a : α) : tfind (tput t k a) k = some a := by
  induction t with
  | nil => simp [tput, tfind]
  | cons e r ih =>
    obtain ⟨k', a'⟩ := e
    simp only [tput]
    split
    · simp [tfind]
    · split
      · simp [tfind]
      · rename_i h1 h2
        simp [tfind, Ne.symm h2, ih]

theorem tfind_tput_ne {α : Type} (t : Table α) {k j : Nat} (a : α) (h : j ≠ k) : tfind (tput t k a) j = tfind t j := by
  induction t with
  | nil => simp [tput, tfind, Ne.symm h]
  | cons e r ih =>
    obtain ⟨k', a'⟩ := e
    simp only [tput]
    split
    · simp [tfind, Ne.symm h]
    · split
      · rename_i h1 h2
        subst h2
        simp [tfind, Ne.symm h]
      · simp only [tfind, ih]

@[simp] theorem tget_tput_same {α : Type} (t : Table α) (k : Nat) (a d : α) : tget (tput t k a) k d = a := by
  simp [tget, tfind_tput_same]

theorem tget_tput_ne {α : Type} (t : Table α) {k j : Nat} (a d : α) (h : j ≠ k) : tget (tput t k a) j d = tget t j d := by
  simp [tget, tfind_tput_ne t a h]

/-- The second of two writes under one key stands. -/
@[simp] theorem tput_tput {α : Type} (t : Table α) (k : Nat) (a b : α) : tput (tput t k a) k b = tput t k b := by
  induction t with
  | nil => simp [tput]
  | cons e r ih =>
    obtain ⟨k', a'⟩ := e
    by_cases h1 : k < k'
    · simp [tput, h1]
    · by_cases h2 : k = k'
      · simp [tput, h2]
      · simp [tput, h1, h2, ih]

@[simp] theorem tget_tmod_same {α : Type} (t : Table α) (k : Nat) (d : α) (f : α → α) : tget (tmod t k d f) k d = f (tget t k d) := by
  simp [tmod]

theorem tget_tmod_ne {α : Type} (t : Table α) {k j : Nat} (d : α) (f : α → α) (h : j ≠ k) :
    tget (tmod t k d f) j d = tget t j d := by
  simp [tmod, tget_tput_ne _ _ _ h]

theorem vget_vset_same {α : Type} {n : Nat} (v : Vector α n) {i : Nat} (a d : α) (h : i < n) : vget (vset v i a) i d = a := by
  simp [vget, vset, Vector.getD, h]

theorem vget_vset_ne {α : Type} {n : Nat} (v : Vector α n) {i j : Nat} (a d : α) (h : j ≠ i) :
    vget (vset v i a) j d = vget v j d := by
  by_cases hj : j < n
  · simpa [vget, vset, Vector.getD, hj] using Array.getElem_setIfInBounds_ne (xs := v.toArray) (by simpa using hj) (Ne.symm h)
  · simp [vget, vset, Vector.getD, hj]

/-- A write outside the vector changes nothing. -/
theorem vset_out {α : Type} {n : Nat} (v : Vector α n) {i : Nat} (a : α) (h : n ≤ i) : vset v i a = v := by
  simp [vset, Vector.setIfInBounds_eq_of_size_le h]

@[simp] theorem vset_vset {α : Type} {n : Nat} (v : Vector α n) (i : Nat) (a b : α) : vset (vset v i a) i b = vset v i b := by
  simp [vset]

theorem vget_vmod_same {α : Type} {n : Nat} (v : Vector α n) {i : Nat} (d : α) (f : α → α) (h : i < n) :
    vget (vmod v i d f) i d = f (vget v i d) := by
  simp [vmod, vget_vset_same _ _ _ h]

theorem vget_vmod_ne {α : Type} {n : Nat} (v : Vector α n) {i j : Nat} (d : α) (f : α → α) (h : j ≠ i) :
    vget (vmod v i d f) j d = vget v j d := by
  simp [vmod, vget_vset_ne _ _ _ h]

end Sys2Proof.Machine
end

