-- ==== Sys2Proof/Laws/State.lean ====
section
/-! SUPPORT. What each update of State leaves unchanged, one lemma per field, and what is read back after it. -/
namespace Sys2Proof.Machine

/-! ### `setCore` -/

@[simp] theorem State.setCore_clock (s : State) (i : Nat) (c : Core) : (s.setCore i c).clock = s.clock := rfl
@[simp] theorem State.setCore_cur (s : State) (i : Nat) (c : Core) : (s.setCore i c).cur = s.cur := rfl
@[simp] theorem State.setCore_word (s : State) (i : Nat) (c : Core) : (s.setCore i c).word = s.word := rfl
@[simp] theorem State.setCore_input (s : State) (i : Nat) (c : Core) : (s.setCore i c).input = s.input := rfl
@[simp] theorem State.setCore_schedule (s : State) (i : Nat) (c : Core) : (s.setCore i c).schedule = s.schedule := rfl
@[simp] theorem State.setCore_fresh (s : State) (i : Nat) (c : Core) : (s.setCore i c).fresh = s.fresh := rfl
@[simp] theorem State.setCore_nextKey (s : State) (i : Nat) (c : Core) : (s.setCore i c).nextKey = s.nextKey := rfl
@[simp] theorem State.setCore_clusters (s : State) (i : Nat) (c : Core) : (s.setCore i c).clusters = s.clusters := rfl
@[simp] theorem State.setCore_steps (s : State) (i : Nat) (c : Core) : (s.setCore i c).steps = s.steps := rfl
@[simp] theorem State.setCore_dies (s : State) (i : Nat) (c : Core) : (s.setCore i c).dies = s.dies := rfl
@[simp] theorem State.setCore_baseDies (s : State) (i : Nat) (c : Core) : (s.setCore i c).baseDies = s.baseDies := rfl
@[simp] theorem State.setCore_waits (s : State) (i : Nat) (c : Core) : (s.setCore i c).waits = s.waits := rfl
@[simp] theorem State.setCore_paths (s : State) (i : Nat) (c : Core) : (s.setCore i c).paths = s.paths := rfl
@[simp] theorem State.setCore_mem (s : State) (i : Nat) (c : Core) : (s.setCore i c).mem = s.mem := rfl
@[simp] theorem State.setCore_poison (s : State) (i : Nat) (c : Core) : (s.setCore i c).poison = s.poison := rfl
@[simp] theorem State.setCore_errCounts (s : State) (i : Nat) (c : Core) : (s.setCore i c).errCounts = s.errCounts := rfl
@[simp] theorem State.setCore_badFrames (s : State) (i : Nat) (c : Core) : (s.setCore i c).badFrames = s.badFrames := rfl
@[simp] theorem State.setCore_parts (s : State) (i : Nat) (c : Core) : (s.setCore i c).parts = s.parts := rfl
@[simp] theorem State.setCore_unmaps (s : State) (i : Nat) (c : Core) : (s.setCore i c).unmaps = s.unmaps := rfl
@[simp] theorem State.setCore_awakePcs (s : State) (i : Nat) (c : Core) : (s.setCore i c).awakePcs = s.awakePcs := rfl
@[simp] theorem State.setCore_nodes (s : State) (i : Nat) (c : Core) : (s.setCore i c).nodes = s.nodes := rfl
@[simp] theorem State.setCore_lastTaken (s : State) (i : Nat) (c : Core) : (s.setCore i c).lastTaken = s.lastTaken := rfl
@[simp] theorem State.setCore_lastServed (s : State) (i : Nat) (c : Core) : (s.setCore i c).lastServed = s.lastServed := rfl
@[simp] theorem State.setCore_vfs (s : State) (i : Nat) (c : Core) : (s.setCore i c).vfs = s.vfs := rfl
@[simp] theorem State.setCore_ports (s : State) (i : Nat) (c : Core) : (s.setCore i c).ports = s.ports := rfl
@[simp] theorem State.setCore_pkgId (s : State) (i : Nat) (c : Core) : (s.setCore i c).pkgId = s.pkgId := rfl
@[simp] theorem State.setCore_routes (s : State) (i : Nat) (c : Core) : (s.setCore i c).routes = s.routes := rfl
@[simp] theorem State.setCore_fabric (s : State) (i : Nat) (c : Core) : (s.setCore i c).fabric = s.fabric := rfl
@[simp] theorem State.setCore_groups (s : State) (i : Nat) (c : Core) : (s.setCore i c).groups = s.groups := rfl
@[simp] theorem State.setCore_colls (s : State) (i : Nat) (c : Core) : (s.setCore i c).colls = s.colls := rfl
@[simp] theorem State.setCore_staged (s : State) (i : Nat) (c : Core) : (s.setCore i c).staged = s.staged := rfl
@[simp] theorem State.setCore_kills (s : State) (i : Nat) (c : Core) : (s.setCore i c).kills = s.kills := rfl
@[simp] theorem State.setCore_mail (s : State) (i : Nat) (c : Core) : (s.setCore i c).mail = s.mail := rfl
@[simp] theorem State.setCore_supMail (s : State) (i : Nat) (c : Core) : (s.setCore i c).supMail = s.supMail := rfl
@[simp] theorem State.setCore_lastMail (s : State) (i : Nat) (c : Core) : (s.setCore i c).lastMail = s.lastMail := rfl
@[simp] theorem State.setCore_claims (s : State) (i : Nat) (c : Core) : (s.setCore i c).claims = s.claims := rfl
@[simp] theorem State.setCore_selects (s : State) (i : Nat) (c : Core) : (s.setCore i c).selects = s.selects := rfl
@[simp] theorem State.setCore_flr (s : State) (i : Nat) (c : Core) : (s.setCore i c).flr = s.flr := rfl
@[simp] theorem State.setCore_chanFails (s : State) (i : Nat) (c : Core) : (s.setCore i c).chanFails = s.chanFails := rfl
@[simp] theorem State.setCore_fwQ (s : State) (i : Nat) (c : Core) : (s.setCore i c).fwQ = s.fwQ := rfl
@[simp] theorem State.setCore_boot (s : State) (i : Nat) (c : Core) : (s.setCore i c).boot = s.boot := rfl
@[simp] theorem State.setCore_carrier (s : State) (i : Nat) (c : Core) : (s.setCore i c).carrier = s.carrier := rfl
@[simp] theorem State.setCore_channels (s : State) (i : Nat) (c : Core) : (s.setCore i c).channels = s.channels := rfl
@[simp] theorem State.setCore_held (s : State) (i : Nat) (c : Core) : (s.setCore i c).held = s.held := rfl

/-! ### `modCore` -/

@[simp] theorem State.modCore_clock (s : State) (i : Nat) (f : Core → Core) : (s.modCore i f).clock = s.clock := rfl
@[simp] theorem State.modCore_cur (s : State) (i : Nat) (f : Core → Core) : (s.modCore i f).cur = s.cur := rfl
@[simp] theorem State.modCore_word (s : State) (i : Nat) (f : Core → Core) : (s.modCore i f).word = s.word := rfl
@[simp] theorem State.modCore_input (s : State) (i : Nat) (f : Core → Core) : (s.modCore i f).input = s.input := rfl
@[simp] theorem State.modCore_schedule (s : State) (i : Nat) (f : Core → Core) : (s.modCore i f).schedule = s.schedule := rfl
@[simp] theorem State.modCore_fresh (s : State) (i : Nat) (f : Core → Core) : (s.modCore i f).fresh = s.fresh := rfl
@[simp] theorem State.modCore_nextKey (s : State) (i : Nat) (f : Core → Core) : (s.modCore i f).nextKey = s.nextKey := rfl
@[simp] theorem State.modCore_clusters (s : State) (i : Nat) (f : Core → Core) : (s.modCore i f).clusters = s.clusters := rfl
@[simp] theorem State.modCore_steps (s : State) (i : Nat) (f : Core → Core) : (s.modCore i f).steps = s.steps := rfl
@[simp] theorem State.modCore_dies (s : State) (i : Nat) (f : Core → Core) : (s.modCore i f).dies = s.dies := rfl
@[simp] theorem State.modCore_baseDies (s : State) (i : Nat) (f : Core → Core) : (s.modCore i f).baseDies = s.baseDies := rfl
@[simp] theorem State.modCore_waits (s : State) (i : Nat) (f : Core → Core) : (s.modCore i f).waits = s.waits := rfl
@[simp] theorem State.modCore_paths (s : State) (i : Nat) (f : Core → Core) : (s.modCore i f).paths = s.paths := rfl
@[simp] theorem State.modCore_mem (s : State) (i : Nat) (f : Core → Core) : (s.modCore i f).mem = s.mem := rfl
@[simp] theorem State.modCore_poison (s : State) (i : Nat) (f : Core → Core) : (s.modCore i f).poison = s.poison := rfl
@[simp] theorem State.modCore_errCounts (s : State) (i : Nat) (f : Core → Core) : (s.modCore i f).errCounts = s.errCounts := rfl
@[simp] theorem State.modCore_badFrames (s : State) (i : Nat) (f : Core → Core) : (s.modCore i f).badFrames = s.badFrames := rfl
@[simp] theorem State.modCore_parts (s : State) (i : Nat) (f : Core → Core) : (s.modCore i f).parts = s.parts := rfl
@[simp] theorem State.modCore_unmaps (s : State) (i : Nat) (f : Core → Core) : (s.modCore i f).unmaps = s.unmaps := rfl
@[simp] theorem State.modCore_awakePcs (s : State) (i : Nat) (f : Core → Core) : (s.modCore i f).awakePcs = s.awakePcs := rfl
@[simp] theorem State.modCore_nodes (s : State) (i : Nat) (f : Core → Core) : (s.modCore i f).nodes = s.nodes := rfl
@[simp] theorem State.modCore_lastTaken (s : State) (i : Nat) (f : Core → Core) : (s.modCore i f).lastTaken = s.lastTaken := rfl
@[simp] theorem State.modCore_lastServed (s : State) (i : Nat) (f : Core → Core) : (s.modCore i f).lastServed = s.lastServed := rfl
@[simp] theorem State.modCore_vfs (s : State) (i : Nat) (f : Core → Core) : (s.modCore i f).vfs = s.vfs := rfl
@[simp] theorem State.modCore_ports (s : State) (i : Nat) (f : Core → Core) : (s.modCore i f).ports = s.ports := rfl
@[simp] theorem State.modCore_pkgId (s : State) (i : Nat) (f : Core → Core) : (s.modCore i f).pkgId = s.pkgId := rfl
@[simp] theorem State.modCore_routes (s : State) (i : Nat) (f : Core → Core) : (s.modCore i f).routes = s.routes := rfl
@[simp] theorem State.modCore_fabric (s : State) (i : Nat) (f : Core → Core) : (s.modCore i f).fabric = s.fabric := rfl
@[simp] theorem State.modCore_groups (s : State) (i : Nat) (f : Core → Core) : (s.modCore i f).groups = s.groups := rfl
@[simp] theorem State.modCore_colls (s : State) (i : Nat) (f : Core → Core) : (s.modCore i f).colls = s.colls := rfl
@[simp] theorem State.modCore_staged (s : State) (i : Nat) (f : Core → Core) : (s.modCore i f).staged = s.staged := rfl
@[simp] theorem State.modCore_kills (s : State) (i : Nat) (f : Core → Core) : (s.modCore i f).kills = s.kills := rfl
@[simp] theorem State.modCore_mail (s : State) (i : Nat) (f : Core → Core) : (s.modCore i f).mail = s.mail := rfl
@[simp] theorem State.modCore_supMail (s : State) (i : Nat) (f : Core → Core) : (s.modCore i f).supMail = s.supMail := rfl
@[simp] theorem State.modCore_lastMail (s : State) (i : Nat) (f : Core → Core) : (s.modCore i f).lastMail = s.lastMail := rfl
@[simp] theorem State.modCore_claims (s : State) (i : Nat) (f : Core → Core) : (s.modCore i f).claims = s.claims := rfl
@[simp] theorem State.modCore_selects (s : State) (i : Nat) (f : Core → Core) : (s.modCore i f).selects = s.selects := rfl
@[simp] theorem State.modCore_flr (s : State) (i : Nat) (f : Core → Core) : (s.modCore i f).flr = s.flr := rfl
@[simp] theorem State.modCore_chanFails (s : State) (i : Nat) (f : Core → Core) : (s.modCore i f).chanFails = s.chanFails := rfl
@[simp] theorem State.modCore_fwQ (s : State) (i : Nat) (f : Core → Core) : (s.modCore i f).fwQ = s.fwQ := rfl
@[simp] theorem State.modCore_boot (s : State) (i : Nat) (f : Core → Core) : (s.modCore i f).boot = s.boot := rfl
@[simp] theorem State.modCore_carrier (s : State) (i : Nat) (f : Core → Core) : (s.modCore i f).carrier = s.carrier := rfl
@[simp] theorem State.modCore_channels (s : State) (i : Nat) (f : Core → Core) : (s.modCore i f).channels = s.channels := rfl
@[simp] theorem State.modCore_held (s : State) (i : Nat) (f : Core → Core) : (s.modCore i f).held = s.held := rfl

/-! ### `modCtx` -/

@[simp] theorem State.modCtx_clock (s : State) (i k : Nat) (f : Context → Context) : (s.modCtx i k f).clock = s.clock := rfl
@[simp] theorem State.modCtx_cur (s : State) (i k : Nat) (f : Context → Context) : (s.modCtx i k f).cur = s.cur := rfl
@[simp] theorem State.modCtx_word (s : State) (i k : Nat) (f : Context → Context) : (s.modCtx i k f).word = s.word := rfl
@[simp] theorem State.modCtx_input (s : State) (i k : Nat) (f : Context → Context) : (s.modCtx i k f).input = s.input := rfl
@[simp] theorem State.modCtx_schedule (s : State) (i k : Nat) (f : Context → Context) : (s.modCtx i k f).schedule = s.schedule := rfl
@[simp] theorem State.modCtx_fresh (s : State) (i k : Nat) (f : Context → Context) : (s.modCtx i k f).fresh = s.fresh := rfl
@[simp] theorem State.modCtx_nextKey (s : State) (i k : Nat) (f : Context → Context) : (s.modCtx i k f).nextKey = s.nextKey := rfl
@[simp] theorem State.modCtx_clusters (s : State) (i k : Nat) (f : Context → Context) : (s.modCtx i k f).clusters = s.clusters := rfl
@[simp] theorem State.modCtx_steps (s : State) (i k : Nat) (f : Context → Context) : (s.modCtx i k f).steps = s.steps := rfl
@[simp] theorem State.modCtx_dies (s : State) (i k : Nat) (f : Context → Context) : (s.modCtx i k f).dies = s.dies := rfl
@[simp] theorem State.modCtx_baseDies (s : State) (i k : Nat) (f : Context → Context) : (s.modCtx i k f).baseDies = s.baseDies := rfl
@[simp] theorem State.modCtx_waits (s : State) (i k : Nat) (f : Context → Context) : (s.modCtx i k f).waits = s.waits := rfl
@[simp] theorem State.modCtx_paths (s : State) (i k : Nat) (f : Context → Context) : (s.modCtx i k f).paths = s.paths := rfl
@[simp] theorem State.modCtx_mem (s : State) (i k : Nat) (f : Context → Context) : (s.modCtx i k f).mem = s.mem := rfl
@[simp] theorem State.modCtx_poison (s : State) (i k : Nat) (f : Context → Context) : (s.modCtx i k f).poison = s.poison := rfl
@[simp] theorem State.modCtx_errCounts (s : State) (i k : Nat) (f : Context → Context) : (s.modCtx i k f).errCounts = s.errCounts := rfl
@[simp] theorem State.modCtx_badFrames (s : State) (i k : Nat) (f : Context → Context) : (s.modCtx i k f).badFrames = s.badFrames := rfl
@[simp] theorem State.modCtx_parts (s : State) (i k : Nat) (f : Context → Context) : (s.modCtx i k f).parts = s.parts := rfl
@[simp] theorem State.modCtx_unmaps (s : State) (i k : Nat) (f : Context → Context) : (s.modCtx i k f).unmaps = s.unmaps := rfl
@[simp] theorem State.modCtx_awakePcs (s : State) (i k : Nat) (f : Context → Context) : (s.modCtx i k f).awakePcs = s.awakePcs := rfl
@[simp] theorem State.modCtx_nodes (s : State) (i k : Nat) (f : Context → Context) : (s.modCtx i k f).nodes = s.nodes := rfl
@[simp] theorem State.modCtx_lastTaken (s : State) (i k : Nat) (f : Context → Context) : (s.modCtx i k f).lastTaken = s.lastTaken := rfl
@[simp] theorem State.modCtx_lastServed (s : State) (i k : Nat) (f : Context → Context) : (s.modCtx i k f).lastServed = s.lastServed := rfl
@[simp] theorem State.modCtx_vfs (s : State) (i k : Nat) (f : Context → Context) : (s.modCtx i k f).vfs = s.vfs := rfl
@[simp] theorem State.modCtx_ports (s : State) (i k : Nat) (f : Context → Context) : (s.modCtx i k f).ports = s.ports := rfl
@[simp] theorem State.modCtx_pkgId (s : State) (i k : Nat) (f : Context → Context) : (s.modCtx i k f).pkgId = s.pkgId := rfl
@[simp] theorem State.modCtx_routes (s : State) (i k : Nat) (f : Context → Context) : (s.modCtx i k f).routes = s.routes := rfl
@[simp] theorem State.modCtx_fabric (s : State) (i k : Nat) (f : Context → Context) : (s.modCtx i k f).fabric = s.fabric := rfl
@[simp] theorem State.modCtx_groups (s : State) (i k : Nat) (f : Context → Context) : (s.modCtx i k f).groups = s.groups := rfl
@[simp] theorem State.modCtx_colls (s : State) (i k : Nat) (f : Context → Context) : (s.modCtx i k f).colls = s.colls := rfl
@[simp] theorem State.modCtx_staged (s : State) (i k : Nat) (f : Context → Context) : (s.modCtx i k f).staged = s.staged := rfl
@[simp] theorem State.modCtx_kills (s : State) (i k : Nat) (f : Context → Context) : (s.modCtx i k f).kills = s.kills := rfl
@[simp] theorem State.modCtx_mail (s : State) (i k : Nat) (f : Context → Context) : (s.modCtx i k f).mail = s.mail := rfl
@[simp] theorem State.modCtx_supMail (s : State) (i k : Nat) (f : Context → Context) : (s.modCtx i k f).supMail = s.supMail := rfl
@[simp] theorem State.modCtx_lastMail (s : State) (i k : Nat) (f : Context → Context) : (s.modCtx i k f).lastMail = s.lastMail := rfl
@[simp] theorem State.modCtx_claims (s : State) (i k : Nat) (f : Context → Context) : (s.modCtx i k f).claims = s.claims := rfl
@[simp] theorem State.modCtx_selects (s : State) (i k : Nat) (f : Context → Context) : (s.modCtx i k f).selects = s.selects := rfl
@[simp] theorem State.modCtx_flr (s : State) (i k : Nat) (f : Context → Context) : (s.modCtx i k f).flr = s.flr := rfl
@[simp] theorem State.modCtx_chanFails (s : State) (i k : Nat) (f : Context → Context) : (s.modCtx i k f).chanFails = s.chanFails := rfl
@[simp] theorem State.modCtx_fwQ (s : State) (i k : Nat) (f : Context → Context) : (s.modCtx i k f).fwQ = s.fwQ := rfl
@[simp] theorem State.modCtx_boot (s : State) (i k : Nat) (f : Context → Context) : (s.modCtx i k f).boot = s.boot := rfl
@[simp] theorem State.modCtx_carrier (s : State) (i k : Nat) (f : Context → Context) : (s.modCtx i k f).carrier = s.carrier := rfl
@[simp] theorem State.modCtx_channels (s : State) (i k : Nat) (f : Context → Context) : (s.modCtx i k f).channels = s.channels := rfl
@[simp] theorem State.modCtx_held (s : State) (i k : Nat) (f : Context → Context) : (s.modCtx i k f).held = s.held := rfl

/-! ### `modMe` -/

@[simp] theorem State.modMe_clock (s : State) (f : Core → Core) : (s.modMe f).clock = s.clock := rfl
@[simp] theorem State.modMe_cur (s : State) (f : Core → Core) : (s.modMe f).cur = s.cur := rfl
@[simp] theorem State.modMe_word (s : State) (f : Core → Core) : (s.modMe f).word = s.word := rfl
@[simp] theorem State.modMe_input (s : State) (f : Core → Core) : (s.modMe f).input = s.input := rfl
@[simp] theorem State.modMe_schedule (s : State) (f : Core → Core) : (s.modMe f).schedule = s.schedule := rfl
@[simp] theorem State.modMe_fresh (s : State) (f : Core → Core) : (s.modMe f).fresh = s.fresh := rfl
@[simp] theorem State.modMe_nextKey (s : State) (f : Core → Core) : (s.modMe f).nextKey = s.nextKey := rfl
@[simp] theorem State.modMe_clusters (s : State) (f : Core → Core) : (s.modMe f).clusters = s.clusters := rfl
@[simp] theorem State.modMe_steps (s : State) (f : Core → Core) : (s.modMe f).steps = s.steps := rfl
@[simp] theorem State.modMe_dies (s : State) (f : Core → Core) : (s.modMe f).dies = s.dies := rfl
@[simp] theorem State.modMe_baseDies (s : State) (f : Core → Core) : (s.modMe f).baseDies = s.baseDies := rfl
@[simp] theorem State.modMe_waits (s : State) (f : Core → Core) : (s.modMe f).waits = s.waits := rfl
@[simp] theorem State.modMe_paths (s : State) (f : Core → Core) : (s.modMe f).paths = s.paths := rfl
@[simp] theorem State.modMe_mem (s : State) (f : Core → Core) : (s.modMe f).mem = s.mem := rfl
@[simp] theorem State.modMe_poison (s : State) (f : Core → Core) : (s.modMe f).poison = s.poison := rfl
@[simp] theorem State.modMe_errCounts (s : State) (f : Core → Core) : (s.modMe f).errCounts = s.errCounts := rfl
@[simp] theorem State.modMe_badFrames (s : State) (f : Core → Core) : (s.modMe f).badFrames = s.badFrames := rfl
@[simp] theorem State.modMe_parts (s : State) (f : Core → Core) : (s.modMe f).parts = s.parts := rfl
@[simp] theorem State.modMe_unmaps (s : State) (f : Core → Core) : (s.modMe f).unmaps = s.unmaps := rfl
@[simp] theorem State.modMe_awakePcs (s : State) (f : Core → Core) : (s.modMe f).awakePcs = s.awakePcs := rfl
@[simp] theorem State.modMe_nodes (s : State) (f : Core → Core) : (s.modMe f).nodes = s.nodes := rfl
@[simp] theorem State.modMe_lastTaken (s : State) (f : Core → Core) : (s.modMe f).lastTaken = s.lastTaken := rfl
@[simp] theorem State.modMe_lastServed (s : State) (f : Core → Core) : (s.modMe f).lastServed = s.lastServed := rfl
@[simp] theorem State.modMe_vfs (s : State) (f : Core → Core) : (s.modMe f).vfs = s.vfs := rfl
@[simp] theorem State.modMe_ports (s : State) (f : Core → Core) : (s.modMe f).ports = s.ports := rfl
@[simp] theorem State.modMe_pkgId (s : State) (f : Core → Core) : (s.modMe f).pkgId = s.pkgId := rfl
@[simp] theorem State.modMe_routes (s : State) (f : Core → Core) : (s.modMe f).routes = s.routes := rfl
@[simp] theorem State.modMe_fabric (s : State) (f : Core → Core) : (s.modMe f).fabric = s.fabric := rfl
@[simp] theorem State.modMe_groups (s : State) (f : Core → Core) : (s.modMe f).groups = s.groups := rfl
@[simp] theorem State.modMe_colls (s : State) (f : Core → Core) : (s.modMe f).colls = s.colls := rfl
@[simp] theorem State.modMe_staged (s : State) (f : Core → Core) : (s.modMe f).staged = s.staged := rfl
@[simp] theorem State.modMe_kills (s : State) (f : Core → Core) : (s.modMe f).kills = s.kills := rfl
@[simp] theorem State.modMe_mail (s : State) (f : Core → Core) : (s.modMe f).mail = s.mail := rfl
@[simp] theorem State.modMe_supMail (s : State) (f : Core → Core) : (s.modMe f).supMail = s.supMail := rfl
@[simp] theorem State.modMe_lastMail (s : State) (f : Core → Core) : (s.modMe f).lastMail = s.lastMail := rfl
@[simp] theorem State.modMe_claims (s : State) (f : Core → Core) : (s.modMe f).claims = s.claims := rfl
@[simp] theorem State.modMe_selects (s : State) (f : Core → Core) : (s.modMe f).selects = s.selects := rfl
@[simp] theorem State.modMe_flr (s : State) (f : Core → Core) : (s.modMe f).flr = s.flr := rfl
@[simp] theorem State.modMe_chanFails (s : State) (f : Core → Core) : (s.modMe f).chanFails = s.chanFails := rfl
@[simp] theorem State.modMe_fwQ (s : State) (f : Core → Core) : (s.modMe f).fwQ = s.fwQ := rfl
@[simp] theorem State.modMe_boot (s : State) (f : Core → Core) : (s.modMe f).boot = s.boot := rfl
@[simp] theorem State.modMe_carrier (s : State) (f : Core → Core) : (s.modMe f).carrier = s.carrier := rfl
@[simp] theorem State.modMe_channels (s : State) (f : Core → Core) : (s.modMe f).channels = s.channels := rfl
@[simp] theorem State.modMe_held (s : State) (f : Core → Core) : (s.modMe f).held = s.held := rfl

/-! ### `modHere` -/

@[simp] theorem State.modHere_clock (s : State) (f : Context → Context) : (s.modHere f).clock = s.clock := rfl
@[simp] theorem State.modHere_cur (s : State) (f : Context → Context) : (s.modHere f).cur = s.cur := rfl
@[simp] theorem State.modHere_word (s : State) (f : Context → Context) : (s.modHere f).word = s.word := rfl
@[simp] theorem State.modHere_input (s : State) (f : Context → Context) : (s.modHere f).input = s.input := rfl
@[simp] theorem State.modHere_schedule (s : State) (f : Context → Context) : (s.modHere f).schedule = s.schedule := rfl
@[simp] theorem State.modHere_fresh (s : State) (f : Context → Context) : (s.modHere f).fresh = s.fresh := rfl
@[simp] theorem State.modHere_nextKey (s : State) (f : Context → Context) : (s.modHere f).nextKey = s.nextKey := rfl
@[simp] theorem State.modHere_clusters (s : State) (f : Context → Context) : (s.modHere f).clusters = s.clusters := rfl
@[simp] theorem State.modHere_steps (s : State) (f : Context → Context) : (s.modHere f).steps = s.steps := rfl
@[simp] theorem State.modHere_dies (s : State) (f : Context → Context) : (s.modHere f).dies = s.dies := rfl
@[simp] theorem State.modHere_baseDies (s : State) (f : Context → Context) : (s.modHere f).baseDies = s.baseDies := rfl
@[simp] theorem State.modHere_waits (s : State) (f : Context → Context) : (s.modHere f).waits = s.waits := rfl
@[simp] theorem State.modHere_paths (s : State) (f : Context → Context) : (s.modHere f).paths = s.paths := rfl
@[simp] theorem State.modHere_mem (s : State) (f : Context → Context) : (s.modHere f).mem = s.mem := rfl
@[simp] theorem State.modHere_poison (s : State) (f : Context → Context) : (s.modHere f).poison = s.poison := rfl
@[simp] theorem State.modHere_errCounts (s : State) (f : Context → Context) : (s.modHere f).errCounts = s.errCounts := rfl
@[simp] theorem State.modHere_badFrames (s : State) (f : Context → Context) : (s.modHere f).badFrames = s.badFrames := rfl
@[simp] theorem State.modHere_parts (s : State) (f : Context → Context) : (s.modHere f).parts = s.parts := rfl
@[simp] theorem State.modHere_unmaps (s : State) (f : Context → Context) : (s.modHere f).unmaps = s.unmaps := rfl
@[simp] theorem State.modHere_awakePcs (s : State) (f : Context → Context) : (s.modHere f).awakePcs = s.awakePcs := rfl
@[simp] theorem State.modHere_nodes (s : State) (f : Context → Context) : (s.modHere f).nodes = s.nodes := rfl
@[simp] theorem State.modHere_lastTaken (s : State) (f : Context → Context) : (s.modHere f).lastTaken = s.lastTaken := rfl
@[simp] theorem State.modHere_lastServed (s : State) (f : Context → Context) : (s.modHere f).lastServed = s.lastServed := rfl
@[simp] theorem State.modHere_vfs (s : State) (f : Context → Context) : (s.modHere f).vfs = s.vfs := rfl
@[simp] theorem State.modHere_ports (s : State) (f : Context → Context) : (s.modHere f).ports = s.ports := rfl
@[simp] theorem State.modHere_pkgId (s : State) (f : Context → Context) : (s.modHere f).pkgId = s.pkgId := rfl
@[simp] theorem State.modHere_routes (s : State) (f : Context → Context) : (s.modHere f).routes = s.routes := rfl
@[simp] theorem State.modHere_fabric (s : State) (f : Context → Context) : (s.modHere f).fabric = s.fabric := rfl
@[simp] theorem State.modHere_groups (s : State) (f : Context → Context) : (s.modHere f).groups = s.groups := rfl
@[simp] theorem State.modHere_colls (s : State) (f : Context → Context) : (s.modHere f).colls = s.colls := rfl
@[simp] theorem State.modHere_staged (s : State) (f : Context → Context) : (s.modHere f).staged = s.staged := rfl
@[simp] theorem State.modHere_kills (s : State) (f : Context → Context) : (s.modHere f).kills = s.kills := rfl
@[simp] theorem State.modHere_mail (s : State) (f : Context → Context) : (s.modHere f).mail = s.mail := rfl
@[simp] theorem State.modHere_supMail (s : State) (f : Context → Context) : (s.modHere f).supMail = s.supMail := rfl
@[simp] theorem State.modHere_lastMail (s : State) (f : Context → Context) : (s.modHere f).lastMail = s.lastMail := rfl
@[simp] theorem State.modHere_claims (s : State) (f : Context → Context) : (s.modHere f).claims = s.claims := rfl
@[simp] theorem State.modHere_selects (s : State) (f : Context → Context) : (s.modHere f).selects = s.selects := rfl
@[simp] theorem State.modHere_flr (s : State) (f : Context → Context) : (s.modHere f).flr = s.flr := rfl
@[simp] theorem State.modHere_chanFails (s : State) (f : Context → Context) : (s.modHere f).chanFails = s.chanFails := rfl
@[simp] theorem State.modHere_fwQ (s : State) (f : Context → Context) : (s.modHere f).fwQ = s.fwQ := rfl
@[simp] theorem State.modHere_boot (s : State) (f : Context → Context) : (s.modHere f).boot = s.boot := rfl
@[simp] theorem State.modHere_carrier (s : State) (f : Context → Context) : (s.modHere f).carrier = s.carrier := rfl
@[simp] theorem State.modHere_channels (s : State) (f : Context → Context) : (s.modHere f).channels = s.channels := rfl
@[simp] theorem State.modHere_held (s : State) (f : Context → Context) : (s.modHere f).held = s.held := rfl

/-! ### `setGpr` -/

@[simp] theorem State.setGpr_clock (s : State) (r : Reg) (v : DWord) : (s.setGpr r v).clock = s.clock := rfl
@[simp] theorem State.setGpr_cur (s : State) (r : Reg) (v : DWord) : (s.setGpr r v).cur = s.cur := rfl
@[simp] theorem State.setGpr_word (s : State) (r : Reg) (v : DWord) : (s.setGpr r v).word = s.word := rfl
@[simp] theorem State.setGpr_input (s : State) (r : Reg) (v : DWord) : (s.setGpr r v).input = s.input := rfl
@[simp] theorem State.setGpr_schedule (s : State) (r : Reg) (v : DWord) : (s.setGpr r v).schedule = s.schedule := rfl
@[simp] theorem State.setGpr_fresh (s : State) (r : Reg) (v : DWord) : (s.setGpr r v).fresh = s.fresh := rfl
@[simp] theorem State.setGpr_nextKey (s : State) (r : Reg) (v : DWord) : (s.setGpr r v).nextKey = s.nextKey := rfl
@[simp] theorem State.setGpr_clusters (s : State) (r : Reg) (v : DWord) : (s.setGpr r v).clusters = s.clusters := rfl
@[simp] theorem State.setGpr_steps (s : State) (r : Reg) (v : DWord) : (s.setGpr r v).steps = s.steps := rfl
@[simp] theorem State.setGpr_dies (s : State) (r : Reg) (v : DWord) : (s.setGpr r v).dies = s.dies := rfl
@[simp] theorem State.setGpr_baseDies (s : State) (r : Reg) (v : DWord) : (s.setGpr r v).baseDies = s.baseDies := rfl
@[simp] theorem State.setGpr_waits (s : State) (r : Reg) (v : DWord) : (s.setGpr r v).waits = s.waits := rfl
@[simp] theorem State.setGpr_paths (s : State) (r : Reg) (v : DWord) : (s.setGpr r v).paths = s.paths := rfl
@[simp] theorem State.setGpr_mem (s : State) (r : Reg) (v : DWord) : (s.setGpr r v).mem = s.mem := rfl
@[simp] theorem State.setGpr_poison (s : State) (r : Reg) (v : DWord) : (s.setGpr r v).poison = s.poison := rfl
@[simp] theorem State.setGpr_errCounts (s : State) (r : Reg) (v : DWord) : (s.setGpr r v).errCounts = s.errCounts := rfl
@[simp] theorem State.setGpr_badFrames (s : State) (r : Reg) (v : DWord) : (s.setGpr r v).badFrames = s.badFrames := rfl
@[simp] theorem State.setGpr_parts (s : State) (r : Reg) (v : DWord) : (s.setGpr r v).parts = s.parts := rfl
@[simp] theorem State.setGpr_unmaps (s : State) (r : Reg) (v : DWord) : (s.setGpr r v).unmaps = s.unmaps := rfl
@[simp] theorem State.setGpr_awakePcs (s : State) (r : Reg) (v : DWord) : (s.setGpr r v).awakePcs = s.awakePcs := rfl
@[simp] theorem State.setGpr_nodes (s : State) (r : Reg) (v : DWord) : (s.setGpr r v).nodes = s.nodes := rfl
@[simp] theorem State.setGpr_lastTaken (s : State) (r : Reg) (v : DWord) : (s.setGpr r v).lastTaken = s.lastTaken := rfl
@[simp] theorem State.setGpr_lastServed (s : State) (r : Reg) (v : DWord) : (s.setGpr r v).lastServed = s.lastServed := rfl
@[simp] theorem State.setGpr_vfs (s : State) (r : Reg) (v : DWord) : (s.setGpr r v).vfs = s.vfs := rfl
@[simp] theorem State.setGpr_ports (s : State) (r : Reg) (v : DWord) : (s.setGpr r v).ports = s.ports := rfl
@[simp] theorem State.setGpr_pkgId (s : State) (r : Reg) (v : DWord) : (s.setGpr r v).pkgId = s.pkgId := rfl
@[simp] theorem State.setGpr_routes (s : State) (r : Reg) (v : DWord) : (s.setGpr r v).routes = s.routes := rfl
@[simp] theorem State.setGpr_fabric (s : State) (r : Reg) (v : DWord) : (s.setGpr r v).fabric = s.fabric := rfl
@[simp] theorem State.setGpr_groups (s : State) (r : Reg) (v : DWord) : (s.setGpr r v).groups = s.groups := rfl
@[simp] theorem State.setGpr_colls (s : State) (r : Reg) (v : DWord) : (s.setGpr r v).colls = s.colls := rfl
@[simp] theorem State.setGpr_staged (s : State) (r : Reg) (v : DWord) : (s.setGpr r v).staged = s.staged := rfl
@[simp] theorem State.setGpr_kills (s : State) (r : Reg) (v : DWord) : (s.setGpr r v).kills = s.kills := rfl
@[simp] theorem State.setGpr_mail (s : State) (r : Reg) (v : DWord) : (s.setGpr r v).mail = s.mail := rfl
@[simp] theorem State.setGpr_supMail (s : State) (r : Reg) (v : DWord) : (s.setGpr r v).supMail = s.supMail := rfl
@[simp] theorem State.setGpr_lastMail (s : State) (r : Reg) (v : DWord) : (s.setGpr r v).lastMail = s.lastMail := rfl
@[simp] theorem State.setGpr_claims (s : State) (r : Reg) (v : DWord) : (s.setGpr r v).claims = s.claims := rfl
@[simp] theorem State.setGpr_selects (s : State) (r : Reg) (v : DWord) : (s.setGpr r v).selects = s.selects := rfl
@[simp] theorem State.setGpr_flr (s : State) (r : Reg) (v : DWord) : (s.setGpr r v).flr = s.flr := rfl
@[simp] theorem State.setGpr_chanFails (s : State) (r : Reg) (v : DWord) : (s.setGpr r v).chanFails = s.chanFails := rfl
@[simp] theorem State.setGpr_fwQ (s : State) (r : Reg) (v : DWord) : (s.setGpr r v).fwQ = s.fwQ := rfl
@[simp] theorem State.setGpr_boot (s : State) (r : Reg) (v : DWord) : (s.setGpr r v).boot = s.boot := rfl
@[simp] theorem State.setGpr_carrier (s : State) (r : Reg) (v : DWord) : (s.setGpr r v).carrier = s.carrier := rfl
@[simp] theorem State.setGpr_channels (s : State) (r : Reg) (v : DWord) : (s.setGpr r v).channels = s.channels := rfl
@[simp] theorem State.setGpr_held (s : State) (r : Reg) (v : DWord) : (s.setGpr r v).held = s.held := rfl

/-! ### `setXr` -/

@[simp] theorem State.setXr_clock (s : State) (r : Nat) (v : DWord) : (s.setXr r v).clock = s.clock := rfl
@[simp] theorem State.setXr_cur (s : State) (r : Nat) (v : DWord) : (s.setXr r v).cur = s.cur := rfl
@[simp] theorem State.setXr_word (s : State) (r : Nat) (v : DWord) : (s.setXr r v).word = s.word := rfl
@[simp] theorem State.setXr_input (s : State) (r : Nat) (v : DWord) : (s.setXr r v).input = s.input := rfl
@[simp] theorem State.setXr_schedule (s : State) (r : Nat) (v : DWord) : (s.setXr r v).schedule = s.schedule := rfl
@[simp] theorem State.setXr_fresh (s : State) (r : Nat) (v : DWord) : (s.setXr r v).fresh = s.fresh := rfl
@[simp] theorem State.setXr_nextKey (s : State) (r : Nat) (v : DWord) : (s.setXr r v).nextKey = s.nextKey := rfl
@[simp] theorem State.setXr_clusters (s : State) (r : Nat) (v : DWord) : (s.setXr r v).clusters = s.clusters := rfl
@[simp] theorem State.setXr_steps (s : State) (r : Nat) (v : DWord) : (s.setXr r v).steps = s.steps := rfl
@[simp] theorem State.setXr_dies (s : State) (r : Nat) (v : DWord) : (s.setXr r v).dies = s.dies := rfl
@[simp] theorem State.setXr_baseDies (s : State) (r : Nat) (v : DWord) : (s.setXr r v).baseDies = s.baseDies := rfl
@[simp] theorem State.setXr_waits (s : State) (r : Nat) (v : DWord) : (s.setXr r v).waits = s.waits := rfl
@[simp] theorem State.setXr_paths (s : State) (r : Nat) (v : DWord) : (s.setXr r v).paths = s.paths := rfl
@[simp] theorem State.setXr_mem (s : State) (r : Nat) (v : DWord) : (s.setXr r v).mem = s.mem := rfl
@[simp] theorem State.setXr_poison (s : State) (r : Nat) (v : DWord) : (s.setXr r v).poison = s.poison := rfl
@[simp] theorem State.setXr_errCounts (s : State) (r : Nat) (v : DWord) : (s.setXr r v).errCounts = s.errCounts := rfl
@[simp] theorem State.setXr_badFrames (s : State) (r : Nat) (v : DWord) : (s.setXr r v).badFrames = s.badFrames := rfl
@[simp] theorem State.setXr_parts (s : State) (r : Nat) (v : DWord) : (s.setXr r v).parts = s.parts := rfl
@[simp] theorem State.setXr_unmaps (s : State) (r : Nat) (v : DWord) : (s.setXr r v).unmaps = s.unmaps := rfl
@[simp] theorem State.setXr_awakePcs (s : State) (r : Nat) (v : DWord) : (s.setXr r v).awakePcs = s.awakePcs := rfl
@[simp] theorem State.setXr_nodes (s : State) (r : Nat) (v : DWord) : (s.setXr r v).nodes = s.nodes := rfl
@[simp] theorem State.setXr_lastTaken (s : State) (r : Nat) (v : DWord) : (s.setXr r v).lastTaken = s.lastTaken := rfl
@[simp] theorem State.setXr_lastServed (s : State) (r : Nat) (v : DWord) : (s.setXr r v).lastServed = s.lastServed := rfl
@[simp] theorem State.setXr_vfs (s : State) (r : Nat) (v : DWord) : (s.setXr r v).vfs = s.vfs := rfl
@[simp] theorem State.setXr_ports (s : State) (r : Nat) (v : DWord) : (s.setXr r v).ports = s.ports := rfl
@[simp] theorem State.setXr_pkgId (s : State) (r : Nat) (v : DWord) : (s.setXr r v).pkgId = s.pkgId := rfl
@[simp] theorem State.setXr_routes (s : State) (r : Nat) (v : DWord) : (s.setXr r v).routes = s.routes := rfl
@[simp] theorem State.setXr_fabric (s : State) (r : Nat) (v : DWord) : (s.setXr r v).fabric = s.fabric := rfl
@[simp] theorem State.setXr_groups (s : State) (r : Nat) (v : DWord) : (s.setXr r v).groups = s.groups := rfl
@[simp] theorem State.setXr_colls (s : State) (r : Nat) (v : DWord) : (s.setXr r v).colls = s.colls := rfl
@[simp] theorem State.setXr_staged (s : State) (r : Nat) (v : DWord) : (s.setXr r v).staged = s.staged := rfl
@[simp] theorem State.setXr_kills (s : State) (r : Nat) (v : DWord) : (s.setXr r v).kills = s.kills := rfl
@[simp] theorem State.setXr_mail (s : State) (r : Nat) (v : DWord) : (s.setXr r v).mail = s.mail := rfl
@[simp] theorem State.setXr_supMail (s : State) (r : Nat) (v : DWord) : (s.setXr r v).supMail = s.supMail := rfl
@[simp] theorem State.setXr_lastMail (s : State) (r : Nat) (v : DWord) : (s.setXr r v).lastMail = s.lastMail := rfl
@[simp] theorem State.setXr_claims (s : State) (r : Nat) (v : DWord) : (s.setXr r v).claims = s.claims := rfl
@[simp] theorem State.setXr_selects (s : State) (r : Nat) (v : DWord) : (s.setXr r v).selects = s.selects := rfl
@[simp] theorem State.setXr_flr (s : State) (r : Nat) (v : DWord) : (s.setXr r v).flr = s.flr := rfl
@[simp] theorem State.setXr_chanFails (s : State) (r : Nat) (v : DWord) : (s.setXr r v).chanFails = s.chanFails := rfl
@[simp] theorem State.setXr_fwQ (s : State) (r : Nat) (v : DWord) : (s.setXr r v).fwQ = s.fwQ := rfl
@[simp] theorem State.setXr_boot (s : State) (r : Nat) (v : DWord) : (s.setXr r v).boot = s.boot := rfl
@[simp] theorem State.setXr_carrier (s : State) (r : Nat) (v : DWord) : (s.setXr r v).carrier = s.carrier := rfl
@[simp] theorem State.setXr_channels (s : State) (r : Nat) (v : DWord) : (s.setXr r v).channels = s.channels := rfl
@[simp] theorem State.setXr_held (s : State) (r : Nat) (v : DWord) : (s.setXr r v).held = s.held := rfl

/-! ### `setMr` -/

@[simp] theorem State.setMr_clock (s : State) (r : Nat) (v : DWord) : (s.setMr r v).clock = s.clock := rfl
@[simp] theorem State.setMr_cur (s : State) (r : Nat) (v : DWord) : (s.setMr r v).cur = s.cur := rfl
@[simp] theorem State.setMr_word (s : State) (r : Nat) (v : DWord) : (s.setMr r v).word = s.word := rfl
@[simp] theorem State.setMr_input (s : State) (r : Nat) (v : DWord) : (s.setMr r v).input = s.input := rfl
@[simp] theorem State.setMr_schedule (s : State) (r : Nat) (v : DWord) : (s.setMr r v).schedule = s.schedule := rfl
@[simp] theorem State.setMr_fresh (s : State) (r : Nat) (v : DWord) : (s.setMr r v).fresh = s.fresh := rfl
@[simp] theorem State.setMr_nextKey (s : State) (r : Nat) (v : DWord) : (s.setMr r v).nextKey = s.nextKey := rfl
@[simp] theorem State.setMr_clusters (s : State) (r : Nat) (v : DWord) : (s.setMr r v).clusters = s.clusters := rfl
@[simp] theorem State.setMr_steps (s : State) (r : Nat) (v : DWord) : (s.setMr r v).steps = s.steps := rfl
@[simp] theorem State.setMr_dies (s : State) (r : Nat) (v : DWord) : (s.setMr r v).dies = s.dies := rfl
@[simp] theorem State.setMr_baseDies (s : State) (r : Nat) (v : DWord) : (s.setMr r v).baseDies = s.baseDies := rfl
@[simp] theorem State.setMr_waits (s : State) (r : Nat) (v : DWord) : (s.setMr r v).waits = s.waits := rfl
@[simp] theorem State.setMr_paths (s : State) (r : Nat) (v : DWord) : (s.setMr r v).paths = s.paths := rfl
@[simp] theorem State.setMr_mem (s : State) (r : Nat) (v : DWord) : (s.setMr r v).mem = s.mem := rfl
@[simp] theorem State.setMr_poison (s : State) (r : Nat) (v : DWord) : (s.setMr r v).poison = s.poison := rfl
@[simp] theorem State.setMr_errCounts (s : State) (r : Nat) (v : DWord) : (s.setMr r v).errCounts = s.errCounts := rfl
@[simp] theorem State.setMr_badFrames (s : State) (r : Nat) (v : DWord) : (s.setMr r v).badFrames = s.badFrames := rfl
@[simp] theorem State.setMr_parts (s : State) (r : Nat) (v : DWord) : (s.setMr r v).parts = s.parts := rfl
@[simp] theorem State.setMr_unmaps (s : State) (r : Nat) (v : DWord) : (s.setMr r v).unmaps = s.unmaps := rfl
@[simp] theorem State.setMr_awakePcs (s : State) (r : Nat) (v : DWord) : (s.setMr r v).awakePcs = s.awakePcs := rfl
@[simp] theorem State.setMr_nodes (s : State) (r : Nat) (v : DWord) : (s.setMr r v).nodes = s.nodes := rfl
@[simp] theorem State.setMr_lastTaken (s : State) (r : Nat) (v : DWord) : (s.setMr r v).lastTaken = s.lastTaken := rfl
@[simp] theorem State.setMr_lastServed (s : State) (r : Nat) (v : DWord) : (s.setMr r v).lastServed = s.lastServed := rfl
@[simp] theorem State.setMr_vfs (s : State) (r : Nat) (v : DWord) : (s.setMr r v).vfs = s.vfs := rfl
@[simp] theorem State.setMr_ports (s : State) (r : Nat) (v : DWord) : (s.setMr r v).ports = s.ports := rfl
@[simp] theorem State.setMr_pkgId (s : State) (r : Nat) (v : DWord) : (s.setMr r v).pkgId = s.pkgId := rfl
@[simp] theorem State.setMr_routes (s : State) (r : Nat) (v : DWord) : (s.setMr r v).routes = s.routes := rfl
@[simp] theorem State.setMr_fabric (s : State) (r : Nat) (v : DWord) : (s.setMr r v).fabric = s.fabric := rfl
@[simp] theorem State.setMr_groups (s : State) (r : Nat) (v : DWord) : (s.setMr r v).groups = s.groups := rfl
@[simp] theorem State.setMr_colls (s : State) (r : Nat) (v : DWord) : (s.setMr r v).colls = s.colls := rfl
@[simp] theorem State.setMr_staged (s : State) (r : Nat) (v : DWord) : (s.setMr r v).staged = s.staged := rfl
@[simp] theorem State.setMr_kills (s : State) (r : Nat) (v : DWord) : (s.setMr r v).kills = s.kills := rfl
@[simp] theorem State.setMr_mail (s : State) (r : Nat) (v : DWord) : (s.setMr r v).mail = s.mail := rfl
@[simp] theorem State.setMr_supMail (s : State) (r : Nat) (v : DWord) : (s.setMr r v).supMail = s.supMail := rfl
@[simp] theorem State.setMr_lastMail (s : State) (r : Nat) (v : DWord) : (s.setMr r v).lastMail = s.lastMail := rfl
@[simp] theorem State.setMr_claims (s : State) (r : Nat) (v : DWord) : (s.setMr r v).claims = s.claims := rfl
@[simp] theorem State.setMr_selects (s : State) (r : Nat) (v : DWord) : (s.setMr r v).selects = s.selects := rfl
@[simp] theorem State.setMr_flr (s : State) (r : Nat) (v : DWord) : (s.setMr r v).flr = s.flr := rfl
@[simp] theorem State.setMr_chanFails (s : State) (r : Nat) (v : DWord) : (s.setMr r v).chanFails = s.chanFails := rfl
@[simp] theorem State.setMr_fwQ (s : State) (r : Nat) (v : DWord) : (s.setMr r v).fwQ = s.fwQ := rfl
@[simp] theorem State.setMr_boot (s : State) (r : Nat) (v : DWord) : (s.setMr r v).boot = s.boot := rfl
@[simp] theorem State.setMr_carrier (s : State) (r : Nat) (v : DWord) : (s.setMr r v).carrier = s.carrier := rfl
@[simp] theorem State.setMr_channels (s : State) (r : Nat) (v : DWord) : (s.setMr r v).channels = s.channels := rfl
@[simp] theorem State.setMr_held (s : State) (r : Nat) (v : DWord) : (s.setMr r v).held = s.held := rfl

/-! ### `modPart` -/

@[simp] theorem State.modPart_clock (s : State) (p : Nat) (f : Partition → Partition) : (s.modPart p f).clock = s.clock := rfl
@[simp] theorem State.modPart_cur (s : State) (p : Nat) (f : Partition → Partition) : (s.modPart p f).cur = s.cur := rfl
@[simp] theorem State.modPart_word (s : State) (p : Nat) (f : Partition → Partition) : (s.modPart p f).word = s.word := rfl
@[simp] theorem State.modPart_input (s : State) (p : Nat) (f : Partition → Partition) : (s.modPart p f).input = s.input := rfl
@[simp] theorem State.modPart_schedule (s : State) (p : Nat) (f : Partition → Partition) : (s.modPart p f).schedule = s.schedule := rfl
@[simp] theorem State.modPart_fresh (s : State) (p : Nat) (f : Partition → Partition) : (s.modPart p f).fresh = s.fresh := rfl
@[simp] theorem State.modPart_nextKey (s : State) (p : Nat) (f : Partition → Partition) : (s.modPart p f).nextKey = s.nextKey := rfl
@[simp] theorem State.modPart_cores (s : State) (p : Nat) (f : Partition → Partition) : (s.modPart p f).cores = s.cores := rfl
@[simp] theorem State.modPart_clusters (s : State) (p : Nat) (f : Partition → Partition) : (s.modPart p f).clusters = s.clusters := rfl
@[simp] theorem State.modPart_steps (s : State) (p : Nat) (f : Partition → Partition) : (s.modPart p f).steps = s.steps := rfl
@[simp] theorem State.modPart_dies (s : State) (p : Nat) (f : Partition → Partition) : (s.modPart p f).dies = s.dies := rfl
@[simp] theorem State.modPart_baseDies (s : State) (p : Nat) (f : Partition → Partition) : (s.modPart p f).baseDies = s.baseDies := rfl
@[simp] theorem State.modPart_waits (s : State) (p : Nat) (f : Partition → Partition) : (s.modPart p f).waits = s.waits := rfl
@[simp] theorem State.modPart_paths (s : State) (p : Nat) (f : Partition → Partition) : (s.modPart p f).paths = s.paths := rfl
@[simp] theorem State.modPart_mem (s : State) (p : Nat) (f : Partition → Partition) : (s.modPart p f).mem = s.mem := rfl
@[simp] theorem State.modPart_poison (s : State) (p : Nat) (f : Partition → Partition) : (s.modPart p f).poison = s.poison := rfl
@[simp] theorem State.modPart_errCounts (s : State) (p : Nat) (f : Partition → Partition) : (s.modPart p f).errCounts = s.errCounts := rfl
@[simp] theorem State.modPart_badFrames (s : State) (p : Nat) (f : Partition → Partition) : (s.modPart p f).badFrames = s.badFrames := rfl
@[simp] theorem State.modPart_unmaps (s : State) (p : Nat) (f : Partition → Partition) : (s.modPart p f).unmaps = s.unmaps := rfl
@[simp] theorem State.modPart_awakePcs (s : State) (p : Nat) (f : Partition → Partition) : (s.modPart p f).awakePcs = s.awakePcs := rfl
@[simp] theorem State.modPart_nodes (s : State) (p : Nat) (f : Partition → Partition) : (s.modPart p f).nodes = s.nodes := rfl
@[simp] theorem State.modPart_lastTaken (s : State) (p : Nat) (f : Partition → Partition) : (s.modPart p f).lastTaken = s.lastTaken := rfl
@[simp] theorem State.modPart_lastServed (s : State) (p : Nat) (f : Partition → Partition) : (s.modPart p f).lastServed = s.lastServed := rfl
@[simp] theorem State.modPart_vfs (s : State) (p : Nat) (f : Partition → Partition) : (s.modPart p f).vfs = s.vfs := rfl
@[simp] theorem State.modPart_ports (s : State) (p : Nat) (f : Partition → Partition) : (s.modPart p f).ports = s.ports := rfl
@[simp] theorem State.modPart_pkgId (s : State) (p : Nat) (f : Partition → Partition) : (s.modPart p f).pkgId = s.pkgId := rfl
@[simp] theorem State.modPart_routes (s : State) (p : Nat) (f : Partition → Partition) : (s.modPart p f).routes = s.routes := rfl
@[simp] theorem State.modPart_fabric (s : State) (p : Nat) (f : Partition → Partition) : (s.modPart p f).fabric = s.fabric := rfl
@[simp] theorem State.modPart_groups (s : State) (p : Nat) (f : Partition → Partition) : (s.modPart p f).groups = s.groups := rfl
@[simp] theorem State.modPart_colls (s : State) (p : Nat) (f : Partition → Partition) : (s.modPart p f).colls = s.colls := rfl
@[simp] theorem State.modPart_staged (s : State) (p : Nat) (f : Partition → Partition) : (s.modPart p f).staged = s.staged := rfl
@[simp] theorem State.modPart_kills (s : State) (p : Nat) (f : Partition → Partition) : (s.modPart p f).kills = s.kills := rfl
@[simp] theorem State.modPart_mail (s : State) (p : Nat) (f : Partition → Partition) : (s.modPart p f).mail = s.mail := rfl
@[simp] theorem State.modPart_supMail (s : State) (p : Nat) (f : Partition → Partition) : (s.modPart p f).supMail = s.supMail := rfl
@[simp] theorem State.modPart_lastMail (s : State) (p : Nat) (f : Partition → Partition) : (s.modPart p f).lastMail = s.lastMail := rfl
@[simp] theorem State.modPart_claims (s : State) (p : Nat) (f : Partition → Partition) : (s.modPart p f).claims = s.claims := rfl
@[simp] theorem State.modPart_selects (s : State) (p : Nat) (f : Partition → Partition) : (s.modPart p f).selects = s.selects := rfl
@[simp] theorem State.modPart_flr (s : State) (p : Nat) (f : Partition → Partition) : (s.modPart p f).flr = s.flr := rfl
@[simp] theorem State.modPart_chanFails (s : State) (p : Nat) (f : Partition → Partition) : (s.modPart p f).chanFails = s.chanFails := rfl
@[simp] theorem State.modPart_fwQ (s : State) (p : Nat) (f : Partition → Partition) : (s.modPart p f).fwQ = s.fwQ := rfl
@[simp] theorem State.modPart_boot (s : State) (p : Nat) (f : Partition → Partition) : (s.modPart p f).boot = s.boot := rfl
@[simp] theorem State.modPart_carrier (s : State) (p : Nat) (f : Partition → Partition) : (s.modPart p f).carrier = s.carrier := rfl
@[simp] theorem State.modPart_channels (s : State) (p : Nat) (f : Partition → Partition) : (s.modPart p f).channels = s.channels := rfl
@[simp] theorem State.modPart_held (s : State) (p : Nat) (f : Partition → Partition) : (s.modPart p f).held = s.held := rfl

/-! ### `modDie` -/

@[simp] theorem State.modDie_clock (s : State) (d : Nat) (f : Die → Die) : (s.modDie d f).clock = s.clock := rfl
@[simp] theorem State.modDie_cur (s : State) (d : Nat) (f : Die → Die) : (s.modDie d f).cur = s.cur := rfl
@[simp] theorem State.modDie_word (s : State) (d : Nat) (f : Die → Die) : (s.modDie d f).word = s.word := rfl
@[simp] theorem State.modDie_input (s : State) (d : Nat) (f : Die → Die) : (s.modDie d f).input = s.input := rfl
@[simp] theorem State.modDie_schedule (s : State) (d : Nat) (f : Die → Die) : (s.modDie d f).schedule = s.schedule := rfl
@[simp] theorem State.modDie_fresh (s : State) (d : Nat) (f : Die → Die) : (s.modDie d f).fresh = s.fresh := rfl
@[simp] theorem State.modDie_nextKey (s : State) (d : Nat) (f : Die → Die) : (s.modDie d f).nextKey = s.nextKey := rfl
@[simp] theorem State.modDie_cores (s : State) (d : Nat) (f : Die → Die) : (s.modDie d f).cores = s.cores := rfl
@[simp] theorem State.modDie_clusters (s : State) (d : Nat) (f : Die → Die) : (s.modDie d f).clusters = s.clusters := rfl
@[simp] theorem State.modDie_steps (s : State) (d : Nat) (f : Die → Die) : (s.modDie d f).steps = s.steps := rfl
@[simp] theorem State.modDie_baseDies (s : State) (d : Nat) (f : Die → Die) : (s.modDie d f).baseDies = s.baseDies := rfl
@[simp] theorem State.modDie_waits (s : State) (d : Nat) (f : Die → Die) : (s.modDie d f).waits = s.waits := rfl
@[simp] theorem State.modDie_paths (s : State) (d : Nat) (f : Die → Die) : (s.modDie d f).paths = s.paths := rfl
@[simp] theorem State.modDie_mem (s : State) (d : Nat) (f : Die → Die) : (s.modDie d f).mem = s.mem := rfl
@[simp] theorem State.modDie_poison (s : State) (d : Nat) (f : Die → Die) : (s.modDie d f).poison = s.poison := rfl
@[simp] theorem State.modDie_errCounts (s : State) (d : Nat) (f : Die → Die) : (s.modDie d f).errCounts = s.errCounts := rfl
@[simp] theorem State.modDie_badFrames (s : State) (d : Nat) (f : Die → Die) : (s.modDie d f).badFrames = s.badFrames := rfl
@[simp] theorem State.modDie_parts (s : State) (d : Nat) (f : Die → Die) : (s.modDie d f).parts = s.parts := rfl
@[simp] theorem State.modDie_unmaps (s : State) (d : Nat) (f : Die → Die) : (s.modDie d f).unmaps = s.unmaps := rfl
@[simp] theorem State.modDie_awakePcs (s : State) (d : Nat) (f : Die → Die) : (s.modDie d f).awakePcs = s.awakePcs := rfl
@[simp] theorem State.modDie_nodes (s : State) (d : Nat) (f : Die → Die) : (s.modDie d f).nodes = s.nodes := rfl
@[simp] theorem State.modDie_lastTaken (s : State) (d : Nat) (f : Die → Die) : (s.modDie d f).lastTaken = s.lastTaken := rfl
@[simp] theorem State.modDie_lastServed (s : State) (d : Nat) (f : Die → Die) : (s.modDie d f).lastServed = s.lastServed := rfl
@[simp] theorem State.modDie_vfs (s : State) (d : Nat) (f : Die → Die) : (s.modDie d f).vfs = s.vfs := rfl
@[simp] theorem State.modDie_ports (s : State) (d : Nat) (f : Die → Die) : (s.modDie d f).ports = s.ports := rfl
@[simp] theorem State.modDie_pkgId (s : State) (d : Nat) (f : Die → Die) : (s.modDie d f).pkgId = s.pkgId := rfl
@[simp] theorem State.modDie_routes (s : State) (d : Nat) (f : Die → Die) : (s.modDie d f).routes = s.routes := rfl
@[simp] theorem State.modDie_fabric (s : State) (d : Nat) (f : Die → Die) : (s.modDie d f).fabric = s.fabric := rfl
@[simp] theorem State.modDie_groups (s : State) (d : Nat) (f : Die → Die) : (s.modDie d f).groups = s.groups := rfl
@[simp] theorem State.modDie_colls (s : State) (d : Nat) (f : Die → Die) : (s.modDie d f).colls = s.colls := rfl
@[simp] theorem State.modDie_staged (s : State) (d : Nat) (f : Die → Die) : (s.modDie d f).staged = s.staged := rfl
@[simp] theorem State.modDie_kills (s : State) (d : Nat) (f : Die → Die) : (s.modDie d f).kills = s.kills := rfl
@[simp] theorem State.modDie_mail (s : State) (d : Nat) (f : Die → Die) : (s.modDie d f).mail = s.mail := rfl
@[simp] theorem State.modDie_supMail (s : State) (d : Nat) (f : Die → Die) : (s.modDie d f).supMail = s.supMail := rfl
@[simp] theorem State.modDie_lastMail (s : State) (d : Nat) (f : Die → Die) : (s.modDie d f).lastMail = s.lastMail := rfl
@[simp] theorem State.modDie_claims (s : State) (d : Nat) (f : Die → Die) : (s.modDie d f).claims = s.claims := rfl
@[simp] theorem State.modDie_selects (s : State) (d : Nat) (f : Die → Die) : (s.modDie d f).selects = s.selects := rfl
@[simp] theorem State.modDie_flr (s : State) (d : Nat) (f : Die → Die) : (s.modDie d f).flr = s.flr := rfl
@[simp] theorem State.modDie_chanFails (s : State) (d : Nat) (f : Die → Die) : (s.modDie d f).chanFails = s.chanFails := rfl
@[simp] theorem State.modDie_fwQ (s : State) (d : Nat) (f : Die → Die) : (s.modDie d f).fwQ = s.fwQ := rfl
@[simp] theorem State.modDie_boot (s : State) (d : Nat) (f : Die → Die) : (s.modDie d f).boot = s.boot := rfl
@[simp] theorem State.modDie_carrier (s : State) (d : Nat) (f : Die → Die) : (s.modDie d f).carrier = s.carrier := rfl
@[simp] theorem State.modDie_channels (s : State) (d : Nat) (f : Die → Die) : (s.modDie d f).channels = s.channels := rfl
@[simp] theorem State.modDie_held (s : State) (d : Nat) (f : Die → Die) : (s.modDie d f).held = s.held := rfl

/-! ### `modCluster` -/

@[simp] theorem State.modCluster_clock (s : State) (k : Nat) (f : Cluster → Cluster) : (s.modCluster k f).clock = s.clock := rfl
@[simp] theorem State.modCluster_cur (s : State) (k : Nat) (f : Cluster → Cluster) : (s.modCluster k f).cur = s.cur := rfl
@[simp] theorem State.modCluster_word (s : State) (k : Nat) (f : Cluster → Cluster) : (s.modCluster k f).word = s.word := rfl
@[simp] theorem State.modCluster_input (s : State) (k : Nat) (f : Cluster → Cluster) : (s.modCluster k f).input = s.input := rfl
@[simp] theorem State.modCluster_schedule (s : State) (k : Nat) (f : Cluster → Cluster) : (s.modCluster k f).schedule = s.schedule := rfl
@[simp] theorem State.modCluster_fresh (s : State) (k : Nat) (f : Cluster → Cluster) : (s.modCluster k f).fresh = s.fresh := rfl
@[simp] theorem State.modCluster_nextKey (s : State) (k : Nat) (f : Cluster → Cluster) : (s.modCluster k f).nextKey = s.nextKey := rfl
@[simp] theorem State.modCluster_cores (s : State) (k : Nat) (f : Cluster → Cluster) : (s.modCluster k f).cores = s.cores := rfl
@[simp] theorem State.modCluster_steps (s : State) (k : Nat) (f : Cluster → Cluster) : (s.modCluster k f).steps = s.steps := rfl
@[simp] theorem State.modCluster_dies (s : State) (k : Nat) (f : Cluster → Cluster) : (s.modCluster k f).dies = s.dies := rfl
@[simp] theorem State.modCluster_baseDies (s : State) (k : Nat) (f : Cluster → Cluster) : (s.modCluster k f).baseDies = s.baseDies := rfl
@[simp] theorem State.modCluster_waits (s : State) (k : Nat) (f : Cluster → Cluster) : (s.modCluster k f).waits = s.waits := rfl
@[simp] theorem State.modCluster_paths (s : State) (k : Nat) (f : Cluster → Cluster) : (s.modCluster k f).paths = s.paths := rfl
@[simp] theorem State.modCluster_mem (s : State) (k : Nat) (f : Cluster → Cluster) : (s.modCluster k f).mem = s.mem := rfl
@[simp] theorem State.modCluster_poison (s : State) (k : Nat) (f : Cluster → Cluster) : (s.modCluster k f).poison = s.poison := rfl
@[simp] theorem State.modCluster_errCounts (s : State) (k : Nat) (f : Cluster → Cluster) : (s.modCluster k f).errCounts = s.errCounts := rfl
@[simp] theorem State.modCluster_badFrames (s : State) (k : Nat) (f : Cluster → Cluster) : (s.modCluster k f).badFrames = s.badFrames := rfl
@[simp] theorem State.modCluster_parts (s : State) (k : Nat) (f : Cluster → Cluster) : (s.modCluster k f).parts = s.parts := rfl
@[simp] theorem State.modCluster_unmaps (s : State) (k : Nat) (f : Cluster → Cluster) : (s.modCluster k f).unmaps = s.unmaps := rfl
@[simp] theorem State.modCluster_awakePcs (s : State) (k : Nat) (f : Cluster → Cluster) : (s.modCluster k f).awakePcs = s.awakePcs := rfl
@[simp] theorem State.modCluster_nodes (s : State) (k : Nat) (f : Cluster → Cluster) : (s.modCluster k f).nodes = s.nodes := rfl
@[simp] theorem State.modCluster_lastTaken (s : State) (k : Nat) (f : Cluster → Cluster) : (s.modCluster k f).lastTaken = s.lastTaken := rfl
@[simp] theorem State.modCluster_lastServed (s : State) (k : Nat) (f : Cluster → Cluster) : (s.modCluster k f).lastServed = s.lastServed := rfl
@[simp] theorem State.modCluster_vfs (s : State) (k : Nat) (f : Cluster → Cluster) : (s.modCluster k f).vfs = s.vfs := rfl
@[simp] theorem State.modCluster_ports (s : State) (k : Nat) (f : Cluster → Cluster) : (s.modCluster k f).ports = s.ports := rfl
@[simp] theorem State.modCluster_pkgId (s : State) (k : Nat) (f : Cluster → Cluster) : (s.modCluster k f).pkgId = s.pkgId := rfl
@[simp] theorem State.modCluster_routes (s : State) (k : Nat) (f : Cluster → Cluster) : (s.modCluster k f).routes = s.routes := rfl
@[simp] theorem State.modCluster_fabric (s : State) (k : Nat) (f : Cluster → Cluster) : (s.modCluster k f).fabric = s.fabric := rfl
@[simp] theorem State.modCluster_groups (s : State) (k : Nat) (f : Cluster → Cluster) : (s.modCluster k f).groups = s.groups := rfl
@[simp] theorem State.modCluster_colls (s : State) (k : Nat) (f : Cluster → Cluster) : (s.modCluster k f).colls = s.colls := rfl
@[simp] theorem State.modCluster_staged (s : State) (k : Nat) (f : Cluster → Cluster) : (s.modCluster k f).staged = s.staged := rfl
@[simp] theorem State.modCluster_kills (s : State) (k : Nat) (f : Cluster → Cluster) : (s.modCluster k f).kills = s.kills := rfl
@[simp] theorem State.modCluster_mail (s : State) (k : Nat) (f : Cluster → Cluster) : (s.modCluster k f).mail = s.mail := rfl
@[simp] theorem State.modCluster_supMail (s : State) (k : Nat) (f : Cluster → Cluster) : (s.modCluster k f).supMail = s.supMail := rfl
@[simp] theorem State.modCluster_lastMail (s : State) (k : Nat) (f : Cluster → Cluster) : (s.modCluster k f).lastMail = s.lastMail := rfl
@[simp] theorem State.modCluster_claims (s : State) (k : Nat) (f : Cluster → Cluster) : (s.modCluster k f).claims = s.claims := rfl
@[simp] theorem State.modCluster_selects (s : State) (k : Nat) (f : Cluster → Cluster) : (s.modCluster k f).selects = s.selects := rfl
@[simp] theorem State.modCluster_flr (s : State) (k : Nat) (f : Cluster → Cluster) : (s.modCluster k f).flr = s.flr := rfl
@[simp] theorem State.modCluster_chanFails (s : State) (k : Nat) (f : Cluster → Cluster) : (s.modCluster k f).chanFails = s.chanFails := rfl
@[simp] theorem State.modCluster_fwQ (s : State) (k : Nat) (f : Cluster → Cluster) : (s.modCluster k f).fwQ = s.fwQ := rfl
@[simp] theorem State.modCluster_boot (s : State) (k : Nat) (f : Cluster → Cluster) : (s.modCluster k f).boot = s.boot := rfl
@[simp] theorem State.modCluster_carrier (s : State) (k : Nat) (f : Cluster → Cluster) : (s.modCluster k f).carrier = s.carrier := rfl
@[simp] theorem State.modCluster_channels (s : State) (k : Nat) (f : Cluster → Cluster) : (s.modCluster k f).channels = s.channels := rfl
@[simp] theorem State.modCluster_held (s : State) (k : Nat) (f : Cluster → Cluster) : (s.modCluster k f).held = s.held := rfl

/-! ### `modChan` -/

@[simp] theorem State.modChan_clock (s : State) (ch : Nat) (f : Channel → Channel) : (s.modChan ch f).clock = s.clock := rfl
@[simp] theorem State.modChan_cur (s : State) (ch : Nat) (f : Channel → Channel) : (s.modChan ch f).cur = s.cur := rfl
@[simp] theorem State.modChan_word (s : State) (ch : Nat) (f : Channel → Channel) : (s.modChan ch f).word = s.word := rfl
@[simp] theorem State.modChan_input (s : State) (ch : Nat) (f : Channel → Channel) : (s.modChan ch f).input = s.input := rfl
@[simp] theorem State.modChan_schedule (s : State) (ch : Nat) (f : Channel → Channel) : (s.modChan ch f).schedule = s.schedule := rfl
@[simp] theorem State.modChan_fresh (s : State) (ch : Nat) (f : Channel → Channel) : (s.modChan ch f).fresh = s.fresh := rfl
@[simp] theorem State.modChan_nextKey (s : State) (ch : Nat) (f : Channel → Channel) : (s.modChan ch f).nextKey = s.nextKey := rfl
@[simp] theorem State.modChan_cores (s : State) (ch : Nat) (f : Channel → Channel) : (s.modChan ch f).cores = s.cores := rfl
@[simp] theorem State.modChan_clusters (s : State) (ch : Nat) (f : Channel → Channel) : (s.modChan ch f).clusters = s.clusters := rfl
@[simp] theorem State.modChan_steps (s : State) (ch : Nat) (f : Channel → Channel) : (s.modChan ch f).steps = s.steps := rfl
@[simp] theorem State.modChan_dies (s : State) (ch : Nat) (f : Channel → Channel) : (s.modChan ch f).dies = s.dies := rfl
@[simp] theorem State.modChan_baseDies (s : State) (ch : Nat) (f : Channel → Channel) : (s.modChan ch f).baseDies = s.baseDies := rfl
@[simp] theorem State.modChan_waits (s : State) (ch : Nat) (f : Channel → Channel) : (s.modChan ch f).waits = s.waits := rfl
@[simp] theorem State.modChan_paths (s : State) (ch : Nat) (f : Channel → Channel) : (s.modChan ch f).paths = s.paths := rfl
@[simp] theorem State.modChan_mem (s : State) (ch : Nat) (f : Channel → Channel) : (s.modChan ch f).mem = s.mem := rfl
@[simp] theorem State.modChan_poison (s : State) (ch : Nat) (f : Channel → Channel) : (s.modChan ch f).poison = s.poison := rfl
@[simp] theorem State.modChan_errCounts (s : State) (ch : Nat) (f : Channel → Channel) : (s.modChan ch f).errCounts = s.errCounts := rfl
@[simp] theorem State.modChan_badFrames (s : State) (ch : Nat) (f : Channel → Channel) : (s.modChan ch f).badFrames = s.badFrames := rfl
@[simp] theorem State.modChan_parts (s : State) (ch : Nat) (f : Channel → Channel) : (s.modChan ch f).parts = s.parts := rfl
@[simp] theorem State.modChan_unmaps (s : State) (ch : Nat) (f : Channel → Channel) : (s.modChan ch f).unmaps = s.unmaps := rfl
@[simp] theorem State.modChan_awakePcs (s : State) (ch : Nat) (f : Channel → Channel) : (s.modChan ch f).awakePcs = s.awakePcs := rfl
@[simp] theorem State.modChan_nodes (s : State) (ch : Nat) (f : Channel → Channel) : (s.modChan ch f).nodes = s.nodes := rfl
@[simp] theorem State.modChan_lastTaken (s : State) (ch : Nat) (f : Channel → Channel) : (s.modChan ch f).lastTaken = s.lastTaken := rfl
@[simp] theorem State.modChan_lastServed (s : State) (ch : Nat) (f : Channel → Channel) : (s.modChan ch f).lastServed = s.lastServed := rfl
@[simp] theorem State.modChan_vfs (s : State) (ch : Nat) (f : Channel → Channel) : (s.modChan ch f).vfs = s.vfs := rfl
@[simp] theorem State.modChan_ports (s : State) (ch : Nat) (f : Channel → Channel) : (s.modChan ch f).ports = s.ports := rfl
@[simp] theorem State.modChan_pkgId (s : State) (ch : Nat) (f : Channel → Channel) : (s.modChan ch f).pkgId = s.pkgId := rfl
@[simp] theorem State.modChan_routes (s : State) (ch : Nat) (f : Channel → Channel) : (s.modChan ch f).routes = s.routes := rfl
@[simp] theorem State.modChan_fabric (s : State) (ch : Nat) (f : Channel → Channel) : (s.modChan ch f).fabric = s.fabric := rfl
@[simp] theorem State.modChan_groups (s : State) (ch : Nat) (f : Channel → Channel) : (s.modChan ch f).groups = s.groups := rfl
@[simp] theorem State.modChan_colls (s : State) (ch : Nat) (f : Channel → Channel) : (s.modChan ch f).colls = s.colls := rfl
@[simp] theorem State.modChan_staged (s : State) (ch : Nat) (f : Channel → Channel) : (s.modChan ch f).staged = s.staged := rfl
@[simp] theorem State.modChan_kills (s : State) (ch : Nat) (f : Channel → Channel) : (s.modChan ch f).kills = s.kills := rfl
@[simp] theorem State.modChan_mail (s : State) (ch : Nat) (f : Channel → Channel) : (s.modChan ch f).mail = s.mail := rfl
@[simp] theorem State.modChan_supMail (s : State) (ch : Nat) (f : Channel → Channel) : (s.modChan ch f).supMail = s.supMail := rfl
@[simp] theorem State.modChan_lastMail (s : State) (ch : Nat) (f : Channel → Channel) : (s.modChan ch f).lastMail = s.lastMail := rfl
@[simp] theorem State.modChan_claims (s : State) (ch : Nat) (f : Channel → Channel) : (s.modChan ch f).claims = s.claims := rfl
@[simp] theorem State.modChan_selects (s : State) (ch : Nat) (f : Channel → Channel) : (s.modChan ch f).selects = s.selects := rfl
@[simp] theorem State.modChan_flr (s : State) (ch : Nat) (f : Channel → Channel) : (s.modChan ch f).flr = s.flr := rfl
@[simp] theorem State.modChan_chanFails (s : State) (ch : Nat) (f : Channel → Channel) : (s.modChan ch f).chanFails = s.chanFails := rfl
@[simp] theorem State.modChan_fwQ (s : State) (ch : Nat) (f : Channel → Channel) : (s.modChan ch f).fwQ = s.fwQ := rfl
@[simp] theorem State.modChan_boot (s : State) (ch : Nat) (f : Channel → Channel) : (s.modChan ch f).boot = s.boot := rfl
@[simp] theorem State.modChan_carrier (s : State) (ch : Nat) (f : Channel → Channel) : (s.modChan ch f).carrier = s.carrier := rfl
@[simp] theorem State.modChan_held (s : State) (ch : Nat) (f : Channel → Channel) : (s.modChan ch f).held = s.held := rfl

/-! ### `modVf` -/

@[simp] theorem State.modVf_clock (s : State) (v : Nat) (f : Vf → Vf) : (s.modVf v f).clock = s.clock := rfl
@[simp] theorem State.modVf_cur (s : State) (v : Nat) (f : Vf → Vf) : (s.modVf v f).cur = s.cur := rfl
@[simp] theorem State.modVf_word (s : State) (v : Nat) (f : Vf → Vf) : (s.modVf v f).word = s.word := rfl
@[simp] theorem State.modVf_input (s : State) (v : Nat) (f : Vf → Vf) : (s.modVf v f).input = s.input := rfl
@[simp] theorem State.modVf_schedule (s : State) (v : Nat) (f : Vf → Vf) : (s.modVf v f).schedule = s.schedule := rfl
@[simp] theorem State.modVf_fresh (s : State) (v : Nat) (f : Vf → Vf) : (s.modVf v f).fresh = s.fresh := rfl
@[simp] theorem State.modVf_nextKey (s : State) (v : Nat) (f : Vf → Vf) : (s.modVf v f).nextKey = s.nextKey := rfl
@[simp] theorem State.modVf_cores (s : State) (v : Nat) (f : Vf → Vf) : (s.modVf v f).cores = s.cores := rfl
@[simp] theorem State.modVf_clusters (s : State) (v : Nat) (f : Vf → Vf) : (s.modVf v f).clusters = s.clusters := rfl
@[simp] theorem State.modVf_steps (s : State) (v : Nat) (f : Vf → Vf) : (s.modVf v f).steps = s.steps := rfl
@[simp] theorem State.modVf_dies (s : State) (v : Nat) (f : Vf → Vf) : (s.modVf v f).dies = s.dies := rfl
@[simp] theorem State.modVf_baseDies (s : State) (v : Nat) (f : Vf → Vf) : (s.modVf v f).baseDies = s.baseDies := rfl
@[simp] theorem State.modVf_waits (s : State) (v : Nat) (f : Vf → Vf) : (s.modVf v f).waits = s.waits := rfl
@[simp] theorem State.modVf_paths (s : State) (v : Nat) (f : Vf → Vf) : (s.modVf v f).paths = s.paths := rfl
@[simp] theorem State.modVf_mem (s : State) (v : Nat) (f : Vf → Vf) : (s.modVf v f).mem = s.mem := rfl
@[simp] theorem State.modVf_poison (s : State) (v : Nat) (f : Vf → Vf) : (s.modVf v f).poison = s.poison := rfl
@[simp] theorem State.modVf_errCounts (s : State) (v : Nat) (f : Vf → Vf) : (s.modVf v f).errCounts = s.errCounts := rfl
@[simp] theorem State.modVf_badFrames (s : State) (v : Nat) (f : Vf → Vf) : (s.modVf v f).badFrames = s.badFrames := rfl
@[simp] theorem State.modVf_parts (s : State) (v : Nat) (f : Vf → Vf) : (s.modVf v f).parts = s.parts := rfl
@[simp] theorem State.modVf_unmaps (s : State) (v : Nat) (f : Vf → Vf) : (s.modVf v f).unmaps = s.unmaps := rfl
@[simp] theorem State.modVf_awakePcs (s : State) (v : Nat) (f : Vf → Vf) : (s.modVf v f).awakePcs = s.awakePcs := rfl
@[simp] theorem State.modVf_nodes (s : State) (v : Nat) (f : Vf → Vf) : (s.modVf v f).nodes = s.nodes := rfl
@[simp] theorem State.modVf_lastTaken (s : State) (v : Nat) (f : Vf → Vf) : (s.modVf v f).lastTaken = s.lastTaken := rfl
@[simp] theorem State.modVf_lastServed (s : State) (v : Nat) (f : Vf → Vf) : (s.modVf v f).lastServed = s.lastServed := rfl
@[simp] theorem State.modVf_ports (s : State) (v : Nat) (f : Vf → Vf) : (s.modVf v f).ports = s.ports := rfl
@[simp] theorem State.modVf_pkgId (s : State) (v : Nat) (f : Vf → Vf) : (s.modVf v f).pkgId = s.pkgId := rfl
@[simp] theorem State.modVf_routes (s : State) (v : Nat) (f : Vf → Vf) : (s.modVf v f).routes = s.routes := rfl
@[simp] theorem State.modVf_fabric (s : State) (v : Nat) (f : Vf → Vf) : (s.modVf v f).fabric = s.fabric := rfl
@[simp] theorem State.modVf_groups (s : State) (v : Nat) (f : Vf → Vf) : (s.modVf v f).groups = s.groups := rfl
@[simp] theorem State.modVf_colls (s : State) (v : Nat) (f : Vf → Vf) : (s.modVf v f).colls = s.colls := rfl
@[simp] theorem State.modVf_staged (s : State) (v : Nat) (f : Vf → Vf) : (s.modVf v f).staged = s.staged := rfl
@[simp] theorem State.modVf_kills (s : State) (v : Nat) (f : Vf → Vf) : (s.modVf v f).kills = s.kills := rfl
@[simp] theorem State.modVf_mail (s : State) (v : Nat) (f : Vf → Vf) : (s.modVf v f).mail = s.mail := rfl
@[simp] theorem State.modVf_supMail (s : State) (v : Nat) (f : Vf → Vf) : (s.modVf v f).supMail = s.supMail := rfl
@[simp] theorem State.modVf_lastMail (s : State) (v : Nat) (f : Vf → Vf) : (s.modVf v f).lastMail = s.lastMail := rfl
@[simp] theorem State.modVf_claims (s : State) (v : Nat) (f : Vf → Vf) : (s.modVf v f).claims = s.claims := rfl
@[simp] theorem State.modVf_selects (s : State) (v : Nat) (f : Vf → Vf) : (s.modVf v f).selects = s.selects := rfl
@[simp] theorem State.modVf_flr (s : State) (v : Nat) (f : Vf → Vf) : (s.modVf v f).flr = s.flr := rfl
@[simp] theorem State.modVf_chanFails (s : State) (v : Nat) (f : Vf → Vf) : (s.modVf v f).chanFails = s.chanFails := rfl
@[simp] theorem State.modVf_fwQ (s : State) (v : Nat) (f : Vf → Vf) : (s.modVf v f).fwQ = s.fwQ := rfl
@[simp] theorem State.modVf_boot (s : State) (v : Nat) (f : Vf → Vf) : (s.modVf v f).boot = s.boot := rfl
@[simp] theorem State.modVf_carrier (s : State) (v : Nat) (f : Vf → Vf) : (s.modVf v f).carrier = s.carrier := rfl
@[simp] theorem State.modVf_channels (s : State) (v : Nat) (f : Vf → Vf) : (s.modVf v f).channels = s.channels := rfl
@[simp] theorem State.modVf_held (s : State) (v : Nat) (f : Vf → Vf) : (s.modVf v f).held = s.held := rfl

/-! ### `modNode` -/

@[simp] theorem State.modNode_clock (s : State) (k : Nat) (f : Node → Node) : (s.modNode k f).clock = s.clock := rfl
@[simp] theorem State.modNode_cur (s : State) (k : Nat) (f : Node → Node) : (s.modNode k f).cur = s.cur := rfl
@[simp] theorem State.modNode_word (s : State) (k : Nat) (f : Node → Node) : (s.modNode k f).word = s.word := rfl
@[simp] theorem State.modNode_input (s : State) (k : Nat) (f : Node → Node) : (s.modNode k f).input = s.input := rfl
@[simp] theorem State.modNode_schedule (s : State) (k : Nat) (f : Node → Node) : (s.modNode k f).schedule = s.schedule := rfl
@[simp] theorem State.modNode_fresh (s : State) (k : Nat) (f : Node → Node) : (s.modNode k f).fresh = s.fresh := rfl
@[simp] theorem State.modNode_nextKey (s : State) (k : Nat) (f : Node → Node) : (s.modNode k f).nextKey = s.nextKey := rfl
@[simp] theorem State.modNode_cores (s : State) (k : Nat) (f : Node → Node) : (s.modNode k f).cores = s.cores := rfl
@[simp] theorem State.modNode_clusters (s : State) (k : Nat) (f : Node → Node) : (s.modNode k f).clusters = s.clusters := rfl
@[simp] theorem State.modNode_steps (s : State) (k : Nat) (f : Node → Node) : (s.modNode k f).steps = s.steps := rfl
@[simp] theorem State.modNode_dies (s : State) (k : Nat) (f : Node → Node) : (s.modNode k f).dies = s.dies := rfl
@[simp] theorem State.modNode_baseDies (s : State) (k : Nat) (f : Node → Node) : (s.modNode k f).baseDies = s.baseDies := rfl
@[simp] theorem State.modNode_waits (s : State) (k : Nat) (f : Node → Node) : (s.modNode k f).waits = s.waits := rfl
@[simp] theorem State.modNode_paths (s : State) (k : Nat) (f : Node → Node) : (s.modNode k f).paths = s.paths := rfl
@[simp] theorem State.modNode_mem (s : State) (k : Nat) (f : Node → Node) : (s.modNode k f).mem = s.mem := rfl
@[simp] theorem State.modNode_poison (s : State) (k : Nat) (f : Node → Node) : (s.modNode k f).poison = s.poison := rfl
@[simp] theorem State.modNode_errCounts (s : State) (k : Nat) (f : Node → Node) : (s.modNode k f).errCounts = s.errCounts := rfl
@[simp] theorem State.modNode_badFrames (s : State) (k : Nat) (f : Node → Node) : (s.modNode k f).badFrames = s.badFrames := rfl
@[simp] theorem State.modNode_parts (s : State) (k : Nat) (f : Node → Node) : (s.modNode k f).parts = s.parts := rfl
@[simp] theorem State.modNode_unmaps (s : State) (k : Nat) (f : Node → Node) : (s.modNode k f).unmaps = s.unmaps := rfl
@[simp] theorem State.modNode_awakePcs (s : State) (k : Nat) (f : Node → Node) : (s.modNode k f).awakePcs = s.awakePcs := rfl
@[simp] theorem State.modNode_lastTaken (s : State) (k : Nat) (f : Node → Node) : (s.modNode k f).lastTaken = s.lastTaken := rfl
@[simp] theorem State.modNode_lastServed (s : State) (k : Nat) (f : Node → Node) : (s.modNode k f).lastServed = s.lastServed := rfl
@[simp] theorem State.modNode_vfs (s : State) (k : Nat) (f : Node → Node) : (s.modNode k f).vfs = s.vfs := rfl
@[simp] theorem State.modNode_ports (s : State) (k : Nat) (f : Node → Node) : (s.modNode k f).ports = s.ports := rfl
@[simp] theorem State.modNode_pkgId (s : State) (k : Nat) (f : Node → Node) : (s.modNode k f).pkgId = s.pkgId := rfl
@[simp] theorem State.modNode_routes (s : State) (k : Nat) (f : Node → Node) : (s.modNode k f).routes = s.routes := rfl
@[simp] theorem State.modNode_fabric (s : State) (k : Nat) (f : Node → Node) : (s.modNode k f).fabric = s.fabric := rfl
@[simp] theorem State.modNode_groups (s : State) (k : Nat) (f : Node → Node) : (s.modNode k f).groups = s.groups := rfl
@[simp] theorem State.modNode_colls (s : State) (k : Nat) (f : Node → Node) : (s.modNode k f).colls = s.colls := rfl
@[simp] theorem State.modNode_staged (s : State) (k : Nat) (f : Node → Node) : (s.modNode k f).staged = s.staged := rfl
@[simp] theorem State.modNode_kills (s : State) (k : Nat) (f : Node → Node) : (s.modNode k f).kills = s.kills := rfl
@[simp] theorem State.modNode_mail (s : State) (k : Nat) (f : Node → Node) : (s.modNode k f).mail = s.mail := rfl
@[simp] theorem State.modNode_supMail (s : State) (k : Nat) (f : Node → Node) : (s.modNode k f).supMail = s.supMail := rfl
@[simp] theorem State.modNode_lastMail (s : State) (k : Nat) (f : Node → Node) : (s.modNode k f).lastMail = s.lastMail := rfl
@[simp] theorem State.modNode_claims (s : State) (k : Nat) (f : Node → Node) : (s.modNode k f).claims = s.claims := rfl
@[simp] theorem State.modNode_selects (s : State) (k : Nat) (f : Node → Node) : (s.modNode k f).selects = s.selects := rfl
@[simp] theorem State.modNode_flr (s : State) (k : Nat) (f : Node → Node) : (s.modNode k f).flr = s.flr := rfl
@[simp] theorem State.modNode_chanFails (s : State) (k : Nat) (f : Node → Node) : (s.modNode k f).chanFails = s.chanFails := rfl
@[simp] theorem State.modNode_fwQ (s : State) (k : Nat) (f : Node → Node) : (s.modNode k f).fwQ = s.fwQ := rfl
@[simp] theorem State.modNode_boot (s : State) (k : Nat) (f : Node → Node) : (s.modNode k f).boot = s.boot := rfl
@[simp] theorem State.modNode_carrier (s : State) (k : Nat) (f : Node → Node) : (s.modNode k f).carrier = s.carrier := rfl
@[simp] theorem State.modNode_channels (s : State) (k : Nat) (f : Node → Node) : (s.modNode k f).channels = s.channels := rfl
@[simp] theorem State.modNode_held (s : State) (k : Nat) (f : Node → Node) : (s.modNode k f).held = s.held := rfl

/-! ### A context of a core -/

@[simp] theorem Core.modContext_lastIssue (c : Core) (k : Nat) (g : Context → Context) : (c.modContext k g).lastIssue = c.lastIssue := rfl
@[simp] theorem Core.modContext_issuedAt (c : Core) (k : Nat) (g : Context → Context) : (c.modContext k g).issuedAt = c.issuedAt := rfl
@[simp] theorem Core.modContext_im (c : Core) (k : Nat) (g : Context → Context) : (c.modContext k g).im = c.im := rfl
@[simp] theorem Core.modContext_lm (c : Core) (k : Nat) (g : Context → Context) : (c.modContext k g).lm = c.lm := rfl
@[simp] theorem Core.modContext_acc (c : Core) (k : Nat) (g : Context → Context) : (c.modContext k g).acc = c.acc := rfl
@[simp] theorem Core.modContext_handles (c : Core) (k : Nat) (g : Context → Context) : (c.modContext k g).handles = c.handles := rfl
@[simp] theorem Core.modContext_tagDone (c : Core) (k : Nat) (g : Context → Context) : (c.modContext k g).tagDone = c.tagDone := rfl
@[simp] theorem Core.modContext_tagErr (c : Core) (k : Nat) (g : Context → Context) : (c.modContext k g).tagErr = c.tagErr := rfl
@[simp] theorem Core.modContext_tagBusy (c : Core) (k : Nat) (g : Context → Context) : (c.modContext k g).tagBusy = c.tagBusy := rfl
@[simp] theorem Core.modContext_rank (c : Core) (k : Nat) (g : Context → Context) : (c.modContext k g).rank = c.rank := rfl
@[simp] theorem Core.modContext_gangdim (c : Core) (k : Nat) (g : Context → Context) : (c.modContext k g).gangdim = c.gangdim := rfl
@[simp] theorem Core.modContext_dmr (c : Core) (k : Nat) (g : Context → Context) : (c.modContext k g).dmr = c.dmr := rfl
@[simp] theorem Core.modContext_lscale (c : Core) (k : Nat) (g : Context → Context) : (c.modContext k g).lscale = c.lscale := rfl
@[simp] theorem Core.modContext_lsepoch (c : Core) (k : Nat) (g : Context → Context) : (c.modContext k g).lsepoch = c.lsepoch := rfl
@[simp] theorem Core.modContext_rngv (c : Core) (k : Nat) (g : Context → Context) : (c.modContext k g).rngv = c.rngv := rfl
@[simp] theorem Core.modContext_rngm (c : Core) (k : Nat) (g : Context → Context) : (c.modContext k g).rngm = c.rngm := rfl
@[simp] theorem Core.modContext_pbase (c : Core) (k : Nat) (g : Context → Context) : (c.modContext k g).pbase = c.pbase := rfl
@[simp] theorem Core.modContext_idCount (c : Core) (k : Nat) (g : Context → Context) : (c.modContext k g).idCount = c.idCount := rfl
@[simp] theorem Core.modContext_watch (c : Core) (k : Nat) (g : Context → Context) : (c.modContext k g).watch = c.watch := rfl
@[simp] theorem Core.modContext_recQ (c : Core) (k : Nat) (g : Context → Context) : (c.modContext k g).recQ = c.recQ := rfl
@[simp] theorem Core.modContext_recHeld (c : Core) (k : Nat) (g : Context → Context) : (c.modContext k g).recHeld = c.recHeld := rfl
@[simp] theorem Core.modContext_fstate (c : Core) (k : Nat) (g : Context → Context) : (c.modContext k g).fstate = c.fstate := rfl
@[simp] theorem Core.modContext_fleader (c : Core) (k : Nat) (g : Context → Context) : (c.modContext k g).fleader = c.fleader := rfl
@[simp] theorem Core.modContext_fcause (c : Core) (k : Nat) (g : Context → Context) : (c.modContext k g).fcause = c.fcause := rfl
@[simp] theorem Core.modContext_fmask (c : Core) (k : Nat) (g : Context → Context) : (c.modContext k g).fmask = c.fmask := rfl
@[simp] theorem Core.modContext_fbuf (c : Core) (k : Nat) (g : Context → Context) : (c.modContext k g).fbuf = c.fbuf := rfl
@[simp] theorem Core.modContext_fwait (c : Core) (k : Nat) (g : Context → Context) : (c.modContext k g).fwait = c.fwait := rfl
@[simp] theorem Core.modContext_fleft (c : Core) (k : Nat) (g : Context → Context) : (c.modContext k g).fleft = c.fleft := rfl
@[simp] theorem Core.modContext_vecQ (c : Core) (k : Nat) (g : Context → Context) : (c.modContext k g).vecQ = c.vecQ := rfl
@[simp] theorem Core.modContext_matQ (c : Core) (k : Nat) (g : Context → Context) : (c.modContext k g).matQ = c.matQ := rfl
@[simp] theorem Core.modContext_copyQ (c : Core) (k : Nat) (g : Context → Context) : (c.modContext k g).copyQ = c.copyQ := rfl
@[simp] theorem Core.modContext_ni (c : Core) (k : Nat) (g : Context → Context) : (c.modContext k g).ni = c.ni := rfl
@[simp] theorem Core.modContext_inbox (c : Core) (k : Nat) (g : Context → Context) : (c.modContext k g).inbox = c.inbox := rfl
@[simp] theorem Core.modContext_accs (c : Core) (k : Nat) (g : Context → Context) : (c.modContext k g).accs = c.accs := rfl
@[simp] theorem Core.modContext_arm (c : Core) (k : Nat) (g : Context → Context) : (c.modContext k g).arm = c.arm := rfl
@[simp] theorem Core.modContext_counters (c : Core) (k : Nat) (g : Context → Context) : (c.modContext k g).counters = c.counters := rfl
@[simp] theorem Core.modContext_terms (c : Core) (k : Nat) (g : Context → Context) : (c.modContext k g).terms = c.terms := rfl
@[simp] theorem Core.modContext_pulses (c : Core) (k : Nat) (g : Context → Context) : (c.modContext k g).pulses = c.pulses := rfl
@[simp] theorem Core.modContext_eventAt (c : Core) (k : Nat) (g : Context → Context) : (c.modContext k g).eventAt = c.eventAt := rfl
@[simp] theorem Core.modContext_issue (c : Core) (k : Nat) (g : Context → Context) : (c.modContext k g).issue = c.issue := rfl
@[simp] theorem Core.modContext_engStopped (c : Core) (k : Nat) (g : Context → Context) : (c.modContext k g).engStopped = c.engStopped := rfl
@[simp] theorem Core.modContext_stopping (c : Core) (k : Nat) (g : Context → Context) : (c.modContext k g).stopping = c.stopping := rfl
@[simp] theorem Core.modContext_reqIgnored (c : Core) (k : Nat) (g : Context → Context) : (c.modContext k g).reqIgnored = c.reqIgnored := rfl
@[simp] theorem Core.modContext_lastKind (c : Core) (k : Nat) (g : Context → Context) : (c.modContext k g).lastKind = c.lastKind := rfl
@[simp] theorem Core.modContext_stepTarget (c : Core) (k : Nat) (g : Context → Context) : (c.modContext k g).stepTarget = c.stepTarget := rfl
@[simp] theorem Core.modContext_stepDone (c : Core) (k : Nat) (g : Context → Context) : (c.modContext k g).stepDone = c.stepDone := rfl
@[simp] theorem Core.modContext_dwsel (c : Core) (k : Nat) (g : Context → Context) : (c.modContext k g).dwsel = c.dwsel := rfl
@[simp] theorem Core.modContext_ibp (c : Core) (k : Nat) (g : Context → Context) : (c.modContext k g).ibp = c.ibp := rfl
@[simp] theorem Core.modContext_wpb (c : Core) (k : Nat) (g : Context → Context) : (c.modContext k g).wpb = c.wpb := rfl
@[simp] theorem Core.modContext_wpc (c : Core) (k : Nat) (g : Context → Context) : (c.modContext k g).wpc = c.wpc := rfl
@[simp] theorem Core.modContext_packet (c : Core) (k : Nat) (g : Context → Context) : (c.modContext k g).packet = c.packet := rfl
@[simp] theorem Core.modContext_node (c : Core) (k : Nat) (g : Context → Context) : (c.modContext k g).node = c.node := rfl
@[simp] theorem Core.modContext_nodeid (c : Core) (k : Nat) (g : Context → Context) : (c.modContext k g).nodeid = c.nodeid := rfl
@[simp] theorem Core.modContext_part (c : Core) (k : Nat) (g : Context → Context) : (c.modContext k g).part = c.part := rfl
@[simp] theorem Core.modContext_saved (c : Core) (k : Nat) (g : Context → Context) : (c.modContext k g).saved = c.saved := rfl
@[simp] theorem Core.modContext_withdrawn (c : Core) (k : Nat) (g : Context → Context) : (c.modContext k g).withdrawn = c.withdrawn := rfl
@[simp] theorem Core.modContext_lasting (c : Core) (k : Nat) (g : Context → Context) : (c.modContext k g).lasting = c.lasting := rfl

@[simp] theorem Context.setGpr_status (c : Context) (r : Nat) (v : DWord) : (c.setGpr r v).status = c.status := by
  unfold Context.setGpr; split <;> rfl
@[simp] theorem Context.setGpr_pc (c : Context) (r : Nat) (v : DWord) : (c.setGpr r v).pc = c.pc := by
  unfold Context.setGpr; split <;> rfl
@[simp] theorem Context.setGpr_v (c : Context) (r : Nat) (v : DWord) : (c.setGpr r v).v = c.v := by
  unfold Context.setGpr; split <;> rfl
@[simp] theorem Context.setGpr_m (c : Context) (r : Nat) (v : DWord) : (c.setGpr r v).m = c.m := by
  unfold Context.setGpr; split <;> rfl
@[simp] theorem Context.setGpr_x (c : Context) (r : Nat) (v : DWord) : (c.setGpr r v).x = c.x := by
  unfold Context.setGpr; split <;> rfl
@[simp] theorem Context.setGpr_fpflags (c : Context) (r : Nat) (v : DWord) : (c.setGpr r v).fpflags = c.fpflags := by
  unfold Context.setGpr; split <;> rfl
@[simp] theorem Context.setGpr_slots (c : Context) (r : Nat) (v : DWord) : (c.setGpr r v).slots = c.slots := by
  unfold Context.setGpr; split <;> rfl
@[simp] theorem Context.setGpr_ctPending (c : Context) (r : Nat) (v : DWord) : (c.setGpr r v).ctPending = c.ctPending := by
  unfold Context.setGpr; split <;> rfl
@[simp] theorem Context.setGpr_cancelled (c : Context) (r : Nat) (v : DWord) : (c.setGpr r v).cancelled = c.cancelled := by
  unfold Context.setGpr; split <;> rfl
@[simp] theorem Context.setGpr_exitVal (c : Context) (r : Nat) (v : DWord) : (c.setGpr r v).exitVal = c.exitVal := by
  unfold Context.setGpr; split <;> rfl
@[simp] theorem Context.setGpr_sleep (c : Context) (r : Nat) (v : DWord) : (c.setGpr r v).sleep = c.sleep := by
  unfold Context.setGpr; split <;> rfl
@[simp] theorem Context.setGpr_cwait (c : Context) (r : Nat) (v : DWord) : (c.setGpr r v).cwait = c.cwait := by
  unfold Context.setGpr; split <;> rfl
@[simp] theorem Context.setGpr_stopped (c : Context) (r : Nat) (v : DWord) : (c.setGpr r v).stopped = c.stopped := by
  unfold Context.setGpr; split <;> rfl
@[simp] theorem Context.setGpr_poisonLate (c : Context) (r : Nat) (v : DWord) : (c.setGpr r v).poisonLate = c.poisonLate := by
  unfold Context.setGpr; split <;> rfl
@[simp] theorem Context.setGpr_busyS (c : Context) (r : Nat) (v : DWord) : (c.setGpr r v).busyS = c.busyS := by
  unfold Context.setGpr; split <;> rfl
@[simp] theorem Context.setGpr_busyV (c : Context) (r : Nat) (v : DWord) : (c.setGpr r v).busyV = c.busyV := by
  unfold Context.setGpr; split <;> rfl
@[simp] theorem Context.setGpr_busyM (c : Context) (r : Nat) (v : DWord) : (c.setGpr r v).busyM = c.busyM := by
  unfold Context.setGpr; split <;> rfl
@[simp] theorem Context.setGpr_busyX (c : Context) (r : Nat) (v : DWord) : (c.setGpr r v).busyX = c.busyX := by
  unfold Context.setGpr; split <;> rfl
@[simp] theorem Context.setGpr_storeRun (c : Context) (r : Nat) (v : DWord) : (c.setGpr r v).storeRun = c.storeRun := by
  unfold Context.setGpr; split <;> rfl
@[simp] theorem Context.setGpr_ibpPass (c : Context) (r : Nat) (v : DWord) : (c.setGpr r v).ibpPass = c.ibpPass := by
  unfold Context.setGpr; split <;> rfl

/-! ### Cores and contexts read back -/

@[simp] theorem State.core_setCore_same (s : State) (i : Nat) (c : Core) : (s.setCore i c).core i = c := by
  simp [State.core, State.setCore]

theorem State.core_setCore_ne (s : State) {i j : Nat} (c : Core) (h : j ≠ i) : (s.setCore i c).core j = s.core j := by
  simp [State.core, State.setCore, tget_tput_ne _ _ _ h]

@[simp] theorem State.core_modCore_same (s : State) (i : Nat) (f : Core → Core) : (s.modCore i f).core i = f (s.core i) := by
  simp [State.modCore]

theorem State.core_modCore_ne (s : State) {i j : Nat} (f : Core → Core) (h : j ≠ i) : (s.modCore i f).core j = s.core j := by
  simp [State.modCore, State.core_setCore_ne _ _ h]

@[simp] theorem State.modCore_modCore (s : State) (i : Nat) (f g : Core → Core) :
    (s.modCore i f).modCore i g = s.modCore i (fun c => g (f c)) := by
  simp [State.modCore, State.setCore, State.core]

@[simp] theorem State.part_modPart_same (s : State) (p : Nat) (f : Partition → Partition) : (s.modPart p f).part p = f (s.part p) := by
  simp [State.part, State.modPart]

theorem State.part_modPart_ne (s : State) {p q : Nat} (f : Partition → Partition) (h : q ≠ p) : (s.modPart p f).part q = s.part q := by
  simp [State.part, State.modPart, tget_tmod_ne _ _ _ h]

@[simp] theorem State.vf_modVf_same (s : State) (v : Nat) (f : Vf → Vf) : (s.modVf v f).vf v = f (s.vf v) := by
  simp [State.vf, State.modVf]

theorem State.vf_modVf_ne (s : State) {v w : Nat} (f : Vf → Vf) (h : w ≠ v) : (s.modVf v f).vf w = s.vf w := by
  simp [State.vf, State.modVf, tget_tmod_ne _ _ _ h]

theorem State.chan_modChan_same (s : State) {ch : Nat} (f : Channel → Channel) (h : ch < 16) : (s.modChan ch f).chan ch = f (s.chan ch) := by
  simp [State.chan, State.modChan, vget_vmod_same _ _ _ h]

theorem State.chan_modChan_ne (s : State) {ch c : Nat} (f : Channel → Channel) (h : c ≠ ch) : (s.modChan ch f).chan c = s.chan c := by
  simp [State.chan, State.modChan, vget_vmod_ne _ _ _ h]

@[simp] theorem Core.context_modContext_same (c : Core) {k : Nat} (f : Context → Context) (h : k < 11) :
    (c.modContext k f).context k = f (c.context k) := by
  simp [Core.modContext, Core.context, vget_vmod_same _ _ _ h]

theorem Core.context_modContext_ne (c : Core) {k j : Nat} (f : Context → Context) (h : j ≠ k) :
    (c.modContext k f).context j = c.context j := by
  simp [Core.modContext, Core.context, vget_vmod_ne _ _ _ h]

/-- A context number that no core has: nothing changes. -/
theorem Core.modContext_out (c : Core) {k : Nat} (f : Context → Context) (h : 11 ≤ k) : c.modContext k f = c := by
  simp [Core.modContext, vmod, vset_out _ _ h]

@[simp] theorem Core.modContext_modContext (c : Core) (k : Nat) (f g : Context → Context) :
    (c.modContext k f).modContext k g = c.modContext k (fun x => g (f x)) := by
  by_cases h : k < 11
  · simp [Core.modContext, vmod, vget_vset_same _ _ _ h]
  · simp [Core.modContext_out _ _ (Nat.le_of_not_lt h)]

@[simp] theorem State.ctx_modCtx_same (s : State) (i : Nat) {k : Nat} (f : Context → Context) (h : k < 11) :
    (s.modCtx i k f).ctx i k = f (s.ctx i k) := by
  simp [State.modCtx, State.ctx, h]

theorem State.ctx_modCtx_other (s : State) {i k j l : Nat} (f : Context → Context) (h : j ≠ i ∨ l ≠ k) :
    (s.modCtx i k f).ctx j l = s.ctx j l := by
  by_cases hj : j = i
  · subst hj
    simp [State.modCtx, State.ctx, Core.context_modContext_ne _ _ (h.resolve_left (fun n => n rfl))]
  · simp [State.modCtx, State.ctx, State.core_modCore_ne _ _ hj]

/-- What is read in a scalar register after a write (R307): s0 reads 0. -/
theorem Context.gpr_setGpr (c : Context) (r q : Nat) (v : DWord) (hr : r < 32) :
    (c.setGpr r v).gpr q = if q = r ∧ r ≠ 0 then v else c.gpr q := by
  unfold Context.setGpr Context.gpr
  by_cases hq : q = 0
  · subst hq; simp; omega
  · by_cases h0 : r = 0
    · simp [h0, hq]
    · by_cases he : q = r
      · subst he; simp [h0, vget_vset_same _ _ _ hr]
      · simp [h0, hq, he, vget_vset_ne _ _ _ he]

end Sys2Proof.Machine
end

