-- ==== Sys2Proof/Laws/Trace.lean ====
section
/-! SUPPORT. A trace record (R86, R87) is written to memory and to its partition, never to a core. -/
namespace Sys2Proof.Machine

theorem ite_ne {α : Type} {c : Prop} [Decidable c] {x y z : α} (h1 : x ≠ z) (h2 : y ≠ z) : (if c then x else y) ≠ z := by
  split
  · exact h1
  · exact h2

theorem fixedPage_not_lm (s : State) (p va : Nat) (a : DWord) (c o : Nat) : fixedPage s p va ≠ some (a, .lm c o) := by
  unfold fixedPage
  repeat' apply ite_ne
  all_goals simp

/-- Page tables reach no local memory. -/
theorem translate_not_lm (s : State) (p va : Nat) (rd wr : Bool) (a : DWord) (c o : Nat) :
    translate s p va rd wr ≠ .ok (a, .lm c o) := by
  intro h
  unfold translate at h
  split at h
  · cases h
  split at h
  · cases h
  split at h
  · rename_i r hr
    have hr' : (Except.ok r : Except Flt _) = .ok (a, .lm c o) := by
      split at h
      · split at h
        · cases h
        · exact h
      · split at h
        · cases h
        · exact h
      · exact h
    cases hr'
    exact fixedPage_not_lm _ _ _ _ _ _ hr
  split at h
  · cases h
  simp only [] at h
  repeat' split at h
  all_goals cases h

theorem translateAgent_not_lm (s : State) (p va : Nat) (rd wr : Bool) (a : DWord) (c o : Nat) :
    translateAgent s p va rd wr ≠ .ok (a, .lm c o) := by
  intro h
  unfold translateAgent at h
  split at h
  · cases h
  · cases h
  · exact translate_not_lm _ _ _ _ _ _ _ _ h

theorem writePlace_cores (s : State) (pl : Place) (bs : List Byte) (h : ∀ c o, pl ≠ .lm c o) :
    (writePlace s pl bs).cores = s.cores := by
  unfold writePlace
  split
  · exact absurd rfl (h _ _)
  · unfold writePhys
    repeat' split
    all_goals rfl
  · rfl
  · rfl

theorem vput_cores (s : State) (p va : Nat) (bs : List Byte) : (vput s p va bs).cores = s.cores := by
  induction bs generalizing s va with
  | nil => rfl
  | cons b r ih =>
    rw [vput, ih]
    split
    · rename_i pl h
      exact writePlace_cores _ _ _ (fun c o e => translateAgent_not_lm _ _ _ _ _ _ c o (e ▸ h))
    · rfl

theorem vwrite_cores (s t : State) (p va : Nat) (bs : List Byte) (h : vwrite s p va bs = .ok t) : t.cores = s.cores := by
  unfold vwrite at h
  split at h
  · simp at h
  · simp at h
    rw [← h, vput_cores]

theorem trace_cores (s : State) (p cls typ ctx core v : Nat) : (trace s p cls typ ctx core v).cores = s.cores := by
  unfold trace
  simp only []
  repeat' split
  all_goals first | rfl | skip
  rename_i h
  show State.cores _ = _
  simp only [State.modPart]
  exact vwrite_cores _ _ _ _ _ h

theorem traceCtx_cores (s : State) (cls typ core ctx v : Nat) : (traceCtx s cls typ core ctx v).cores = s.cores := by
  unfold traceCtx
  split
  · exact trace_cores _ _ _ _ _ _ _
  · rfl

theorem traceTiming_cores (s : State) (core ctx code : Nat) : (traceTiming s core ctx code).cores = s.cores :=
  traceCtx_cores _ _ _ _ _ _

/-! ### The context that runs, its word, the clock and the model's counters -/

/-- `t` agrees with `s` in what no write to memory or to a partition touches. -/
def Kept (s t : State) : Prop :=
  t.cur = s.cur ∧ t.word = s.word ∧ t.nextKey = s.nextKey ∧ t.clock = s.clock ∧ t.nodes = s.nodes

theorem Kept.refl (s : State) : Kept s s := ⟨rfl, rfl, rfl, rfl, rfl⟩

theorem Kept.trans {s t u : State} (h : Kept s t) (g : Kept t u) : Kept s u :=
  ⟨g.1.trans h.1, g.2.1.trans h.2.1, g.2.2.1.trans h.2.2.1, g.2.2.2.1.trans h.2.2.2.1, g.2.2.2.2.trans h.2.2.2.2⟩

theorem kept_modPart (s : State) (p : Nat) (f : Partition → Partition) : Kept s (s.modPart p f) := ⟨rfl, rfl, rfl, rfl, rfl⟩

theorem kept_writePlace (s : State) (pl : Place) (bs : List Byte) : Kept s (writePlace s pl bs) := by
  unfold writePlace
  split
  · exact ⟨rfl, rfl, rfl, rfl, rfl⟩
  · unfold writePhys
    repeat' split
    all_goals exact ⟨rfl, rfl, rfl, rfl, rfl⟩
  · exact kept_modPart _ _ _
  · exact Kept.refl s

theorem kept_vput (s : State) (p va : Nat) (bs : List Byte) : Kept s (vput s p va bs) := by
  induction bs generalizing s va with
  | nil => exact Kept.refl s
  | cons b r ih =>
    rw [vput]
    split
    · rename_i pl h
      exact (kept_writePlace s pl [b]).trans (ih _ _)
    · exact ih s (va + 1)

theorem kept_vwrite (s t : State) (p va : Nat) (bs : List Byte) (h : vwrite s p va bs = .ok t) : Kept s t := by
  unfold vwrite at h
  split at h
  · simp at h
  · simp at h
    rw [← h]
    exact kept_vput _ _ _ _

theorem kept_trace (s : State) (p cls typ ctx core v : Nat) : Kept s (trace s p cls typ ctx core v) := by
  unfold trace
  simp only []
  split
  · exact Kept.refl s
  split
  · exact kept_modPart _ _ _
  split
  · exact kept_modPart _ _ _
  · rename_i h
    exact (kept_vwrite _ _ _ _ _ h).trans (kept_modPart _ _ _)

theorem kept_traceCtx (s : State) (cls typ core ctx v : Nat) : Kept s (traceCtx s cls typ core ctx v) := by
  unfold traceCtx
  split
  · exact kept_trace _ _ _ _ _ _ _
  · exact Kept.refl s

end Sys2Proof.Machine
end

