-- ==== Sys2Proof/Laws/Retire.lean ====
section
/-! SUPPORT. What retiring, sleeping, jumping and taking a fault answer. -/
namespace Sys2Proof.Machine
open Sys2Proof.Safety

/-- An awake context retires without a trace record. -/
theorem retireTo_eq (s : State) (pc : DWord) (h : s.here.sleep.asleep = false) : retireTo s pc = .next (goneTo s pc id) := by
  have h' : (s.ctx s.cur.1 s.cur.2).sleep.asleep = false := h
  simp [retireTo, retireAt, h', goneTo]

theorem retire_eq (s : State) (len : Nat) (h : s.here.sleep.asleep = false) : retire s len = .next (after s len id) := by
  simp [retire, retireTo_eq _ _ h, after]

/-- An effect on the running context before it retires is one of the instruction. -/
theorem goneTo_modHere (s : State) (pc : DWord) (f g : Context → Context) :
    goneTo (s.modHere f) pc g = goneTo s pc (fun c => g (f c)) := by
  simp [goneTo, State.modHere, State.modCtx]
  rfl

theorem here_modHere (s : State) (f : Context → Context) (h : s.cur.2 < 11) : (s.modHere f).here = f s.here := by
  simp [State.here, State.modHere, h]

/-- An instruction that writes one scalar register (R307). -/
theorem retireReg_eq (s : State) (len : Nat) (rd : Reg) (v : DWord) (h : Runs s) :
    retireReg s len rd v = .next (after s len (fun c => c.setGpr rd.toNat v)) := by
  have e : (s.setGpr rd v).here = s.here.setGpr rd.toNat v := here_modHere _ _ h.1
  have hs : (s.setGpr rd v).here.sleep.asleep = false := by rw [e]; simpa using h.2
  rw [retireReg, retire_eq _ _ hs, after, e]
  simp [after, State.setGpr, goneTo_modHere]

theorem sleepIn_eq (s : State) (w : Sleep) : sleepIn s w = .next (sleepAt s s.cur.1 s.cur.2 w) := rfl

theorem raise_eq (s : State) (f : Flt) : raise s f = .next (takeFault s f) := rfl

/-- A jump inside IM to an even offset answers a next state. -/
theorem jumpTo_eq (s : State) (t : Int) (h0 : 0 ≤ t) (h1 : t ≤ 65534) (h2 : t % 2 = 0) :
    jumpTo s t = retireTo (traceCtx s 0 1 s.cur.1 s.cur.2 t.toNat) (b64 t.toNat) := by
  have : ¬(t < 0 || 65534 < t || t % 2 != 0) = true := by simp [h2]; omega
  simp [jumpTo, this]

/-- Nothing is recorded where no trace is on. -/
theorem traceCtx_off (s : State) (cls typ core ctx value : Nat) (h : Untraced s core) : traceCtx s cls typ core ctx value = s := by
  unfold traceCtx
  split
  · rename_i p hp
    simp [trace, h p hp]
  · rfl

theorem traceTiming_off (s : State) (core ctx code : Nat) (h : Untraced s core) : traceTiming s core ctx code = s :=
  traceCtx_off _ _ _ _ _ _ h

theorem traceCtx_here (s : State) (cls typ core ctx value : Nat) : (traceCtx s cls typ core ctx value).here = s.here := by
  simp only [State.here, State.ctx, State.core, traceCtx_cores, (kept_traceCtx s cls typ core ctx value).1]

theorem goneTo_congr {s t : State} (h : t.cores = s.cores) (hc : t.cur = s.cur) (pc : DWord) (f : Context → Context) :
    (goneTo t pc f).cores = (goneTo s pc f).cores := by
  unfold goneTo State.modCore State.setCore State.core
  rw [h, hc]

theorem traceCtx_goneTo (s : State) (cls typ core ctx value : Nat) (pc : DWord) (f : Context → Context) :
    (goneTo (traceCtx s cls typ core ctx value) pc f).cores = (goneTo s pc f).cores :=
  goneTo_congr (traceCtx_cores _ _ _ _ _ _) (kept_traceCtx _ _ _ _ _ _).1 _ _

/-- A jump to an even offset of IM: the context goes on there. The trace record of the branch changes no core. -/
theorem jumpTo_spec (s : State) (t : Int) (h : s.here.sleep.asleep = false) (h0 : 0 ≤ t) (h1 : t ≤ 65534) (h2 : t % 2 = 0) :
    ∃ u, jumpTo s t = .next u ∧ u.cores = (goneTo s (BitVec.ofInt 64 t) id).cores ∧
      (Untraced s s.cur.1 → u = goneTo s (BitVec.ofInt 64 t) id) := by
  have e : b64 t.toNat = BitVec.ofInt 64 t := by
    obtain ⟨n, rfl⟩ := Int.eq_ofNat_of_zero_le h0
    simp [b64]
  rw [jumpTo_eq _ _ h0 h1 h2, retireTo_eq _ _ (by rw [traceCtx_here]; exact h), e]
  exact ⟨_, rfl, traceCtx_goneTo _ _ _ _ _ _ _ _, fun hu => by rw [traceCtx_off _ _ _ _ _ _ hu]⟩

end Sys2Proof.Machine
end

