-- ==== Sys2Proof/Laws/Storage.lean ====
section
/-! SUPPORT. What the shared operations do to storage: those of an issue touch none while nothing is traced, and a write of
bytes keeps every memory in its canonical form. -/
namespace Sys2Proof.Machine
open Sys2Proof.Safety

/-! ### Nothing is traced -/

/-- No partition records a trace (R86). -/
def NoTrace (s : State) : Prop := ∀ p, (s.part p).trctl = 0

theorem trace_off (s : State) (p cls typ ctx core v : Nat) (h : NoTrace s) : trace s p cls typ ctx core v = s := by
  unfold trace
  simp [h p]

theorem traceCtx_none (s : State) (cls typ core ctx v : Nat) (h : NoTrace s) : traceCtx s cls typ core ctx v = s := by
  unfold traceCtx
  split
  · exact trace_off _ _ _ _ _ _ _ h
  · rfl

theorem traceTiming_none (s : State) (core ctx code : Nat) (h : NoTrace s) : traceTiming s core ctx code = s :=
  traceCtx_none _ _ _ _ _ _ h

theorem traceNode_none (s : State) (p typ : Nat) (id : DWord) (h : NoTrace s) : traceNode s p typ id = s := trace_off _ _ _ _ _ _ _ h

/-! ### Storage stands still -/

/-- No byte of memory, no holding copy, no path, no poison and no partition's trace control differs. -/
structure Still (s t : State) : Prop where
  mem : t.mem = s.mem
  dies : t.dies = s.dies
  paths : t.paths = s.paths
  poison : t.poison = s.poison
  trctl : ∀ p, (t.part p).trctl = (s.part p).trctl

theorem Still.refl (s : State) : Still s s := ⟨rfl, rfl, rfl, rfl, fun _ => rfl⟩

theorem Still.trans {s t u : State} (h : Still s t) (g : Still t u) : Still s u :=
  ⟨g.mem.trans h.mem, g.dies.trans h.dies, g.paths.trans h.paths, g.poison.trans h.poison, fun p => (g.trctl p).trans (h.trctl p)⟩

theorem Still.noTrace {s t : State} (h : Still s t) (n : NoTrace s) : NoTrace t := fun p => (h.trctl p).trans (n p)

/-- States whose storage and partitions are equal. -/
theorem Still.of_eq {s t : State} (h : t.mem = s.mem) (d : t.dies = s.dies) (q : t.paths = s.paths) (k : t.poison = s.poison)
    (p : t.parts = s.parts) : Still s t := ⟨h, d, q, k, fun j => by simp [State.part, p]⟩

theorem Still.ite {c : Prop} [Decidable c] {s a b : State} (h : Still s a) (g : Still s b) : Still s (if c then a else b) := by
  split
  · exact h
  · exact g

theorem Still.foldl {α : Type} (f : State → α → State) (h : ∀ s a, Still s (f s a)) (l : List α) (s : State) : Still s (l.foldl f s) := by
  induction l generalizing s with
  | nil => exact Still.refl s
  | cons a r ih => exact (h s a).trans (ih (f s a))

/-- As `Still.foldl`, where a step needs that nothing is traced. -/
theorem Still.foldl_noTrace {α : Type} (f : State → α → State) (h : ∀ s a, NoTrace s → Still s (f s a)) (l : List α) (s : State)
    (n : NoTrace s) : Still s (l.foldl f s) := by
  induction l generalizing s with
  | nil => exact Still.refl s
  | cons a r ih => exact (h s a n).trans (ih (f s a) ((h s a n).noTrace n))

theorem still_modCore (s : State) (i : Nat) (f : Core → Core) : Still s (s.modCore i f) := Still.of_eq rfl rfl rfl rfl rfl
theorem still_modMe (s : State) (f : Core → Core) : Still s (s.modMe f) := still_modCore _ _ _
theorem still_modCtx (s : State) (i k : Nat) (f : Context → Context) : Still s (s.modCtx i k f) := Still.of_eq rfl rfl rfl rfl rfl
theorem still_modHere (s : State) (f : Context → Context) : Still s (s.modHere f) := still_modCtx _ _ _ _
theorem still_modChan (s : State) (ch : Nat) (f : Channel → Channel) : Still s (s.modChan ch f) := Still.of_eq rfl rfl rfl rfl rfl
theorem still_modCluster (s : State) (k : Nat) (f : Cluster → Cluster) : Still s (s.modCluster k f) := Still.of_eq rfl rfl rfl rfl rfl

theorem still_modPart (s : State) (p : Nat) (f : Partition → Partition) (h : ∀ q, (f q).trctl = q.trctl) : Still s (s.modPart p f) := by
  refine ⟨rfl, rfl, rfl, rfl, fun j => ?_⟩
  by_cases e : j = p
  · subst e
    rw [State.part_modPart_same, h]
  · rw [State.part_modPart_ne _ _ e]

/-! ### Freezing and taking a fault (R268, R269) -/

theorem still_cancelOne (s : State) (ch : Nat) (mark : Bool) (e : CtEntry) : Still s (cancelOne s ch mark e) := by
  unfold cancelOne
  dsimp only
  split
  · exact Still.refl s
  · exact still_modCtx _ _ _ _

theorem still_cancelIf (s : State) (sel : CtEntry → Bool) (mark : Bool) (ch : Nat) : Still s (cancelIf s sel mark ch) := by
  refine (Still.foldl _ (fun s e => ?_) _ s).trans (still_modChan _ _ _)
  split
  · exact still_cancelOne _ _ _ _
  · exact Still.refl s

theorem still_cancelEntries (s : State) (sel : CtEntry → Bool) (mark : Bool) : Still s (cancelEntries s sel mark) :=
  Still.foldl _ (fun s ch => still_cancelIf s sel mark ch) _ s

theorem still_dropEntries (s : State) (core ctx : Nat) : Still s (dropEntries s core ctx) :=
  (still_cancelEntries s _ _).trans (Still.foldl _ (fun s ch => still_modChan s ch _) _ _)

theorem still_withdrawWaits (s : State) (core ctx : Nat) : Still s (withdrawWaits s core ctx) := Still.of_eq rfl rfl rfl rfl rfl

theorem still_endFollow (s : State) (core cause : Nat) (keep : Bool) : Still s (endFollow s core cause keep) := by
  unfold endFollow
  dsimp only
  exact (Still.ite (Still.of_eq rfl rfl rfl rfl rfl : Still s (leaveLeader s core)) (Still.refl s)).trans (still_modCore _ _ _)

theorem still_missFollow (s : State) (core : Nat) (h : NoTrace s) : Still s (missFollow s core) := by
  unfold missFollow
  rw [traceTiming_none _ _ _ _ h, ite_self]
  exact (still_modCtx _ _ _ _).trans (still_endFollow _ _ _ _)

theorem still_leaderFault (s : State) (core : Nat) (h : NoTrace s) : Still s (leaderFault s core) := by
  unfold leaderFault
  dsimp only
  have a : Still s ((followersOf s core).foldl (fun s j => endFollow s j 4 true) s) :=
    Still.foldl _ (fun s j => still_endFollow s j 4 true) _ s
  exact a.trans (Still.ite (Still.foldl_noTrace _ (fun s i h => still_missFollow s i h) _ _ (a.noTrace h)) (Still.refl _))

theorem still_recallMessages (s : State) (core : Nat) : Still s (recallMessages s core) := Still.of_eq rfl rfl rfl rfl rfl

theorem still_stopCore (s : State) (core : Nat) (eng : Bool) : Still s (stopCore s core eng) := by
  unfold stopCore
  dsimp only
  exact (((still_modCore s core _).trans ((still_cancelEntries _ _ _).trans (still_recallMessages _ _))).trans (Still.ite (still_endFollow _ _ _ _) (Still.refl _))).trans
    (Still.foldl _ (fun s k => (still_withdrawWaits s core k).trans (still_modCtx _ _ _ _)) _ _)

theorem still_freezeCore (s : State) (core ctx : Nat) (eng : Bool) (h : NoTrace s) : Still s (freezeCore s core ctx eng) := by
  unfold freezeCore
  rw [traceTiming_none _ _ _ _ h]
  exact still_stopCore s core eng

theorem still_postFault (s : State) (core : Nat) (k : Packet) : Still s (postFault s core k) := by
  unfold postFault
  dsimp only
  split
  · exact (still_modCore _ _ _).trans (still_modPart _ _ _ (fun _ => rfl))
  · exact still_modCore _ _ _

theorem still_takeFaultAt (s : State) (core ctx : Nat) (f : Flt) (w : BitVec 32) (h : NoTrace s) : Still s (takeFaultAt s core ctx f w) := by
  unfold takeFaultAt
  have a : Still s (if ctx = 0 then leaderFault s core else s) := by
    split
    · exact still_leaderFault _ _ h
    · exact Still.refl s
  exact ((a.trans (still_freezeCore _ core ctx true (a.noTrace h))).trans (still_modCtx _ _ _ _)).trans (still_postFault _ _ _)

theorem still_takeFault (s : State) (f : Flt) (h : NoTrace s) : Still s (takeFault s f) := still_takeFaultAt _ _ _ _ _ h

/-! ### Retiring and waiting -/

theorem still_retireAt (s : State) (core ctx : Nat) (pc : DWord) (h : NoTrace s) : Still s (retireAt s core ctx pc) := by
  unfold retireAt
  rw [traceTiming_none _ _ _ _ h]
  simp only [ite_self]
  exact still_modCore _ _ _

theorem still_sleepAt (s : State) (core ctx : Nat) (w : Sleep) (h : NoTrace s) : Still s (sleepAt s core ctx w) := by
  unfold sleepAt
  simp only [traceTiming_none _ _ _ _ h, ite_self]
  exact still_modCtx _ _ _ _

/-- What a result is, where it is a next state. -/
def Result.Keeps (r : Result) (s : State) : Prop := ∀ t, r = .next t → Still s t

theorem keeps_next {s t : State} (h : Still s t) : Result.Keeps (.next t) s := by
  intro u e
  cases e
  exact h

theorem keeps_raise (s : State) (f : Flt) (h : NoTrace s) : Result.Keeps (raise s f) s := keeps_next (still_takeFault s f h)

theorem keeps_sleepIn (s : State) (w : Sleep) (h : NoTrace s) : Result.Keeps (sleepIn s w) s := keeps_next (still_sleepAt _ _ _ _ h)

theorem keeps_retire {s u : State} (len : Nat) (k : Still s u) (h : NoTrace s) : Result.Keeps (retire u len) s :=
  keeps_next (k.trans (still_retireAt _ _ _ _ (k.noTrace h)))

theorem keeps_retireReg (s : State) (len : Nat) (rd : Reg) (v : DWord) (h : NoTrace s) : Result.Keeps (retireReg s len rd v) s :=
  keeps_retire _ (still_modHere _ _) h

theorem keeps_jumpTo {s u : State} (t : Int) (k : Still s u) (h : NoTrace s) : Result.Keeps (jumpTo u t) s := by
  unfold jumpTo
  split
  · exact keeps_next (k.trans (still_takeFault u _ (k.noTrace h)))
  · rw [traceCtx_none _ _ _ _ _ _ (k.noTrace h)]
    exact keeps_next (k.trans (still_retireAt _ _ _ _ (k.noTrace h)))

/-! ### Accesses and commands as they issue (R210, R332) -/

theorem still_pushAccess (s : State) (e : Access) : Still s (pushAccess s e) := Still.of_eq rfl rfl rfl rfl rfl

theorem still_markBusy (s : State) (d : LoadDst) : Still s (markBusy s d) := still_modHere _ _

/-- A load enters its queue, waits, or faults; it touches no storage. -/
theorem keeps_loadAt (s : State) (len a w : Nat) (dst : LoadDst) (acq : Bool) (scope : Nat) (hint : BitVec 2) (h : NoTrace s) :
    Result.Keeps (loadAt s len a w dst acq scope hint) s := by
  unfold loadAt
  split
  · exact keeps_raise _ _ h
  · split
    · exact keeps_raise _ _ h
    · split
      · exact keeps_sleepIn _ _ h
      · exact keeps_retire _ ((still_markBusy _ _).trans (still_pushAccess _ _)) h

/-- A store enters its queue, waits, or faults; it touches no storage. -/
theorem keeps_storeAt (s : State) (len a w data : Nat) (rel : Bool) (scope : Nat) (hint : BitVec 2) (h : NoTrace s) :
    Result.Keeps (storeAt s len a w data rel scope hint) s := by
  unfold storeAt
  split
  · exact keeps_raise _ _ h
  · split
    · exact keeps_raise _ _ h
    · split
      · exact keeps_sleepIn _ _ h
      · exact keeps_retire _ (still_pushAccess _ _) h

/-- An atomic enters its queue, waits, or faults; it touches no storage. -/
theorem keeps_atomicAt (s : State) (ra rb : Reg) (f : AtomicForm) (h : NoTrace s) : Result.Keeps (atomicAt s ra rb f) s := by
  unfold atomicAt
  dsimp only
  split
  · exact keeps_raise _ _ h
  · split
    · split
      · exact keeps_raise _ _ h
      · split
        · exact keeps_sleepIn _ _ h
        · exact keeps_next ((still_pushAccess _ _).trans (still_sleepAt _ _ _ _ ((still_pushAccess _ _).noTrace h)))
    · split
      · exact keeps_raise _ _ h
      · split
        · exact keeps_sleepIn _ _ h
        · refine keeps_retire _ (Still.trans ?_ (still_pushAccess _ _)) h
          split
          · exact still_markBusy _ _
          · exact Still.refl s

/-- A command enters its engine's queue, or stalls. -/
theorem keeps_enqueue (s : State) (e : Engine) (j : Job) (len : Nat) (h : NoTrace s) : Result.Keeps (enqueue s e j len) s := by
  unfold enqueue
  split
  · exact keeps_sleepIn _ _ h
  · exact keeps_retire _ (Still.of_eq rfl rfl rfl rfl rfl) h

/-! ### Tags and events -/

theorem still_wfeEvent (s : State) (sel : Nat → Bool) : Still s (wfeEvent s sel) := Still.of_eq rfl rfl rfl rfl rfl
theorem still_mergeFlags (s : State) (core ctx : Nat) (f : BitVec 6) : Still s (mergeFlags s core ctx f) := still_modCtx _ _ _ _
theorem still_takeTag (s : State) (core t : Nat) : Still s (takeTag s core t) := Still.of_eq rfl rfl rfl rfl rfl
theorem still_endTag (s : State) (core t : Nat) (err : Bool) : Still s (endTag s core t err) :=
  Still.of_eq rfl rfl rfl rfl rfl

theorem still_sendNotice (s : State) (p : Nat) (k : Packet) : Still s (sendNotice s p k) := still_modPart _ _ _ (fun _ => rfl)

theorem still_coreNotice (s : State) (core ctx origin : Nat) (f : Flt) (pc : DWord) (w : BitVec 32) :
    Still s (coreNotice s core ctx origin f pc w) := by
  unfold coreNotice
  split
  · exact still_sendNotice _ _ _
  · exact Still.refl s

/-! ### Writes keep memory canonical -/

theorem writePhys_wf (s : State) (pa : Nat) (bs : List Byte) (h : Memory.wf s.mem = true) : Memory.wf (writePhys s pa bs).mem = true := by
  unfold writePhys
  repeat' split
  all_goals first
    | exact h
    | exact Memory.wf_writes _ _ _ h

theorem writePlace_wf (s : State) (pl : Place) (bs : List Byte) (h : Memory.wf s.mem = true) :
    Memory.wf (writePlace s pl bs).mem = true := by
  unfold writePlace
  split
  · exact h
  · exact writePhys_wf _ _ _ h
  · exact h
  · exact h

theorem vput_wf (s : State) (p va : Nat) (bs : List Byte) (h : Memory.wf s.mem = true) : Memory.wf (vput s p va bs).mem = true := by
  induction bs generalizing s va with
  | nil => exact h
  | cons b r ih =>
    unfold vput
    apply ih
    split
    · exact writePlace_wf _ _ _ h
    · exact h

theorem vwrite_wf (s t : State) (p va : Nat) (bs : List Byte) (e : vwrite s p va bs = .ok t) (h : Memory.wf s.mem = true) :
    Memory.wf t.mem = true := by
  unfold vwrite at e
  split at e
  · simp at e
  · cases e
    exact vput_wf _ _ _ _ h

theorem trace_wf (s : State) (p cls typ ctx core v : Nat) (h : Memory.wf s.mem = true) :
    Memory.wf (trace s p cls typ ctx core v).mem = true := by
  unfold trace
  simp only []
  repeat' split
  all_goals first
    | exact h
    | (rename_i t e; exact (vwrite_wf _ t _ _ _ e h : Memory.wf t.mem = true))

theorem traceTiming_wf (s : State) (core ctx code : Nat) (h : Memory.wf s.mem = true) : Memory.wf (traceTiming s core ctx code).mem = true := by
  unfold traceTiming traceAt traceCtx
  split
  · exact trace_wf _ _ _ _ _ _ _ h
  · exact h

theorem missFollow_wf (s : State) (core : Nat) (h : Memory.wf s.mem = true) : Memory.wf (missFollow s core).mem = true := by
  unfold missFollow
  dsimp only
  rw [(still_endFollow _ _ _ _).mem, (still_modCtx _ _ _ _).mem]
  split
  · exact traceTiming_wf _ _ _ _ h
  · exact h

theorem leaderFault_wf (s : State) (core : Nat) (h : Memory.wf s.mem = true) : Memory.wf (leaderFault s core).mem = true := by
  have k : ∀ (l : List Nat) (t : State), Memory.wf t.mem = true → Memory.wf (l.foldl missFollow t).mem = true := by
    intro l
    induction l with
    | nil => exact fun t h => h
    | cons i r ih => exact fun t h => ih _ (missFollow_wf t i h)
  unfold leaderFault
  dsimp only
  have a : Memory.wf ((followersOf s core).foldl (fun s j => endFollow s j 4 true) s).mem = true := by
    rw [(Still.foldl _ (fun s j => still_endFollow s j 4 true) _ s).mem]
    exact h
  split
  · exact k _ _ a
  · exact a

/-- A fault writes no memory but the trace's records. -/
theorem takeFaultAt_wf (s : State) (core ctx : Nat) (f : Flt) (w : BitVec 32) (h : Memory.wf s.mem = true) :
    Memory.wf (takeFaultAt s core ctx f w).mem = true := by
  unfold takeFaultAt freezeCore
  dsimp only
  rw [(still_postFault _ _ _).mem, (still_modCtx _ _ _ _).mem, (still_stopCore _ _ _).mem]
  apply traceTiming_wf
  split
  · exact leaderFault_wf _ _ h
  · exact h

theorem retireAt_wf (s : State) (core ctx : Nat) (pc : DWord) (h : Memory.wf s.mem = true) : Memory.wf (retireAt s core ctx pc).mem = true := by
  unfold retireAt
  dsimp only
  rw [(still_modCore _ _ _).mem]
  split
  · exact traceTiming_wf _ _ _ _ h
  · exact h

theorem sleepAt_wf (s : State) (core ctx : Nat) (w : Sleep) (h : Memory.wf s.mem = true) : Memory.wf (sleepAt s core ctx w).mem = true := by
  unfold sleepAt
  dsimp only
  rw [(still_modCtx _ _ _ _).mem]
  have a : Memory.wf (if (s.ctx core ctx).sleep.asleep && !w.asleep then traceTiming s core ctx 3 else s).mem = true := by
    split
    · exact traceTiming_wf _ _ _ _ h
    · exact h
  split
  · exact traceTiming_wf _ _ _ _ a
  · split
    · exact traceTiming_wf _ _ _ _ a
    · exact a

end Sys2Proof.Machine
end

