-- ==== Sys2Proof/Laws/Issue.lean ====
section
/-! SUPPORT. What a load, a store, an atomic and an engine command can do when they issue: everything, with the guards. -/
namespace Sys2Proof.Machine

theorem loadAt_cases (s : State) (len a w : Nat) (dst : LoadDst) (acq : Bool) (scope : Nat) (hint : BitVec 2) :
    (∃ f, (checkAcc s s.cur.1 dst.cls a w = .error f ∨ stopBefore s s.cur.1 a w false = some f) ∧
      loadAt s len a w dst acq scope hint = raise s f) ∨
    (∃ t, checkAcc s s.cur.1 dst.cls a w = .ok t ∧ stopBefore s s.cur.1 a w false = none ∧
      (footHolds s s.cur.1 false t.place w = true ∧ loadAt s len a w dst acq scope hint = sleepIn s .drain ∨
       footHolds s s.cur.1 false t.place w = false ∧ loadAt s len a w dst acq scope hint =
         retire (pushAccess (markBusy s dst) ((entry s t (.load dst) a w acq false scope).hinted hint)) len)) := by
  unfold loadAt
  cases h : checkAcc s s.cur.1 dst.cls a w with
  | error f => exact .inl ⟨f, .inl rfl, rfl⟩
  | ok t =>
    cases g : stopBefore s s.cur.1 a w false with
    | some f => exact .inl ⟨f, .inr rfl, rfl⟩
    | none =>
      refine .inr ⟨t, rfl, rfl, ?_⟩
      cases k : footHolds s s.cur.1 false t.place w
      · exact .inr ⟨rfl, by simp [k]⟩
      · exact .inl ⟨rfl, by simp [k]⟩

theorem storeAt_cases (s : State) (len a w data : Nat) (rel : Bool) (scope : Nat) (hint : BitVec 2) :
    (∃ f, (checkAcc s s.cur.1 .store a w = .error f ∨ stopBefore s s.cur.1 a w true = some f) ∧
      storeAt s len a w data rel scope hint = raise s f) ∨
    (∃ t, checkAcc s s.cur.1 .store a w = .ok t ∧ stopBefore s s.cur.1 a w true = none ∧
      (footHolds s s.cur.1 true t.place w = true ∧ storeAt s len a w data rel scope hint = sleepIn s .drain ∨
       footHolds s s.cur.1 true t.place w = false ∧ storeAt s len a w data rel scope hint =
         retire (pushAccess s ((entry s t (.store data) a w false rel scope).hinted hint)) len)) := by
  unfold storeAt
  cases h : checkAcc s s.cur.1 .store a w with
  | error f => exact .inl ⟨f, .inl rfl, rfl⟩
  | ok t =>
    cases g : stopBefore s s.cur.1 a w true with
    | some f => exact .inl ⟨f, .inr rfl, rfl⟩
    | none =>
      refine .inr ⟨t, rfl, rfl, ?_⟩
      cases k : footHolds s s.cur.1 true t.place w
      · exact .inr ⟨rfl, by simp [k]⟩
      · exact .inl ⟨rfl, by simp [k]⟩

theorem enqueue_cases (s : State) (e : Engine) (j : Job) (len : Nat) :
    s.me.queueFull e = true ∧ enqueue s e j len = sleepIn s .stall ∨
    s.me.queueFull e = false ∧ enqueue s e j len = retire (appendJob s s.cur.1 e j) len := by
  unfold enqueue
  cases h : s.me.queueFull e <;> simp

/-- Issue answers a next state, whatever the access meets. -/
theorem raise_next (s : State) (f : Flt) : ∃ t, raise s f = .next t := ⟨_, rfl⟩
theorem sleepIn_next (s : State) (w : Sleep) : ∃ t, sleepIn s w = .next t := ⟨_, rfl⟩
theorem retire_next (s : State) (len : Nat) : ∃ t, retire s len = .next t := ⟨_, rfl⟩
theorem jumpTo_next (s : State) (t : Int) : ∃ u, jumpTo s t = .next u := by
  unfold jumpTo
  split
  · exact ⟨_, rfl⟩
  · exact ⟨_, rfl⟩

theorem loadAt_next (s : State) (len a w : Nat) (dst : LoadDst) (acq : Bool) (scope : Nat) (hint : BitVec 2) :
    ∃ t, loadAt s len a w dst acq scope hint = .next t := by
  obtain ⟨f, -, e⟩ | ⟨t, -, -, ⟨-, e⟩ | ⟨-, e⟩⟩ := loadAt_cases s len a w dst acq scope hint <;> exact ⟨_, e⟩

theorem storeAt_next (s : State) (len a w data : Nat) (rel : Bool) (scope : Nat) (hint : BitVec 2) : ∃ t, storeAt s len a w data rel scope hint = .next t := by
  obtain ⟨f, -, e⟩ | ⟨t, -, -, ⟨-, e⟩ | ⟨-, e⟩⟩ := storeAt_cases s len a w data rel scope hint <;> exact ⟨_, e⟩

theorem enqueue_next (s : State) (e : Engine) (j : Job) (len : Nat) : ∃ t, enqueue s e j len = .next t := by
  obtain ⟨-, h⟩ | ⟨-, h⟩ := enqueue_cases s e j len <;> exact ⟨_, h⟩

theorem atomicAt_next (s : State) (ra rb : Reg) (f : AtomicForm) : ∃ t, atomicAt s ra rb f = .next t := by
  unfold atomicAt
  dsimp only
  repeat' split
  all_goals exact ⟨_, rfl⟩

end Sys2Proof.Machine
end

