-- ==== Sys2Proof/Laws/PerInstr.lean ====
section
/-! SUPPORT. The families of LAWS.json: `WordShape`, one lemma per constructor of `Instr`. -/
namespace Sys2Proof.Laws

/-! ### WordShape (R288): a word of two bytes is even and one of four bytes is odd; an event has no word -/

def WordShape.Ok (n w : Nat) : Prop := (n = 2 ∧ w < 2 ^ 16 ∧ w % 2 = 0) ∨ (n = 4 ∧ w < 2 ^ 32 ∧ w % 2 = 1)

def WordShape.Statement (i : Instr) : Prop := ∀ n w, encode i = some (n, w) → WordShape.Ok n w

theorem WordShape.of_eq {i : Instr} {m v : Nat} (h : encode i = some (m, v)) (k : WordShape.Ok m v) : WordShape.Statement i := by
  intro n w e
  rw [h] at e
  cases e
  exact k

theorem WordShape.of_none {i : Instr} (h : encode i = none) : WordShape.Statement i := by
  intro n w e
  rw [h] at e
  cases e
theorem bn_le (b : Bool) : bn b ≤ 1 := by cases b <;> decide

theorem encMask_le : ∀ m : Option (BitVec 3), encMask m ≤ 960
  | none => by simp [encMask]
  | some m => by have := m.isLt; simp only [encMask]; omega

theorem encX_le : ∀ x : Option (BitVec 3), encX x ≤ 8
  | none => by simp [encX]
  | some x => by have := x.isLt; simp only [encX]; omega

theorem encFLane_lt (t : FLane) : encFLane t < 64 := by cases t <;> decide

theorem encILane_lt (t : ILane) : encILane t < 64 := by cases t <;> decide

theorem WordShape.ofR {m f b a d : Nat} (hm : m < 64) (hf : f < 1024) (hb : b < 32) (ha : a < 32) (hd : d < 32) :
    WordShape.Ok 4 (encR m f b a d) := .inr ⟨rfl, by simp only [encR]; omega, by simp only [encR]; omega⟩

theorem WordShape.ofI {m i a d : Nat} (hm : m < 64) (hi : i < 32768) (ha : a < 32) (hd : d < 32) : WordShape.Ok 4 (encI m i a d) :=
  .inr ⟨rfl, by simp only [encI]; omega, by simp only [encI]; omega⟩

theorem WordShape.ofE {m x f b a d : Nat} (hm : m < 64) (hx : x < 16) (hf : f < 64) (hb : b < 32) (ha : a < 32) (hd : d < 32) :
    WordShape.Ok 4 (encE m x f b a d) := .inr ⟨rfl, by simp only [encE]; omega, by simp only [encE]; omega⟩

theorem WordShape.ofJ {m o : Nat} (hm : m < 64) (ho : o < 2 ^ 25) : WordShape.Ok 4 (encJ m o) :=
  .inr ⟨rfl, by simp only [encJ]; omega, by simp only [encJ]; omega⟩

theorem WordShape.ofU {m i d : Nat} (hm : m < 64) (hi : i < 2 ^ 20) (hd : d < 32) : WordShape.Ok 4 (encU m i d) :=
  .inr ⟨rfl, by simp only [encU]; omega, by simp only [encU]; omega⟩

theorem WordShape.ofC {o f : Nat} (ho : o < 16) (hf : f < 2048) : WordShape.Ok 2 (encC o f) :=
  .inl ⟨rfl, by simp only [encC]; omega, by simp only [encC]; omega⟩

theorem WordShape.add (rd ra rb : Reg) : WordShape.Statement (.add rd ra rb) := by
  refine WordShape.of_eq rfl ?_
  have h0 := rd.isLt
  have h1 := ra.isLt
  have h2 := rb.isLt
  exact WordShape.ofR (by omega) (by omega) (by omega) (by omega) (by omega)
theorem WordShape.sub (rd ra rb : Reg) : WordShape.Statement (.sub rd ra rb) := by
  refine WordShape.of_eq rfl ?_
  have h0 := rd.isLt
  have h1 := ra.isLt
  have h2 := rb.isLt
  exact WordShape.ofR (by omega) (by omega) (by omega) (by omega) (by omega)
theorem WordShape.and (rd ra rb : Reg) : WordShape.Statement (.and rd ra rb) := by
  refine WordShape.of_eq rfl ?_
  have h0 := rd.isLt
  have h1 := ra.isLt
  have h2 := rb.isLt
  exact WordShape.ofR (by omega) (by omega) (by omega) (by omega) (by omega)
theorem WordShape.or (rd ra rb : Reg) : WordShape.Statement (.or rd ra rb) := by
  refine WordShape.of_eq rfl ?_
  have h0 := rd.isLt
  have h1 := ra.isLt
  have h2 := rb.isLt
  exact WordShape.ofR (by omega) (by omega) (by omega) (by omega) (by omega)
theorem WordShape.xor (rd ra rb : Reg) : WordShape.Statement (.xor rd ra rb) := by
  refine WordShape.of_eq rfl ?_
  have h0 := rd.isLt
  have h1 := ra.isLt
  have h2 := rb.isLt
  exact WordShape.ofR (by omega) (by omega) (by omega) (by omega) (by omega)
theorem WordShape.sll (rd ra rb : Reg) : WordShape.Statement (.sll rd ra rb) := by
  refine WordShape.of_eq rfl ?_
  have h0 := rd.isLt
  have h1 := ra.isLt
  have h2 := rb.isLt
  exact WordShape.ofR (by omega) (by omega) (by omega) (by omega) (by omega)
theorem WordShape.srl (rd ra rb : Reg) : WordShape.Statement (.srl rd ra rb) := by
  refine WordShape.of_eq rfl ?_
  have h0 := rd.isLt
  have h1 := ra.isLt
  have h2 := rb.isLt
  exact WordShape.ofR (by omega) (by omega) (by omega) (by omega) (by omega)
theorem WordShape.sra (rd ra rb : Reg) : WordShape.Statement (.sra rd ra rb) := by
  refine WordShape.of_eq rfl ?_
  have h0 := rd.isLt
  have h1 := ra.isLt
  have h2 := rb.isLt
  exact WordShape.ofR (by omega) (by omega) (by omega) (by omega) (by omega)
theorem WordShape.slt (rd ra rb : Reg) : WordShape.Statement (.slt rd ra rb) := by
  refine WordShape.of_eq rfl ?_
  have h0 := rd.isLt
  have h1 := ra.isLt
  have h2 := rb.isLt
  exact WordShape.ofR (by omega) (by omega) (by omega) (by omega) (by omega)
theorem WordShape.sltu (rd ra rb : Reg) : WordShape.Statement (.sltu rd ra rb) := by
  refine WordShape.of_eq rfl ?_
  have h0 := rd.isLt
  have h1 := ra.isLt
  have h2 := rb.isLt
  exact WordShape.ofR (by omega) (by omega) (by omega) (by omega) (by omega)
theorem WordShape.mul (rd ra rb : Reg) : WordShape.Statement (.mul rd ra rb) := by
  refine WordShape.of_eq rfl ?_
  have h0 := rd.isLt
  have h1 := ra.isLt
  have h2 := rb.isLt
  exact WordShape.ofR (by omega) (by omega) (by omega) (by omega) (by omega)
theorem WordShape.mulh (rd ra rb : Reg) : WordShape.Statement (.mulh rd ra rb) := by
  refine WordShape.of_eq rfl ?_
  have h0 := rd.isLt
  have h1 := ra.isLt
  have h2 := rb.isLt
  exact WordShape.ofR (by omega) (by omega) (by omega) (by omega) (by omega)
theorem WordShape.mulhN (rd ra rb : Reg) : WordShape.Statement (.mulhN rd ra rb) := by
  refine WordShape.of_eq rfl ?_
  have h0 := rd.isLt
  have h1 := ra.isLt
  have h2 := rb.isLt
  exact WordShape.ofR (by omega) (by omega) (by omega) (by omega) (by omega)
theorem WordShape.div (rd ra rb : Reg) : WordShape.Statement (.div rd ra rb) := by
  refine WordShape.of_eq rfl ?_
  have h0 := rd.isLt
  have h1 := ra.isLt
  have h2 := rb.isLt
  exact WordShape.ofR (by omega) (by omega) (by omega) (by omega) (by omega)
theorem WordShape.divN (rd ra rb : Reg) : WordShape.Statement (.divN rd ra rb) := by
  refine WordShape.of_eq rfl ?_
  have h0 := rd.isLt
  have h1 := ra.isLt
  have h2 := rb.isLt
  exact WordShape.ofR (by omega) (by omega) (by omega) (by omega) (by omega)
theorem WordShape.rem (rd ra rb : Reg) : WordShape.Statement (.rem rd ra rb) := by
  refine WordShape.of_eq rfl ?_
  have h0 := rd.isLt
  have h1 := ra.isLt
  have h2 := rb.isLt
  exact WordShape.ofR (by omega) (by omega) (by omega) (by omega) (by omega)
theorem WordShape.remN (rd ra rb : Reg) : WordShape.Statement (.remN rd ra rb) := by
  refine WordShape.of_eq rfl ?_
  have h0 := rd.isLt
  have h1 := ra.isLt
  have h2 := rb.isLt
  exact WordShape.ofR (by omega) (by omega) (by omega) (by omega) (by omega)
theorem WordShape.min (rd ra rb : Reg) : WordShape.Statement (.min rd ra rb) := by
  refine WordShape.of_eq rfl ?_
  have h0 := rd.isLt
  have h1 := ra.isLt
  have h2 := rb.isLt
  exact WordShape.ofR (by omega) (by omega) (by omega) (by omega) (by omega)
theorem WordShape.max (rd ra rb : Reg) : WordShape.Statement (.max rd ra rb) := by
  refine WordShape.of_eq rfl ?_
  have h0 := rd.isLt
  have h1 := ra.isLt
  have h2 := rb.isLt
  exact WordShape.ofR (by omega) (by omega) (by omega) (by omega) (by omega)
theorem WordShape.minN (rd ra rb : Reg) : WordShape.Statement (.minN rd ra rb) := by
  refine WordShape.of_eq rfl ?_
  have h0 := rd.isLt
  have h1 := ra.isLt
  have h2 := rb.isLt
  exact WordShape.ofR (by omega) (by omega) (by omega) (by omega) (by omega)
theorem WordShape.maxN (rd ra rb : Reg) : WordShape.Statement (.maxN rd ra rb) := by
  refine WordShape.of_eq rfl ?_
  have h0 := rd.isLt
  have h1 := ra.isLt
  have h2 := rb.isLt
  exact WordShape.ofR (by omega) (by omega) (by omega) (by omega) (by omega)
theorem WordShape.addi (rd ra : Reg) (imm : BitVec 15) : WordShape.Statement (.addi rd ra imm) := by
  refine WordShape.of_eq rfl ?_
  have h0 := rd.isLt
  have h1 := ra.isLt
  have h2 := imm.isLt
  exact WordShape.ofI (by omega) (by omega) (by omega) (by omega)
theorem WordShape.andi (rd ra : Reg) (imm : BitVec 15) : WordShape.Statement (.andi rd ra imm) := by
  refine WordShape.of_eq rfl ?_
  have h0 := rd.isLt
  have h1 := ra.isLt
  have h2 := imm.isLt
  exact WordShape.ofI (by omega) (by omega) (by omega) (by omega)
theorem WordShape.ori (rd ra : Reg) (imm : BitVec 15) : WordShape.Statement (.ori rd ra imm) := by
  refine WordShape.of_eq rfl ?_
  have h0 := rd.isLt
  have h1 := ra.isLt
  have h2 := imm.isLt
  exact WordShape.ofI (by omega) (by omega) (by omega) (by omega)
theorem WordShape.xori (rd ra : Reg) (imm : BitVec 15) : WordShape.Statement (.xori rd ra imm) := by
  refine WordShape.of_eq rfl ?_
  have h0 := rd.isLt
  have h1 := ra.isLt
  have h2 := imm.isLt
  exact WordShape.ofI (by omega) (by omega) (by omega) (by omega)
theorem WordShape.slli (rd ra : Reg) (sh : BitVec 6) : WordShape.Statement (.slli rd ra sh) := by
  refine WordShape.of_eq rfl ?_
  have h0 := rd.isLt
  have h1 := ra.isLt
  have h2 := sh.isLt
  exact WordShape.ofI (by omega) (by omega) (by omega) (by omega)
theorem WordShape.srli (rd ra : Reg) (sh : BitVec 6) : WordShape.Statement (.srli rd ra sh) := by
  refine WordShape.of_eq rfl ?_
  have h0 := rd.isLt
  have h1 := ra.isLt
  have h2 := sh.isLt
  exact WordShape.ofI (by omega) (by omega) (by omega) (by omega)
theorem WordShape.srai (rd ra : Reg) (sh : BitVec 6) : WordShape.Statement (.srai rd ra sh) := by
  refine WordShape.of_eq rfl ?_
  have h0 := rd.isLt
  have h1 := ra.isLt
  have h2 := sh.isLt
  exact WordShape.ofI (by omega) (by omega) (by omega) (by omega)
theorem WordShape.slti (rd ra : Reg) (imm : BitVec 12) : WordShape.Statement (.slti rd ra imm) := by
  refine WordShape.of_eq rfl ?_
  have h0 := rd.isLt
  have h1 := ra.isLt
  have h2 := imm.isLt
  exact WordShape.ofI (by omega) (by omega) (by omega) (by omega)
theorem WordShape.sltiu (rd ra : Reg) (imm : BitVec 12) : WordShape.Statement (.sltiu rd ra imm) := by
  refine WordShape.of_eq rfl ?_
  have h0 := rd.isLt
  have h1 := ra.isLt
  have h2 := imm.isLt
  exact WordShape.ofI (by omega) (by omega) (by omega) (by omega)
theorem WordShape.lui (rd : Reg) (imm : BitVec 20) : WordShape.Statement (.lui rd imm) := by
  refine WordShape.of_eq rfl ?_
  have h0 := rd.isLt
  have h1 := imm.isLt
  exact WordShape.ofU (by omega) (by omega) (by omega)
theorem WordShape.jalr (rd ra : Reg) (imm : BitVec 15) : WordShape.Statement (.jalr rd ra imm) := by
  refine WordShape.of_eq rfl ?_
  have h0 := rd.isLt
  have h1 := ra.isLt
  have h2 := imm.isLt
  exact WordShape.ofI (by omega) (by omega) (by omega) (by omega)
theorem WordShape.beq (ra rb : Reg) (off : BitVec 15) : WordShape.Statement (.beq ra rb off) := by
  refine WordShape.of_eq rfl ?_
  have h0 := ra.isLt
  have h1 := rb.isLt
  have h2 := off.isLt
  exact WordShape.ofI (by omega) (by omega) (by omega) (by omega)
theorem WordShape.bne (ra rb : Reg) (off : BitVec 15) : WordShape.Statement (.bne ra rb off) := by
  refine WordShape.of_eq rfl ?_
  have h0 := ra.isLt
  have h1 := rb.isLt
  have h2 := off.isLt
  exact WordShape.ofI (by omega) (by omega) (by omega) (by omega)
theorem WordShape.blt (ra rb : Reg) (off : BitVec 15) : WordShape.Statement (.blt ra rb off) := by
  refine WordShape.of_eq rfl ?_
  have h0 := ra.isLt
  have h1 := rb.isLt
  have h2 := off.isLt
  exact WordShape.ofI (by omega) (by omega) (by omega) (by omega)
theorem WordShape.bge (ra rb : Reg) (off : BitVec 15) : WordShape.Statement (.bge ra rb off) := by
  refine WordShape.of_eq rfl ?_
  have h0 := ra.isLt
  have h1 := rb.isLt
  have h2 := off.isLt
  exact WordShape.ofI (by omega) (by omega) (by omega) (by omega)
theorem WordShape.bltu (ra rb : Reg) (off : BitVec 15) : WordShape.Statement (.bltu ra rb off) := by
  refine WordShape.of_eq rfl ?_
  have h0 := ra.isLt
  have h1 := rb.isLt
  have h2 := off.isLt
  exact WordShape.ofI (by omega) (by omega) (by omega) (by omega)
theorem WordShape.bgeu (ra rb : Reg) (off : BitVec 15) : WordShape.Statement (.bgeu ra rb off) := by
  refine WordShape.of_eq rfl ?_
  have h0 := ra.isLt
  have h1 := rb.isLt
  have h2 := off.isLt
  exact WordShape.ofI (by omega) (by omega) (by omega) (by omega)
theorem WordShape.j (off : BitVec 25) : WordShape.Statement (.j off) := by
  refine WordShape.of_eq rfl ?_
  have h0 := off.isLt
  exact WordShape.ofJ (by omega) (by omega)
theorem WordShape.jal (off : BitVec 25) : WordShape.Statement (.jal off) := by
  refine WordShape.of_eq rfl ?_
  have h0 := off.isLt
  exact WordShape.ofJ (by omega) (by omega)
theorem WordShape.ld (rd ra : Reg) (off : BitVec 10) (hint : BitVec 2) (w : BitVec 3) : WordShape.Statement (.ld rd ra off hint w) := by
  refine WordShape.of_eq rfl ?_
  have h0 := rd.isLt
  have h1 := ra.isLt
  have h2 := off.isLt
  have h3 := hint.isLt
  have h4 := w.isLt
  exact WordShape.ofI (by omega) (by omega) (by omega) (by omega)
theorem WordShape.st (rd ra : Reg) (off : BitVec 10) (hint : BitVec 2) (w : BitVec 2) : WordShape.Statement (.st rd ra off hint w) := by
  refine WordShape.of_eq rfl ?_
  have h0 := rd.isLt
  have h1 := ra.isLt
  have h2 := off.isLt
  have h3 := hint.isLt
  have h4 := w.isLt
  exact WordShape.ofI (by omega) (by omega) (by omega) (by omega)
theorem WordShape.ldIndexed (rd ra rb : Reg) (acq : Bool) (scope : BitVec 3) (w : BitVec 3) (hint : BitVec 2) : WordShape.Statement (.ldIndexed rd ra rb acq scope w hint) := by
  refine WordShape.of_eq rfl ?_
  have h0 := rd.isLt
  have h1 := ra.isLt
  have h2 := rb.isLt
  have h3 := bn_le acq
  have h4 := scope.isLt
  have h5 := w.isLt
  have h6 := hint.isLt
  exact WordShape.ofR (by omega) (by omega) (by omega) (by omega) (by omega)
theorem WordShape.stIndexed (rd ra rb : Reg) (rel : Bool) (scope : BitVec 3) (w : BitVec 2) (hint : BitVec 2) : WordShape.Statement (.stIndexed rd ra rb rel scope w hint) := by
  refine WordShape.of_eq rfl ?_
  have h0 := rd.isLt
  have h1 := ra.isLt
  have h2 := rb.isLt
  have h3 := bn_le rel
  have h4 := scope.isLt
  have h5 := w.isLt
  have h6 := hint.isLt
  exact WordShape.ofR (by omega) (by omega) (by omega) (by omega) (by omega)
theorem WordShape.ldRingSlot (rd : Reg) (h : BitVec 4) (k : BitVec 4) (off : BitVec 8) (w : BitVec 2) : WordShape.Statement (.ldRingSlot rd h k off w) := by
  refine WordShape.of_eq rfl ?_
  have h0 := rd.isLt
  have h1 := h.isLt
  have h2 := k.isLt
  have h3 := off.isLt
  have h4 := w.isLt
  exact WordShape.ofI (by omega) (by omega) (by omega) (by omega)
theorem WordShape.stRingSlot (rd : Reg) (h : BitVec 4) (k : BitVec 4) (off : BitVec 8) (w : BitVec 2) : WordShape.Statement (.stRingSlot rd h k off w) := by
  refine WordShape.of_eq rfl ?_
  have h0 := rd.isLt
  have h1 := h.isLt
  have h2 := k.isLt
  have h3 := off.isLt
  have h4 := w.isLt
  exact WordShape.ofI (by omega) (by omega) (by omega) (by omega)
theorem WordShape.ldv (vd ra : Reg) (off : BitVec 10) (hint : BitVec 2) : WordShape.Statement (.ldv vd ra off hint) := by
  refine WordShape.of_eq rfl ?_
  have h0 := vd.isLt
  have h1 := ra.isLt
  have h2 := off.isLt
  have h3 := hint.isLt
  exact WordShape.ofI (by omega) (by omega) (by omega) (by omega)
theorem WordShape.stv (vd ra : Reg) (off : BitVec 10) (hint : BitVec 2) : WordShape.Statement (.stv vd ra off hint) := by
  refine WordShape.of_eq rfl ?_
  have h0 := vd.isLt
  have h1 := ra.isLt
  have h2 := off.isLt
  have h3 := hint.isLt
  exact WordShape.ofI (by omega) (by omega) (by omega) (by omega)
theorem WordShape.ldvPair (vd ra : Reg) (off : BitVec 10) (hint : BitVec 2) : WordShape.Statement (.ldvPair vd ra off hint) := by
  refine WordShape.of_eq rfl ?_
  have h0 := vd.isLt
  have h1 := ra.isLt
  have h2 := off.isLt
  have h3 := hint.isLt
  exact WordShape.ofI (by omega) (by omega) (by omega) (by omega)
theorem WordShape.stvPair (vd ra : Reg) (off : BitVec 10) (hint : BitVec 2) : WordShape.Statement (.stvPair vd ra off hint) := by
  refine WordShape.of_eq rfl ?_
  have h0 := vd.isLt
  have h1 := ra.isLt
  have h2 := off.isLt
  have h3 := hint.isLt
  exact WordShape.ofI (by omega) (by omega) (by omega) (by omega)
theorem WordShape.ldt (hi : Bool) (ra : Reg) (off : BitVec 10) (t : Bool) : WordShape.Statement (.ldt hi ra off t) := by
  refine WordShape.of_eq rfl ?_
  have h0 := bn_le hi
  have h1 := ra.isLt
  have h2 := off.isLt
  have h3 := bn_le t
  exact WordShape.ofI (by omega) (by omega) (by omega) (by omega)
theorem WordShape.stt (hi : Bool) (ra : Reg) (off : BitVec 10) (t : Bool) : WordShape.Statement (.stt hi ra off t) := by
  refine WordShape.of_eq rfl ?_
  have h0 := bn_le hi
  have h1 := ra.isLt
  have h2 := off.isLt
  have h3 := bn_le t
  exact WordShape.ofI (by omega) (by omega) (by omega) (by omega)
theorem WordShape.get (tag : BitVec 6) (ra rb : Reg) (x : BitVec 3) : WordShape.Statement (.get tag ra rb x) := by
  refine WordShape.of_eq rfl ?_
  have h0 := tag.isLt
  have h1 := ra.isLt
  have h2 := rb.isLt
  have h3 := x.isLt
  exact WordShape.ofE (by omega) (by omega) (by omega) (by omega) (by omega) (by omega)
theorem WordShape.put (tag : BitVec 6) (ra rb : Reg) (x : BitVec 3) : WordShape.Statement (.put tag ra rb x) := by
  refine WordShape.of_eq rfl ?_
  have h0 := tag.isLt
  have h1 := ra.isLt
  have h2 := rb.isLt
  have h3 := x.isLt
  exact WordShape.ofE (by omega) (by omega) (by omega) (by omega) (by omega) (by omega)
theorem WordShape.ratomAdd (rd ra rb : Reg) (scope : BitVec 3) (rel ret d : Bool) : WordShape.Statement (.ratomAdd rd ra rb scope rel ret d) := by
  refine WordShape.of_eq rfl ?_
  have h0 := rd.isLt
  have h1 := ra.isLt
  have h2 := rb.isLt
  have h3 := scope.isLt
  have h4 := bn_le rel
  have h5 := bn_le ret
  have h6 := bn_le d
  exact WordShape.ofR (by omega) (by omega) (by omega) (by omega) (by omega)
theorem WordShape.ratomAnd (rd ra rb : Reg) (scope : BitVec 3) (rel ret d : Bool) : WordShape.Statement (.ratomAnd rd ra rb scope rel ret d) := by
  refine WordShape.of_eq rfl ?_
  have h0 := rd.isLt
  have h1 := ra.isLt
  have h2 := rb.isLt
  have h3 := scope.isLt
  have h4 := bn_le rel
  have h5 := bn_le ret
  have h6 := bn_le d
  exact WordShape.ofR (by omega) (by omega) (by omega) (by omega) (by omega)
theorem WordShape.ratomOr (rd ra rb : Reg) (scope : BitVec 3) (rel ret d : Bool) : WordShape.Statement (.ratomOr rd ra rb scope rel ret d) := by
  refine WordShape.of_eq rfl ?_
  have h0 := rd.isLt
  have h1 := ra.isLt
  have h2 := rb.isLt
  have h3 := scope.isLt
  have h4 := bn_le rel
  have h5 := bn_le ret
  have h6 := bn_le d
  exact WordShape.ofR (by omega) (by omega) (by omega) (by omega) (by omega)
theorem WordShape.ratomXor (rd ra rb : Reg) (scope : BitVec 3) (rel ret d : Bool) : WordShape.Statement (.ratomXor rd ra rb scope rel ret d) := by
  refine WordShape.of_eq rfl ?_
  have h0 := rd.isLt
  have h1 := ra.isLt
  have h2 := rb.isLt
  have h3 := scope.isLt
  have h4 := bn_le rel
  have h5 := bn_le ret
  have h6 := bn_le d
  exact WordShape.ofR (by omega) (by omega) (by omega) (by omega) (by omega)
theorem WordShape.ratomMin (rd ra rb : Reg) (scope : BitVec 3) (rel ret d : Bool) : WordShape.Statement (.ratomMin rd ra rb scope rel ret d) := by
  refine WordShape.of_eq rfl ?_
  have h0 := rd.isLt
  have h1 := ra.isLt
  have h2 := rb.isLt
  have h3 := scope.isLt
  have h4 := bn_le rel
  have h5 := bn_le ret
  have h6 := bn_le d
  exact WordShape.ofR (by omega) (by omega) (by omega) (by omega) (by omega)
theorem WordShape.ratomMax (rd ra rb : Reg) (scope : BitVec 3) (rel ret d : Bool) : WordShape.Statement (.ratomMax rd ra rb scope rel ret d) := by
  refine WordShape.of_eq rfl ?_
  have h0 := rd.isLt
  have h1 := ra.isLt
  have h2 := rb.isLt
  have h3 := scope.isLt
  have h4 := bn_le rel
  have h5 := bn_le ret
  have h6 := bn_le d
  exact WordShape.ofR (by omega) (by omega) (by omega) (by omega) (by omega)
theorem WordShape.ratomMinN (rd ra rb : Reg) (scope : BitVec 3) (rel ret d : Bool) : WordShape.Statement (.ratomMinN rd ra rb scope rel ret d) := by
  refine WordShape.of_eq rfl ?_
  have h0 := rd.isLt
  have h1 := ra.isLt
  have h2 := rb.isLt
  have h3 := scope.isLt
  have h4 := bn_le rel
  have h5 := bn_le ret
  have h6 := bn_le d
  exact WordShape.ofR (by omega) (by omega) (by omega) (by omega) (by omega)
theorem WordShape.ratomMaxN (rd ra rb : Reg) (scope : BitVec 3) (rel ret d : Bool) : WordShape.Statement (.ratomMaxN rd ra rb scope rel ret d) := by
  refine WordShape.of_eq rfl ?_
  have h0 := rd.isLt
  have h1 := ra.isLt
  have h2 := rb.isLt
  have h3 := scope.isLt
  have h4 := bn_le rel
  have h5 := bn_le ret
  have h6 := bn_le d
  exact WordShape.ofR (by omega) (by omega) (by omega) (by omega) (by omega)
theorem WordShape.ratomSwap (rd ra rb : Reg) (scope : BitVec 3) (rel ret d : Bool) : WordShape.Statement (.ratomSwap rd ra rb scope rel ret d) := by
  refine WordShape.of_eq rfl ?_
  have h0 := rd.isLt
  have h1 := ra.isLt
  have h2 := rb.isLt
  have h3 := scope.isLt
  have h4 := bn_le rel
  have h5 := bn_le ret
  have h6 := bn_le d
  exact WordShape.ofR (by omega) (by omega) (by omega) (by omega) (by omega)
theorem WordShape.ratomFadd (rd ra rb : Reg) (scope : BitVec 3) (rel ret : Bool) : WordShape.Statement (.ratomFadd rd ra rb scope rel ret) := by
  refine WordShape.of_eq rfl ?_
  have h0 := rd.isLt
  have h1 := ra.isLt
  have h2 := rb.isLt
  have h3 := scope.isLt
  have h4 := bn_le rel
  have h5 := bn_le ret
  have h6 := bn_le false
  exact WordShape.ofR (by omega) (by omega) (by omega) (by omega) (by omega)
theorem WordShape.amoAdd (rd ra rb : Reg) (scope : BitVec 3) (ord : BitVec 2) (d : Bool) : WordShape.Statement (.amoAdd rd ra rb scope ord d) := by
  refine WordShape.of_eq rfl ?_
  have h0 := rd.isLt
  have h1 := ra.isLt
  have h2 := rb.isLt
  have h3 := scope.isLt
  have h4 := ord.isLt
  have h5 := bn_le d
  exact WordShape.ofR (by omega) (by omega) (by omega) (by omega) (by omega)
theorem WordShape.amoAnd (rd ra rb : Reg) (scope : BitVec 3) (ord : BitVec 2) (d : Bool) : WordShape.Statement (.amoAnd rd ra rb scope ord d) := by
  refine WordShape.of_eq rfl ?_
  have h0 := rd.isLt
  have h1 := ra.isLt
  have h2 := rb.isLt
  have h3 := scope.isLt
  have h4 := ord.isLt
  have h5 := bn_le d
  exact WordShape.ofR (by omega) (by omega) (by omega) (by omega) (by omega)
theorem WordShape.amoOr (rd ra rb : Reg) (scope : BitVec 3) (ord : BitVec 2) (d : Bool) : WordShape.Statement (.amoOr rd ra rb scope ord d) := by
  refine WordShape.of_eq rfl ?_
  have h0 := rd.isLt
  have h1 := ra.isLt
  have h2 := rb.isLt
  have h3 := scope.isLt
  have h4 := ord.isLt
  have h5 := bn_le d
  exact WordShape.ofR (by omega) (by omega) (by omega) (by omega) (by omega)
theorem WordShape.amoXor (rd ra rb : Reg) (scope : BitVec 3) (ord : BitVec 2) (d : Bool) : WordShape.Statement (.amoXor rd ra rb scope ord d) := by
  refine WordShape.of_eq rfl ?_
  have h0 := rd.isLt
  have h1 := ra.isLt
  have h2 := rb.isLt
  have h3 := scope.isLt
  have h4 := ord.isLt
  have h5 := bn_le d
  exact WordShape.ofR (by omega) (by omega) (by omega) (by omega) (by omega)
theorem WordShape.amoMin (rd ra rb : Reg) (scope : BitVec 3) (ord : BitVec 2) (d : Bool) : WordShape.Statement (.amoMin rd ra rb scope ord d) := by
  refine WordShape.of_eq rfl ?_
  have h0 := rd.isLt
  have h1 := ra.isLt
  have h2 := rb.isLt
  have h3 := scope.isLt
  have h4 := ord.isLt
  have h5 := bn_le d
  exact WordShape.ofR (by omega) (by omega) (by omega) (by omega) (by omega)
theorem WordShape.amoMax (rd ra rb : Reg) (scope : BitVec 3) (ord : BitVec 2) (d : Bool) : WordShape.Statement (.amoMax rd ra rb scope ord d) := by
  refine WordShape.of_eq rfl ?_
  have h0 := rd.isLt
  have h1 := ra.isLt
  have h2 := rb.isLt
  have h3 := scope.isLt
  have h4 := ord.isLt
  have h5 := bn_le d
  exact WordShape.ofR (by omega) (by omega) (by omega) (by omega) (by omega)
theorem WordShape.amoMinN (rd ra rb : Reg) (scope : BitVec 3) (ord : BitVec 2) (d : Bool) : WordShape.Statement (.amoMinN rd ra rb scope ord d) := by
  refine WordShape.of_eq rfl ?_
  have h0 := rd.isLt
  have h1 := ra.isLt
  have h2 := rb.isLt
  have h3 := scope.isLt
  have h4 := ord.isLt
  have h5 := bn_le d
  exact WordShape.ofR (by omega) (by omega) (by omega) (by omega) (by omega)
theorem WordShape.amoMaxN (rd ra rb : Reg) (scope : BitVec 3) (ord : BitVec 2) (d : Bool) : WordShape.Statement (.amoMaxN rd ra rb scope ord d) := by
  refine WordShape.of_eq rfl ?_
  have h0 := rd.isLt
  have h1 := ra.isLt
  have h2 := rb.isLt
  have h3 := scope.isLt
  have h4 := ord.isLt
  have h5 := bn_le d
  exact WordShape.ofR (by omega) (by omega) (by omega) (by omega) (by omega)
theorem WordShape.amoSwap (rd ra rb : Reg) (scope : BitVec 3) (ord : BitVec 2) (d : Bool) : WordShape.Statement (.amoSwap rd ra rb scope ord d) := by
  refine WordShape.of_eq rfl ?_
  have h0 := rd.isLt
  have h1 := ra.isLt
  have h2 := rb.isLt
  have h3 := scope.isLt
  have h4 := ord.isLt
  have h5 := bn_le d
  exact WordShape.ofR (by omega) (by omega) (by omega) (by omega) (by omega)
theorem WordShape.amoCas (rd ra rb : Reg) (scope : BitVec 3) (ord : BitVec 2) (d : Bool) : WordShape.Statement (.amoCas rd ra rb scope ord d) := by
  refine WordShape.of_eq rfl ?_
  have h0 := rd.isLt
  have h1 := ra.isLt
  have h2 := rb.isLt
  have h3 := scope.isLt
  have h4 := ord.isLt
  have h5 := bn_le d
  exact WordShape.ofR (by omega) (by omega) (by omega) (by omega) (by omega)
theorem WordShape.amoFadd (rd ra rb : Reg) (scope : BitVec 3) (ord : BitVec 2) : WordShape.Statement (.amoFadd rd ra rb scope ord) := by
  refine WordShape.of_eq rfl ?_
  have h0 := rd.isLt
  have h1 := ra.isLt
  have h2 := rb.isLt
  have h3 := scope.isLt
  have h4 := ord.isLt
  have h5 := bn_le false
  exact WordShape.ofR (by omega) (by omega) (by omega) (by omega) (by omega)
theorem WordShape.rwb (ra rb : Reg) : WordShape.Statement (.rwb ra rb) := by
  refine WordShape.of_eq rfl ?_
  have h0 := ra.isLt
  have h1 := rb.isLt
  exact WordShape.ofR (by omega) (by omega) (by omega) (by omega) (by omega)
theorem WordShape.rinv (ra rb : Reg) : WordShape.Statement (.rinv ra rb) := by
  refine WordShape.of_eq rfl ?_
  have h0 := ra.isLt
  have h1 := rb.isLt
  exact WordShape.ofR (by omega) (by omega) (by omega) (by omega) (by omega)
theorem WordShape.mldred (tag : BitVec 6) (ra rb : Reg) (x : BitVec 3) : WordShape.Statement (.mldred tag ra rb x) := by
  refine WordShape.of_eq rfl ?_
  have h0 := tag.isLt
  have h1 := ra.isLt
  have h2 := rb.isLt
  have h3 := x.isLt
  exact WordShape.ofE (by omega) (by omega) (by omega) (by omega) (by omega) (by omega)
theorem WordShape.mcst (tag : BitVec 6) (ra rb : Reg) (x : BitVec 3) : WordShape.Statement (.mcst tag ra rb x) := by
  refine WordShape.of_eq rfl ?_
  have h0 := tag.isLt
  have h1 := ra.isLt
  have h2 := rb.isLt
  have h3 := x.isLt
  exact WordShape.ofE (by omega) (by omega) (by omega) (by omega) (by omega) (by omega)
theorem WordShape.cadd (ra rb : Reg) : WordShape.Statement (.cadd ra rb) := by
  refine WordShape.of_eq rfl ?_
  have h0 := ra.isLt
  have h1 := rb.isLt
  exact WordShape.ofR (by omega) (by omega) (by omega) (by omega) (by omega)
theorem WordShape.caddRel (ra rb : Reg) (scope : BitVec 3) : WordShape.Statement (.caddRel ra rb scope) := by
  refine WordShape.of_eq rfl ?_
  have h0 := ra.isLt
  have h1 := rb.isLt
  have h2 := scope.isLt
  exact WordShape.ofR (by omega) (by omega) (by omega) (by omega) (by omega)
theorem WordShape.cwait (ra rb : Reg) : WordShape.Statement (.cwait ra rb) := by
  refine WordShape.of_eq rfl ?_
  have h0 := ra.isLt
  have h1 := rb.isLt
  exact WordShape.ofR (by omega) (by omega) (by omega) (by omega) (by omega)
theorem WordShape.cwaitAcq (ra rb : Reg) (scope : BitVec 3) : WordShape.Statement (.cwaitAcq ra rb scope) := by
  refine WordShape.of_eq rfl ?_
  have h0 := ra.isLt
  have h1 := rb.isLt
  have h2 := scope.isLt
  exact WordShape.ofR (by omega) (by omega) (by omega) (by omega) (by omega)
theorem WordShape.cread (rd ra : Reg) : WordShape.Statement (.cread rd ra) := by
  refine WordShape.of_eq rfl ?_
  have h0 := rd.isLt
  have h1 := ra.isLt
  exact WordShape.ofR (by omega) (by omega) (by omega) (by omega) (by omega)
theorem WordShape.barrRlx (rd : Reg) (b : BitVec 3) : WordShape.Statement (.barrRlx rd b) := by
  refine WordShape.of_eq rfl ?_
  have h0 := rd.isLt
  have h1 := b.isLt
  exact WordShape.ofR (by omega) (by omega) (by omega) (by omega) (by omega)
theorem WordShape.barrRel (rd : Reg) (b : BitVec 3) : WordShape.Statement (.barrRel rd b) := by
  refine WordShape.of_eq rfl ?_
  have h0 := rd.isLt
  have h1 := b.isLt
  exact WordShape.ofR (by omega) (by omega) (by omega) (by omega) (by omega)
theorem WordShape.bwait (b : BitVec 3) (ra : Reg) : WordShape.Statement (.bwait b ra) := by
  refine WordShape.of_eq rfl ?_
  have h0 := b.isLt
  have h1 := ra.isLt
  exact WordShape.ofR (by omega) (by omega) (by omega) (by omega) (by omega)
theorem WordShape.bmiss (rd : Reg) (b : BitVec 3) (ra : Reg) : WordShape.Statement (.bmiss rd b ra) := by
  refine WordShape.of_eq rfl ?_
  have h0 := rd.isLt
  have h1 := b.isLt
  have h2 := ra.isLt
  exact WordShape.ofR (by omega) (by omega) (by omega) (by omega) (by omega)
theorem WordShape.sstep (rd : Reg) (level : BitVec 3) : WordShape.Statement (.sstep rd level) := by
  refine WordShape.of_eq rfl ?_
  have h0 := rd.isLt
  have h1 := level.isLt
  exact WordShape.ofR (by omega) (by omega) (by omega) (by omega) (by omega)
theorem WordShape.binit (b : BitVec 3) (ra rd : Reg) : WordShape.Statement (.binit b ra rd) := by
  refine WordShape.of_eq rfl ?_
  have h0 := b.isLt
  have h1 := ra.isLt
  have h2 := rd.isLt
  exact WordShape.ofR (by omega) (by omega) (by omega) (by omega) (by omega)
theorem WordShape.fenceAcq (scope : BitVec 3) : WordShape.Statement (.fenceAcq scope) := by
  refine WordShape.of_eq rfl ?_
  have h0 := scope.isLt
  exact WordShape.ofR (by omega) (by omega) (by omega) (by omega) (by omega)
theorem WordShape.fenceRel (scope : BitVec 3) : WordShape.Statement (.fenceRel scope) := by
  refine WordShape.of_eq rfl ?_
  have h0 := scope.isLt
  exact WordShape.ofR (by omega) (by omega) (by omega) (by omega) (by omega)
theorem WordShape.fenceAr (scope : BitVec 3) : WordShape.Statement (.fenceAr scope) := by
  refine WordShape.of_eq rfl ?_
  have h0 := scope.isLt
  exact WordShape.ofR (by omega) (by omega) (by omega) (by omega) (by omega)
theorem WordShape.fenceSc (scope : BitVec 3) : WordShape.Statement (.fenceSc scope) := by
  refine WordShape.of_eq rfl ?_
  have h0 := scope.isLt
  exact WordShape.ofR (by omega) (by omega) (by omega) (by omega) (by omega)
theorem WordShape.twany (rd ra : Reg) : WordShape.Statement (.twany rd ra) := by
  refine WordShape.of_eq rfl ?_
  have h0 := rd.isLt
  have h1 := ra.isLt
  exact WordShape.ofR (by omega) (by omega) (by omega) (by omega) (by omega)
theorem WordShape.twall (ra : Reg) : WordShape.Statement (.twall ra) := by
  refine WordShape.of_eq rfl ?_
  have h0 := ra.isLt
  exact WordShape.ofR (by omega) (by omega) (by omega) (by omega) (by omega)
theorem WordShape.tffr (rd ra : Reg) : WordShape.Statement (.tffr rd ra) := by
  refine WordShape.of_eq rfl ?_
  have h0 := rd.isLt
  have h1 := ra.isLt
  exact WordShape.ofR (by omega) (by omega) (by omega) (by omega) (by omega)
theorem WordShape.rinit (h : BitVec 4) (ra rb : Reg) : WordShape.Statement (.rinit h ra rb) := by
  refine WordShape.of_eq rfl ?_
  have h0 := h.isLt
  have h1 := ra.isLt
  have h2 := rb.isLt
  exact WordShape.ofR (by omega) (by omega) (by omega) (by omega) (by omega)
theorem WordShape.rwf (rd : Reg) (h : BitVec 4) (ra : Reg) : WordShape.Statement (.rwf rd h ra) := by
  refine WordShape.of_eq rfl ?_
  have h0 := rd.isLt
  have h1 := h.isLt
  have h2 := ra.isLt
  exact WordShape.ofR (by omega) (by omega) (by omega) (by omega) (by omega)
theorem WordShape.rwe (rd : Reg) (h : BitVec 4) (ra : Reg) : WordShape.Statement (.rwe rd h ra) := by
  refine WordShape.of_eq rfl ?_
  have h0 := rd.isLt
  have h1 := h.isLt
  have h2 := ra.isLt
  exact WordShape.ofR (by omega) (by omega) (by omega) (by omega) (by omega)
theorem WordShape.radvp (h : BitVec 4) (ra : Reg) : WordShape.Statement (.radvp h ra) := by
  refine WordShape.of_eq rfl ?_
  have h0 := h.isLt
  have h1 := ra.isLt
  exact WordShape.ofR (by omega) (by omega) (by omega) (by omega) (by omega)
theorem WordShape.radvc (h : BitVec 4) (ra : Reg) : WordShape.Statement (.radvc h ra) := by
  refine WordShape.of_eq rfl ?_
  have h0 := h.isLt
  have h1 := ra.isLt
  exact WordShape.ofR (by omega) (by omega) (by omega) (by omega) (by omega)
theorem WordShape.recv (rd : Reg) (h : BitVec 4) : WordShape.Statement (.recv rd h) := by
  refine WordShape.of_eq rfl ?_
  have h0 := rd.isLt
  have h1 := h.isLt
  exact WordShape.ofR (by omega) (by omega) (by omega) (by omega) (by omega)
theorem WordShape.send (rd : Reg) (h : BitVec 4) (ra rb : Reg) : WordShape.Statement (.send rd h ra rb) := by
  refine WordShape.of_eq rfl ?_
  have h0 := rd.isLt
  have h1 := h.isLt
  have h2 := ra.isLt
  have h3 := rb.isLt
  exact WordShape.ofR (by omega) (by omega) (by omega) (by omega) (by omega)
theorem WordShape.vaddFloat (t : FLane) (vd va vb : Reg) (rz : Bool) (m : Option (BitVec 3)) : WordShape.Statement (.vaddFloat t vd va vb rz m) := by
  refine WordShape.of_eq rfl ?_
  have h0 := encFLane_lt t
  have h1 := vd.isLt
  have h2 := va.isLt
  have h3 := vb.isLt
  have h4 := bn_le rz
  have h5 := encMask_le m
  exact WordShape.ofR (by omega) (by omega) (by omega) (by omega) (by omega)
theorem WordShape.vsubFloat (t : FLane) (vd va vb : Reg) (rz : Bool) (m : Option (BitVec 3)) : WordShape.Statement (.vsubFloat t vd va vb rz m) := by
  refine WordShape.of_eq rfl ?_
  have h0 := encFLane_lt t
  have h1 := vd.isLt
  have h2 := va.isLt
  have h3 := vb.isLt
  have h4 := bn_le rz
  have h5 := encMask_le m
  exact WordShape.ofR (by omega) (by omega) (by omega) (by omega) (by omega)
theorem WordShape.vmulFloat (t : FLane) (vd va vb : Reg) (rz : Bool) (m : Option (BitVec 3)) : WordShape.Statement (.vmulFloat t vd va vb rz m) := by
  refine WordShape.of_eq rfl ?_
  have h0 := encFLane_lt t
  have h1 := vd.isLt
  have h2 := va.isLt
  have h3 := vb.isLt
  have h4 := bn_le rz
  have h5 := encMask_le m
  exact WordShape.ofR (by omega) (by omega) (by omega) (by omega) (by omega)
theorem WordShape.vfma (t : FLane) (vd va vb : Reg) (rz : Bool) (m : Option (BitVec 3)) : WordShape.Statement (.vfma t vd va vb rz m) := by
  refine WordShape.of_eq rfl ?_
  have h0 := encFLane_lt t
  have h1 := vd.isLt
  have h2 := va.isLt
  have h3 := vb.isLt
  have h4 := bn_le rz
  have h5 := encMask_le m
  exact WordShape.ofR (by omega) (by omega) (by omega) (by omega) (by omega)
theorem WordShape.vfnma (t : FLane) (vd va vb : Reg) (rz : Bool) (m : Option (BitVec 3)) : WordShape.Statement (.vfnma t vd va vb rz m) := by
  refine WordShape.of_eq rfl ?_
  have h0 := encFLane_lt t
  have h1 := vd.isLt
  have h2 := va.isLt
  have h3 := vb.isLt
  have h4 := bn_le rz
  have h5 := encMask_le m
  exact WordShape.ofR (by omega) (by omega) (by omega) (by omega) (by omega)
theorem WordShape.vminFloat (t : FLane) (vd va vb : Reg) (m : Option (BitVec 3)) : WordShape.Statement (.vminFloat t vd va vb m) := by
  refine WordShape.of_eq rfl ?_
  have h0 := encFLane_lt t
  have h1 := vd.isLt
  have h2 := va.isLt
  have h3 := vb.isLt
  have h4 := encMask_le m
  have h5 := bn_le false
  exact WordShape.ofR (by omega) (by omega) (by omega) (by omega) (by omega)
theorem WordShape.vmaxFloat (t : FLane) (vd va vb : Reg) (m : Option (BitVec 3)) : WordShape.Statement (.vmaxFloat t vd va vb m) := by
  refine WordShape.of_eq rfl ?_
  have h0 := encFLane_lt t
  have h1 := vd.isLt
  have h2 := va.isLt
  have h3 := vb.isLt
  have h4 := encMask_le m
  have h5 := bn_le false
  exact WordShape.ofR (by omega) (by omega) (by omega) (by omega) (by omega)
theorem WordShape.vabs (t : FLane) (vd va : Reg) (m : Option (BitVec 3)) : WordShape.Statement (.vabs t vd va m) := by
  refine WordShape.of_eq rfl ?_
  have h0 := encFLane_lt t
  have h1 := vd.isLt
  have h2 := va.isLt
  have h3 := encMask_le m
  have h4 := bn_le false
  exact WordShape.ofR (by omega) (by omega) (by omega) (by omega) (by omega)
theorem WordShape.vneg (t : FLane) (vd va : Reg) (m : Option (BitVec 3)) : WordShape.Statement (.vneg t vd va m) := by
  refine WordShape.of_eq rfl ?_
  have h0 := encFLane_lt t
  have h1 := vd.isLt
  have h2 := va.isLt
  have h3 := encMask_le m
  have h4 := bn_le false
  exact WordShape.ofR (by omega) (by omega) (by omega) (by omega) (by omega)
theorem WordShape.vdiv (t : FLane) (vd va vb : Reg) (rz : Bool) (m : Option (BitVec 3)) : WordShape.Statement (.vdiv t vd va vb rz m) := by
  refine WordShape.of_eq rfl ?_
  have h0 := encFLane_lt t
  have h1 := vd.isLt
  have h2 := va.isLt
  have h3 := vb.isLt
  have h4 := bn_le rz
  have h5 := encMask_le m
  exact WordShape.ofR (by omega) (by omega) (by omega) (by omega) (by omega)
theorem WordShape.vsqrt (t : FLane) (vd va : Reg) (rz : Bool) (m : Option (BitVec 3)) : WordShape.Statement (.vsqrt t vd va rz m) := by
  refine WordShape.of_eq rfl ?_
  have h0 := encFLane_lt t
  have h1 := vd.isLt
  have h2 := va.isLt
  have h3 := bn_le rz
  have h4 := encMask_le m
  exact WordShape.ofR (by omega) (by omega) (by omega) (by omega) (by omega)
theorem WordShape.vaddInt (t : ILane) (vd va vb : Reg) (m : Option (BitVec 3)) : WordShape.Statement (.vaddInt t vd va vb m) := by
  refine WordShape.of_eq rfl ?_
  have h0 := encILane_lt t
  have h1 := vd.isLt
  have h2 := va.isLt
  have h3 := vb.isLt
  have h4 := encMask_le m
  have h5 := bn_le false
  exact WordShape.ofR (by omega) (by omega) (by omega) (by omega) (by omega)
theorem WordShape.vsubInt (t : ILane) (vd va vb : Reg) (m : Option (BitVec 3)) : WordShape.Statement (.vsubInt t vd va vb m) := by
  refine WordShape.of_eq rfl ?_
  have h0 := encILane_lt t
  have h1 := vd.isLt
  have h2 := va.isLt
  have h3 := vb.isLt
  have h4 := encMask_le m
  have h5 := bn_le false
  exact WordShape.ofR (by omega) (by omega) (by omega) (by omega) (by omega)
theorem WordShape.vmulInt (t : ILane) (vd va vb : Reg) (m : Option (BitVec 3)) : WordShape.Statement (.vmulInt t vd va vb m) := by
  refine WordShape.of_eq rfl ?_
  have h0 := encILane_lt t
  have h1 := vd.isLt
  have h2 := va.isLt
  have h3 := vb.isLt
  have h4 := encMask_le m
  have h5 := bn_le false
  exact WordShape.ofR (by omega) (by omega) (by omega) (by omega) (by omega)
theorem WordShape.vmulh (t : ILane) (vd va vb : Reg) (n : Bool) (m : Option (BitVec 3)) : WordShape.Statement (.vmulh t vd va vb n m) := by
  refine WordShape.of_eq rfl ?_
  have h0 := encILane_lt t
  have h1 := vd.isLt
  have h2 := va.isLt
  have h3 := vb.isLt
  have h4 := bn_le n
  have h5 := encMask_le m
  exact WordShape.ofR (by omega) (by omega) (by omega) (by omega) (by omega)
theorem WordShape.vminInt (t : ILane) (vd va vb : Reg) (n : Bool) (m : Option (BitVec 3)) : WordShape.Statement (.vminInt t vd va vb n m) := by
  refine WordShape.of_eq rfl ?_
  have h0 := encILane_lt t
  have h1 := vd.isLt
  have h2 := va.isLt
  have h3 := vb.isLt
  have h4 := bn_le n
  have h5 := encMask_le m
  exact WordShape.ofR (by omega) (by omega) (by omega) (by omega) (by omega)
theorem WordShape.vmaxInt (t : ILane) (vd va vb : Reg) (n : Bool) (m : Option (BitVec 3)) : WordShape.Statement (.vmaxInt t vd va vb n m) := by
  refine WordShape.of_eq rfl ?_
  have h0 := encILane_lt t
  have h1 := vd.isLt
  have h2 := va.isLt
  have h3 := vb.isLt
  have h4 := bn_le n
  have h5 := encMask_le m
  exact WordShape.ofR (by omega) (by omega) (by omega) (by omega) (by omega)
theorem WordShape.vand (t : ILane) (vd va vb : Reg) (m : Option (BitVec 3)) : WordShape.Statement (.vand t vd va vb m) := by
  refine WordShape.of_eq rfl ?_
  have h0 := encILane_lt t
  have h1 := vd.isLt
  have h2 := va.isLt
  have h3 := vb.isLt
  have h4 := encMask_le m
  have h5 := bn_le false
  exact WordShape.ofR (by omega) (by omega) (by omega) (by omega) (by omega)
theorem WordShape.vor (t : ILane) (vd va vb : Reg) (m : Option (BitVec 3)) : WordShape.Statement (.vor t vd va vb m) := by
  refine WordShape.of_eq rfl ?_
  have h0 := encILane_lt t
  have h1 := vd.isLt
  have h2 := va.isLt
  have h3 := vb.isLt
  have h4 := encMask_le m
  have h5 := bn_le false
  exact WordShape.ofR (by omega) (by omega) (by omega) (by omega) (by omega)
theorem WordShape.vxor (t : ILane) (vd va vb : Reg) (m : Option (BitVec 3)) : WordShape.Statement (.vxor t vd va vb m) := by
  refine WordShape.of_eq rfl ?_
  have h0 := encILane_lt t
  have h1 := vd.isLt
  have h2 := va.isLt
  have h3 := vb.isLt
  have h4 := encMask_le m
  have h5 := bn_le false
  exact WordShape.ofR (by omega) (by omega) (by omega) (by omega) (by omega)
theorem WordShape.vsll (t : ILane) (vd va vb : Reg) (m : Option (BitVec 3)) : WordShape.Statement (.vsll t vd va vb m) := by
  refine WordShape.of_eq rfl ?_
  have h0 := encILane_lt t
  have h1 := vd.isLt
  have h2 := va.isLt
  have h3 := vb.isLt
  have h4 := encMask_le m
  have h5 := bn_le false
  exact WordShape.ofR (by omega) (by omega) (by omega) (by omega) (by omega)
theorem WordShape.vsrl (t : ILane) (vd va vb : Reg) (m : Option (BitVec 3)) : WordShape.Statement (.vsrl t vd va vb m) := by
  refine WordShape.of_eq rfl ?_
  have h0 := encILane_lt t
  have h1 := vd.isLt
  have h2 := va.isLt
  have h3 := vb.isLt
  have h4 := encMask_le m
  have h5 := bn_le false
  exact WordShape.ofR (by omega) (by omega) (by omega) (by omega) (by omega)
theorem WordShape.vsra (t : ILane) (vd va vb : Reg) (m : Option (BitVec 3)) : WordShape.Statement (.vsra t vd va vb m) := by
  refine WordShape.of_eq rfl ?_
  have h0 := encILane_lt t
  have h1 := vd.isLt
  have h2 := va.isLt
  have h3 := vb.isLt
  have h4 := encMask_le m
  have h5 := bn_le false
  exact WordShape.ofR (by omega) (by omega) (by omega) (by omega) (by omega)
theorem WordShape.vadds (t : ILane) (vd va vb : Reg) (n : Bool) (m : Option (BitVec 3)) : WordShape.Statement (.vadds t vd va vb n m) := by
  refine WordShape.of_eq rfl ?_
  have h0 := encILane_lt t
  have h1 := vd.isLt
  have h2 := va.isLt
  have h3 := vb.isLt
  have h4 := bn_le n
  have h5 := encMask_le m
  exact WordShape.ofR (by omega) (by omega) (by omega) (by omega) (by omega)
theorem WordShape.vsubs (t : ILane) (vd va vb : Reg) (n : Bool) (m : Option (BitVec 3)) : WordShape.Statement (.vsubs t vd va vb n m) := by
  refine WordShape.of_eq rfl ?_
  have h0 := encILane_lt t
  have h1 := vd.isLt
  have h2 := va.isLt
  have h3 := vb.isLt
  have h4 := bn_le n
  have h5 := encMask_le m
  exact WordShape.ofR (by omega) (by omega) (by omega) (by omega) (by omega)
theorem WordShape.vcmpeq (md : BitVec 3) (va vb : Reg) (fmt : BitVec 4) (m : Option (BitVec 3)) : WordShape.Statement (.vcmpeq md va vb fmt m) := by
  refine WordShape.of_eq rfl ?_
  have h0 := md.isLt
  have h1 := va.isLt
  have h2 := vb.isLt
  have h3 := fmt.isLt
  have h4 := encMask_le m
  exact WordShape.ofR (by omega) (by omega) (by omega) (by omega) (by omega)
theorem WordShape.vcmpne (md : BitVec 3) (va vb : Reg) (fmt : BitVec 4) (m : Option (BitVec 3)) : WordShape.Statement (.vcmpne md va vb fmt m) := by
  refine WordShape.of_eq rfl ?_
  have h0 := md.isLt
  have h1 := va.isLt
  have h2 := vb.isLt
  have h3 := fmt.isLt
  have h4 := encMask_le m
  exact WordShape.ofR (by omega) (by omega) (by omega) (by omega) (by omega)
theorem WordShape.vcmplt (md : BitVec 3) (va vb : Reg) (fmt : BitVec 4) (m : Option (BitVec 3)) : WordShape.Statement (.vcmplt md va vb fmt m) := by
  refine WordShape.of_eq rfl ?_
  have h0 := md.isLt
  have h1 := va.isLt
  have h2 := vb.isLt
  have h3 := fmt.isLt
  have h4 := encMask_le m
  exact WordShape.ofR (by omega) (by omega) (by omega) (by omega) (by omega)
theorem WordShape.vcmple (md : BitVec 3) (va vb : Reg) (fmt : BitVec 4) (m : Option (BitVec 3)) : WordShape.Statement (.vcmple md va vb fmt m) := by
  refine WordShape.of_eq rfl ?_
  have h0 := md.isLt
  have h1 := va.isLt
  have h2 := vb.isLt
  have h3 := fmt.isLt
  have h4 := encMask_le m
  exact WordShape.ofR (by omega) (by omega) (by omega) (by omega) (by omega)
theorem WordShape.vmov (lane : BitVec 2) (vd va : Reg) (m : Option (BitVec 3)) : WordShape.Statement (.vmov lane vd va m) := by
  refine WordShape.of_eq rfl ?_
  have h0 := lane.isLt
  have h1 := vd.isLt
  have h2 := va.isLt
  have h3 := encMask_le m
  exact WordShape.ofR (by omega) (by omega) (by omega) (by omega) (by omega)
theorem WordShape.vsel (lane : BitVec 2) (vd va vb : Reg) (m : BitVec 3) : WordShape.Statement (.vsel lane vd va vb m) := by
  refine WordShape.of_eq rfl ?_
  have h0 := lane.isLt
  have h1 := vd.isLt
  have h2 := va.isLt
  have h3 := vb.isLt
  have h4 := encMask_le (some m)
  exact WordShape.ofR (by omega) (by omega) (by omega) (by omega) (by omega)
theorem WordShape.vperm (lane : BitVec 2) (vd va vb : Reg) (m : Option (BitVec 3)) : WordShape.Statement (.vperm lane vd va vb m) := by
  refine WordShape.of_eq rfl ?_
  have h0 := lane.isLt
  have h1 := vd.isLt
  have h2 := va.isLt
  have h3 := vb.isLt
  have h4 := encMask_le m
  exact WordShape.ofR (by omega) (by omega) (by omega) (by omega) (by omega)
theorem WordShape.vbcast (lane : BitVec 2) (vd ra : Reg) (m : Option (BitVec 3)) : WordShape.Statement (.vbcast lane vd ra m) := by
  refine WordShape.of_eq rfl ?_
  have h0 := lane.isLt
  have h1 := vd.isLt
  have h2 := ra.isLt
  have h3 := encMask_le m
  exact WordShape.ofR (by omega) (by omega) (by omega) (by omega) (by omega)
theorem WordShape.vins (lane : BitVec 2) (vd ra rb : Reg) : WordShape.Statement (.vins lane vd ra rb) := by
  refine WordShape.of_eq rfl ?_
  have h0 := lane.isLt
  have h1 := vd.isLt
  have h2 := ra.isLt
  have h3 := rb.isLt
  have h4 := encMask_le none
  exact WordShape.ofR (by omega) (by omega) (by omega) (by omega) (by omega)
theorem WordShape.vext (lane : BitVec 2) (rd va rb : Reg) : WordShape.Statement (.vext lane rd va rb) := by
  refine WordShape.of_eq rfl ?_
  have h0 := lane.isLt
  have h1 := rd.isLt
  have h2 := va.isLt
  have h3 := rb.isLt
  have h4 := encMask_le none
  exact WordShape.ofR (by omega) (by omega) (by omega) (by omega) (by omega)
theorem WordShape.vcvt (src dst : BitVec 4) (mode : BitVec 2) (vd va : Reg) (part : BitVec 5) : WordShape.Statement (.vcvt src dst mode vd va part) := by
  refine WordShape.of_eq rfl ?_
  have h0 := src.isLt
  have h1 := dst.isLt
  have h2 := mode.isLt
  have h3 := vd.isLt
  have h4 := va.isLt
  have h5 := part.isLt
  exact WordShape.ofR (by omega) (by omega) (by omega) (by omega) (by omega)
theorem WordShape.vredadd (rd va : Reg) (fmt : BitVec 4) (m : Option (BitVec 3)) : WordShape.Statement (.vredadd rd va fmt m) := by
  refine WordShape.of_eq rfl ?_
  have h0 := rd.isLt
  have h1 := va.isLt
  have h2 := fmt.isLt
  have h3 := encMask_le m
  exact WordShape.ofR (by omega) (by omega) (by omega) (by omega) (by omega)
theorem WordShape.vredmin (rd va : Reg) (fmt : BitVec 4) (m : Option (BitVec 3)) : WordShape.Statement (.vredmin rd va fmt m) := by
  refine WordShape.of_eq rfl ?_
  have h0 := rd.isLt
  have h1 := va.isLt
  have h2 := fmt.isLt
  have h3 := encMask_le m
  exact WordShape.ofR (by omega) (by omega) (by omega) (by omega) (by omega)
theorem WordShape.vredmax (rd va : Reg) (fmt : BitVec 4) (m : Option (BitVec 3)) : WordShape.Statement (.vredmax rd va fmt m) := by
  refine WordShape.of_eq rfl ?_
  have h0 := rd.isLt
  have h1 := va.isLt
  have h2 := fmt.isLt
  have h3 := encMask_le m
  exact WordShape.ofR (by omega) (by omega) (by omega) (by omega) (by omega)
theorem WordShape.vamax (rd va : Reg) (fmt : BitVec 4) (m : Option (BitVec 3)) : WordShape.Statement (.vamax rd va fmt m) := by
  refine WordShape.of_eq rfl ?_
  have h0 := rd.isLt
  have h1 := va.isLt
  have h2 := fmt.isLt
  have h3 := encMask_le m
  exact WordShape.ofR (by omega) (by omega) (by omega) (by omega) (by omega)
theorem WordShape.vscc (mode : BitVec 2) (e5 : Bool) (vd va : Reg) (x : BitVec 3) : WordShape.Statement (.vscc mode e5 vd va x) := by
  refine WordShape.of_eq rfl ?_
  have h0 := mode.isLt
  have h1 := bn_le e5
  have h2 := vd.isLt
  have h3 := va.isLt
  have h4 := x.isLt
  exact WordShape.ofE (by omega) (by omega) (by omega) (by omega) (by omega) (by omega)
theorem WordShape.vquant (mode : BitVec 2) (q8 : Bool) (vd va : Reg) (x : BitVec 3) : WordShape.Statement (.vquant mode q8 vd va x) := by
  refine WordShape.of_eq rfl ?_
  have h0 := mode.isLt
  have h1 := bn_le q8
  have h2 := vd.isLt
  have h3 := va.isLt
  have h4 := x.isLt
  exact WordShape.ofE (by omega) (by omega) (by omega) (by omega) (by omega) (by omega)
theorem WordShape.vfacm (mode : BitVec 2) (vd va rb : Reg) (x : BitVec 3) : WordShape.Statement (.vfacm mode vd va rb x) := by
  refine WordShape.of_eq rfl ?_
  have h0 := mode.isLt
  have h1 := vd.isLt
  have h2 := va.isLt
  have h3 := rb.isLt
  have h4 := x.isLt
  exact WordShape.ofE (by omega) (by omega) (by omega) (by omega) (by omega) (by omega)
theorem WordShape.mand (md ma mb : BitVec 3) : WordShape.Statement (.mand md ma mb) := by
  refine WordShape.of_eq rfl ?_
  have h0 := md.isLt
  have h1 := ma.isLt
  have h2 := mb.isLt
  exact WordShape.ofR (by omega) (by omega) (by omega) (by omega) (by omega)
theorem WordShape.mor (md ma mb : BitVec 3) : WordShape.Statement (.mor md ma mb) := by
  refine WordShape.of_eq rfl ?_
  have h0 := md.isLt
  have h1 := ma.isLt
  have h2 := mb.isLt
  exact WordShape.ofR (by omega) (by omega) (by omega) (by omega) (by omega)
theorem WordShape.mxor (md ma mb : BitVec 3) : WordShape.Statement (.mxor md ma mb) := by
  refine WordShape.of_eq rfl ?_
  have h0 := md.isLt
  have h1 := ma.isLt
  have h2 := mb.isLt
  exact WordShape.ofR (by omega) (by omega) (by omega) (by omega) (by omega)
theorem WordShape.mnot (md ma : BitVec 3) : WordShape.Statement (.mnot md ma) := by
  refine WordShape.of_eq rfl ?_
  have h0 := md.isLt
  have h1 := ma.isLt
  exact WordShape.ofR (by omega) (by omega) (by omega) (by omega) (by omega)
theorem WordShape.mpop (rd : Reg) (ma : BitVec 3) : WordShape.Statement (.mpop rd ma) := by
  refine WordShape.of_eq rfl ?_
  have h0 := rd.isLt
  have h1 := ma.isLt
  exact WordShape.ofR (by omega) (by omega) (by omega) (by omega) (by omega)
theorem WordShape.mfirst (rd : Reg) (ma : BitVec 3) : WordShape.Statement (.mfirst rd ma) := by
  refine WordShape.of_eq rfl ?_
  have h0 := rd.isLt
  have h1 := ma.isLt
  exact WordShape.ofR (by omega) (by omega) (by omega) (by omega) (by omega)
theorem WordShape.mset (md : BitVec 3) (ra : Reg) : WordShape.Statement (.mset md ra) := by
  refine WordShape.of_eq rfl ?_
  have h0 := md.isLt
  have h1 := ra.isLt
  exact WordShape.ofR (by omega) (by omega) (by omega) (by omega) (by omega)
theorem WordShape.mget (rd : Reg) (ma : BitVec 3) : WordShape.Statement (.mget rd ma) := by
  refine WordShape.of_eq rfl ?_
  have h0 := rd.isLt
  have h1 := ma.isLt
  exact WordShape.ofR (by omega) (by omega) (by omega) (by omega) (by omega)
theorem WordShape.mm (cls : BitVec 2) (a1 b1 : Bool) (ad : BitVec 2) (ra rb : Reg) (x : Option (BitVec 3)) : WordShape.Statement (.mm cls a1 b1 ad ra rb x) := by
  refine WordShape.of_eq rfl ?_
  have h0 := cls.isLt
  have h1 := bn_le a1
  have h2 := bn_le b1
  have h3 := ad.isLt
  have h4 := ra.isLt
  have h5 := rb.isLt
  have h6 := encX_le x
  exact WordShape.ofE (by omega) (by omega) (by omega) (by omega) (by omega) (by omega)
theorem WordShape.mmg (cls : BitVec 2) (a1 b1 : Bool) (ad : BitVec 2) (ra rb : Reg) (x : BitVec 3) : WordShape.Statement (.mmg cls a1 b1 ad ra rb x) := by
  refine WordShape.of_eq rfl ?_
  have h0 := cls.isLt
  have h1 := bn_le a1
  have h2 := bn_le b1
  have h3 := ad.isLt
  have h4 := ra.isLt
  have h5 := rb.isLt
  have h6 := x.isLt
  exact WordShape.ofE (by omega) (by omega) (by omega) (by omega) (by omega) (by omega)
theorem WordShape.mmQ (group : BitVec 2) (a8 b8 : Bool) (ad : BitVec 2) (ra rb : Reg) (x : BitVec 3) : WordShape.Statement (.mmQ group a8 b8 ad ra rb x) := by
  refine WordShape.of_eq rfl ?_
  have h0 := group.isLt
  have h1 := bn_le a8
  have h2 := bn_le b8
  have h3 := ad.isLt
  have h4 := ra.isLt
  have h5 := rb.isLt
  have h6 := x.isLt
  exact WordShape.ofE (by omega) (by omega) (by omega) (by omega) (by omega) (by omega)
theorem WordShape.aczero (ad : BitVec 2) : WordShape.Statement (.aczero ad) := by
  refine WordShape.of_eq rfl ?_
  have h0 := ad.isLt
  exact WordShape.ofR (by omega) (by omega) (by omega) (by omega) (by omega)
theorem WordShape.acld (fmt : BitVec 4) (ad : BitVec 2) (ra : Reg) : WordShape.Statement (.acld fmt ad ra) := by
  refine WordShape.of_eq rfl ?_
  have h0 := fmt.isLt
  have h1 := ad.isLt
  have h2 := ra.isLt
  exact WordShape.ofR (by omega) (by omega) (by omega) (by omega) (by omega)
theorem WordShape.acst (fmt : BitVec 4) (rz : Bool) (ad : BitVec 2) (ra : Reg) : WordShape.Statement (.acst fmt rz ad ra) := by
  refine WordShape.of_eq rfl ?_
  have h0 := fmt.isLt
  have h1 := bn_le rz
  have h2 := ad.isLt
  have h3 := ra.isLt
  exact WordShape.ofR (by omega) (by omega) (by omega) (by omega) (by omega)
theorem WordShape.scaccVector (h rz : Bool) (ad as : BitVec 2) (ix : Bool) (vb : Reg) : WordShape.Statement (.scaccVector h rz ad as ix vb) := by
  refine WordShape.of_eq rfl ?_
  have h0 := bn_le h
  have h1 := bn_le rz
  have h2 := ad.isLt
  have h3 := as.isLt
  have h4 := bn_le ix
  have h5 := vb.isLt
  exact WordShape.ofE (by omega) (by omega) (by omega) (by omega) (by omega) (by omega)
theorem WordShape.scaccXreg (h rz : Bool) (ad as : BitVec 2) (ix : Bool) (x : BitVec 3) : WordShape.Statement (.scaccXreg h rz ad as ix x) := by
  refine WordShape.of_eq rfl ?_
  have h0 := bn_le h
  have h1 := bn_le rz
  have h2 := ad.isLt
  have h3 := as.isLt
  have h4 := bn_le ix
  have h5 := x.isLt
  exact WordShape.ofE (by omega) (by omega) (by omega) (by omega) (by omega) (by omega)
theorem WordShape.cpy (tag : BitVec 6) (ra rb : Reg) (x : BitVec 3) : WordShape.Statement (.cpy tag ra rb x) := by
  refine WordShape.of_eq rfl ?_
  have h0 := tag.isLt
  have h1 := ra.isLt
  have h2 := rb.isLt
  have h3 := x.isLt
  exact WordShape.ofE (by omega) (by omega) (by omega) (by omega) (by omega) (by omega)
theorem WordShape.cpy2 (tag : BitVec 6) (ra rb : Reg) (x : BitVec 3) : WordShape.Statement (.cpy2 tag ra rb x) := by
  refine WordShape.of_eq rfl ?_
  have h0 := tag.isLt
  have h1 := ra.isLt
  have h2 := rb.isLt
  have h3 := x.isLt
  exact WordShape.ofE (by omega) (by omega) (by omega) (by omega) (by omega) (by omega)
theorem WordShape.cpyg (tag : BitVec 6) (ra rb : Reg) (x : BitVec 3) : WordShape.Statement (.cpyg tag ra rb x) := by
  refine WordShape.of_eq rfl ?_
  have h0 := tag.isLt
  have h1 := ra.isLt
  have h2 := rb.isLt
  have h3 := x.isLt
  exact WordShape.ofE (by omega) (by omega) (by omega) (by omega) (by omega) (by omega)
theorem WordShape.cpys (tag : BitVec 6) (ra rb : Reg) (x : BitVec 3) : WordShape.Statement (.cpys tag ra rb x) := by
  refine WordShape.of_eq rfl ?_
  have h0 := tag.isLt
  have h1 := ra.isLt
  have h2 := rb.isLt
  have h3 := x.isLt
  exact WordShape.ofE (by omega) (by omega) (by omega) (by omega) (by omega) (by omega)
theorem WordShape.cpyl (tag : BitVec 6) (reset : Bool) (list : BitVec 3) (ra rb : Reg) (x : BitVec 3) : WordShape.Statement (.cpyl tag reset list ra rb x) := by
  refine WordShape.of_eq rfl ?_
  have h0 := tag.isLt
  have h1 := bn_le reset
  have h2 := list.isLt
  have h3 := ra.isLt
  have h4 := rb.isLt
  have h5 := x.isLt
  exact WordShape.ofE (by omega) (by omega) (by omega) (by omega) (by omega) (by omega)
theorem WordShape.cpyr (tag : BitVec 6) (list : BitVec 3) (ra : Reg) : WordShape.Statement (.cpyr tag list ra) := by
  refine WordShape.of_eq rfl ?_
  have h0 := tag.isLt
  have h1 := list.isLt
  have h2 := ra.isLt
  exact WordShape.ofE (by omega) (by omega) (by omega) (by omega) (by omega) (by omega)
theorem WordShape.evterm (idx : BitVec 5) (ra : Reg) : WordShape.Statement (.evterm idx ra) := by
  refine WordShape.of_eq rfl ?_
  have h0 := idx.isLt
  have h1 := ra.isLt
  exact WordShape.ofR (by omega) (by omega) (by omega) (by omega) (by omega)
theorem WordShape.evarm (slot : BitVec 2) (ra rb : Reg) : WordShape.Statement (.evarm slot ra rb) := by
  refine WordShape.of_eq rfl ?_
  have h0 := slot.isLt
  have h1 := ra.isLt
  have h2 := rb.isLt
  exact WordShape.ofR (by omega) (by omega) (by omega) (by omega) (by omega)
theorem WordShape.evclr (rd : Reg) (idx : BitVec 5) : WordShape.Statement (.evclr rd idx) := by
  refine WordShape.of_eq rfl ?_
  have h0 := rd.isLt
  have h1 := idx.isLt
  exact WordShape.ofR (by omega) (by omega) (by omega) (by omega) (by omega)
theorem WordShape.launch (rd ra : Reg) : WordShape.Statement (.launch rd ra) := by
  refine WordShape.of_eq rfl ?_
  have h0 := rd.isLt
  have h1 := ra.isLt
  exact WordShape.ofR (by omega) (by omega) (by omega) (by omega) (by omega)
theorem WordShape.launchRel (rd ra : Reg) : WordShape.Statement (.launchRel rd ra) := by
  refine WordShape.of_eq rfl ?_
  have h0 := rd.isLt
  have h1 := ra.isLt
  exact WordShape.ofR (by omega) (by omega) (by omega) (by omega) (by omega)
theorem WordShape.hsig (ring : BitVec 2) (ra rb : Reg) : WordShape.Statement (.hsig ring ra rb) := by
  refine WordShape.of_eq rfl ?_
  have h0 := ring.isLt
  have h1 := ra.isLt
  have h2 := rb.isLt
  exact WordShape.ofR (by omega) (by omega) (by omega) (by omega) (by omega)
theorem WordShape.propen (retract : Bool) (rd ra rb : Reg) (x : BitVec 3) : WordShape.Statement (.propen retract rd ra rb x) := by
  refine WordShape.of_eq rfl ?_
  have h0 := bn_le retract
  have h1 := rd.isLt
  have h2 := ra.isLt
  have h3 := rb.isLt
  have h4 := x.isLt
  exact WordShape.ofE (by omega) (by omega) (by omega) (by omega) (by omega) (by omega)
theorem WordShape.predeem (rd ra rb : Reg) : WordShape.Statement (.predeem rd ra rb) := by
  refine WordShape.of_eq rfl ?_
  have h0 := rd.isLt
  have h1 := ra.isLt
  have h2 := rb.isLt
  exact WordShape.ofE (by omega) (by omega) (by omega) (by omega) (by omega) (by omega)
theorem WordShape.pquery (rd ra : Reg) : WordShape.Statement (.pquery rd ra) := by
  refine WordShape.of_eq rfl ?_
  have h0 := rd.isLt
  have h1 := ra.isLt
  exact WordShape.ofE (by omega) (by omega) (by omega) (by omega) (by omega) (by omega)
theorem WordShape.pretract (rd ra : Reg) : WordShape.Statement (.pretract rd ra) := by
  refine WordShape.of_eq rfl ?_
  have h0 := rd.isLt
  have h1 := ra.isLt
  exact WordShape.ofE (by omega) (by omega) (by omega) (by omega) (by omega) (by omega)
theorem WordShape.ctarmRaw (ra rb : Reg) : WordShape.Statement (.ctarmRaw ra rb) := by
  refine WordShape.of_eq rfl ?_
  have h0 := ra.isLt
  have h1 := rb.isLt
  exact WordShape.ofR (by omega) (by omega) (by omega) (by omega) (by omega)
theorem WordShape.ctarmAmax (ra rb : Reg) : WordShape.Statement (.ctarmAmax ra rb) := by
  refine WordShape.of_eq rfl ?_
  have h0 := ra.isLt
  have h1 := rb.isLt
  exact WordShape.ofR (by omega) (by omega) (by omega) (by omega) (by omega)
theorem WordShape.ctarmMin (ra rb : Reg) : WordShape.Statement (.ctarmMin ra rb) := by
  refine WordShape.of_eq rfl ?_
  have h0 := ra.isLt
  have h1 := rb.isLt
  exact WordShape.ofR (by omega) (by omega) (by omega) (by omega) (by omega)
theorem WordShape.ctresW (rd rb : Reg) : WordShape.Statement (.ctresW rd rb) := by
  refine WordShape.of_eq rfl ?_
  have h0 := rd.isLt
  have h1 := rb.isLt
  exact WordShape.ofR (by omega) (by omega) (by omega) (by omega) (by omega)
theorem WordShape.ctresId (rd rb : Reg) : WordShape.Statement (.ctresId rd rb) := by
  refine WordShape.of_eq rfl ?_
  have h0 := rd.isLt
  have h1 := rb.isLt
  exact WordShape.ofR (by omega) (by omega) (by omega) (by omega) (by omega)
theorem WordShape.ctcancel (rd rb : Reg) : WordShape.Statement (.ctcancel rd rb) := by
  refine WordShape.of_eq rfl ?_
  have h0 := rd.isLt
  have h1 := rb.isLt
  exact WordShape.ofR (by omega) (by omega) (by omega) (by omega) (by omega)
theorem WordShape.start (k : BitVec 5) (ra rb : Reg) : WordShape.Statement (.start k ra rb) := by
  refine WordShape.of_eq rfl ?_
  have h0 := k.isLt
  have h1 := ra.isLt
  have h2 := rb.isLt
  exact WordShape.ofR (by omega) (by omega) (by omega) (by omega) (by omega)
theorem WordShape.hjoin (rd : Reg) (k : BitVec 5) : WordShape.Statement (.hjoin rd k) := by
  refine WordShape.of_eq rfl ?_
  have h0 := rd.isLt
  have h1 := k.isLt
  exact WordShape.ofR (by omega) (by omega) (by omega) (by omega) (by omega)
theorem WordShape.halt : WordShape.Statement .halt :=
  WordShape.of_eq rfl (by unfold WordShape.Ok; decide)
theorem WordShape.yield : WordShape.Statement .yield :=
  WordShape.of_eq rfl (by unfold WordShape.Ok; decide)
theorem WordShape.follow : WordShape.Statement .follow :=
  WordShape.of_eq rfl (by unfold WordShape.Ok; decide)
theorem WordShape.unfollow : WordShape.Statement .unfollow :=
  WordShape.of_eq rfl (by unfold WordShape.Ok; decide)
theorem WordShape.mfsr (rd : Reg) (sr : BitVec 12) : WordShape.Statement (.mfsr rd sr) := by
  refine WordShape.of_eq rfl ?_
  have h0 := rd.isLt
  have h1 := sr.isLt
  exact WordShape.ofI (by omega) (by omega) (by omega) (by omega)
theorem WordShape.mtsr (sr : BitVec 12) (ra : Reg) : WordShape.Statement (.mtsr sr ra) := by
  refine WordShape.of_eq rfl ?_
  have h0 := sr.isLt
  have h1 := ra.isLt
  exact WordShape.ofI (by omega) (by omega) (by omega) (by omega)
theorem WordShape.trap (code : BitVec 12) (ra : Reg) : WordShape.Statement (.trap code ra) := by
  refine WordShape.of_eq rfl ?_
  have h0 := code.isLt
  have h1 := ra.isLt
  exact WordShape.ofI (by omega) (by omega) (by omega) (by omega)
theorem WordShape.brk (code : BitVec 12) : WordShape.Statement (.brk code) := by
  refine WordShape.of_eq rfl ?_
  have h0 := code.isLt
  exact WordShape.ofI (by omega) (by omega) (by omega) (by omega)
theorem WordShape.wfe : WordShape.Statement .wfe :=
  WordShape.of_eq rfl (by unfold WordShape.Ok; decide)
theorem WordShape.nop : WordShape.Statement .nop :=
  WordShape.of_eq rfl (by unfold WordShape.Ok; decide)
theorem WordShape.xset (xd : BitVec 3) (ra : Reg) : WordShape.Statement (.xset xd ra) := by
  refine WordShape.of_eq rfl ?_
  have h0 := xd.isLt
  have h1 := ra.isLt
  exact WordShape.ofI (by omega) (by omega) (by omega) (by omega)
theorem WordShape.xld (xd : BitVec 3) (ra : Reg) (off : BitVec 14) : WordShape.Statement (.xld xd ra off) := by
  refine WordShape.of_eq rfl ?_
  have h0 := xd.isLt
  have h1 := ra.isLt
  have h2 := off.isLt
  exact WordShape.ofI (by omega) (by omega) (by omega) (by omega)
theorem WordShape.addiCS0 (rd : BitVec 4) (imm : BitVec 7) : WordShape.Statement (.addiCS0 rd imm) := by
  refine WordShape.of_eq rfl ?_
  have h0 := rd.isLt
  have h1 := imm.isLt
  exact WordShape.ofC (by omega) (by omega)
theorem WordShape.addiC (rd : BitVec 4) (imm : BitVec 7) : WordShape.Statement (.addiC rd imm) := by
  refine WordShape.of_eq rfl ?_
  have h0 := rd.isLt
  have h1 := imm.isLt
  exact WordShape.ofC (by omega) (by omega)
theorem WordShape.addCS0 (rd ra : BitVec 4) : WordShape.Statement (.addCS0 rd ra) := by
  refine WordShape.of_eq rfl ?_
  have h0 := rd.isLt
  have h1 := ra.isLt
  exact WordShape.ofC (by omega) (by omega)
theorem WordShape.addC (rd ra : BitVec 4) : WordShape.Statement (.addC rd ra) := by
  refine WordShape.of_eq rfl ?_
  have h0 := rd.isLt
  have h1 := ra.isLt
  exact WordShape.ofC (by omega) (by omega)
theorem WordShape.subC (rd ra : BitVec 4) : WordShape.Statement (.subC rd ra) := by
  refine WordShape.of_eq rfl ?_
  have h0 := rd.isLt
  have h1 := ra.isLt
  exact WordShape.ofC (by omega) (by omega)
theorem WordShape.andC (rd ra : BitVec 4) : WordShape.Statement (.andC rd ra) := by
  refine WordShape.of_eq rfl ?_
  have h0 := rd.isLt
  have h1 := ra.isLt
  exact WordShape.ofC (by omega) (by omega)
theorem WordShape.orC (rd ra : BitVec 4) : WordShape.Statement (.orC rd ra) := by
  refine WordShape.of_eq rfl ?_
  have h0 := rd.isLt
  have h1 := ra.isLt
  exact WordShape.ofC (by omega) (by omega)
theorem WordShape.xorC (rd ra : BitVec 4) : WordShape.Statement (.xorC rd ra) := by
  refine WordShape.of_eq rfl ?_
  have h0 := rd.isLt
  have h1 := ra.isLt
  exact WordShape.ofC (by omega) (by omega)
theorem WordShape.slliC (rd : BitVec 4) (sh : BitVec 6) : WordShape.Statement (.slliC rd sh) := by
  refine WordShape.of_eq rfl ?_
  have h0 := rd.isLt
  have h1 := sh.isLt
  exact WordShape.ofC (by omega) (by omega)
theorem WordShape.ldDC (rd ra : BitVec 4) (off : BitVec 3) : WordShape.Statement (.ldDC rd ra off) := by
  refine WordShape.of_eq rfl ?_
  have h0 := rd.isLt
  have h1 := ra.isLt
  have h2 := off.isLt
  exact WordShape.ofC (by omega) (by omega)
theorem WordShape.stDC (rd ra : BitVec 4) (off : BitVec 3) : WordShape.Statement (.stDC rd ra off) := by
  refine WordShape.of_eq rfl ?_
  have h0 := rd.isLt
  have h1 := ra.isLt
  have h2 := off.isLt
  exact WordShape.ofC (by omega) (by omega)
theorem WordShape.beqC (ra : BitVec 4) (off : BitVec 7) : WordShape.Statement (.beqC ra off) := by
  refine WordShape.of_eq rfl ?_
  have h0 := ra.isLt
  have h1 := off.isLt
  exact WordShape.ofC (by omega) (by omega)
theorem WordShape.bneC (ra : BitVec 4) (off : BitVec 7) : WordShape.Statement (.bneC ra off) := by
  refine WordShape.of_eq rfl ?_
  have h0 := ra.isLt
  have h1 := off.isLt
  exact WordShape.ofC (by omega) (by omega)
theorem WordShape.jC (off : BitVec 11) : WordShape.Statement (.jC off) := by
  refine WordShape.of_eq rfl ?_
  have h0 := off.isLt
  exact WordShape.ofC (by omega) (by omega)
theorem WordShape.jrC (ra : BitVec 4) : WordShape.Statement (.jrC ra) := by
  refine WordShape.of_eq rfl ?_
  have h0 := ra.isLt
  exact WordShape.ofC (by omega) (by omega)
theorem WordShape.andiC (rd : BitVec 4) (imm : BitVec 7) : WordShape.Statement (.andiC rd imm) := by
  refine WordShape.of_eq rfl ?_
  have h0 := rd.isLt
  have h1 := imm.isLt
  exact WordShape.ofC (by omega) (by omega)
theorem WordShape.perstReset : WordShape.Statement .perstReset := WordShape.of_none rfl
theorem WordShape.dieAuthentication : WordShape.Statement .dieAuthentication := WordShape.of_none rfl
theorem WordShape.dieAuthTimeout : WordShape.Statement .dieAuthTimeout := WordShape.of_none rfl
theorem WordShape.rvClearImage : WordShape.Statement .rvClearImage := WordShape.of_none rfl
theorem WordShape.rvAppend : WordShape.Statement .rvAppend := WordShape.of_none rfl
theorem WordShape.rvVerifyWrite : WordShape.Statement .rvVerifyWrite := WordShape.of_none rfl
theorem WordShape.rvReset : WordShape.Statement .rvReset := WordShape.of_none rfl
theorem WordShape.flowFaultAssert : WordShape.Statement .flowFaultAssert := WordShape.of_none rfl
theorem WordShape.flowFaultDeassert : WordShape.Statement .flowFaultDeassert := WordShape.of_none rfl
theorem WordShape.flitReceive : WordShape.Statement .flitReceive := WordShape.of_none rfl
theorem WordShape.flitReplay : WordShape.Statement .flitReplay := WordShape.of_none rfl
theorem WordShape.portRetrain : WordShape.Statement .portRetrain := WordShape.of_none rfl
theorem WordShape.portRetrainEnd : WordShape.Statement .portRetrainEnd := WordShape.of_none rfl
theorem WordShape.portDown : WordShape.Statement .portDown := WordShape.of_none rfl
theorem WordShape.portBringUp : WordShape.Statement .portBringUp := WordShape.of_none rfl
theorem WordShape.mldredRoot : WordShape.Statement .mldredRoot := WordShape.of_none rfl
theorem WordShape.memberRead : WordShape.Statement .memberRead := WordShape.of_none rfl
theorem WordShape.memberTimeout : WordShape.Statement .memberTimeout := WordShape.of_none rfl
theorem WordShape.mcstStage : WordShape.Statement .mcstStage := WordShape.of_none rfl
theorem WordShape.mcstCommit : WordShape.Statement .mcstCommit := WordShape.of_none rfl
theorem WordShape.memberCommitWrite : WordShape.Statement .memberCommitWrite := WordShape.of_none rfl
theorem WordShape.killNotice : WordShape.Statement .killNotice := WordShape.of_none rfl
theorem WordShape.flrPf : WordShape.Statement .flrPf := WordShape.of_none rfl
theorem WordShape.flrVf : WordShape.Statement .flrVf := WordShape.of_none rfl
theorem WordShape.cmdRingEnable : WordShape.Statement .cmdRingEnable := WordShape.of_none rfl
theorem WordShape.cmdRingDisable : WordShape.Statement .cmdRingDisable := WordShape.of_none rfl
theorem WordShape.crtailDoorbell : WordShape.Statement .crtailDoorbell := WordShape.of_none rfl
theorem WordShape.completionRingEnable : WordShape.Statement .completionRingEnable := WordShape.of_none rfl
theorem WordShape.tokenRingEnable : WordShape.Statement .tokenRingEnable := WordShape.of_none rfl
theorem WordShape.cpheadWrite : WordShape.Statement .cpheadWrite := WordShape.of_none rfl
theorem WordShape.tkheadWrite : WordShape.Statement .tkheadWrite := WordShape.of_none rfl
theorem WordShape.icctlWrite : WordShape.Statement .icctlWrite := WordShape.of_none rfl
theorem WordShape.coalesceTimerExpiry : WordShape.Statement .coalesceTimerExpiry := WordShape.of_none rfl
theorem WordShape.msixUnmask : WordShape.Statement .msixUnmask := WordShape.of_none rfl
theorem WordShape.offloadEntryDone : WordShape.Statement .offloadEntryDone := WordShape.of_none rfl
theorem WordShape.replayEntryDone : WordShape.Statement .replayEntryDone := WordShape.of_none rfl
theorem WordShape.fwMailboxMessage : WordShape.Statement .fwMailboxMessage := WordShape.of_none rfl
theorem WordShape.partCreate : WordShape.Statement .partCreate := WordShape.of_none rfl
theorem WordShape.partDestroy : WordShape.Statement .partDestroy := WordShape.of_none rfl
theorem WordShape.groupSet : WordShape.Statement .groupSet := WordShape.of_none rfl
theorem WordShape.attest : WordShape.Statement .attest := WordShape.of_none rfl
theorem WordShape.keyImport : WordShape.Statement .keyImport := WordShape.of_none rfl
theorem WordShape.traceSet : WordShape.Statement .traceSet := WordShape.of_none rfl
theorem WordShape.inspect : WordShape.Statement .inspect := WordShape.of_none rfl
theorem WordShape.mapPage : WordShape.Statement .mapPage := WordShape.of_none rfl
theorem WordShape.unmapPage : WordShape.Statement .unmapPage := WordShape.of_none rfl
theorem WordShape.unmapDone : WordShape.Statement .unmapDone := WordShape.of_none rfl
theorem WordShape.energyUpdate : WordShape.Statement .energyUpdate := WordShape.of_none rfl
theorem WordShape.throttleEnd : WordShape.Statement .throttleEnd := WordShape.of_none rfl
theorem WordShape.dmCollapse : WordShape.Statement .dmCollapse := WordShape.of_none rfl
theorem WordShape.dmWake : WordShape.Statement .dmWake := WordShape.of_none rfl
theorem WordShape.dwellExpiry : WordShape.Statement .dwellExpiry := WordShape.of_none rfl
theorem WordShape.collapseComplete : WordShape.Statement .collapseComplete := WordShape.of_none rfl
theorem WordShape.dmtimerExpiry : WordShape.Statement .dmtimerExpiry := WordShape.of_none rfl
theorem WordShape.wakeWrite : WordShape.Statement .wakeWrite := WordShape.of_none rfl
theorem WordShape.wakeComplete : WordShape.Statement .wakeComplete := WordShape.of_none rfl
theorem WordShape.peekRead : WordShape.Statement .peekRead := WordShape.of_none rfl
theorem WordShape.peekIdle : WordShape.Statement .peekIdle := WordShape.of_none rfl
theorem WordShape.entryRegister : WordShape.Statement .entryRegister := WordShape.of_none rfl
theorem WordShape.armWindowOpen : WordShape.Statement .armWindowOpen := WordShape.of_none rfl
theorem WordShape.armWindowClose : WordShape.Statement .armWindowClose := WordShape.of_none rfl
theorem WordShape.roundEnd : WordShape.Statement .roundEnd := WordShape.of_none rfl
theorem WordShape.channelFail : WordShape.Statement .channelFail := WordShape.of_none rfl
theorem WordShape.nodeBind : WordShape.Statement .nodeBind := WordShape.of_none rfl
theorem WordShape.nodeSelect : WordShape.Statement .nodeSelect := WordShape.of_none rfl
theorem WordShape.nodeComplete : WordShape.Statement .nodeComplete := WordShape.of_none rfl
theorem WordShape.levelPromotion : WordShape.Statement .levelPromotion := WordShape.of_none rfl
theorem WordShape.preemptChoice : WordShape.Statement .preemptChoice := WordShape.of_none rfl
theorem WordShape.collectorStop : WordShape.Statement .collectorStop := WordShape.of_none rfl
theorem WordShape.nodeSuspend : WordShape.Statement .nodeSuspend := WordShape.of_none rfl
theorem WordShape.yieldExpiry : WordShape.Statement .yieldExpiry := WordShape.of_none rfl
theorem WordShape.wfeTimeout : WordShape.Statement .wfeTimeout := WordShape.of_none rfl
theorem WordShape.followTimeout : WordShape.Statement .followTimeout := WordShape.of_none rfl
theorem WordShape.messageDeliver : WordShape.Statement .messageDeliver := WordShape.of_none rfl
theorem WordShape.engineJobEnd : WordShape.Statement .engineJobEnd := WordShape.of_none rfl
theorem WordShape.niThreadEnd : WordShape.Statement .niThreadEnd := WordShape.of_none rfl
theorem WordShape.reconcileJobEnd : WordShape.Statement .reconcileJobEnd := WordShape.of_none rfl
theorem WordShape.cwaitRequest : WordShape.Statement .cwaitRequest := WordShape.of_none rfl
theorem WordShape.uncorrectableError : WordShape.Statement .uncorrectableError := WordShape.of_none rfl
theorem WordShape.correctableError : WordShape.Statement .correctableError := WordShape.of_none rfl
theorem WordShape.frameRetire : WordShape.Statement .frameRetire := WordShape.of_none rfl
theorem WordShape.fabricRequest : WordShape.Statement .fabricRequest := WordShape.of_none rfl
theorem WordShape.perform : WordShape.Statement .perform := WordShape.of_none rfl
theorem WordShape.engineStart : WordShape.Statement .engineStart := WordShape.of_none rfl
theorem WordShape.holdSend : WordShape.Statement .holdSend := WordShape.of_none rfl
theorem WordShape.apply : WordShape.Statement .apply := WordShape.of_none rfl
theorem WordShape.evict : WordShape.Statement .evict := WordShape.of_none rfl
theorem WordShape.dwctlFreeze : WordShape.Statement .dwctlFreeze := WordShape.of_none rfl
theorem WordShape.dwctlResume : WordShape.Statement .dwctlResume := WordShape.of_none rfl
theorem WordShape.dwctlStep : WordShape.Statement .dwctlStep := WordShape.of_none rfl
theorem WordShape.stepEnd : WordShape.Statement .stepEnd := WordShape.of_none rfl
theorem WordShape.dwctlStopeng : WordShape.Statement .dwctlStopeng := WordShape.of_none rfl
theorem WordShape.dwctlHaltc : WordShape.Statement .dwctlHaltc := WordShape.of_none rfl
theorem WordShape.breakpointStop : WordShape.Statement .breakpointStop := WordShape.of_none rfl
theorem WordShape.debugWindowWrite : WordShape.Statement .debugWindowWrite := WordShape.of_none rfl
theorem WordShape.faultPacketDeliver : WordShape.Statement .faultPacketDeliver := WordShape.of_none rfl
theorem WordShape.noticeDeliver : WordShape.Statement .noticeDeliver := WordShape.of_none rfl
theorem WordShape.registerWrite : WordShape.Statement .registerWrite := WordShape.of_none rfl
theorem WordShape.hardPowerCap : WordShape.Statement .hardPowerCap := WordShape.of_none rfl
theorem WordShape.thermalAlert : WordShape.Statement .thermalAlert := WordShape.of_none rfl
theorem WordShape.pwrgoodChange : WordShape.Statement .pwrgoodChange := WordShape.of_none rfl

end Sys2Proof.Laws
end

