-- ==== Sys2Proof/Tests/Slice0.lean ====
section
/-! SUPPORT. Tests: words that spec/ writes out, ill-formed terms, one step each of a few instructions, and states that meet
the hypotheses of each statement. -/
namespace Sys2Proof.Tests
set_option Elab.async false
open Sys2Proof.Machine Sys2Proof.Safety

/-! ### Decoding: words as spec/ writes them out -/

/-- The words decode to these instructions. -/
def decodes (l : List (Nat × Instr)) : Bool := l.all (fun e => decodeTableWord 32 e.1 = some e.2)

/-- R291, R308 to R311. -/
theorem test_decode_integer : decodes [(0x004e6281, .sub 5 6 7), (0xfffa6283, .addi 5 6 (-3)), (0x1234528d, .lui 5 0x12345),
    (0x04949401, .mulhN 8 9 10), (0x04ce6281, .div 5 6 7), (0x05527601, .rem 12 7 9), (0x4006628b, .srai 5 6 3),
    (0x7ffe628b, .slti 5 6 (-1))] = true := by decide

/-- R291, R312 to R314. -/
theorem test_decode_control : decodes [(0xfff45313, .bne 5 6 (-6)), (0x00085315, .blt 5 6 4), (0x0000101f, .jal 32),
    (0x0020908f, .jalr 1 9 16), (0x0000100f, .jalr 0 1 0)] = true := by decide

/-- R316 to R328. -/
theorem test_decode_system : decodes [(0x000c51f9, .start 3 5 6), (0x004034f9, .hjoin 9 3), (0x00800079, .halt), (0x00c00079, .yield),
    (0x01000079, .follow), (0x01400079, .unfollow), (0x000002fb, .mfsr 5 0), (0x2010607b, .mtsr 8 6), (0x020403fb, .mfsr 7 0x102),
    (0x4054507b, .trap 0x2a 5), (0x6000007b, .brk 0), (0x8000007b, .wfe), (0xa000007b, .nop), (0x0000517d, .xset 2 5),
    (0x800641fd, .xld 3 4 3)] = true := by decide

/-- R332 to R335. -/
theorem test_decode_accesses : decodes [(0x008662a1, .ld 5 6 2 0 3), (0xffd483a3, .st 7 8 (-1) 1 2),
    (0x5200b325, .ldIndexed 6 11 0 true 2 2 0), (0xdb18b2a5, .stIndexed 5 11 12 true 3 3 0), (0x00806229, .ldv 4 6 2 0),
    (0x000aa129, .stvPair 2 10 0 0), (0x0020682b, .ldt true 6 0 true), (0x202432a7, .ldRingSlot 5 3 2 2 2),
    (0x000e33a7, .stRingSlot 7 3 0 0 3)] = true := by decide

/-- R336 to R341. -/
theorem test_decode_remote : decodes [(0x7c0e62b3, .ratomAdd 5 6 7 3 true true true), (0x5e4e62b9, .amoCas 5 6 7 2 3 true),
    (0x380a44b1, .get 41 4 5 2), (0x0018b035, .rwb 11 12), (0x0058b035, .rinv 11 12), (0x200a4337, .mldred 6 4 5 1)] = true := by decide

/-- R343 to R350. -/
theorem test_decode_sync : decodes [(0x640a603b, .caddRel 6 5 3), (0x644a603b, .cwaitAcq 6 5 3), (0x04c402bb, .barrRel 5 2),
    (0x0104503b, .bwait 2 5), (0x618002bb, .sstep 5 3), (0x02c0003d, .fenceSc 2), (0x0040503f, .twall 5), (0x0cc0503f, .rinit 3 5 0),
    (0x0d80603f, .radvp 3 6), (0x0e0002bf, .recv 5 3), (0x0dc0603f, .radvc 3 6)] = true := by decide

/-- R358 to R367. -/
theorem test_decode_vector : decodes [(0x000c5241, .vaddFloat .f 4 5 6 false none), (0xa0d49443, .vfma .bf 8 9 10 false (some 2)),
    (0x080a40cd, .vcmplt 1 4 5 0 none), (0x0890734f, .vperm 2 6 7 8 none), (0x02021151, .vcvt 0 2 0 2 1 1),
    (0x03861151, .vcvt 0 3 2 2 1 3), (0x000044d3, .vredadd 9 4 0 none), (0x0c0044d3, .vamax 9 4 0 none),
    (0x40001155, .vscc 0 false 2 1 3), (0x48001155, .vscc 2 false 2 1 3), (0x41401155, .vquant 0 true 2 1 3),
    (0x308e5355, .vfacm 0 6 5 7 2), (0x010022d7, .mpop 5 2)] = true := by decide

/-- R375 to R379. -/
theorem test_decode_matrix : decodes [(0x200c5059, .mm 0 false false 0 5 6 (some 1)), (0x040c50d9, .mm 1 false false 1 5 6 none),
    (0x480c515b, .mmg 2 false false 2 5 6 3), (0x360c51dd, .mmQ 1 true false 3 5 6 2), (0x0000005f, .aczero 0),
    (0x204080df, .acld 2 1 8), (0x3480915f, .acst 3 true 2 9), (0x000840e1, .scaccVector false false 1 0 true 4),
    (0x618000e1, .scaccXreg true false 1 0 false 5)] = true := by decide

/-- R385 to R405. -/
theorem test_decode_engines : decodes [(0x380a44e9, .cpy 41 4 5 2), (0x204e61e9, .cpy2 3 6 7 1), (0x410a43eb, .cpyl 7 false 2 4 5 3),
    (0x0140646b, .cpyr 8 2 6), (0x40005071, .evterm 16 5), (0x644c5071, .evarm 1 5 6), (0x648003f1, .evclr 7 25),
    (0x000062f3, .launch 5 6), (0x004062f3, .launchRel 5 6), (0x028c5073, .hsig 2 5 6), (0x200e62f5, .propen false 5 6 7 1),
    (0x210e62f5, .propen true 5 6 7 1), (0x00525475, .predeem 8 5 9), (0x00805575, .pquery 10 5), (0x00c055f5, .pretract 11 5)] = true := by
  decide

/-- R290, R295: two words of 16 bits, and the word of zeros, which is none. -/
theorem test_decode_short : decodeTableWord 16 0xfaa2 = some (.addiC 5 (-3)) ∧ decodeTableWord 16 0x64b2 = some (.ldDC 5 6 2) ∧
    decodeTableWord 16 0 = none ∧ decodeTableWord 16 2 = some (.addiC 0 0) := by decide

/-- R118: major 0x3b, with the operation in fn10. -/
theorem test_decode_contest : decodeTableWord 32 (1 + 2 * 0x3b + 2 ^ 12 * 5 + 2 ^ 17 * 6) = some (.ctarmRaw 5 6) := by decide

/-! ### Ill-formed terms -/

/-- A term of each check of `Instr.wf`, which refuses it. -/
theorem test_ill_formed : [Instr.ld 1 2 0 0 7, .ld 1 2 0 3 0, .st 1 2 0 3 0, .ldIndexed 1 2 3 false 0 7 0, .ldIndexed 1 2 3 false 0 0 3,
    .ldIndexed 1 2 3 false 1 0 0, .stIndexed 1 2 3 true 5 0 0, .stIndexed 1 2 3 true 0 0 3, .ldv 1 2 0 3, .ldvPair 31 2 0 0,
    .ldvPair 1 2 0 3, .ratomAdd 1 2 3 0 false false true, .ratomAdd 0 2 3 1 false true true, .amoAdd 1 2 3 5 1 true, .amoAdd 1 2 3 1 0 true,
    .caddRel 1 2 5, .cwaitAcq 1 2 5, .sstep 1 5, .fenceAcq 5, .vcmpeq 0 1 2 3 none, .vcvt 0 0 0 1 2 0, .vredadd 1 2 3 none,
    .vscc 3 false 1 2 0, .mm 1 true false 0 1 2 none, .mmQ 3 false false 0 1 2 0, .acld 5 0 2, .scaccVector false false 0 0 false 31,
    .evterm 24 1, .evclr 1 28, .addiCS0 0 0].all (fun i => !i.wf) = true := by decide

/-- An input that names no agent. -/
theorem test_ill_formed_input : [{ Input.none with core := 3072 }, { Input.none with ctx := 11 }, { Input.none with part := 64 },
    { Input.none with vf := 1024 }, { Input.none with ring := 8 }, { Input.none with vector := 16 }, { Input.none with ch := 16 },
    { Input.none with port := 16 }, { Input.none with die := 4 }, { Input.none with line := 1 }, { Input.none with site := .core 3072 },
    { Input.none with space := .vf 1024 }, { Input.none with mailbox := .supervisor 64 }].all (fun i => !i.wf) = true := by decide

/-! ### States for the tests -/

def tPart : Partition :=
  { Partition.absent with
    present := true
    supervisor := 767
    rects := [{ die := 0, row := 0, col := 0, rows := 24, cols := 32 }] }

/-- Core 0 runs context 0, which `g` sets up; `f` sets up the rest of the core. -/
def st (f : Core → Core) (g : Context → Context) : State :=
  { State.reset with
    cores := [(0, (f Core.reset).modContext 0 (fun c => g { c with status := .live }))]
    parts := [(0, tPart)] }

/-- As `st`, in partition 0, which node 7 gives the core to. -/
def sn (f : Core → Core) (g : Context → Context) : State :=
  st (fun c => f { c with part := some 0, node := some 7 }) g

def reg (r : Nat) (v : DWord) : Context → Context := fun c => c.setGpr r v
def regs (l : List (Nat × DWord)) : Context → Context := fun c => l.foldl (fun c e => c.setGpr e.1 e.2) c
def xreg (k : Nat) (v : DWord) : Context → Context := fun c => { c with x := vset c.x k v }
def s0 : State := st id id

/-- The helper 1 of core 0 issues. -/
def helper (s : State) : State := { s with cur := (0, 1) }

/-- What a step does to the running context's registers and PC. -/
def after1 (i : Instr) (s : State) (p : Context → Bool) : Bool := match exec i s with | .next t => p t.here | _ => false

/-! ### One step of a few instructions: the worked examples and corners of spec/ -/

/-- R309: −7 / 2 = −3, the remainder −1; division by 0 gives all ones; −2^63 / −1. -/
theorem test_division : after1 (.div 1 2 3) (st id (regs [(2, -7), (3, 2)])) (fun c => c.gpr 1 = -3 && c.pc = 4) = true ∧
    after1 (.rem 1 2 3) (st id (regs [(2, -7), (3, 2)])) (fun c => c.gpr 1 = -1) = true ∧
    after1 (.divN 1 2 3) (st id (reg 2 5)) (fun c => c.gpr 1 = 0xffffffffffffffff) = true ∧
    after1 (.div 1 2 3) (st id (regs [(2, 0x8000000000000000), (3, -1)])) (fun c => c.gpr 1 = 0x8000000000000000) = true := by decide +kernel

/-- R314: the target is read before the link is written. -/
theorem test_jalr_link : after1 (.jalr 1 1 0) (st id (reg 1 0x20)) (fun c => c.pc = 0x20 && c.gpr 1 = 4) = true := by decide +kernel

/-- R311 with R310: `lui` and `addi` with a value whose low part has bit 11 set. -/
theorem test_lui : after1 (.lui 5 0x80000) s0 (fun c => c.gpr 5 = 0xffffffff80000000) = true := by decide +kernel

/-- R307: s0 discards what is written. -/
theorem test_s0 : after1 (.addi 0 0 5) s0 (fun c => c.gpr 0 = 0 && c.pc = 4) = true := by decide +kernel

/-- R239: writing 0 into RNGV seeds 1. -/
theorem test_rngv_seed : (match exec (.mtsr 0xe 1) s0 with | .next t => t.me.rngv = 1 | _ => false) = true := by decide +kernel

/-- R367: the lowest bit, or 64. -/
theorem test_mfirst : after1 (.mfirst 1 2) (st id (fun c => { c with m := vset c.m 2 0x50 })) (fun c => c.gpr 1 = 4) = true ∧
    after1 (.mfirst 1 2) s0 (fun c => c.gpr 1 = 64) = true := by decide +kernel

/-- R326, R269: `brk` freezes with BREAK, BRK. -/
theorem test_brk : (match exec (.brk 7) s0 with
    | .next t => t.me.issue = .frozen && t.me.packet.any (fun k => k.kind = 12 && k.sub = 1) && t.here.pc = 0 | _ => false) = true := by
  decide +kernel

/-- The first step from reset with an instruction placed runs it: `addi s4, s5, -1`. -/
theorem test_first_step : (match step (State.reset.withFetchWord 32 0xfffe5203) with
    | .next t => (t.ctx 0 0).gpr 4 = 0xffffffffffffffff && (t.ctx 0 0).pc = 4 | _ => false) = true := by decide +kernel

/-- With nothing to do, a step from reset is a cycle of the clock. -/
theorem test_reset_idles : (match step State.reset with | .next t => t.clock = 1 | _ => false) = true := by decide +kernel

theorem test_reset_memory : MemoryOk State.reset = true ∧ CoreMemoryOk State.reset = true := by decide +kernel

/-- R75, R77, R80: the standard functions by the examples of FIPS 180-4 ("abc"), FIPS 197 (the S-box at 53) and RFC 8032
(the public key of the first key pair), which stand outside spec/ (log 60). -/
theorem test_crypto : (sha512 [0x61, 0x62, 0x63]).take 8 = beBytes 8 0xddaf35a193617aba ∧ sbox 0x53 = 0xed ∧ unsbox 0xed = 0x53 ∧
    ed25519Public (beBytes 32 0x9d61b19deffd5a60ba844af492ec2cc44449c5697b326919703bac031cae7f60) =
      beBytes 32 0xd75a980182b10ab7d54bfed3c964073a0ee172f3daa62325af021a68f707511a := by decide +kernel

/-! ### States that meet the hypotheses of the statements, clause by clause -/

theorem meets_RegisterOperations : Runs (st id (regs [(2, 0x8000000000000000), (3, -1)])) := by decide +kernel

theorem meets_ImmediateAndMaskOperations : Runs s0 ∧ let w := 1 + 2 * 5 + 2 ^ 29 * 5
    w < 2 ^ 32 ∧ w % 2 = 1 ∧ w / 2 % 64 = 5 ∧ 5 ≤ w / 2 ^ 29 := by decide +kernel

/-- A context at `pc`. -/
def atPc (pc : DWord) : State := st id (fun c => { c with pc := pc })

/-- Targets 0, 65,534, below 0 and above 65,534, for a condition that holds. -/
theorem meets_Branches : Runs (atPc 0) ∧ Runs (atPc 32768) ∧ Runs (atPc 65534) ∧
    [(0 : DWord), 32768, 65534].all (fun pc => (atPc pc).here.pc.toNat % 2 = 0) = true ∧
    ((atPc 0).gpr 1 = (atPc 0).gpr 2) ∧ ((st id (reg 1 5)).gpr 1 ≠ (st id (reg 1 5)).gpr 2) ∧
    (let t := fun (pc : DWord) (off : BitVec 15) => ((atPc pc).here.pc.toNat + 2 * off.toInt : Int)
     t 0 0 = 0 ∧ t 32768 16383 = 65534 ∧ t 0 (-1) < 0 ∧ 65534 < t 65534 1) := by decide +kernel

theorem meets_Jumps : Runs (atPc 65534) ∧ (atPc 65534).here.pc.toNat % 2 = 0 ∧
    (let t := fun (pc : DWord) (off : BitVec 25) => ((atPc pc).here.pc.toNat + 2 * off.toInt : Int)
     t 65534 0 = 65534 ∧ t 0 (-1) < 0 ∧ 65534 < t 65534 1) := by decide +kernel

theorem meets_Jumps_jalr : let t := fun (v : DWord) (imm : BitVec 15) => (st id (reg 1 v)).gpr 1 + imm.signExtend 64
    Runs (st id (reg 1 4)) ∧ (t 4 (-1)).toNat % 2 ≠ 0 ∧ 65534 < (t 0 (-2)).toNat ∧ (t 65534 0).toNat % 2 = 0 ∧ (t 65534 0).toNat ≤ 65534 := by
  decide +kernel

/-- The core records no trace. -/
theorem meets_Untraced : Untraced s0 s0.cur.1 := by
  intro p _
  by_cases h : p = 0
  · subst h; decide +kernel
  · simp [State.part, tget, tfind, s0, st, Ne.symm h, Partition.absent]

theorem meets_CompressedForms : Runs (atPc 65534) ∧ (atPc 0).gpr 3 = 0 ∧ (st id (reg 3 5)).gpr 3 ≠ 0 ∧
    ((atPc 65534).here.pc.toNat + 2 * (0 : BitVec 11).toInt : Int) ≤ 65534 ∧
    65534 < ((atPc 65534).here.pc.toNat + 2 * (1 : BitVec 11).toInt : Int) ∧ ((st id (reg 3 7)).gpr 3).toNat % 2 ≠ 0 := by decide +kernel

/-- Mask 1 holds the lowest bit 4. -/
def withMask : State := st id (fun c => { c with m := vset c.m 1 0x50 })

theorem meets_ImmediateAndMaskOperations_masks : Runs withMask ∧ s0.mr 1 = 0 ∧ (withMask.mr 1).getLsbD 4 = true ∧
    (∀ j, j < 4 → (withMask.mr 1).getLsbD j = false) := by decide +kernel

/-- The core's context 1 in a given state of its own. -/
def twoContexts (f : Context → Context) : State := s0.modCtx 0 1 f

theorem meets_Helpers :
    (Runs s0 ∧ s0.cur.2 = 0 ∧ (s0.ctx 0 1).status = .free ∧ (s0.ctx 0 10).status = .free ∧ s0.gprN 1 % 2 = 0 ∧ s0.gprN 1 < 65536 ∧
      ∀ e ∈ s0.me.accs, e.ctx ≠ 0) ∧
    (st id (reg 1 1)).gprN 1 % 2 = 1 ∧ (st id (reg 1 65534)).gprN 1 < 65536 ∧
    (Runs (helper (twoContexts (fun c => { c with status := .live }))) ∧ (helper s0).cur.2 ≠ 0) ∧
    ((twoContexts (fun c => { c with status := .live })).ctx 0 1).status = .live ∧
    ((twoContexts (fun c => { c with status := .done })).ctx 0 1).status = .done := by decide +kernel

/-- The state after a sleep began, as the clock stands at `n`. -/
def slept (z : Sleep) (n : Nat) : State := { st id (fun c => { c with sleep := z }) with clock := n }

theorem meets_HaltYieldWait : Runs s0 ∧ s0.here.sleep = .awake ∧ (slept (.wfe 3 true) 4).here.sleep = .wfe 3 true ∧
    (let s := slept (.yield 3) 19
     s.input.core = s.cur.1 ∧ s.input.ctx = s.cur.2 ∧ s.me.issue = .running ∧ s.here.sleep = .yield 3 ∧ 3 + 16 ≤ s.clock) ∧
    (let s := slept (.wfe 3 false) 1027
     s.here.sleep = .wfe 3 false ∧ 3 + 1024 ≤ s.clock) := by decide +kernel

/-- Cores 0 and 1 of one gang; core 0 leads. -/
def gang (f g : Core → Core) : State :=
  let s := sn f id
  s.setCore 1 (g { (s.core 0) with fstate := 0 })

theorem meets_FollowMode :
    (Runs (helper s0) ∧ (helper s0).cur.2 ≠ 0) ∧ (Runs s0 ∧ s0.cur.2 = 0 ∧ gangMates s0 0 = []) ∧
    (let s := { gang id id with cur := (1, 0) }
     Runs s ∧ gangMates s 1 ≠ [] ∧ s.me.fstate = 0 ∧ leaderOf s 1 ≠ 1 ∧ leaderGone s (leaderOf s 1) s.here.pc = false ∧
     (s.core (leaderOf s 1)).fwait = none ∧ (s.core (leaderOf s 1)).fstate ≠ 3) ∧
    s0.me.fstate = 0 ∧ (st (fun c => { c with fstate := 1 }) id).me.fstate = 1 ∧
    (let s := { gang (fun c => { (c.modContext 0 (fun x => { x with sleep := .follow 2 })) with
          fstate := 3
          fwait := some 8 }) (fun c => { c with fwait := none }) with clock := 1026 }
     s.input.core = s.cur.1 ∧ s.me.issue = .running ∧ s.here.sleep = .follow 2 ∧ s.cur.2 = 0 ∧ s.me.fwait = some 8 ∧
     leaderOf s 0 = 0 ∧ 2 + 1024 ≤ s.clock ∧ ∀ j ∈ gangMates s 0, (s.core j).fwait ≠ some 8) := by decide +kernel

def access (op : AccOp) (place : Place) (len : Nat) : Access :=
  { id := 1, ctx := 0, kind := .rc, op := op, place := place, va := 0, len := len, handoff := false, acq := false, rel := false, scope := 0,
    bypass := false, remote := false, merge := false, joined := [], pc := 0, word := 0 }

theorem meets_FaultsAndTraps : s0.cur.2 < 11 ∧ Runs (sn id id) ∧ (sn id id).partOf 0 = some 0 ∧ relDrained (sn id id) 3 = true ∧
    unsentBytes (sn id id) 0 0 0 none = false ∧
    (let s := (sn id id).modMe (fun c => { c with accs := [access (.store 7) (.phys 0x20000000) 8] })
     let s := { s with nextKey := 5 }
     relDrained s 3 = false) := by decide +kernel

/-- Broadcast register 2 of the running core's cluster, owned by a gang; a core `k` wrote it in this cycle, where there is one. -/
def castBy (s : State) (g : Nat) (k : Option Nat) : State :=
  s.modCluster (clusterKey 0) (fun c => { c with casts := vset c.casts 2 { owner := some g, value := 9, last := k.map (fun k => (s.clock, k)) } })
def casting (s : State) (g : Nat) : State := castBy s g none
def castOf (s : State) : CastReg := vget (s.cluster (clusterKey 0)).casts (0x102 - 0x100) CastReg.free
def castOwner (s : State) : Option Nat := (castOf s).owner

theorem meets_ReadSpecial : Runs s0 ∧ (sn id id).me.part = some 0 ∧ s0.me.vecQ = [] ∧ s0.me.matQ = [] ∧ castOwner s0 = none ∧
    castOwner (casting (sn id id) 7) = some (gangOf (sn id id) 0) ∧ castOwner (casting (sn id id) 8) = some 8 ∧
    8 ≠ gangOf (casting (sn id id) 8) 0 ∧ (0x011 : BitVec 12).toNat < 0x100 ∧ 0x107 < (0x108 : BitVec 12).toNat := by decide +kernel

theorem meets_WriteSpecial : Runs s0 ∧ s0.cur.2 = 0 ∧ Runs (helper s0) ∧ (helper s0).cur.2 ≠ 0 ∧
    [(0x7f : DWord), 0x82, 0xff].all (fun v => (st id (reg 1 v)).gpr 1 = v ∧ v.toNat < 256 ∧ v ≠ 0x80 ∧ v ≠ 0x81) = true ∧
    256 ≤ ((st id (reg 1 256)).gpr 1).toNat ∧ 2 ^ 32 ≤ ((st id (reg 1 (2 ^ 32))).gpr 1).toNat ∧
    [(4096 : DWord), 388864].all (fun v => (st id (reg 1 v)).gpr 1 = v ∧ v.toNat % 256 = 0 ∧ 4096 ≤ v.toNat ∧ v.toNat ≤ 388864) = true ∧
    [(1 : DWord), 3840, 4097, 389120].all (fun v => v ≠ 0 ∧ (v.toNat % 256 ≠ 0 ∨ v.toNat < 4096 ∨ 388864 < v.toNat)) = true ∧
    ((st (fun c => c.setWatch 15 { Watch.free with state := 6 }) (reg 1 4096)).me.watchAt 15).state ∈ [1, 2, 3, 4, 6] ∧
    (∀ k, k < 16 → (s0.me.watchAt k).state = 0) ∧ castOwner s0 = none ∧ (castOf s0).last = none ∧
    castOwner (casting (sn id id) 7) = some (gangOf (sn id id) 0) ∧ castOwner (casting (sn id id) 8) = some 8 ∧
    (let s := castBy (sn id id) 7 (some 15)
     (castOf s).last = some (s.clock, 15) ∧ cicOf s.cur.1 < 15 ∧ castOwner s = some (gangOf s 0)) := by decide +kernel

/-- The page at 0x1000000 of partition 0 has these attributes; node 7's core 0 issues with the registers of `g`. -/
def paged (attr : DWord) (g : Context → Context) : State :=
  (sn id g).modPart 0 (fun q => { q with pages := [{ va := 0x1000000, attr := attr }] })

/-- Present, with every right, of kind RC, in the first frame of die 0. -/
def plainAttr : DWord := 0x4007

theorem meets_AccessChecks :
    (1 % 8 ≠ 0 ∧ 8 % 8 = 0 ∧ 0x5fff8 < 0x60000 ∧ 0x60000 % 8 = 0 ∧ 0x60000 < 0x100000) ∧
    ((gang id id).sameGang 0 (coreAt 0 1) = true ∧ (gang id id).sameGang 0 (coreAt 0 2) = false) ∧
    (∀ a ∈ [(1 : Nat), 0x90000 * 2 ^ 18 + 3, 3, 2 ^ 58 + 3, 0],
      let s := paged (BitVec.ofNat 64 a) id
      (s.core 0).part = some 0 ∧ fixedPage s 0 0x1000000 = none ∧ (s.part 0).page? 0x1000000 ≠ none ∧ (s.part 0).page? 0x2000000 = none) ∧
    (let pa := fun (a : Nat) => pageFrame (BitVec.ofNat 64 a)
     paKind (pa (0x90000 * 2 ^ 18 + 3)) = .hole ∧ paKind (pa 3) ≠ .hole ∧
     (State.reset.modDie 0 (fun d => { d with excluded := 1 })).absent (pa 3) = true ∧ State.reset.absent (pa 3) = false ∧
     pagePart (BitVec.ofNat 64 (2 ^ 58 + 3)) ≠ 0 ∧ pagePart 3 = 0 ∧ homeDie (canon (pa 3)) = some (dieOf 0)) ∧
    (0x900000 % 8 = 0 ∧ 0x100000 + 0x80000 * 15 + 0x7fff8 < 0x900000 ∧ 0xfffff8 < 0x1000000 ∧ (2 ^ 56) % 8 = 0) ∧
    (let bit := fun (a : DWord) (k : Nat) => a.getLsbD k
     bit 3 0 && bit 3 1 && !bit 3 2 && !bit 5 1 && bit 7 2 && !bit 6 0 && bit 0x4407 10 && !bit 0x4007 10) = true ∧
    (let a : DWord := 0x4007 + 2 ^ 20 * 2 ^ 18
     paKind (pageFrame a) ≠ .hole ∧ homeDie (canon (pageFrame a)) = some 1 ∧ dieOf 0 = 0 ∧ pageHandoff a = false ∧
     pageHandoff (a + 0x800) = true) := by decide +kernel

def checked (e : Except Flt Target) : Bool := match e with | .ok _ => true | .error _ => false

/-- Watchpoint 3 of core 0: `n` bytes from `b`; it watches reads with bit 0 of `rw` and writes with bit 1. -/
def watched (b n rw : Nat) (g : Context → Context) : State := st (fun c => { c with
  wpb := vset c.wpb 3 (BitVec.ofNat 64 b)
  wpc := vset c.wpc 3 (BitVec.ofNat 64 (4 * n + rw)) }) g

def watches (s : State) (k bit : Nat) : Bool := (vget s.me.wpc k 0).getLsbD bit

theorem meets_LoadsIssue : let s := st id (reg 2 8)
    Runs s ∧ checked (checkAcc s 0 .load 8 8) = true ∧ checked (checkAcc s 0 .load 9 8) = false ∧ watches s 3 0 = false ∧
    checked (checkAcc s 0 .xload 8 8) = true ∧ checked (checkAcc s 0 .xload 9 8) = false ∧
    footHolds s 0 false (.lm 0 8) 8 = false ∧
    (let w := watched 15 4096 1 id
     Runs w ∧ watches w 3 0 = true ∧ (vget w.me.wpb 3 0).toNat % 2 ^ 56 = 15 ∧ (vget w.me.wpc 3 0).toNat / 4 % 2 ^ 14 = 4096 ∧
     15 < 8 + 8 ∧ checked (checkAcc w 0 .load 8 8) = true) := by decide +kernel

theorem meets_StoresIssue : let s := st id (reg 2 0x5fff8)
    Runs s ∧ checked (checkAcc s 0 .store 0x5fff8 8) = true ∧ checked (checkAcc s 0 .store 0x60000 8) = false ∧
    watches s 3 1 = false ∧ footHolds s 0 true (.lm 0 0x5fff8) 8 = false ∧
    (let w := watched 0x5ffff 1 2 id
     Runs w ∧ watches w 3 1 = true ∧ watches w 3 0 = false ∧ (vget w.me.wpb 3 0).toNat % 2 ^ 56 = 0x5ffff ∧
     (vget w.me.wpc 3 0).toNat / 4 % 2 ^ 14 = 1 ∧ checked (checkAcc w 0 .store 0x5fff8 8) = true) := by decide +kernel

/-- Handle 3 of core 0: four entries of 64 bytes at 0x1000, of which `n` are filled. -/
def ringOf (n : BitVec 16) : Handle :=
  { home := 0, base := 0x1000, ssize := 64, count := 4, head := 0xffff, tail := 0xffff + n, proxy := false }
def ringed (n : BitVec 16) : State := st (fun c => { c with handles := vset c.handles 3 (ringOf n) }) id

theorem meets_RingSlotAccesses :
    (Runs s0 ∧ (∀ e ∈ s0.me.accs, e.ctx ≠ s0.cur.2) ∧ (vget s0.me.handles 3 Handle.unset).proxy = false ∧
      (vget s0.me.handles 3 Handle.unset).count = 0) ∧
    (let s := ringed 1
     let r := vget s.me.handles 3 Handle.unset
     Runs s ∧ r.proxy = false ∧ r.count ≠ 0 ∧ r.filled ≤ 1 ∧ 0 < r.filled ∧ r.count.toNat - r.filled ≤ 3 ∧ 2 < r.count.toNat - r.filled ∧
     r.ssize.toNat < 8 * 8 + 8 ∧ 7 * 8 + 8 ≤ r.ssize.toNat ∧ s.me.matQ = [] ∧ watchHit s.me (0x1000 + 65535 % 4 * 64) 8 false = none ∧
     watchHit s.me 0x1000 8 true = none) := by decide +kernel

/-- An access of 64 bytes meets neither a watchpoint nor the footprint of a matrix job. -/
def unhindered (s : State) (wr : Bool) (a : Nat) (pl : Place) : Bool :=
  (watchHit s.me a 64 wr).isNone && !footHolds s 0 wr pl 64

/-- The place of a tile in LM, with its first and its last row unhindered. -/
def tileAt (s : State) (a c off : Nat) : Bool :=
  localPlace s.cur.1 a = some (c, off) && (List.range 16).all (fun r =>
    unhindered s false (a + 128 * r) (.lm c (off + 128 * r)) && unhindered s true (a + 128 * r) (.lm c (off + 128 * r)))

theorem meets_VectorAndTileAccesses : Runs s0 ∧
    (∀ a ∈ [(0 : Nat), 0x5ff80], [AccClass.load, .store].all (fun cls =>
      checked (checkAcc s0 0 cls a 64) && checked (checkAcc s0 0 cls (a + 64) 64)) = true ∧
      unhindered s0 false a (.lm 0 a) = true ∧ unhindered s0 true (a + 64) (.lm 0 (a + 64)) = true) ∧
    [AccClass.load, .store].all (fun cls => !checked (checkAcc s0 0 cls 1 64) && checked (checkAcc s0 0 cls 0x5ffc0 64) &&
      !checked (checkAcc s0 0 cls 0x60000 64)) = true ∧
    localPlace 0 0x60000 = none ∧ localPlace 0 1 = some (0, 1) ∧ 1 % 64 ≠ 0 ∧
    (localPlace 0 0x5f880 = some (0, 0x5f880) ∧ 0x5f880 % 64 = 0 ∧ 393215 < 0x5f880 + 1983) ∧
    (tileAt s0 0x5f840 0 0x5f840 = true ∧ 0x5f840 % 64 = 0 ∧ 0x5f840 + 1983 ≤ 393215 ∧ s0.sameGang 0 0 = true) ∧
    (tileAt s0 0x180000 (coreAt 0 1) 0 = true ∧ s0.sameGang 0 (coreAt 0 1) = false) := by decide +kernel

/-- A watchpoint on the last byte of the first granule, on the first of the second alone, and on row 15 of a tile alone. -/
theorem meets_VectorAndTileAccesses_watched :
    let hits (s : State) (wr : Bool) (a : Nat) : Bool := (watchHit s.me a 64 wr).isSome
    (let s := watched 63 1 3 id
     Runs s ∧ hits s false 0 = true ∧ hits s true 0 = true ∧ watches s 3 0 = true ∧ watches s 3 1 = true) ∧
    (let s := watched 64 1 3 id
     hits s false 0 = false ∧ hits s false 64 = true ∧ hits s true 0 = false ∧ hits s true 64 = true ∧
     checked (checkAcc s 0 .load 64 64) = true ∧ checked (checkAcc s 0 .store 64 64) = true) ∧
    (let s := watched (128 * 15 + 63) 1 3 id
     ∀ wr, hits s wr (128 * 15) = true ∧ ∀ q, q < 15 → hits s wr (128 * q) = false) := by decide +kernel

theorem meets_AtomicsIssue :
    (let s := paged plainAttr (regs [(2, 0x1000000), (3, 5)])
     Runs s ∧ 0x1000000 % 8 = 0 ∧ 0x1000000 / 2 ^ 56 ≠ 128 ∧ checked (checkAcc s 0 .atomic 0x1000000 8) = true ∧
     footHolds s 0 true (.phys 0) 8 = false) ∧
    (Runs s0 ∧ checked (checkAcc s0 0 .atomic 0x60000 8) = false) ∧ 0x1000004 % 8 ≠ 0 ∧
    (let s := st id (fun c => xreg 7 (2 ^ 18 - 1) (reg 2 (2 ^ 63) c))
     Runs s ∧ s.gprN 2 % 8 = 0 ∧ s.gprN 2 / 2 ^ 56 = 128 ∧ (s.xr 7).toNat < 2 ^ 18 ∧ ∀ e ∈ s.me.accs, e.ctx ≠ s.cur.2) ∧
    (let s := st id (fun c => xreg 7 (2 ^ 18) (reg 2 (2 ^ 63) c))
     Runs s ∧ s.gprN 2 / 2 ^ 56 = 128 ∧ 2 ^ 18 ≤ (s.xr 7).toNat) := by decide +kernel

/-- A page of counters. -/
def counters (g : Context → Context) : State := paged 0x4407 g

def waiting (w : CWait) : State :=
  let s := counters (fun c => { c with cwait := some w })
  s.modMe (fun c => { c with accs := [entry s { kind := .rc, place := .phys 0, handoff := false, attr := 0x4407 } (.wait w.target) w.addr.toNat 8
    false false 0] })

theorem meets_Counters :
    (let s := counters (reg 2 0x1000000)
     Runs s ∧ checked (checkAcc s 0 .counterAdd 0x1000000 8) = true ∧ checked (checkAcc s 0 .counterRead 0x1000000 8) = true ∧
     s.here.cwait = none ∧ (s.gpr 3).toNat ≤ counterValue s (.phys 0) ∧ (∀ e ∈ s.me.accs, e.ctx ≠ s.cur.2)) ∧
    counterValue s0 (.phys 0) < ((st id (reg 3 1)).gpr 3).toNat ∧
    (waiting { addr := 0x1000000, target := 1, ticket := none, parked := false }).here.cwait ≠ none ∧
    (let s := waiting { addr := 0x1000000, target := 1, ticket := none, parked := false }
     s.input.ctx < 11 ∧ (s.core 0).part = some 0 ∧ (s.core 0).issue ≠ .frozen ∧ waitReady s 0 0 = true ∧
     (match translate s 0 0x1000000 true false with | .ok (_, pl) => decide (counterValue s pl < 1) | .error _ => false) = true ∧
     (∀ k, k < 192 → (tget s.waits k WaitTable.reset).entries.length < 63)) := by decide +kernel

theorem meets_FencesAndLines : Runs s0 ∧ s0.gpr 3 = 0 ∧
    (let s := st id (regs [(2, 0x5ffff), (3, 1)])
     Runs s ∧ 0 < s.gprN 3 ∧ s.gprN 2 + s.gprN 3 ≤ 0x60000) ∧
    (let s := st id (reg 3 (2 ^ 32 + 1))
     Runs s ∧ 2 ^ 32 < s.gprN 3) := by decide +kernel

/-- Entries 1, 2 and 3 of core 0: an access, a fence of kind `k`, and what the fence may hold back. -/
def fenced (x : Access) (k : Nat) (b : Access) : State :=
  st (fun c => { c with accs := [x, { (access (.fence k) (.lm 0 0) 0) with id := 2 }, { b with id := 3 }] }) id

/-- For each kind of fence an entry that it waits for and one that it holds back; two entries that hold each other; one that only fences
precede, which is free. -/
theorem meets_FencesAndLines_order :
    let ld := access (.load (.scalar 5 false)) (.lm 0 0) 8
    let st' := access (.store 7) (.lm 0 64) 8
    let arrival := { access (.arrive 2 5) (.lm 0 0) 0 with rel := true, scope := 1 }
    (ld.isRead && ld.isAccess && ld.onSoRc && ld.within (fenced ld 0 st') 0 0 && st'.isWrite && st'.isAccess && st'.onSoRc && arrival.isArrival) = true ∧
    (access .rwb (.lm 0 0) 8).isLines = true ∧
    ([(ld, 0, st'), (st', 1, st'), (access .rwb (.lm 0 0) 8, 1, st'), (ld, 2, ld), (st', 3, ld), (st', 3, arrival)].all (fun (x, k, b) =>
      let s := fenced x k b
      (s.core 0).accs.length = 3 && !mayPerform s 0 { b with id := 3 })) = true ∧
    (let so := { st' with kind := .so }
     let acq := { ld with acq := true }
     let rel := { st' with rel := true }
     [(so, { so with place := .lm 0 128 }), (ld, { st' with place := .lm 0 0 }), (acq, st'), (ld, rel)].all (fun (e, b) =>
       let s := st (fun c => { c with accs := [e, { b with id := 2 }] }) id
       !mayPerform s 0 { b with id := 2 })) = true ∧
    mayPerform (st (fun c => { c with accs := [access (.fence 3) (.lm 0 0) 0, { st' with id := 2 }] }) id) 0 { st' with id := 2 } = true ∧
    (let w := access (.wait 1) (.phys 0) 8
     w.isWait = true ∧ w.acq = false ∧ w.isAccess = true ∧ ld.isWrite = false ∧
     mayPerform (st (fun c => { c with accs := [w, { ld with id := 2, place := .phys 0 }] }) id) 0 { ld with id := 2, place := .phys 0 } = true) := by
  decide +kernel

theorem meets_TagWaits :
    (let s := st (fun c => { c with tagDone := 0x8000000000000010 }) (reg 2 0x8000000000000000)
     Runs s ∧ (s.gpr 2 &&& s.me.tagDone).getLsbD 63 = true ∧ (∀ j, j < 63 → (s.gpr 2 &&& s.me.tagDone).getLsbD j = false) ∧
     s.gpr 2 &&& s.me.tagDone = s.gpr 2) ∧
    (Runs s0 ∧ s0.gpr 2 = 0 ∧ s0.gpr 2 &&& s0.me.tagDone = 0) ∧
    (let s := st id (reg 2 1)
     Runs s ∧ s.gpr 2 ≠ 0 ∧ s.gpr 2 &&& s.me.tagDone = 0 ∧ s.gpr 2 &&& s.me.tagDone ≠ s.gpr 2) := by decide +kernel

/-- Bytes that the thread of tag 63 of core 0 has stored wait in a holding copy of its die. -/
theorem meets_TagWaits_held :
    let x : HeldStore := { owner := 0, acc := none, seq := 1, so := false, tag := some 63, span := 1, mask := 1 }
    let h : Holding := { line := 0x400, bytes := List.replicate 128 9, mask := 1, vec := 0, poison := false, cover := none, stores := [x] }
    let s := { s0 with dies := vset s0.dies 0 { excluded := 0, lowest := false, rails := false, holding := [h] } }
    storesHeld s (dieOf s.cur.1) (fun h => h.owner / 16 = s.cur.1 &&
      (match h.tag with | some t => (0x8000000000000000 : DWord).getLsbD t | none => false)) = [1] := by decide +kernel

/-- Barrier 2 of core 0's cluster. -/
def barrier (b : Barrier) : State := (sn id id).modCluster (clusterKey 0) (fun c => { c with barriers := vset c.barriers 2 b })
def barrierOf (s : State) : Barrier := vget (s.cluster (clusterKey s.cur.1)).barriers 2 Barrier.free

theorem meets_Barriers :
    (let s := sn id id
     Runs s ∧ s.cur.1 < 3072 ∧ (barrierOf s).owner = none ∧ (barrierOf s).arrived = 0 ∧ barrierSleepers s 0 2 = false) ∧
    ((barrierOf (barrier { Barrier.free with owner := some 8 })).owner = some 8 ∧ 8 ≠ gangOf (sn id id) 0) ∧
    (let x := barrierOf (barrier { Barrier.free with owner := some 7 })
     x.owner = some (gangOf (sn id id) 0) ∧ x.member.getLsbD 0 = false ∧ x.phase = ((sn id id).gpr 2).setWidth 32) ∧
    (let x := barrierOf (barrier { Barrier.free with owner := some 7, member := 1 })
     x.member.getLsbD 0 = true ∧ x.arrived.getLsbD 0 = false ∧ x.member &&& ~~~(x.arrived ||| 1) = 0) ∧
    (let x := barrierOf (barrier { Barrier.free with owner := some 7, member := 3, phase := 1 })
     x.member &&& ~~~(x.arrived ||| 1) ≠ 0 ∧ x.phase ≠ ((sn id id).gpr 2).setWidth 32) ∧
    (let x := barrierOf (barrier { Barrier.free with owner := some 7, member := 3, arrived := 1 })
     x.member.getLsbD 0 = true ∧ x.arrived.getLsbD 0 = true ∧ x.arrived ≠ 0) := by decide +kernel

theorem meets_Superstep : Runs s0 ∧ Runs (helper s0) ∧ (helper s0).cur.2 ≠ 0 ∧ 4 < (5 : BitVec 3).toNat ∧
    1 ≤ (3 : BitVec 3).toNat ∧ (3 : BitVec 3).toNat ≤ 3 ∧ s0.me.dmr.getLsbD 48 = false ∧
    (s0.cur.2 = 0 ∧ s0.me.node = none ∧ unsentBytes s0 s0.cur.1 0 s0.nextKey none = false) ∧
    (s0.steps = [] ∧ s0.here.status = .live ∧ (∀ e ∈ s0.me.accs, e.ctx ≠ s0.cur.2) ∧ (∀ n ∈ s0.me.ni, n.ctx ≠ s0.cur.2) ∧
      ∀ k, k < 11 → k ≠ s0.cur.2 → (s0.me.context k).status ≠ .live) ∧
    (let s := twoContexts (fun c => { c with status := .live })
     s.steps = [] ∧ s.here.status = .live ∧ (s.me.context 1).status = .live) := by decide +kernel

theorem meets_Rings :
    (let n : Nat := 0x1000 + 64 * 2 ^ 19 + 4 * 2 ^ 32
     let s := st id (reg 1 (BitVec.ofNat 64 n))
     Runs s ∧ (∀ e ∈ s.me.accs, e.ctx ≠ s.cur.2) ∧ s.gprN 1 = n ∧ n < 2 ^ 45 ∧ n / 2 ^ 41 = cicOf 0 ∧ ringSleeper s 0 3 = false ∧
     n / 2 ^ 32 % 2 ^ 9 ≠ 0 ∧ ringShape (n % 2 ^ 19) (n / 2 ^ 19 % 2 ^ 13) (n / 2 ^ 32 % 2 ^ 9) = true) ∧
    (Runs s0 ∧ s0.gprN 1 / 2 ^ 32 % 2 ^ 9 = 0 ∧ (vget s0.me.handles 3 Handle.unset).count = 0 ∧ ringSleeper s0 0 3 = false) ∧
    2 ^ 45 ≤ (st id (reg 1 (2 ^ 45))).gprN 1 ∧
    (let s := ringed 1
     let r := vget s.me.handles 3 Handle.unset
     r.count ≠ 0 ∧ r.proxy = false ∧ (r.tail - r.head).toNat = 1 ∧ r.count.toNat = 4 ∧ s.me.accs = [] ∧ 0 < (r.tail - r.head).toNat) ∧
    (let r := vget (ringed 0).me.handles 3 Handle.unset
     (r.tail - r.head).toNat = 0) := by decide +kernel

/-- No context of any core sleeps on handle 3. -/
theorem meets_Rings_asleep : ∀ j, ringSleeper (st id (reg 1 0x402001000)) j 3 = false := by
  intro j
  by_cases h : j = 0
  · subst h; decide +kernel
  · have hc : (st id (reg 1 0x402001000)).core j = Core.reset := by simp [st, State.core, tget, tfind, Ne.symm h]
    have r : ∀ k, k < 11 → (Core.reset.context k).sleep = .awake := by decide +kernel
    simp only [ringSleeper, State.ctx, hc, List.any_eq_false, List.mem_range]
    intro k hk
    simp [r k hk, ringAsleep, Sleep.ringWait]

/-- A message of 2 bytes from core 5 waits at core 0 for handle 3. -/
def mail (n : BitVec 16) : State := (ringed n).modCore 0 (fun c => { c with inbox := [{ src := 5, srcCtx := 2, handle := 3, bytes := [1, 2] }] })

theorem meets_Messages :
    (let s := sn id (regs [(1, 5), (2, 0x5ffff)])
     s.cur.2 < 11 ∧ s.here.sleep = .awake ∧ s.me.accs = [] ∧ unsentBytes s 0 0 s.nextKey none = false ∧ sendStatus s 3 (s.gpr 1) (s.gpr 2) = none ∧
     s.me.matQ = []) ∧
    (let s := sn id (regs [(1, 3072), (2, 0x5ffff + 2 ^ 19)])
     3071 < s.gprN 1 ∧ 0x60000 < s.gprN 2 % 2 ^ 19 + (s.gprN 2 / 2 ^ 19 % 2 ^ 12 + 1)) ∧
    (let s := sn id (reg 1 767)
     s.here.sleep = .awake ∧ s.gprN 2 < 2 ^ 31 ∧ s.gprN 1 < 3072 ∧ s.me.part = some 0 ∧ (s.part 0).holdsCore 767 = true ∧
     (s.core 767).withdrawn = false ∧ 14 ≤ (14 : BitVec 4).toNat ∧ (s.part 0).supervisor = s.gprN 1) ∧
    (let m : Msg := { src := 5, srcCtx := 2, handle := 9, bytes := [1, 2] }
     let s := { ((mail 3).modCore 0 (fun c => { c with
       inbox := [m, { m with handle := 3, bytes := List.replicate 65 0 }]
       handles := vset c.handles 8 { (ringOf 1) with proxy := true } })) with input := { Input.none with handle := 9 } }
     (s.core 0).inbox.find? (fun x => x.handle = s.input.handle) = some m ∧ m.handle < 16 ∧ (vget (s.core 0).handles 9 Handle.unset).count = 0 ∧
     (vget (s.core 0).handles 8 Handle.unset).proxy = true ∧
     ((s.core 0).inbox.find? (fun x => x.handle = 3)).any (fun x => decide (64 < x.bytes.length)) = true) ∧
    2 ^ 31 ≤ (st id (reg 2 (2 ^ 31))).gprN 2 ∧ (slept (.send (some 0)) 0).here.sleep = .send (some 0) ∧
    (let s := { mail 3 with input := { Input.none with handle := 3 } }.modCtx 5 2 (fun c => { c with sleep := .send none })
     let r := vget (s.core 0).handles 3 Handle.unset
     (s.core 0).inbox.find? (fun x => x.handle = s.input.handle) = some { src := 5, srcCtx := 2, handle := 3, bytes := [1, 2] } ∧
     r.count ≠ 0 ∧ r.proxy = false ∧ 2 ≤ r.ssize.toNat ∧ (r.tail - r.head).toNat < r.count.toNat ∧ (s.ctx 5 2).sleep = .send none) ∧
    (let r := vget ((mail 4).core 0).handles 3 Handle.unset
     r.count.toNat ≤ (r.tail - r.head).toNat) := by decide +kernel

/-- A core whose vector and matrix queues hold two commands. -/
def full : State := st (fun c => { c with vecQ := [newJob s0 .nop, newJob s0 .nop], matQ := [newJob s0 .nop, newJob s0 .nop] }) id

theorem meets_EngineCommands :
    (let i := Instr.vaddInt .w32 1 2 3 none
     Runs s0 ∧ engineOf i = some .vector ∧ vecCheck (captureOps s0.here (newJob s0 i)) = none ∧ s0.me.vecQ.length < 2 ∧ 2 ≤ full.me.vecQ.length ∧
     s0.me.recWaiting = false ∧ ∀ k, k < 4 → [Engine.vector, .matrix, .copy].all (fun e => !s0.me.firing e (s0.me.slot k)) = true) ∧
    (let i := Instr.vext 0 1 2 3
     let s := st id (reg 3 16)
     engineOf i = some .vector ∧ vecCheck (captureOps s.here (newJob s i)) = some (flt 3 7)) ∧
    (let i := Instr.aczero 1
     let j := { captureOps s0.here (newJob s0 i) with off := shapeQp (captureOps s0.here (newJob s0 i)).x }
     engineOf i = some .matrix ∧ (matCheckEarly j <|> paramRange j) = none ∧ matWaits s0 j = false ∧
     matCheckLate (captureMatrix s0.me s0.here j) = none ∧ s0.me.matQ.length < 2 ∧ s0.me.recQ = [] ∧ 2 ≤ full.me.matQ.length) ∧
    (let i := Instr.acst 0 false 1 2
     let s := st id (reg 2 1)
     let j := { captureOps s.here (newJob s i) with off := shapeQp (captureOps s.here (newJob s i)).x }
     engineOf i = some .matrix ∧ (matCheckEarly j <|> paramRange j).isSome = true) ∧
    (let i := Instr.mmg 2 false false 2 5 6 3
     let s := st id (fun c => xreg 3 (2 ^ 16) { c with busyV := 2 })
     let j := captureOps s.here (newJob s i)
     engineOf i = some .matrix ∧ s.here.busyV.getLsbD (j.x.toNat / 2 ^ 16 % 2 ^ 5) = true) ∧
    (let i := Instr.mmQ 1 true false 3 5 6 2
     let s := { (st (fun c => { c with accs := [access (.store 7) (.lm 0 0) 64] }) id) with nextKey := 5 }
     let j := captureOps s.here (newJob s i)
     engineOf i = some .matrix ∧ s.here.busyV = 0 ∧ matWaits s { j with off := shapeQp j.x } = true) := by decide +kernel

theorem meets_CopyCommands :
    (let s := st id (fun c => xreg 1 1 c)
     let j := captureOps s.here (newJob s (.cpy 5 1 2 1))
     Runs s ∧ (s.xr 1).toNat < 2 ^ 32 ∧ s.me.tagBusy.getLsbD 5 = false ∧ 0 < copyRows j ∧ 0 < copyRowLen j ∧ s.me.copyQ.length < 2) ∧
    2 ^ 32 ≤ ((st id (xreg 1 (2 ^ 32))).xr 1).toNat ∧ (s0.xr 1).toNat = 0 ∧
    (st (fun c => { c with tagBusy := 0x20 }) id).me.tagBusy.getLsbD 5 = true ∧
    2 ≤ (st (fun c => { c with copyQ := [newJob s0 .nop, newJob s0 .nop] }) id).me.copyQ.length ∧
    2 ^ 19 ≤ ((st id (xreg 1 (2 ^ 19))).xr 1).toNat ∧ ((st id (xreg 1 4)).xr 1).toNat % 32 ≠ 0 ∧
    (let s := st (fun c => { c with lm := Memory.writes [] 0x20 (natBytes 8 (1 + 4 * 2 ^ 32)) }) (fun c => xreg 1 0x20 (regs [(1, 0x100), (2, 0x200)] c))
     let i := Instr.cpy2 5 1 2 1
     let j := captureShape s.me (captureOps s.here (newJob s i))
     (s.xr 1).toNat % 32 = 0 ∧ (s.xr 1).toNat + 31 ≤ 393215 ∧ lmReadWaits s 0x20 32 = false ∧
     copyCheckLate (copyOp i) j.a.toNat j.b.toNat j.shape = none ∧ 0 < copyRows j ∧ 0 < copyRowLen j) := by decide +kernel

theorem meets_NetworkCommands :
    (let s := st id (xreg 1 0xfff)
     Runs s ∧ (s.xr 1).toNat < 4096 ∧ s.gprN 2 + (s.xr 1).toNat ≤ 393215 ∧ s.gprN 3 / 2 ^ 56 ≠ 128 ∧ s.me.tagBusy.getLsbD 5 = false) ∧
    4096 ≤ ((st id (xreg 1 4096)).xr 1).toNat ∧ 393215 < (st id (reg 2 393216)).gprN 2 + (s0.xr 1).toNat ∧
    (let s := st id (fun c => xreg 7 (2 ^ 18) (reg 3 (2 ^ 63) c))
     s.gprN 3 / 2 ^ 56 = 128 ∧ 2 ^ 18 ≤ (s.xr 7).toNat) ∧
    (let s := st id (fun c => xreg 7 (2 ^ 18 - 1) (reg 3 (2 ^ 63) c))
     (s.xr 1).toNat < 4096 ∧ s.gprN 2 + (s.xr 1).toNat ≤ 393215 ∧ s.gprN 3 / 2 ^ 56 = 128 ∧ (s.xr 7).toNat < 2 ^ 18) ∧
    (st (fun c => { c with tagBusy := 0x20 }) id).me.tagBusy.getLsbD 5 = true ∧ 2 ^ 56 ≤ ((st id (xreg 1 (2 ^ 56))).xr 1).toNat ∧
    ((st id (xreg 1 (2 ^ 23))).xr 1).toNat / 2 ^ 23 % 2 = 1 ∧
    (let x := (s0.xr 1).toNat
     let n := x / 2 ^ 12 % 2 ^ 11 + 1
     x < 2 ^ 56 ∧ x / 2 ^ 23 % 2 = 0 ∧ s0.gprN 3 % 8 = 0 ∧ s0.gprN 2 + 4 * n - 1 ≤ 393215 ∧ s0.gprN 3 + 7 ≤ 393215) ∧
    (st id (reg 3 4)).gprN 3 % 8 ≠ 0 ∧ 393215 < (st id (reg 2 393213)).gprN 2 + 4 * 1 - 1 ∧ 393215 < (st id (reg 3 393216)).gprN 3 + 7 := by
  decide +kernel

/-- One job stands at the head of an engine's queue. -/
def queued (e : Engine) (j : Job) (f : Core → Core) : State :=
  { st (fun c => f (c.setQueue e [j])) id with input := { Input.none with engine := e } }

theorem meets_EngineStart :
    (let j := newJob s0 (.cpy 5 1 2 1)
     let s := queued .copy j id
     (s.core 0).queue .copy = [j] ∧ (s.core 0).recQ = [] ∧ (∀ k, k < 4 → ((s.core 0).slot k).pending = 0) ∧ j.started = false ∧
     (s.core 0).engStopped = false ∧ slotOpen s 0 = true ∧ ∀ x ∈ (s.core 0).accs, x.ctx ≠ j.ctx) ∧
    (let j := { (newJob s0 (.cpy 5 1 2 1)) with forkId := 2 }
     let x := access (.store 7) (.lm 0 0) 8
     let s := queued .copy j (fun c => { c with accs := [x] })
     x ∈ (s.core 0).accs ∧ x.ctx = j.ctx ∧ x.id < j.forkId ∧ x.isAccess = true ∧ x.within s 0 0 = true) ∧
    (let s := { (sn id id).modPart 0 (fun q => { q with throttled := true }) with clock := 3 }
     slotOpen s 0 = false ∧ slotOpen { s with clock := 4 } 0 = true) ∧
    (let j := newJob s0 (.vaddInt .w32 1 2 3 none)
     let s := queued .vector j id
     (s.core 0).queue .vector = [j] ∧ s.input.engine = .vector) ∧
    (queued .copy (newJob s0 .nop) (fun c => { c with engStopped := true })).me.engStopped = true := by decide +kernel

theorem meets_VectorJobEnd :
    let j := { newJob s0 (.vadds .w8 1 2 3 true (some 2)) with started := true, va := 255, vb := 1, mask := 1 }
    let s := queued .vector j id
    s.input.engine = .vector ∧ (s.core 0).vecQ = [j] ∧ j.started = true ∧ j.fired = none ∧ j.prom = none ∧ j.ctx < 11 ∧
    engineOf j.instr = some .vector ∧ (s.ctx 0 j.ctx).status = .live ∧ (s.core 0).recQ = [] ∧
    (∀ k, k < 4 → ((s.core 0).slot k).pending = 0) ∧ (∀ k, k < 16 → (vget (s.core 0).terms k 0).getLsbD 15 = false) := by decide +kernel

/-- A running product, a running accumulator operation, and the widths that `acst` may store. -/
theorem meets_MatrixAndCopyJobEnds :
    (∀ i ∈ [Instr.mm 0 false false 1 2 3 (some 1), .mm 2 true false 1 2 3 none, .mmQ 0 true true 2 2 3 1, .aczero 3, .acst 0 false 2 3,
        .scaccXreg false false 1 1 true 2],
      let j := { newJob s0 i with started := true, next := (window i 0).1 }
      let s := queued .matrix j id
      let c := s.core 0
      s.input.engine = .matrix ∧ c.matQ = [j] ∧ j.prom = none ∧ j.fired = none ∧ j.words = [] ∧ j.partial36 = [] ∧ j.ctx < 11 ∧
      (c.context j.ctx).status = .live ∧ c.engStopped = false ∧ c.recQ = [] ∧ (∀ k, k < 4 → (c.slot k).pending = 0) ∧
      (∀ a, a < 4 → (vget c.acc a Accum.reset).el.length = 256) ∧ j.next = (window j.instr j.x).1) ∧
    (productClass (.mm 0 false false 1 2 3 none)).isSome = true ∧ (fmtFloat (mmFormat 0 false)).isSome = true ∧
    ([0, 1, 2].all (fun f => [8, 16, 32].contains (fmtWidth f))) = true := by decide +kernel

/-- A copy of the last bytes of LM but one onto the last ones, which it overlaps, in one 4 KiB page. -/
theorem meets_MatrixAndCopyJobEnds_copy :
    let j := { newJob s0 (.cpy 5 1 2 1) with started := true, tag := some 5, a := 0x5ff80, b := 0x5ff7f, x := 128 }
    let s := queued .copy j id
    let c := s.core 0
    s.input.engine = .copy ∧ c.copyQ = [j] ∧ j.chunks = [] ∧ j.next = 0 ∧ j.off = 0 ∧ j.params = [] ∧ j.words = [] ∧ j.failed = none ∧
    (c.context 0).status = .live ∧ j.b.toNat + 128 ≤ 0x60000 ∧ j.a.toNat + 128 ≤ 0x60000 ∧ j.b.toNat % 4096 + 128 ≤ 4096 ∧
    j.a.toNat % 4096 + 128 ≤ 4096 ∧
    (match exec .engineJobEnd s with | .next u => decide (Memory.reads (u.core 0).lm 0x5ff80 128 = Memory.reads c.lm 0x5ff7f 128 ∧
      (u.core 0).copyQ = [] ∧ (u.core 0).tagDone.getLsbD 5 = true) | _ => false) = true := by decide +kernel

def decodesTo (d : Except DecErr Instr) (i : Instr) : Bool := match d with | .ok j => j = i | .error _ => false

theorem meets_Crossbar :
    (Runs s0 ∧ s0.me.recQ = [] ∧ (∀ k, k < 4 → (s0.me.slot k).pending = 0) ∧
      (∀ k, k < 16 → (vget s0.me.terms k 0).getLsbD 15 = false) ∧ s0.gprN 1 < 2 ^ 10 ∧ s0.gprN 1 / 16 % 16 = 0 ∧ s0.gprN 1 % 16 < 8 ∧
      s0.gprN 2 % 2 ^ 9 = 0) ∧ 2 ^ 16 ≤ (st id (reg 1 (2 ^ 16))).gprN 1 ∧ 2 ^ 56 ≤ (st id (reg 2 (2 ^ 56))).gprN 2 ∧
    (let s := st (fun c => { c with im := Memory.writes [] 8 (layWord 0x0000005f) }) (regs [(1, 8), (2, 256)])
     let i := Instr.aczero 0
     s.gprN 2 % 2 ^ 9 = 256 ∧ s.gprN 2 / 2 ^ 9 % 2 ^ 23 = 0 ∧ s.gprN 2 < 2 ^ 56 ∧ s.gprN 1 % 2 = 0 ∧ s.gprN 1 ≤ 65532 ∧
     leNat (Memory.reads s.me.im 8 4) % 2 = 1 ∧ decodesTo (decode32 (leNat (Memory.reads s.me.im 8 4))) i = true ∧ engineOf i ≠ none ∧
     namedReady s.here i = true ∧ (s.me.slot 1).rep = 0) ∧
    ((st (fun c => c.modSlot 1 (fun a => { a with rep := 1 })) id).me.slot 1).rep ≠ 0 := by decide +kernel

def okIs {α : Type} [DecidableEq α] (e : Except Flt α) (a : α) : Bool := match e with | .ok b => b = a | .error _ => false

def copyEntry (done : Bool) : OffEntry :=
  { id := 3, idx := 0, src := 0x1000000, bus := 0x4000, len := 256, core := 0, ctx := 0, tag := 5, work := OffWork.fresh, done := done, failed := false }

/-- List 2 of partition 0 holds an entry, and a replay of it where `r`. -/
def offloading (done r : Bool) : State :=
  let l : OffList :=
    { entries := [copyEntry done]
      base := 0
      replaying := r
      cursor := 0
      replays := if r then [{ id := 4, core := 0, ctx := 0, tag := 6, next := 0, left := 1, work := OffWork.fresh }] else [] }
  { (paged plainAttr (reg 1 1)).modPart 0 (fun q => { q with offload := vset q.offload 2 l }) with input := { Input.none with list := 2 } }

theorem meets_Offload :
    (let s := paged plainAttr (fun c => xreg 3 256 (regs [(1, 0x1000000), (2, 0x4000)] c))
     let o := vget (s.part 0).offload 2 OffList.empty
     Runs s ∧ s.me.part = some 0 ∧ s.me.tagBusy.getLsbD 5 = false ∧ (s.xr 3).toNat % 256 = 0 ∧ 0 < (s.xr 3).toNat ∧
     (s.xr 3).toNat ≤ 2 ^ 24 ∧ s.gprN 1 % 256 = 0 ∧ s.gprN 2 % 256 = 0 ∧ s.gprN 2 < 2 ^ 42 ∧ o.entries.length - o.base < 4096 ∧
     o.replaying = false ∧ o.entries.length - o.base = 0) ∧
    4096 ≤ (List.replicate 4096 (copyEntry false)).length ∧
    (let s := offloading true false
     let o := vget (s.part 0).offload 2 OffList.empty
     0 < o.entries.length - o.base ∧ 0 < s.gprN 1 ∧ o.replaying = false) ∧
    (let s := offloading false false
     let e := copyEntry false
     s.input.list < 8 ∧ (vget (s.part 0).offload 2 OffList.empty).entries[s.input.entry]? = some e ∧ (s.part 0).key = none ∧
     0 < e.len ∧ e.len ≤ 4096 - e.src % 4096 ∧ e.bus + e.len ≤ 2 ^ 42 ∧ e.tag < 64 ∧ homeDie 0 ≠ none ∧ s.input.amount = 0 ∧
     offReady s e = true ∧ offReady (s.modCore 0 (fun c => { c with accs := [access (.store 7) (.lm 0 0) 8] })) e = false ∧
     okIs (translateAgent s 0 e.src true false) (plainAttr, .phys 0) = true ∧ s.poisoned (.phys 0) 256 = false) ∧
    (let s := offloading true true
     let e := copyEntry true
     let o := vget (s.part 0).offload 2 OffList.empty
     o.replays[s.input.entry]? = some { id := 4, core := 0, ctx := 0, tag := 6, next := 0, left := 1, work := OffWork.fresh } ∧ o.entries[0]? = some e ∧
     (∀ a ∈ (s.core 0).accs, a.ctx ≠ 0) ∧ s.poisoned (.phys (0x80000000000 + e.bus)) 256 = false ∧
     okIs (translateAgent s 0 e.src false true) (plainAttr, .phys 0) = true ∧ pageCounter plainAttr = false) := by decide +kernel

theorem meets_LaunchesAndTokens :
    (let s := (counters (regs [(1, 0x40), (2, 3)])).modMe (fun c => { c with lm := Memory.writes [] 0x60 (natBytes 8 0x1000000) })
     Runs s ∧ s.me.part = some 0 ∧ s.gprN 1 % 64 = 0 ∧ s.gprN 1 + 63 ≤ 393215 ∧ (∀ e ∈ s.me.accs, e.ctx ≠ s.cur.2) ∧ s.me.matQ = [] ∧
     launchCheckLate s (Memory.reads s.me.lm 0x40 64) = none ∧ launchFull s (dieOf 0) = false ∧ s.gprN 2 < 16 ∧ s.me.accs = [] ∧
     (acceptToken s 3 2 { payload := 0, core := 0, ctx := 0, node := some 7 }).isSome = true ∧
     (vget (s.vf 3).tk 2 TokRing.reset).enable = false ∧ (s.vf 3).tokenQ.length < 64) ∧
    (st id (reg 1 1)).gprN 1 % 64 ≠ 0 ∧ 393215 < (st id (reg 1 0x60000)).gprN 1 + 63 ∧ 16 ≤ (st id (reg 2 16)).gprN 2 ∧
    (let s := counters id
     lmReadWaits s 0 64 = false ∧ (launchCheckLate s (Memory.reads s.me.lm 0 64)).isSome = true ∧ relDrained s 4 = true) ∧
    (let s := (sn id id).modMe (fun c => { c with accs := [access (.store 7) (.phys 0x20000000) 8] })
     relDrained { s with nextKey := 5 } 4 = false) ∧
    64 ≤ ((s0.modVf 3 (fun f => { f with tokenQ := List.replicate 64 (2, { payload := 0, core := 0, ctx := 0, node := none }) })).vf 3).tokenQ.length := by
  decide +kernel

/-- The launch queue of die 0 holds its 256 records. -/
theorem meets_LaunchesAndTokens_full :
    let n : Node := { newNode s0 (.launch 0 0 0 0 0) 0 with state := .blocked }
    launchFull { s0 with nodes := List.replicate 256 n } 0 = true := by decide +kernel

/-- A matrix reference: `rb` by `cb` blocks of FP32 at an offset. -/
def ref (base : Nat) : Nat := base + 2 ^ 24 + 2 ^ 32

/-- A core with its stage area at 0x1000, and watch entries `w`. -/
def staged (w : Vector Watch 16) (g : Context → Context) : State :=
  (counters g).modMe (fun c => { c with
    pbase := 0x1000
    watch := w
    lm := Memory.writes (Memory.writes (Memory.writes [] 0x1000 (natBytes 8 0x1000000)) 0x1030 (natBytes 8 (ref 0x10000)))
      0x1038 (natBytes 8 (ref 0x14000)) })

def noPromise : Vector Watch 16 := Vector.replicate 16 Watch.free

/-- An open promise with an id; ordered where `o`. -/
def openPromise (id : DWord) (o : Bool) : Watch :=
  { Watch.free with
    id := id
    state := 2
    flags := if o then 2 else 0
    xref := BitVec.ofNat 64 (ref 0x4000)
    href := BitVec.ofNat 64 (ref 0x8000)
    ghref := BitVec.ofNat 64 (ref 0xc000) }

def openRegs : Context → Context := fun c =>
  xreg 1 (BitVec.ofNat 64 (ref 0xc000)) (regs [(2, BitVec.ofNat 64 (ref 0x4000)), (3, BitVec.ofNat 64 (ref 0x8000))] c)

def quiet (s : State) : Prop := Runs s ∧ s.me.matQ = [] ∧ (∀ e ∈ s.me.accs, e.ctx ≠ s.cur.2) ∧
  ∀ k, k < 16 → (s.me.watchAt k).state ≠ 3 ∧ (s.me.watchAt k).life = 0

theorem meets_Promises_open :
    (let s := staged noPromise openRegs
     let w := BitVec.ofNat 64 (leNat (Memory.reads s.me.lm (0x1000 + 0x30) 8))
     quiet s ∧ s.me.pbase ≠ 0 ∧ check3 s = none ∧ (s.me.watchAt 0).state = 0 ∧
     check2 s [w, s.gpr 2, s.gpr 3, s.xr 1] (decide (2 ^ 32 ≤ s.gprN 1)) = none ∧ openShape (s.gpr 2) (s.gpr 3) (s.xr 1) w = false ∧
     refMeets w (s.gpr 2) = false ∧ refMeets w (s.gpr 3) = false ∧ refMeets w (s.xr 1) = false ∧ s0.me.pbase = 0) ∧
    (let s := staged (Vector.replicate 16 (openPromise 9 false)) openRegs
     quiet s ∧ ∀ k, k < 16 → (s.me.watchAt k).state = 2) := by unfold quiet; decide +kernel

theorem meets_Promises_settle :
    (let s := staged (vset (vset noPromise 0 (openPromise 8 true)) 1 (openPromise 9 true)) (regs [(2, 8), (3, BitVec.ofNat 64 (ref 0x18000 + 2 ^ 19))])
     let w := BitVec.ofNat 64 (leNat (Memory.reads s.me.lm (0x1000 + 0x30) 8))
     let p := BitVec.ofNat 64 (leNat (Memory.reads s.me.lm (0x1000 + 0x38) 8))
     let e := s.me.watchAt 0
     quiet s ∧ check3 s = none ∧ e.state = 2 ∧ e.id = s.gpr 2 ∧ check2 s [] false = none ∧ check2 s [w, p, s.gpr 3] false = none ∧
     redeemShape (s.gpr 3) p e.href e.ghref = false ∧ redeemOverlap w p [e.xref, e.href, e.ghref, s.gpr 3] = false ∧
     eligible s.me e = true ∧ (s.me.watchAt 1).flags.getLsbD 1 = true ∧ eligible s.me (s.me.watchAt 1) = false ∧
     checked (checkAcc s 0 .counterRead 0x1000000 8) = true ∧ s.poison = [] ∧ (s.me.watchAt 0).state ≠ 0) ∧
    (let s := staged noPromise (reg 2 5)
     quiet s ∧ check2 s [] false = none ∧ ∀ k, k < 16 → (s.me.watchAt k).id ≠ s.gpr 2) := by unfold quiet; decide +kernel

theorem meets_Promises_job :
    let r : RecJob := { slot := 2, kind := .redemption, ctx := 0, key := 1, wref := 0, vctr := 0x1000000, ready := true }
    let j := { newJob s0 .nop with
      prom := some r
      started := true }
    let s := { (staged (vset noPromise 2 { Watch.free with state := 4 }) id).modMe (fun c => { c with matQ := [j] }) with
      input := { Input.none with engine := .matrix } }
    let w := (s.core 0).watchAt 2
    (s.core 0).matQ = [j] ∧ j.prom = some r ∧ j.started = true ∧ j.fired = none ∧ (s.core 0).engStopped = false ∧ r.slot < 16 ∧
    w.state = 4 ∧ jobTiles w r ≤ w.nextt.toNat ∧ (s.core 0).recQ = [] ∧ (∀ k, k < 4 → ((s.core 0).slot k).pending = 0) ∧
    (∀ k, k < 16 → (vget (s.core 0).terms k 0).getLsbD 15 = false) ∧ ((s.core 0).context 0).status = .live ∧
    (∀ k, k < 16 → ((s.core 0).watchAt k).state ≠ 3 ∧ ((s.core 0).watchAt k).life = 0) ∧ s.waits = [] ∧
    (match checkAcc s 0 .counterAdd 0x1000000 8 with | .ok t => decide (t.place = .phys 0) | .error _ => false) = true ∧ homeDie 0 ≠ none ∧
    s.poisoned (.phys 0) 8 = false := by decide +kernel

def mine0 : CtEntry := { core := 0, ctx := 0, word := 5 }

/-- Channel `ch`, granted to partition 0, as `f` has it. -/
def contest (ch : Nat) (f : Channel → Channel) (g : Context → Context) : State :=
  (sn id g).modChan ch (fun c => f { c with grant := some 0 })

def onChan (s : State) (ch : Nat) (p : Channel → Bool) : Bool :=
  let c := vget s.channels ch Channel.reset
  s.me.part = some 0 && c.grant = some 0 && p c

theorem meets_ContestInstructions :
    (Runs (st id (reg 2 16)) ∧ 15 < (st id (reg 2 16)).gprN 2 ∧ 14 ≤ (st id (reg 2 15)).gprN 2 ∧ (st id (reg 2 13)).me.part = none) ∧
    onChan (contest 13 (fun c => { c with failed := true }) (reg 2 13)) 13 (fun c => c.failed) = true ∧
    (let p := fun (c : Context) => { (c.setGpr 2 13) with ctPending := 0x2000 }
     (contest 13 id p).here.ctPending.getLsbD 13 = true ∧ onChan (contest 13 id p) 13 (fun c => !c.failed && c.round = []) = true ∧
     onChan (contest 13 (fun c => { c with round := [mine0] }) p) 13 (fun c => c.round = [mine0]) = true) ∧
    (let s := contest 0 id id
     onChan s 0 (fun c => !c.failed) = true ∧ s.here.ctPending.getLsbD 0 = false ∧ vget s.here.slots 0 none = none) ∧
    (let r : CtSlot := { outcome := .won, word := 7, seq := 3 }
     vget (contest 0 id (fun c => { c with slots := vset c.slots 0 (some r) })).here.slots 0 none = some r) := by decide +kernel

/-- Channel 0 with the input `inp` and as `f` has it. -/
def rounds (inp : Input) (f : Channel → Channel) : State := { (contest 0 f id) with input := inp }

def chan0 (s : State) : Channel := vget s.channels 0 Channel.reset

theorem meets_ContestRounds :
    (let s := rounds Input.none (fun c => { c with arming := [mine0] })
     s.input.ch < 16 ∧ (chan0 s).arming.find? (fun e => e.core = s.input.core && e.ctx = s.input.ctx) = some mine0 ∧ (chan0 s).failed = false ∧
     s.dieExcluded (mine0.word.toNat / 2 ^ 14 % 8) = false ∧ (s.modDie 0 (fun d => { d with excluded := 1 })).dieExcluded 0 = true) ∧
    (let c := chan0 (rounds Input.none (fun c => { c with registered := [mine0], voids := 63 }))
     c.phase = .idle ∧ c.registered ≠ [] ∧ c.voids < 64) ∧
    (chan0 (rounds Input.none (fun c => { c with phase := .window }))).phase = .window ∧
    (let s := rounds Input.none (fun c => { c with phase := .running, round := [mine0, { core := 1, ctx := 10, word := 4 }] })
     let c := chan0 s
     mine0 ∈ c.round ∧ c.phase = .running ∧ (∀ d, d < 4 → s.input.mask.getLsbD d = true → s.dieExcluded d = true) ∧
     (∀ e ∈ c.round, e.core < 3072 ∧ e.ctx < 11 ∧ e.word.toNat ≤ mine0.word.toNat) ∧
     c.round.Pairwise (fun a b => (a.core, a.ctx) ≠ (b.core, b.ctx))) ∧
    (let s := rounds { Input.none with mask := 8 } (fun c => { c with phase := .running, round := [mine0] })
     (chan0 s).phase = .running ∧ s.input.mask.getLsbD 3 = true ∧ s.dieExcluded 3 = false ∧ ∀ e ∈ (chan0 s).round, e.core ≠ 65535) ∧
    (let c := chan0 (rounds Input.none (fun c => { c with voids := 64, registered := [mine0] }))
     64 ≤ c.voids ∧ c.failed = false ∧ ∀ e ∈ c.arming ++ c.registered, e.core < 3072 ∧ e.ctx < 11) ∧
    (let s := rounds { Input.none with ok := true, dst := 13 } (fun c => { c with failed := true })
     let d := vget s.channels 13 Channel.reset
     (chan0 s).failed = true ∧ (chan0 s).grant = some 0 ∧ s.input.dst < 14 ∧ d.grant = none ∧ d.failed = false ∧ d.phase = .idle) := by
  decide +kernel

/-- Core 0 with the one entry `e`, which the input names. -/
def issued (e : Access) : State := { (st (fun c => { c with accs := [e] }) id) with input := { Input.none with key := 1 } }

def ready (e : Access) : Bool :=
  let s := issued e
  (s.core s.input.core).accs.find? (fun x => x.id = s.input.key) = some e && mayPerform s s.input.core e && decide (e.ctx < 11 ∧ 0 < e.len)

theorem meets_Perform :
    ([LoadDst.scalar 0 false, .xreg 7, .vector 31, .tileRow 16 15 true, .tileRow 16 15 false].all (fun d =>
      ready (access (.load d) (.lm 0 0x5ffc0) 64) && ready (access (.load d) (.phys 0x20000000) 64)) = true) ∧
    ready (access (.load (.scalar 5 true)) (.lm 0 0x5fff8) 8) = true ∧ ready (access (.load (.scalar 31 false)) (.phys 0x20000000) 4) = true ∧
    (issued (access (.store 7) (.phys 0) 8)).input.ok = false ∧ mergedAway (issued (access (.store 7) (.phys 0) 8)) 0 (access (.store 7) (.phys 0) 8) = false ∧
    homeDie 0 = some (dieOf 0) ∧ s0.poisoned (.phys 0) 8 = false ∧
    ready (access (.store 7) (.lm 0 0x5ffff) 1) = true ∧ ready (access (.store 7) (.phys 0) 8) = true ∧
    ready (access (.atomic 9 1 0 (some 31)) (.lm 0 0x5fff8) 8) = true ∧
    (let e := access (.atomic 5 1 0 none) (.phys 0) 4
     ready e = true ∧ e.joined = [] ∧ mergedAway (issued e) 0 e = false ∧ (issued e).absent 0 = false) ∧ ready (access (.cadd 5) (.phys 0) 8) = true := by decide +kernel

/-- Die 3 holds the line `h`; slice 999 of its path carries `w`. -/
def moving (inp : Input) (hs : List Holding) (ws : List WtMsg) : State :=
  { s0 with
    input := inp
    dies := vset s0.dies 3 { excluded := 0, lowest := false, rails := false, holding := hs }
    paths := if ws = [] then [] else [(3999, ws)] }

theorem meets_HoldingMoves :
    let h : Holding := { line := 0x400, bytes := List.replicate 128 9, mask := 5, vec := 0, poison := false, cover := none,
                         stores := [{ owner := 0, acc := some 1, seq := 1, so := false, tag := none, span := 5, mask := 5 }] }
    let w : WtMsg := { line := 0x400, bytes := List.replicate 128 9, mask := 1, stores := [], clears := false }
    let i := { Input.none with
      die := 3
      slice := 999
      line := 0x400
      mask := 5 }
    (tget (moving i [] [w]).paths 3999 [] = [w] ∧ tget (moving i [] []).paths 3999 [] = []) ∧
    (let s := moving i [h] []
     s.input.die < 4 ∧ (s.die 3).holding.find? (fun x => x.line = s.input.line) = some h ∧
     s.input.mask = h.mask ∧ h.mask ≠ 0 ∧ (∀ x ∈ h.stores, x.so = false) ∧ ∀ x ∈ h.stores, x.mask &&& ~~~h.mask = 0) ∧
    (let h0 := { h with
      mask := 0
      stores := [] }
     ((moving i [h0] []).die 3).holding.find? (fun x => x.line = 0x400) = some h0 ∧ h0.mask = 0) := by
  decide +kernel

/-- A thread of core 0 that gets 64 bytes of its LM, from the last 64 of a page's end. -/
def getThread : NiThread :=
  { id := 9, ctx := 0, kind := .get, tag := 63, lmOff := 0x100, addr := 0x5ffc0, len := 64, fabric := none, op := 0, started := false, next := 0,
    run := [], chunks := [], failed := none }

/-- A write of package 1 into partition 0, which is as `f` has it; group 1 has members in both. -/
def asked (f : Partition → Partition) (gs : Table Group) : State :=
  { (paged plainAttr id).modPart 0 f with
    groups := gs
    input := { Input.none with req := { srcPkg := 1, srcPart := 2, part := 0, va := 0x1000000, op := .write [1] } } }

def pair : Group :=
  { count := 2, fmt := 0, flags := 3, root := 0, gen := 1, broken := false, killed := [], part := 0
    members := [{ va := 0x1000000, pkg := 0, part := 0, ctx := 0, core := 0 }, { va := 0, pkg := 1, part := 2, ctx := 0, core := 0 }] }

theorem meets_FabricAccesses :
    (let s := (st (fun c => { c with ni := [getThread] }) id)
     let s := { s with input := { Input.none with key := 9 } }
     (s.core 0).ni.find? (fun x => x.id = s.input.key) = some getThread ∧ (s.core 0).accs = [] ∧
     ((s.core 0).ni.filter (fun x => x.started)).length < 16 ∧ getThread.len ≤ 4096 - getThread.addr.toNat % 4096 ∧
     getThread.addr.toNat + getThread.len ≤ 0x60000 ∧ getThread.chunks = [] ∧ getThread.failed = none ∧
     (s.core 0).ni.find? (fun x => !x.started) = some getThread) ∧
    (let s := asked id [(1, pair)]
     s.input.req.srcPkg ≠ s.pkgId.toNat ∧ (s.part 0).dmState = .active ∧ (s.part 0).sealed = false ∧ fabricPeer s 1 2 0 0x1000000 = none ∧
     okIs (translate s 0 0x1000000 false true) (plainAttr, .phys 0) = true ∧ okIs (translate s 0 0x1000000 true true) (plainAttr, .phys 0) = true ∧
     pageCounter plainAttr = false ∧ homeDie 0 ≠ none ∧ s.poisoned (.phys 0) 8 = false) ∧
    (let s := asked (fun q => { q with dmState := .dormant }) [(1, pair)]
     fabricPeer s 1 2 0 0x1000000 = none ∧ (s.part 0).dmState = .dormant ∧ heldTaken s + heldPlaces s (.fabric s.input.req) ≤ 1024) ∧
    (fabricPeer (asked id []) 1 2 0 0x1000000 ≠ none) ∧ ({ (asked id []) with pkgId := 1 }).input.req.srcPkg = 1 := by decide +kernel

def collOp (store : Bool) (f : CollOp → CollOp) : CollOp :=
  f { key := 4, group := pair, part := 0, core := 0, ctx := 0, thread := 9, store := store, gid := 1, e0 := 0, n := 1, lmOff := 0, statOff := 0x40, asked := 0,
      answers := [], staged := [], committed := false, written := [], data := [1, 2], moved := [(0, [1, 2])], ended := none }

/-- The operation `o` is in flight at the time `at'`; its first member lives in partition 0 as `f` has it. -/
def collecting (o : CollOp) (at' : Nat) (f : Partition → Partition) : State :=
  { (paged plainAttr id).modPart 0 f with
    clock := at'
    groups := [(1, pair)]
    colls := [o]
    kills := [(0, 0)]
    input := { Input.none with op := 4 } }

def readOk (e : Except Flt (List Byte)) : Bool := match e with | .ok _ => true | .error _ => false
def writeOk (e : Except Flt State) : Bool := match e with | .ok _ => true | .error _ => false

theorem meets_Collectives :
    let m := pair.members[0]
    let here (o : CollOp) (s : State) : Bool := s.coll? s.input.op = some o && o.group.members[s.input.member]? = some m && m.pkg = s.pkgId.toNat
    (let o := collOp false id
     let s := collecting o 329999 id
     here o s = true ∧ o.ended = none ∧ tfind o.answers 0 = none ∧ memberGone s pair m = false ∧ readOk (readMember s pair m 0 1) = true ∧
     s.clock < o.asked + 330000) ∧
    (let o := collOp false id
     let s := collecting o 330000 (fun q => { q with dmState := .lost })
     here o s = true ∧ memberGone s pair m = true ∧ o.asked + 330000 ≤ s.clock) ∧
    (let o := collOp true id
     let s := collecting o 0 id
     here o s = true ∧ s.input.member ∉ o.staged ∧ memberGone s pair m = false ∧ o.sent = true) ∧
    (let o := collOp true (fun o => { o with committed := true })
     let s := (collecting o 0 id).modCore 0 (fun c => { c with ni := [getThread] })
     here o s = true ∧ (s.core o.core).ni.any (fun t => t.id = o.thread) = true ∧ s.input.member ∉ o.written ∧ (m.part, HeldWrite.commit 4 0) ∉ s.held ∧ (s.part 0).dmState = .active ∧
     (s.part 0).sealed = false ∧ memberVa pair m 0 = 0x1000000 ∧
     ([0, 1].all (fun k => okIs (translate s 0 (0x1000000 + k) false true) (plainAttr, .phys k)) && !pageCounter plainAttr) = true ∧
     writeOk (vwrite s 0 (memberVa pair m 0) o.data) = true) ∧
    (let o := collOp false (fun o => { o with answers := [(0, [1, 2]), (1, [3, 4])] })
     (collecting o 0 id).coll? 4 = some o ∧ ∀ k, k < o.group.members.length → tfind o.answers k ≠ none) ∧
    (let o := collOp true (fun o => { o with staged := [0, 1] })
     (collecting o 0 id).coll? 4 = some o ∧ ∀ k, k < o.group.members.length → k ∈ o.staged) ∧
    (let s := collecting (collOp true id) 0 id
     (s.input.core, s.input.ctx) ∈ s.kills ∧ tfind s.groups 1 = some pair) := by decide +kernel

/-- Port 15 as `f` has it. -/
def linked (f : Port → Port) (inp : Input) : State :=
  { s0 with
    ports := vset s0.ports 15 (f { Port.reset with present := true, linkUp := true })
    input := { inp with port := 15 } }

def port15 (s : State) : Port := vget s.ports 15 Port.reset

/-- The check field of 248 zero bytes. -/
def zeroFlit : BitVec 2048 := BitVec.ofNat 2048 ((crc64 (List.replicate 248 0)).toNat * 2 ^ 1984)

theorem meets_Links :
    let up (p : Port) : Bool := p.present && p.linkUp && !p.retraining
    (let s := linked (fun p => { p with rxSeq := 4095 }) { Input.none with
        flit := zeroFlit
        amount := 4095 }
     up (port15 s) = true ∧ flitOk s.input.flit = true ∧ s.input.amount = (port15 s).rxSeq.toNat) ∧
    flitOk 1 = false ∧
    (let s := linked (fun p => { p with failedReplays := 7 }) { Input.none with amount := 512 }
     up (port15 s) = true ∧ 0 < s.input.amount ∧ s.input.amount ≤ 512 ∧ (port15 s).failedReplays < 8) ∧
    (let p := port15 (linked (fun p => { p with failedReplays := 8, failedRetrains := 2 }) Input.none)
     up p = true ∧ 8 ≤ p.failedReplays ∧ p.failedRetrains < 3) ∧
    (port15 (linked (fun p => { p with retraining := true }) Input.none)).retraining = true ∧
    (let s := linked (fun p => { p with failedRetrains := 3 }) Input.none
     up (port15 s) = true ∧ 3 ≤ (port15 s).failedRetrains ∧ s.input.port < 16 ∧ s.input.ok = false ∧
     ({ s with input := { s.input with ok := true } }).input.ok = true) ∧
    (let p := port15 (linked (fun p => { p with linkUp := false }) Input.none)
     p.present = true ∧ p.linkUp = false) := by decide +kernel

/-- Core 3071 as `f` has it, its context 10 LIVE; the input names both, and partition 0 holds the core if `held`. -/
def window (f : Core → Core) (inp : Input) (held : Bool) : State :=
  let r : Rect := { die := 3, row := 0, col := 0, rows := 24, cols := 32 }
  { s0 with
    cores := [(3071, (f Core.reset).modContext 10 (fun c => { c with status := .live }))]
    parts := if held then [(0, { tPart with rects := [r] })] else []
    input := { inp with
      core := 3071
      ctx := 10 } }

theorem meets_DebugUnit :
    (let s := window (fun c => { c with stopping := true }) Input.none false
     s.input.core < 3072 ∧ s.input.ctx < 11 ∧ (s.core 3071).stopping = true) ∧
    (let c := (window id Input.none false).core 3071
     c.stopping = false ∧ c.issue ≠ .frozen ∧ c.issue = .running) ∧
    (let c := (window (fun c => { c with issue := .frozen }) Input.none false).core 3071
     c.stopping = false ∧ c.issue = .frozen ∧ c.recQ = [] ∧ (∀ j, j < 4 → (c.slot j).pending = 0) ∧ (c.context 10).status = .live) ∧
    (let s := window (fun c => { c with issue := .frozen }) Input.none false
     ((({ s with input := { s.input with ctx := 9 } }).core 3071).context 9).status ≠ .live) ∧
    (let c := (window (fun c => { c with issue := .stepping, stepDone := true, stepTarget := 10 }) Input.none false).core 3071
     c.issue = .stepping ∧ c.stepDone = true ∧ c.stepTarget = 10) ∧
    (let c := (window (fun c => { c with ibp := vset c.ibp 3 0x8400000000000000 }) Input.none false).core 3071
     (c.context 10).stopped = false ∧ c.fbuf = [] ∧ (c.context 10).ibpPass = none ∧
     (vget c.ibp 3 0).getLsbD 63 = true ∧ (vget c.ibp 3 0).getLsbD 58 = true ∧ vget c.ibp 3 0 &&& 0xfffe = (c.context 10).pc) ∧
    (window id Input.none false).partOf 3071 = none ∧
    (let s := window id { Input.none with off := 0x3ff8 } true
     s.partOf 3071 = some 0 ∧ (s.part 0).dmState = .active ∧ s.dieExcluded (dieOf 3071) = false ∧ (s.core 3071).stopping = false ∧
     (s.core 3071).issue ≠ .frozen ∧ 0x200 ≤ s.input.off ∧ s.input.off < 0x4000) ∧
    (let s := window (fun c => { c with issue := .frozen, dwsel := 10 }) { Input.none with off := 0x1000, value := 65536 } true
     s.partOf 3071 = some 0 ∧ (s.core 3071).issue = .frozen ∧ selContext (s.core 3071) < 11 ∧ 65534 < s.input.value.toNat ∧
     s.input.value ≠ ((s.core 3071).context (selContext (s.core 3071))).pc) ∧
    (let s := (window id { Input.none with off := 0x3ff8 } true).modPart 0 (fun q => { q with dmState := .dormant })
     s.partOf 3071 = some 0 ∧ (s.part 0).dmState = .dormant ∧ (s.part 0).sealed = false ∧ s.input.off % 8 = 0 ∧ 0 < s.input.off ∧
     heldTaken s < 1024) := by decide +kernel

/-- Partition 0 with its reports as `f` has them; its supervisor, core 767, has the handle `h` open where `o`. -/
def reporting (h : Nat) (o : Bool) (f : Partition → Partition) : State :=
  let r : Handle := { ringOf 2 with
    ssize := 64
    head := 0xffff
    tail := 0 }
  { s0 with
    cores := [(767, { Core.reset with handles := if o then vset Core.reset.handles h r else Core.reset.handles })]
    parts := [(0, f tPart)] }

theorem meets_Reports :
    let k := mkPacket s0 0 0 0 0 (flt 4 1) 0 0 0
    let opened (s : State) (h : Nat) : Bool :=
      let r := vget (s.core 767).handles h Handle.unset
      r.count != 0 && !r.proxy && decide (64 ≤ r.ssize.toNat) && decide ((r.tail - r.head).toNat < r.count.toNat)
    (let s := reporting 14 true (fun q => { q with faultQ := [k], lost := 3 })
     (s.part 0).dmState = .active ∧ (s.part 0).faultQ = [k] ∧ (s.part 0).supervisor = 767 ∧ opened s 14 = true) ∧
    (let s := reporting 15 true (fun q => { q with noticeQ := [k] })
     (s.part 0).dmState = .active ∧ (s.part 0).noticeQ = [k] ∧ opened s 15 = true) ∧
    (let s := reporting 15 false (fun q => { q with noticeFlight := [k], noticeQ := List.replicate 255 k })
     (vget (s.core 767).handles 15 Handle.unset).count = 0 ∧ (s.part 0).noticeFlight = [k] ∧ (s.part 0).noticeQ.length < 256) ∧
    (let s := reporting 15 false (fun q => { q with noticeFlight := [k], noticeQ := List.replicate 256 k })
     (s.part 0).noticeFlight = [k] ∧ 256 ≤ (s.part 0).noticeQ.length) := by decide +kernel

/-- The management mailbox holds a busy request: fields as their offset, their length and their value. -/
def asking (fields : List (Nat × Nat × Nat)) (ps : Table Partition) : State :=
  { s0 with
    parts := ps
    mail := { MailState.reset with
      busy := true
      taken := fields.foldl (fun m f => Memory.writes m f.1 (natBytes f.2.1 f.2.2)) [] } }

def bytesOf (s : State) : List Byte := s.taken .management

def turn (s : State) : Bool := mailTurn s .management

/-- PART_CREATE of partition 63: the last core of die 3, its supervisor. -/
def creating : State := asking [(0, 2, 1), (2, 1, 63), (4, 2, 3071), (0x20, 1, 1), (0x28, 8, 3 + 23 * 256 + 31 * 65536 + 2 ^ 24 + 2 ^ 32)] []

def aPage : Page := { va := 0x1000000, attr := 0x7 }

def groupTable : Table Partition := [(0, { tPart with groups := 1, pages := [aPage] })]

theorem meets_FirmwareCalls :
    (let q (n : Nat) : State := { s0 with fwQ := [(0, List.replicate n 7)] }
     (tget (q 15).fwQ 0 []).length < 16 ∧ 16 ≤ (tget (q 16).fwQ 0 []).length) ∧
    ({ s0 with input := { Input.none with ok := true } }).input.ok = true ∧
    ((partCreate creating (bytesOf creating)).status = 0 ∧ creating.mail.busy = true ∧ leNat ((bytesOf creating).take 2) = 1 ∧ creating.unmaps = []) ∧
    (let s := asking [(0, 2, 2), (2, 1, 0)] groupTable
     (partDestroy s (bytesOf s)).status = 0 ∧ leNat ((bytesOf s).take 2) = 2) ∧
    (let s := asking [(0, 2, 6), (2, 1, 0), (0x10, 8, 0x1000000), (0x18, 8, 0x100)] groupTable
     (traceSet s (bytesOf s)).status = 0) ∧
    ((asking [(0, 2, 3), (2, 1, 63)] groupTable).part 63).present = false ∧
    (let s := asking [(0, 2, 0x10), (8, 8, 0x2000000), (16, 8, 0x7)] groupTable
     s.mail.busy = true ∧ turn s = true ∧ leNat ((bytesOf s).take 2) = 0x10 ∧ mapStatus s (bytesOf s) = 0) ∧
    (let s := asking [(0, 2, 2), (2, 1, 0)] [(0, { tPart with dmState := .lost })]
     turn s = true ∧ (s.part 0).dmState = .lost ∧ s.unmaps = [] ∧ s.boot.authWait = [] ∧ s.held = []) ∧ turn s0 = false ∧
    8 ≤ ({ Input.none with dst := 8 }).dst ∧
    (let s := asking [(0, 2, 0x10), (8, 8, 0x1000000), (16, 8, 0x7)] groupTable
     mapStatus s (bytesOf s) = 18) ∧
    (let s := asking [(0, 2, 0x11), (8, 8, 0x1000fff)] groupTable
     turn s = true ∧ (s.part 0).present = true ∧ (s.part 0).dmState ≠ .lost ∧ onlyNamed (bytesOf s) [(2, 63), (8, 2 ^ 56 - 1)] = true ∧
     pageAt (s.part 0).pages 0x1000fff = some aPage) ∧
    (let u : Unmapping := { mb := some .management, part := 0, page := aPage }
     let s := { (asking [] groupTable) with unmaps := [u] }
     s.unmaps.find? (fun u => u.part = s.input.part && u.mb.isSome) = some u ∧ unmapDrained s u.page = true ∧
     unmapDrained { s with paths := [(0, [{ line := 0x80, bytes := [], mask := 0, stores := [], clears := false }])] } u.page = false) := by decide +kernel

/-- Function 1023 of partition 63 as `f` has it, with the input `inp`. -/
def function (inp : Input) (f : Vf → Vf) : State :=
  { s0 with
    parts := [(63, tPart)]
    vfs := [(1023, f Vf.reset)]
    input := { inp with vf := 1023 } }

/-- Command ring 7 of the function, enabled with 64 slots, its first at bus address 0. -/
def ring7 (f : CmdRing → CmdRing) (g : Vf) : Vf := { g with cr := vset g.cr 7 (f { CmdRing.reset with enable := true, log2 := 6 }) }

theorem meets_FrontEnd :
    let i7 := { Input.none with ring := 7 }
    (let s := function { i7 with amount := 16 } id
     s.input.vf < 1024 ∧ (s.part (s.input.vf / 16)).present = true ∧ (s.part (s.input.vf / 16)).dmState = .active ∧
     (s.cmd 1023 7).enable = false ∧ s.input.amount < 32 ∧ s.nodes = [] ∧ (s.vf 1023).cp.wait = [] ∧ (s.vf 1023).cp.enable = false ∧
     (∀ r, r < 8 → (s.cmd 1023 r).enable = false)) ∧
    (let s := function { i7 with value := 65 } (ring7 id)
     let c := s.cmd 1023 7
     c.enable = true ∧ c.head = c.tail ∧ c.slots < ((s.input.value.setWidth 32 : BitVec 32) - c.head).toNat) ∧
    (let s := function { i7 with value := 0 } (ring7 (fun c => { c with head := 0xffffffff, tail := 0xffffffff }))
     let c := s.cmd 1023 7
     c.enable = true ∧ c.head = c.tail ∧ (s.input.value.setWidth 32 : BitVec 32) = c.tail + 1 ∧ (s.vf 1023).cp.wait.length < 256 ∧
     slotLive s 1023 7 (c.head.toNat % c.slots) = false) ∧
    (let s := function { Input.none with
        ring := 3
        vector := 15
        amount := 6 } id
     s.input.ring < 4 ∧ (s.vf 1023).tokenQ = [] ∧ ((s.vf 1023).ring 3).enable = false ∧ s.input.vector < 16) ∧
    (let s := { (function { Input.none with vector := 15 } (fun f => { f with
        irq := vset f.irq 15 { IrqVector.reset with pending := 1, limit := 0x10000, timer := some 5 } })) with clock := 3305 }
     let x := (s.vf 1023).vector 15
     x.pending ≠ 0 ∧ x.limit.toNat / 65536 ≠ 0 ∧ x.timer = some 5 ∧ 5 + x.limit.toNat / 65536 * 3300 ≤ s.clock) ∧
    ((function { Input.none with vector := 15 } id).vf 1023).vector 15 = IrqVector.reset := by decide +kernel

def writing (space : RegSpace) (off : Nat) : State := function { Input.none with
  space := space
  off := off } id

theorem meets_RegisterWrites :
    (writing .pf 0x104).input.off % 8 ≠ 0 ∧
    ({ (writing .pf 0x100) with boot := { BootState.reset with recovery := true } }).boot.recovery = true ∧
    ((writing .pf 0x100).input.space = .pf ∧ (writing .pf 0x100).input.off = 0x100 ∧ (writing .pf 0x100).boot.recovery = false) ∧
    ((writing (.vf 0) 0).part (0 / 16)).present = false ∧
    (let s := (writing (.vf 1023) 0).modPart 63 (fun q => { q with dmState := .dormant })
     s.input.space = .vf 1023 ∧ (s.part (1023 / 16)).present = true ∧ (s.part (1023 / 16)).dmState = .dormant ∧ heldTaken s < 1024) ∧
    ((writing .pf 0).input.vf % 16 ≠ 0 ∧ ((writing .pf 0).part 63).fw3Seq = none ∧ ∀ e ∈ (writing .pf 0).cores, e.2.issue ≠ .frozen) ∧
    (writing .recovery 0x208).input.space = .recovery ∧ (writing .pf 0).nodes = [] ∧ (writing .pf 0).flr = false ∧
    flrDrained { (writing .pf 0) with flr := true } = true := by decide +kernel

/-- A running gang whose core still has an access holds the reset back. -/
theorem meets_RegisterWrites_waits :
    let n : Node := { newNode s0 (.ring 0 0 0) 0 with state := .running, cores := [0] }
    let s := { (issued (access (.store 7) (.phys 0) 8)) with nodes := [n], flr := true }
    s.flr = true ∧ flrDrained s = false := by decide +kernel

/-- The boot state as `f` has it, die 3 waiting for its authentication. -/
def booting (f : BootState → BootState) (ok : Bool) (now : Nat) : State :=
  { s0 with
    clock := now
    boot := f { BootState.reset with authWait := [3] }
    input := { Input.none with
      die := 3
      ok := ok } }

/-- (Whether a slot holds a good image, and whether a die proves itself, rests on key hashes in fuses, which are opaque.) -/
theorem meets_BootAndCarrier :
    (imageStatus s0.boot.slotA ≠ 0 ∧ imageStatus s0.boot.slotB ≠ 0) ∧
    (s0.input.die ∉ s0.boot.authWait ∧ s0.clock < 33000000) ∧
    (let s := booting id true 33000000
     s.input.die ∈ s.boot.authWait ∧ s.input.die < 4 ∧ s.input.ok = true ∧ 33000000 ≤ s.clock) ∧
    (booting (fun b => { b with recovery := true, tooBig := true }) false 0).boot.tooBig = true ∧
    (booting id true 0).clock < 33000000 ∧
    (booting id false 0).input.ok = false ∧
    (let b := (booting (fun b => { b with recovery := true }) false 0).boot
     b.recovery = true ∧ b.rvlen.toNat = 0 ∧ imageStatus b.image ≠ 0) ∧
    (let b := (booting (fun b => { b with recovery := true, rvlen := 0x80001 }) false 0).boot
     0x80000 < b.rvlen.toNat) ∧
    (let b := (booting (fun b => { b with recovery := true, rvlen := 0x80000 }) false 0).boot
     0 < b.rvlen.toNat ∧ b.rvlen.toNat ≤ 0x80000 ∧ b.tooBig = false ∧ b.image.length + b.rvlen.toNat ≤ 256 + 8388608) := by decide +kernel

/-- The site of an error, after `n` errors of it in this second. -/
def erring (x : ErrSite) (n : Nat) : State :=
  { s0 with
    errCounts := [(errorKey x, List.replicate n 0)]
    input := { Input.none with site := x } }

/-- A page of partition 0 on frame 0, or its unmap where `u`; frame `bad` is lasting. -/
def retiring (bad : Nat) (u : Bool) : State :=
  { (asking [] (if u then [(0, { tPart with groups := 1 })] else groupTable)) with
    badFrames := [bad]
    unmaps := if u then [{ mb := none, part := 0, page := aPage }] else []
    input := { Input.none with
      va := 0x103ffff
      line := 0x40000
      ok := true } }

theorem meets_ErrorsAndRetirement_frozen :
    [true, false].all (fun x =>
      let s := (erring (.core 3071) 0).modCore 3071 (fun c => { c with issue := .frozen, engStopped := x })
      (s.core 3071).issue = .frozen && !(s.core 3071).stopping && !s.input.ok && (s.core 3071).engStopped = x) = true := by decide +kernel

theorem meets_ErrorsAndRetirement :
    (3071 < 3072 ∧ ((erring (.core 3071) 0).core 3071).issue ≠ .frozen ∧ ((erring (.core 3071) 0).core 3071).node = none) ∧ isHbm 0 = true ∧
    (siteExists (.slice 191) = true ∧ (tget (erring (.slice 191) 63).errCounts (errorKey (.slice 191)) []).length + 1 ≤ errorThreshold (.slice 191)) ∧
    (let recent (x : ErrSite) (n : Nat) := ((tget (erring x n).errCounts (errorKey x) []).filter (fun t => decide (0 < t + 3300000000))).length
     errorThreshold (.core 3071) < recent (.core 3071) 16 + 1 ∧ errorThreshold (.line 0) < recent (.line 0) 8 + 1) ∧
    (let s := retiring 0 false
     s.unmaps = [] ∧ pageAt (s.part 0).pages s.input.va = some aPage ∧ onBadFrame s aPage = true ∧ onBadFrame (retiring 1 false) aPage = false) ∧
    (let s := retiring 0 true
     s.unmaps.length = 1 ∧ aPage.va ≤ s.input.va ∧ s.input.va < aPage.va + pageSize aPage.attr ∧ unmapDrained s aPage = true ∧
     freeFrame s 0 (aPage.move s.input.line) = true) ∧ pageAt (s0.part 0).pages 0 = none := by decide +kernel

/-- Partition 0 as `f` has it, at the time `now`. -/
def resting (f : Partition → Partition) (now : Nat) : State :=
  { s0 with
    cores := []
    parts := [(0, f { tPart with groups := 1 })]
    clock := now }

theorem meets_Dormancy :
    ((resting id 3300).part 0).present = true ∧ ((resting id 3300).part 0).updatedAt + 3300 ≤ (resting id 3300).clock ∧
    ((resting (fun q => { q with throttled := true, restored := some 0 }) 0).part 0).restored ≠ none ∧
    (((resting id 0).part 0).dmState = .active ∧ collapseRefusal (resting id 0) 0 = none ∧ ((resting id 0).part 0).timer = 0) ∧
    (collapseRefusal { (resting id 0) with cores := [(0, { Core.reset with packet := some (mkPacket s0 0 0 0 0 (flt 4 1) 0 0 0), issue := .frozen })] } 0 =
      some 3) ∧
    (let s := resting (fun q => { q with dwell := 1, idleSince := some 0 }) 3300
     dwellDue s 0 = true ∧ collapseRefusal s 0 = none ∧ dwellDue { s with clock := 3299 } 0 = false) ∧
    (let s := resting (fun q => { q with dmState := .dormant, timer := 1, collapsedAt := 5 }) 3305
     let q := s.part 0
     q.dmState = .dormant ∧ q.dmState ≠ .active ∧ q.timer ≠ 0 ∧ q.collapsedAt + q.timer.toNat * 3300 ≤ s.clock ∧ heldTaken s < 1024 ∧
     paKind 0 = .home 0 0 ∧ refreshing s 0 0 = true ∧ s.dieExcluded 0 = false) ∧
    (let s := resting (fun q => { q with dmState := .collapsing }) 0
     (s.part 0).dmState = .collapsing ∧ inRound s 0 = false ∧
     inRound (s.modChan 3 (fun c => { c with round := [mine0] })) 0 = true) ∧
    (let s := { (resting (fun q => { q with dmState := .waking, savedCores := [(0, Core.reset), (767, Core.reset)] }) 0) with
       held := [(0, .window 0 0x40 1), (1, .wakeOnly)] }
     (s.part 0).present = true ∧ (s.part 0).dmState = .waking ∧ failingDies s 0 = [] ∧ (s.part 0).savedCores.Pairwise (fun a b => a.1 ≠ b.1) ∧
     s.held.filter (fun h => h.1 = 0) = [(0, .window 0 0x40 1)]) ∧
    (let s := { (resting id 33000) with awakePcs := [(pseudoChannel 0 0, 0)] }
     tfind s.awakePcs (pseudoChannel 0 0) = some 0 ∧ 0 + 33000 ≤ s.clock) := by decide +kernel

/-- Node 9 of slot 63 of command ring 7 of function 1023 is the one node, as `f` has it; partition 63 as `g` has it. -/
def oneNode (f : Node → Node) : Node :=
  f { newNode s0 (.ring 1023 7 63) 63 with
    key := 9
    record := { NodeRec.empty with
      edgeq := [0xffff, 0xffff, 0xffff, 0xffff]
      shape := 0x1100101 } }

def onNode (now : Nat) (f : Node → Node) (g : Partition → Partition) : State :=
  { s0 with
    clock := now
    cores := []
    parts := [(63, g tPart)]
    nodes := [oneNode f]
    input := { Input.none with node := 9 } }

theorem meets_NodeBinding :
    (let f := fun (n : Node) => { n with state := .blocked }
     let s := onNode 0 f id
     s.node? s.input.node = some (oneNode f) ∧ bindable s (oneNode f) = true ∧ bindTurn s (oneNode f) = true ∧
     edgesRefused s 63 (oneNode f).record = false ∧ bindable (onNode 0 id id) (oneNode id) = false) ∧
    (let f := fun (n : Node) => { n with
       state := .blocked
       record := { n.record with edgeq := [1024, 0xffff, 0xffff, 0xffff] } }
     let s := onNode 0 f id
     bindable s (oneNode f) = true ∧ bindTurn s (oneNode f) = true ∧ edgesRefused s 63 (oneNode f).record = true ∧ (s.part 63).trctl = 0 ∧
     (match readGranule s (s.cmd 1023 7) 63 1 with | some g => decide (recField g 0x12 1 < 128) | none => false) = true ∧
     (s.cmd 1023 7).enable = false ∧
     let u := { s with
       vfs := [(1023, ring7 id { Vf.reset with cp := { CplRing.reset with
         enable := true
         log2 := 6
         base := 0x3fffffff800 } })]
       mem := [(0x80000000000 + 128 * 63 + 64 + 0x12, 0xff)] }
     let c := (u.vf 1023).cp
     bindable u (oneNode f) = true ∧ bindTurn u (oneNode f) = true ∧ edgesRefused u 63 (oneNode f).record = true ∧ (u.cmd 1023 7).enable = true ∧
     (u.cmd 1023 7).head = (u.cmd 1023 7).tail ∧
     (match readGranule u (u.cmd 1023 7) 63 1 with | some g => decide (recField g 0x12 1 = 255) | none => false) = true ∧
     (∀ m ∈ u.nodes, m.holds 1023 = false) ∧ (u.part (1023 / 16)).fw3Seq = none ∧ c.wait = [] ∧ c.open = true ∧
     c.base.toNat + 32 * (c.tail.toNat % 2 ^ c.log2.toNat) + 32 ≤ 2 ^ 42) ∧
    (let f := fun (n : Node) => { n with
       state := .ready
       promotions := 1
       level := 6 }
     let s := onNode 6600000 f id
     s.node? s.input.node = some (oneNode f) ∧ (oneNode f).state = .ready ∧ (s.part 63).det = false ∧ (oneNode f).promotions < 2 ∧
     (oneNode f).level < 7 ∧ (oneNode f).levelSince + 6600000 ≤ s.clock) := by decide +kernel

def launching : Node := oneNode (fun n => { n with
  part := 0
  record := { n.record with image := 0x1000000 }
  desc := natBytes 4 0 ++ natBytes 4 4 ++ natBytes 4 2 ++ natBytes 4 8 })

def bytesIs (e : Except Flt (List Byte)) (n : Nat) : Bool := match e with | .ok b => b.length = n | .error _ => false

theorem meets_NodeRuns :
    ((onNode 0 id id).nodes.all (fun n => !n.waits) = true) ∧
    (let f := fun (n : Node) => { n with
       state := .ready
       level := 7
       record := { n.record with kind := 5 } }
     let s := onNode 0 f id
     let n := oneNode f
     s.nodes = [n] ∧ n.state = .ready ∧ 4 ≤ n.record.kind ∧ n.level < 8 ∧ n.part < 64 ∧ (s.part n.part).present = true ∧
     (s.part n.part).dmState = .active ∧ (s.part n.part).det = false ∧ 0 ≤ vget (s.part n.part).deficit n.level 0 ∧
     energyOk (s.part n.part) n = true ∧ s.claims = [] ∧ s.selects = 0 ∧ { s with selects := 1 }.selects ≠ 0) ∧
    (let s := { (paged plainAttr id) with nodes := [launching] }
     bytesIs (vread s launching.part (launching.record.image + 64) (recField launching.desc 4 4)) 4 = true ∧
     bytesIs (vread s launching.part (launching.record.image + 64 + recField launching.desc 4 4) (recField launching.desc 12 4)) 8 = true ∧
     [5, 766].Nodup ∧ [5, 766][1]? = some 766 ∧ (s.node? launching.key).isSome = true) ∧
    (let n := { launching with
       state := .ready
       level := 7 }
     let s := { (((paged plainAttr id).modPart 0 (fun q => { q with deficit := vset q.deficit 7 1 })).modCore 0 (fun c => { c with node := none })) with
       nodes := [n]
       selects := 1 }
     n.record.kind = 0 ∧ n.multiDie = false ∧ recField n.desc 0 4 ≠ resumeMagic ∧ n.level < 8 ∧ n.part < 64 ∧ (s.part n.part).present = true ∧
     (s.part n.part).dmState = .active ∧ (s.part n.part).trctl = 0 ∧ (costOf n : Int) ≤ vget (s.part n.part).deficit n.level 0 ∧
     energyOk (s.part n.part) n = true ∧ s.claims = [] ∧ s.selects ≠ 0 ∧ placeNow s n = some [0]) ∧
    (let f := fun (n : Node) => { n with
       state := .running
       cores := [0] }
     let s := onNode 0 f id
     s.node? s.input.node = some (oneNode f) ∧ gangFinished s (oneNode f) = true ∧ gangFinished (onNode 0 id id) (oneNode id) = false) ∧
    (let f := fun (n : Node) => { n with
       state := .done
       released := true
       record := { n.record with cvec := 127 } }
     let s := onNode 0 f id
     let n := oneNode f
     s.node? s.input.node = some n ∧ n.state = .done ∧ n.edgesDone = false ∧ n.edgePassed = false ∧ n.released = true ∧ n.posted = false ∧
     (s.part 63).det = false ∧ (s.part 63).trctl = 0 ∧ (s.cmd 1023 7).enable = false ∧ n.record.cvec < 128 ∧ relReady s n = true) ∧
    (let f := fun (n : Node) => { n with
       state := .done
       released := true
       record := { n.record with cvec := 255 } }
     let s := { (onNode 0 f id) with vfs := [(1023, { Vf.reset with cp := { CplRing.reset with
       enable := true
       log2 := 6
       base := 0x3fffffff800 } })] }
     let c := (s.vf 1023).cp
     let n := oneNode f
     s.node? s.input.node = some n ∧ 128 ≤ n.record.cvec ∧ n.record.cvec < 256 ∧ (∀ m ∈ s.nodes, m.holds 1023 = false) ∧ c.wait = [] ∧
     (s.part (1023 / 16)).fw3Seq = none ∧ c.open = true ∧ c.base.toNat + 32 * (c.tail.toNat % 2 ^ c.log2.toNat) + 32 ≤ 2 ^ 42) := by decide +kernel

/-- Node 9 runs on core 0, which is as `f` has it. -/
def gangCore (f : Core → Core) (acked : List Nat) : State :=
  { (onNode 0 (fun n => { n with
      state := .running
      cores := [0]
      begun := acked
      acked := acked }) id) with cores := [(0, f { Core.reset with node := some 9 })] }

theorem meets_Preemption :
    (let f := fun (n : Node) => { n with
       state := .ready
       stuck := some 0 }
     let s := onNode 330000 f (fun q => { q with rects := [{ die := 0, row := 23, col := 31, rows := 1, cols := 1 }] })
     let n := oneNode f
     s.node? s.input.node = some n ∧ n.state = .ready ∧ n.record.kind = 0 ∧ n.stuck = some 0 ∧ 0 + 330000 ≤ s.clock ∧ placeNow s n = none) ∧
    (let n := oneNode (fun n => { n with
       state := .running
       cores := [0] })
     let s := gangCore (fun c => { c with saved := true }) []
     s.node? s.input.node = some n ∧ n.state = .running ∧ n.record.kind = 0 ∧ n.cores ≠ [] ∧ n.cores.Nodup ∧
     (∀ i ∈ n.cores, (s.core i).saved = true ∧ (s.core i).lasting = false) ∧ ((gangCore id []).core 0).saved = false ∧
     ((gangCore id []).core 0).node = some n.key ∧ ((gangCore id []).core 0).stopping = false) ∧
    (let s := gangCore (fun c => { c with stopping := true }) []
     (s.core 0).stopping = true ∧ (s.core 0).issue = .running ∧
     ((gangCore (fun c => { c with stopping := true, issue := .frozen }) []).core 0).issue ≠ .running) ∧
    (let s := gangCore (fun c => { c with stopping := true, issue := .frozen, engStopped := true }) [0]
     (s.core 0).saved = false ∧ (∃ n ∈ s.nodes, n.begun = [0] ∧ n.acked = [0]) ∧ classesStopped s 0 = true ∧ faulted (s.core 0) = false) ∧
    faulted ((gangCore (fun c => (c.modContext 3 (fun x => { x with stopped := true }))) [0]).core 0) = true ∧
    classesStopped (gangCore (fun c => { c with accs := [access .rwb (.lm 0 0) 8] }) [0]) 0 = false := by decide +kernel

/-- Node 9, of level 1, waits for core 0, which node 8 of level 0 holds; the areas of both fit. -/
def rivals : State :=
  let n := oneNode (fun n => { n with
    state := .ready
    level := 1
    stuck := some 0 })
  let v := { (oneNode id) with
    key := 8
    state := .running
    cores := [0] }
  { (onNode 330000 id id) with
    parts := [(63, { tPart with groups := 1, rects := [{ die := 0, row := 0, col := 0, rows := 1, cols := 1 }] })]
    cores := [(0, { Core.reset with node := some 8 })]
    nodes := [n, v] }

theorem meets_Preemption_claim :
    let s := rivals
    let n := s.nodes.headD (oneNode id)
    s.node? s.input.node = some n ∧ n.state = .ready ∧ placeNow s n = none ∧ s.claims = [] ∧ (s.chan 14).failed = false ∧
    s.input.ok = false ∧ (victims s n).2.map (·.cores) = [[0]] := by decide +kernel

/-- Core 0 has the bytes `bs` at 0 and the schedule issues its context 0. -/
def toIssue (bs : List Byte) : State :=
  { (st (fun c => { c with im := Memory.writes [] 0 bs }) id) with schedule := [.issue 0 0] }

theorem meets_StepRunsDecoded :
    (let s := toIssue [0x03, 0x52, 0xfe, 0xff]
     let s' := { s with schedule := [] }
     let c := s'.core 0
     mayIssue s' 0 0 = true ∧ fetchGated c 0 = false ∧ coreAwake s' 0 = true ∧ issuePc c 0 = 0 ∧ ibpHit c 0 0 = false ∧
     slotOpen s' 0 = true ∧ streamHead c 0 = none ∧ decodesTo ((fetchDecode c 0).map (·.1)) (.addi 4 5 (-1)) = true ∧ regsReady c 0 (.addi 4 5 (-1)) = true ∧
     c.fstate ≠ 1 ∧ heldAtIssue s' 0 0 (.addi 4 5 (-1)) = false ∧
     (match exec (.addi 4 5 (-1)) (issuing s' 0 0 0xfffe5203) with | .next _ => true | _ => false) = true) ∧
    (match fetchDecode ((toIssue [0, 0, 0, 0]).core 0) 0 with | .ok _ => false | .error _ => true) = true ∧
    (let s := toIssue [0x03, 0x52, 0xfe, 0xff]
     let s' := { s with schedule := [] }
     match exec (.addi 4 5 (-1)) (issuing s' 0 0 0xfffe5203) with
     | .next t => tookSlot s' t 0 0 && myTurn s' 0 0 && !myTurn (s'.modCore 0 (fun c => { c with issuedAt := some 0 })) 0 0
     | _ => false) = true ∧
    owesIssue { (toIssue [0x03, 0x52, 0xfe, 0xff]) with schedule := [] } = true ∧
    (let e : FollowEntry := { pc := 0, instr := .addi 4 5 (-1), word := 0xfffe5203, nextPc := 4, taken := false }
     let s := st (fun c => { c with fstate := 2, fbuf := [e] }) id
     let c := s.core 0
     mayIssue s 0 0 = true ∧ coreAwake s 0 = true ∧ ibpHit c 0 (issuePc c 0) = false ∧ slotOpen s 0 = true ∧ (issuePc c 0).toNat = 0 ∧
     streamHead c 0 = some e ∧ regsReady c 0 e.instr = true ∧ c.fstate = 2 ∧ heldAtIssue s 0 0 e.instr = false) ∧
    ({ s0 with schedule := [.event .peekRead Input.none] }.schedule = [.event .peekRead Input.none] ∧ Input.none.wf = true) := by decide +kernel

/-- A firing of slot 0 fails its checks: it waits while context 0 of its core stands before a word that does not decode, and else freezes it. -/
theorem meets_StepRunsDecoded_yields :
    let fire (bs : List Byte) : State := { (toIssue bs).modCore 0 (fun c => c.modSlot 0 (fun a => { a with
      instr := some (.vext 0 1 2 3)
      pending := 1
      b := 16 })) with input := { Input.none with engine := .vector } }
    let yields (s : State) : Option Bool := match exec .engineStart s with | .next t => some (engineYields s t .engineStart) | _ => none
    yields (fire [0, 0, 0, 0]) = some true ∧ yields (fire [0x03, 0x52, 0xfe, 0xff]) = some false ∧
    (match exec .engineStart (fire [0, 0, 0, 0]) with | .next t => decide ((t.core 0).issue = .frozen) | _ => false) = true := by decide +kernel

theorem meets_EncodeDecode :
    (Instr.addi 4 5 (-1)).wf = true ∧
    encode (.addi 4 5 (-1)) = some (4, 0xfffe5203) ∧
    (match decodeBytes [0x03, 0x52, 0xfe, 0xff] with | .ok x => decide (x = (.addi 4 5 (-1), 0xfffe5203#32, 4)) | .error _ => false) = true := by
  decide +kernel

theorem meets_FrameAtIssue :
    let s := st id (regs [(2, 0x100), (3, 7)])
    encode (.st 3 2 0 0 3) ≠ none ∧ (s.part 0).trctl = 0 ∧ s.me.pbase = 0 ∧ (match exec (.st 3 2 0 0 3) s with | .next _ => true | _ => false) = true := by decide +kernel

theorem meets_MemoryStaysCanonical :
    let s := issued (access (.store 7) (.phys 0) 8)
    let s := { s with
      mem := [(8, 1)]
      schedule := [.event .perform s.input] }
    Memory.wf s.mem = true ∧ (match step s with | .next t => decide (t.mem = [(0, 7), (8, 1)]) | _ => false) = true := by decide +kernel

theorem meets_CoreMemoryStaysCanonical :
    let s := issued (access (.store 7) (.lm 0 8) 8)
    let s := { s with schedule := [.event .perform s.input] }
    CoreMemoryOk s = true ∧ (match step s with | .next t => decide ((t.core 0).lm = [(8, 7)]) | _ => false) = true := by decide +kernel

end Sys2Proof.Tests
end

namespace Sys2Proof.Machine
/-! # The memory stays canonical (R1, R9; log 3)

`Memory.wf` speaks of the field `mem` alone, and few functions write it: a physical write (`writePhys`), a host's write
(`hostWrite`), the messages of a write-through path (`applyMsgs`), an image's area (`storeImage`), a frame's copy (`copyFrame`), and
the two that only drop cells (`scrub`, `afterReset`). Each keeps the form by a law of `Memory`. Every other function of the state
keeps it because the functions it calls do: there is one rule per function, and a rule's proof follows the branches of its function.
`ResultOk.exec` gathers them for the instructions and events, and `ResultOk.step` for the turns of the schedule. -/

section

/-! ### The form of the memory -/

/-- The memory stands in its canonical form (log 3). -/
def MemOk (s : State) : Prop := Memory.wf s.mem = true

/-- The next state, where there is one, has its memory in canonical form. -/
def ResultOk (r : Result) : Prop := ∀ t, r = .next t → MemOk t

/-- The reads and writes of a chunk's port keep the memory's form. -/
structure PortOk (p : ChunkPort) : Prop where
  read : ∀ {s : State} {pl : Place} {handoff : Bool} {va n : Nat}, MemOk s → MemOk (p.read s pl handoff va n).1
  write : ∀ {s : State} {pl : Place} {handoff : Bool} {va : Nat} {bs : List Byte} {run : Cover},
    MemOk s → MemOk (p.write s pl handoff va bs run).1

variable {s t : State}

theorem MemOk.of_still (hs : MemOk s) (k : Still s t) : MemOk t := by
  unfold MemOk
  rw [k.mem]
  exact hs

protected theorem MemOk.ite {c : Prop} {_ : Decidable c} (hs : MemOk s) (ht : MemOk t) : MemOk (if c then s else t) := by
  split
  · exact hs
  · exact ht

/-- As `MemOk.ite`, of an answer that holds a state. -/
protected theorem MemOk.iteOf {α : Type} (f : α → State) {c : Prop} {_ : Decidable c} {x y : α} (hx : MemOk (f x))
    (hy : MemOk (f y)) : MemOk (f (if c then x else y)) := by
  split
  · exact hx
  · exact hy

protected theorem MemOk.foldl {α : Type} {f : State → α → State} {l : List α} (hs : MemOk s)
    (k : ∀ s a, MemOk s → MemOk (f s a)) : MemOk (l.foldl f s) :=
  List.foldlRecOn l f hs fun s h a _ => k s a h

protected theorem MemOk.getD {o : Option State} (k : ∀ t, o = some t → MemOk t) (hs : MemOk s) : MemOk (o.getD s) := by
  cases o with
  | none => exact hs
  | some t => exact k t rfl

theorem MemOk.fst_of_eq {α : Type} {p : State × α} {a : α} (h : MemOk p.1) (e : p = (t, a)) : MemOk t := by
  subst e
  exact h

protected theorem ResultOk.next (hs : MemOk s) : ResultOk (.next s) := by
  intro t e
  cases e
  exact hs

protected theorem ResultOk.ite {c : Prop} {_ : Decidable c} {r q : Result} (hr : ResultOk r) (hq : ResultOk q) :
    ResultOk (if c then r else q) := by
  split
  · exact hr
  · exact hq

/-! ### Fields that are not the memory -/

protected theorem MemOk.setClock {x : Nat} (hs : MemOk s) : MemOk { s with clock := x } := hs
protected theorem MemOk.setNextKey {x : Nat} (hs : MemOk s) : MemOk { s with nextKey := x } := hs
protected theorem MemOk.setBoot {x : BootState} (hs : MemOk s) : MemOk { s with boot := x } := hs
protected theorem MemOk.setFreshBoot {x : Nat} {y : BootState} (hs : MemOk s) : MemOk { s with fresh := x, boot := y } := hs
protected theorem MemOk.setBootHeld {x : List (Nat × HeldWrite)} {y : BootState} (hs : MemOk s) :
    MemOk { s with held := x, boot := y } := hs
protected theorem MemOk.setHeld {x : List (Nat × HeldWrite)} (hs : MemOk s) : MemOk { s with held := x } := hs
protected theorem MemOk.setKills {x : List (Nat × Nat)} (hs : MemOk s) : MemOk { s with kills := x } := hs
protected theorem MemOk.setPaths {x : Table (List WtMsg)} (hs : MemOk s) : MemOk { s with paths := x } := hs
protected theorem MemOk.setVfs {x : Table Vf} (hs : MemOk s) : MemOk { s with vfs := x } := hs
protected theorem MemOk.setNodesVfs {x : List Node} {y : Table Vf} (hs : MemOk s) : MemOk { s with nodes := x, vfs := y } := hs
protected theorem MemOk.setNodesVfsFlr {x : List Node} {y : Table Vf} {z : Bool} (hs : MemOk s) :
    MemOk { s with nodes := x, vfs := y, flr := z } := hs
protected theorem MemOk.setFlr {x : Bool} (hs : MemOk s) : MemOk { s with flr := x } := hs
protected theorem MemOk.setParts {x : Table Partition} (hs : MemOk s) : MemOk { s with parts := x } := hs
protected theorem MemOk.setPartsSupMail {x : Table Partition} {y : Table MailState} (hs : MemOk s) :
    MemOk { s with parts := x, supMail := y } := hs
protected theorem MemOk.setDiesPathsUnmapsSupMailHeld {a : Vector Die 4} {b : Table (List WtMsg)} {c : List Unmapping}
    {d : Table MailState} {e : List (Nat × HeldWrite)} (hs : MemOk s) :
    MemOk { s with dies := a, paths := b, unmaps := c, supMail := d, held := e } := hs
protected theorem MemOk.setAwakePcs {x : Table Nat} (hs : MemOk s) : MemOk { s with awakePcs := x } := hs
protected theorem MemOk.setClaims {x : List Claim} (hs : MemOk s) : MemOk { s with claims := x } := hs

/-! ### Writes of the memory itself -/

theorem Memory.wf_applyMasked (m : Bytes) (a : Nat) (bs : List Byte) (k : BitVec 128) (i : Nat) (h : Memory.wf m = true) :
    Memory.wf (applyMasked m a bs k i) = true := by
  induction bs generalizing m i with
  | nil => exact h
  | cons b r ih =>
    unfold applyMasked
    apply ih
    split
    · exact Memory.wf_write _ _ _ h
    · exact h

theorem Memory.wf_foldl_applyMsg (ms : List WtMsg) (m : Bytes) (h : Memory.wf m = true) : Memory.wf (ms.foldl applyMsg m) = true :=
  List.foldlRecOn (motive := fun m => Memory.wf m = true) ms applyMsg h fun _ h _ _ => Memory.wf_applyMasked _ _ _ _ _ h

theorem Memory.wf_foldl_write (cells : Bytes) (m : Bytes) (h : Memory.wf m = true) :
    Memory.wf (cells.foldl (fun m e => Memory.write m e.1 e.2) m) = true :=
  List.foldlRecOn (motive := fun m => Memory.wf m = true) cells _ h fun _ h _ _ => Memory.wf_write _ _ _ h

/-! ### Fields of the state, copies of lines, traces, faults and retirement -/

protected theorem MemOk.setCore {i : Nat} {c : Core} (hs : MemOk s) : MemOk (State.setCore s i c) := hs

protected theorem MemOk.modCore {i : Nat} {f : Core → Core} (hs : MemOk s) : MemOk (State.modCore s i f) := hs

protected theorem MemOk.modCtx {i k : Nat} {f : Context → Context} (hs : MemOk s) : MemOk (State.modCtx s i k f) := hs

protected theorem MemOk.modMe {f : Core → Core} (hs : MemOk s) : MemOk (State.modMe s f) := hs

protected theorem MemOk.modHere {f : Context → Context} (hs : MemOk s) : MemOk (State.modHere s f) := hs

protected theorem MemOk.modPart {p : Nat} {f : Partition → Partition} (hs : MemOk s) : MemOk (State.modPart s p f) := hs

protected theorem MemOk.modDie {d : Nat} {f : Die → Die} (hs : MemOk s) : MemOk (State.modDie s d f) := hs

protected theorem MemOk.modCluster {k : Nat} {f : Cluster → Cluster} (hs : MemOk s) : MemOk (State.modCluster s k f) := hs

protected theorem MemOk.modChan {ch : Nat} {f : Channel → Channel} (hs : MemOk s) : MemOk (State.modChan s ch f) := hs

protected theorem MemOk.modVf {v : Nat} {f : Vf → Vf} (hs : MemOk s) : MemOk (State.modVf s v f) := hs

protected theorem MemOk.modNode {k : Nat} {f : Node → Node} (hs : MemOk s) : MemOk (State.modNode s k f) := hs

protected theorem MemOk.setGpr {r : Reg} {v : DWord} (hs : MemOk s) : MemOk (State.setGpr s r v) := hs

protected theorem MemOk.setXr {r : Nat} {v : DWord} (hs : MemOk s) : MemOk (State.setXr s r v) := hs

protected theorem MemOk.setMr {r : Nat} {v : DWord} (hs : MemOk s) : MemOk (State.setMr s r v) := hs

protected theorem MemOk.freshKey (hs : MemOk s) : MemOk (State.freshKey s).2 := hs

protected theorem MemOk.writePlace {pl : Place} {bs : List Byte} (hs : MemOk s) : MemOk (writePlace s pl bs) :=
  writePlace_wf s pl bs hs

protected theorem MemOk.holdFill {die line : Nat} (hs : MemOk s) : MemOk (holdFill s die line) := by
  unfold holdFill
  split <;> exact hs

protected theorem MemOk.holdWrite {die pa : Nat} {bs : List Byte} {o : Origin} {vec : Bool} (hs : MemOk s) :
    MemOk (holdWrite s die pa bs o vec) :=
  .modDie (.holdFill hs)

/-- Messages of a write-through path write their bytes into memory (R221). -/
protected theorem MemOk.applyMsgs {ms : List WtMsg} (hs : MemOk s) : MemOk (applyMsgs s ms) :=
  Memory.wf_foldl_applyMsg ms _ hs

protected theorem MemOk.applyThrough {k : Nat} {sel : WtMsg → Bool} (hs : MemOk s) : MemOk (applyThrough s k sel) :=
  .ite hs (.setPaths (.applyMsgs hs))

protected theorem MemOk.flushBytes {die : Nat} {h : Holding} {m : BitVec 128} (hs : MemOk s) : MemOk (flushBytes s die h m) :=
  .modDie (.applyMsgs (.applyThrough hs))

/-- The bytes `m` of a line of a die's copy go home, where the copy holds dirty ones of them. -/
def flushOwn (s : State) (die line : Nat) (m : BitVec 128) : State :=
  match (s.die die).copy? line with
  | none => s
  | some h => if m &&& h.mask = 0 then s else flushBytes s die h (m &&& h.mask)

/-- The SO stores that come before those of bytes `m` of a line go home first (R222). -/
def flushEarlier (n : Nat) (s : State) (die line : Nat) (h : Holding) (m : BitVec 128) : State :=
  (h.stores.filter (fun x => x.so && x.mask &&& m != 0)).foldl (fun s x =>
    let sel := HeldStore.soBefore x.owner x.seq
    let s := s.paths.foldl (fun s p => if p.1 / 1000 = die then applyThrough s p.1 (fun w => w.stores.any sel) else s) s
    (s.die die).holding.foldl (fun s g =>
      let e := storeMask sel g.stores &&& (if g.line = line then ~~~m else BitVec.allOnes 128)
      if e = 0 then s else flushMask n s die g.line e) s) s

/-! `flushMask` is one match on the line with the match on the fuel inside it. Lean makes no equations of its
own for it; its two cases hold by unfolding the recursion as the kernel does. -/

set_option smartUnfolding false in
theorem flushMask_zero (s : State) (die line : Nat) (m : BitVec 128) : flushMask 0 s die line m =
    match (s.die die).copy? line with
    | none => s
    | some h => flushOwn s die line (h.whole m) := rfl

set_option smartUnfolding false in
theorem flushMask_succ (n : Nat) (s : State) (die line : Nat) (m : BitVec 128) : flushMask (n + 1) s die line m =
    match (s.die die).copy? line with
    | none => s
    | some h => flushOwn (flushEarlier n s die line h (h.whole m)) die line (h.whole m) := rfl

protected theorem MemOk.flushOwn {die line : Nat} {m : BitVec 128} (hs : MemOk s) : MemOk (flushOwn s die line m) := by
  unfold flushOwn
  split
  · exact hs
  · exact .ite hs (.flushBytes hs)

protected theorem MemOk.flushMask {fuel die line : Nat} {m : BitVec 128} (hs : MemOk s) :
    MemOk (flushMask fuel s die line m) := by
  induction fuel generalizing s line m with
  | zero =>
    rw [flushMask_zero]
    split
    · exact hs
    · exact .flushOwn hs
  | succ n ih =>
    rw [flushMask_succ]
    split
    · exact hs
    · exact .flushOwn (.foldl hs fun _ _ hs =>
        .foldl (.foldl hs fun _ _ hs => .ite (.applyThrough hs) hs) fun _ _ hs => .ite hs (ih hs))

protected theorem MemOk.flushLine {die line : Nat} (hs : MemOk s) : MemOk (flushLine s die line) := by
  unfold flushLine
  dsimp only
  split
  · exact .applyThrough hs
  · exact .flushMask (.applyThrough hs)

protected theorem MemOk.dropLine {die line : Nat} (hs : MemOk s) : MemOk (dropLine s die line) := hs

protected theorem MemOk.readAs {die : Nat} {handoff : Bool} {pl : Place} {n : Nat} (hs : MemOk s) :
    MemOk (readAs s die handoff pl n).2 := by
  unfold readAs
  dsimp only
  split
  · exact .holdFill hs
  · exact hs

protected theorem MemOk.writeAs {die : Nat} {handoff : Bool} {pl : Place} {bs : List Byte} {o : Origin}
    {vec : Bool} (hs : MemOk s) :
    MemOk (writeAs s die handoff pl bs o vec) := by
  unfold writeAs
  split
  · exact .holdWrite hs
  · exact .writePlace hs

protected theorem MemOk.covered {die : Nat} {handoff : Bool} {l : Option Nat} (hs : MemOk s) :
    MemOk (State.covered s die handoff l) := by
  unfold State.covered
  split
  · exact hs
  · split <;> exact hs

protected theorem MemOk.firewallDrop (hs : MemOk s) : MemOk (State.firewallDrop s) := hs

protected theorem MemOk.vwrite {part va : Nat} {bs : List Byte} (hs : MemOk s) (e : vwrite s part va bs = .ok t) : MemOk t :=
  vwrite_wf s t part va bs e hs

protected theorem MemOk.trace {p cls typ ctx core v : Nat} (hs : MemOk s) : MemOk (trace s p cls typ ctx core v) :=
  trace_wf s p cls typ ctx core v hs

protected theorem MemOk.traceCtx {cls typ core ctx value : Nat} (hs : MemOk s) : MemOk (traceCtx s cls typ core ctx value) := by
  unfold traceCtx
  split
  · exact .trace hs
  · exact hs

protected theorem MemOk.traceNode {p typ : Nat} {nodeid : DWord} (hs : MemOk s) : MemOk (traceNode s p typ nodeid) := .trace hs

protected theorem MemOk.traceAt {core ctx code pc : Nat} (hs : MemOk s) : MemOk (traceAt s core ctx code pc) := .traceCtx hs

protected theorem MemOk.traceTiming {core ctx code : Nat} (hs : MemOk s) : MemOk (traceTiming s core ctx code) :=
  traceTiming_wf s core ctx code hs

protected theorem MemOk.withdrawWaits {core ctx : Nat} (hs : MemOk s) : MemOk (withdrawWaits s core ctx) := hs

protected theorem MemOk.resendWait {core ctx : Nat} (hs : MemOk s) : MemOk (resendWait s core ctx) := by
  unfold resendWait
  dsimp only
  split
  · split <;> exact hs
  · exact hs

protected theorem MemOk.resendWaits {core : Nat} (hs : MemOk s) : MemOk (resendWaits s core) :=
  .foldl hs fun _ _ hs => .resendWait hs

protected theorem MemOk.counterReached {slice key v : Nat} (hs : MemOk s) : MemOk (counterReached s slice key v) :=
  .ite hs (.foldl hs fun _ _ hs => hs)

protected theorem MemOk.counterAdd {pl : Place} {amount : Nat} (hs : MemOk s) : MemOk (counterAdd s pl amount) :=
  .counterReached (.ite hs (.writePlace hs))

protected theorem MemOk.coreNotice {core ctx origin : Nat} {f : Flt} {pc : DWord} {w : BitVec 32} (hs : MemOk s) :
    MemOk (coreNotice s core ctx origin f pc w) :=
  hs.of_still (still_coreNotice s core ctx origin f pc w)

protected theorem MemOk.nodeNotice {p : Nat} {f : Flt} {nodeid : DWord} (hs : MemOk s) : MemOk (nodeNotice s p f nodeid) := hs

protected theorem MemOk.postFault {core : Nat} {k : Packet} (hs : MemOk s) : MemOk (postFault s core k) :=
  hs.of_still (still_postFault s core k)

protected theorem MemOk.cancelIf {sel : CtEntry → Bool} {mark : Bool} {ch : Nat} (hs : MemOk s) :
    MemOk (cancelIf s sel mark ch) :=
  hs.of_still (still_cancelIf s sel mark ch)

protected theorem MemOk.dropEntries {core ctx : Nat} (hs : MemOk s) : MemOk (dropEntries s core ctx) :=
  hs.of_still (still_dropEntries s core ctx)

protected theorem MemOk.endFollow {core cause : Nat} {keep : Bool} (hs : MemOk s) : MemOk (endFollow s core cause keep) :=
  hs.of_still (still_endFollow s core cause keep)

protected theorem MemOk.missFollow {core : Nat} (hs : MemOk s) : MemOk (missFollow s core) := missFollow_wf s core hs

protected theorem MemOk.pushFollow {core : Nat} {e : FollowEntry} (hs : MemOk s) : MemOk (pushFollow s core e) :=
  .foldl hs fun _ _ hs => hs

protected theorem MemOk.popFollow {core : Nat} {pc : DWord} (hs : MemOk s) : MemOk (popFollow s core pc) := hs

protected theorem MemOk.stopCore {core : Nat} {eng : Bool} (hs : MemOk s) : MemOk (stopCore s core eng) :=
  hs.of_still (still_stopCore s core eng)

protected theorem MemOk.freezeCore {core ctx : Nat} {stopEngines : Bool} (hs : MemOk s) :
    MemOk (freezeCore s core ctx stopEngines) :=
  .stopCore (.traceTiming hs)

protected theorem MemOk.leaderFault {core : Nat} (hs : MemOk s) : MemOk (leaderFault s core) := leaderFault_wf s core hs

protected theorem MemOk.takeFaultAt {core ctx : Nat} {f : Flt} {w : BitVec 32} (hs : MemOk s) :
    MemOk (takeFaultAt s core ctx f w) :=
  takeFaultAt_wf s core ctx f w hs

protected theorem MemOk.takeFault {f : Flt} (hs : MemOk s) : MemOk (takeFault s f) := .takeFaultAt hs

protected theorem ResultOk.raise {f : Flt} (hs : MemOk s) : ResultOk (raise s f) := .next (.takeFault hs)

protected theorem MemOk.faultStop {core ctx : Nat} (hs : MemOk s) : MemOk (faultStop s core ctx) := .ite hs (.freezeCore hs)

protected theorem MemOk.takeSlotFault {core ctx origin slot : Nat} {f : Flt} {word : BitVec 32} (hs : MemOk s) :
    MemOk (takeSlotFault s core ctx origin slot f word) :=
  .postFault (.faultStop hs)

protected theorem MemOk.traceSleepEnds {core : Nat} (hs : MemOk s) : MemOk (traceSleepEnds s core) :=
  .foldl hs fun _ _ hs => .ite (.traceTiming hs) hs

protected theorem MemOk.resumeCore {core : Nat} (hs : MemOk s) : MemOk (resumeCore s core) :=
  .resendWaits (.modCore (.traceSleepEnds (.traceTiming hs)))

protected theorem MemOk.issueOn {core ctx len id : Nat} (hs : MemOk s) : MemOk (issueOn s core ctx len id) :=
  .modCore (.ite (.traceTiming hs) hs)

protected theorem MemOk.retireAt {core ctx : Nat} {pc : DWord} (hs : MemOk s) : MemOk (retireAt s core ctx pc) :=
  retireAt_wf s core ctx pc hs

protected theorem ResultOk.retireTo {pc : DWord} (hs : MemOk s) : ResultOk (retireTo s pc) := .next (.retireAt hs)

protected theorem ResultOk.retire {len : Nat} (hs : MemOk s) : ResultOk (retire s len) := .retireTo hs

protected theorem ResultOk.retireReg {len : Nat} {rd : Reg} {v : DWord} (hs : MemOk s) : ResultOk (retireReg s len rd v) :=
  .retire hs

protected theorem MemOk.sleepAt {core ctx : Nat} {w : Sleep} (hs : MemOk s) : MemOk (sleepAt s core ctx w) :=
  sleepAt_wf s core ctx w hs

protected theorem ResultOk.sleepIn {w : Sleep} (hs : MemOk s) : ResultOk (sleepIn s w) := .next (.sleepAt hs)

protected theorem ResultOk.jumpTo {t : ℤ} (hs : MemOk s) : ResultOk (jumpTo s t) := .ite (.raise hs) (.retireTo (.traceCtx hs))

protected theorem MemOk.wfeEvent {sel : Nat → Bool} (hs : MemOk s) : MemOk (wfeEvent s sel) := hs

protected theorem MemOk.takeTag {core t : Nat} (hs : MemOk s) : MemOk (takeTag s core t) := hs

protected theorem MemOk.endTag {core t : Nat} {err : Bool} (hs : MemOk s) : MemOk (endTag s core t err) := hs

/-! ### Accesses and engine queues -/

protected theorem MemOk.pushAccess {e : Access} (hs : MemOk s) : MemOk (pushAccess s e) := hs

protected theorem ResultOk.loadAt {len a w : Nat} {dst : LoadDst} {acq : Bool} {scope : Nat} {hint : BitVec 2} (hs : MemOk s) :
    ResultOk (loadAt s len a w dst acq scope hint) := by
  unfold loadAt
  split
  · exact .raise hs
  · split
    · exact .raise hs
    · exact .ite (.sleepIn hs) (.retire hs)

protected theorem ResultOk.storeAt {len a w data : Nat} {rel : Bool} {scope : Nat} {hint : BitVec 2} (hs : MemOk s) :
    ResultOk (storeAt s len a w data rel scope hint) := by
  unfold storeAt
  split
  · exact .raise hs
  · split
    · exact .raise hs
    · exact .ite (.sleepIn hs) (.retire hs)

protected theorem ResultOk.enqueue {e : Engine} {j : Job} {len : Nat} (hs : MemOk s) : ResultOk (enqueue s e j len) :=
  .ite (.sleepIn hs) (.retire hs)

/-! ### Vector commands -/

protected theorem ResultOk.vectorCmd {i : Instr} (hs : MemOk s) : ResultOk (vectorCmd s i) := by
  unfold vectorCmd
  dsimp only
  refine .ite ?_ ?_
  · exact .sleepIn hs
  · split
    · exact .raise hs
    · exact .enqueue hs

/-! ### Matrix commands -/

protected theorem ResultOk.matrixCmd {i : Instr} (hs : MemOk s) : ResultOk (matrixCmd s i) := by
  unfold matrixCmd
  dsimp only
  refine .ite ?_ ?_
  · exact .sleepIn hs
  · refine .ite ?_ ?_
    · exact .sleepIn hs
    · split
      · exact .raise hs
      · refine .ite ?_ ?_
        · exact .sleepIn hs
        · split
          · exact .raise hs
          · exact .enqueue hs

/-! ### Ring slots, vectors, pairs and tiles -/

protected theorem ResultOk.execLdRingSlot {rd : Reg} {h k : BitVec 4} {off : BitVec 8} {w : BitVec 2} (hs : MemOk s) :
    ResultOk (execLdRingSlot rd h k off w s) := by
  unfold execLdRingSlot
  refine .ite ?_ ?_
  · exact .sleepIn hs
  · split
    · exact .raise hs
    · exact .loadAt hs

protected theorem ResultOk.execStRingSlot {rd : Reg} {h k : BitVec 4} {off : BitVec 8} {w : BitVec 2} (hs : MemOk s) :
    ResultOk (execStRingSlot rd h k off w s) := by
  unfold execStRingSlot
  refine .ite ?_ ?_
  · exact .sleepIn hs
  · split
    · exact .raise hs
    · exact .storeAt hs

protected theorem MemOk.pushPieces {hint : BitVec 2} {l : List (Piece × Target)} (hs : MemOk s) :
    MemOk (pushPieces s hint l) := by
  unfold pushPieces
  dsimp only
  refine .foldl hs fun _ _ hs => ?_
  refine .pushAccess ?_
  split <;> exact hs

protected theorem ResultOk.issuePieces {store : Bool} {hint : BitVec 2} {ps : List Piece} (hs : MemOk s) :
    ResultOk (issuePieces s store hint ps) := by
  unfold issuePieces
  split
  · exact .raise hs
  · split
    · exact .raise hs
    · exact .ite (.sleepIn hs) (.retire (.pushPieces hs))

protected theorem ResultOk.tileAccess {store : Bool} {ra : Reg} {off : BitVec 10} {op : Nat → AccOp} (hs : MemOk s) :
    ResultOk (tileAccess s store ra off op) := by
  unfold tileAccess
  dsimp only
  split
  · exact .raise hs
  · exact .issuePieces hs

/-! ### Atomics, `rwb` and `rinv` -/

protected theorem ResultOk.atomicAt {ra rb : Reg} {f : AtomicForm} (hs : MemOk s) : ResultOk (atomicAt s ra rb f) := by
  unfold atomicAt
  dsimp only
  refine .ite ?_ ?_
  · exact .raise hs
  · refine .ite ?_ ?_
    · split
      · exact .raise hs
      · split <;> exact .sleepIn hs
    · split
      · exact .raise hs
      · refine .ite ?_ ?_
        · exact .sleepIn hs
        · refine .retire ?_
          refine .pushAccess ?_
          split <;> exact hs

protected theorem ResultOk.ratomAt {op : Nat} {rd ra rb : Reg} {scope : BitVec 3} {rel ret d : Bool} (hs : MemOk s) :
    ResultOk (ratomAt s op rd ra rb scope rel ret d) :=
  .atomicAt hs

protected theorem ResultOk.amoAt {op : Nat} {rd ra rb : Reg} {scope : BitVec 3} {ord : BitVec 2} {d : Bool} (hs : MemOk s) :
    ResultOk (amoAt s op rd ra rb scope ord d) :=
  .atomicAt hs

protected theorem ResultOk.linesAt {ra rb : Reg} {op : AccOp} (hs : MemOk s) : ResultOk (linesAt s ra rb op) := by
  unfold linesAt
  dsimp only
  refine .ite ?_ ?_
  · exact .retire hs
  · refine .ite ?_ ?_
    · exact .raise hs
    · split
      · exact .raise (.ite hs hs)
      · exact .retire (.ite hs hs)

/-! ### Rings and messages -/

protected theorem MemOk.setHandle {core h : Nat} {handle : Handle} (hs : MemOk s) :
    MemOk (State.setHandle s core h handle) :=
  hs

protected theorem MemOk.staleSleepers {owner h : Nat} (hs : MemOk s) : MemOk (staleSleepers s owner h) :=
  .foldl hs fun _ _ hs => .ite hs hs

protected theorem ResultOk.execRinit {h : BitVec 4} {ra rb : Reg} (hs : MemOk s) : ResultOk (execRinit h ra rb s) := by
  unfold execRinit
  refine .ite ?_ ?_
  · exact .sleepIn hs
  · split
    · exact .raise hs
    · exact .retire (.setHandle (.staleSleepers hs))

protected theorem ResultOk.ringWait {rd : Reg} {h : BitVec 4} {want : Nat} {avail : Handle → Nat} {w : Sleep} (hs : MemOk s) :
    ResultOk (ringWait s rd h want avail w) := by
  unfold ringWait
  refine .ite ?_ ?_
  · exact .sleepIn hs
  · split
    · exact .raise hs
    · exact .ite (.raise hs) (.ite (.retireReg hs) (.sleepIn hs))

protected theorem ResultOk.execRecv {rd : Reg} {h : BitVec 4} (hs : MemOk s) : ResultOk (execRecv rd h s) := by
  unfold execRecv
  refine .ite ?_ ?_
  · exact .sleepIn hs
  · split
    · exact .raise hs
    · exact .ite (.retireReg hs) (.sleepIn hs)

protected theorem MemOk.movePointer {owner h : Nat} {producer : Bool} {n : Nat} (hs : MemOk s) :
    MemOk (movePointer s owner h producer n) :=
  .ite hs hs

protected theorem ResultOk.advanceProxy {h : BitVec 4} {producer : Bool} {n : Nat} (hs : MemOk s) :
    ResultOk (advanceProxy s h producer n) := by
  unfold advanceProxy
  dsimp only
  split
  · exact .sleepIn hs
  · exact .ite (.sleepIn hs) (.sleepIn hs)

protected theorem ResultOk.advance {h : BitVec 4} {ra : Reg} {producer : Bool} (hs : MemOk s) :
    ResultOk (advance s h ra producer) := by
  unfold advance
  dsimp only
  refine .ite ?_ ?_
  · exact .sleepIn hs
  · refine .ite ?_ ?_
    · exact .advanceProxy hs
    · split
      · exact .raise hs
      · split
        · exact .raise hs
        · exact .retire hs

protected theorem ResultOk.execSend {rd : Reg} {h : BitVec 4} {ra rb : Reg} (hs : MemOk s) :
    ResultOk (execSend rd h ra rb s) := by
  unfold execSend
  dsimp only
  split
  · exact .retireReg hs
  · exact .next hs
  · refine .ite ?_ ?_
    · exact .sleepIn hs
    · split
      · exact .retireReg hs
      · exact .ite (.sleepIn hs) (.sleepIn hs)

protected theorem MemOk.deliverInto {core h : Nat} {bs : List Byte} (hs : MemOk s) : MemOk (deliverInto s core h bs) :=
  .movePointer (.writePlace hs)

protected theorem MemOk.tellSender {m : Msg} {st : Nat} (hs : MemOk s) : MemOk (tellSender s m st) := hs

protected theorem ResultOk.execMessageDeliver (hs : MemOk s) : ResultOk (execMessageDeliver s) := by
  unfold execMessageDeliver
  dsimp only
  split
  · exact .next hs
  · split
    · exact .next hs
    · exact .next (.tellSender (.ite (.deliverInto hs) hs))

/-! ### Contested channels -/

protected theorem ResultOk.armEntry {mode : Nat} {ra rb : Reg} (hs : MemOk s) : ResultOk (armEntry s mode ra rb) := by
  unfold armEntry
  dsimp only
  split
  · exact .raise hs
  · exact .ite (.sleepIn hs) (.retire hs)

protected theorem ResultOk.readResult {rd rb : Reg} {f : Nat → Nat × CWord × BitVec 32 → DWord} (hs : MemOk s) :
    ResultOk (readResult s rd rb f) := by
  unfold readResult
  dsimp only
  split
  · exact .raise hs
  · exact .ite (.sleepIn hs) (.retireReg hs)

protected theorem ResultOk.execCtresW {rd rb : Reg} (hs : MemOk s) : ResultOk (execCtresW rd rb s) := .readResult hs

protected theorem ResultOk.execCtresId {rd rb : Reg} (hs : MemOk s) : ResultOk (execCtresId rd rb s) := .readResult hs

protected theorem ResultOk.execCtcancel {rd rb : Reg} (hs : MemOk s) : ResultOk (execCtcancel rd rb s) := by
  unfold execCtcancel
  dsimp only
  split
  · exact .raise hs
  · exact .ite (.retireReg hs) (.retireReg hs)

protected theorem ResultOk.execEntryRegister (hs : MemOk s) : ResultOk (execEntryRegister s) := by
  unfold execEntryRegister
  dsimp only
  split
  · exact .next hs
  · exact .ite (.next (.cancelIf hs)) (.ite (.next hs) (.next hs))

protected theorem MemOk.settleClaims {ch : Nat} {w : CtEntry} {round : List CtEntry} (hs : MemOk s) :
    MemOk (settleClaims s ch w round) :=
  hs

protected theorem MemOk.resolveEntry {ch : Nat} {w : CtEntry} {q : BitVec 32} {e : CtEntry} (hs : MemOk s) :
    MemOk (resolveEntry s ch w q e) :=
  .ite hs hs

protected theorem MemOk.endRound {ch : Nat} {veto : Bool} (hs : MemOk s) : MemOk (endRound s ch veto) := by
  unfold endRound
  dsimp only
  refine .ite ?_ ?_
  · exact hs
  · refine .ite ?_ ?_
    · exact hs
    · split
      · exact hs
      · exact .modChan (.modChan (.settleClaims (.foldl hs fun _ _ hs => .resolveEntry hs)))

protected theorem MemOk.failChannel {ch : Nat} (hs : MemOk s) : MemOk (failChannel s ch) := .ite (.cancelIf hs) hs

protected theorem MemOk.moveGrant {ch into : Nat} (hs : MemOk s) : MemOk (moveGrant s ch into) := by
  unfold moveGrant
  dsimp only
  split
  · exact hs
  · exact .ite hs hs

protected theorem ResultOk.execChannelFail (hs : MemOk s) : ResultOk (execChannelFail s) :=
  .next (.ite (.moveGrant (.failChannel hs)) (.failChannel hs))

/-! ### Copies -/

protected theorem MemOk.readRange {die va n : Nat} {a : Target} {b : List Byte} (hs : MemOk s)
    (e : readRange s die a va n = .ok (b, t)) : MemOk t := by
  refine List.foldlRecOn (motive := fun (r : Except Flt (List Byte × State)) => ∀ x, r = .ok x → MemOk x.2) _ _ ?_ ?_ (b, t) e
  · intro x e
    cases e
    exact hs
  · intro r hr p _ x e
    dsimp only at e
    split at e
    · cases e
    next bs s =>
      split at e
      · cases e
      · cases e
        exact .readAs (hr (bs, s) rfl)

protected theorem MemOk.writePiece {die : Nat} {handoff : Bool} {pl : Place} {bs : List Byte} {o : Origin}
    {run : Cover} (hs : MemOk s) :
    MemOk (writePiece s die handoff pl bs o run).1 := by
  unfold writePiece
  dsimp only
  split
  · exact .iteOf Prod.fst (.covered (.writeAs hs)) (.writeAs hs)
  · exact .writeAs hs

protected theorem MemOk.writeRange {die : Nat} {a : Target} {bs : List Byte} {o : Origin} {run : Cover} (hs : MemOk s) :
    MemOk (writeRange s die a bs o run).1 := by
  unfold writeRange
  exact List.foldlRecOn (motive := fun (r : State × Cover) => MemOk r.1) _ _ hs (fun _ hr _ _ => .writePiece hr)

protected theorem MemOk.chunksMove {p : ChunkPort} {c : Chunks} {m : ChunkMove} (hp : PortOk p) (hs : MemOk s) :
    MemOk (Chunks.move p s c m).1 := by
  unfold Chunks.move
  split
  · exact hs
  · split
    · split
      next e => exact (hp.write hs).fst_of_eq e
      next e => exact (hp.write hs).fst_of_eq e
      next e => exact (hp.write hs).fst_of_eq e
    · split
      next e => exact (hp.read hs).fst_of_eq e
      next e => exact (hp.read hs).fst_of_eq e
      next e => exact (hp.read hs).fst_of_eq e

theorem portOk_diePort (die : Nat) (o : Origin) : PortOk (diePort die o) where
  read hs := by
    unfold diePort
    refine .iteOf Prod.fst hs ?_
    split
    · exact hs
    next b s e => exact .readRange hs e
  write hs := .iteOf Prod.fst hs (.writePiece hs)

protected theorem MemOk.readIndex {g : CopyAgent} {j : Job} {r n : Nat} (hs : MemOk s)
    (e : readIndex g s j r = .ok (n, t)) : MemOk t := by
  unfold readIndex at e
  dsimp only at e
  split at e
  · cases e
  · split at e
    · cases e
    next f =>
      cases e
      exact .readRange hs f

protected theorem MemOk.rowIndex {g : CopyAgent} {j : Job} {n : Nat} (hs : MemOk s)
    (e : rowIndex g s j = .ok (n, t)) : MemOk t := by
  unfold rowIndex at e
  split at e
  · cases e
    exact hs
  · split at e
    · cases e
      exact hs
    · cases e
      exact hs
    · exact .readIndex hs e

protected theorem MemOk.readAhead {g : CopyAgent} {j : Job} {r : Nat} (hs : MemOk s) : MemOk (readAhead g s j r).1 := by
  unfold readAhead
  refine .iteOf Prod.fst ?_ ?_
  · exact hs
  · split
    next _ s e => exact .readIndex hs e
    · exact hs

protected theorem MemOk.openChunk {g : CopyAgent} {j : Job} (hs : MemOk s) : MemOk (openChunk g s j).1 := by
  unfold openChunk
  dsimp only
  split
  · exact hs
  next _ s e => split <;> exact .rowIndex hs e

protected theorem MemOk.copyUnitBy {g : CopyAgent} {j : Job} {go : Bool} {k : Nat} (hs : MemOk s) :
    MemOk (copyUnitBy g s j go k).state := by
  unfold copyUnitBy
  dsimp only
  split
  · exact .chunksMove (portOk_diePort _ _) hs
  · exact .iteOf Prod.fst (.iteOf Prod.fst (.readAhead hs) hs) (.iteOf Prod.fst (.openChunk hs) hs)

protected theorem MemOk.copyUnit {core : Nat} {j : Job} {k : Nat} (hs : MemOk s) : MemOk (copyUnit s core j k).state :=
  .copyUnitBy hs

protected theorem MemOk.tagNotice {core ctx tag : Nat} {f : Flt} (hs : MemOk s) : MemOk (tagNotice s core ctx tag f) :=
  .coreNotice hs

protected theorem ResultOk.copyCmd {i : Instr} {tag : Nat} (hs : MemOk s) : ResultOk (copyCmd s i tag) := by
  unfold copyCmd
  dsimp only
  refine .ite ?_ ?_
  · exact .sleepIn hs
  · split
    · exact .raise hs
    · refine .ite ?_ ?_
      · exact .sleepIn hs
      · split
        · exact .raise hs
        · exact .ite (.sleepIn hs) (.ite (.retire hs) (.enqueue hs))

/-! ### Promises -/

protected theorem MemOk.expireOne {core v k : Nat} (hs : MemOk s) : MemOk (expireOne s core v k) := .ite hs (.coreNotice hs)

protected theorem MemOk.expiryCheck {core v : Nat} (hs : MemOk s) : MemOk (expiryCheck s core v) :=
  .foldl hs fun _ _ hs => .expireOne hs

protected theorem MemOk.gangQuiet {core : Nat} (hs : MemOk s) : MemOk (gangQuiet s core) := .ite hs hs

protected theorem MemOk.promFail {core : Nat} {j : Job} {r : RecJob} {f : Flt} (hs : MemOk s) :
    MemOk (promFail s core j r f).state :=
  hs

protected theorem MemOk.promStart {core : Nat} {j : Job} {r : RecJob} (hs : MemOk s) : MemOk (promStart s core j r).state := by
  unfold promStart
  dsimp only
  split
  · exact hs
  · exact .modCore (.expiryCheck hs)

protected theorem MemOk.promEnd {core : Nat} {j : Job} {r : RecJob} (hs : MemOk s) : MemOk (promEnd s core j r).state := by
  unfold promEnd
  dsimp only
  split
  · exact .promFail hs
  · dsimp only
    exact .expiryCheck (.modCore (.counterAdd hs))

protected theorem MemOk.promElem {core : Nat} {j : Job} {r : RecJob} (hs : MemOk s) : MemOk (promElem s core j r).state :=
  .iteOf JobStep.state hs (.iteOf JobStep.state hs hs)

protected theorem MemOk.promRead {core : Nat} {j : Job} {r : RecJob} {n : Nat} (hs : MemOk s) :
    MemOk (promRead s core j r n).state := by
  unfold promRead
  dsimp only
  split <;> exact hs

protected theorem MemOk.promUnit {core : Nat} {j : Job} {r : RecJob} {k : Nat} (hs : MemOk s) :
    MemOk (promUnit s core j r k).state := by
  unfold promUnit
  dsimp only
  refine .iteOf JobStep.state ?_ ?_
  · exact hs
  · refine .iteOf JobStep.state ?_ ?_
    · exact .promEnd hs
    · refine .iteOf JobStep.state ?_ ?_
      · exact .promStart hs
      · split
        · exact .promElem hs
        · exact .promRead hs

protected theorem ResultOk.execPropen {retract : Bool} {rd ra rb : Reg} {opt : BitVec 3} (hs : MemOk s) :
    ResultOk (execPropen retract rd ra rb opt s) := by
  unfold execPropen
  dsimp only
  refine .ite ?_ ?_
  · exact .sleepIn hs
  · split
    · exact .raise hs
    · split
      · exact .raise hs
      · exact .retireReg hs

protected theorem ResultOk.execPredeem {rd ra rb : Reg} (hs : MemOk s) : ResultOk (execPredeem rd ra rb s) := by
  unfold execPredeem
  dsimp only
  refine .ite ?_ ?_
  · exact .sleepIn hs
  · split
    · exact .raise hs
    · split
      · exact .raise hs
      · split
        · exact .raise hs
        · exact .retireReg hs

protected theorem ResultOk.execPretract {rd ra : Reg} (hs : MemOk s) : ResultOk (execPretract rd ra s) := by
  unfold execPretract
  refine .ite ?_ ?_
  · exact .sleepIn hs
  · split
    · exact .raise hs
    · split
      · exact .raise hs
      · exact .retireReg hs

protected theorem ResultOk.execPquery {rd ra : Reg} (hs : MemOk s) : ResultOk (execPquery rd ra s) := by
  unfold execPquery
  dsimp only
  refine .ite ?_ ?_
  · exact .sleepIn hs
  · split
    · exact .raise hs
    · split
      · exact .raise hs
      · exact .ite (.sleepIn hs) (.ite (.raise hs) (.retireReg (.expiryCheck hs)))

/-! ### The crossbar -/

protected theorem MemOk.evaluate {core : Nat} (hs : MemOk s) : MemOk (evaluate s core) :=
  .ite hs (.wfeEvent (.foldl hs fun _ _ hs => .coreNotice hs))

protected theorem MemOk.takeFiring {core k : Nat} {e : Engine} (hs : MemOk s) : MemOk (takeFiring s core k e).1 := by
  unfold takeFiring
  dsimp only
  split
  · exact hs
  · refine .iteOf Prod.fst ?_ ?_
    · exact hs
    · split
      · exact .takeSlotFault hs
      · split
        · exact hs
        · exact .iteOf Prod.fst hs hs

protected theorem MemOk.takeRec {core : Nat} (hs : MemOk s) : MemOk (takeRec s core).1 := by
  unfold takeRec
  dsimp only
  split
  · exact hs
  · exact .gangQuiet hs

protected theorem MemOk.refillOne {n core : Nat} {e : Engine} (hs : MemOk s) : MemOk (refillOne n s core e) := by
  induction n generalizing s with
  | zero => exact hs
  | succ n ih =>
    unfold refillOne
    dsimp only
    refine .ite hs ?_
    split
    · exact .ite (ih (.takeFiring hs)) (.takeFiring hs)
    · exact .ite (.ite (ih (.takeRec hs)) (.takeRec hs)) hs

protected theorem MemOk.refill {core : Nat} (hs : MemOk s) : MemOk (refill s core) := .foldl hs fun _ _ hs => .refillOne hs

protected theorem MemOk.crossbarCycles {n core : Nat} (hs : MemOk s) : MemOk (crossbarCycles n s core) := by
  induction n generalizing s with
  | zero => exact hs
  | succ n ih => exact .ite (ih (.refill (.evaluate hs))) hs

protected theorem MemOk.afterJob {core : Nat} {e : Engine} {fired : Option Nat} (hs : MemOk s) :
    MemOk (afterJob s core e fired) :=
  .refill hs

protected theorem ResultOk.execEvarm {slot : BitVec 2} {ra rb : Reg} (hs : MemOk s) : ResultOk (execEvarm slot ra rb s) := by
  unfold execEvarm retire retireTo
  dsimp only
  refine .ite (.raise hs) (.ite (.raise hs) (.ite (.raise hs) ?_))
  split
  · exact .next (.takeFaultAt hs)
  · exact .ite (.raise hs) (.ite (.sleepIn hs) (.next (.refill (.retireAt hs))))

/-! ### Entries and tokens in the host's memory -/

protected theorem MemOk.hostWrite {bus : Nat} {bs : List Byte} (hs : MemOk s) : MemOk (hostWrite s bus bs) :=
  Memory.wf_writes _ _ _ hs

protected theorem MemOk.vectorEvent {vf v : Nat} (hs : MemOk s) : MemOk (vectorEvent s vf v) := hs

protected theorem MemOk.writeEntry {vf : Nat} {bs : List Byte} {v : Nat} (hs : MemOk s) : MemOk (writeEntry s vf bs v) :=
  .vectorEvent (.modVf (.hostWrite hs))

protected theorem MemOk.postEntry {vf v : Nat} {bs : List Byte} (hs : MemOk s) (e : postEntry s vf bs v = some t) : MemOk t := by
  unfold postEntry at e
  dsimp only at e
  split at e
  · cases e
    exact .writeEntry hs
  · split at e
    · cases e
      exact hs
    · cases e

protected theorem MemOk.drainEntries {n vf : Nat} (hs : MemOk s) : MemOk (drainEntries n s vf) := by
  induction n generalizing s with
  | zero => exact hs
  | succ n ih =>
    unfold drainEntries
    dsimp only
    split
    · exact hs
    · exact .ite (ih (.writeEntry hs)) hs

protected theorem MemOk.writeToken {vf r : Nat} {t : Token} (hs : MemOk s) : MemOk (writeToken s vf r t) :=
  .vectorEvent (.modVf (.hostWrite hs))

protected theorem MemOk.acceptToken {vf r : Nat} {k : Token} (hs : MemOk s) (e : acceptToken s vf r k = some t) : MemOk t := by
  unfold acceptToken at e
  dsimp only at e
  split at e
  · cases e
    exact .writeToken hs
  · split at e
    · cases e
      exact hs
    · cases e

protected theorem MemOk.drainTokens {n vf r : Nat} (hs : MemOk s) : MemOk (drainTokens n s vf r) := by
  induction n generalizing s with
  | zero => exact hs
  | succ n ih =>
    unfold drainTokens
    dsimp only
    split
    · exact hs
    · exact .ite (ih (.writeToken hs)) hs

/-! ### Offload lists -/

protected theorem MemOk.modOff {p l : Nat} {f : OffList → OffList} (hs : MemOk s) : MemOk (State.modOff s p l f) := hs

protected theorem ResultOk.execCpyl {tag : BitVec 6} {reset : Bool} {list : BitVec 3} {ra rb : Reg}
    {opt : BitVec 3} (hs : MemOk s) :
    ResultOk (execCpyl tag reset list ra rb opt s) := by
  unfold execCpyl
  dsimp only
  split
  · exact .raise hs
  · exact .ite (.sleepIn hs) (.retire hs)

protected theorem ResultOk.execCpyr {tag : BitVec 6} {list : BitVec 3} {ra : Reg} (hs : MemOk s) :
    ResultOk (execCpyr tag list ra s) :=
  .ite (.sleepIn hs) (.ite (.retire hs) (.retire (.ite hs hs)))

protected theorem MemOk.clearLines {pl : Place} {n : Nat} (hs : MemOk s) : MemOk (clearLines s pl n) := by
  unfold clearLines
  split <;> exact hs

theorem portOk_offPort (p l : Nat) (e : OffEntry) (replay : Bool) : PortOk (offPort p l e replay) where
  read hs := .iteOf Prod.fst hs hs
  write hs := .clearLines (.writePlace hs)

protected theorem MemOk.offUnit {p l : Nat} {e : OffEntry} {replay : Bool} {k : Nat} {w : OffWork} (hs : MemOk s) :
    MemOk (offUnit p l e replay k s w).1 := by
  unfold offUnit
  split
  · exact .chunksMove (portOk_offPort _ _ _ _) hs
  · refine .iteOf Prod.fst hs ?_
    split <;> exact hs

protected theorem MemOk.offUnits {p l n : Nat} {e : OffEntry} {replay : Bool} {w : OffWork} (hs : MemOk s) :
    MemOk (offUnits p l e replay n s w).1 := by
  induction n generalizing s w with
  | zero => exact hs
  | succ n ih =>
    unfold offUnits
    split
    · exact hs
    · exact ih (.offUnit hs)

protected theorem MemOk.offAdvance {p l : Nat} {e : OffEntry} {replay : Bool} {w : OffWork} (hs : MemOk s) :
    MemOk (offAdvance s p l e replay w).1 := by
  unfold offAdvance
  split
  · exact .offUnits hs
  · exact .offUnit hs

protected theorem MemOk.offEnd {p core ctx tag : Nat} {f : Option Flt} (hs : MemOk s) : MemOk (offEnd s p core ctx tag f) := by
  unfold offEnd
  dsimp only
  split <;> exact hs

protected theorem ResultOk.execOffloadEntryDone (hs : MemOk s) : ResultOk (execOffloadEntryDone s) := by
  unfold execOffloadEntryDone
  dsimp only
  split
  · exact .next hs
  · exact .ite (.next hs) (.next (.ite (.offEnd (.modOff (.offAdvance hs))) (.modOff (.offAdvance hs))))

protected theorem MemOk.endReplay {p l k : Nat} {r : Replay} {f : Option Flt} (hs : MemOk s) : MemOk (endReplay s p l k r f) :=
  .offEnd hs

protected theorem MemOk.replayGoes {p l k : Nat} {r : Replay} {w : OffWork} {len : Nat} (hs : MemOk s) :
    MemOk (replayGoes s p l k r w len) :=
  .ite hs (.ite (.endReplay hs) hs)

protected theorem ResultOk.execReplayEntryDone (hs : MemOk s) : ResultOk (execReplayEntryDone s) := by
  unfold execReplayEntryDone
  dsimp only
  split
  · exact .next hs
  · split
    · exact .next hs
    · exact .ite (.next hs) (.ite (.next (.endReplay hs)) (.next (.replayGoes (.offAdvance hs))))

/-! ### `launch` and `hsig` -/

protected theorem ResultOk.launchAt {rd ra : Reg} {rel : Bool} (hs : MemOk s) : ResultOk (launchAt s rd ra rel) := by
  unfold launchAt
  dsimp only
  split
  · exact .raise hs
  · refine .ite ?_ ?_
    · exact .sleepIn hs
    · split
      · exact .raise hs
      · exact .ite (.sleepIn hs) (.ite (.next (.issueOn hs)) (.retireReg hs))

protected theorem ResultOk.execLaunch {rd ra : Reg} (hs : MemOk s) : ResultOk (execLaunch rd ra s) := .launchAt hs

protected theorem ResultOk.execLaunchRel {rd ra : Reg} (hs : MemOk s) : ResultOk (execLaunchRel rd ra s) := .launchAt hs

protected theorem ResultOk.execHsig {ring : BitVec 2} {ra rb : Reg} (hs : MemOk s) : ResultOk (execHsig ring ra rb s) := by
  unfold execHsig
  dsimp only
  refine .ite ?_ ?_
  · exact .raise hs
  · refine .ite ?_ ?_
    · exact .sleepIn hs
    · split
      next s e => exact .retire (.acceptToken hs e)
      · exact .sleepIn hs

/-! ### Counters, barriers, steps and joins -/

protected theorem ResultOk.addCounter {ra rb : Reg} {rel : Bool} {scope : Nat} (hs : MemOk s) :
    ResultOk (addCounter s ra rb rel scope) := by
  unfold addCounter
  split
  · exact .raise hs
  · exact .retire hs

protected theorem ResultOk.execCread {rd ra : Reg} (hs : MemOk s) : ResultOk (execCread rd ra s) := by
  unfold execCread
  split
  · exact .raise hs
  · exact .retire hs

protected theorem ResultOk.execCwait {ra rb : Reg} (hs : MemOk s) : ResultOk (execCwait ra rb s) := by
  unfold execCwait
  refine .ite ?_ ?_
  · exact .sleepIn hs
  · split
    · exact .raise hs
    · exact .retire hs

protected theorem ResultOk.execCwaitAcq {ra rb : Reg} {scope : BitVec 3} (hs : MemOk s) :
    ResultOk (execCwaitAcq ra rb scope s) := by
  unfold execCwaitAcq
  refine .ite ?_ ?_
  · exact .sleepIn hs
  · split
    · exact .raise hs
    · exact .ite (.retire hs) (.ite (.next hs) (.sleepIn hs))

protected theorem ResultOk.execCwaitRequest (hs : MemOk s) : ResultOk (execCwaitRequest s) := by
  unfold execCwaitRequest
  dsimp only
  split
  · refine .ite ?_ ?_
    · exact .next hs
    · split
      · exact .next hs
      · refine .ite ?_ ?_
        · exact .next hs
        · split <;> exact .ite (.next hs) (.next hs)
  · exact .next hs

protected theorem MemOk.modBarrier {core b : Nat} {f : Barrier → Barrier} (hs : MemOk s) :
    MemOk (State.modBarrier s core b f) :=
  hs

protected theorem ResultOk.execBarrRlx {rd : Reg} {b : BitVec 3} (hs : MemOk s) : ResultOk (execBarrRlx rd b s) := by
  unfold execBarrRlx
  split
  · exact .raise hs
  · exact .ite (.sleepIn hs) (.retireReg hs)

protected theorem ResultOk.execBarrRel {rd : Reg} {b : BitVec 3} (hs : MemOk s) : ResultOk (execBarrRel rd b s) := by
  unfold execBarrRel
  dsimp only
  split
  · exact .raise hs
  · exact .ite (.sleepIn hs) (.retire hs)

protected theorem ResultOk.execBwait {b : BitVec 3} {ra : Reg} (hs : MemOk s) : ResultOk (execBwait b ra s) := by
  unfold execBwait
  dsimp only
  split
  · exact .raise hs
  · exact .ite (.retire hs) (.sleepIn hs)

protected theorem ResultOk.execBmiss {rd : Reg} {b : BitVec 3} {ra : Reg} (hs : MemOk s) : ResultOk (execBmiss rd b ra s) := by
  unfold execBmiss
  dsimp only
  split
  · exact .raise hs
  · exact .retireReg hs

protected theorem MemOk.keepWoken {core b : Nat} (hs : MemOk s) : MemOk (keepWoken s core b) := .foldl hs fun _ _ hs => hs

protected theorem ResultOk.execBinit {b : BitVec 3} {ra rd : Reg} (hs : MemOk s) : ResultOk (execBinit b ra rd s) := by
  unfold execBinit
  dsimp only
  split
  · exact .raise hs
  · exact .retire (.modBarrier (.keepWoken hs))

protected theorem MemOk.leaveBarriers {core ctx : Nat} (hs : MemOk s) : MemOk (leaveBarriers s core ctx) := hs

protected theorem MemOk.setStep {d : StepDom} (hs : MemOk s) : MemOk (State.setStep s d) := hs

protected theorem MemOk.testStep {level domain core : Nat} (hs : MemOk s) : MemOk (testStep s level domain core) := .ite hs hs

protected theorem MemOk.arriveStep {core ctx level : Nat} (hs : MemOk s) : MemOk (arriveStep s core ctx level) := .testStep hs

protected theorem MemOk.leaveSteps {core ctx : Nat} (hs : MemOk s) : MemOk (leaveSteps s core ctx) := hs

protected theorem MemOk.retestSteps {core : Nat} (hs : MemOk s) : MemOk (retestSteps s core) :=
  .foldl hs fun _ _ hs => .testStep hs

protected theorem MemOk.remoteArrival {gid i : Nat} (hs : MemOk s) : MemOk (remoteArrival s gid i) := by
  unfold remoteArrival
  dsimp only
  split
  · exact hs
  · split
    · exact hs
    · exact .ite hs (.testStep hs)

protected theorem ResultOk.execSstep {rd : Reg} {level : BitVec 3} (hs : MemOk s) : ResultOk (execSstep rd level s) :=
  .ite (.raise hs) <| .ite (.raise hs) <| .ite (.raise hs) <| .ite (.retireReg hs) <| .ite (.retireReg hs) <|
    .ite (.sleepIn hs) <| .ite (.sleepIn hs) <| .ite (.retireReg (.setStep (.arriveStep hs))) <|
    .sleepIn (.arriveStep hs)

protected theorem ResultOk.fence {kind : Nat} {scope : BitVec 3} (hs : MemOk s) : ResultOk (fence s kind scope) := .retire hs

protected theorem MemOk.pushJoin {ids stores : List Nat} (hs : MemOk s) : MemOk (pushJoin s ids stores) := .ite hs hs

protected theorem MemOk.joinTags {mask : DWord} (hs : MemOk s) : MemOk (joinTags s mask) := .pushJoin hs

protected theorem ResultOk.execTwany {rd ra : Reg} (hs : MemOk s) : ResultOk (execTwany rd ra s) := by
  unfold execTwany
  refine .ite ?_ ?_
  · exact .retireReg hs
  · split
    · exact .retireReg (.joinTags hs)
    · exact .sleepIn hs

protected theorem ResultOk.execTffr {rd ra : Reg} (hs : MemOk s) : ResultOk (execTffr rd ra s) := by
  unfold execTffr
  split
  · exact .retireReg (.joinTags hs)
  · exact .retireReg hs

/-! ### Contexts and followers -/

protected theorem ResultOk.execStart {k : BitVec 5} {ra rb : Reg} (hs : MemOk s) : ResultOk (execStart k ra rb s) := by
  unfold execStart
  split
  · exact .raise hs
  · exact .ite (.sleepIn hs) (.retire hs)

protected theorem MemOk.joinHelper {k : Nat} (hs : MemOk s) : MemOk (joinHelper s k) := .pushJoin hs

protected theorem ResultOk.execHjoin {rd : Reg} {k : BitVec 5} (hs : MemOk s) : ResultOk (execHjoin rd k s) := by
  unfold execHjoin
  dsimp only
  refine .ite ?_ ?_
  · exact .raise hs
  · split
    · exact .raise hs
    · exact .sleepIn hs
    · exact .retireReg (.modCtx (.joinHelper hs))

protected theorem MemOk.haltFollow {core : Nat} (hs : MemOk s) : MemOk (haltFollow s core) :=
  .ite (.foldl (.ite (.endFollow hs) hs) fun _ _ hs => .missFollow hs) (.ite (.endFollow hs) hs)

protected theorem MemOk.haltCtx {core ctx : Nat} (hs : MemOk s) : MemOk (haltCtx s core ctx) := by
  unfold haltCtx
  extract_lets waited done left cleared
  have hc : MemOk cleared := .modCtx (.retestSteps (.leaveSteps (.leaveBarriers (.dropEntries hs))))
  exact .gangQuiet (.ite (.haltFollow hc) hc)

protected theorem MemOk.wakeNext {core ctx : Nat} {i : Instr} (hs : MemOk s) : MemOk (wakeNext s core ctx i) :=
  .ite hs (.ite (.retireAt hs) (.ite (.ite (.pushFollow (.retireAt hs)) (.retireAt hs)) (.popFollow (.retireAt hs))))

protected theorem ResultOk.execYield (hs : MemOk s) : ResultOk (execYield s) := by
  unfold execYield
  split
  · exact .next hs
  · exact .sleepIn hs

protected theorem ResultOk.execYieldExpiry (hs : MemOk s) : ResultOk (execYieldExpiry s) := by
  unfold execYieldExpiry
  dsimp only
  split
  · exact .next (.ite (.wakeNext hs) hs)
  · exact .next hs

protected theorem ResultOk.execWfe (hs : MemOk s) : ResultOk (execWfe s) := by
  unfold execWfe
  split
  · exact .retire hs
  · exact .next hs
  · exact .sleepIn hs

protected theorem ResultOk.execWfeTimeout (hs : MemOk s) : ResultOk (execWfeTimeout s) := by
  unfold execWfeTimeout
  dsimp only
  split
  · exact .next (.ite (.wakeNext hs) hs)
  · exact .next hs

protected theorem MemOk.becomeFollower {leader : Nat} {f : DWord} {j : Nat} (hs : MemOk s) :
    MemOk (becomeFollower leader f s j) :=
  .retireAt hs

protected theorem MemOk.endRendezvous {leader : Nat} {f : DWord} (hs : MemOk s) : MemOk (endRendezvous s leader f) :=
  .retireAt (.modCore (.foldl (.foldl hs fun _ _ hs => .becomeFollower hs) fun _ _ hs => hs))

protected theorem MemOk.beginWait {core : Nat} {f : DWord} (hs : MemOk s) : MemOk (beginWait s core f) := .sleepAt hs

protected theorem MemOk.leadFollow {f : DWord} (hs : MemOk s) : MemOk (leadFollow s f) := by
  unfold leadFollow
  extract_lets missed
  have hm : MemOk missed := .foldl hs fun _ _ hs => .missFollow hs
  exact .ite (.endRendezvous hm) (.beginWait hm)

protected theorem MemOk.joinFollow {leader : Nat} {f : DWord} (hs : MemOk s) : MemOk (joinFollow s leader f) := by
  unfold joinFollow
  extract_lets ended
  have he : MemOk ended := .ite (.endRendezvous hs) hs
  exact .ite (.modCore (.missFollow he)) (.ite (.endRendezvous (.beginWait he)) (.beginWait he))

protected theorem ResultOk.execFollow (hs : MemOk s) : ResultOk (execFollow s) :=
  .ite (.raise hs) <| .ite (.retire hs) <| .ite (.next (.ite (.endRendezvous hs) hs)) <|
    .next (.ite (.leadFollow hs) (.joinFollow hs))

protected theorem ResultOk.execFollowTimeout (hs : MemOk s) : ResultOk (execFollowTimeout s) := by
  unfold execFollowTimeout
  dsimp only
  split
  · exact .next (.ite (.endRendezvous hs) hs)
  · exact .next hs

protected theorem ResultOk.execUnfollow (hs : MemOk s) : ResultOk (execUnfollow s) := by
  unfold execUnfollow retire retireTo
  dsimp only
  exact .ite (.raise hs) <| .ite (.next (.endFollow (.retireAt hs))) <| .ite (.next (.modMe (.retireAt hs))) <|
    .next (.retireAt hs)

/-! ### Special registers -/

protected theorem ResultOk.waitRng (hs : MemOk s) : ResultOk (waitRng s) := .sleepIn hs

protected theorem MemOk.writeSpecial {core ctx n : Nat} {v : DWord} (hs : MemOk s) : MemOk (writeSpecial s core ctx n v) := by
  unfold writeSpecial
  dsimp only
  split <;> exact hs

protected theorem ResultOk.execMfsr {rd : Reg} {sr : BitVec 12} (hs : MemOk s) : ResultOk (execMfsr rd sr s) := by
  unfold execMfsr
  dsimp only
  split
  · exact .raise hs
  · exact .ite (.waitRng hs) (.retireReg hs)

protected theorem ResultOk.execMtsr {sr : BitVec 12} {ra : Reg} (hs : MemOk s) : ResultOk (execMtsr sr ra s) := by
  unfold execMtsr
  dsimp only
  split
  · exact .raise hs
  · exact .ite (.waitRng hs) (.retire (.writeSpecial hs))

/-! ### The network interface -/

protected theorem MemOk.atomicAtHome {pl : Place} {op w : Nat} {v cmp : DWord} (hs : MemOk s) :
    MemOk (atomicAtHome s pl op w v cmp).2 := by
  unfold atomicAtHome
  dsimp only
  split
  · exact .writePlace hs
  · exact hs

protected theorem MemOk.firewalled {target : Nat} {a : Target} {op : FabOp} {run : Cover} (hs : MemOk s) :
    MemOk (firewalled s target a op run).state :=
  .ite (.firewallDrop hs) hs

protected theorem MemOk.peekRange {part va n : Nat} (hs : MemOk s) : MemOk (peekRange s part va n) := by
  unfold peekRange
  refine .ite ?_ ?_
  · exact hs
  · refine .foldl hs fun _ _ hs => ?_
    split
    · split
      · exact .ite hs hs
      · exact hs
    · exact hs

protected theorem MemOk.fabricServe {pkg part target va : Nat} {op : FabOp} {run : Cover} {x : FabResult} (hs : MemOk s)
    (e : fabricServe s pkg part target va op run = .ok x) : MemOk x.state := by
  unfold fabricServe at e
  split at e
  · cases e
  · split at e
    · cases e
    · cases op with
      | read n =>
        dsimp only at e
        split at e
        · cases e
          exact .firewalled (.peekRange hs)
        · split at e
          · cases e
          next f =>
            cases e
            exact .readRange (.peekRange hs) f
      | write bs =>
        dsimp only at e
        split at e
        · cases e
          exact .firewalled hs
        · cases e
          exact .writeRange hs
      | atomic k d v =>
        dsimp only at e
        generalize (if d then 8 else 4) = w at e
        split at e
        · cases e
          exact .firewalled hs
        · split at e
          · cases e
          · split at e
            · cases e
            · cases e
              exact .atomicAtHome hs

protected theorem MemOk.wakeRequest {p : Nat} (hs : MemOk s) : MemOk (wakeRequest s p) := by
  unfold wakeRequest
  split <;> exact hs

protected theorem MemOk.holdWriteFor {p : Nat} {w : HeldWrite} (hs : MemOk s) : MemOk (holdWriteFor s p w) :=
  .ite (.wakeRequest hs) hs

/-- A write that comes to a partition keeps the form where performing it does. -/
protected theorem MemOk.writeOrHold {p : Nat} {w : HeldWrite} {perform : State → State} (hs : MemOk s)
    (k : ∀ {s : State}, MemOk s → MemOk (perform s)) : MemOk (writeOrHold s p w perform) := by
  unfold writeOrHold
  split
  · exact k hs
  · exact k (.wakeRequest hs)
  · exact .holdWriteFor hs
  · exact .holdWriteFor hs
  · exact hs

protected theorem ResultOk.pushThread {t : NiThread} (hs : MemOk s) : ResultOk (pushThread s t) :=
  .ite (.sleepIn hs) (.retire (.modMe (.setNextKey (.takeTag hs))))

protected theorem ResultOk.getPut {kind : NiKind} {tag : BitVec 6} {ra rb : Reg} {opt : BitVec 3} (hs : MemOk s) :
    ResultOk (getPut s kind tag ra rb opt) := by
  unfold getPut
  dsimp only
  split
  · exact .raise hs
  · refine .ite ?_ ?_
    · split
      · exact .raise hs
      · exact .pushThread hs
    · exact .pushThread hs

protected theorem MemOk.askForeign {core key pkg : Nat} {r : FabReq} (hs : MemOk s) :
    MemOk (askForeign s core key pkg r).1 := by
  unfold askForeign
  refine .iteOf Prod.fst ?_ ?_
  · exact hs
  · split
    · exact hs
    · refine .iteOf Prod.fst ?_ ?_
      · exact hs
      · split
        · exact hs
        · exact .iteOf Prod.fst hs hs
        · exact hs
        · exact hs

protected theorem MemOk.askFabric {core key pkg part va : Nat} {op : FabOp} {run : Cover} (hs : MemOk s) :
    MemOk (askFabric s core key pkg part va op run).1 := by
  unfold askFabric
  dsimp only
  refine .iteOf Prod.fst ?_ ?_
  · refine .iteOf Prod.fst ?_ ?_
    · exact hs
    · refine .iteOf Prod.fst ?_ ?_
      · exact .holdWriteFor hs
      · split
        · exact .ite (.wakeRequest hs) hs
        next s e => exact .fabricServe (.ite (.wakeRequest hs) hs) e
  · split
    next s e => exact .fst_of_eq (.askForeign hs) e
    next s _ e => exact .fst_of_eq (.askForeign hs) e
    next s _ e => exact .fst_of_eq (.askForeign hs) e

theorem portOk_niPort (core key : Nat) (o : Origin) : PortOk (niPort core key o) where
  read hs := by
    unfold niPort
    dsimp only
    split
    · split
      next e => exact (MemOk.askFabric hs).fst_of_eq e
      next e => exact (MemOk.askFabric hs).fst_of_eq e
      next e => exact (MemOk.askFabric hs).fst_of_eq e
    · exact (portOk_diePort _ _).read hs
  write hs := by
    unfold niPort
    dsimp only
    split
    · split
      next e => exact (MemOk.askFabric hs).fst_of_eq e
      next e => exact (MemOk.askFabric hs).fst_of_eq e
      next e => exact (MemOk.askFabric hs).fst_of_eq e
    · exact (portOk_diePort _ _).write hs

protected theorem MemOk.niChunk {core : Nat} {t : NiThread} {k : Nat} (hs : MemOk s) : MemOk (niChunk s core t k).state := by
  unfold niChunk
  split
  next e =>
    split at e
    · cases e
      exact .chunksMove (portOk_niPort _ _ _) hs
    · cases e
      exact hs

protected theorem ResultOk.collective {kind : NiKind} {tag : BitVec 6} {ra rb : Reg} {opt : BitVec 3} (hs : MemOk s) :
    ResultOk (collective s kind tag ra rb opt) := by
  unfold collective
  dsimp only
  split
  · exact .raise hs
  · exact .pushThread hs

protected theorem MemOk.breakGroup {gid : Nat} (hs : MemOk s) : MemOk (breakGroup s gid) := by
  unfold breakGroup
  split <;> exact hs

protected theorem MemOk.startColl {core : Nat} {t : NiThread} (hs : MemOk s) : MemOk (startColl s core t) := by
  unfold startColl
  dsimp only
  split
  · exact .breakGroup hs
  · exact hs

protected theorem MemOk.setColl {o : CollOp} (hs : MemOk s) : MemOk (State.setColl s o) := hs

protected theorem MemOk.dropColl {k : Nat} (hs : MemOk s) : MemOk (State.dropColl s k) := hs

protected theorem MemOk.readSource {o : CollOp} {p : Nat × Nat} (hs : MemOk s) : MemOk (readSource s o p) := hs

protected theorem MemOk.writeResult {o : CollOp} {p : Nat × Nat} (hs : MemOk s) : MemOk (writeResult s o p) :=
  .setColl (.writePlace hs)

protected theorem MemOk.finishColl {o : CollOp} {st : Nat × Nat} (hs : MemOk s) : MemOk (finishColl s o st) :=
  .dropColl (.writePlace hs)

protected theorem MemOk.memberWrote {op k : Nat} (hs : MemOk s) : MemOk (memberWrote s op k) := by
  unfold memberWrote
  dsimp only
  split
  · exact hs
  · exact .ite hs hs

protected theorem MemOk.dropColls {core : Nat} (hs : MemOk s) : MemOk (dropColls s core) := hs

protected theorem MemOk.setThread {core : Nat} {t : NiThread} (hs : MemOk s) : MemOk (setThread s core t) := hs

protected theorem MemOk.niStart {core : Nat} {t : NiThread} (hs : MemOk s) : MemOk (niStart s core t) :=
  .ite hs (.ite hs (.startColl hs))

protected theorem MemOk.niEnd {core : Nat} {t : NiThread} {f : Option Flt} (hs : MemOk s) : MemOk (niEnd s core t f) := by
  unfold niEnd
  dsimp only
  split
  · exact hs
  · exact .endTag (.tagNotice hs)

protected theorem MemOk.niUnit {core : Nat} {t : NiThread} {k : Nat} (hs : MemOk s) : MemOk (niUnit s core t k).1 := by
  unfold niUnit
  dsimp only
  split
  · split
    · exact .niEnd (.niChunk (.niStart hs))
    · exact .niEnd (.niChunk (.niStart hs))
    · exact .setThread (.niChunk (.niStart hs))
  · split
    · exact .niEnd (.niChunk (.niStart hs))
    · exact .niEnd (.niChunk (.niStart hs))
    · exact .setThread (.niChunk (.niStart hs))
  · split
    · exact .niStart hs
    · refine .iteOf Prod.fst ?_ ?_
      · split
        · exact .ite (.readSource (.niStart hs)) (.writeResult (.niStart hs))
        · exact .niStart hs
      · split
        · exact .niStart hs
        · exact .niEnd (.finishColl (.niStart hs))

protected theorem MemOk.niUnits {n core id : Nat} (hs : MemOk s) : MemOk (niUnits n s core id) := by
  induction n generalizing s with
  | zero => exact hs
  | succ n ih =>
    unfold niUnits
    split
    · exact hs
    · exact .ite hs (.ite (.niUnit hs) (ih (.niUnit hs)))

protected theorem ResultOk.execNiThreadEnd (hs : MemOk s) : ResultOk (execNiThreadEnd s) := by
  unfold execNiThreadEnd
  dsimp only
  split
  · exact .next hs
  · exact .next (.niUnits hs)

protected theorem ResultOk.execMldredRoot (hs : MemOk s) : ResultOk (execMldredRoot s) := by
  unfold execMldredRoot
  dsimp only
  split
  · exact .next hs
  · exact .ite (.next hs) (.next hs)

protected theorem MemOk.ownMemberRead {o : CollOp} {i : Nat} {m : Member} (hs : MemOk s) : MemOk (ownMemberRead s o i m) := by
  unfold ownMemberRead
  dsimp only
  refine .ite ?_ ?_
  · exact .breakGroup hs
  · refine .ite ?_ ?_
    · exact hs
    · refine .ite ?_ ?_
      · split
        · exact .setColl (.peekRange hs)
        · exact hs
      · split
        · exact .ite hs hs
        · exact hs
        · exact .breakGroup hs
        · exact hs

protected theorem MemOk.askedMemberRead (hs : MemOk s) : MemOk (askedMemberRead s) := by
  unfold askedMemberRead
  dsimp only
  split
  · exact hs
  · split
    · exact hs
    · refine .ite ?_ ?_
      · exact hs
      · refine .ite ?_ ?_
        · exact .breakGroup hs
        · split
          · exact .peekRange hs
          · exact hs

protected theorem ResultOk.execMemberRead (hs : MemOk s) : ResultOk (execMemberRead s) := by
  unfold execMemberRead
  dsimp only
  split
  · exact .next (.askedMemberRead hs)
  · split
    · exact .next hs
    · exact .ite (.next hs) (.next (.ownMemberRead hs))

protected theorem MemOk.unstage (hs : MemOk s) : MemOk (State.unstage s) := hs

protected theorem MemOk.discard (hs : MemOk s) : MemOk (State.discard s) := hs

protected theorem MemOk.timeoutForeign (hs : MemOk s) : MemOk (timeoutForeign s) := by
  unfold timeoutForeign
  split
  · exact hs
  · exact .ite hs (.ite hs hs)

protected theorem ResultOk.execMemberTimeout (hs : MemOk s) : ResultOk (execMemberTimeout s) := by
  unfold execMemberTimeout
  dsimp only
  split
  · exact .next (.timeoutForeign hs)
  · exact .ite (.next hs) (.next hs)

protected theorem MemOk.stageForeign (hs : MemOk s) : MemOk (stageForeign s) := by
  unfold stageForeign
  dsimp only
  split
  · split
    · exact .ite hs (.ite (.ite (.breakGroup hs) hs) (.ite hs (.ite hs hs)))
    · exact hs
  · exact hs

protected theorem ResultOk.execMcstStage (hs : MemOk s) : ResultOk (execMcstStage s) := by
  unfold execMcstStage
  dsimp only
  split
  · exact .next (.stageForeign hs)
  · split
    · exact .next hs
    · exact .ite (.next hs) (.ite (.next (.breakGroup hs)) (.ite (.next hs) (.ite (.next hs) (.next hs))))

protected theorem MemOk.rootForeign (hs : MemOk s) : MemOk (rootForeign s) := by
  unfold rootForeign
  dsimp only
  split
  · exact hs
  · exact .ite hs hs

protected theorem ResultOk.execMcstCommit (hs : MemOk s) : ResultOk (execMcstCommit s) := by
  unfold execMcstCommit
  split
  · exact .next (.rootForeign hs)
  · exact .ite (.next hs) (.next hs)

protected theorem MemOk.writeMember {part core ctx va : Nat} {shared : Bool} {bs : List Byte} (hs : MemOk s) :
    MemOk (writeMember s part core ctx va shared bs) := by
  unfold writeMember
  dsimp only
  refine .ite ?_ ?_
  · exact hs
  · refine .ite ?_ ?_
    · exact hs
    · split
      next s e => exact .vwrite hs e
      · exact hs

protected theorem MemOk.commitForeign (hs : MemOk s) : MemOk (commitForeign s) := by
  unfold commitForeign
  dsimp only
  split
  · exact hs
  next x _ =>
    have hw : MemOk (writeOrHold s x.member.part (.member x.member.part x.member.core x.member.ctx x.off x.shared x.bytes)
        (fun s => writeMember s x.member.part x.member.core x.member.ctx x.off x.shared x.bytes)) :=
      .writeOrHold hs .writeMember
    exact .ite hs (.ite (.unstage hs) (.ite (.ite hs (.unstage hw)) (.unstage hw)))

protected theorem MemOk.commitSent {o : CollOp} {m : Member} (hs : MemOk s) : MemOk (commitSent s o m).1 :=
  .iteOf Prod.fst hs (.askForeign hs)

protected theorem ResultOk.execMemberCommitWrite (hs : MemOk s) : ResultOk (execMemberCommitWrite s) := by
  unfold execMemberCommitWrite
  dsimp only
  split
  · exact .next (.commitForeign hs)
  · split
    · exact .next hs
    · exact .ite (.next hs) (.ite (.next (.ite (.memberWrote (.commitSent hs)) (.commitSent hs)))
        (.ite (.next (.memberWrote hs)) (.next (.writeOrHold hs fun hs => .memberWrote (.writeMember hs)))))

protected theorem MemOk.breakAbsent (hs : MemOk s) : MemOk (breakAbsent s) := hs

/-! ### Engine jobs -/

protected theorem ResultOk.execEngineStart (hs : MemOk s) : ResultOk (execEngineStart s) := by
  unfold execEngineStart
  dsimp only
  split
  · exact .next (.refill hs)
  · exact .ite (.next (.refill hs)) (.next (.modCore (.refill hs)))

protected theorem MemOk.leaveQueue {core : Nat} {e : Engine} {fired : Option Nat} (hs : MemOk s) :
    MemOk (leaveQueue s core e fired) :=
  .gangQuiet (.afterJob hs)

protected theorem MemOk.endMatrix {core : Nat} {j : Job} {ctx : Nat} (hs : MemOk s) : MemOk (endMatrix s core j ctx) :=
  .leaveQueue hs

protected theorem MemOk.matrixUnit {core : Nat} {j : Job} {k : Nat} (hs : MemOk s) : MemOk (matrixUnit s core j k).1 :=
  .iteOf Prod.fst (.endMatrix (.setCore hs)) (.setCore hs)

protected theorem MemOk.promiseUnit {core : Nat} {j : Job} {r : RecJob} {k : Nat} (hs : MemOk s) :
    MemOk (promiseUnit s core j r k).1 := by
  unfold promiseUnit
  dsimp only
  split <;> dsimp only
  · exact .modCore (.promUnit hs)
  · exact .endMatrix (.modCore (.promUnit hs))
  · exact .ite (.modCore (.promUnit hs)) (.takeSlotFault (.modCore (.promUnit hs)))

protected theorem MemOk.endCopy {core : Nat} {j : Job} {f : Option Flt} (hs : MemOk s) : MemOk (endCopy s core j f) := by
  unfold endCopy
  dsimp only
  refine .leaveQueue ?_
  split
  · exact hs
  · exact .endTag (.tagNotice hs)

protected theorem MemOk.chunkUnit {core : Nat} {j : Job} {k : Nat} (hs : MemOk s) : MemOk (chunkUnit s core j k).1 := by
  unfold chunkUnit
  dsimp only
  split <;> dsimp only
  · exact .modCore (.copyUnit hs)
  · exact .endCopy (.modCore (.copyUnit hs))
  · exact .endCopy (.modCore (.copyUnit hs))

protected theorem MemOk.vectorUnit {core : Nat} {j : Job} (hs : MemOk s) : MemOk (vectorUnit s core j).1 := .leaveQueue hs

protected theorem MemOk.engineUnit {core : Nat} {e : Engine} {j : Job} {k : Nat} (hs : MemOk s) :
    MemOk (engineUnit s core e j k).1 := by
  unfold engineUnit
  split
  · exact .vectorUnit hs
  · exact .chunkUnit hs
  · exact .promiseUnit hs
  · exact .matrixUnit hs

protected theorem MemOk.engineUnits {n core : Nat} {e : Engine} (hs : MemOk s) : MemOk (engineUnits n s core e) := by
  induction n generalizing s with
  | zero => exact hs
  | succ n ih =>
    unfold engineUnits
    split
    · exact hs
    · exact .ite (.engineUnit hs) (ih (.engineUnit hs))

protected theorem ResultOk.execEngineJobEnd (hs : MemOk s) : ResultOk (execEngineJobEnd s) := by
  unfold execEngineJobEnd
  dsimp only
  split
  · exact .next (.ite hs (.engineUnits hs))
  · exact .next hs

protected theorem ResultOk.execReconcileJobEnd (hs : MemOk s) : ResultOk (execReconcileJobEnd s) := by
  unfold execReconcileJobEnd
  dsimp only
  split
  · exact .next (.ite (.engineUnits hs) hs)
  · exact .next hs

/-! ### Images of cores -/

protected theorem MemOk.restoreStep {cores : List Nat} {p : StepSave} (hs : MemOk s) : MemOk (restoreStep cores s p) := by
  unfold restoreStep
  dsimp only
  split
  · exact hs
  · split <;> exact hs

protected theorem MemOk.rehome {core : Nat} {cores homes : List Nat} {h : Nat} (hs : MemOk s) :
    MemOk (rehome core cores homes s h) := by
  unfold rehome
  dsimp only
  refine .ite ?_ ?_
  · exact hs
  · split
    · exact .ite hs (.modCore (.coreNotice hs))
    · exact .modCore (.coreNotice hs)

protected theorem MemOk.restoreImage {gang : Nat} {cores : List Nat} {core : Nat} {img : CoreImage} (hs : MemOk s) :
    MemOk (restoreImage s gang cores core img) := by
  unfold restoreImage
  extract_lets adopted resumed homed
  have hh : MemOk homed := .foldl (.modCore (.traceSleepEnds hs)) fun _ _ hs => .rehome hs
  exact .resendWaits (.foldl (.foldl hh fun _ _ hs => hs) fun _ _ hs => hs)

/-- An image is written at its area (R95). -/
protected theorem MemOk.storeImage {core area : Nat} {collapse : Bool} (hs : MemOk s) :
    MemOk (storeImage s core area collapse) :=
  Memory.wf_paste _ _ _ hs

/-! ### The debug window and fault reports -/

protected theorem MemOk.setMailbox {b : MailBox} {m : MailState} (hs : MemOk s) : MemOk (State.setMailbox s b m) := by
  unfold State.setMailbox
  split <;> exact hs

protected theorem MemOk.windowPeek {core off : Nat} (hs : MemOk s) : MemOk (windowPeek s core off) := by
  unfold windowPeek
  split
  · exact hs
  · refine .ite ?_ ?_
    · exact hs
    · split
      · split
        · exact .ite hs hs
        · exact hs
      · exact hs

protected theorem MemOk.acceptReq {core : Nat} (hs : MemOk s) : MemOk (acceptReq s core) := hs

protected theorem MemOk.freezeAction {core : Nat} (hs : MemOk s) : MemOk (freezeAction s core) :=
  .ite hs (.postFault (.freezeCore hs))

protected theorem MemOk.resumeAction {core : Nat} (hs : MemOk s) : MemOk (resumeAction s core) :=
  .ite hs (.refill (.resumeCore hs))

protected theorem MemOk.stepAction {core tgt : Nat} (hs : MemOk s) : MemOk (stepAction s core tgt) :=
  .ite hs (.refill (.resendWait (.modCore (.acceptReq (.ite (.traceTiming hs) hs)))))

protected theorem MemOk.stopengAction {core : Nat} (hs : MemOk s) : MemOk (stopengAction s core) := .ite hs hs

protected theorem MemOk.haltcAction {core tgt : Nat} (hs : MemOk s) : MemOk (haltcAction s core tgt) :=
  .ite hs (.setKills (.haltCtx (.ite (.traceTiming hs) hs)))

protected theorem MemOk.dwctlWrite {core : Nat} {v : DWord} (hs : MemOk s) : MemOk (dwctlWrite s core v) := by
  unfold dwctlWrite
  dsimp only
  split
  · exact hs
  · exact .freezeAction hs
  · exact .resumeAction hs
  · exact .stepAction hs
  · exact .stopengAction hs
  · exact .haltcAction hs
  · exact hs

protected theorem MemOk.writeHandle {core h : Nat} {second : Bool} {v : DWord} (hs : MemOk s) :
    MemOk (writeHandle s core h second v) :=
  .ite hs (.setHandle (.ite hs (.staleSleepers hs)))

protected theorem MemOk.windowSpecial {core n : Nat} {v : DWord} (hs : MemOk s) : MemOk (windowSpecial s core n v) := by
  unfold windowSpecial
  dsimp only
  split
  · exact .ite hs (.writeSpecial hs)
  · exact .ite hs (.writeSpecial hs)
  · exact .ite hs hs
  · exact .ite hs hs
  · exact hs
  · exact .writeSpecial hs
  · exact hs

protected theorem MemOk.writeWatchState {core k : Nat} {v : DWord} (hs : MemOk s) : MemOk (writeWatchState s core k v) :=
  .ite hs (.refill (.gangQuiet hs))

protected theorem MemOk.frozenWrite {core off : Nat} {v : DWord} (hs : MemOk s) : MemOk (frozenWrite s core off v) :=
  .ite (.writeHandle hs) <| .ite (.writeSpecial hs) <| .ite (.windowSpecial hs) <| .ite hs <| .ite hs <|
    .ite (.ite hs (.ite hs hs)) <| .ite hs <| .ite hs <| .ite (.writeWatchState hs) hs

protected theorem MemOk.windowWrite {core off : Nat} {v : DWord} (hs : MemOk s) : MemOk (windowWrite s core off v) :=
  .ite (.dwctlWrite hs) (.ite hs (.ite hs (.ite hs (.ite hs (.ite (.frozenWrite hs) hs)))))

protected theorem MemOk.windowStore {core off : Nat} {v : DWord} (hs : MemOk s) : MemOk (windowStore s core off v) := by
  unfold windowStore
  split
  · exact hs
  · exact .ite hs (.ite hs (.writeOrHold hs .windowWrite))

protected theorem ResultOk.dwctlEvent {code : Nat} (hs : MemOk s) : ResultOk (dwctlEvent s code) := .next (.windowStore hs)

protected theorem MemOk.breakAt {core k : Nat} {pc : DWord} (hs : MemOk s) : MemOk (breakAt s core k pc) :=
  .modCtx (.takeFaultAt hs)

protected theorem MemOk.deliverReport {p h : Nat} {k : Packet} (hs : MemOk s) : MemOk (deliverReport s p h k) := .deliverInto hs

protected theorem MemOk.forwardFault {p : Nat} {k : Packet} (hs : MemOk s) : MemOk (forwardFault s p k) :=
  .ite (.deliverReport hs) (.ite hs hs)

protected theorem MemOk.forwardNotice {p : Nat} {k : Packet} (hs : MemOk s) : MemOk (forwardNotice s p k) :=
  .ite (.deliverReport hs) (.ite hs hs)

protected theorem ResultOk.execNoticeDeliver (hs : MemOk s) : ResultOk (execNoticeDeliver s) := by
  unfold execNoticeDeliver
  dsimp only
  split
  · exact .next (.deliverReport hs)
  · split
    · exact .next (.forwardNotice hs)
    · exact .next hs

/-! ### Accesses as they are performed -/

protected theorem MemOk.removeAccess {core : Nat} {e : Access} (hs : MemOk s) : MemOk (removeAccess s core e) := hs

protected theorem MemOk.accessNotice {core : Nat} {e : Access} {f : Flt} (hs : MemOk s) : MemOk (accessNotice s core e f) :=
  .coreNotice hs

protected theorem MemOk.releaseDst {core : Nat} {e : Access} (hs : MemOk s) : MemOk (releaseDst s core e) := by
  unfold releaseDst
  dsimp only
  split <;> exact hs

protected theorem MemOk.lateFault {core : Nat} {e : Access} {f : Flt} (hs : MemOk s) : MemOk (lateFault s core e f) := by
  unfold lateFault
  extract_lets removed led stopped marked
  have hr : MemOk removed := .removeAccess (.releaseDst hs)
  have hl : MemOk led := .ite (.leaderFault hr) hr
  have ht : MemOk stopped := .ite (.modCore hl) (.stopCore (.traceAt hl))
  exact .postFault (.modCtx ht)

protected theorem MemOk.writeDst {core : Nat} {e : Access} {dst : LoadDst} {bs : List Byte} (hs : MemOk s) :
    MemOk (writeDst s core e dst bs) := by
  unfold writeDst
  dsimp only
  split <;> exact hs

protected theorem MemOk.placeLoad {core : Nat} {e : Access} (hs : MemOk s) : MemOk (placeLoad s core e).2 := by
  unfold placeLoad
  split
  · exact hs
  · exact .windowPeek hs
  · exact .readAs hs

protected theorem MemOk.finishLoad {core : Nat} {e : Access} {dst : LoadDst} {bs : List Byte} (hs : MemOk s) :
    MemOk (finishLoad s core e dst bs) :=
  .removeAccess (.writeDst hs)

protected theorem MemOk.performLoad {core : Nat} {e : Access} {dst : LoadDst} (hs : MemOk s) :
    MemOk (performLoad s core e dst) := by
  unfold performLoad
  refine .ite ?_ ?_
  · exact .ite hs (.ite (.lateFault hs) (.finishLoad (.placeLoad hs)))
  · split
    · exact .finishLoad hs
    · exact hs

protected theorem MemOk.placeStore {core : Nat} {e : Access} {bs : List Byte} (hs : MemOk s) :
    MemOk (placeStore s core e bs) := by
  unfold placeStore
  dsimp only
  split
  · exact .setMailbox hs
  · exact .windowStore hs
  · exact .modCtx (.covered (.writeAs hs))
  · exact .modCtx (.writeAs hs)

protected theorem MemOk.performStore {core : Nat} {e : Access} {d : Nat} (hs : MemOk s) : MemOk (performStore s core e d) :=
  .ite (.placeStore hs) hs

protected theorem MemOk.releaseLine {core : Nat} {pl : Place} (hs : MemOk s) : MemOk (releaseLine s core pl) := by
  unfold releaseLine
  split
  · exact .dropLine (.flushLine hs)
  · exact hs

protected theorem MemOk.releaseHolding {core : Nat} {e : Access} (hs : MemOk s) : MemOk (releaseHolding s core e) :=
  .foldl hs fun _ _ hs => .releaseLine hs

protected theorem MemOk.mergeRequests {core : Nat} {e : Access} {core' : Nat} {e' : Access} (hs : MemOk s) :
    MemOk (mergeRequests s core e core' e') := by
  unfold mergeRequests
  dsimp only
  split <;> exact hs

protected theorem MemOk.answerEntry {core : Nat} {e : Access} {r : Except Flt (Option (Reg × DWord))} (hs : MemOk s) :
    MemOk (answerEntry s core e r) := by
  unfold answerEntry
  extract_lets removed
  refine .ite hs ?_
  split
  · exact .ite (.takeFaultAt hs) hs
  · extract_lets written retired
    have hr : MemOk retired := by
      refine .retireAt ?_
      unfold written
      split <;> exact hs
    refine .ite hr (.ite (.popFollow hr) ?_)
    split
    · exact .pushFollow hr
    · exact hr

protected theorem MemOk.atomicDone {core : Nat} {e : Access} {ret : Option Reg} {old : Nat} (hs : MemOk s) :
    MemOk (atomicDone s core e ret old) := by
  unfold atomicDone
  dsimp only
  refine .ite ?_ ?_
  · exact .answerEntry hs
  · split <;> exact hs

protected theorem MemOk.atomicFailed {core : Nat} {e : Access} {ret : Option Reg} {f : Flt} (hs : MemOk s) :
    MemOk (atomicFailed s core e ret f) :=
  .ite (.answerEntry hs) (.ite (.lateFault hs) (.accessNotice hs))

protected theorem MemOk.answerMerged {old : Nat} {l : List (Nat × Nat × DWord)} (hs : MemOk s) :
    MemOk (answerMerged s old l) := by
  induction l generalizing s old with
  | nil => exact hs
  | cons x r ih =>
    unfold answerMerged
    refine ih ?_
    split
    · exact hs
    · exact .atomicDone hs

protected theorem MemOk.failMerged {f : Flt} {l : List (Nat × Nat × DWord)} (hs : MemOk s) : MemOk (failMerged s f l) := by
  induction l generalizing s with
  | nil => exact hs
  | cons x r ih =>
    unfold failMerged
    refine ih ?_
    split
    · exact hs
    · exact .atomicFailed hs

protected theorem MemOk.atomicAnswer {core : Nat} {e : Access} {old : Nat} (hs : MemOk s) : MemOk (atomicAnswer s core e old) :=
  .ite (.atomicDone hs) (.answerMerged hs)

protected theorem MemOk.atomicRefused {core : Nat} {e : Access} {f : Flt} (hs : MemOk s) : MemOk (atomicRefused s core e f) :=
  .ite (.atomicFailed hs) (.failMerged hs)

protected theorem MemOk.performAtomic {core : Nat} {e : Access} {op : Nat} {v cmp : DWord} (hs : MemOk s) :
    MemOk (performAtomic s core e op v cmp) :=
  .ite (.atomicRefused hs) (.ite (.atomicRefused hs) (.atomicAnswer (.atomicAtHome (.releaseHolding hs))))

protected theorem MemOk.performFabric {core : Nat} {e : Access} {op : Nat} {v : DWord} {pkg part va : Nat} (hs : MemOk s) :
    MemOk (performFabric s core e op v pkg part va) := by
  unfold performFabric
  split
  next s e => exact .fst_of_eq (.askFabric (.releaseHolding hs)) e
  next s _ e => exact .atomicRefused (.fst_of_eq (.askFabric (.releaseHolding hs)) e)
  next s _ e => exact .atomicAnswer (.fst_of_eq (.askFabric (.releaseHolding hs)) e)

protected theorem MemOk.performCadd {core : Nat} {e : Access} {n : DWord} (hs : MemOk s) : MemOk (performCadd s core e n) :=
  .ite (.accessNotice hs) (.counterAdd hs)

protected theorem MemOk.performCread {core : Nat} {e : Access} {rd : Reg} (hs : MemOk s) : MemOk (performCread s core e rd) :=
  .ite (.lateFault hs) hs

protected theorem MemOk.performAdvance {core : Nat} {e : Access} {h : Nat} {producer : Bool} {n : Nat} (hs : MemOk s) :
    MemOk (performAdvance s core e h producer n) := by
  unfold performAdvance
  split
  · exact .lateFault hs
  · exact .movePointer hs

protected theorem MemOk.performProxy {core : Nat} {e : Access} {owner h : Nat} {sent : Handle} {producer : Bool}
    {n : Nat} (hs : MemOk s) :
    MemOk (performProxy s core e owner h sent producer n) := by
  unfold performProxy
  dsimp only
  split
  · exact .answerEntry hs
  · exact .answerEntry (.movePointer hs)

protected theorem MemOk.performLines {core : Nat} {e : Access} {drop : Bool} (hs : MemOk s) :
    MemOk (performLines s core e drop) :=
  .removeAccess (.foldl hs fun _ _ hs => .ite (.dropLine (.flushLine hs)) (.flushLine hs))

protected theorem MemOk.performLaunch {core : Nat} {e : Access} {rd : Reg} {bs : List Byte} (hs : MemOk s) :
    MemOk (performLaunch s core e rd bs) :=
  .ite hs hs

protected theorem MemOk.performAccess {core : Nat} {e : Access} (hs : MemOk s) : MemOk (performAccess s core e) := by
  unfold performAccess
  dsimp only
  split
  · exact .performLoad hs
  · exact .performStore hs
  · refine .ite ?_ ?_
    · exact hs
    · split
      · exact .performFabric hs
      · exact .performAtomic hs
  · exact .ite (.performCadd hs) hs
  · exact .ite (.performCread hs) hs
  · exact .ite hs hs
  · exact .ite hs hs
  · exact .ite (.performLines hs) hs
  · exact .ite (.performLines hs) hs
  · exact .ite hs hs
  · exact .ite (.performAdvance hs) hs
  · exact .performProxy hs
  · exact hs
  · exact .performLaunch hs

protected theorem ResultOk.execHoldSend (hs : MemOk s) : ResultOk (execHoldSend s) := by
  unfold execHoldSend
  dsimp only
  split
  · exact .next (.ite hs hs)
  · exact .next hs

protected theorem ResultOk.execApply (hs : MemOk s) : ResultOk (execApply s) := by
  unfold execApply
  dsimp only
  split
  · exact .next hs
  · exact .next (.setPaths (.applyMsgs hs))

protected theorem ResultOk.execEvict (hs : MemOk s) : ResultOk (execEvict s) := by
  unfold execEvict
  dsimp only
  split
  · exact .next (.ite hs hs)
  · exact .next hs

protected theorem MemOk.fabricServed {r : FabReq} (hs : MemOk s) : MemOk (fabricServed s r) := by
  unfold fabricServed
  split
  next s e => exact .fabricServe hs e
  · exact hs

protected theorem MemOk.mergeIncoming {r : FabReq} (hs : MemOk s) (e : mergeIncoming s r = some t) : MemOk t := by
  unfold mergeIncoming at e
  split at e
  · split at e
    · dsimp only at e
      split at e
      · cases e
        exact hs
      · cases e
    · cases e
  · cases e

protected theorem ResultOk.execFabricRequest (hs : MemOk s) : ResultOk (execFabricRequest s) := by
  unfold execFabricRequest
  dsimp only
  refine .ite (.next hs) ?_
  have written : ResultOk (.next ((mergeIncoming s s.input.req).getD
      (writeOrHold s s.input.req.part (.fabric s.input.req) (fun u => fabricServed u s.input.req)))) :=
    .next (.getD (fun _ e => .mergeIncoming hs e) (.writeOrHold hs .fabricServed))
  split
  · exact .next hs
  · split
    · exact .next (.fabricServed hs)
    · exact written
    · exact written

/-! ### The front end's rings and nodes -/

protected theorem MemOk.modCmd {vf r : Nat} {g : CmdRing → CmdRing} (hs : MemOk s) : MemOk (State.modCmd s vf r g) := hs

protected theorem MemOk.admitSlot {vf r slot : Nat} {again : Bool} (hs : MemOk s) : MemOk (admitSlot s vf r slot again) := hs

protected theorem MemOk.admitRing {n vf r : Nat} (hs : MemOk s) : MemOk (admitRing n s vf r) := by
  induction n generalizing s with
  | zero => exact hs
  | succ n ih => exact .ite (ih (.modCmd (.admitSlot hs))) hs

protected theorem MemOk.admitSlots {vf r : Nat} (hs : MemOk s) : MemOk (admitSlots s vf r) := .admitRing hs

protected theorem MemOk.decrement {vf r slot : Nat} (hs : MemOk s) : MemOk (decrement s vf r slot) := by
  unfold decrement
  dsimp only
  split
  · exact .ite hs (.ite hs hs)
  · exact hs

protected theorem MemOk.readmit {vf r slot : Nat} (hs : MemOk s) (e : readmit s vf r slot = some t) : MemOk t := by
  unfold readmit at e
  dsimp only at e
  split at e
  · cases e
  · cases e
    exact .admitSlot hs

protected theorem MemOk.postNode {n : Node} (hs : MemOk s) (e : postNode s n = some t) : MemOk t := by
  unfold postNode at e
  split at e
  · split at e
    · cases e
      exact hs
    · split at e
      · cases e
      · exact .postEntry hs e
  · cases e
    exact hs

protected theorem MemOk.retireNode {n : Node} (hs : MemOk s) : MemOk (retireNode s n) := by
  unfold retireNode
  dsimp only
  split
  · exact .admitSlots hs
  · exact hs

protected theorem MemOk.finishNode {key : Nat} (hs : MemOk s) : MemOk (finishNode s key) := by
  unfold finishNode
  split
  · exact hs
  · split
    next s e => exact .retireNode (.postNode hs e)
    · exact hs

protected theorem MemOk.closeNode {key : Nat} (hs : MemOk s) : MemOk (closeNode s key) := .finishNode hs

protected theorem MemOk.supervisorFault {p : Nat} {k : Packet} (hs : MemOk s) : MemOk (supervisorFault s p k) := by
  unfold supervisorFault
  dsimp only
  split
  next s e =>
    split at e
    · cases e
    · exact .modPart (.postEntry hs e)
  · exact hs

protected theorem MemOk.supervisorRetry {vf : Nat} (hs : MemOk s) : MemOk (supervisorRetry s vf) := by
  unfold supervisorRetry
  dsimp only
  refine .ite ?_ ?_
  · split
    · exact .supervisorFault hs
    · exact hs
  · exact hs

protected theorem MemOk.postHeld {vf : Nat} (hs : MemOk s) : MemOk (postHeld s vf) :=
  .supervisorRetry (.foldl hs fun _ _ hs => .finishNode hs)

protected theorem MemOk.resumeVf {vf : Nat} (hs : MemOk s) : MemOk (resumeVf s vf) :=
  .foldl (.foldl (.drainEntries hs) fun _ _ hs => .postHeld hs) fun _ _ hs => .admitSlots hs

protected theorem MemOk.retireUnbound {key status sub : Nat} (hs : MemOk s) : MemOk (retireUnbound s key status sub) := by
  unfold retireUnbound
  dsimp only
  split
  · exact hs
  · refine .closeNode ?_
    refine .modNode ?_
    split
    · split
      · exact .traceNode hs
      · exact .nodeNotice (.traceNode hs)
    · exact .traceNode hs

protected theorem MemOk.abortRing {vf r : Nat} (hs : MemOk s) : MemOk (abortRing s vf r) :=
  .foldl hs fun _ _ hs => .retireUnbound hs

protected theorem MemOk.crctlWrite {vf r v : Nat} (hs : MemOk s) : MemOk (crctlWrite s vf r v) :=
  .ite hs (.ite (.abortRing hs) hs)

protected theorem MemOk.crtailWrite {vf r v : Nat} (hs : MemOk s) : MemOk (crtailWrite s vf r v) := .admitSlots (.ite hs hs)

protected theorem MemOk.cpctlWrite {vf v : Nat} (hs : MemOk s) : MemOk (cpctlWrite s vf v) := by
  unfold cpctlWrite
  dsimp only
  exact .resumeVf (.modVf hs)

protected theorem MemOk.cpheadWrite {vf v : Nat} (hs : MemOk s) : MemOk (cpheadWrite s vf v) := .resumeVf hs

protected theorem MemOk.tkctlWrite {vf t v : Nat} (hs : MemOk s) : MemOk (tkctlWrite s vf t v) := .drainTokens hs

protected theorem MemOk.tkheadWrite {vf t v : Nat} (hs : MemOk s) : MemOk (tkheadWrite s vf t v) := .drainTokens hs

protected theorem MemOk.vfRegWrite {vf off : Nat} {w : DWord} (hs : MemOk s) : MemOk (vfRegWrite s vf off w) := by
  unfold vfRegWrite
  dsimp only
  refine .ite ?_ ?_
  · split
    · exact hs
    · exact .crctlWrite hs
    · exact .crtailWrite hs
    · exact hs
  · refine .ite ?_ ?_
    · exact hs
    · refine .ite ?_ ?_
      · exact .cpctlWrite hs
      · refine .ite ?_ ?_
        · exact .cpheadWrite hs
        · refine .ite ?_ ?_
          · split
            · exact hs
            · exact .tkctlWrite hs
            · exact .tkheadWrite hs
            · exact hs
          · exact .ite hs hs

protected theorem MemOk.vfWrite {vf off : Nat} {v : DWord} (hs : MemOk s) : MemOk (vfWrite s vf off v) := by
  unfold vfWrite
  dsimp only
  refine .ite ?_ ?_
  · exact hs
  · split
    · exact .vfRegWrite hs
    · exact .vfRegWrite (.wakeRequest hs)
    · exact .holdWriteFor hs
    · exact .holdWriteFor hs
    · exact hs

protected theorem MemOk.msixWrite {vf off : Nat} {v : DWord} (hs : MemOk s) : MemOk (msixWrite s vf off v) := .ite hs hs

protected theorem ResultOk.execFaultPacketDeliver (hs : MemOk s) : ResultOk (execFaultPacketDeliver s) := by
  unfold execFaultPacketDeliver
  dsimp only
  split
  · exact .next (.deliverReport hs)
  · split
    · exact .next (.supervisorFault hs)
    · split
      · exact .next (.forwardFault hs)
      · exact .next hs

protected theorem ResultOk.execFlrVf (hs : MemOk s) : ResultOk (execFlrVf s) :=
  .next (.supervisorRetry (.foldl hs fun _ _ hs => .retireNode hs))

/-! ### Binding -/

protected theorem MemOk.edgeBump {p e i : Nat} (hs : MemOk s) : MemOk (edgeBump s p e i) := .counterAdd hs

protected theorem MemOk.edgesBind {p : Nat} {r : NodeRec} (hs : MemOk s) : MemOk (edgesBind s p r) :=
  .foldl (.foldl hs fun _ _ hs => .edgeBump hs) fun _ _ hs => .edgeBump hs

protected theorem MemOk.edgesDone {p : Nat} {r : NodeRec} (hs : MemOk s) : MemOk (edgesDone s p r) :=
  .foldl (.foldl hs fun _ _ hs => .edgeBump hs) fun _ _ hs => .edgeBump hs

protected theorem MemOk.restick {p : Nat} (hs : MemOk s) : MemOk (restick s p) := hs

protected theorem MemOk.oweSelect (hs : MemOk s) : MemOk (State.oweSelect s) := hs

protected theorem MemOk.endNode {key status sub : Nat} {release : Bool} (hs : MemOk s) :
    MemOk (endNode s key status sub release) :=
  hs

protected theorem MemOk.growDeficit {p level : Nat} (hs : MemOk s) : MemOk (growDeficit s p level) := hs

protected theorem MemOk.emptyLevel {p level : Nat} (hs : MemOk s) : MemOk (emptyLevel s p level) := hs

protected theorem MemOk.appear {p level : Nat} (hs : MemOk s) : MemOk (appear s p level) := .ite hs (.ite hs hs)

protected theorem MemOk.recordRefused {n : Node} {off : Nat} (hs : MemOk s) : MemOk (recordRefused s n off) := by
  unfold recordRefused
  split <;> exact hs

protected theorem MemOk.readyNode {key : Nat} (hs : MemOk s) : MemOk (readyNode s key) := by
  unfold readyNode
  dsimp only
  split
  · exact hs
  · split
    · exact .oweSelect (.endNode (.traceNode hs))
    · exact .restick (.appear (.traceNode hs))

protected theorem MemOk.bindRest {n : Node} (hs : MemOk s) : MemOk (bindRest s n) := by
  unfold bindRest
  split
  · exact hs
  · split
    · exact hs
    · exact hs
    · exact .readyNode hs

protected theorem MemOk.bindNode {n : Node} (hs : MemOk s) : MemOk (bindNode s n) := by
  unfold bindNode
  dsimp only
  split
  · exact .recordRefused (.modNode (.edgesBind hs))
  · exact .bindRest (.modNode (.edgesBind hs))

protected theorem ResultOk.execNodeBind (hs : MemOk s) : ResultOk (execNodeBind s) := by
  unfold execNodeBind
  split
  · exact .next hs
  · exact .ite (.next hs) (.ite (.next (.retireUnbound hs)) (.next (.bindNode hs)))

/-! ### Gangs -/

protected theorem MemOk.seatGang {n : Node} {cores : List Nat} (hs : MemOk s) : MemOk (seatGang s n cores) :=
  .foldl hs fun _ _ hs => hs

protected theorem MemOk.runNode {key : Nat} {cores : List Nat} (hs : MemOk s) : MemOk (runNode s key cores) := hs

protected theorem MemOk.launchImage {n : Node} {cores : List Nat} (hs : MemOk s) : MemOk (launchImage s n cores) := by
  unfold launchImage
  dsimp only
  split
  · exact hs
  · split
    · exact hs
    · exact .runNode (.foldl (.seatGang hs) fun _ _ hs => hs)

protected theorem MemOk.restoreGang {n : Node} {cores : List Nat} {imgs : List CoreImage} {steps : List StepSave} (hs : MemOk s) :
    MemOk (restoreGang s n cores imgs steps) := by
  unfold restoreGang
  extract_lets seated restored stepped
  have hi : MemOk restored := .foldl (.runNode (.seatGang hs)) fun _ _ hs => .restoreImage hs
  have ht : MemOk stepped := .foldl hi fun _ _ hs => .restoreStep hs
  exact .foldl ht fun _ _ hs => .refill hs

protected theorem MemOk.launchResume {n : Node} {cores : List Nat} (hs : MemOk s) : MemOk (launchResume s n cores) := by
  unfold launchResume
  split
  · exact hs
  · exact .restoreGang hs

protected theorem MemOk.launchGang {n : Node} {cores : List Nat} (hs : MemOk s) : MemOk (launchGang s n cores) :=
  .ite (.restoreGang hs) (.ite (.launchResume hs) (.launchImage hs))

protected theorem MemOk.retestNode {n : Node} (hs : MemOk s) : MemOk (retestNode s n) := by
  unfold retestNode
  split <;> exact hs

protected theorem MemOk.retestPlaces {p : Nat} (hs : MemOk s) :
    MemOk (retestPlaces s p) :=
  .foldl hs fun _ _ hs => .retestNode hs

protected theorem MemOk.leftCores {n : Node} (hs : MemOk s) : MemOk (leftCores s n) := hs

protected theorem MemOk.freeCores {key part : Nat} {cores : List Nat} (hs : MemOk s) : MemOk (freeCores s key part cores) :=
  .restick (.ite (.retestPlaces (.foldl hs fun _ _ hs => hs)) (.foldl hs fun _ _ hs => hs))

protected theorem MemOk.drainCore {n core : Nat} (hs : MemOk s) : MemOk (drainCore n s core) := by
  induction n generalizing s with
  | zero => exact hs
  | succ n ih =>
    unfold drainCore
    split
    · exact ih (.performAccess hs)
    · exact hs

protected theorem MemOk.clearCore {core : Nat} (hs : MemOk s) : MemOk (clearCore s core) :=
  .dropColls <| .modCore <|
    .foldl (.foldl (.drainCore hs) fun _ _ hs => .niUnits hs) fun _ _ hs => .withdrawWaits (.dropEntries hs)

protected theorem MemOk.clearGang {n : Node} (hs : MemOk s) : MemOk (clearGang s n) :=
  .oweSelect (.freeCores (.foldl hs fun _ _ hs => .clearCore hs))

/-! ### Copy and base die nodes -/

protected theorem MemOk.jobDone {n : Node} {f : Option Flt} (hs : MemOk s) : MemOk (jobDone s n f) := by
  unfold jobDone
  dsimp only
  refine .oweSelect ?_
  refine .endNode ?_
  refine .modNode ?_
  split <;> exact hs

protected theorem MemOk.copyNodeUnit {n : Node} {j : Job} {k : Nat} (hs : MemOk s) : MemOk (copyNodeUnit s n j k) := by
  unfold copyNodeUnit
  dsimp only
  split
  · exact .modNode (.copyUnitBy hs)
  · exact .jobDone (.copyUnitBy hs)
  · exact .jobDone (.copyUnitBy hs)

protected theorem MemOk.modStack {k : Nat} {f : BaseDie → BaseDie} (hs : MemOk s) : MemOk (State.modStack s k f) := hs

protected theorem MemOk.bdIdle {h : List Byte} {idle : Bool} (hs : MemOk s) : MemOk (bdIdle s h idle) :=
  .foldl hs fun _ _ hs => hs

protected theorem MemOk.bdEnd {n : Node} {k : Nat} {f : Option Flt} (hs : MemOk s) : MemOk (bdEnd s n k f) :=
  .jobDone (.bdIdle (.ite hs hs))

protected theorem MemOk.baseDieUnit {n : Node} {k : Nat} (hs : MemOk s) : MemOk (baseDieUnit s n k) := by
  unfold baseDieUnit
  dsimp only
  split
  · exact .bdEnd hs
  · split
    · exact .bdEnd hs
    · exact .ite (.bdEnd (.modStack (.writeRange hs))) (.modNode (.modStack (.writeRange hs)))

protected theorem MemOk.nodeUnit {n : Node} {k : Nat} (hs : MemOk s) : MemOk (nodeUnit s n k) := by
  unfold nodeUnit
  refine .ite ?_ ?_
  · exact hs
  · split
    · exact .copyNodeUnit hs
    · split
      · exact .baseDieUnit hs
      · exact hs
    · exact hs

protected theorem MemOk.startJob {n : Node} (hs : MemOk s) : MemOk (startJob s n) :=
  .ite (.ite (.jobDone hs) hs) (.ite (.jobDone hs) (.bdIdle hs))

/-! ### Selection and completion of nodes -/

protected theorem MemOk.rearm {vf r : Nat} {l : List Nat} (hs : MemOk s) : MemOk (rearm vf r s l).1 := by
  induction l generalizing s with
  | nil => exact hs
  | cons k l ih =>
    unfold rearm
    split
    next s e => exact ih (.readmit hs e)
    · exact ih hs

protected theorem MemOk.rearmList {n : Node} {vf r va narm : Nat} (hs : MemOk s) : MemOk (rearmList s n vf r va narm).1 := by
  unfold rearmList
  split
  · exact .rearm hs
  · exact hs

protected theorem MemOk.condTaken {n : Node} {vf r va narm : Nat} (hs : MemOk s) : MemOk (condTaken s n vf r va narm) := by
  unfold condTaken
  extract_lets traced done grown
  have hd : MemOk done := .oweSelect (.modNode (.traceNode (.edgesDone hs)))
  have hg : MemOk grown := .ite (.growDeficit hd) hd
  exact .closeNode (.modNode (.rearmList hg))

protected theorem MemOk.dispatchCond {n : Node} (hs : MemOk s) : MemOk (dispatchCond s n) := by
  unfold dispatchCond
  dsimp only
  split
  · exact hs
  · refine .ite ?_ ?_
    · exact hs
    · split
      · exact .condTaken hs
      · exact hs

protected theorem MemOk.pinNode {n : Node} (hs : MemOk s) : MemOk (pinNode s n) := by
  unfold pinNode
  dsimp only
  split
  · exact hs
  · split <;> exact hs

protected theorem MemOk.dispatch {n : Node} (hs : MemOk s) : MemOk (dispatch s n) := by
  unfold dispatch
  dsimp only
  split
  · refine .ite ?_ ?_
    · exact .oweSelect (.endNode (.modNode (.pinNode (.traceNode hs))))
    · split
      · exact .launchGang (.pinNode (.traceNode hs))
      · exact .pinNode (.traceNode hs)
  · exact .startJob (.pinNode (.traceNode hs))
  · exact .startJob (.pinNode (.traceNode hs))
  · exact .dispatchCond (.pinNode (.traceNode hs))
  · exact .endNode (.pinNode (.traceNode hs))

protected theorem MemOk.serveNode {n : Node} (hs : MemOk s) : MemOk (serveNode s n) :=
  .restick (.ite (.emptyLevel (.dispatch hs)) (.dispatch hs))

protected theorem MemOk.serveOrClaim {n : Node} (hs : MemOk s) : MemOk (serveOrClaim s n) := by
  unfold serveOrClaim
  split
  · exact .ite hs (.serveNode hs)
  · exact .serveNode hs

protected theorem MemOk.selectOver {l : List (Nat × Nat)} (hs : MemOk s) : MemOk (selectOver l s) := by
  induction l generalizing s with
  | nil => exact hs
  | cons x r ih =>
    unfold selectOver
    refine .ite (ih (.emptyLevel hs)) ?_
    dsimp only
    split
    · exact .serveOrClaim (.ite hs (.growDeficit hs))
    · exact ih (.ite hs (.growDeficit hs))

protected theorem MemOk.dispatchClaim {c : Claim} (hs : MemOk s) : MemOk (dispatchClaim s c) := by
  unfold dispatchClaim
  dsimp only
  split
  · exact hs
  · exact .ite (.serveNode hs) hs

protected theorem ResultOk.execNodeSelect (hs : MemOk s) : ResultOk (execNodeSelect s) := by
  unfold execNodeSelect
  split
  · exact .next (.dispatchClaim hs)
  · exact .next (.ite hs (.selectOver hs))

protected theorem MemOk.releaseSuccessors {n : Node} (hs : MemOk s) : MemOk (releaseSuccessors s n) := by
  unfold releaseSuccessors
  dsimp only
  split
  · exact hs
  · refine .ite ?_ ?_
    · exact .foldl hs fun _ _ hs => .decrement hs
    · split
      · exact .foldl (.foldl hs fun _ _ hs => .decrement hs) fun _ _ hs => .decrement hs
      · exact .nodeNotice (.foldl hs fun _ _ hs => .decrement hs)

protected theorem MemOk.writeStatus {n : Node} {va : Nat} (hs : MemOk s) : MemOk (writeStatus s n va) := by
  unfold writeStatus
  refine .ite ?_ ?_
  · exact hs
  · split
    next s e => exact .vwrite hs e
    · exact hs

protected theorem MemOk.countLaunch {n : Node} {va : Nat} (hs : MemOk s) : MemOk (countLaunch s n va) := by
  unfold countLaunch
  split
  · exact .counterAdd hs
  · exact hs

protected theorem MemOk.completeNode {n : Node} (hs : MemOk s) : MemOk (completeNode s n) := by
  unfold completeNode
  extract_lets traced passed freed grown
  have ht : MemOk traced := .oweSelect (.traceNode hs)
  have hp : MemOk passed := .ite (.edgesDone ht) ht
  have hf : MemOk freed := .ite hp (.releaseSuccessors hp)
  have hg : MemOk grown := .ite (.growDeficit hf) hf
  split
  · exact .closeNode hg
  · exact .retireNode (.modNode (.countLaunch (.writeStatus hg)))

protected theorem MemOk.completeDone {n : Node} (hs : MemOk s) : MemOk (completeDone s n) := .ite (.completeNode hs) hs

protected theorem ResultOk.execNodeComplete (hs : MemOk s) : ResultOk (execNodeComplete s) := by
  unfold execNodeComplete
  dsimp only
  split
  · exact .next hs
  · refine .ite ?_ ?_
    · exact .next (.ite (.finishNode hs) (.completeDone hs))
    · refine .ite ?_ ?_
      · refine .next ?_
        split
        · exact .ite (.completeNode (.leftCores (.endNode (.freeCores hs)))) <|
            .oweSelect (.leftCores (.endNode (.freeCores hs)))
        · exact .leftCores (.endNode (.freeCores hs))
      · exact .next hs

protected theorem ResultOk.execLevelPromotion (hs : MemOk s) : ResultOk (execLevelPromotion s) := by
  unfold execLevelPromotion
  dsimp only
  split
  · exact .next hs
  · exact .ite (.next hs) (.next (.appear hs))

/-! ### Frames and rails -/

/-- What stands in the lines and pages that are given up is lost. -/
protected theorem MemOk.scrub {sel : Nat → Bool} (hs : MemOk s) : MemOk (scrub s sel) :=
  Memory.wf_filter _ _ hs

protected theorem MemOk.settleRails (hs : MemOk s) : MemOk (settleRails s) := .foldl hs fun _ _ hs => hs

/-! ### The collector -/

protected theorem MemOk.allocate {l : List Node} (hs : MemOk s) : MemOk (allocate s l).1 := by
  induction l generalizing s with
  | nil => exact hs
  | cons v r ih =>
    unfold allocate
    dsimp only
    split
    · exact ih hs
    · exact hs

protected theorem MemOk.chooseVictims {n : Node} {fuel : Nat} {out : List Nat} (hs : MemOk s) :
    MemOk (chooseVictims s n fuel out).1 := by
  induction fuel generalizing out with
  | zero => exact hs
  | succ fuel ih =>
    unfold chooseVictims
    dsimp only
    split
    next t e => exact (MemOk.allocate hs).fst_of_eq e
    · exact ih

protected theorem MemOk.victims {n : Node} (hs : MemOk s) : MemOk (victims s n).1 := .chooseVictims hs

protected theorem MemOk.stopVictims {vs : List Node} (hs : MemOk s) : MemOk (stopVictims s vs) :=
  .foldl hs fun _ _ hs => .foldl hs fun _ _ hs => hs

protected theorem MemOk.enterCollector {n : Node} {vs : List Node} (hs : MemOk s) : MemOk (enterCollector s n vs) := by
  unfold enterCollector
  split
  · exact .ite hs hs
  · exact hs

protected theorem MemOk.takeVictims {n : Node} (hs : MemOk s) : MemOk (takeVictims s n) := by
  unfold takeVictims
  split
  next u vs e =>
    have hu : MemOk u := (MemOk.victims hs).fst_of_eq e
    split
    · refine .ite ?_ ?_
      · split
        · exact hs
        · exact .stopVictims (.setClaims hu)
      · split
        · exact .ite hs hs
        · exact hs
    · split
      · exact hs
      · exact .ite hs (.ite (.enterCollector hs) (.stopVictims hu))

protected theorem ResultOk.execPreemptChoice (hs : MemOk s) : ResultOk (execPreemptChoice s) := by
  unfold execPreemptChoice
  dsimp only
  split
  · exact .next hs
  · exact .ite (.next hs) (.next (.takeVictims hs))

protected theorem MemOk.abandon {n : Node} (hs : MemOk s) : MemOk (abandon s n) :=
  .modNode (.foldl hs fun _ _ hs => .ite (.resumeCore hs) hs)

protected theorem MemOk.stopForCollector {core : Nat} {n : Node} (hs : MemOk s) : MemOk (stopForCollector s core n) :=
  .modNode (.stopCore (.traceTiming hs))

protected theorem MemOk.saveForCollector {core : Nat} {n : Node} (hs : MemOk s) : MemOk (saveForCollector s core n) := by
  unfold saveForCollector
  dsimp only
  refine .modCore ?_
  split
  · exact .storeImage hs
  · exact hs

protected theorem ResultOk.execCollectorStop (hs : MemOk s) : ResultOk (execCollectorStop s) := by
  unfold execCollectorStop
  dsimp only
  split
  · exact .next hs
  · exact .ite (.next hs) <| .ite (.next (.abandon hs)) <| .ite (.next (.ite (.stopForCollector hs) (.abandon hs))) <|
      .ite (.next (.ite hs hs)) <| .ite (.next hs) <| .next (.saveForCollector hs)

protected theorem MemOk.suspendNode {n : Node} (hs : MemOk s) : MemOk (suspendNode s n) :=
  .oweSelect (.appear (.freeCores (.foldl hs fun _ _ hs => hs)))

protected theorem ResultOk.execNodeSuspend (hs : MemOk s) : ResultOk (execNodeSuspend s) := by
  unfold execNodeSuspend
  split
  · exact .next hs
  · exact .ite (.next (.suspendNode hs)) (.next hs)

/-! ### The event PERFORM -/

protected theorem MemOk.performJob {core id : Nat} (hs : MemOk s) (e : performJob s core id = some t) : MemOk t := by
  unfold performJob at e
  obtain ⟨g, -, e⟩ := List.exists_of_findSome?_eq_some e
  split at e
  · split at e
    · cases e
      exact .engineUnit hs
    · cases e
  · cases e

protected theorem MemOk.performThread {core id : Nat} (hs : MemOk s) (e : performThread s core id = some t) : MemOk t := by
  unfold performThread at e
  split at e
  · split at e
    · cases e
      exact .niUnit hs
    · cases e
  · cases e

protected theorem MemOk.performNode {key : Nat} (hs : MemOk s) (e : performNode s key = some t) : MemOk t := by
  obtain ⟨n, -, rfl⟩ := Option.map_eq_some_iff.1 e
  exact .nodeUnit hs

protected theorem MemOk.mergeMove {core : Nat} {e : Access} (hs : MemOk s) : MemOk (mergeMove s core e) := by
  unfold mergeMove
  split
  · exact .ite (.mergeRequests hs) hs
  · exact hs

protected theorem ResultOk.execPerform (hs : MemOk s) : ResultOk (execPerform s) := by
  unfold execPerform
  dsimp only
  split
  · exact .next (.ite (.mergeMove hs) (.performAccess hs))
  · refine .next (.getD (fun t e => ?_) hs)
    rw [Option.or_assoc, Option.or_eq_some_iff, Option.or_eq_some_iff] at e
    obtain e | ⟨-, e | ⟨-, e⟩⟩ := e
    · exact .performJob hs e
    · exact .performThread hs e
    · exact .performNode hs e

/-! ### Firmware requests -/

protected theorem MemOk.refuse {status : Nat} (hs : MemOk s) : MemOk (refuse s status).state := hs

protected theorem MemOk.granted (hs : MemOk s) : MemOk (granted s).state := hs

/-- An answer to a request keeps the form where the state that it was served in has it. -/
protected theorem MemOk.answer {b : MailBox} {r : Reply} (hr : MemOk r.state) : MemOk (answer s b r) := by
  unfold answer State.setMailbox
  split <;> exact hr

/-- A request that is served keeps the form where its reply does. -/
protected theorem ResultOk.serve {code : Nat} {f : List Byte → Reply} (hs : MemOk s) (k : ∀ bs, MemOk (f bs).state) :
    ResultOk (serve s code f) := by
  unfold serve
  split
  · exact .next (.answer (k _))
  · exact .next hs

protected theorem MemOk.grantChannels {p mask : Nat} (hs : MemOk s) : MemOk (grantChannels s p mask) :=
  .foldl hs fun _ _ hs => .ite hs hs

protected theorem MemOk.partCreate {bs : List Byte} (hs : MemOk s) : MemOk (partCreate s bs).state :=
  .iteOf Reply.state hs <| .iteOf Reply.state hs <| .iteOf Reply.state hs <|
    .settleRails (.setPartsSupMail (.grantChannels (.ite hs hs)))

protected theorem MemOk.installPage {p : Nat} {g : Page} (hs : MemOk s) : MemOk (installPage s p g) := .ite (.scrub hs) hs

protected theorem MemOk.mapPage {bs : List Byte} (hs : MemOk s) : MemOk (mapPage s bs).state := by
  unfold mapPage
  dsimp only
  split
  · exact .installPage hs
  · exact hs

protected theorem ResultOk.execMapPage (hs : MemOk s) : ResultOk (execMapPage s) := by
  unfold execMapPage
  split
  · exact .next (.answer (.mapPage hs))
  · exact .next hs

protected theorem ResultOk.execUnmapPage (hs : MemOk s) : ResultOk (execUnmapPage s) := by
  unfold execUnmapPage
  dsimp only
  split
  · exact .next hs
  · refine .ite ?_ ?_
    · exact .next (.answer hs)
    · refine .ite ?_ ?_
      · exact .next (.answer hs)
      · refine .ite ?_ ?_
        · exact .next (.answer hs)
        · split
          · exact .next (.answer hs)
          · exact .next hs

protected theorem MemOk.dropWaits {p : Nat} {g : Page} (hs : MemOk s) : MemOk (dropWaits s p g) := by
  unfold dropWaits
  refine .foldl hs fun _ _ hs => ?_
  refine .foldl hs fun _ _ hs => ?_
  split
  · exact .ite hs hs
  · exact hs

protected theorem ResultOk.execUnmapDone (hs : MemOk s) : ResultOk (execUnmapDone s) := by
  unfold execUnmapDone
  dsimp only
  split
  · exact .next hs
  · refine .ite ?_ ?_
    · exact .next hs
    · refine .next ?_
      split
      · exact .answer (.dropWaits hs)
      · exact .dropWaits hs

protected theorem MemOk.dropNodes {p : Nat} (hs : MemOk s) : MemOk (dropNodes s p) :=
  .setNodesVfs (.foldl hs fun _ _ hs => .ite (.clearGang hs) (.ite (.oweSelect (.bdIdle hs)) hs))

protected theorem MemOk.endGrants {p : Nat} (hs : MemOk s) : MemOk (endGrants s p) :=
  .foldl hs fun _ _ hs => .ite (.modChan (.cancelIf hs)) hs

protected theorem MemOk.partDestroy {bs : List Byte} (hs : MemOk s) : MemOk (partDestroy s bs).state :=
  .iteOf Reply.state hs <| .iteOf Reply.state hs <|
    .granted <| .settleRails <| .breakAbsent <| .setParts <|
      .foldl (.scrub (.setDiesPathsUnmapsSupMailHeld (.endGrants (.dropNodes hs)))) fun _ _ hs => hs

protected theorem MemOk.installGroup {p : Nat} {h : List Byte} {es : List (List Byte)} (hs : MemOk s) :
    MemOk (installGroup s p h es).state :=
  .iteOf Reply.state hs (.iteOf Reply.state hs (.iteOf Reply.state hs (.iteOf Reply.state hs (.iteOf Reply.state hs hs))))

protected theorem MemOk.groupSet {bs : List Byte} (hs : MemOk s) : MemOk (groupSet s bs).state := by
  unfold groupSet
  dsimp only
  refine .iteOf Reply.state ?_ ?_
  · exact hs
  · refine .iteOf Reply.state ?_ ?_
    · exact hs
    · split
      · exact .refuse (.peekRange hs)
      · refine .iteOf Reply.state ?_ ?_
        · exact .refuse (.peekRange hs)
        · split
          · exact .refuse (.peekRange (.peekRange hs))
          · exact .installGroup (.peekRange (.peekRange hs))

protected theorem MemOk.attest {bs : List Byte} (hs : MemOk s) : MemOk (attest s bs).state :=
  .iteOf Reply.state hs (.iteOf Reply.state hs hs)

protected theorem MemOk.keyImport {bs : List Byte} (hs : MemOk s) : MemOk (keyImport s bs).state := by
  unfold keyImport
  dsimp only
  refine .iteOf Reply.state ?_ ?_
  · exact hs
  · refine .iteOf Reply.state ?_ ?_
    · exact hs
    · split
      · exact hs
      · exact hs
      · split
        · exact .refuse (.peekRange hs)
        · split
          · exact .refuse (.peekRange hs)
          · split
            next s e => exact .granted (.vwrite (.peekRange hs) e)
            · exact .refuse (.peekRange hs)

protected theorem MemOk.traceSet {bs : List Byte} (hs : MemOk s) : MemOk (traceSet s bs).state :=
  .iteOf Reply.state hs (.iteOf Reply.state hs hs)

protected theorem MemOk.inspect {bs : List Byte} (hs : MemOk s) : MemOk (inspect s bs).state := by
  unfold inspect
  dsimp only
  refine .iteOf Reply.state ?_ ?_
  · exact hs
  · refine .iteOf Reply.state ?_ ?_
    · exact hs
    · refine .iteOf Reply.state ?_ ?_
      · exact hs
      · split
        · exact hs
        · exact .iteOf Reply.state hs (.ite (.peekRange hs) hs)

/-! ### Memory errors and frame retirement -/

protected theorem MemOk.markLasting {f : Nat} (hs : MemOk s) : MemOk (markLasting s f) := hs

protected theorem MemOk.lastingCore {i : Nat} (hs : MemOk s) : MemOk (lastingCore s i) := by
  unfold lastingCore
  dsimp only
  split
  · exact .ite (.restick (.retestPlaces hs)) hs
  · exact hs

protected theorem MemOk.coreFault {i : Nat} (hs : MemOk s) : MemOk (coreFault s i) := by
  unfold coreFault
  split
  · exact .abandon (.takeSlotFault hs)
  · exact .ite hs (.takeSlotFault hs)

protected theorem MemOk.coreError {i : Nat} (hs : MemOk s) : MemOk (coreError s i) := by
  unfold coreError
  dsimp only
  split
  · exact .takeSlotFault (.modCore (.lastingCore hs))
  · exact .coreFault (.lastingCore hs)

protected theorem MemOk.countError {key : Nat} (hs : MemOk s) : MemOk (countError s key).1 := hs

protected theorem MemOk.victimError {pa : Nat} (hs : MemOk s) : MemOk (victimError s pa) := by
  unfold victimError
  dsimp only
  refine .ite ?_ ?_
  · refine .markLasting ?_
    refine .countError ?_
    split <;> exact hs
  · refine .countError ?_
    split <;> exact hs

protected theorem ResultOk.execUncorrectableError (hs : MemOk s) : ResultOk (execUncorrectableError s) := by
  unfold execUncorrectableError
  dsimp only
  split
  · exact .next (.ite (.coreError hs) hs)
  · exact .next (.ite (.ite (.victimError hs) hs) hs)
  · exact .next (.ite hs hs)

protected theorem MemOk.lastingSite {a : ErrSite} (hs : MemOk s) : MemOk (lastingSite s a) := by
  unfold lastingSite
  split
  · exact .lastingCore hs
  · exact hs
  · exact hs

/-- A frame's bytes are written at the frame that takes their page (R287). -/
protected theorem MemOk.copyFrame {old new : Page} (hs : MemOk s) : MemOk (copyFrame s old new) :=
  Memory.wf_foldl_write _ _ (MemOk.scrub hs)

protected theorem MemOk.retireNotice {p : Nat} {g : Page} {sub : Nat} (hs : MemOk s) : MemOk (retireNotice s p g sub) := hs

protected theorem MemOk.retireStart {p : Nat} {found : Bool} (hs : MemOk s) : MemOk (retireStart s p found) := by
  unfold retireStart
  split
  · exact hs
  · exact .ite hs (.ite hs hs)

protected theorem MemOk.retireFinish {u : Unmapping} {found : Bool} {frame : Nat} (hs : MemOk s) :
    MemOk (retireFinish s u found frame) :=
  .ite hs <| .ite (.retireNotice (.modPart (.dropWaits hs))) <| .ite hs <|
    .retireNotice (.modPart (.copyFrame (.peekRange (.dropWaits hs))))

protected theorem ResultOk.execFrameRetire (hs : MemOk s) : ResultOk (execFrameRetire s) := by
  unfold execFrameRetire
  dsimp only
  split
  · exact .next (.retireFinish hs)
  · exact .next (.retireStart hs)

/-! ### Energy and dormancy -/

protected theorem MemOk.throttleTrace {p code : Nat} (hs : MemOk s) : MemOk (throttleTrace s p code) := .trace hs

protected theorem MemOk.throttleTest {p : Nat} (hs : MemOk s) : MemOk (throttleTest s p) :=
  .ite (.ite hs (.throttleTrace hs)) (.ite hs hs)

protected theorem ResultOk.execEnergyUpdate (hs : MemOk s) : ResultOk (execEnergyUpdate s) := by
  unfold execEnergyUpdate
  dsimp only
  refine .ite ?_ ?_
  · exact .next hs
  · refine .next ?_
    refine .oweSelect ?_
    refine .throttleTest ?_
    refine .modPart ?_
    refine .foldl hs fun _ _ hs => ?_
    split
    · exact .ite hs hs
    · exact hs

protected theorem MemOk.startCollapse {p : Nat} {onIdle : Bool} (hs : MemOk s) : MemOk (startCollapse s p onIdle) := by
  unfold startCollapse
  split <;> exact hs

protected theorem MemOk.writeBack {p : Nat} (hs : MemOk s) : MemOk (writeBack s p) :=
  .foldl (.foldl hs fun _ _ hs => .foldl hs fun _ _ hs => .dropLine (.flushLine hs)) fun _ _ hs => .applyThrough hs

protected theorem MemOk.saveCore {p i : Nat} (hs : MemOk s) : MemOk (saveCore p s i) := by
  unfold saveCore
  dsimp only
  refine .modPart ?_
  split
  · exact .storeImage (.modCore (.stopCore hs))
  · exact .modCore (.stopCore hs)

protected theorem MemOk.saveIrqs {p : Nat} (hs : MemOk s) : MemOk (saveIrqs s p) := hs

protected theorem ResultOk.execCollapseComplete (hs : MemOk s) : ResultOk (execCollapseComplete s) :=
  .ite (.next hs) (.next (.settleRails (.modPart (.foldl (.saveIrqs (.writeBack hs)) fun _ _ hs => .saveCore hs))))

protected theorem MemOk.requestDone {core key : Nat} {r : FabReq} {answer : Except Flt (List Byte)} (hs : MemOk s) :
    MemOk (requestDone s core key r answer) := by
  unfold requestDone
  split
  · split
    · exact .atomicAnswer hs
    · exact .atomicRefused hs
  · split <;> exact hs

protected theorem MemOk.performHeld {w : HeldWrite} (hs : MemOk s) : MemOk (performHeld s w) := by
  cases w with
  | vfReg vf off v => exact .vfRegWrite hs
  | fabric r => exact .fabricServed hs
  | request core key r =>
    unfold performHeld
    dsimp only
    split
    next e => exact .requestDone (.fabricServe hs e)
    · exact .requestDone hs
  | commit op k =>
    unfold performHeld
    dsimp only
    split
    · split
      · exact .memberWrote (.writeMember hs)
      · exact hs
    · exact hs
  | member part core ctx va shared bs => exact .writeMember hs
  | window core off v => exact .windowWrite hs
  | wakeOnly => exact hs

protected theorem ResultOk.execWakeWrite (hs : MemOk s) : ResultOk (execWakeWrite s) :=
  .ite (.next hs) (.ite (.next (.wakeRequest hs)) (.next (.writeOrHold hs .performHeld)))

protected theorem MemOk.logBoot {step result detail clock : Nat} {data : List Byte} (hs : MemOk s) :
    MemOk (logBoot s step result detail clock data) :=
  .ite hs hs

protected theorem MemOk.dropHeld {h : Nat × HeldWrite} (hs : MemOk s) : MemOk (dropHeld s h) := by
  unfold dropHeld
  split
  · exact .memberWrote hs
  · exact hs

protected theorem MemOk.loseDie {d : Nat} (hs : MemOk s) : MemOk (loseDie s d) :=
  .logBoot (.setBootHeld (.breakAbsent (.foldl (.foldl hs fun _ _ hs => hs) fun _ _ hs => .dropHeld hs)))

protected theorem MemOk.wakeCore {e : Nat × Core} (hs : MemOk s) : MemOk (wakeCore s e) := .resendWaits hs

protected theorem MemOk.wakeDone {p : Nat} (hs : MemOk s) : MemOk (wakeDone s p) :=
  .foldl (.setHeld (.settleRails (.modPart (.setAwakePcs (.foldl hs fun _ _ hs => .wakeCore hs))))) fun _ _ hs => .performHeld hs

protected theorem ResultOk.execWakeComplete (hs : MemOk s) : ResultOk (execWakeComplete s) := by
  unfold execWakeComplete
  dsimp only
  refine .ite ?_ ?_
  · exact .next hs
  · split
    · exact .next (.wakeDone hs)
    · exact .next (.foldl hs fun _ _ hs => .loseDie hs)

protected theorem ResultOk.execPeekRead (hs : MemOk s) : ResultOk (execPeekRead s) := by
  unfold execPeekRead
  split
  · exact .next (.ite hs hs)
  · exact .next hs

protected theorem ResultOk.execPeekIdle (hs : MemOk s) : ResultOk (execPeekIdle s) := by
  unfold execPeekIdle
  dsimp only
  split
  · split
    · exact .next (.ite hs hs)
    · exact .next hs
  · exact .next hs

/-! ### Fabric ports -/

protected theorem MemOk.modPort {p : Nat} {f : Port → Port} (hs : MemOk s) : MemOk (State.modPort s p f) := hs

/-! ### Boot and recovery -/

protected theorem MemOk.logSlot {step : Nat} {img : List Byte} (hs : MemOk s) : MemOk (logSlot s step img) := .logBoot hs

protected theorem MemOk.lockLimits (hs : MemOk s) : MemOk (lockLimits s) := .ite (.logBoot (.foldl hs fun _ _ hs => hs)) hs

protected theorem MemOk.releaseFirmware {slot : Nat} {img : List Byte} {trained : BitVec 12} (hs : MemOk s) :
    MemOk (releaseFirmware s slot img trained) :=
  .lockLimits (.setFreshBoot (.foldl (.foldl (.logBoot hs) fun _ _ hs => .logBoot hs) fun _ _ hs => .ite (.logBoot hs) hs))

protected theorem MemOk.bootRom {trained : BitVec 12} (hs : MemOk s) : MemOk (bootRom s trained) :=
  .ite (.releaseFirmware (.logSlot hs)) <| .ite (.releaseFirmware (.logSlot (.logSlot hs))) <|
    .setBoot (.logBoot (.logSlot (.logSlot hs)))

/-- A reset keeps the host's memory alone (R20). -/
protected theorem MemOk.afterReset (hs : MemOk s) : MemOk (afterReset s) :=
  Memory.wf_filter _ _ hs

protected theorem MemOk.dieResolved {d reason : Nat} (hs : MemOk s) : MemOk (dieResolved s d reason) :=
  .lockLimits (.setBoot (.logBoot (.ite hs hs)))

protected theorem MemOk.modBoot {f : BootState → BootState} (hs : MemOk s) : MemOk (State.modBoot s f) := hs

protected theorem MemOk.recoveryDo {f : BootState → BootState} (hs : MemOk s) : MemOk (recoveryDo s f) := .ite hs hs

protected theorem MemOk.rebootRecovery (hs : MemOk s) : MemOk (rebootRecovery s) := .ite (.bootRom (.afterReset hs)) hs

protected theorem MemOk.recoveryWrite {off : Nat} {v : DWord} (hs : MemOk s) : MemOk (recoveryWrite s off v) := by
  unfold recoveryWrite
  refine .ite ?_ ?_
  · split
    · exact .recoveryDo hs
    · exact .recoveryDo hs
    · exact .recoveryDo hs
    · exact .rebootRecovery hs
    · exact hs
  · exact .recoveryDo hs

protected theorem MemOk.modCarrier {f : Carrier → Carrier} (hs : MemOk s) : MemOk (State.modCarrier s f) := hs

protected theorem MemOk.flowTest (hs : MemOk s) : MemOk (flowTest s) := .ite hs hs

protected theorem MemOk.pkgstatWrite {v : DWord} (hs : MemOk s) : MemOk (pkgstatWrite s v) := .flowTest hs

/-! ### The host's registers and resets -/

protected theorem MemOk.clearFrozen {i : Nat} (hs : MemOk s) : MemOk (clearFrozen s i) := .ite (.clearCore hs) hs

protected theorem MemOk.flrPart {p : Nat} (hs : MemOk s) : MemOk (flrPart s p) :=
  .setVfs (.foldl (.modPart (.dropNodes hs)) fun _ _ hs => .clearFrozen hs)

protected theorem MemOk.flrBegin (hs : MemOk s) : MemOk (flrBegin s) :=
  .foldl (.setNodesVfsFlr (.foldl (.foldl hs fun _ _ hs => hs) fun _ _ hs => .bdIdle hs)) fun _ _ hs => .ite hs (.stopCore hs)

protected theorem ResultOk.execFlrPf (hs : MemOk s) : ResultOk (execFlrPf s) :=
  .next (.ite (.setFlr (.foldl (.ite hs (.flrBegin hs)) fun _ _ hs => .flrPart hs)) (.ite hs (.flrBegin hs)))

protected theorem MemOk.dormancyWrite {p off : Nat} {v : DWord} (hs : MemOk s) : MemOk (dormancyWrite s p off v) := by
  unfold dormancyWrite
  refine .ite ?_ ?_
  · exact hs
  · split
    · exact hs
    · exact .ite (.ite (.startCollapse hs) hs) (.ite (.wakeRequest hs) hs)
    · exact hs
    · exact hs

protected theorem MemOk.pfWrite {off : Nat} {v : DWord} (hs : MemOk s) : MemOk (pfWrite s off v) :=
  .ite hs (.ite (.pkgstatWrite hs) (.ite (.setMailbox hs) (.ite (.dormancyWrite hs) hs)))

protected theorem ResultOk.execRegisterWrite (hs : MemOk s) : ResultOk (execRegisterWrite s) := by
  unfold execRegisterWrite
  dsimp only
  refine .ite ?_ ?_
  · exact .next hs
  · split
    · exact .next (.pfWrite hs)
    · exact .next (.vfWrite hs)
    · exact .next (.ite (.msixWrite hs) hs)
    · exact .next (.recoveryWrite hs)

/-! ### Branches, links and masks -/

protected theorem ResultOk.branchIf {len : Nat} {c : Bool} {off : ℤ} (hs : MemOk s) : ResultOk (branchIf s len c off) :=
  .ite (.jumpTo hs) (.retire hs)

protected theorem ResultOk.linkTo {rd : Reg} {t : ℤ} (hs : MemOk s) : ResultOk (linkTo s rd t) := .ite (.raise hs) (.jumpTo hs)

protected theorem ResultOk.setMask {md : BitVec 3} {v : DWord} (hs : MemOk s) : ResultOk (setMask s md v) := .retire hs

/-! ### Issue -/

protected theorem MemOk.streamDone {core : Nat} {e : FollowEntry} (hs : MemOk s) : MemOk (streamDone s core e) :=
  .ite (.endFollow hs) hs

protected theorem MemOk.afterIssue {core k : Nat} {lead : Bool} {head : Option FollowEntry} {pc : DWord} {i : Instr}
    {w : BitVec 32} (hs : MemOk s) :
    MemOk (afterIssue s core k lead head pc i w) := by
  unfold afterIssue
  refine .ite ?_ ?_
  · exact hs
  · split
    · exact .streamDone hs
    · exact .ite (.pushFollow hs) hs

protected theorem MemOk.issuing {core k : Nat} {w : BitVec 32} (hs : MemOk s) : MemOk (issuing s core k w) := hs

protected theorem MemOk.issueIllegal {core k pc : Nat} {e : DecErr} (hs : MemOk s) : MemOk (issueIllegal s core k pc e) := by
  unfold issueIllegal
  exact .takeFaultAt (.issuing hs)

protected theorem MemOk.noteIssue {core k : Nat} (hs : MemOk s) : MemOk (noteIssue s core k) := hs

/-! ### Time and the host's stores -/

protected theorem MemOk.passTime {n : Nat} (hs : MemOk s) : MemOk (passTime s n) :=
  .setClock (.foldl hs fun _ _ hs => .crossbarCycles hs)

protected theorem MemOk.passCycles {n : Nat} (hs : MemOk s) : MemOk (passCycles s n) := .ite hs (.passTime hs)

protected theorem MemOk.hostStore {bus : Nat} {bs : List Byte} (hs : MemOk s) : MemOk (hostStore s bus bs) :=
  .ite (.hostWrite hs) hs

/-- An instruction that is a vector command keeps the memory's form. -/
theorem ResultOk.exec_of_vectorCmd {i : Instr} (hs : MemOk s) (e : exec i s = vectorCmd s i) : ResultOk (exec i s) := by
  rw [e]
  exact .vectorCmd hs

theorem ResultOk.exec (i : Instr) (hs : MemOk s) : ResultOk (exec i s) := by
  cases i with
  | add | sub | and | or | xor | sll | srl | sra | slt | sltu | mul | mulh | mulhN | div | divN | rem | remN | min | max
    | minN | maxN | addi | andi | ori | xori | slli | srli | srai | slti | sltiu | lui | mpop | mfirst | mget | addiCS0
    | addiC | addCS0 | addC | subC | andC | orC | xorC | slliC | andiC =>
    exact .retireReg hs
  | jalr | jal => exact .linkTo hs
  | beq | bne | blt | bge | bltu | bgeu | beqC | bneC => exact .branchIf hs
  | j | jC | jrC => exact .jumpTo hs
  | ld | ldIndexed | xld | ldDC => exact .loadAt hs
  | st | stIndexed | stDC => exact .storeAt hs
  | ldRingSlot => exact .execLdRingSlot hs
  | stRingSlot => exact .execStRingSlot hs
  | ldv | stv | ldvPair | stvPair => exact .issuePieces hs
  | ldt | stt => exact .tileAccess hs
  | get | put => exact .getPut hs
  | ratomAdd | ratomAnd | ratomOr | ratomXor | ratomMin | ratomMax | ratomMinN | ratomMaxN | ratomSwap | ratomFadd =>
    exact .ratomAt hs
  | amoAdd | amoAnd | amoOr | amoXor | amoMin | amoMax | amoMinN | amoMaxN | amoSwap | amoCas | amoFadd => exact .amoAt hs
  | rwb | rinv => exact .linesAt hs
  | mldred | mcst => exact .collective hs
  | cadd | caddRel => exact .addCounter hs
  | cwait => exact .execCwait hs
  | cwaitAcq => exact .execCwaitAcq hs
  | cread => exact .execCread hs
  | barrRlx => exact .execBarrRlx hs
  | barrRel => exact .execBarrRel hs
  | bwait => exact .execBwait hs
  | bmiss => exact .execBmiss hs
  | sstep => exact .execSstep hs
  | binit => exact .execBinit hs
  | fenceAcq | fenceRel | fenceAr | fenceSc => exact .fence hs
  | twany => exact .execTwany hs
  | twall => exact .ite (.retire (.joinTags hs)) (.sleepIn hs)
  | tffr => exact .execTffr hs
  | rinit => exact .execRinit hs
  | rwf | rwe => exact .ringWait hs
  | radvp | radvc => exact .advance hs
  | recv => exact .execRecv hs
  | send => exact .execSend hs
  | vaddFloat | vsubFloat | vmulFloat | vfma | vfnma | vminFloat | vmaxFloat | vabs | vneg | vdiv | vsqrt | vaddInt |
    vsubInt | vmulInt | vmulh | vminInt | vmaxInt | vand | vor | vxor | vsll | vsrl | vsra | vadds | vsubs | vcmpeq |
    vcmpne | vcmplt | vcmple | vmov | vsel | vperm | vbcast | vins | vext | vcvt | vredadd | vredmin | vredmax | vamax |
    vscc | vquant | vfacm =>
    exact .exec_of_vectorCmd hs rfl
  | mand | mor | mxor | mnot | mset => exact .setMask hs
  | mm | mmg | mmQ | aczero | acld | acst | scaccVector | scaccXreg => exact .matrixCmd hs
  | cpy | cpy2 | cpyg | cpys => exact .copyCmd hs
  | cpyl => exact .execCpyl hs
  | cpyr => exact .execCpyr hs
  | evterm => exact .ite (.raise hs) (.retire hs)
  | evarm => exact .execEvarm hs
  | evclr => exact .ite (.retireReg hs) (.ite (.retireReg hs) (.retireReg hs))
  | launch => exact .execLaunch hs
  | launchRel => exact .execLaunchRel hs
  | hsig => exact .execHsig hs
  | propen => exact .execPropen hs
  | predeem => exact .execPredeem hs
  | pquery =>
    unfold Machine.exec
    exact .execPquery hs
  | pretract => exact .execPretract hs
  | ctarmRaw | ctarmAmax | ctarmMin => exact .armEntry hs
  | ctresW => exact .execCtresW hs
  | ctresId => exact .execCtresId hs
  | ctcancel => exact .execCtcancel hs
  | start => exact .execStart hs
  | hjoin => exact .execHjoin hs
  | halt => exact .next (.haltCtx (.retireAt hs))
  | yield => exact .execYield hs
  | follow => exact .execFollow hs
  | unfollow => exact .execUnfollow hs
  | mfsr => exact .execMfsr hs
  | mtsr => exact .execMtsr hs
  | trap => exact .ite (.sleepIn hs) (.retire (.coreNotice hs))
  | brk => exact .raise hs
  | wfe => exact .execWfe hs
  | nop | xset => exact .retire hs
  | perstReset => exact .next (.bootRom (.afterReset hs))
  | dieAuthentication | dieAuthTimeout => exact .next (.ite (.dieResolved hs) hs)
  | rvClearImage | rvAppend | rvVerifyWrite => exact .next (.recoveryDo hs)
  | rvReset => exact .next (.rebootRecovery hs)
  | flowFaultAssert | coalesceTimerExpiry | armWindowOpen | armWindowClose | hardPowerCap | thermalAlert | pwrgoodChange
    =>
    exact .next hs
  | flowFaultDeassert => exact .next (.flowTest hs)
  | flitReceive | flitReplay | portRetrain | portRetrainEnd | portBringUp => exact .next (.ite hs hs)
  | portDown => exact .ite (.next hs) (.ite (.next hs) (.next hs))
  | mldredRoot => exact .execMldredRoot hs
  | memberRead => exact .execMemberRead hs
  | memberTimeout => exact .execMemberTimeout hs
  | mcstStage => exact .execMcstStage hs
  | mcstCommit => exact .execMcstCommit hs
  | memberCommitWrite => exact .execMemberCommitWrite hs
  | killNotice => exact .ite (.ite (.next hs) (.next hs)) (.next hs)
  | flrPf => exact .execFlrPf hs
  | flrVf => exact .execFlrVf hs
  | cmdRingEnable | cmdRingDisable | crtailDoorbell | completionRingEnable | tokenRingEnable | cpheadWrite | tkheadWrite
    | icctlWrite =>
    exact .next (.vfWrite hs)
  | msixUnmask => exact .ite (.next hs) (.next hs)
  | offloadEntryDone => exact .execOffloadEntryDone hs
  | replayEntryDone => exact .execReplayEntryDone hs
  | fwMailboxMessage => exact .ite (.next hs) (.ite (.next hs) (.next (.ite hs hs)))
  | partCreate => exact .serve hs fun _ => .partCreate hs
  | partDestroy => exact .serve hs fun _ => .partDestroy hs
  | groupSet => exact .serve hs fun _ => .groupSet hs
  | attest => exact .serve hs fun _ => .attest hs
  | keyImport => exact .serve hs fun _ => .keyImport hs
  | traceSet => exact .serve hs fun _ => .traceSet hs
  | inspect => exact .serve hs fun _ => .inspect hs
  | mapPage => exact .execMapPage hs
  | unmapPage => exact .execUnmapPage hs
  | unmapDone => exact .execUnmapDone hs
  | energyUpdate => exact .execEnergyUpdate hs
  | throttleEnd => exact .ite (.next (.throttleTrace hs)) (.next hs)
  | dmCollapse | dwellExpiry => exact .next (.ite (.startCollapse hs) hs)
  | dmWake => exact .next (.wakeRequest hs)
  | collapseComplete => exact .execCollapseComplete hs
  | dmtimerExpiry => exact .next (.ite (.wakeRequest hs) hs)
  | wakeWrite => exact .execWakeWrite hs
  | wakeComplete => exact .execWakeComplete hs
  | peekRead => exact .execPeekRead hs
  | peekIdle => exact .execPeekIdle hs
  | entryRegister => exact .execEntryRegister hs
  | roundEnd => exact .next (.endRound hs)
  | channelFail => exact .execChannelFail hs
  | nodeBind => exact .execNodeBind hs
  | nodeSelect => exact .execNodeSelect hs
  | nodeComplete => exact .execNodeComplete hs
  | levelPromotion => exact .execLevelPromotion hs
  | preemptChoice => exact .execPreemptChoice hs
  | collectorStop => exact .execCollectorStop hs
  | nodeSuspend => exact .execNodeSuspend hs
  | yieldExpiry => exact .execYieldExpiry hs
  | wfeTimeout => exact .execWfeTimeout hs
  | followTimeout => exact .execFollowTimeout hs
  | messageDeliver => exact .execMessageDeliver hs
  | engineJobEnd => exact .execEngineJobEnd hs
  | niThreadEnd => exact .execNiThreadEnd hs
  | reconcileJobEnd => exact .execReconcileJobEnd hs
  | cwaitRequest => exact .execCwaitRequest hs
  | uncorrectableError => exact .execUncorrectableError hs
  | correctableError => exact .ite (.next hs) (.next (.ite (.lastingSite hs) hs))
  | frameRetire => exact .execFrameRetire hs
  | fabricRequest => exact .execFabricRequest hs
  | perform => exact .execPerform hs
  | engineStart => exact .execEngineStart hs
  | holdSend => exact .execHoldSend hs
  | apply => exact .execApply hs
  | evict => exact .execEvict hs
  | dwctlFreeze | dwctlResume | dwctlStep | dwctlStopeng | dwctlHaltc => exact .dwctlEvent hs
  | stepEnd => exact .ite (.next (.postFault (.freezeCore hs))) (.next hs)
  | breakpointStop => exact .next (.ite (.breakAt hs) hs)
  | debugWindowWrite => exact .ite (.next hs) (.next (.windowStore hs))
  | faultPacketDeliver => exact .execFaultPacketDeliver hs
  | noticeDeliver => exact .execNoticeDeliver hs
  | registerWrite => exact .execRegisterWrite hs

theorem ResultOk.fault (f : Fault) : ResultOk (.fault f) := by
  intro t e
  cases e

theorem ResultOk.refused (r : Refusal) : ResultOk (.refused r) := by
  intro t e
  cases e

theorem ResultOk.tryInstr {core k : Nat} {head : Option FollowEntry} {pc : DWord} {i : Instr} {w : BitVec 32} {r : Result}
    (hs : MemOk s) (e : tryInstr s core k head pc i w = some r) : ResultOk r := by
  unfold Machine.tryInstr at e
  dsimp only at e
  split at e
  · cases e
  · split at e
    · cases e
      exact .next (.sleepAt hs)
    · cases e
      split
      next t e => exact .next (.afterIssue (ResultOk.exec i (.issuing hs) t e))
      · exact .fault _
      · exact .refused _

theorem ResultOk.tryIssue {core k : Nat} {r : Result} (hs : MemOk s) (e : tryIssue s core k = some r) : ResultOk r := by
  unfold Machine.tryIssue at e
  dsimp only at e
  split at e
  · cases e
  · split at e
    · cases e
      exact .fault _
    · split at e
      · cases e
        exact .next (.breakAt hs)
      · split at e
        · exact .tryInstr hs e
        · split at e
          · cases e
            exact .next (.issueIllegal hs)
          · exact .tryInstr hs e

theorem ResultOk.issue (core k : Nat) (hs : MemOk s) : ResultOk (issue s core k) := by
  unfold Machine.issue
  split
  · exact .next hs
  next t e =>
    have ht : MemOk t := ResultOk.tryIssue hs e t rfl
    exact .ite (.next ht) (.ite (.next (.noteIssue ht)) (.next hs))
  next e => exact .ite (.tryIssue hs e) (.next hs)

theorem ResultOk.doEvent (i : Instr) (hs : MemOk s) : ResultOk (doEvent s i) := by
  unfold Machine.doEvent
  split
  next t e => exact .next (.ite hs (ResultOk.exec i hs t e))
  · exact .exec i hs

theorem ResultOk.doMove (m : Move) (hs : MemOk s) : ResultOk (doMove s m) := by
  cases m with
  | issue core k => exact .issue core k hs
  | event i inp => exact .ite (.doEvent i hs) (.next hs)
  | tick n => exact .next (.passCycles hs)
  | hostWrite bus bs => exact .next (.hostStore hs)
  | remoteArrive g m => exact .next (.remoteArrival hs)
  | route pkg ports => exact .next hs
  | traceLoad p busy => exact .next hs

theorem ResultOk.step (hs : MemOk s) : ResultOk (step s) := by
  unfold Machine.step
  split
  · exact .doMove _ hs
  · exact .doMove _ hs

end

/-- Settles O60: a step is an issue, an event, a lapse of time or a store from outside, and each
keeps the memory's canonical form. -/
theorem memoryStaysCanonical : Obligations.MemoryStaysCanonical :=
  fun _ t hs e => ResultOk.step hs t e

end Sys2Proof.Machine

namespace Sys2Proof.Machine
/-! # Package reset, authentication of the dies, recovery, and the carrier (R20, R21, R75 to R78)

Boot and authentication write records in the boot log, exclude dies and set port limits; `Logged` says that this is all, with one
rule per function. What the boot ROM decides besides is said once, in `bootRom_logged`, and what ends an authentication in
`dieResolved_present` and `dieResolved_excludes`. -/

section

variable {s t : State} {ds : Vector Die 4}

theorem next_congr (h : s = t) : (.next s : Result) = .next t := congrArg _ h

/-! ### The boot log and the limits -/

/-- `t` is `s` but for the boot log, the ports, and the dies, which are now `ds`. -/
def Logged (ds : Vector Die 4) (s t : State) : Prop :=
  ∃ ports log lost, t = { s with
    dies := ds
    ports := ports
    boot := { s.boot with
      log := log
      recLost := lost } }

theorem Logged.refl (s : State) : Logged s.dies s s := ⟨s.ports, s.boot.log, s.boot.recLost, rfl⟩

protected theorem Logged.foldl {α : Type} {f : State → α → State} {l : List α} (h : Logged ds s t)
    (hf : ∀ u a, Logged ds s u → Logged ds s (f u a)) : Logged ds s (l.foldl f t) :=
  List.foldlRecOn (motive := Logged ds s) l f h fun u hu a _ => hf u a hu

/-- As `Logged.foldl`, where a step may change the dies. -/
theorem Logged.foldl_dies {α : Type} {f : State → α → State} {l : List α} (h : Logged ds s t)
    (hf : ∀ es u a, Logged es s u → ∃ es, Logged es s (f u a)) : ∃ es, Logged es s (l.foldl f t) :=
  List.foldlRecOn (motive := fun u => ∃ es, Logged es s u) l f ⟨ds, h⟩ fun u ⟨es, hu⟩ a _ => hf es u a hu

theorem Logged.setLog {log : List BootRec} {lost : BitVec 32} (h : Logged ds s t) :
    Logged ds s { t with boot := { t.boot with
      log := log
      recLost := lost } } := by
  obtain ⟨ports, _, _, rfl⟩ := h
  exact ⟨ports, log, lost, rfl⟩

protected theorem Logged.logBoot {step result detail clock : Nat} {data : List Byte} (h : Logged ds s t) :
    Logged ds s (logBoot t step result detail clock data) := by
  unfold Machine.logBoot
  dsimp only
  split
  · exact h.setLog
  · exact h.setLog

protected theorem Logged.logSlot {step : Nat} {img : List Byte} (h : Logged ds s t) : Logged ds s (logSlot t step img) :=
  h.logBoot

protected theorem Logged.modPort {p : Nat} {f : Port → Port} (h : Logged ds s t) : Logged ds s (t.modPort p f) := by
  obtain ⟨_, _, _, rfl⟩ := h
  exact ⟨_, _, _, rfl⟩

protected theorem Logged.modDie {d : Nat} {f : Die → Die} (h : Logged ds s t) :
    Logged (t.modDie d f).dies s (t.modDie d f) := by
  obtain ⟨_, _, _, rfl⟩ := h
  exact ⟨_, _, _, rfl⟩

protected theorem Logged.lockLimits (h : Logged ds s t) : Logged ds s (lockLimits t) := by
  unfold Machine.lockLimits
  split
  · exact (h.foldl fun _ _ hu => hu.modPort).logBoot
  · exact h

/-! ### The boot ROM (R75) -/

/-- The slot that the boot ROM runs: A, else B, else none. -/
def bootSlot (b : BootState) : Option (BitVec 1) :=
  if imageStatus b.slotA = 0 then some 0 else if imageStatus b.slotB = 0 then some 1 else none

theorem bootSlot_of_slotA {b : BootState} (ha : imageStatus b.slotA = 0) : bootSlot b = some 0 := if_pos ha

theorem bootSlot_of_slotB {b : BootState} (ha : imageStatus b.slotA ≠ 0) (hb : imageStatus b.slotB = 0) :
    bootSlot b = some 1 :=
  (if_neg ha).trans (if_pos hb)

theorem bootSlot_of_neither {b : BootState} (ha : imageStatus b.slotA ≠ 0) (hb : imageStatus b.slotB ≠ 0) :
    bootSlot b = none :=
  (if_neg ha).trans (if_neg hb)

theorem bootSlot_isNone_iff {b : BootState} :
    (bootSlot b).isNone = true ↔ imageStatus b.slotA ≠ 0 ∧ imageStatus b.slotB ≠ 0 := by
  by_cases ha : imageStatus b.slotA = 0
  · simp [bootSlot_of_slotA ha, ha]
  · by_cases hb : imageStatus b.slotB = 0
    · simp [bootSlot_of_slotB ha hb, hb]
    · simp [bootSlot_of_neither ha hb, ha, hb]

/-- `s` with a slot chosen to run, or recovery where there is none, and with the dies that wait for their authentication. -/
def booted (s : State) (slot : Option (BitVec 1)) (fresh nonceAt : Nat) (authWait : List Nat) : State :=
  { s with
    fresh := fresh
    boot := { s.boot with
      running := slot.or s.boot.running
      recovery := slot.isNone || s.boot.recovery
      nonceAt := nonceAt
      authWait := authWait } }

theorem Logged.booted {slot : Option (BitVec 1)} {fresh nonceAt : Nat} {authWait : List Nat} (h : Logged ds s t) :
    Logged ds (booted s slot fresh nonceAt authWait) (booted t slot fresh nonceAt authWait) := by
  obtain ⟨_, _, _, rfl⟩ := h
  exact ⟨_, _, _, rfl⟩

theorem Logged.lockLimits_booted {slot : Option (BitVec 1)} {fresh nonceAt : Nat} {authWait : List Nat}
    (h : ∃ es, Logged es s t) :
    ∃ es f n w, Logged es (Machine.booted s slot f n w) (lockLimits (Machine.booted t slot fresh nonceAt authWait)) := by
  obtain ⟨es, h⟩ := h
  exact ⟨es, fresh, nonceAt, authWait, h.booted.lockLimits⟩

/-- The firmware's release from a slot writes the log, and excludes the dies whose stacks did not train (R78). -/
protected theorem Logged.releaseFirmware {slot : Nat} {img : List Byte} {trained : BitVec 12} (h : Logged ds s t) :
    ∃ es fresh nonceAt authWait, Logged es (Machine.booted s (some (BitVec.ofNat 1 slot)) fresh nonceAt authWait)
      (releaseFirmware t slot img trained) := by
  refine lockLimits_booted (foldl_dies (h.logBoot.foldl fun _ _ hu => hu.logBoot) fun es u d hu => ?_)
  split
  · exact ⟨_, hu.modDie.logBoot⟩
  · exact ⟨es, hu⟩

/-- The boot ROM changes nothing but the log and the limits, the dies it excludes, and what it chooses. -/
theorem bootRom_logged (s : State) (trained : BitVec 12) :
    ∃ es fresh nonceAt authWait, Logged es (booted s (bootSlot s.boot) fresh nonceAt authWait) (bootRom s trained) := by
  have checkedA := (Logged.refl s).logSlot (step := 1) (img := s.boot.slotA)
  have checkedB := checkedA.logSlot (step := 2) (img := s.boot.slotB)
  unfold bootRom
  dsimp only
  split
  next ha =>
    rw [bootSlot_of_slotA ha]
    exact checkedA.releaseFirmware
  next ha =>
    split
    next hb =>
      rw [bootSlot_of_slotB ha hb]
      exact checkedB.releaseFirmware
    next hb =>
      rw [bootSlot_of_neither ha hb]
      exact ⟨_, _, _, _, checkedB.logBoot.booted⟩

/-! ### Package reset (R20) -/

/-- A byte of the host's memory. -/
def hostByte (a : Nat) : Bool := match paKind a with | .host _ => true | _ => false

theorem hostByte_iff {a : Nat} : hostByte a = true ↔ ∃ o, paKind a = .host o := by
  unfold hostByte
  cases paKind a <;> simp

theorem Memory.read_filter (m : Bytes) (p : Nat → Bool) (a : Nat) :
    Memory.read (m.filter (fun e => p e.1)) a = if p a then Memory.read m a else 0 := by
  induction m with
  | nil => simp [Memory.read]
  | cons e r ih =>
    by_cases h : e.1 = a
    · subst h
      cases hp : p e.1 <;> simp [Memory.read, ih, hp]
    · cases hp : p e.1 <;> simp [Memory.read, ih, hp, h]

theorem afterReset_mem (s : State) : (afterReset s).mem = s.mem.filter (fun e => hostByte e.1) := rfl

theorem read_afterReset_host {a o : Nat} (h : paKind a = .host o) :
    Memory.read (afterReset s).mem a = Memory.read s.mem a := by
  rw [afterReset_mem, Memory.read_filter, if_pos (hostByte_iff.2 ⟨o, h⟩)]

theorem read_afterReset_other {a : Nat} (h : ∀ o, paKind a ≠ .host o) : Memory.read (afterReset s).mem a = 0 := by
  rw [afterReset_mem, Memory.read_filter, if_neg fun ha => (hostByte_iff.1 ha).elim h]

/-- The two images are what they were, so the boot ROM chooses as it did. -/
theorem bootSlot_afterReset (s : State) : bootSlot (afterReset s).boot = bootSlot s.boot := rfl

/-! ### Authentication of the dies (R78) -/

/-- `s` with die `d` no longer waiting. -/
def dieAnswered (s : State) (d : Nat) : State := { s with boot := { s.boot with authWait := s.boot.authWait.erase d } }

theorem Logged.dieAnswered {d : Nat} (h : Logged ds s t) : Logged ds (dieAnswered s d) (dieAnswered t d) := by
  obtain ⟨_, _, _, rfl⟩ := h
  exact ⟨_, _, _, rfl⟩

/-- Die `d` excluded for a reason of R78. -/
def excludeDie (s : State) (d reason : Nat) : State := s.modDie d (fun x => { x with excluded := BitVec.ofNat 2 reason })

theorem dieExcluded_excludeDie {d reason : Nat} (hd : d < 4) :
    (excludeDie s d reason).dieExcluded d = (BitVec.ofNat 2 reason != 0) := by
  unfold State.dieExcluded State.die excludeDie State.modDie
  rw [vget_vmod_same _ _ _ hd]

/-- A die that DX and it accept is taken out of those that wait, and all dies are as they were. -/
theorem dieResolved_present (s : State) (d : Nat) :
    (dieResolved s d 0).boot.authWait = s.boot.authWait.erase d ∧ (dieResolved s d 0).dies = s.dies := by
  obtain ⟨_, _, _, e⟩ : Logged s.dies (dieAnswered s d) (dieResolved s d 0) := (Logged.refl s).logBoot.dieAnswered.lockLimits
  rw [e]
  exact ⟨rfl, rfl⟩

theorem dieResolved_excluded (s : State) {d reason : Nat} (h : reason ≠ 0) :
    Logged (excludeDie s d reason).dies (dieAnswered s d) (dieResolved s d reason) := by
  unfold dieResolved
  rw [if_neg h]
  exact (Logged.refl s).modDie.logBoot.dieAnswered.lockLimits

/-- Authentication that ends with a reason takes the die out of those that wait, and excludes it. -/
theorem dieResolved_excludes (s : State) {d reason : Nat} (hd : d < 4) (h : BitVec.ofNat 2 reason ≠ 0) :
    (dieResolved s d reason).boot.authWait = s.boot.authWait.erase d ∧ (dieResolved s d reason).dieExcluded d = true := by
  obtain ⟨_, _, _, e⟩ := dieResolved_excluded s (d := d) (reason := reason) (by rintro rfl; exact h rfl)
  rw [e]
  refine ⟨rfl, (dieExcluded_excludeDie (s := s) hd).trans ?_⟩
  simpa using h

theorem authLimit_eq : authLimit = 33000000 := rfl

theorem answers_iff {d : Nat} :
    (s.boot.authWait.contains d && decide (s.clock < authLimit)) = true ↔ d ∈ s.boot.authWait ∧ s.clock < 33000000 := by
  rw [authLimit_eq, Bool.and_eq_true, List.contains_iff_mem, decide_eq_true_iff]

theorem timesOut_iff {d : Nat} :
    (s.boot.authWait.contains d && decide (authLimit ≤ s.clock)) = true ↔ d ∈ s.boot.authWait ∧ 33000000 ≤ s.clock := by
  rw [authLimit_eq, Bool.and_eq_true, List.contains_iff_mem, decide_eq_true_iff]

theorem exec_dieAuthentication (hw : s.input.die ∈ s.boot.authWait) (hc : s.clock < 33000000) :
    exec .dieAuthentication s =
      .next (dieResolved s s.input.die (if dieProves s s.input.die && dieAccepts s s.input.die then 0 else 1)) :=
  next_congr (if_pos (answers_iff.2 ⟨hw, hc⟩))

theorem exec_dieAuthentication_idle (h : ¬(s.input.die ∈ s.boot.authWait ∧ s.clock < 33000000)) :
    exec .dieAuthentication s = .next s :=
  next_congr (if_neg (mt answers_iff.1 h))

theorem exec_dieAuthTimeout (hw : s.input.die ∈ s.boot.authWait) (hc : 33000000 ≤ s.clock) :
    exec .dieAuthTimeout s = .next (dieResolved s s.input.die 3) :=
  next_congr (if_pos (timesOut_iff.2 ⟨hw, hc⟩))

theorem exec_dieAuthTimeout_idle (h : ¬(s.input.die ∈ s.boot.authWait ∧ 33000000 ≤ s.clock)) :
    exec .dieAuthTimeout s = .next s :=
  next_congr (if_neg (mt timesOut_iff.1 h))

/-! ### Recovery (R76, R77) -/

theorem recoveryDo_eq {f : BootState → BootState} {b : BootState} (h : s.boot.recovery = true) (e : f s.boot = b) :
    recoveryDo s f = { s with boot := b } := by
  rw [← e]
  exact if_pos h

theorem recoveryDo_of_not_recovery (h : s.boot.recovery = false) (f : BootState → BootState) : recoveryDo s f = s :=
  if_neg (ne_true_of_eq_false h)

theorem rebootRecovery_of_not_recovery (h : s.boot.recovery = false) : rebootRecovery s = s :=
  if_neg (ne_true_of_eq_false h)

theorem appendChunk_badChunk {b : BootState} (h : b.rvlen.toNat = 0 ∨ 0x80000 < b.rvlen.toNat) :
    appendChunk b = { b with rvstatus := 8 } :=
  if_pos (by simpa using h)

theorem appendChunk_fits {b : BootState} (h0 : 0 < b.rvlen.toNat) (h1 : b.rvlen.toNat ≤ 0x80000) (ht : b.tooBig = false)
    (hl : b.image.length + b.rvlen.toNat ≤ 256 + bodyMax) :
    appendChunk b = { b with
      image := b.image ++ Memory.reads b.stage 0 b.rvlen.toNat
      rvstatus := 0 } :=
  (if_neg (by simp; omega)).trans (if_neg (by simp [ht]; omega))

theorem appendChunk_tooBig {b : BootState} (h0 : 0 < b.rvlen.toNat) (h1 : b.rvlen.toNat ≤ 0x80000)
    (hl : 256 + bodyMax < b.image.length + b.rvlen.toNat) :
    appendChunk b = { b with
      tooBig := true
      rvstatus := 1 } :=
  (if_neg (by simp; omega)).trans (if_pos (by simp [hl]))

theorem verifyWrite_tooBig {b : BootState} (h : b.tooBig = true) : verifyWrite b = { b with rvstatus := 1 } :=
  if_pos h

theorem verifyWrite_refused {b : BootState} (ht : b.tooBig = false) (hi : imageStatus b.image ≠ 0) :
    verifyWrite b = { b with rvstatus := BitVec.ofNat 8 (imageStatus b.image) } := by
  unfold verifyWrite
  rw [ht]
  split
  next h => cases h
  next =>
    split
    next h => exact absurd h hi
    next => rfl

theorem verifyWrite_writes {b : BootState} (ht : b.tooBig = false) (hi : imageStatus b.image = 0) :
    verifyWrite b = if b.rvslot = 0 then { b with
      slotA := b.image
      rvstatus := 0 } else { b with
      slotB := b.image
      rvstatus := 0 } := by
  unfold verifyWrite
  rw [ht, hi]
  rfl

/-! ### The carrier (R20, R21) -/

theorem flowTest_of_signal_gone (h : s.carrier.flowSignal = false) :
    flowTest s = { s with dies := if s.carrier.flowFault then s.dies else s.dies.map (fun d => { d with lowest := false }) } := by
  unfold flowTest
  rw [h, Bool.false_or]
  split
  · rfl
  · rfl

theorem requestCap_guard {w : Nat} : (decide (0 < w) && decide (w ≤ fusedCap)) = true ↔ 0 < w ∧ w ≤ 2600 := by
  rw [show fusedCap = 2600 from rfl, Bool.and_eq_true, decide_eq_true_iff, decide_eq_true_iff]

theorem requestCap_eq (c : Carrier) (w : Nat) :
    requestCap c w = { c with cap := if 0 < w ∧ w ≤ 2600 then w else c.cap } := by
  by_cases h : 0 < w ∧ w ≤ 2600
  · rw [if_pos h]
    exact if_pos (requestCap_guard.2 h)
  · rw [if_neg h]
    exact if_neg (mt requestCap_guard.1 h)

theorem exec_hardPowerCap (s : State) : exec .hardPowerCap s = .next { s with carrier := { s.carrier with
    cap := if 0 < s.input.amount ∧ s.input.amount ≤ 2600 then s.input.amount else s.carrier.cap
    capActive := s.input.ok } } :=
  next_congr (congrArg (fun c : Carrier => { s with carrier := { c with capActive := s.input.ok } })
    (requestCap_eq s.carrier s.input.amount))

end

/-- Settles O48: a reset boots as `bootRom_logged` says from a memory of which the host's bytes are left; the end of a die's
authentication is `dieResolved`; a command of recovery acts in recovery alone; and the carrier's signals are written as they come. -/
theorem bootAndCarrier : Obligations.BootAndCarrier := by
  intro s
  refine ⟨?reset, ?notWaiting, ?early, ?late, ?waiting, ?running, ?recovery, ?assert, ?deassert, ?cap, rfl, rfl⟩
  case reset =>
    obtain ⟨ds, fresh, nonceAt, authWait, ports, log, lost, e⟩ := bootRom_logged (afterReset s) s.input.trained
    rw [bootSlot_afterReset] at e
    refine ⟨_, next_congr e, rfl, rfl, rfl, rfl, rfl, rfl, fun a o h => read_afterReset_host h,
      fun a h => read_afterReset_other h, ?none, fun ha => ?slotA, fun ha hb => ?slotB, rfl, rfl⟩
    case none =>
      show ((bootSlot s.boot).isNone || false) = true ↔ _
      rw [Bool.or_false, bootSlot_isNone_iff]
    case slotA => rw [bootSlot_of_slotA ha]; rfl
    case slotB => rw [bootSlot_of_slotB ha hb]; rfl
  case notWaiting =>
    exact fun h => ⟨exec_dieAuthentication_idle fun ⟨hw, _⟩ => h hw, exec_dieAuthTimeout_idle fun ⟨hw, _⟩ => h hw⟩
  case early => exact fun h => exec_dieAuthTimeout_idle fun ⟨_, hc⟩ => by omega
  case late => exact fun h => exec_dieAuthentication_idle fun ⟨_, hc⟩ => by omega
  case waiting =>
    intro hw hd
    refine ⟨fun hc hp ha => ⟨_, ?proves, dieResolved_present s s.input.die⟩,
      fun hc hf => ⟨_, ?fails, dieResolved_excludes s (reason := 1) hd (by decide)⟩,
      fun hc => ⟨_, exec_dieAuthTimeout hw hc, dieResolved_excludes s hd (by decide)⟩⟩
    case proves =>
      rw [exec_dieAuthentication hw hc, hp, ha]
      rfl
    case fails => rw [exec_dieAuthentication hw hc, if_neg (by simpa [imp_iff_not_or] using hf)]
  case running =>
    intro h e he
    simp only [List.mem_cons, List.not_mem_nil, or_false] at he
    rcases he with rfl | rfl | rfl | rfl
    · exact next_congr (recoveryDo_of_not_recovery h clearImage)
    · exact next_congr (recoveryDo_of_not_recovery h appendChunk)
    · exact next_congr (recoveryDo_of_not_recovery h verifyWrite)
    · exact next_congr (rebootRecovery_of_not_recovery h)
  case recovery =>
    exact fun h => ⟨next_congr (recoveryDo_eq h rfl),
      fun hn => next_congr (recoveryDo_eq h (appendChunk_badChunk hn)),
      fun h0 h1 ht hl => next_congr (recoveryDo_eq h (appendChunk_fits h0 h1 ht hl)),
      fun h0 h1 hl => next_congr (recoveryDo_eq h (appendChunk_tooBig h0 h1 hl)),
      fun ht => next_congr (recoveryDo_eq h (verifyWrite_tooBig ht)),
      fun ht hi => next_congr (recoveryDo_eq h (verifyWrite_refused ht hi)),
      fun ht hi => next_congr (recoveryDo_eq h (verifyWrite_writes ht hi)),
      next_congr (if_pos h)⟩
  case assert => exact ⟨_, rfl, rfl⟩
  case deassert => exact next_congr (flowTest_of_signal_gone rfl)
  case cap => exact exec_hardPowerCap s

end Sys2Proof.Machine

namespace Sys2Proof.Machine
/-! # Flits, replays, retrains and the loss of a port (R22 to R25, R32)

Each event of a link acts on one port behind a guard and is idle where the guard fails; the lemmas say the guard of each as a
proposition. That the loss of a port breaks groups leaves the ports alone (`breakAbsent_ports`). -/

section

variable {s : State}

theorem Port.running_iff {p : Port} : p.running = true ↔ p.present = true ∧ p.linkUp = true ∧ p.retraining = false := by
  simp [Port.running, and_assoc]

theorem exec_flitReceive (s : State) : exec .flitReceive s = .next
    (if ((s.port s.input.port).running = true ∧ flitOk s.input.flit = true) ∧
        s.input.amount = (s.port s.input.port).rxSeq.toNat
     then s.modPort s.input.port (fun p => { p with rxSeq := p.rxSeq + 1 }) else s) :=
  next_congr (if_congr (by rw [Bool.and_eq_true, Bool.and_eq_true, decide_eq_true_iff]) rfl rfl)

theorem exec_flitReplay (hr : (s.port s.input.port).running = true) (h0 : 0 < s.input.amount) (h1 : s.input.amount ≤ 512)
    (hf : (s.port s.input.port).failedReplays < 8) :
    exec .flitReplay s = .next (s.modPort s.input.port (fun p => { p with
      replays := p.replays + BitVec.ofNat 64 s.input.amount
      failedReplays := if s.input.ok then 0 else p.failedReplays + 1 })) :=
  next_congr (if_pos (by simp [hr, h0, h1, hf, replayFlits, replayTries]))

theorem exec_portRetrain (s : State) : exec .portRetrain s = .next
    (if ((s.port s.input.port).running = true ∧ 8 ≤ (s.port s.input.port).failedReplays) ∧
        (s.port s.input.port).failedRetrains < 3
     then s.modPort s.input.port (fun p => { p with
       retraining := true
       retrains := p.retrains + 1 })
     else s) :=
  next_congr (if_congr (by
    rw [Bool.and_eq_true, Bool.and_eq_true, decide_eq_true_iff, decide_eq_true_iff]
    rfl) rfl rfl)

theorem exec_portRetrainEnd (h : (s.port s.input.port).retraining = true) :
    exec .portRetrainEnd s = .next (s.modPort s.input.port (fun p => { p with
      retraining := false
      lanes := s.input.lanes
      failedReplays := if s.input.ok then 0 else p.failedReplays
      failedRetrains := if s.input.ok then 0 else p.failedRetrains + 1 })) :=
  next_congr (if_pos h)

theorem exec_portBringUp (h : (s.port s.input.port).linkUp = false) :
    exec .portBringUp s = .next (s.modPort s.input.port (fun p => { p with
      present := true
      linkUp := true
      down := false
      retraining := false
      lanes := s.input.lanes
      failedReplays := 0
      failedRetrains := 0
      rxSeq := BitVec.ofNat 12 s.input.amount })) :=
  next_congr (if_pos (by rw [h]; rfl))

/-! ### The loss of a port (R24, R32) -/

/-- The port has failed its retrains while it ran. -/
theorem portDown_due_iff {p : Port} :
    (!(p.running && decide (retrainTries ≤ p.failedRetrains))) = false ↔ p.running = true ∧ 3 ≤ p.failedRetrains := by
  rw [Bool.not_eq_false', Bool.and_eq_true, decide_eq_true_iff]
  rfl

theorem exec_portDown_idle (h : (s.port s.input.port).failedRetrains < 3) : exec .portDown s = .next s :=
  if_pos (eq_true_of_ne_false fun hd => absurd (portDown_due_iff.1 hd).2 (Nat.not_le.2 h))

/-- A port that holds an undelivered commit keeps retraining. -/
theorem exec_portDown_commit (hr : (s.port s.input.port).running = true) (hf : 3 ≤ (s.port s.input.port).failedRetrains)
    (hc : s.input.ok = false) :
    exec .portDown s = .next (s.modPort s.input.port (fun p => { p with failedRetrains := 2 })) :=
  (if_neg (ne_true_of_eq_false (portDown_due_iff.2 ⟨hr, hf⟩))).trans (if_pos (by rw [hc]; rfl))

theorem exec_portDown_down (hr : (s.port s.input.port).running = true) (hf : 3 ≤ (s.port s.input.port).failedRetrains)
    (hc : s.input.ok = true) :
    exec .portDown s = .next (breakAbsent (s.modPort s.input.port (fun p => { p with
      linkUp := false
      down := true
      lanes := 0 }))) :=
  (if_neg (ne_true_of_eq_false (portDown_due_iff.2 ⟨hr, hf⟩))).trans (if_neg (by rw [hc]; decide))

theorem breakAbsent_ports (s : State) : (breakAbsent s).ports = s.ports := rfl

end

/-- Settles O42: each event of a link acts behind its own guard, and the loss of a port breaks groups but no other port. -/
theorem links : Obligations.Links := by
  intro s
  refine ⟨?accepted, ?refused, ?replay, ?retrain, ?noRetrain, exec_portRetrainEnd, ?keeps, ?down, exec_portDown_idle,
    exec_portBringUp⟩
  case accepted =>
    exact fun hr hf ha => (exec_flitReceive s).trans (next_congr (if_pos ⟨⟨Port.running_iff.2 hr, hf⟩, ha⟩))
  case refused =>
    intro h
    rw [exec_flitReceive, if_neg]
    rintro ⟨⟨hr, hf⟩, ha⟩
    rcases h with h | h | h
    · exact absurd hf (ne_true_of_eq_false h)
    · exact h ha
    · exact h (Port.running_iff.1 hr)
  case replay => exact fun hr => exec_flitReplay (Port.running_iff.2 hr)
  case retrain =>
    exact fun hr h8 h3 => (exec_portRetrain s).trans (next_congr (if_pos ⟨⟨Port.running_iff.2 hr, h8⟩, h3⟩))
  case noRetrain =>
    intro h
    rw [exec_portRetrain, if_neg]
    exact fun ⟨⟨_, h8⟩, _⟩ => absurd h8 (Nat.not_le.2 h)
  case keeps => exact fun hr => exec_portDown_commit (Port.running_iff.2 hr)
  case down =>
    intro hi hr hf hc
    refine ⟨_, exec_portDown_down (Port.running_iff.2 hr) hf hc, ?_⟩
    rw [breakAbsent_ports]
    exact vget_vmod_same _ _ _ hi

end Sys2Proof.Machine

namespace Sys2Proof.Machine
/-! # Multi-endpoint loads and stores (R30 to R36)

The state holds an operation in `colls` and its group in `groups`. The rules for the two come first: what `coll?` reads after
`setColl`, and what breaking a group, a peek and a member's write leave of them. Then one equation per event and branch. -/

section

variable {s u : State} {o o' : CollOp} {m : Member} {g : Group} {k gid : Nat}

/-! ### Operations of the root -/

theorem coll?_eq (s : State) (k : Nat) : s.coll? k = s.colls.find? (fun x => decide (x.key = k)) := rfl

theorem coll?_key (h : s.coll? k = some o) : o.key = k := by
  rw [coll?_eq] at h
  simpa using List.find?_some h

theorem coll?_setColl (h : s.coll? k = some o) (hk : o'.key = o.key) : (s.setColl o').coll? k = some o' := by
  have key : o'.key = k := hk.trans (coll?_key h)
  have same : ((fun x : CollOp => decide (x.key = k)) ∘ fun x => if x.key = o'.key then o' else x) = fun x => decide (x.key = k) := by
    funext x
    by_cases hx : x.key = o'.key
    · simp [hx, key]
    · simp [hx]
  rw [coll?_eq, State.setColl, List.find?_map, same, ← coll?_eq, h, Option.map_some, if_pos hk.symm]

theorem coll?_endColl {st i : Nat} (h : s.coll? k = some o) :
    (endColl s o st i).coll? k = some { o with ended := some (st, i) } :=
  coll?_setColl h rfl

theorem coll?_congr (h : u.colls = s.colls) : u.coll? k = s.coll? k := by
  rw [coll?_eq, h, coll?_eq]

theorem late_iff : o.late s = true ↔ o.asked + 330000 ≤ s.clock := decide_eq_true_iff

theorem late_eq_false (h : s.clock < o.asked + 330000) : o.late s = false :=
  eq_false_of_ne_true fun hl => absurd (late_iff.1 hl) (Nat.not_le.2 h)

/-! ### Broken groups -/

theorem breakGroup_colls (s : State) (gid : Nat) : (breakGroup s gid).colls = s.colls := by
  unfold breakGroup
  split
  · rfl
  · rfl

theorem tfind_breakGroup (h : tfind s.groups gid = some g) :
    tfind (breakGroup s gid).groups gid = some { g with broken := true } := by
  unfold breakGroup
  rw [h]
  exact tfind_tput_same _ _ _

/-- An absent member ends the operation and breaks its group (R34). -/
theorem coll?_breakGroup_endColl {st i : Nat} (h : s.coll? k = some o) :
    (breakGroup (endColl s o st i) gid).coll? k = some { o with ended := some (st, i) } :=
  (coll?_congr (breakGroup_colls _ _)).trans (coll?_endColl h)

/-! ### What a peek and a write of a member leave -/

/-- A peek only notes which pseudo-channels are awake (R97). -/
theorem peekRange_eq (s : State) (part va n : Nat) : ∃ awake, peekRange s part va n = { s with awakePcs := awake } := by
  unfold peekRange
  split
  · exact ⟨s.awakePcs, rfl⟩
  · refine List.foldlRecOn (motive := fun t : State => ∃ awake, t = { s with awakePcs := awake }) _ _ ⟨s.awakePcs, rfl⟩ ?_
    rintro _ ⟨awake, rfl⟩ i -
    split
    · split
      · split
        · exact ⟨_, rfl⟩
        · exact ⟨_, rfl⟩
      · exact ⟨_, rfl⟩
    · exact ⟨_, rfl⟩

theorem writePlace_colls (s : State) (pl : Place) (bs : List Byte) : (writePlace s pl bs).colls = s.colls := by
  unfold writePlace
  split
  · rfl
  · unfold writePhys
    split
    · split
      · rfl
      · rfl
    · rfl
    · rfl
    · rfl
  · rfl
  · rfl

theorem vput_colls (s : State) (p va : Nat) (bs : List Byte) : (vput s p va bs).colls = s.colls := by
  induction bs generalizing s va with
  | nil => rfl
  | cons b r ih =>
    rw [vput, ih]
    split
    · exact writePlace_colls _ _ _
    · rfl

theorem vwrite_colls {p va : Nat} {bs : List Byte} (h : vwrite s p va bs = .ok u) : u.colls = s.colls := by
  unfold vwrite at h
  split at h
  · cases h
  · cases h
    exact vput_colls _ _ _ _

/-! ### A member's read (R30, R34) -/

theorem exec_memberRead (h : s.coll? s.input.op = some o) (hm : o.group.members[s.input.member]? = some m)
    (he : o.ended = none) (hs : o.store = false) (ha : tfind o.answers s.input.member = none) :
    exec .memberRead s = .next (ownMemberRead s o s.input.member m) := by
  show execMemberRead s = _
  simp [execMemberRead, h, hm, he, hs, ha]

theorem ownMemberRead_gone {i : Nat} (hg : memberGone s o.group m = true) :
    ownMemberRead s o i m = breakGroup (endColl s o 1 i) o.gid := if_pos hg

theorem ownMemberRead_late {i : Nat} (hg : memberGone s o.group m = false) (hl : o.asked + 330000 ≤ s.clock) :
    ownMemberRead s o i m = endColl s o 1 i :=
  (if_neg (ne_true_of_eq_false hg)).trans (if_pos (late_iff.2 hl))

theorem ownMemberRead_answers {i : Nat} {b : List Byte} (hg : memberGone s o.group m = false)
    (hl : s.clock < o.asked + 330000) (hp : m.pkg = s.pkgId.toNat) (hb : readMember s o.group m o.e0 o.n = .ok b) :
    ownMemberRead s o i m =
      (peekRange s m.part (memberVa o.group m o.e0) b.length).setColl { o with answers := tput o.answers i b } := by
  simp [ownMemberRead, hg, late_eq_false hl, hp, hb]

/-! ### Staging, the timeout, and the root's end of an operation (R30, R32, R34) -/

theorem exec_mcstStage (h : s.coll? s.input.op = some o) (hm : o.group.members[s.input.member]? = some m)
    (he : o.ended = none) (hp : m.pkg = s.pkgId.toNat) (hs : o.store = true) (hc : o.committed = false) (hd : o.sent = true)
    (hn : s.input.member ∉ o.staged) (hg : memberGone s o.group m = false) (hl : s.clock < o.asked + 330000) :
    exec .mcstStage s = .next (s.setColl { o with staged := o.staged ++ [s.input.member] }) := by
  show execMcstStage s = _
  simp [execMcstStage, h, hm, he, hp, hs, hc, hd, hn, hg, late_eq_false hl]

theorem exec_memberTimeout (h : s.coll? s.input.op = some o) (he : o.ended = none)
    (hm : s.input.member < o.group.members.length) (hc : o.committed = false) (hd : o.sent = true)
    (hl : o.asked + 330000 ≤ s.clock) (hst : o.store = true → s.input.member ∉ o.staged)
    (hld : o.store = false → tfind o.answers s.input.member = none) :
    exec .memberTimeout s = .next (endColl s o 1 s.input.member) := by
  have unanswered :
      (if o.store then o.staged.contains s.input.member else (tfind o.answers s.input.member).isSome) = false := by
    cases hs : o.store
    · simp [hld hs]
    · simpa using hst hs
  have inTime : ¬s.clock < o.asked + memberTimeout := Nat.not_lt.2 hl
  show execMemberTimeout s = _
  simp only [execMemberTimeout, h, unanswered, he, hc, hd]
  simp [hm, inTime]

theorem exec_memberTimeout_early (h : s.coll? s.input.op = some o) (hl : s.clock < o.asked + 330000) :
    exec .memberTimeout s = .next s := by
  have early : s.clock < o.asked + memberTimeout := hl
  show execMemberTimeout s = _
  simp [execMemberTimeout, h, early]

theorem all_range_iff {n : Nat} {p : Nat → Bool} : (List.range n).all p = true ↔ ∀ k, k < n → p k = true := by
  simp [List.all_eq_true]

theorem exec_mldredRoot (h : s.coll? s.input.op = some o) (he : o.ended = none) (hs : o.store = false)
    (ha : ∀ k, k < o.group.members.length → tfind o.answers k ≠ none) :
    exec .mldredRoot s = .next (s.setColl { o with
      data := reduceAll o.group o.n ((List.range o.group.members.length).map (fun k => tget o.answers k []))
      ended := some (0, 0xffff) }) := by
  have answered : (List.range o.group.members.length).all (fun k => (tfind o.answers k).isSome) = true :=
    all_range_iff.2 fun k hk => Option.isSome_iff_ne_none.2 (ha k hk)
  show execMldredRoot s = _
  simp only [execMldredRoot, h, he, hs, answered]
  rfl

theorem exec_mldredRoot_waits (h : s.coll? s.input.op = some o) (hk : k < o.group.members.length)
    (ha : tfind o.answers k = none) : exec .mldredRoot s = .next s := by
  have unanswered : (List.range o.group.members.length).all (fun k => (tfind o.answers k).isSome) = false :=
    eq_false_of_ne_true fun hall => by simpa [ha] using all_range_iff.1 hall k hk
  show execMldredRoot s = _
  simp only [execMldredRoot, h, unanswered, Bool.not_false, Bool.or_true, if_true]

theorem exec_mcstCommit (h : s.coll? s.input.op = some o) (he : o.ended = none) (hs : o.store = true)
    (hc : o.committed = false) (ha : ∀ k, k < o.group.members.length → k ∈ o.staged) :
    exec .mcstCommit s = .next (s.setColl { o with committed := true }) := by
  have staged : (List.range o.group.members.length).all (o.staged.contains ·) = true :=
    all_range_iff.2 fun k hk => List.contains_iff_mem.2 (ha k hk)
  show execMcstCommit s = _
  simp only [execMcstCommit, h, he, hs, hc, staged]
  rfl

theorem exec_mcstCommit_waits (h : s.coll? s.input.op = some o) (hk : k < o.group.members.length) (ha : k ∉ o.staged) :
    exec .mcstCommit s = .next s := by
  have unstaged : (List.range o.group.members.length).all (o.staged.contains ·) = false :=
    eq_false_of_ne_true fun hall => ha (List.contains_iff_mem.1 (all_range_iff.1 hall k hk))
  show execMcstCommit s = _
  simp only [execMcstCommit, h, unstaged, Bool.not_false, Bool.or_true, if_true]

/-! ### The write of a committed store (R32, R33) -/

theorem writeMember_ok {part core ctx va : Nat} {shared : Bool} {bs : List Byte} (hs : (s.part part).sealed = false)
    (hc : ∀ i attr pl, i < bs.length → translate s part (va + i) false true = .ok (attr, pl) → pageCounter attr = false)
    (h : vwrite s part va bs = .ok u) : writeMember s part core ctx va shared bs = u := by
  refine (if_neg (by rw [hs]; exact Bool.false_ne_true)).trans ((if_neg ?_).trans (by rw [h]))
  rw [List.any_eq_true]
  rintro ⟨i, hi, hctr⟩
  split at hctr
  next a pl ht => exact ne_true_of_eq_false (hc i a pl (List.mem_range.1 hi) ht) hctr
  next => exact Bool.false_ne_true hctr

/-- While its thread stands, the operation notes that the member has written. -/
theorem memberWrote_eq (h : s.coll? k = some o) (ht : (s.core o.core).ni.any (fun t => t.id = o.thread) = true) (i : Nat) :
    memberWrote s k i = s.setColl { o with written := o.written ++ [i] } := by
  unfold memberWrote
  rw [h]
  dsimp only
  rw [ht, Bool.not_true, Bool.and_false]
  rfl

theorem writeOrHold_active {p : Nat} {w : HeldWrite} (h : (s.part p).dmState = .active) (f : State → State) :
    writeOrHold s p w f = f s := by
  unfold writeOrHold
  rw [h]

theorem exec_memberCommitWrite (h : s.coll? s.input.op = some o) (hm : o.group.members[s.input.member]? = some m)
    (hp : m.pkg = s.pkgId.toNat) (hc : o.committed = true) (hw : s.input.member ∉ o.written)
    (hh : (m.part, HeldWrite.commit s.input.op s.input.member) ∉ s.held) (ha : (s.part m.part).dmState = .active) :
    exec .memberCommitWrite s = .next (memberWrote
      (writeMember s m.part m.core m.ctx (memberVa o.group m o.e0) (foreignGroup o.group m) o.data)
      s.input.op s.input.member) := by
  show execMemberCommitWrite s = _
  simp [execMemberCommitWrite, h, hm, hp, hc, hw, hh, ha, writeOrHold_active]

/-! ### Killed contexts (R35, R36) -/

theorem ownedBy_eq_nil_iff {pkg core ctx : Nat} :
    ownedBy g pkg core ctx = [] ↔ ∀ m ∈ g.members, ¬(m.pkg = pkg ∧ m.core = core ∧ m.ctx = ctx) := by
  unfold ownedBy
  rw [List.filter_eq_nil_iff]
  constructor
  · intro h m hm
    obtain ⟨i, hi, rfl⟩ := List.getElem_of_mem hm
    simpa [hi] using h i (List.mem_range.2 hi)
  · intro h i hi
    have hi := List.mem_range.1 hi
    simpa [hi] using h g.members[i] (List.getElem_mem hi)

theorem Group.kill_of_owner {pkg core ctx : Nat} (h : ownedBy g pkg core ctx ≠ []) :
    g.kill pkg core ctx = { g with
      broken := true
      killed := g.killed ++ ownedBy g pkg core ctx } := by
  unfold Group.kill
  split
  next e => exact absurd e h
  next => rfl

theorem Group.kill_of_stranger {pkg core ctx : Nat} (h : ownedBy g pkg core ctx = []) : g.kill pkg core ctx = g := by
  unfold Group.kill
  rw [h]

theorem Group.kill_members (g : Group) (pkg core ctx : Nat) : (g.kill pkg core ctx).members = g.members := by
  by_cases h : ownedBy g pkg core ctx = []
  · rw [Group.kill_of_stranger h]
  · rw [Group.kill_of_owner h]

theorem tfind_map {α β : Type} (f : α → β) (t : Table α) (k : Nat) :
    tfind (t.map (fun e => (e.1, f e.2))) k = (tfind t k).map f := by
  induction t with
  | nil => rfl
  | cons e r ih =>
    obtain ⟨j, a⟩ := e
    by_cases h : j = k
    · simp [tfind, h]
    · simpa [tfind, h] using ih

theorem tfind_killGroups (s : State) (pkg core ctx gid : Nat) :
    tfind (killGroups s pkg core ctx).groups gid = (tfind s.groups gid).map (Group.kill · pkg core ctx) :=
  tfind_map (Group.kill · pkg core ctx) s.groups gid

theorem exec_killNotice (h : s.input.pkg ≠ s.pkgId.toNat ∨ (s.input.core, s.input.ctx) ∈ s.kills) :
    ∃ t, exec .killNotice s = .next t ∧
      ∀ gid, tfind t.groups gid = (tfind s.groups gid).map (Group.kill · s.input.pkg s.input.core s.input.ctx) := by
  by_cases hp : s.input.pkg = s.pkgId.toNat
  · exact ⟨_, (if_pos hp).trans (if_pos (List.contains_iff_mem.2 (h.resolve_left (not_not_intro hp)))),
      tfind_killGroups _ _ _ _⟩
  · exact ⟨_, if_neg hp, tfind_killGroups _ _ _ _⟩

end

/-- Settles O41: the root's events rewrite the operation that `coll?` finds; an absent member and a killed owner break the group. -/
theorem collectives : Obligations.Collectives := by
  intro s
  refine ⟨?member, ?timeout, fun o h hl => exec_memberTimeout_early h hl, ?reduction, ?commit, ?kill⟩
  case member =>
    intro o m h hm he hp
    refine ⟨fun hs ha hg hl => ?late, fun hs ha hg hl b hb => ?answers, fun hs ha hg => ?absent,
      fun hs hc hd hn hg hl => ⟨_, exec_mcstStage h hm he hp hs hc hd hn hg hl, coll?_setColl h rfl⟩,
      fun hc ht hw hh hact hseal hctr u hu => ?writes⟩
    case late => exact (exec_memberRead h hm he hs ha).trans (next_congr (ownMemberRead_late hg hl))
    case answers =>
      obtain ⟨awake, e⟩ := peekRange_eq s m.part (memberVa o.group m o.e0) b.length
      refine ⟨_, (exec_memberRead h hm he hs ha).trans (next_congr (ownMemberRead_answers hg hl hp hb)), ?_, ?_⟩
      · rw [e]
        rfl
      · exact coll?_setColl ((coll?_congr (by rw [e])).trans h) rfl
    case absent =>
      exact ⟨_, (exec_memberRead h hm he hs ha).trans (next_congr (ownMemberRead_gone hg)), coll?_breakGroup_endColl h,
        fun g hgr => tfind_breakGroup hgr⟩
    case writes =>
      have hcoll : u.coll? s.input.op = some o := (coll?_congr (vwrite_colls hu)).trans h
      have hthread : (u.core o.core).ni.any (fun t => t.id = o.thread) = true := by
        rw [State.core, vwrite_cores _ _ _ _ _ hu]
        exact ht
      rw [exec_memberCommitWrite h hm hp hc hw hh hact, writeMember_ok hseal (fun i attr pl => hctr i attr pl) hu,
        memberWrote_eq hcoll hthread]
  case timeout =>
    exact fun o h he hm hc hd hl hst hld => ⟨_, exec_memberTimeout h he hm hc hd hl hst hld, coll?_endColl h⟩
  case reduction =>
    exact fun o h he hs => ⟨fun ha => ⟨_, exec_mldredRoot h he hs ha, coll?_setColl h rfl⟩,
      fun k hk ha => exec_mldredRoot_waits h hk ha⟩
  case commit =>
    exact fun o h he hs hc => ⟨fun ha => ⟨_, exec_mcstCommit h he hs hc ha, coll?_setColl h rfl⟩,
      fun k hk ha => exec_mcstCommit_waits h hk ha⟩
  case kill =>
    intro h
    obtain ⟨t, e, hgroups⟩ := exec_killNotice h
    refine ⟨t, e, fun gid g hg => ⟨g.kill s.input.pkg s.input.core s.input.ctx, ?found,
      Group.kill_members _ _ _ _, ?owner, ?stranger⟩⟩
    case found => rw [hgroups, hg, Option.map_some]
    case owner =>
      rintro ⟨m, hm, hk⟩
      rw [Group.kill_of_owner fun hn => ownedBy_eq_nil_iff.1 hn m hm hk]
    case stranger => exact fun hn => Group.kill_of_stranger (ownedBy_eq_nil_iff.2 hn)

end Sys2Proof.Machine

namespace Sys2Proof.Machine
/-! # Requests to the firmware (R67 to R72, R79 to R82, R86, R192, R207, R412)

First the queues, then the mailbox whose turn it is, which `serve` answers, and what an answer writes. After that the requests:
those of codes 2 to 7 refuse an absent partition by one test (`refused_of_not_served`), and one that is granted
passed every test before its work (`passes_of_granted`). What the work does to the partition or the unmaps is then read off `parts`
and `unmaps`. -/

section

variable {s : State} {b : MailBox} {bs : List Byte}

/-! ### The queues between firmware cores (R67) -/

theorem tfind_tdel_same {α : Type} (t : Table α) (k : Nat) : tfind (tdel t k) k = none := by
  induction t with
  | nil => rfl
  | cons e r ih =>
    obtain ⟨j, a⟩ := e
    by_cases h : j = k
    · simpa [tdel, h] using ih
    · simpa [tdel, tfind, h] using ih

theorem tget_tdel_same {α : Type} (t : Table α) (k : Nat) (d : α) : tget (tdel t k) k d = d := by
  rw [tget, tfind_tdel_same, Option.getD_none]

/-- A queue whose last message is taken leaves the table: it reads empty. -/
theorem tget_dropOldest {α : Type} {t : Table (List α)} {k : Nat} {q : List α} :
    tget (if q.length ≤ 1 then tdel t k else tput t k (q.drop 1)) k [] = q.drop 1 := by
  split
  next h => rw [tget_tdel_same, List.drop_eq_nil_of_le h]
  next => exact tget_tput_same _ _ _ _

theorem exec_fwMailboxMessage_send (hd : s.input.dst < 8) (ho : s.input.ok = false) :
    exec .fwMailboxMessage s = .next
      (let k := 8 * s.input.src + s.input.dst
       let q := tget s.fwQ k []
       if q.length < 16 then { s with fwQ := tput s.fwQ k (q ++ [s.input.msg]) } else s) :=
  (if_neg (Nat.not_le.2 hd)).trans (if_neg (ne_true_of_eq_false ho))

theorem exec_fwMailboxMessage_take (hd : s.input.dst < 8) (ho : s.input.ok = true) :
    ∃ t, exec .fwMailboxMessage s = .next t ∧ tget t.fwQ (8 * s.input.src + s.input.dst) [] =
      (tget s.fwQ (8 * s.input.src + s.input.dst) []).drop 1 :=
  ⟨_, (if_neg (Nat.not_le.2 hd)).trans (if_pos ho), tget_dropOldest⟩

/-! ### The turn of a mailbox (R71, R72) -/

/-- Nothing holds a busy request back while no unmap is under way, no die is still to prove itself and no write is held. -/
theorem servable_of_busy (hb : (s.mailbox b).busy = true) (hu : s.unmaps = [])
    (hc : recField (s.taken b) 0 2 = 1 → s.boot.authWait = []) (hd : recField (s.taken b) 0 2 = 2 → s.held = []) :
    servable s b = true := by
  unfold servable
  rw [hb, hu, List.any_nil, Bool.not_false, Bool.and_true, Bool.true_and]
  split
  next h => rw [createUnproven, hc h, List.any_nil, Bool.not_false]
  next h => rw [wakeOwed, hd h, List.any_nil, Bool.and_false, Bool.not_false]
  next => rw [frameLeaving, hu, List.any_nil, Bool.not_false]
  next => rfl

/-- The only mailbox that can be served has its turn. -/
theorem mailTurn_of_only (hs : servable s b = true) (only : ∀ x, servable s x = true → x = b) : mailTurn s b = true := by
  unfold mailTurn
  rw [hs, Bool.true_and, List.all_eq_true]
  intro x _
  cases hx : servable s x
  case false => rfl
  case true =>
    rw [only x hx]
    exact decide_eq_true (Nat.le_refl _)

theorem waitingRequest_turn {code : Nat} (ht : mailTurn s b = true) (hc : recField (s.taken b) 0 2 = code) :
    waitingRequest s b code = some (s.taken b) :=
  if_pos (Bool.and_eq_true_iff.2 ⟨ht, decide_eq_true hc⟩)

theorem waitingRequest_idle {code : Nat} (h : mailTurn s b = false ∨ recField (s.taken b) 0 2 ≠ code) :
    waitingRequest s b code = none := by
  refine if_neg fun hw => ?_
  obtain ⟨ht, hc⟩ := Bool.and_eq_true_iff.1 hw
  rcases h with h | h
  · exact absurd ht (ne_true_of_eq_false h)
  · exact h (of_decide_eq_true hc)

theorem serve_turn {code : Nat} {f : List Byte → Reply} (ht : mailTurn s s.input.mailbox = true)
    (hc : recField (s.taken s.input.mailbox) 0 2 = code) :
    serve s code f = .next (answer s s.input.mailbox (f (s.taken s.input.mailbox))) := by
  rw [serve, waitingRequest_turn ht hc]

theorem serve_idle {code : Nat} {f : List Byte → Reply}
    (h : mailTurn s s.input.mailbox = false ∨ recField (s.taken s.input.mailbox) 0 2 ≠ code) : serve s code f = .next s := by
  rw [serve, waitingRequest_idle h]

/-! ### What an answer writes (R69) -/

theorem mailbox_setMailbox (s : State) (b : MailBox) (m : MailState) : (s.setMailbox b m).mailbox b = m := by
  cases b with
  | management => rfl
  | supervisor p => exact tget_tput_same _ _ _ _

theorem mailbox_answer (s : State) (b : MailBox) (r : Reply) :
    (answer s b r).mailbox b = (s.mailbox b).answer r.status (bytesAt 0 r.resp) :=
  mailbox_setMailbox r.state b _

theorem answer_parts (s : State) (b : MailBox) (r : Reply) : (answer s b r).parts = r.state.parts := by
  cases b with
  | management => rfl
  | supervisor p => rfl

theorem answer_unmaps (s : State) (b : MailBox) (r : Reply) : (answer s b r).unmaps = r.state.unmaps := by
  cases b with
  | management => rfl
  | supervisor p => rfl

/-! ### Requests for a partition that is absent or LOST (R102) -/

theorem served_eq_false_iff {q : Partition} : q.served = false ↔ q.present = false ∨ q.dmState = .lost := by
  rw [Partition.served, Bool.and_eq_false_iff, bne_eq_false_iff_eq]

theorem served_of_present {q : Partition} (hp : q.present = true) (hl : q.dmState ≠ .lost) : q.served = true :=
  eq_true_of_ne_false fun h => (served_eq_false_iff.1 h).elim (ne_false_of_eq_true hp) hl

/-- The request is answered with NOPART or BADREQ and changes nothing. -/
def Refused (s : State) (r : Reply) : Prop := r.state = s ∧ (r.status = 13 ∨ r.status = 1)

/-- A request tests its operands, and then its partition. -/
theorem refused_of_not_served {bad served : Bool} {r : Reply} (h : served = false) :
    Refused s (if bad then refuse s 1 else if !served then refuse s 13 else r) := by
  subst h
  cases bad
  case true => exact ⟨rfl, .inr rfl⟩
  case false => exact ⟨rfl, .inl rfl⟩

theorem refused_partDestroy (h : (s.part (recField bs 2 1 % 64)).present = false) : Refused s (partDestroy s bs) :=
  refused_of_not_served h

section

variable (h : (s.part (recField bs 2 1 % 64)).served = false)

include h

theorem refused_groupSet : Refused s (groupSet s bs) := refused_of_not_served h
theorem refused_attest : Refused s (attest s bs) := refused_of_not_served h
theorem refused_keyImport : Refused s (keyImport s bs) := refused_of_not_served h
theorem refused_traceSet : Refused s (traceSet s bs) := refused_of_not_served h
theorem refused_inspect : Refused s (inspect s bs) := refused_of_not_served h

end

/-! ### PART_CREATE and PART_DESTROY (R70, R71) -/

theorem settleRails_parts (s : State) : (settleRails s).parts = s.parts := rfl

theorem part_of_tput {u : State} {t : Table Partition} {p : Nat} {q : Partition} (h : u.parts = tput t p q) : u.part p = q := by
  rw [State.part, h, tget_tput_same]

theorem part_of_tdel {u : State} {t : Table Partition} {p : Nat} (h : u.parts = tdel t p) : u.part p = Partition.absent := by
  rw [State.part, h, tget_tdel_same]

/-- A request that is granted passed each test that would have refused it. -/
theorem passes_of_granted {c : Prop} [Decidable c] {n : Nat} {a r : Reply} (e : a = if c then refuse s (n + 1) else r)
    (h : a.status = 0) : ¬c ∧ a = r := by
  by_cases hc : c
  · rw [e, if_pos hc] at h
    cases h
  · exact ⟨hc, e.trans (if_neg hc)⟩

/-- A granted PART_CREATE found its number free, and enters the new partition. -/
theorem partCreate_granted (h : (partCreate s bs).status = 0) :
    createBad bs (createRects bs) (recField bs 4 2) = false ∧ (s.part (recField bs 2 1 % 64)).present = false ∧
    ∃ mask key, (partCreate s bs).state.part (recField bs 2 1 % 64) =
      reserveArea s (newPartition s.clock bs (createRects bs) mask key) := by
  obtain ⟨operands, e⟩ := passes_of_granted (a := partCreate s bs) rfl h
  obtain ⟨free, e⟩ := passes_of_granted e h
  obtain ⟨_, e⟩ := passes_of_granted e h
  rw [e]
  exact ⟨eq_false_of_ne_true operands, (Bool.or_eq_false_iff.1 (eq_false_of_ne_true free)).1, _, _,
    part_of_tput (settleRails_parts _)⟩

/-- The supervisor of a new partition lies in its rectangles. -/
theorem holdsCore_of_not_createBad {now mask : Nat} {key : Option Nat}
    (h : createBad bs (createRects bs) (recField bs 4 2) = false) :
    (reserveArea s (newPartition now bs (createRects bs) mask key)).holdsCore (recField bs 4 2) = true :=
  (Bool.not_eq_false' _).mp (Bool.or_eq_false_iff.1 h).2

theorem partCreate_enters (h : (partCreate s bs).status = 0) :
    ((partCreate s bs).state.part (recField bs 2 1 % 64)).present = true ∧ (s.part (recField bs 2 1 % 64)).present = false ∧
    ((partCreate s bs).state.part (recField bs 2 1 % 64)).supervisor = recField bs 4 2 ∧
    ((partCreate s bs).state.part (recField bs 2 1 % 64)).holdsCore (recField bs 4 2) = true := by
  obtain ⟨operands, free, mask, key, enters⟩ := partCreate_granted h
  rw [enters]
  exact ⟨rfl, free, rfl, holdsCore_of_not_createBad operands⟩

theorem partDestroy_granted (h : (partDestroy s bs).status = 0) :
    ((partDestroy s bs).state.part (recField bs 2 1 % 64)).present = false := by
  obtain ⟨_, e⟩ := passes_of_granted (a := partDestroy s bs) rfl h
  obtain ⟨_, e⟩ := passes_of_granted e h
  rw [e]
  exact congrArg Partition.present (part_of_tdel (settleRails_parts _))

/-! ### TRACE_SET (R86) -/

theorem traceSet_granted (h : (traceSet s bs).status = 0) :
    ((traceSet s bs).state.part (recField bs 2 1 % 64)).trctl = BitVec.ofNat 64 (recField bs 8 8) ∧
    ((traceSet s bs).state.part (recField bs 2 1 % 64)).trbase = BitVec.ofNat 64 (recField bs 0x10 8) ∧
    ((traceSet s bs).state.part (recField bs 2 1 % 64)).trwptr = (s.part (recField bs 2 1 % 64)).trwptr := by
  obtain ⟨_, e⟩ := passes_of_granted (a := traceSet s bs) rfl h
  obtain ⟨_, e⟩ := passes_of_granted e h
  rw [e, granted, State.part_modPart_same]
  exact ⟨rfl, rfl, rfl⟩

/-! ### MAP (R192, R207) -/

theorem exec_mapPage (ht : mailTurn s s.input.mailbox = true) (hc : recField (s.taken s.input.mailbox) 0 2 = 0x10) :
    exec .mapPage s = .next (answer s s.input.mailbox (mapPage s (s.taken s.input.mailbox))) := by
  show execMapPage s = _
  rw [execMapPage, waitingRequest_turn ht hc]

theorem mapPage_refused (h : mapStatus s bs ≠ 0) : mapPage s bs = refuse s (mapStatus s bs) := by
  unfold mapPage
  dsimp only
  split
  next h0 => exact absurd h0 h
  next => rfl

theorem mapPage_granted (h : mapStatus s bs = 0) : mapPage s bs = {
    state := installPage s (recField bs 2 1 % 64) { va := recField bs 8 8, attr := b64 (recField bs 0x10 8) }
    status := 0
    resp := natBytes 8 (b64 (recField bs 0x10 8)).toNat } := by
  simp only [mapPage, h]

/-- Zeroing a counter page leaves the pages of every partition. -/
theorem installPage_pages (s : State) (p : Nat) (g : Page) : ((installPage s p g).part p).pages = (s.part p).pages ++ [g] := by
  have entered : ((s.modPart p (fun q => { q with pages := q.pages ++ [g], mapped := noteFrame q.mapped g.attr })).part p).pages =
      (s.part p).pages ++ [g] := by rw [State.part_modPart_same]
  unfold installPage
  dsimp only
  split
  · exact entered
  · exact entered

/-! ### UNMAP (R207, R228) -/

theorem exec_unmapPage_noPart (ht : mailTurn s s.input.mailbox = true) (hc : recField (s.taken s.input.mailbox) 0 2 = 0x11)
    (h : (s.part (recField (s.taken s.input.mailbox) 2 1 % 64)).served = false) :
    exec .unmapPage s = .next (answer s s.input.mailbox (refuse s 13)) := by
  show execUnmapPage s = _
  simp only [execUnmapPage, waitingRequest_turn ht hc, h, Bool.not_false, if_true]

theorem exec_unmapPage_starts {g : Page} (ht : mailTurn s s.input.mailbox = true)
    (hc : recField (s.taken s.input.mailbox) 0 2 = 0x11)
    (h : (s.part (recField (s.taken s.input.mailbox) 2 1 % 64)).served = true)
    (hn : onlyNamed (s.taken s.input.mailbox) [(2, ones 6), (8, ones 56)] = true)
    (hv : recField (s.taken s.input.mailbox) 8 8 < fixedFrom)
    (hg : pageAt (s.part (recField (s.taken s.input.mailbox) 2 1 % 64)).pages (recField (s.taken s.input.mailbox) 8 8) = some g) :
    exec .unmapPage s = .next (startUnmap s (some s.input.mailbox) (recField (s.taken s.input.mailbox) 2 1 % 64) g) := by
  show execUnmapPage s = _
  simp only [execUnmapPage, waitingRequest_turn ht hc, h, hn, Nat.not_le.2 hv, hg, Bool.not_true, Bool.false_eq_true, if_false]

theorem startUnmap_pages (s : State) (mb : Option MailBox) (p : Nat) (g : Page) :
    ((startUnmap s mb p g).part p).pages = (s.part p).pages.erase g := by
  unfold startUnmap
  rw [State.part_modPart_same]
  rfl

/-- The waits that are dropped are in the cores and in the wait tables. -/
theorem dropWaits_unmaps (s : State) (p : Nat) (g : Page) : (dropWaits s p g).unmaps = s.unmaps := by
  unfold dropWaits
  refine List.foldlRecOn (motive := fun t : State => t.unmaps = s.unmaps) _ _ rfl fun t ht c _ => ?_
  refine List.foldlRecOn (motive := fun t : State => t.unmaps = s.unmaps) _ _ ht fun t ht k _ => ?_
  split
  · split
    · exact ht
    · exact ht
  · exact ht

theorem exec_unmapDone_waits {u : Unmapping} (h : s.unmaps.find? (fun u => u.part = s.input.part && u.mb.isSome) = some u)
    (hd : unmapDrained s u.page = false) : exec .unmapDone s = .next s := by
  show execUnmapDone s = _
  rw [execUnmapDone, h]
  exact if_pos (by rw [hd]; rfl)

theorem exec_unmapDone_answers {u : Unmapping} {mb : MailBox}
    (h : s.unmaps.find? (fun u => u.part = s.input.part && u.mb.isSome) = some u) (hm : u.mb = some mb)
    (hd : unmapDrained s u.page = true) :
    ∃ t, t.unmaps = s.unmaps.erase u ∧ exec .unmapDone s = .next (answer t mb (granted t)) := by
  refine ⟨dropWaits { s with unmaps := s.unmaps.erase u } u.part u.page, dropWaits_unmaps _ _ _, ?_⟩
  show execUnmapDone s = _
  simp only [execUnmapDone, h, hd, hm, Bool.not_true, Bool.false_eq_true, if_false]

end

/-- Settles O45: a mailbox whose turn it is is served under its code, a partition that is not served is refused, and an unmap is
answered once it has drained. -/
theorem firmwareCalls : Obligations.FirmwareCalls := by
  intro s
  refine ⟨fun h => if_pos h, ?sent, ?full, exec_fwMailboxMessage_take, ?turn, ?table, ?lost, ?absent, partCreate_enters,
    partDestroy_granted, ?trace, ?map, ?unmap, ?drained⟩
  case sent => exact fun hd ho hq => (exec_fwMailboxMessage_send hd ho).trans (next_congr (if_pos hq))
  case full => exact fun hd ho hq => (exec_fwMailboxMessage_send hd ho).trans (next_congr (if_neg (Nat.not_lt.2 hq)))
  case turn => exact fun hb hu hc hd only => mailTurn_of_only (servable_of_busy hb hu hc hd) only
  case table =>
    simp only [List.forall_mem_cons]
    exact ⟨⟨serve_idle, serve_turn⟩, ⟨serve_idle, serve_turn⟩, ⟨serve_idle, serve_turn⟩, ⟨serve_idle, serve_turn⟩,
      ⟨serve_idle, serve_turn⟩, ⟨serve_idle, serve_turn⟩, ⟨serve_idle, serve_turn⟩, List.forall_mem_nil _⟩
  case lost =>
    intro e he h
    have h := served_eq_false_iff.2 (.inr h)
    revert e
    simp only [List.drop_succ_cons, List.drop_zero, List.forall_mem_cons]
    exact ⟨refused_groupSet h, refused_attest h, refused_keyImport h, refused_traceSet h, refused_inspect h, List.forall_mem_nil _⟩
  case absent =>
    intro e he h
    have served := served_eq_false_iff.2 (.inl h)
    revert e
    simp only [List.drop_succ_cons, List.drop_zero, List.forall_mem_cons]
    exact ⟨refused_partDestroy h, refused_groupSet served, refused_attest served, refused_keyImport served,
      refused_traceSet served, refused_inspect served, List.forall_mem_nil _⟩
  case trace => exact fun h => ⟨_, rfl, traceSet_granted h⟩
  case map =>
    intro ht hc
    refine ⟨fun h => ?refused, fun h => ?entered⟩
    case refused =>
      rw [exec_mapPage ht hc, mapPage_refused h]
      rfl
    case entered =>
      refine ⟨_, exec_mapPage ht hc, ?_⟩
      rw [State.part, answer_parts, mailbox_answer, mapPage_granted h]
      exact ⟨installPage_pages _ _ _, rfl, rfl⟩
  case unmap =>
    intro ht hc
    refine ⟨fun h => exec_unmapPage_noPart ht hc (served_eq_false_iff.2 h), fun g hp hl hn hv hg => ?_⟩
    exact ⟨_, exec_unmapPage_starts ht hc (served_of_present hp hl) hn hv hg, rfl, startUnmap_pages _ _ _ _⟩
  case drained =>
    intro u mb hu hm
    refine ⟨exec_unmapDone_waits hu, fun hd => ?_⟩
    obtain ⟨t, hunmaps, e⟩ := exec_unmapDone_answers hu hm hd
    refine ⟨_, e, (answer_unmaps _ _ _).trans hunmaps, ?_⟩
    rw [mailbox_answer]
    exact ⟨rfl, rfl, rfl⟩

end Sys2Proof.Machine

namespace Sys2Proof.Machine
/-! # A step runs what its move names (R161, R167, R268, R300)

`tryIssue` tests a context in order; what is left of it once every test is passed is said once, in `Passes.tryIssue`. -/

section

variable {s u t : State} {core k : Nat} {m : Move} {ms : List Move}

/-- The move at the head of the schedule is carried out in the state that no longer lists it. -/
theorem step_of_schedule (h : s.schedule = m :: ms) : step s = doMove { s with schedule := ms } m := by
  rw [step, h]

/-! ### An issue (R161, R211, R289) -/

/-- The tests that a context passes before its instruction is looked at. -/
structure Passes (s : State) (core k : Nat) : Prop where
  may : mayIssue s core k = true
  fetches : fetchGated (s.core core) k = false
  awake : coreAwake s core = true
  even : (issuePc (s.core core) k).toNat % 2 = 0
  inIm : (issuePc (s.core core) k).toNat ≤ 65536
  noBreak : ibpHit (s.core core) k (issuePc (s.core core) k) = false
  slot : slotOpen s core = true

/-- A context that passes its tests comes to its stream, or to the bytes at its PC. -/
theorem Passes.tryIssue (h : Passes s core k) :
    tryIssue s core k = match streamHead (s.core core) k with
      | some e => tryInstr s core k (some e) e.pc e.instr e.word
      | none => match fetchDecode (s.core core) (issuePc (s.core core) k).toNat with
        | .error e => some (.next (issueIllegal s core k (issuePc (s.core core) k).toNat e))
        | .ok (i, w, _) => tryInstr s core k none (issuePc (s.core core) k) i w :=
  (if_neg (by simp [h.may, h.fetches, h.awake, h.slot])).trans
    ((if_neg (by simp [h.even, Nat.not_lt.2 h.inIm])).trans (if_neg (by simp [h.noBreak])))

/-- A follower whose buffer is not empty is not gated (R167). -/
theorem fetchGated_of_streamHead {c : Core} {e : FollowEntry} (h : streamHead c k = some e) : fetchGated c k = false := by
  cases hq : c.fbuf with
  | nil => simp [streamHead, hq] at h
  | cons => simp [fetchGated, hq]

theorem tryIssue_of_closed (ho : slotOpen s core = false) : tryIssue s core k = none := by
  simp [tryIssue, ho]

/-- An instruction whose operands and followers are ready, and that nothing holds, is executed. -/
theorem tryInstr_of_ready {head : Option FollowEntry} {pc : DWord} {i : Instr} {w : BitVec 32}
    (hr : regsReady (s.core core) k i = true) (hl : (s.core core).fstate = 1 → k = 0 → followersFull s core = false)
    (hh : heldAtIssue s core k i = false) (e : exec i (issuing s core k w) = .next t) :
    tryInstr s core k head pc i w = some (.next (afterIssue t core k (decide (k = 0 ∧ (s.core core).fstate = 1)) head pc i w)) := by
  have notFull : ¬(k = 0 ∧ (s.core core).fstate = 1 ∧ followersFull s core = true) := by
    rintro ⟨hk, hf, h⟩
    exact ne_true_of_eq_false (hl hf hk) h
  simp only [tryInstr, hr, hh, e]
  rw [if_neg]
  · simp
  · simpa [and_assoc] using notFull

/-- What a context can issue stands where it is its turn, or where it takes no issue slot. -/
theorem issue_of_tryIssue (h : tryIssue s core k = some (.next u)) :
    issue s core k = .next (if tookSlot s u core k = true then (if myTurn s core k = true then noteIssue u core k else s) else u) := by
  unfold issue
  rw [h]
  dsimp only
  cases tookSlot s u core k
  case false => rfl
  case true => cases myTurn s core k <;> rfl

/-! ### Time and events (R161, R268) -/

theorem passCycles_of_owesIssue (n : Nat) (h : owesIssue s = true) : passCycles s n = s :=
  if_pos (if_pos h)

/-- Nothing yields to an instruction's fault where the event freezes no core. -/
theorem engineYields_of_no_freeze (i : Instr) (h : ∀ core, (t.core core).issue = .frozen → (s.core core).issue = .frozen) :
    engineYields s t i = false := by
  have none_froze : ∀ core, engineFroze s t core = false := by
    intro core
    by_cases ht : (t.core core).issue = .frozen
    · simp [engineFroze, h core ht]
    · simp [engineFroze, ht]
  unfold engineYields
  split
  · rfl
  · simp [none_froze]

theorem doEvent_of_next {i : Instr} (e : exec i s = .next t) : doEvent s i = .next (if engineYields s t i = true then s else t) := by
  rw [doEvent, e]

theorem doEvent_of_not_next {i : Instr} (h : ∀ t, exec i s ≠ .next t) : doEvent s i = exec i s := by
  unfold doEvent
  split
  next t e => exact absurd e (h t)
  next => rfl

end

/-- Settles O55: what the move names is what `doMove` runs; an issue passes each test of `tryIssue` and comes to its instruction. -/
theorem stepRunsDecoded : Obligations.StepRunsDecoded := by
  intro s r s' becomes
  have run : ∀ {m}, s.schedule = m :: r → step s = doMove s' m := step_of_schedule
  refine ⟨?fetched, ?follower, ?illegal, ?closed, ?tick, ?event⟩
  case fetched =>
    intro core k i w n hsch c pc hm hf ha heven him hb ho hst hd hr hl hh t ht
    refine (run hsch).trans (issue_of_tryIssue ?_)
    rw [Passes.tryIssue ⟨hm, hf, ha, heven, him, hb, ho⟩, hst, hd]
    exact tryInstr_of_ready hr hl hh ht
  case follower =>
    intro core e hsch c pc hm ha heven him hb ho hst hr h2 hh t ht
    refine (run hsch).trans (issue_of_tryIssue ?_)
    have hf : fetchGated c 0 = false := fetchGated_of_streamHead hst
    have h1 : c.fstate ≠ 1 := by rw [h2]; decide
    rw [Passes.tryIssue ⟨hm, hf, ha, heven, him, hb, ho⟩, hst]
    refine (tryInstr_of_ready hr (fun h => absurd h h1) hh ht).trans ?_
    rw [decide_eq_false fun h => h1 h.2]
  case illegal =>
    intro core k e hsch c pc hm hf ha heven him hb ho hst hd
    refine (run hsch).trans (issue_of_tryIssue ?_)
    rw [Passes.tryIssue ⟨hm, hf, ha, heven, him, hb, ho⟩, hst, hd]
  case closed =>
    intro core k hsch ho
    rw [run hsch, doMove, issue, tryIssue_of_closed ho]
  case tick =>
    refine fun n hsch => ⟨run hsch, fun ho => ?_⟩
    rw [run hsch, doMove, passCycles_of_owesIssue n ho]
  case event =>
    intro i inp hsch hw u
    have happens : step s = doEvent u i := (run hsch).trans (if_pos hw)
    refine ⟨fun t ht => happens.trans (doEvent_of_next ht), fun t ht hfr => ?_, fun h => happens.trans (doEvent_of_not_next h)⟩
    rw [happens, doEvent_of_next ht, engineYields_of_no_freeze i hfr]
    rfl

end Sys2Proof.Machine

namespace Sys2Proof.Machine
/-! # The start of an engine's head job (R91, R217, R354) -/

section

variable {s : State} {core : Nat} {e : Engine} {j : Job} {q : List Job}

/-! ### Free queue entries are taken first (R164, R257) -/

theorem oldestFiring_of_idle {c : Core} (h : ∀ k, k < 4 → (c.slot k).pending = 0) (e : Engine) : oldestFiring c e = none := by
  have idle : ∀ k, k < 4 → c.firing e (c.slot k) = false := by
    intro k hk
    unfold Core.firing
    split
    · rfl
    · simp [h k hk]
  have none_fires : (List.range 4).filter (fun k => c.firing e (c.slot k)) = [] := by
    refine List.filter_eq_nil_iff.2 fun k hk => ?_
    simp [idle k (List.mem_range.1 hk)]
  rw [oldestFiring, none_fires, List.foldl_nil]

/-- A core without a pending firing or reconcile job has nothing that enters a queue. -/
theorem refillOne_of_idle (n : Nat) (hr : (s.core core).recQ = []) (hp : ∀ k, k < 4 → ((s.core core).slot k).pending = 0) (e : Engine) :
    refillOne n s core e = s := by
  cases n with
  | zero => rfl
  | succ n => simp [refillOne, oldestFiring_of_idle hp e, takeRec, hr]

theorem refill_of_idle (hr : (s.core core).recQ = []) (hp : ∀ k, k < 4 → ((s.core core).slot k).pending = 0) : refill s core = s := by
  simp [refill, refillOne_of_idle _ hr hp]

/-! ### The fork condition (R217) -/

theorem forkReady_of_no_access {ctx : Nat} (h : ∀ x ∈ (s.core core).accs, x.ctx ≠ ctx) (id scope : Nat) :
    forkReady s core ctx id scope = true := by
  unfold forkReady
  dsimp only
  refine List.all_eq_true.2 fun x hx => ?_
  simp [h x hx]

/-- An earlier access of the context that has not been performed holds its command back. -/
theorem forkReady_of_open_access {ctx id scope : Nat} {x : Access} (hx : x ∈ (s.core core).accs) (hc : x.ctx = ctx) (hid : x.id < id)
    (ha : x.isAccess = true) (hw : x.within s core scope = true) : forkReady s core ctx id scope = false := by
  unfold forkReady
  dsimp only
  refine List.all_eq_false.2 ⟨x, hx, ?_⟩
  simp [hc, hid, ha, hw]

/-! ### START -/

theorem startReady_iff : startReady s core e j = true ↔ j.started = false ∧ (s.core core).engStopped = false ∧
    slotOpen s core = true ∧ (e = .vector ∨ forkReady s core j.ctx j.forkId 0 = true) := by
  simp [startReady, and_assoc]

/-- Of an engine's head job, where nothing enters a queue first. -/
theorem exec_engineStart (hq : (s.core s.input.core).queue s.input.engine = j :: q) (hr : refill s s.input.core = s) :
    exec .engineStart s = .next (if startReady s s.input.core s.input.engine j then
      s.modCore s.input.core (fun c => c.setQueue s.input.engine
        ((if s.input.engine = .vector then startVector (s.ctx s.input.core j.ctx) j else { j with started := true }) :: q)) else s) := by
  show execEngineStart s = _
  have head : ∀ j', setHead (s.core s.input.core) s.input.engine j' = (s.core s.input.core).setQueue s.input.engine (j' :: q) := by
    intro j'
    rw [setHead, hq, List.drop_succ_cons, List.drop_zero]
  simp only [execEngineStart, hr, hq, State.modCore, head]
  cases startReady s s.input.core s.input.engine j <;> rfl

end

/-- Settles O30: nothing enters a queue first, so the head job starts where `startReady` holds. -/
theorem engineStart : Obligations.EngineStart := by
  intro s j q core e hq hr hp
  have start := exec_engineStart hq (refill_of_idle hr hp)
  refine ⟨?fork, ?vector, ?idle, ?held⟩
  case fork =>
    intro hj hs ho he ha
    rw [start, if_pos (startReady_iff.2 ⟨hj, hs, ho, .inr (forkReady_of_no_access ha _ _)⟩), if_neg he]
  case vector =>
    intro hj hs ho he
    rw [start, if_pos (startReady_iff.2 ⟨hj, hs, ho, .inl he⟩), if_pos he]
  case idle =>
    intro h
    refine start.trans (next_congr (if_neg fun hr => ?_))
    obtain ⟨hj, hs, ho, _⟩ := startReady_iff.1 hr
    simp [core, hj, hs, ho] at h
  case held =>
    intro x hx hc hid ha hw he
    refine start.trans (next_congr (if_neg fun hr => ?_))
    obtain ⟨_, _, _, hv | hf⟩ := startReady_iff.1 hr
    · exact he hv
    · exact ne_true_of_eq_false (forkReady_of_open_access hx hc hid ha hw) hf

end Sys2Proof.Machine

namespace Sys2Proof.Machine
/-! # Energy accounts, collapse, wake and the peek path (R88 to R91, R94 to R104)

A collapse runs through the write-back of lines and the stop of cores, and a wake through the restore of cores. `Steady` says what
the first two leave alone of the partitions and the clock, one rule per function; `wakeCores_restore` says once what the last leaves. -/

section

variable {s t u : State} {i p : Nat}

theorem foldl_parts {α : Type} {f : State → α → State} (h : ∀ s a, (f s a).parts = s.parts) (l : List α) (s : State) :
    (l.foldl f s).parts = s.parts :=
  List.foldlRecOn (motive := fun t => t.parts = s.parts) l f rfl fun t ht a _ => (h t a).trans ht

theorem part_congr (h : t.parts = s.parts) (p : Nat) : t.part p = s.part p := by rw [State.part, h, State.part]

theorem core_congr (h : t.cores = s.cores) (i : Nat) : t.core i = s.core i := by rw [State.core, h, State.core]

/-! ### Trace records leave the accounts (R86, R88) -/

/-- What R88 to R91 keep of a partition. -/
def Partition.energy (q : Partition) : Int × Nat × Bool := (q.account, q.updatedAt, q.throttled)

theorem energy_modPart {k : Nat} {f : Partition → Partition} (h : ∀ q, (f q).energy = q.energy) :
    ((s.modPart k f).part p).energy = (s.part p).energy := by
  by_cases e : p = k
  · subst e
    rw [State.part_modPart_same, h]
  · rw [State.part_modPart_ne _ _ e]

theorem writePhys_parts (s : State) (pa : Nat) (bs : List Byte) : (writePhys s pa bs).parts = s.parts := by
  unfold writePhys
  split
  · split
    · rfl
    · rfl
  · rfl
  · rfl
  · rfl

theorem energy_writePlace (s : State) (pl : Place) (bs : List Byte) (p : Nat) :
    ((writePlace s pl bs).part p).energy = (s.part p).energy := by
  unfold writePlace
  split
  · rfl
  · rw [part_congr (writePhys_parts _ _ _)]
  · exact energy_modPart fun _ => rfl
  · rfl

theorem energy_vput (s : State) (k va : Nat) (bs : List Byte) (p : Nat) : ((vput s k va bs).part p).energy = (s.part p).energy := by
  induction bs generalizing s va with
  | nil => rfl
  | cons b r ih =>
    rw [vput, ih]
    split
    · exact energy_writePlace _ _ _ _
    · rfl

theorem energy_vwrite {k va : Nat} {bs : List Byte} (h : vwrite s k va bs = .ok t) (p : Nat) :
    (t.part p).energy = (s.part p).energy := by
  unfold vwrite at h
  split at h
  · cases h
  · cases h
    exact energy_vput _ _ _ _ _

theorem energy_trace (s : State) (k cls typ ctx core v p : Nat) :
    ((trace s k cls typ ctx core v).part p).energy = (s.part p).energy := by
  unfold trace
  dsimp only
  split
  · rfl
  split
  · exact energy_modPart fun _ => rfl
  split
  · exact energy_modPart fun _ => rfl
  next h => exact Eq.trans (energy_modPart fun _ => rfl) (energy_vwrite h p)

theorem energy_throttleTrace (s : State) (k code p : Nat) : ((throttleTrace s k code).part p).energy = (s.part p).energy :=
  energy_trace _ _ _ _ _ _ _ _

theorem energy_eq_iff {q r : Partition} : r.energy = q.energy ↔
    r.account = q.account ∧ r.updatedAt = q.updatedAt ∧ r.throttled = q.throttled := by
  simp [Partition.energy]

/-! ### One microsecond of an account; the end of a throttling (R88 to R91) -/

/-- The test leaves the account, and begins a throttling where it is negative. -/
theorem throttleTest_part (s : State) (p : Nat) :
    ((throttleTest s p).part p).account = (s.part p).account ∧ ((throttleTest s p).part p).updatedAt = (s.part p).updatedAt ∧
    ((s.part p).account < 0 → ((throttleTest s p).part p).throttled = true) := by
  unfold throttleTest
  dsimp only
  split
  · split
    · rw [State.part_modPart_same]
      exact ⟨rfl, rfl, fun _ => rfl⟩
    · have e := energy_throttleTrace (s.modPart p (fun q => { q with throttled := true, restored := none })) p 6 p
      rw [State.part_modPart_same] at e
      obtain ⟨account, updated, throttled⟩ := energy_eq_iff.1 e
      exact ⟨account, updated, fun _ => throttled⟩
  next h =>
    split
    · rw [State.part_modPart_same]
      exact ⟨rfl, rfl, fun hn => absurd hn h⟩
    · exact ⟨rfl, rfl, fun hn => absurd hn h⟩

theorem exec_energyUpdate (hp : (s.part s.input.part).present = true) (hc : (s.part s.input.part).updatedAt + 3300 ≤ s.clock) :
    ∃ u : State, u.parts = s.parts ∧ exec .energyUpdate s = .next (throttleTest (u.modPart s.input.part (fun q => { q with
      account := nextAccount q (s.input.amount + (s.input.shares.map (·.2)).sum)
      updatedAt := q.updatedAt + 3300 })) s.input.part).oweSelect := by
  refine ⟨_, foldl_parts (fun s e => ?_) _ s, if_neg ?_⟩
  · split
    · split
      · rfl
      · rfl
    · rfl
  · rw [hp, Bool.not_true, Bool.false_or, decide_eq_true_iff]
    exact Nat.not_lt.2 hc

theorem exec_energyUpdate_early (hc : s.clock < (s.part s.input.part).updatedAt + 3300) : exec .energyUpdate s = .next s :=
  if_pos (by simp [cyclesPerUs, hc])

theorem exec_throttleEnd (ht : (s.part s.input.part).throttled = true) (hr : (s.part s.input.part).restored ≠ none) :
    exec .throttleEnd s = .next (throttleTrace (s.modPart s.input.part (fun q => { q with
      throttled := false
      restored := none })) s.input.part 7) :=
  if_pos (by rw [ht, Bool.true_and]; exact Option.isSome_iff_ne_none.2 hr)

theorem exec_throttleEnd_idle (ht : (s.part s.input.part).throttled = false) : exec .throttleEnd s = .next s :=
  if_neg (by simp [ht])

/-! ### A collapse begins (R95, R97) -/

theorem startCollapse_begins {idle : Bool} (h : collapseRefusal s p = none) :
    startCollapse s p idle = s.modPart p (fun q => { q with dmState := .collapsing }) := by
  rw [startCollapse, h]

theorem startCollapse_refused {r : Nat} (h : collapseRefusal s p = some r) :
    startCollapse s p false = s.modPart p (fun q => { q with dmReason := BitVec.ofNat 8 r }) := by
  rw [startCollapse, h]
  rfl

theorem exec_dmCollapse (hp : (s.part s.input.part).present = true) (ha : (s.part s.input.part).dmState = .active) :
    exec .dmCollapse s = .next (startCollapse s s.input.part false) :=
  next_congr (if_pos (by simp [hp, ha]))

theorem exec_dmCollapse_idle (ha : (s.part s.input.part).dmState ≠ .active) : exec .dmCollapse s = .next s :=
  next_congr (if_neg (by simp [ha]))

theorem exec_dwellExpiry (hp : (s.part s.input.part).present = true) (ha : (s.part s.input.part).dmState = .active)
    (hd : dwellDue s s.input.part = true) : exec .dwellExpiry s = .next (startCollapse s s.input.part true) :=
  next_congr (if_pos (by simp [hp, ha, hd]))

theorem exec_dwellExpiry_idle (h : (s.part s.input.part).dmState ≠ .active ∨ dwellDue s s.input.part = false) :
    exec .dwellExpiry s = .next s :=
  next_congr (if_neg (by rcases h with h | h <;> simp [h]))

/-! ### What ends dormancy (R98 to R103) -/

/-- A wake write begins the wake of a dormant partition, calls a collapse off, and leaves any other. -/
theorem part_wakeRequest (s : State) (p : Nat) : (wakeRequest s p).part p =
    (if (s.part p).dmState = .dormant then { s.part p with dmState := .waking } else if (s.part p).dmState = .collapsing then
      { s.part p with
        dmState := .active
        idleSince := none } else s.part p) := by
  unfold wakeRequest
  split
  next h => rw [State.part_modPart_same, if_pos h]
  next h => rw [State.part_modPart_same, if_neg (by simp [h]), if_pos h]
  next hd hc => rw [if_neg hd, if_neg hc]

/-- A wake write changes only a partition. -/
theorem wakeRequest_leaves (s : State) (p : Nat) :
    (wakeRequest s p).mem = s.mem ∧ (wakeRequest s p).cores = s.cores ∧ (wakeRequest s p).held = s.held := by
  unfold wakeRequest
  split
  · exact ⟨rfl, rfl, rfl⟩
  · exact ⟨rfl, rfl, rfl⟩
  · exact ⟨rfl, rfl, rfl⟩

theorem exec_dmtimerExpiry (hd : (s.part s.input.part).dmState = .dormant) (ht : (s.part s.input.part).timer ≠ 0)
    (hc : (s.part s.input.part).collapsedAt + (s.part s.input.part).timer.toNat * 3300 ≤ s.clock) :
    exec .dmtimerExpiry s = .next (wakeRequest s s.input.part) :=
  next_congr (if_pos (by simpa [hd, cyclesPerUs, hc] using ht))

theorem exec_dmtimerExpiry_off (ht : (s.part s.input.part).timer = 0) : exec .dmtimerExpiry s = .next s :=
  next_congr (if_neg (by simp [ht]))

theorem exec_wakeWrite (hp : (s.part s.input.part).present = true) (ha : (s.part s.input.part).dmState ≠ .active)
    (ho : outsideWrite s s.input.part s.input.held = true) :
    exec .wakeWrite s = (if s.input.held = .wakeOnly then .next (wakeRequest s s.input.part)
      else .next (writeOrHold s s.input.part s.input.held (fun t => performHeld t s.input.held))) := by
  show execWakeWrite s = _
  exact if_neg (by simp [hp, ha, ho])

/-- A write that finds room is held for a dormant partition, which begins to wake (R98, R99). -/
theorem writeOrHold_dormant {w : HeldWrite} (f : State → State) (hd : (s.part p).dmState = .dormant)
    (hr : heldTaken s + heldPlaces s w ≤ 1024) :
    writeOrHold s p w f = wakeRequest { s with held := s.held ++ [(p, w)] } p := by
  rw [writeOrHold, hd]
  exact if_pos hr

theorem dmState_wakeRequest_dormant (h : (s.part p).dmState = .dormant) : ((wakeRequest s p).part p).dmState = .waking := by
  rw [part_wakeRequest, if_pos h]

/-! ### A collapse ends (R95, R96) -/

/-- No partition and no time differs. -/
structure Steady (s t : State) : Prop where
  parts : t.parts = s.parts
  clock : t.clock = s.clock

theorem Steady.refl (s : State) : Steady s s := ⟨rfl, rfl⟩

theorem Steady.trans (h : Steady s t) (g : Steady t u) : Steady s u := ⟨g.parts.trans h.parts, g.clock.trans h.clock⟩

theorem Steady.ite {c : Prop} [Decidable c] (h : Steady s t) (g : Steady s u) : Steady s (if c then t else u) := by
  split
  · exact h
  · exact g

theorem Steady.foldl {α : Type} {f : State → α → State} {l : List α} (h : Steady s t) (k : ∀ s a, Steady s (f s a)) :
    Steady s (l.foldl f t) :=
  List.foldlRecOn l f h fun u hu a _ => hu.trans (k u a)

theorem Steady.modCore (s : State) (i : Nat) (f : Core → Core) : Steady s (s.modCore i f) := ⟨rfl, rfl⟩

theorem Steady.modCtx (s : State) (i k : Nat) (f : Context → Context) : Steady s (s.modCtx i k f) := ⟨rfl, rfl⟩

theorem Steady.modChan (s : State) (ch : Nat) (f : Channel → Channel) : Steady s (s.modChan ch f) := ⟨rfl, rfl⟩

theorem Steady.modDie (s : State) (d : Nat) (f : Die → Die) : Steady s (s.modDie d f) := ⟨rfl, rfl⟩

theorem steady_applyMsgs (s : State) (ms : List WtMsg) : Steady s (applyMsgs s ms) := ⟨rfl, rfl⟩

theorem steady_applyThrough (s : State) (k : Nat) (sel : WtMsg → Bool) : Steady s (applyThrough s k sel) :=
  .ite (.refl s) ⟨rfl, rfl⟩

theorem steady_flushBytes (s : State) (die : Nat) (h : Holding) (m : BitVec 128) : Steady s (flushBytes s die h m) :=
  ((steady_applyThrough s _ _).trans (steady_applyMsgs _ _)).trans (.modDie _ _ _)

theorem steady_flushOwn (s : State) (die line : Nat) (m : BitVec 128) : Steady s (flushOwn s die line m) := by
  unfold flushOwn
  split
  · exact .refl s
  · exact .ite (.refl s) (steady_flushBytes _ _ _ _)

theorem steady_flushMask (fuel : Nat) (s : State) (die line : Nat) (m : BitVec 128) : Steady s (flushMask fuel s die line m) := by
  induction fuel generalizing s line m with
  | zero =>
    rw [flushMask_zero]
    split
    · exact .refl s
    · exact steady_flushOwn _ _ _ _
  | succ n ih =>
    rw [flushMask_succ]
    split
    · exact .refl s
    · refine Steady.trans ?_ (steady_flushOwn _ _ _ _)
      exact .foldl (.refl s) fun s _ => .foldl (.foldl (.refl s) fun s _ => .ite (steady_applyThrough _ _ _) (.refl s))
        fun s _ => .ite (.refl s) (ih s _ _)

theorem steady_flushLine (s : State) (die line : Nat) : Steady s (flushLine s die line) := by
  unfold flushLine
  dsimp only
  split
  · exact steady_applyThrough _ _ _
  · exact (steady_applyThrough _ _ _).trans (steady_flushMask _ _ _ _ _)

theorem steady_dropLine (s : State) (die line : Nat) : Steady s (dropLine s die line) := ⟨rfl, rfl⟩

theorem steady_writeBack (s : State) (p : Nat) : Steady s (writeBack s p) :=
  .foldl (.foldl (.refl s) fun s _ => .foldl (.refl s) fun s _ => (steady_flushLine s _ _).trans (steady_dropLine _ _ _))
    fun s _ => steady_applyThrough s _ _

theorem steady_saveIrqs (s : State) (p : Nat) : Steady s (saveIrqs s p) := ⟨rfl, rfl⟩

theorem steady_cancelOne (s : State) (ch : Nat) (mark : Bool) (e : CtEntry) : Steady s (cancelOne s ch mark e) := by
  unfold cancelOne
  dsimp only
  split
  · exact .refl s
  · exact .modCore _ _ _

theorem steady_cancelIf (s : State) (sel : CtEntry → Bool) (mark : Bool) (ch : Nat) : Steady s (cancelIf s sel mark ch) := by
  refine (Steady.foldl (.refl s) fun s e => ?_).trans (.modChan _ _ _)
  split
  · exact steady_cancelOne _ _ _ _
  · exact .refl s

theorem steady_cancelEntries (s : State) (sel : CtEntry → Bool) (mark : Bool) : Steady s (cancelEntries s sel mark) :=
  .foldl (.refl s) fun s _ => steady_cancelIf s sel mark _

theorem steady_endFollow (s : State) (core cause : Nat) (keep : Bool) : Steady s (endFollow s core cause keep) := by
  unfold endFollow
  dsimp only
  exact (Steady.ite (⟨rfl, rfl⟩ : Steady s (leaveLeader s core)) (.refl s)).trans (.modCore _ _ _)

theorem steady_recallMessages (s : State) (core : Nat) : Steady s (recallMessages s core) := ⟨rfl, rfl⟩

theorem steady_withdrawWaits (s : State) (core ctx : Nat) : Steady s (withdrawWaits s core ctx) := ⟨rfl, rfl⟩

theorem steady_stopCore (s : State) (core : Nat) (eng : Bool) : Steady s (stopCore s core eng) := by
  unfold stopCore
  dsimp only
  refine Steady.foldl ?_ fun s k => (steady_withdrawWaits s core k).trans (.modCtx _ _ _ _)
  exact (((Steady.modCore s core _).trans (steady_cancelEntries _ _ _)).trans (steady_recallMessages _ _)).trans
    (.ite (steady_endFollow _ _ _ _) (.refl _))

theorem steady_storeImage (s : State) (core area : Nat) (collapse : Bool) : Steady s (storeImage s core area collapse) := ⟨rfl, rfl⟩

/-- No collapse of partition `p` is counted, and no time passes. -/
structure Uncounted (p : Nat) (s t : State) : Prop where
  collapses : (t.part p).collapses = (s.part p).collapses
  clock : t.clock = s.clock

theorem Steady.uncounted (h : Steady s t) (p : Nat) : Uncounted p s t :=
  ⟨congrArg Partition.collapses (part_congr h.parts p), h.clock⟩

theorem Uncounted.trans (h : Uncounted p s t) (g : Uncounted p t u) : Uncounted p s u :=
  ⟨g.collapses.trans h.collapses, g.clock.trans h.clock⟩

theorem Uncounted.keepImages (s : State) (p : Nat) (f : Partition → Table Core) :
    Uncounted p s (s.modPart p (fun q => { q with savedCores := f q })) :=
  ⟨by rw [State.part_modPart_same], rfl⟩

theorem uncounted_saveCore (p : Nat) (s : State) (i : Nat) : Uncounted p s (saveCore p s i) := by
  have stop := (steady_stopCore s i true).trans (.modCore _ i takePulses)
  unfold saveCore
  dsimp only
  split
  · exact ((stop.trans (steady_storeImage _ _ _ _)).uncounted p).trans (.keepImages _ _ _)
  · exact (stop.uncounted p).trans (.keepImages _ _ _)

theorem uncounted_saveCores (p : Nat) (l : List Nat) (s : State) : Uncounted p s (l.foldl (saveCore p) s) :=
  List.foldlRecOn l (saveCore p) ((Steady.refl s).uncounted p) fun t h i _ => h.trans (uncounted_saveCore p t i)

theorem part_settleRails (s : State) (p : Nat) : (settleRails s).part p = s.part p := part_congr (settleRails_parts s) p

/-- Every core of a partition saved, its dirty lines at home (steps 2 to 5 of R95). -/
def savedAll (s : State) (p : Nat) : State :=
  (s.part p).allCores.foldl (saveCore p) (saveIrqs (writeBack s p) p)

theorem uncounted_savedAll (s : State) (p : Nat) : Uncounted p s (savedAll s p) :=
  (((steady_writeBack s p).trans (steady_saveIrqs _ p)).uncounted p).trans (uncounted_saveCores p _ _)

/-- A collapse that no round holds back saves the partition's cores; then it is dormant, which is counted and dated. -/
theorem exec_collapseComplete (hp : (s.part s.input.part).present = true) (hc : (s.part s.input.part).dmState = .collapsing)
    (hr : inRound s s.input.part = false) :
    exec .collapseComplete s = .next (settleRails ((savedAll s s.input.part).modPart s.input.part (fun q => { q with
      dmState := .dormant
      collapses := q.collapses + 1
      collapsedAt := (savedAll s s.input.part).clock
      peekPages := q.pages }))) :=
  if_neg (by simp [hp, hc, hr])

/-- What a collapse leaves of its partition: it is dormant, which is counted and dated. -/
theorem part_dormant (h : Uncounted p s t) (f : Partition → List Page) :
    let x := (settleRails (t.modPart p (fun q => { q with
      dmState := .dormant
      collapses := q.collapses + 1
      collapsedAt := t.clock
      peekPages := f q }))).part p
    x.dmState = .dormant ∧ x.collapses = (s.part p).collapses + 1 ∧ x.collapsedAt = s.clock := by
  dsimp only
  rw [part_settleRails, State.part_modPart_same]
  exact ⟨rfl, congrArg (· + 1) h.collapses, h.clock⟩

theorem exec_collapseComplete_idle (h : (s.part s.input.part).dmState ≠ .collapsing ∨ inRound s s.input.part = true) :
    exec .collapseComplete s = .next s :=
  if_pos (by rcases h with h | h <;> simp [h])

/-! ### A wake ends (R101, R102) -/

/-- A core has come back with what the collapse saved of it. -/
def Restored (c img : Core) : Prop :=
  c.im = img.im ∧ c.lm = img.lm ∧ c.acc = img.acc ∧ c.handles = img.handles ∧ c.tagDone = img.tagDone ∧ c.tagBusy = img.tagBusy ∧
  c.issue = img.issue ∧ c.vecQ = img.vecQ ∧ c.matQ = img.matQ ∧ c.copyQ = img.copyQ ∧ c.watch = img.watch ∧
  ∀ k, k < 11 → (c.context k).pc = (img.context k).pc ∧ (c.context k).s = (img.context k).s ∧ (c.context k).v = (img.context k).v ∧
    (c.context k).m = (img.context k).m ∧ (c.context k).x = (img.context k).x ∧ (c.context k).status = (img.context k).status

/-- Between `s` and `t` only core `i` differs among the cores, and of the rest no partition, no held write and no byte of memory. -/
structure Only (i : Nat) (s t : State) : Prop where
  parts : t.parts = s.parts
  held : t.held = s.held
  mem : t.mem = s.mem
  others : ∀ j, j ≠ i → t.core j = s.core j

theorem Only.refl (i : Nat) (s : State) : Only i s s := ⟨rfl, rfl, rfl, fun _ _ => rfl⟩

theorem Only.trans (h : Only i s t) (g : Only i t u) : Only i s u :=
  ⟨g.parts.trans h.parts, g.held.trans h.held, g.mem.trans h.mem, fun j hj => (g.others j hj).trans (h.others j hj)⟩

theorem Only.modCore (i : Nat) (s : State) (f : Core → Core) : Only i s (s.modCore i f) :=
  ⟨rfl, rfl, rfl, fun _ hj => State.core_modCore_ne _ _ hj⟩

/-- A wait that is sent again enters its core's entries, which `Restored` does not speak of. -/
theorem resendWait_restores (s : State) (i k : Nat) (img : Core) :
    Only i s (resendWait s i k) ∧ (Restored (s.core i) img → Restored ((resendWait s i k).core i) img) := by
  unfold resendWait
  split
  · split
    · exact ⟨.refl i s, id⟩
    · refine ⟨.trans (t := { s with nextKey := s.nextKey + 1 }) ⟨rfl, rfl, rfl, fun _ _ => rfl⟩ (.modCore i _ _), ?_⟩
      rw [State.core_modCore_same]
      exact id
  · exact ⟨.refl i s, id⟩

theorem resendWaits_restores (s : State) (i : Nat) (img : Core) :
    Only i s (resendWaits s i) ∧ (Restored (s.core i) img → Restored ((resendWaits s i).core i) img) := by
  refine List.foldlRecOn (motive := fun t => Only i s t ∧ (Restored (s.core i) img → Restored (t.core i) img)) _ _ ⟨.refl i s, id⟩ ?_
  intro t h k _
  obtain ⟨only, keeps⟩ := resendWait_restores t i k img
  exact ⟨h.1.trans only, fun hr => keeps (h.2 hr)⟩

theorem vget_ofFn {α : Type} {n k : Nat} (f : Fin n → α) (d : α) (h : k < n) : vget (Vector.ofFn f) k d = f ⟨k, h⟩ := by
  simp [vget, Vector.getD, h]

/-- A saved core comes back as it was, asleep in `recv` where it was asleep there. -/
theorem wakeCore_restores (s : State) (e : Nat × Core) : Only e.1 s (wakeCore s e) ∧ Restored ((wakeCore s e).core e.1) e.2 := by
  unfold wakeCore
  dsimp only
  obtain ⟨only, keeps⟩ := resendWaits_restores (s.modCore e.1 _) e.1 e.2
  refine ⟨(Only.modCore e.1 s _).trans only, keeps ?_⟩
  rw [State.core_modCore_same]
  refine ⟨rfl, rfl, rfl, rfl, rfl, rfl, rfl, rfl, rfl, rfl, rfl, fun k hk => ?_⟩
  rw [Core.context, vget_ofFn _ _ hk]
  dsimp only
  split
  · exact ⟨rfl, rfl, rfl, rfl, rfl, rfl⟩
  · exact ⟨rfl, rfl, rfl, rfl, rfl, rfl⟩

/-- The cores of a list come back one by one, each as it was saved, and no other core changes. -/
theorem wakeCores_restore (l : Table Core) (hl : l.Pairwise (fun a b => a.1 ≠ b.1)) (s : State) :
    (l.foldl wakeCore s).parts = s.parts ∧ (l.foldl wakeCore s).held = s.held ∧ (l.foldl wakeCore s).mem = s.mem ∧
    (∀ e ∈ l, Restored ((l.foldl wakeCore s).core e.1) e.2) ∧
    (∀ i, (∀ e ∈ l, e.1 ≠ i) → (l.foldl wakeCore s).core i = s.core i) := by
  induction l generalizing s with
  | nil => exact ⟨rfl, rfl, rfl, fun _ h => absurd h (List.not_mem_nil), fun _ _ => rfl⟩
  | cons a l ih =>
    obtain ⟨ha, hl⟩ := List.pairwise_cons.1 hl
    obtain ⟨only, restored⟩ := wakeCore_restores s a
    obtain ⟨parts, held, mem, each, others⟩ := ih hl (wakeCore s a)
    rw [List.foldl_cons]
    refine ⟨parts.trans only.parts, held.trans only.held, mem.trans only.mem, fun e he => ?_, fun i hi => ?_⟩
    · rcases List.mem_cons.1 he with rfl | he
      · rw [others e.1 fun b hb => (ha b hb).symm]
        exact restored
      · exact each e he
    · rw [others i fun b hb => hi b (List.mem_cons_of_mem _ hb),
        only.others i (hi a List.mem_cons_self).symm]

/-- The partition whose cores have come back is awake. -/
def awake (s : State) (p : Nat) : State :=
  settleRails ({ s with awakePcs := s.awakePcs.filter (fun e => !pcHeld (s.part p) e.1) }.modPart p (fun q => { q with
    dmState := .active
    wakes := q.wakes + 1
    idleSince := none
    savedCores := []
    peekPages := [] }))

/-- What is held for a partition is taken from the sentinel. -/
def takeHeld (s : State) (p : Nat) : State := { s with held := s.held.filter (fun h => h.1 != p) }

/-- A wake restores the cores, and then performs what was held for the partition. -/
theorem wakeDone_eq (s : State) (p : Nat) :
    wakeDone s p = ((awake ((s.part p).savedCores.foldl wakeCore s) p).held.filter (fun h => h.1 = p)).foldl
      (fun v h => performHeld v h.2) (takeHeld (awake ((s.part p).savedCores.foldl wakeCore s) p) p) := rfl

/-- The rails are in the dies. -/
theorem settleRails_eq (s : State) : ∃ dies, settleRails s = { s with dies := dies } := by
  refine List.foldlRecOn (motive := fun t : State => ∃ dies, t = { s with dies := dies }) _ _ ⟨s.dies, rfl⟩ ?_
  rintro _ ⟨dies, rfl⟩ d -
  exact ⟨_, rfl⟩

theorem awake_leaves (s : State) (p : Nat) : (awake s p).held = s.held ∧ (awake s p).mem = s.mem ∧ (awake s p).cores = s.cores := by
  unfold awake
  obtain ⟨dies, e⟩ := settleRails_eq ({ s with awakePcs := s.awakePcs.filter (fun e => !pcHeld (s.part p) e.1) }.modPart p
    (fun q => { q with dmState := .active, wakes := q.wakes + 1, idleSince := none, savedCores := [], peekPages := [] }))
  rw [e]
  exact ⟨rfl, rfl, rfl⟩

theorem part_awake (s : State) (p : Nat) : (awake s p).part p = { s.part p with
    dmState := .active
    wakes := (s.part p).wakes + 1
    idleSince := none
    savedCores := []
    peekPages := [] } :=
  (part_settleRails _ p).trans (State.part_modPart_same _ _ _)

theorem takeHeld_cores (s : State) (p : Nat) : (takeHeld s p).cores = s.cores := rfl

theorem takeHeld_held (s : State) (p : Nat) : (takeHeld s p).held = s.held.filter (fun h => h.1 ≠ p) :=
  List.filter_congr fun h _ => by rw [decide_not]; rfl

theorem exec_wakeComplete (hp : (s.part s.input.part).present = true) (hw : (s.part s.input.part).dmState = .waking)
    (hf : failingDies s s.input.part = []) : exec .wakeComplete s = .next (wakeDone s s.input.part) := by
  show execWakeComplete s = _
  simp [execWakeComplete, hp, hw, hf]

theorem exec_wakeComplete_idle (h : (s.part s.input.part).dmState ≠ .waking) : exec .wakeComplete s = .next s :=
  if_pos (by simp [h])

/-! ### The peek path (R104) -/

theorem exec_peekRead {d o : Nat} (hk : paKind s.input.line = .home d o) (hr : refreshing s d o = true)
    (hx : s.dieExcluded d = false) : exec .peekRead s = .next (peekTouch s d o) := by
  show execPeekRead s = _
  simp [execPeekRead, hk, hr, hx]

theorem exec_peekIdle {d o k : Nat} (hk : paKind s.input.line = .home d o) (ht : tfind s.awakePcs (pseudoChannel d o) = some k) :
    exec .peekIdle s = .next (if k + 33000 ≤ s.clock then { s with awakePcs := tdel s.awakePcs (pseudoChannel d o) } else s) := by
  show execPeekIdle s = _
  simp only [execPeekIdle, hk, ht]
  rfl

end

/-- What every end of dormancy does: a wake request, which touches neither memory nor cores. -/
theorem wakes_of_wakeRequest {s : State} {p : Nat} {e : Instr} (h : exec e s = .next (wakeRequest s p)) :
    ∃ t, exec e s = .next t ∧ t.mem = s.mem ∧ t.cores = s.cores ∧
      t.part p = (if (s.part p).dmState = .dormant then { s.part p with dmState := .waking }
        else if (s.part p).dmState = .collapsing then { s.part p with
          dmState := .active
          idleSince := none } else s.part p) := by
  obtain ⟨mem, cores, _⟩ := wakeRequest_leaves s p
  exact ⟨_, h, mem, cores, part_wakeRequest s p⟩

/-- Settles O50: each event acts behind its own guard; a collapse counts once whatever it writes back and stops, and a wake
restores the saved cores one by one before it performs what was held. -/
theorem dormancy : Obligations.Dormancy := by
  intro s i p q wakes
  refine ⟨?account, exec_energyUpdate_early, ?unthrottle, exec_throttleEnd_idle, ?collapse, ?notActive, ?wake, ?timer,
    exec_dmtimerExpiry_off, ?wakeOnly, ?register, fun _ _ hr => exec_collapseComplete_idle (.inr hr), ?collapsed,
    fun hc => exec_collapseComplete_idle (.inl hc), ?woken, exec_wakeComplete_idle, ?peek, ?peekIdle⟩
  case account =>
    intro hp hc
    obtain ⟨u, hu, e⟩ := exec_energyUpdate hp hc
    obtain ⟨account, updated, throttled⟩ := throttleTest_part (u.modPart p (fun q => { q with
      account := nextAccount q (i.amount + (i.shares.map (·.2)).sum)
      updatedAt := q.updatedAt + 3300 })) p
    rw [State.part_modPart_same, part_congr hu] at account updated throttled
    exact ⟨_, e, account, updated, fun hn => throttled (account ▸ hn)⟩
  case unthrottle =>
    intro ht hr
    refine ⟨_, exec_throttleEnd ht hr, ?_⟩
    have e := energy_throttleTrace (s.modPart p (fun q => { q with throttled := false, restored := none })) p 7 p
    rw [State.part_modPart_same] at e
    obtain ⟨_, _, throttled⟩ := energy_eq_iff.1 e
    exact throttled
  case collapse =>
    intro hp ha
    refine ⟨fun h => ?_, fun r h => ?_, fun hd h => ?_, fun hd => exec_dwellExpiry_idle (.inr hd)⟩
    · rw [exec_dmCollapse hp ha, startCollapse_begins h]
    · rw [exec_dmCollapse hp ha, startCollapse_refused h]
    · rw [exec_dwellExpiry hp ha hd, startCollapse_begins h]
  case notActive => exact fun ha => ⟨exec_dmCollapse_idle ha, exec_dwellExpiry_idle (.inl ha)⟩
  case wake => exact wakes_of_wakeRequest rfl
  case timer => exact fun hd ht hc => wakes_of_wakeRequest (exec_dmtimerExpiry hd ht hc)
  case wakeOnly =>
    intro hp ha hw
    refine wakes_of_wakeRequest ((exec_wakeWrite hp ha ?_).trans (if_pos hw))
    rw [show s.input.held = .wakeOnly from hw]
    rfl
  case register =>
    intro vf off v hp hd hw hv hr
    have hw : s.input.held = .vfReg vf off v := hw
    have ho : outsideWrite s p s.input.held = true := by rw [hw]; exact decide_eq_true hv
    have ha : q.dmState ≠ .active := by rw [hd]; decide
    have room : heldTaken s + heldPlaces s s.input.held ≤ 1024 := by rw [hw]; exact hr
    refine ⟨_, (exec_wakeWrite hp ha ho).trans (if_neg (by rw [hw]; simp)), ?_⟩
    rw [writeOrHold_dormant _ hd room]
    obtain ⟨_, _, held⟩ := wakeRequest_leaves { s with held := s.held ++ [(p, s.input.held)] } p
    exact ⟨held, dmState_wakeRequest_dormant hd⟩
  case collapsed =>
    intro hp hc hr
    exact ⟨_, exec_collapseComplete hp hc hr, part_dormant (uncounted_savedAll s p) _⟩
  case woken =>
    intro hp hw hf distinct
    obtain ⟨parts, held, mem, each, others⟩ := wakeCores_restore q.savedCores distinct s
    obtain ⟨held', mem', cores'⟩ := awake_leaves (q.savedCores.foldl wakeCore s) p
    refine ⟨takeHeld (awake (q.savedCores.foldl wakeCore s) p) p, ?_, ?_⟩
    · rw [exec_wakeComplete hp hw hf, wakeDone_eq, held', held]
    · have awoke := part_awake (q.savedCores.foldl wakeCore s) p
      rw [part_congr parts] at awoke
      have same : ∀ k, (takeHeld (awake (q.savedCores.foldl wakeCore s) p) p).core k = (q.savedCores.foldl wakeCore s).core k :=
        core_congr ((takeHeld_cores _ p).trans cores')
      refine ⟨congrArg Partition.dmState awoke, congrArg Partition.wakes awoke, congrArg Partition.savedCores awoke,
        (takeHeld_held _ p).trans (by rw [held', held]), mem'.trans mem, fun e he => ?_, fun k hk => (same k).trans (others k hk)⟩
      show Restored _ _
      rw [same]
      exact each e he
  case peek => exact fun d o => exec_peekRead
  case peekIdle =>
    exact fun d o t hk ht => ⟨fun h => (exec_peekIdle hk ht).trans (next_congr (if_pos h)),
      fun h => (exec_peekIdle hk ht).trans (next_congr (if_neg (Nat.not_le.2 h)))⟩

end Sys2Proof.Machine

namespace Sys2Proof.Machine
/-! # A range in line pieces (R218)

A range is read and written in pieces that cross no line boundary. They lie one after another (`Tiles`), so that what is read or
written piece by piece is what is read or written at once. -/

section

variable {s u : State} {ps : List (Nat × Nat)}

/-- The pieces (offset and length) lie one after another from `a` to `b`, none of them empty. -/
def Tiles : Nat → Nat → List (Nat × Nat) → Prop
  | a, b, [] => a = b
  | a, b, p :: r => p.1 = a ∧ 0 < p.2 ∧ Tiles (a + p.2) b r

theorem Tiles.le {a b : Nat} (h : Tiles a b ps) : a ≤ b := by
  induction ps generalizing a with
  | nil => exact Nat.le_of_eq h
  | cons p r ih =>
    obtain ⟨_, _, hr⟩ := h
    exact Nat.le_trans (Nat.le_add_right _ _) (ih hr)

theorem Tiles.start_le {a b : Nat} (h : Tiles a b ps) : ∀ p ∈ ps, a ≤ p.1 := by
  induction ps generalizing a with
  | nil => simp
  | cons p r ih =>
    obtain ⟨hp, _, hr⟩ := h
    intro q hq
    rcases List.mem_cons.1 hq with rfl | hq
    · exact Nat.le_of_eq hp.symm
    · exact Nat.le_trans (Nat.le_add_right _ _) (ih hr q hq)

/-- No two pieces begin at one offset. -/
theorem Tiles.pairwise {a b : Nat} (h : Tiles a b ps) : ps.Pairwise (fun p q => p.1 < q.1) := by
  induction ps generalizing a with
  | nil => exact List.Pairwise.nil
  | cons p r ih =>
    obtain ⟨hp, h0, hr⟩ := h
    refine List.pairwise_cons.2 ⟨fun q hq => ?_, ih hr⟩
    have := hr.start_le q hq
    omega

theorem lineParts_nothing (k a o : Nat) : lineParts k a o 0 = [] := by
  cases k with
  | zero => rfl
  | succ k => rfl

/-- The fuel of `lineParts` suffices where it counts the lines that the range meets. -/
theorem tiles_lineParts (k a o n : Nat) (h : ((a + o) % 128 + n + 127) / 128 ≤ k) : Tiles o (o + n) (lineParts k a o n) := by
  induction k generalizing o n with
  | zero =>
    obtain rfl : n = 0 := by omega
    exact rfl
  | succ k ih =>
    unfold lineParts
    split
    next h0 => exact h0 ▸ rfl
    next h0 =>
      dsimp only
      by_cases last : n ≤ 128 - (a + o) % 128
      · rw [Nat.min_eq_left last, Nat.sub_self, lineParts_nothing]
        exact ⟨rfl, Nat.pos_of_ne_zero h0, rfl⟩
      · rw [Nat.min_eq_right (Nat.le_of_not_le last)]
        have := ih (o + (128 - (a + o) % 128)) (n - (128 - (a + o) % 128)) (by omega)
        rw [show o + (128 - (a + o) % 128) + (n - (128 - (a + o) % 128)) = o + n by omega] at this
        exact ⟨rfl, by omega, this⟩

theorem tiles_partsOf (pl : Place) (n : Nat) : Tiles 0 n (partsOf pl n) := by
  have h := tiles_lineParts (n / 128 + 2) (placeAddr pl) 0 n (by omega)
  rwa [Nat.zero_add] at h

theorem length_lineParts (k a o n : Nat) : (lineParts k a o n).length ≤ k := by
  induction k generalizing o n with
  | zero => exact Nat.le_refl 0
  | succ k ih =>
    unfold lineParts
    split
    · exact Nat.zero_le _
    · exact Nat.succ_le_succ (ih _ _)

theorem length_partsOf (pl : Place) (n : Nat) : (partsOf pl n).length ≤ n / 128 + 2 := length_lineParts _ _ _ _

theorem partsOf_ne_nil (pl : Place) {n : Nat} (h : 0 < n) : partsOf pl n ≠ [] := by
  intro e
  have t := tiles_partsOf pl n
  rw [e] at t
  exact absurd (t : 0 = n) (Nat.ne_of_lt h)

/-! ### Bytes read and written in pieces -/

theorem Memory.reads_add (m : Bytes) (a n k : Nat) : Memory.reads m a (n + k) = Memory.reads m a n ++ Memory.reads m (a + n) k := by
  simp [Memory.reads, List.range_add, Nat.add_assoc]

theorem Memory.writes_append (m : Bytes) (a : Nat) (l r : List Byte) :
    Memory.writes m a (l ++ r) = Memory.writes (Memory.writes m a l) (a + l.length) r := by
  induction l generalizing m a with
  | nil => rfl
  | cons b l ih =>
    rw [List.cons_append, Memory.writes, ih, Memory.writes, List.length_cons, Nat.add_right_comm, Nat.add_assoc]

theorem Tiles.reads {a b : Nat} (h : Tiles a b ps) (m : Bytes) (x : Nat) :
    ps.flatMap (fun p => Memory.reads m (x + p.1) p.2) = Memory.reads m (x + a) (b - a) := by
  induction ps generalizing a with
  | nil =>
    rw [(h : a = b), Nat.sub_self]
    rfl
  | cons p r ih =>
    obtain ⟨hp, _, hr⟩ := h
    have := hr.le
    rw [List.flatMap_cons, ih hr, hp, show b - a = p.2 + (b - (a + p.2)) by omega, Memory.reads_add, Nat.add_assoc]

/-- A piece and the pieces behind it write what lies from the piece on. -/
theorem writes_drop (m : Bytes) (x : Nat) (bs : List Byte) {a n : Nat} (h : a + n ≤ bs.length) :
    Memory.writes m (x + a) (bs.drop a) = Memory.writes (Memory.writes m (x + a) ((bs.drop a).take n)) (x + (a + n)) (bs.drop (a + n)) := by
  conv => lhs; rw [← List.take_append_drop n (bs.drop a)]
  rw [Memory.writes_append, List.drop_drop, List.length_take, List.length_drop, Nat.min_eq_left (by omega), Nat.add_assoc]

theorem Tiles.writes {a : Nat} {bs : List Byte} (h : Tiles a bs.length ps) (m : Bytes) (x : Nat) :
    ps.foldl (fun m p => Memory.writes m (x + p.1) ((bs.drop p.1).take p.2)) m = Memory.writes m (x + a) (bs.drop a) := by
  induction ps generalizing m a with
  | nil => rw [(h : a = bs.length), List.drop_length]; rfl
  | cons p r ih =>
    obtain ⟨hp, _, hr⟩ := h
    rw [List.foldl_cons, ih hr, hp, ← writes_drop m x bs hr.le]

/-! ### Reads and writes outside the holding caches (R197, R210) -/

theorem heldLine_plain (die : Nat) (pl : Place) : heldLine die false pl = none := by
  unfold heldLine
  split
  · split
    · rfl
    · rfl
  · rfl

theorem lineRoom_plain (s : State) (die : Nat) (pl : Place) (n : Nat) : lineRoom s die false pl n = true := by
  simp [lineRoom, heldLine_plain]

theorem readAs_plain (s : State) (die : Nat) (pl : Place) (n : Nat) : readAs s die false pl n = (readPlace s pl n, s) := by
  simp [readAs, heldLine_plain]

theorem writeAs_plain (s : State) (die : Nat) (pl : Place) (bs : List Byte) (o : Origin) (vec : Bool) :
    writeAs s die false pl bs o vec = writePlace s pl bs := by
  simp [writeAs, heldLine_plain]

/-- A read that no holding copy serves changes nothing. -/
theorem readRange_state {die va n : Nat} {t : Target} {bs : List Byte} (ht : t.handoff = false)
    (h : readRange s die t va n = .ok (bs, u)) : u = s := by
  unfold readRange at h
  revert h
  refine List.foldlRecOn (motive := fun r => ∀ {bs u}, r = Except.ok (bs, u) → u = s) _ _ ?_ (fun r hr p _ => ?_)
  · rintro _ _ ⟨⟩
    rfl
  · intro bs u h
    split at h
    · cases h
    · split at h
      · cases h
      · rw [ht, readAs_plain] at h
        cases h
        exact hr rfl

theorem foldl_reads {f : Except Flt (List Byte × State) → Nat × Nat → Except Flt (List Byte × State)} {g : Nat × Nat → List Byte}
    (h : ∀ got p, f (.ok (got, s)) p = .ok (got ++ g p, s)) (ps : List (Nat × Nat)) (got : List Byte) :
    ps.foldl f (.ok (got, s)) = .ok (got ++ ps.flatMap g, s) := by
  induction ps generalizing got with
  | nil => rw [List.foldl_nil, List.flatMap_nil, List.append_nil]
  | cons p r ih => rw [List.foldl_cons, h, ih, List.flatMap_cons, List.append_assoc]

/-- A core's LM is read whole. -/
theorem readRange_lm (s : State) (die c off va n : Nat) :
    readRange s die { kind := .rc, place := .lm c off, handoff := false, attr := 0 } va n =
      .ok (Memory.reads (s.core c).lm off n, s) := by
  have whole := (tiles_partsOf (.lm c off) n).reads (s.core c).lm off
  unfold readRange
  rw [foldl_reads (g := fun p => Memory.reads (s.core c).lm (off + p.1) p.2), whole]
  · rfl
  · intro got p
    have clean : ¬poisonedAs s die false ((Place.lm c off).add p.1) p.2 = true := by
      simp [poisonedAs, heldLine_plain, Place.add, State.poisoned]
    dsimp only
    rw [if_neg clean, readAs_plain]
    rfl

end
end Sys2Proof.Machine

namespace Sys2Proof.Machine
/-! # `get` of bytes of the core's own LM (R195, R218, R339)

The thread opens one chunk, reads it piece by piece and then writes it piece by piece. `atThread` is the state in which the
thread has come so far, with one rule for each of its units; the two loops put the units together. -/

section

variable {s u : State} {core : Nat} {t t' : NiThread} {c : Chunk} {lm : Bytes} {p : Nat × Nat} {rest : List (Nat × Nat)}

/-! ### What is left of a chunk -/

/-- Of pieces in rising order those that are done fall away. -/
theorem filter_undone {l r : List (Nat × Nat)} (h : (l ++ r).Pairwise (fun p q => p.1 < q.1)) :
    (l ++ r).filter (fun p => !l.any (fun q => q.1 = p.1)) = r := by
  obtain ⟨_, _, hlr⟩ := List.pairwise_append.1 h
  have done : l.filter (fun p => !l.any (fun q => q.1 = p.1)) = [] := by
    refine List.filter_eq_nil_iff.2 fun p hp => ?_
    have : l.any (fun q => q.1 = p.1) = true := List.any_eq_true.2 ⟨p, hp, decide_eq_true rfl⟩
    simp [this]
  have undone : r.filter (fun p => !l.any (fun q => q.1 = p.1)) = r := by
    refine List.filter_eq_self.2 fun p hp => ?_
    have : l.any (fun q => q.1 = p.1) = false := List.any_eq_false.2 fun q hq => by
      have := hlr q hq p hp
      simp only [decide_eq_true_eq]
      omega
    rw [this, Bool.not_false]
  rw [List.filter_append, done, undone, List.nil_append]

/-- The pieces of a range of LM with the bytes that were read of them. -/
def readOf (lm : Bytes) (x : Nat) (ps : List (Nat × Nat)) : List (Nat × List Byte) :=
  ps.map (fun p => (p.1, Memory.reads lm (x + p.1) p.2))

theorem toRead_of_readOf {x : Nat} {done rest : List (Nat × Nat)} (h : partsOf c.src c.len = done ++ rest)
    (hg : c.got = readOf lm x done) : c.toRead = rest := by
  have e : c.toRead = (done ++ rest).filter (fun p => !done.any (fun q => q.1 = p.1)) := by
    rw [Chunk.toRead, h, hg]
    simp only [readOf, List.any_map]
    rfl
  rw [e]
  exact filter_undone (h ▸ (tiles_partsOf c.src c.len).pairwise)

theorem toWrite_of_put {done rest : List (Nat × Nat)} (h : partsOf c.dst c.len = done ++ rest) (hp : c.put = done.map (·.1)) :
    c.toWrite = rest := by
  have e : c.toWrite = (done ++ rest).filter (fun p => !done.any (fun q => q.1 = p.1)) := by
    rw [Chunk.toWrite, h, hp]
    refine List.filter_congr fun p _ => ?_
    rw [List.contains_eq_any_beq, List.any_map]
    congr 1
    exact List.any_congr rfl fun q => decide_eq_decide.2 eq_comm
  rw [e]
  exact filter_undone (h ▸ (tiles_partsOf c.dst c.len).pairwise)

theorem find?_readOf {x : Nat} {ps : List (Nat × Nat)} (h : ps.Pairwise (fun p q => p.1 < q.1)) (hp : p ∈ ps) :
    (readOf lm x ps).find? (fun g => g.1 = p.1) = some (p.1, Memory.reads lm (x + p.1) p.2) := by
  induction ps with
  | nil => cases hp
  | cons q r ih =>
    obtain ⟨hq, hr⟩ := List.pairwise_cons.1 h
    rw [readOf, List.map_cons, List.find?_cons]
    rcases List.mem_cons.1 hp with rfl | hp
    · simp
    · have : ¬q.1 = p.1 := Nat.ne_of_lt (hq p hp)
      simp only [this, decide_false]
      exact ih hr hp

/-- A chunk that has been read whole holds the bytes of its source. -/
theorem bytes_of_readOf {x : Nat} (hg : c.got = readOf lm x (partsOf c.src c.len)) : c.bytes = Memory.reads lm x c.len := by
  have each : c.bytes = (partsOf c.src c.len).flatMap (fun p => Memory.reads lm (x + p.1) p.2) := by
    rw [Chunk.bytes, hg]
    refine List.flatMap_congr fun p hp => ?_
    rw [find?_readOf (tiles_partsOf c.src c.len).pairwise hp]
    rfl
  rw [each, (tiles_partsOf c.src c.len).reads, Nat.add_zero, Nat.sub_zero]

/-! ### The first allowed move of one chunk -/

theorem chunkMoves_read (h : c.toRead = p :: rest) :
    (chunkMoves [] 0 [c])[0]? = some { k := 0, write := false, off := p.1, len := p.2 } := by
  simp [chunkMoves, h]

theorem chunkMoves_write (hr : c.toRead = []) (hw : c.toWrite = p :: rest) :
    (chunkMoves [] 0 [c])[0]? = some { k := 0, write := true, off := p.1, len := p.2 } := by
  simp [chunkMoves, hr, hw]

theorem niPort_read_lm (core key : Nat) (o : Origin) (u : State) (c off va n : Nat) :
    (niPort core key o).read u (.lm c off) false va n = (u, some (.ok (Memory.reads (u.core c).lm off n))) := by
  show (diePort (dieOf core) o).read u (.lm c off) false va n = _
  unfold diePort
  dsimp only
  rw [lineRoom_plain, readRange_lm]
  rfl

theorem niPort_write_lm (core key : Nat) (o : Origin) (u : State) (c off va : Nat) (bs : List Byte) (run : Cover) :
    (niPort core key o).write u (.lm c off) false va bs run =
      (u.modCore c (fun k => { k with lm := Memory.writes k.lm off bs }), some (.ok run)) := by
  show (diePort (dieOf core) o).write u (.lm c off) false va bs run = _
  simp [diePort, lineRoom_plain, writePiece, writeAs_plain, writePlace]

/-! ### The thread in its state -/

/-- The thread has come to `t`, and the core's LM to `lm`. -/
def atThread (s : State) (core : Nat) (t : NiThread) (lm : Bytes) : State :=
  s.modCore core (fun c => { c with ni := c.ni.map (fun x => if x.id = t.id then t else x), lm := lm })

theorem setThread_eq (s : State) (core : Nat) (t : NiThread) : setThread s core t = atThread s core t (s.core core).lm := rfl

theorem atThread_lm (s : State) (core : Nat) (t : NiThread) (lm : Bytes) : ((atThread s core t lm).core core).lm = lm := by
  rw [atThread, State.core_modCore_same]

theorem map_replace_replace (l : List NiThread) (h : t'.id = t.id) :
    (l.map (fun x => if x.id = t.id then t else x)).map (fun x => if x.id = t'.id then t' else x) =
      l.map (fun x => if x.id = t'.id then t' else x) := by
  rw [List.map_map]
  refine List.map_congr_left fun x _ => ?_
  by_cases hx : x.id = t.id
  · simp [hx, h]
  · simp [hx, h]

/-- Of two steps of the thread the second stands. -/
theorem atThread_atThread (s : State) (core : Nat) (lm lm' : Bytes) (h : t'.id = t.id) :
    atThread (atThread s core t lm) core t' lm' = atThread s core t' lm' := by
  simp only [atThread, State.modCore_modCore, map_replace_replace _ h]

theorem setThread_atThread (s : State) (core : Nat) (lm : Bytes) (h : t'.id = t.id) :
    setThread (atThread s core t lm) core t' = atThread s core t' lm := by
  rw [setThread_eq, atThread_lm, atThread_atThread s core lm lm h]

/-- The thread stands among the core's threads, and is the first of its key. -/
def HasThread (s : State) (core : Nat) (t : NiThread) : Prop := (s.core core).ni.find? (fun x => x.id = t.id) = some t

theorem hasThread_atThread {t₀ : NiThread} (h : HasThread s core t₀) (ht : t.id = t₀.id) (lm : Bytes) :
    HasThread (atThread s core t lm) core t := by
  have keyed : (fun x => decide (x.id = t.id)) ∘ (fun x : NiThread => if x.id = t.id then t else x) = fun x => decide (x.id = t₀.id) := by
    funext x
    by_cases hx : x.id = t.id
    · simp [hx, ht]
    · simp [hx, ht ▸ hx]
  rw [HasThread, atThread, State.core_modCore_same, List.find?_map, keyed, (h : _ = some t₀), Option.map_some, if_pos ht.symm]

/-! ### The units of the thread -/

/-- The one chunk of the thread, with the pieces that have been read and written. -/
def getChunk (core : Nat) (t : NiThread) (got : List (Nat × List Byte)) (put : List Nat) : Chunk where
  row := 0
  off := 0
  src := .lm core t.addr.toNat
  srcHandoff := false
  srcVa := t.addr.toNat
  dst := .lm core t.lmOff
  dstHandoff := false
  dstVa := t.addr.toNat
  len := t.len
  got := got
  put := put

/-- The thread with that chunk under way. -/
def getting (core : Nat) (t : NiThread) (got : List (Nat × List Byte)) (put : List Nat) : NiThread :=
  { t with
    started := true
    chunks := [getChunk core t got put]
    next := t.len }

/-- The thread with its chunk done. -/
def gotten (t : NiThread) : NiThread :=
  { t with
    started := true
    chunks := []
    next := t.len }

theorem niStart_started (hs : t.started = true) : niStart s core t = s := if_pos hs

theorem niReady_started (hs : t.started = true) : niReady s core t = true := by
  rw [niReady, hs, Bool.true_or]

theorem niUnit_more {r : NiStep} (hk : t.kind = .get) (h : niChunk (niStart s core t) core { t with started := true } 0 = r)
    (ho : r.out = .more) : niUnit s core t 0 = (setThread r.state core r.thread, false) := by
  unfold niUnit
  dsimp only
  rw [h]
  simp only [hk, ho]

theorem niUnit_all {r : NiStep} (hk : t.kind = .get) (h : niChunk (niStart s core t) core { t with started := true } 0 = r)
    (ho : r.out = .all) : niUnit s core t 0 = (niEnd r.state core r.thread none, true) := by
  unfold niUnit
  dsimp only
  rw [h]
  simp only [hk, ho]

theorem niUnits_succ {n : Nat} (h : HasThread s core t) (hr : niReady s core t = true) :
    niUnits (n + 1) s core t.id =
      if (niUnit s core t 0).2 then (niUnit s core t 0).1 else niUnits n (niUnit s core t 0).1 core t.id := by
  rw [niUnits, (h : _ = some t)]
  simp [hr]

theorem niChunk_move {m : ChunkMove} {ch : Chunks} (hm : (chunkMoves [] 0 t.chunks)[0]? = some m)
    (h : t.openChunks.move (niPort core t.id (.thread (core * 16 + t.ctx) (some t.tag))) s m = (u, ch)) :
    niChunk s core t 0 = { state := u, thread := t.setChunks ch, out := ch.out (t.setChunks ch).more } := by
  unfold niChunk
  simp only [hm, h]
  rfl

theorem setChunk_undone (h : c.done = false) (c₀ : Chunk) : setChunk [c₀] 0 c = [c] := by
  rw [setChunk, h]
  rfl

theorem setChunk_done (h : c.done = true) (c₀ : Chunk) : setChunk [c₀] 0 c = [] := by
  rw [setChunk, h]
  rfl

/-- A piece of the chunk is read. -/
theorem move_read {key : Nat} {o : Origin} {got : List (Nat × List Byte)} {run : Cover} (k : Nat × Nat)
    (hd : (getChunk core t (got ++ [(k.1, Memory.reads (s.core core).lm (t.addr.toNat + k.1) k.2)]) []).done = false) :
    Chunks.move (niPort core key o) s { opened := [getChunk core t got []], failed := none, run := run }
      { k := 0, write := false, off := k.1, len := k.2 } =
    (s, { opened := [getChunk core t (got ++ [(k.1, Memory.reads (s.core core).lm (t.addr.toNat + k.1) k.2)]) []]
          failed := none
          run := run }) := by
  have read := niPort_read_lm core key o s core (t.addr.toNat + k.1) (t.addr.toNat + k.1) k.2
  unfold Chunks.move
  simp only [List.getElem?_cons_zero, Bool.false_eq_true, if_false]
  rw [show (niPort core key o).read s ((getChunk core t got []).src.add k.1) (getChunk core t got []).srcHandoff
    ((getChunk core t got []).srcVa + k.1) k.2 = _ from read]
  exact congrArg (fun l => (s, ({ opened := l, failed := none, run := run } : Chunks))) (setChunk_undone hd _)

/-- A piece of the chunk is written. -/
theorem move_write {key : Nat} {o : Origin} {got : List (Nat × List Byte)} {put : List Nat} {run : Cover} {l : List Chunk}
    (k : Nat × Nat) (hl : setChunk [getChunk core t got put] 0 (getChunk core t got (put ++ [k.1])) = l) :
    Chunks.move (niPort core key o) s { opened := [getChunk core t got put], failed := none, run := run }
      { k := 0, write := true, off := k.1, len := k.2 } =
    (s.modCore core (fun c => { c with
        lm := Memory.writes c.lm (t.lmOff + k.1) (((getChunk core t got put).bytes.drop k.1).take k.2) }),
      { opened := l, failed := none, run := run }) := by
  have write := niPort_write_lm core key o s core (t.lmOff + k.1) (t.addr.toNat + k.1)
    (((getChunk core t got put).bytes.drop k.1).take k.2) run
  unfold Chunks.move
  simp only [List.getElem?_cons_zero, if_true]
  rw [show (niPort core key o).write s ((getChunk core t got put).dst.add k.1) (getChunk core t got put).dstHandoff
    ((getChunk core t got put).dstVa + k.1) (((getChunk core t got put).bytes.drop k.1).take k.2) run = _ from write]
  exact congrArg (fun l => (_, ({ opened := l, failed := none, run := run } : Chunks))) hl

theorem getChunk_undone {got : List (Nat × List Byte)} (hl : 0 < t.len) : (getChunk core t got []).done = false := by
  have left : (getChunk core t got []).toWrite = partsOf (.lm core t.lmOff) t.len := toWrite_of_put (done := []) rfl rfl
  obtain ⟨p, r, h⟩ := List.exists_cons_of_ne_nil (partsOf_ne_nil (.lm core t.lmOff) hl)
  rw [Chunk.done, left, h, List.isEmpty_cons, Bool.and_false]

theorem openChunks_getting {got : List (Nat × List Byte)} {put : List Nat} (hf : t.failed = none) :
    (getting core t got put).openChunks = { opened := [getChunk core t got put], failed := none, run := t.run } := by
  rw [← hf]
  rfl

/-- A unit while pieces are left to read. -/
theorem niChunk_read {got : List (Nat × List Byte)} (hf : t.failed = none) (hl : 0 < t.len)
    (hr : (getChunk core t got []).toRead = p :: rest) : niChunk s core (getting core t got []) 0 =
      { state := s
        thread := getting core t (got ++ [(p.1, Memory.reads (s.core core).lm (t.addr.toNat + p.1) p.2)]) []
        out := .more } := by
  rw [niChunk_move (t := getting core t got []) (chunkMoves_read hr)
    ((congrArg (Chunks.move _ s · _) (openChunks_getting hf)).trans (move_read p (getChunk_undone hl)))]
  simp [NiThread.setChunks, getting, Chunks.out, hf]

/-- A unit while pieces are left to write. -/
theorem niChunk_write {got : List (Nat × List Byte)} {put : List Nat} (hf : t.failed = none)
    (hr : (getChunk core t got put).toRead = []) (hw : (getChunk core t got put).toWrite = p :: rest)
    (hd : (getChunk core t got (put ++ [p.1])).done = false) : niChunk s core (getting core t got put) 0 =
      { state := s.modCore core (fun c => { c with
          lm := Memory.writes c.lm (t.lmOff + p.1) (((getChunk core t got put).bytes.drop p.1).take p.2) })
        thread := getting core t got (put ++ [p.1])
        out := .more } := by
  rw [niChunk_move (t := getting core t got put) (chunkMoves_write hr hw)
    ((congrArg (Chunks.move _ s · _) (openChunks_getting hf)).trans (move_write p (setChunk_undone hd _)))]
  simp [NiThread.setChunks, getting, Chunks.out, hf]

/-- The unit that writes the last piece. -/
theorem niChunk_last {got : List (Nat × List Byte)} {put : List Nat} (hf : t.failed = none)
    (hr : (getChunk core t got put).toRead = []) (hw : (getChunk core t got put).toWrite = p :: rest)
    (hd : (getChunk core t got (put ++ [p.1])).done = true) : niChunk s core (getting core t got put) 0 =
      { state := s.modCore core (fun c => { c with
          lm := Memory.writes c.lm (t.lmOff + p.1) (((getChunk core t got put).bytes.drop p.1).take p.2) })
        thread := gotten t
        out := .all } := by
  rw [niChunk_move (t := getting core t got put) (chunkMoves_write hr hw)
    ((congrArg (Chunks.move _ s · _) (openChunks_getting hf)).trans (move_write p (setChunk_done hd _)))]
  simp [NiThread.setChunks, getting, gotten, Chunks.out, NiThread.more, hf]

end
end Sys2Proof.Machine

namespace Sys2Proof.Machine
/-! # The thread of a `get` from its beginning to its end -/

section

variable {s : State} {core : Nat} {t : NiThread} {lm : Bytes}

/-- What the proof of the loops needs of the thread. -/
structure LocalGet (core : Nat) (t : NiThread) : Prop where
  kind : t.kind = .get
  failed : t.failed = none
  pos : 0 < t.len

/-! ### Opening the chunk (R194, R339) -/

theorem checkAcc_ownLm (s : State) (core w : Nat) {va : Nat} (h : va < 0x60000) :
    checkAcc s core (.chunkRead true) va w = .ok { kind := .rc, place := .lm core va, handoff := false, attr := 0 } := by
  have own : localPlace core va = some (core, va) := if_pos h
  have gang : s.sameGang core core = true := by simp [State.sameGang]
  unfold checkAcc
  simp only [Bool.false_eq_true, if_false]
  rw [if_pos (by omega), own]
  simp [gang, AccClass.isCounter]

theorem niOpen_local (hk : t.kind = .get) (hf : t.fabric = none) (hn : t.next = 0) (hc : t.chunks = [])
    (hp : t.len ≤ 4096 - t.addr.toNat % 4096) (ha : t.addr.toNat < 0x60000) :
    niOpen s core { t with started := true } = getting core t [] [] := by
  have whole : ({ t with started := true } : NiThread).chunk = t.len := by
    simp only [NiThread.chunk, hn, Nat.sub_zero, Nat.add_zero]
    exact Nat.min_eq_left hp
  have place : niTarget s core { t with started := true } = .ok (.lm core t.addr.toNat) := by
    simp only [niTarget, hf, hk, hn, Nat.add_zero, if_true, checkAcc_ownLm s core _ ha]
  unfold niOpen
  rw [place, whole]
  simp only [hk, hn, hc, getting, getChunk, if_true, Nat.add_zero, Nat.zero_add, List.nil_append]

/-- A thread with no chunk open opens its next one. -/
theorem niChunk_opens {t' : NiThread} (hc : t.chunks = []) (hm : t.more = true) (ho : niOpen s core t = t') :
    niChunk s core t 0 = { state := s, thread := t', out := t'.openChunks.out t'.more } := by
  unfold niChunk
  simp only [hc, chunkMoves, List.getElem?_nil, hm, if_true, ho]

/-- Whether it has started or starts now. -/
theorem setThread_niStart {t' : NiThread} (hk : t.kind = .get) (hi : t'.id = t.id) :
    setThread (niStart s core t) core t' = atThread s core t' (s.core core).lm := by
  by_cases hs : t.started = true
  · rw [niStart_started hs, setThread_eq]
  · have starts : niStart s core t = atThread s core { t with started := true } (s.core core).lm := by
      rw [niStart, if_neg hs, hk]
      exact setThread_eq s core _
    rw [starts]
    exact setThread_atThread s core _ hi

theorem niUnit_open (h : LocalGet core t) (hf : t.fabric = none) (hn : t.next = 0) (hc : t.chunks = [])
    (hp : t.len ≤ 4096 - t.addr.toNat % 4096) (ha : t.addr.toNat < 0x60000) :
    niUnit s core t 0 = (atThread s core (getting core t [] []) (s.core core).lm, false) := by
  have more : ({ t with started := true } : NiThread).more = true := by simp [NiThread.more, hn, h.pos, h.failed]
  rw [niUnit_more h.kind (niChunk_opens hc more (niOpen_local h.kind hf hn hc hp ha)) rfl]
  exact congrArg (·, false) (setThread_niStart h.kind rfl)

/-- At the head of the queue, with its context's accesses performed and a slot free, a thread may start. -/
theorem niReady_head (hs : t.started = true ∨ (s.core core).ni.find? (fun x => !x.started) = some t)
    (ha : ∀ e ∈ (s.core core).accs, e.ctx ≠ t.ctx) (hr : ((s.core core).ni.filter (fun x => x.started)).length < 16) :
    niReady s core t = true := by
  rcases hs with hs | hs
  · exact niReady_started hs
  · simp [niReady, niHead, hs, forkReady_of_no_access ha, niSlots, hr]

/-! ### The two loops -/

variable {p : Nat × Nat} {done rest : List (Nat × Nat)} {n : Nat}

/-- The pieces with what has been read of them, out of an LM. -/
def readSoFar (core : Nat) (t : NiThread) (lm : Bytes) (ps : List (Nat × Nat)) : NiThread :=
  getting core t (readOf lm t.addr.toNat ps) []

theorem niUnit_read (h : LocalGet core t) (hp : partsOf (.lm core t.addr.toNat) t.len = done ++ p :: rest) :
    niUnit (atThread s core (readSoFar core t lm done) lm) core (readSoFar core t lm done) 0 =
      (atThread s core (readSoFar core t lm (done ++ [p])) lm, false) := by
  have left : (getChunk core t (readOf lm t.addr.toNat done) []).toRead = p :: rest := toRead_of_readOf hp rfl
  have read := niChunk_read (s := atThread s core (readSoFar core t lm done) lm) h.failed h.pos left
  rw [atThread_lm] at read
  have got : readOf lm t.addr.toNat done ++ [(p.1, Memory.reads lm (t.addr.toNat + p.1) p.2)] = readOf lm t.addr.toNat (done ++ [p]) := by
    rw [readOf, readOf, List.map_append, List.map_singleton]
  rw [got] at read
  rw [niUnit_more (t := readSoFar core t lm done) h.kind ((congrArg (niChunk · core _ 0) (niStart_started rfl)).trans read) rfl]
  exact congrArg (·, false) (setThread_atThread s core lm rfl)

/-- The chunk is read whole, in as many units as it has pieces. -/
theorem niUnits_read (h : LocalGet core t) (ht : HasThread s core t) (hp : partsOf (.lm core t.addr.toNat) t.len = done ++ rest) :
    niUnits (n + rest.length) (atThread s core (readSoFar core t lm done) lm) core t.id =
      niUnits n (atThread s core (readSoFar core t lm (done ++ rest)) lm) core t.id := by
  induction rest generalizing done with
  | nil => rw [List.append_nil, List.length_nil, Nat.add_zero]
  | cons p rest ih =>
    have here := hasThread_atThread (t := readSoFar core t lm done) ht rfl lm
    have unit := niUnits_succ (n := n + rest.length) here (niReady_started rfl)
    rw [niUnit_read h hp] at unit
    rw [List.length_cons, ← Nat.add_assoc]
    refine unit.trans ?_
    rw [if_neg Bool.false_ne_true, show (readSoFar core t lm done).id = t.id from rfl]
    rw [ih (done := done ++ [p]) (by rw [hp, List.append_assoc]; rfl), List.append_assoc]
    rfl

/-- The chunk, read whole out of an LM, with the pieces that have been written. -/
def wholeChunk (core : Nat) (t : NiThread) (lm : Bytes) (ps : List (Nat × Nat)) : Chunk :=
  getChunk core t (readOf lm t.addr.toNat (partsOf (.lm core t.addr.toNat) t.len)) (ps.map (·.1))

/-- The thread with that chunk under way. -/
def writtenSoFar (core : Nat) (t : NiThread) (lm : Bytes) (ps : List (Nat × Nat)) : NiThread :=
  getting core t (readOf lm t.addr.toNat (partsOf (.lm core t.addr.toNat) t.len)) (ps.map (·.1))

theorem toRead_wholeChunk : (wholeChunk core t lm done).toRead = [] := toRead_of_readOf (List.append_nil _).symm rfl

theorem toWrite_wholeChunk (hp : partsOf (.lm core t.lmOff) t.len = done ++ rest) : (wholeChunk core t lm done).toWrite = rest :=
  toWrite_of_put hp rfl

theorem bytes_wholeChunk : (wholeChunk core t lm done).bytes = Memory.reads lm t.addr.toNat t.len := bytes_of_readOf rfl

theorem done_wholeChunk (hp : partsOf (.lm core t.lmOff) t.len = done ++ p :: rest) :
    (wholeChunk core t lm (done ++ [p])).done = rest.isEmpty := by
  rw [Chunk.done, toRead_wholeChunk, toWrite_wholeChunk (rest := rest) (by rw [hp, List.append_assoc]; rfl)]
  rfl

/-- An LM with a piece of the bytes that were read written to it. -/
def putPiece (t : NiThread) (lm m : Bytes) (p : Nat × Nat) : Bytes :=
  Memory.writes m (t.lmOff + p.1) (((Memory.reads lm t.addr.toNat t.len).drop p.1).take p.2)

/-- The thread has ended, and the core's LM is `m`. -/
def getDone (s : State) (core : Nat) (t : NiThread) (m : Bytes) : State :=
  endTag ((dropSends s core t.id).modCore core (fun c => { c with ni := c.ni.filter (fun x => x.id != t.id), lm := m })) core t.tag false

theorem modCore_atThread {t' : NiThread} (m : Bytes) (f : Bytes → Bytes) :
    (atThread s core t' m).modCore core (fun c => { c with lm := f c.lm }) = atThread s core t' (f m) := by
  rw [atThread, State.modCore_modCore, atThread]

theorem filter_replaced (l : List NiThread) (t : NiThread) :
    (l.map (fun x => if x.id = t.id then t else x)).filter (fun x => x.id != t.id) = l.filter (fun x => x.id != t.id) := by
  induction l with
  | nil => rfl
  | cons x l ih =>
    by_cases hx : x.id = t.id
    · simp [hx, ih]
    · simp [hx, ih]

theorem niEnd_atThread {t' u : NiThread} (m : Bytes) (hi : t'.id = t.id) (hu : u.id = t.id) (ht : u.tag = t.tag) :
    niEnd (atThread s core t' m) core u none = getDone s core t m := by
  have sends : dropSends (atThread s core t' m) core t.id = atThread (dropSends s core t.id) core t' m := rfl
  simp only [niEnd, hu, ht, sends]
  rw [atThread, State.modCore_modCore, getDone, ← hi]
  simp only [filter_replaced]

/-- Where a unit has written a piece. -/
theorem modCore_wrote (m : Bytes) : (atThread s core (writtenSoFar core t lm done) m).modCore core (fun c => { c with
      lm := Memory.writes c.lm (t.lmOff + p.1) (((wholeChunk core t lm done).bytes.drop p.1).take p.2) }) =
    atThread s core (writtenSoFar core t lm done) (putPiece t lm m p) := by
  rw [bytes_wholeChunk]
  exact modCore_atThread m (fun l => putPiece t lm l p)

theorem niUnit_write (h : LocalGet core t) (m : Bytes) (hp : partsOf (.lm core t.lmOff) t.len = done ++ p :: rest) (hr : rest ≠ []) :
    niUnit (atThread s core (writtenSoFar core t lm done) m) core (writtenSoFar core t lm done) 0 =
      (atThread s core (writtenSoFar core t lm (done ++ [p])) (putPiece t lm m p), false) := by
  have put : done.map (·.1) ++ [p.1] = (done ++ [p]).map (·.1) := by rw [List.map_append, List.map_singleton]
  have more := (done_wholeChunk (lm := lm) hp).trans (List.isEmpty_eq_false_iff.2 hr)
  have write := niChunk_write (s := atThread s core (writtenSoFar core t lm done) m) h.failed toRead_wholeChunk
    (toWrite_wholeChunk (lm := lm) hp) (put ▸ more)
  rw [put] at write
  rw [niUnit_more (t := writtenSoFar core t lm done) h.kind ((congrArg (niChunk · core _ 0) (niStart_started rfl)).trans write) rfl]
  refine congrArg (·, false) ((congrArg (setThread · core _) (modCore_wrote m)).trans ?_)
  exact setThread_atThread s core _ rfl

/-- The last piece is written, and the thread ends. -/
theorem niUnit_last (h : LocalGet core t) (m : Bytes) (hp : partsOf (.lm core t.lmOff) t.len = done ++ [p]) :
    niUnit (atThread s core (writtenSoFar core t lm done) m) core (writtenSoFar core t lm done) 0 =
      (getDone s core t (putPiece t lm m p), true) := by
  have put : done.map (·.1) ++ [p.1] = (done ++ [p]).map (·.1) := by rw [List.map_append, List.map_singleton]
  have write := niChunk_last (s := atThread s core (writtenSoFar core t lm done) m) h.failed toRead_wholeChunk
    (toWrite_wholeChunk (lm := lm) hp) (put ▸ done_wholeChunk (lm := lm) hp)
  rw [niUnit_all (t := writtenSoFar core t lm done) h.kind ((congrArg (niChunk · core _ 0) (niStart_started rfl)).trans write) rfl]
  refine congrArg (·, true) ((congrArg (niEnd · core _ none) (modCore_wrote m)).trans ?_)
  exact niEnd_atThread _ rfl rfl rfl

/-- The chunk is written whole, in as many units as it has pieces, and the thread ends. -/
theorem niUnits_write (h : LocalGet core t) (ht : HasThread s core t) (m : Bytes)
    (hp : partsOf (.lm core t.lmOff) t.len = done ++ rest) (hr : rest ≠ []) :
    niUnits (n + rest.length) (atThread s core (writtenSoFar core t lm done) m) core t.id =
      getDone s core t (rest.foldl (putPiece t lm) m) := by
  induction rest generalizing done m with
  | nil => exact absurd rfl hr
  | cons p rest ih =>
    have here := hasThread_atThread (t := writtenSoFar core t lm done) ht rfl m
    have unit := niUnits_succ (n := n + rest.length) here (niReady_started rfl)
    rw [List.length_cons, ← Nat.add_assoc, List.foldl_cons]
    refine unit.trans ?_
    by_cases last : rest = []
    · subst last
      rw [niUnit_last h m hp, if_pos rfl]
      rfl
    · rw [niUnit_write h m hp last, if_neg Bool.false_ne_true, show (writtenSoFar core t lm done).id = t.id from rfl]
      exact ih (done := done ++ [p]) (putPiece t lm m p) (by rw [hp, List.append_assoc]; rfl) last

/-! ### From the beginning to the end -/

theorem putPieces (t : NiThread) (lm : Bytes) : (partsOf (.lm core t.lmOff) t.len).foldl (putPiece t lm) lm =
    Memory.writes lm t.lmOff (Memory.reads lm t.addr.toNat t.len) := by
  have len : (Memory.reads lm t.addr.toNat t.len).length = t.len := by simp [Memory.reads]
  have tiles := tiles_partsOf (.lm core t.lmOff) t.len
  rw [← len] at tiles
  have := tiles.writes lm t.lmOff
  rw [len] at this
  exact this

/-- A `get` that may start and whose bytes lie in one 4 KiB page of the core's own LM moves them, and ends. -/
theorem exec_get (h : LocalGet s.input.core t) (ht : (s.core s.input.core).ni.find? (fun x => x.id = s.input.key) = some t)
    (hf : t.fabric = none) (hn : t.next = 0) (hc : t.chunks = []) (hr : niReady s s.input.core t = true)
    (hp : t.len ≤ 4096 - t.addr.toNat % 4096) (ha : t.addr.toNat < 0x60000) :
    exec .niThreadEnd s = .next (getDone s s.input.core t (Memory.writes (s.core s.input.core).lm t.lmOff
      (Memory.reads (s.core s.input.core).lm t.addr.toNat t.len))) := by
  have key : t.id = s.input.key := by simpa using List.find?_some ht
  have has : HasThread s s.input.core t := by rw [HasThread, key, ht]
  have start : exec .niThreadEnd s = .next (niUnits 200 s s.input.core t.id) := by
    show execNiThreadEnd s = _
    rw [key]
    simp [execNiThreadEnd, ht, hf]
  have lr := length_partsOf (.lm s.input.core t.addr.toNat) t.len
  have lw := length_partsOf (.lm s.input.core t.lmOff) t.len
  obtain ⟨n, fuel⟩ : ∃ n, 200 = (n + (partsOf (.lm s.input.core t.lmOff) t.len).length +
      (partsOf (.lm s.input.core t.addr.toNat) t.len).length) + 1 :=
    ⟨199 - (partsOf (.lm s.input.core t.lmOff) t.len).length - (partsOf (.lm s.input.core t.addr.toNat) t.len).length, by omega⟩
  rw [start, fuel, niUnits_succ has hr, niUnit_open h hf hn hc hp ha, if_neg Bool.false_ne_true]
  refine next_congr ((niUnits_read (done := []) h has (List.nil_append _).symm).trans ?_)
  refine (niUnits_write (done := []) h has _ (List.nil_append _).symm (partsOf_ne_nil _ h.pos)).trans ?_
  rw [putPieces]

/-! ### What the end of the thread leaves -/

theorem tget_map_rel {α : Type} {R : α → α → Prop} {f : Nat × α → Nat × α} {d : α} (hk : ∀ e, (f e).1 = e.1)
    (hr : ∀ e, R e.2 (f e).2) (hd : R d d) (l : Table α) (k : Nat) : R (tget l k d) (tget (l.map f) k d) := by
  induction l with
  | nil => exact hd
  | cons e r ih =>
    have key := hk e
    have val := hr e
    obtain ⟨j, a⟩ := e
    rw [List.map_cons]
    generalize f (j, a) = e' at key val
    obtain ⟨j', a'⟩ := e'
    obtain rfl : j' = j := key
    by_cases h : j' = k
    · simpa [tget, tfind, h] using val
    · simpa [tget, tfind, h] using ih

/-- A core as an event of `wfe` leaves it: its contexts and the cycle of its last event apart. -/
def Woken (c c' : Core) : Prop := ∃ at' ctx, c' = { c with
  eventAt := at'
  ctx := ctx }

theorem Woken.refl (c : Core) : Woken c c := ⟨c.eventAt, c.ctx, rfl⟩

theorem woken_wfeEvent (s : State) (sel : Nat → Bool) (i : Nat) : Woken (s.core i) ((wfeEvent s sel).core i) := by
  refine tget_map_rel (fun e => ?_) (fun e => ?_) (Woken.refl _) s.cores i
  · split
    · rfl
    · rfl
  · split
    · exact ⟨_, _, rfl⟩
    · exact Woken.refl _

theorem core_getDone (s : State) (core : Nat) (t : NiThread) (m : Bytes) :
    ((getDone s core t m).core core).lm = m ∧
    ((getDone s core t m).core core).ni = (s.core core).ni.filter (fun x => x.id ≠ t.id) ∧
    ((getDone s core t m).core core).tagDone = (s.core core).tagDone ||| 1#64 <<< t.tag ∧
    ((getDone s core t m).core core).tagBusy = (s.core core).tagBusy &&& ~~~(1#64 <<< t.tag) ∧
    (getDone s core t m).mem = s.mem := by
  have others : (s.core core).ni.filter (fun x => x.id != t.id) = (s.core core).ni.filter (fun x => x.id ≠ t.id) :=
    List.filter_congr fun x _ => by rw [Bool.eq_iff_iff, bne_iff_ne, decide_eq_true_iff]
  unfold getDone endTag
  dsimp only
  obtain ⟨at', ctx, h⟩ := woken_wfeEvent _ (· == core) core
  rw [h, State.core_modCore_same, State.core_modCore_same]
  exact ⟨rfl, others, rfl, rfl, rfl⟩

end

/-- R195, R339. -/
theorem get_ownLm (s : State) (t : NiThread) (h : LocalGet s.input.core t) (hg : t.tag < 64)
    (ht : (s.core s.input.core).ni.find? (fun x => x.id = s.input.key) = some t)
    (hf : t.fabric = none) (hn : t.next = 0) (hc : t.chunks = []) (hr : niReady s s.input.core t = true)
    (hp : t.len ≤ 4096 - t.addr.toNat % 4096) (ha : t.addr.toNat < 0x60000) :
    ∃ u, exec .niThreadEnd s = .next u ∧
      Memory.reads (u.core s.input.core).lm t.lmOff t.len = Memory.reads (s.core s.input.core).lm t.addr.toNat t.len ∧
      (∀ a, a < t.lmOff ∨ t.lmOff + t.len ≤ a → Memory.read (u.core s.input.core).lm a = Memory.read (s.core s.input.core).lm a) ∧
      (u.core s.input.core).tagDone.getLsbD t.tag = true ∧ (u.core s.input.core).tagBusy.getLsbD t.tag = false ∧
      (u.core s.input.core).ni = (s.core s.input.core).ni.filter (fun x => x.id ≠ t.id) ∧ u.mem = s.mem := by
  have len : (Memory.reads (s.core s.input.core).lm t.addr.toNat t.len).length = t.len := by simp [Memory.reads]
  obtain ⟨lm, ni, tagDone, tagBusy, mem⟩ := core_getDone s s.input.core t (Memory.writes (s.core s.input.core).lm t.lmOff
    (Memory.reads (s.core s.input.core).lm t.addr.toNat t.len))
  refine ⟨_, exec_get h ht hf hn hc hr hp ha, ?_, fun a ha => ?_, ?_, ?_, ni, mem⟩
  · have back := Memory.reads_writes (s.core s.input.core).lm t.lmOff (Memory.reads (s.core s.input.core).lm t.addr.toNat t.len)
    rw [len] at back
    rw [lm, back]
  · rw [lm, Memory.read_writes_out _ _ _ (by rwa [len])]
  · rw [tagDone]
    simp [hg]
  · rw [tagBusy]
    simp [hg]

end Sys2Proof.Machine

namespace Sys2Proof.Machine
/-! # Fabric accesses from other packages (R98, R331) -/

section

variable {s : State} {pa : Nat} {bs : List Byte}

/-! ### Bytes at home (R10, R11) -/

theorem homeDie_isSome_iff : homeDie pa ≠ none ↔ pa < 0x10000000000 ∧ pa % 0x4000000000 < 0x2400000000 ∨ inSpread pa = true := by
  by_cases low : pa < 0x10000000000
  · have out : inSpread pa = false := by simp [inSpread, low]
    by_cases held : pa % 0x4000000000 < 0x2400000000
    · simp [homeDie, paKind, low, held]
    · simp [homeDie, paKind, low, held, out]
  · by_cases spread : inSpread pa = true
    · simp [homeDie, paKind, low, spread]
    · have elsewhere : homeDie pa = none := by
        unfold homeDie paKind
        rw [if_neg low, if_neg spread]
        split_ifs <;> rfl
      simp [elsewhere, low, spread]

/-- A page lies at home whole. -/
theorem homeDie_add {o : Nat} (h : homeDie pa ≠ none) (ho : o < 4096 - pa % 4096) : homeDie (pa + o) ≠ none := by
  rw [homeDie_isSome_iff] at h ⊢
  simp only [inSpread, Bool.and_eq_true, decide_eq_true_eq] at h ⊢
  omega

theorem readPlace_home (n : Nat) (h : homeDie pa ≠ none) : readPlace s (.phys pa) n = Memory.reads s.mem pa n := by
  show readPhys s pa n = _
  unfold readPhys
  unfold homeDie at h
  split <;> simp_all

theorem writePlace_home (h : homeDie pa ≠ none) (bs : List Byte) :
    writePlace s (.phys pa) bs = { s with mem := Memory.writes s.mem pa bs } := by
  show writePhys s pa bs = _
  unfold writePhys
  unfold homeDie at h
  split <;> simp_all

theorem covered_plain (s : State) (die : Nat) (l : Option Nat) : ∃ poison, s.covered die false l = { s with poison := poison } := by
  unfold State.covered
  split
  · exact ⟨_, rfl⟩
  · rw [heldLine_plain]
    exact ⟨_, rfl⟩

/-- A piece written at home by no holding agent: its bytes are in memory, and poison may be cleared. -/
theorem writePiece_home (s : State) (die : Nat) (bs : List Byte) (o : Origin) (run : Cover) (h : homeDie pa ≠ none) :
    ∃ poison run', writePiece s die false (.phys pa) bs o run =
      ({ s with
          mem := Memory.writes s.mem pa bs
          poison := poison }, run') := by
  unfold writePiece
  rw [writeAs_plain, writePlace_home h]
  dsimp only
  split
  · obtain ⟨poison, e⟩ := covered_plain { s with mem := Memory.writes s.mem pa bs } die (coverJob run pa bs.length).2
    exact ⟨poison, _, by rw [e]⟩
  · exact ⟨s.poison, run, rfl⟩

theorem foldl_writePiece (die : Nat) (bs : List Byte) (o : Origin) (ps : List (Nat × Nat))
    (h : ∀ p ∈ ps, homeDie (pa + p.1) ≠ none) (s : State) (run : Cover) :
    ∃ poison run', ps.foldl (fun r p => writePiece r.1 die false ((Place.phys pa).add p.1) ((bs.drop p.1).take p.2) o r.2) (s, run) =
      ({ s with
          mem := ps.foldl (fun m p => Memory.writes m (pa + p.1) ((bs.drop p.1).take p.2)) s.mem
          poison := poison }, run') := by
  induction ps generalizing s run with
  | nil => exact ⟨s.poison, run, rfl⟩
  | cons p r ih =>
    obtain ⟨poison, run', piece⟩ := writePiece_home s die ((bs.drop p.1).take p.2) o run (h p List.mem_cons_self)
    obtain ⟨poison', run'', rest⟩ := ih (fun q hq => h q (List.mem_cons_of_mem _ hq)) _ run'
    refine ⟨poison', run'', ?_⟩
    rw [List.foldl_cons, List.foldl_cons]
    exact (congrArg (r.foldl _) piece).trans rest

theorem Tiles.lt {a b : Nat} {ps : List (Nat × Nat)} (h : Tiles a b ps) : ∀ p ∈ ps, p.1 < b := by
  induction ps generalizing a with
  | nil => simp
  | cons p r ih =>
    obtain ⟨hp, h0, hr⟩ := h
    have := hr.le
    intro q hq
    rcases List.mem_cons.1 hq with rfl | hq
    · omega
    · exact ih hr q hq

/-- A range within a page at home is written whole, and nothing else of memory. -/
theorem writeRange_home (s : State) (die : Nat) {t : Target} (o : Origin) (run : Cover) (hp : t.place = .phys pa)
    (ht : t.handoff = false) (h : homeDie pa ≠ none) (hl : bs.length ≤ 4096 - pa % 4096) :
    ∃ poison, (writeRange s die t bs o run).1 = { s with
      mem := Memory.writes s.mem pa bs
      poison := poison } := by
  have tiles := tiles_partsOf (.phys pa) bs.length
  obtain ⟨poison, run', e⟩ := foldl_writePiece die bs o (partsOf (.phys pa) bs.length)
    (fun p hp => homeDie_add h (Nat.lt_of_lt_of_le (tiles.lt p hp) hl)) s run
  have whole := tiles.writes s.mem pa
  rw [Nat.add_zero, List.drop_zero] at whole
  refine ⟨poison, ?_⟩
  rw [writeRange, hp, ht, e, whole]

/-! ### The request -/

variable {r : FabReq} {t : Target} {attr : DWord}

theorem fabricTarget_handoff {part va : Nat} {op : FabOp} (h : fabricTarget s part va op = .ok t) : t.handoff = false := by
  unfold fabricTarget at h
  split at h
  · cases h
  · split at h
    · cases h
    · cases h
    · split at h
      · cases h
      · cases h
        rfl

theorem fabricTarget_phys {part va : Nat} {op : FabOp}
    (h : translate s part va (fabReads op) (fabWrites op) = .ok (attr, .phys pa)) (hc : pageCounter attr = false) :
    fabricTarget s part va op = .ok { kind := pageKind attr, place := .phys pa, handoff := false, attr := attr } := by
  unfold fabricTarget
  simp only [h, hc, Bool.and_false, Bool.false_eq_true, if_false]

/-- A read notes at most that pseudo-channels are awake (R97). -/
theorem fabricServe_read {pkg part target va n : Nat} {run : Cover} {x : FabResult}
    (h : fabricServe s pkg part target va (.read n) run = .ok x) : ∃ awake, x.state = { s with awakePcs := awake } := by
  obtain ⟨awake, peek⟩ := peekRange_eq s target va n
  refine ⟨awake, ?_⟩
  rw [← peek]
  unfold fabricServe at h
  split at h
  · cases h
  · split at h
    · cases h
    next t ht =>
      dsimp only at h
      split at h
      · cases h
        rfl
      · split at h
        · cases h
        next bs u hr =>
          cases h
          exact readRange_state (fabricTarget_handoff ht) hr

theorem fabricServed_read {n : Nat} (h : r.op = .read n) : ∃ awake, fabricServed s r = { s with awakePcs := awake } := by
  unfold fabricServed
  split
  next x hx => exact fabricServe_read (h ▸ hx)
  next => exact ⟨s.awakePcs, rfl⟩

/-- An ACTIVE partition that is not sealed serves a write at once. -/
theorem fabricServed_write (h : r.op = .write bs) (hp : fabricPeer s r.srcPkg r.srcPart r.part r.va = none)
    (ht : fabricTarget s r.part r.va r.op = .ok t) (hs : (s.part r.part).sealed = false) :
    fabricServed s r = (writeRange s 0 t bs (.thread 0 none) []).1 := by
  unfold fabricServed fabricServe
  rw [hp, ht, h]
  simp [hs]

theorem fabricServed_atomic {op : Nat} {wide : Bool} {v : DWord} (h : r.op = .atomic op wide v)
    (hp : fabricPeer s r.srcPkg r.srcPart r.part r.va = none) (ht : fabricTarget s r.part r.va r.op = .ok t)
    (hs : (s.part r.part).sealed = false) (ha : r.va % (if wide then 8 else 4) = 0)
    (hc : s.poisoned t.place (if wide then 8 else 4) = false) :
    fabricServed s r = (atomicAtHome s t.place op (if wide then 8 else 4) v 0).2 := by
  unfold fabricServed fabricServe
  rw [hp, ht, h]
  simp [hs, ha, hc]

theorem atomicAtHome_home {op w n : Nat} {v cmp : DWord} (h : homeDie pa ≠ none)
    (hn : atomicNew op w (leNat (Memory.reads s.mem pa w)) v.toNat cmp.toNat = some n) :
    (atomicAtHome s (.phys pa) op w v cmp).2 = { s with mem := Memory.writes s.mem pa (natBytes w n) } := by
  simp only [atomicAtHome, readPlace_home w h, hn]
  exact writePlace_home h _

theorem fabricServed_write_home (h : r.op = .write bs) (hp : fabricPeer s r.srcPkg r.srcPart r.part r.va = none)
    (ht : translate s r.part r.va false true = .ok (attr, .phys pa)) (hc : pageCounter attr = false)
    (hs : (s.part r.part).sealed = false) (hh : homeDie pa ≠ none) (hl : bs.length ≤ 4096 - pa % 4096) :
    ∃ poison, fabricServed s r = { s with
      mem := Memory.writes s.mem pa bs
      poison := poison } := by
  have target := fabricTarget_phys (op := r.op) (by rw [h]; exact ht) hc
  obtain ⟨poison, wrote⟩ := writeRange_home s 0 (t := { kind := pageKind attr, place := .phys pa, handoff := false, attr := attr })
    (.thread 0 none) [] rfl rfl hh hl
  exact ⟨poison, (fabricServed_write h hp target hs).trans wrote⟩

theorem fabricServed_atomic_home {op n : Nat} {wide : Bool} {v : DWord} (h : r.op = .atomic op wide v)
    (hp : fabricPeer s r.srcPkg r.srcPart r.part r.va = none)
    (ht : translate s r.part r.va true true = .ok (attr, .phys pa)) (hc : pageCounter attr = false)
    (hs : (s.part r.part).sealed = false) (hh : homeDie pa ≠ none) (ha : r.va % (if wide then 8 else 4) = 0)
    (hq : s.poisoned (.phys pa) (if wide then 8 else 4) = false)
    (hn : atomicNew op (if wide then 8 else 4) (leNat (Memory.reads s.mem pa (if wide then 8 else 4))) v.toNat 0 = some n) :
    fabricServed s r = { s with mem := Memory.writes s.mem pa (natBytes (if wide then 8 else 4) n) } := by
  have target := fabricTarget_phys (op := r.op) (by rw [h]; exact ht) hc
  exact (fabricServed_atomic h hp target hs ha hq).trans (atomicAtHome_home hh hn)

/-- Only an FP32 addition that is not wide merges (R196). -/
theorem mergeIncoming_other (h : ∀ v, r.op ≠ .atomic 10 false v) : mergeIncoming s r = none := by
  unfold mergeIncoming
  split
  next e _ _ => exact absurd e (h _)
  next => rfl

theorem mergeIncoming_asleep (h : s.partAwake r.part = false) : mergeIncoming s r = none := by
  unfold mergeIncoming
  split
  · split
    · simp [h]
    · rfl
  · rfl

end

section

variable {s : State}

theorem exec_fabricRequest_own (h : s.input.req.srcPkg = s.pkgId.toNat) : exec .fabricRequest s = .next s := by
  show execFabricRequest s = _
  exact if_pos h

theorem exec_fabricRequest_noPeer {f : Flt} (h : s.input.req.srcPkg ≠ s.pkgId.toNat)
    (hp : fabricPeer s s.input.req.srcPkg s.input.req.srcPart s.input.req.part s.input.req.va = some f) :
    exec .fabricRequest s = .next s := by
  show execFabricRequest s = _
  unfold execFabricRequest
  dsimp only
  rw [if_neg h, hp]

theorem exec_fabricRequest_write (h : s.input.req.srcPkg ≠ s.pkgId.toNat)
    (hp : fabricPeer s s.input.req.srcPkg s.input.req.srcPart s.input.req.part s.input.req.va = none)
    (ho : ∀ n, s.input.req.op ≠ .read n) (hm : mergeIncoming s s.input.req = none) :
    exec .fabricRequest s =
      .next (writeOrHold s s.input.req.part (.fabric s.input.req) (fun t => fabricServed t s.input.req)) := by
  show execFabricRequest s = _
  unfold execFabricRequest
  dsimp only
  rw [if_neg h, hp, hm]
  dsimp only
  split
  next n e => exact absurd e (ho n)
  next => rfl
  next => rfl

theorem exec_fabricRequest_read {n : Nat} (ho : s.input.req.op = .read n) :
    ∃ awake, exec .fabricRequest s = .next { s with awakePcs := awake } := by
  show ∃ awake, execFabricRequest s = _
  obtain ⟨awake, served⟩ := fabricServed_read (s := s) ho
  by_cases own : s.input.req.srcPkg = s.pkgId.toNat
  · exact ⟨s.awakePcs, exec_fabricRequest_own own⟩
  · cases peer : fabricPeer s s.input.req.srcPkg s.input.req.srcPart s.input.req.part s.input.req.va with
    | some f => exact ⟨s.awakePcs, exec_fabricRequest_noPeer own peer⟩
    | none =>
      refine ⟨awake, ?_⟩
      unfold execFabricRequest
      simp only [own, if_false, peer, ho, served]

/-- A write or atomic for an ACTIVE partition that no router merges is served at once. -/
theorem exec_fabricRequest_active (h : s.input.req.srcPkg ≠ s.pkgId.toNat)
    (hp : fabricPeer s s.input.req.srcPkg s.input.req.srcPart s.input.req.part s.input.req.va = none)
    (ho : ∀ n, s.input.req.op ≠ .read n) (hm : ∀ v, s.input.req.op ≠ .atomic 10 false v)
    (ha : (s.part s.input.req.part).dmState = .active) :
    exec .fabricRequest s = .next (fabricServed s s.input.req) := by
  rw [exec_fabricRequest_write h hp ho (mergeIncoming_other hm), writeOrHold_active ha]

/-- A write or atomic for a dormant partition is held, and the partition begins to wake. -/
theorem exec_fabricRequest_dormant (h : s.input.req.srcPkg ≠ s.pkgId.toNat)
    (hp : fabricPeer s s.input.req.srcPkg s.input.req.srcPart s.input.req.part s.input.req.va = none)
    (ho : ∀ n, s.input.req.op ≠ .read n) (hd : (s.part s.input.req.part).dmState = .dormant)
    (hr : heldTaken s + heldPlaces s (.fabric s.input.req) ≤ 1024) :
    ∃ t, exec .fabricRequest s = .next t ∧ t.held = s.held ++ [(s.input.req.part, .fabric s.input.req)] ∧
      (t.part s.input.req.part).dmState = .waking ∧ t.mem = s.mem := by
  have asleep : s.partAwake s.input.req.part = false := by simp [State.partAwake, hd]
  have dormant : (({ s with held := s.held ++ [(s.input.req.part, .fabric s.input.req)] } : State).part s.input.req.part).dmState =
    .dormant := hd
  obtain ⟨mem, -, held⟩ := wakeRequest_leaves { s with held := s.held ++ [(s.input.req.part, .fabric s.input.req)] } s.input.req.part
  refine ⟨_, ?_, held, dmState_wakeRequest_dormant dormant, mem⟩
  rw [exec_fabricRequest_write h hp ho (mergeIncoming_asleep asleep), writeOrHold_dormant _ hd hr]

/-- A write is read back, and leaves every byte outside it. -/
theorem writes_frame (m : Bytes) (pa : Nat) (bs : List Byte) : Memory.reads (Memory.writes m pa bs) pa bs.length = bs ∧
    ∀ a, a < pa ∨ pa + bs.length ≤ a → Memory.read (Memory.writes m pa bs) a = Memory.read m a :=
  ⟨Memory.reads_writes m pa bs, fun _ h => Memory.read_writes_out m pa bs h⟩

/-- The addition and the bitwise operations of R336, none of which a router merges as an FP32 addition. -/
theorem atomicNew_arith {op w : Nat} {v : Nat} {f : Nat → Nat} (old cmp : Nat)
    (h : (op, f) ∈ [(0, fun x => (x + v) % 2 ^ (8 * w)), (1, fun x => x &&& v), (2, fun x => x ||| v), (3, fun x => x ^^^ v)]) :
    atomicNew op w old v cmp = some (f old) ∧ op ≠ 10 := by
  simp only [List.mem_cons, Prod.mk.injEq, List.not_mem_nil, or_false] at h
  rcases h with ⟨rfl, rfl⟩ | ⟨rfl, rfl⟩ | ⟨rfl, rfl⟩ | ⟨rfl, rfl⟩
  · exact ⟨rfl, by decide⟩
  · exact ⟨rfl, by decide⟩
  · exact ⟨rfl, by decide⟩
  · exact ⟨rfl, by decide⟩

end

/-- Settles O40: the thread of a `get` reads its one chunk whole and then writes it, line piece by line piece, and ends; a fabric
read changes no more than which pseudo-channels are awake; a write is its line pieces at home and an atomic one write there; and
a dormant partition's write is held with its wake begun. -/
theorem fabricAccesses : Obligations.FabricAccesses := by
  unfold Obligations.FabricAccesses
  dsimp only
  refine ⟨fun s t ht hk hf hn hg hc hfail hs ha hr h0 hp hl => ?_, fun s => ⟨exec_fabricRequest_own, ?_, ?_, ?_, ?_⟩⟩
  · exact get_ownLm s t ⟨hk, hfail, h0⟩ hg ht hf hn hc (niReady_head hs ha hr) hp (by omega)
  · intro n ho
    obtain ⟨awake, run⟩ := exec_fabricRequest_read ho
    exact ⟨_, run, rfl, rfl, rfl, rfl⟩
  · intro attr pa hs hp ha hu hc hh
    refine ⟨fun bs ho ht hl => ?_, fun op wide v f ho ht hva _ hpo hop => ?_⟩
    · obtain ⟨back, frame⟩ := writes_frame s.mem pa bs
      obtain ⟨poison, run⟩ := fabricServed_write_home ho hp ht hc hu hh hl
      exact ⟨_, (exec_fabricRequest_active hs hp (by simp [ho]) (by simp [ho]) ha).trans (next_congr run), back, rfl, rfl, frame⟩
    · obtain ⟨new, merges⟩ := atomicNew_arith (leNat (Memory.reads s.mem pa (if wide then 8 else 4))) 0 hop
      obtain ⟨back, frame⟩ := writes_frame s.mem pa
        (natBytes (if wide then 8 else 4) (f (leNat (Memory.reads s.mem pa (if wide then 8 else 4)))))
      rw [natBytes_length] at back frame
      have run := fabricServed_atomic_home ho hp ht hc hu hh hva hpo new
      exact ⟨_, (exec_fabricRequest_active hs hp (by simp [ho]) (by simp [ho, merges]) ha).trans (next_congr run), back, rfl, rfl, frame⟩
  · intro hs hp ho hd hr
    exact exec_fabricRequest_dormant hs hp ho hd hr
  · intro f hs hp
    exact exec_fabricRequest_noPeer hs hp

end Sys2Proof.Machine

namespace Sys2Proof.Machine
/-! # The contest instructions (R114, R115, R120)

`contestCheck` decides by the channel alone while the context is awake; behind it each instruction waits, retires, or
withdraws. One lemma per case, then the six instructions together. -/

section
open Sys2Proof.Safety

variable {s : State} {ch p mode : Nat} {rd ra rb : Reg} {f : Flt}

/-! ### An effect on the running context before it retires -/

theorem here_after (len : Nat) (g : Context → Context) (h : s.cur.2 < 11) :
    (after s len g).here = { g s.here with
      pc := s.here.pc + b64 len
      sleep := .awake
      ibpPass := none } := by
  have ctx : (after s len g).here = ((s.core s.cur.1).modContext s.cur.2 (fun x => { g x with
      pc := s.here.pc + b64 len
      sleep := .awake
      ibpPass := none })).context s.cur.2 := congrArg (·.context s.cur.2) (State.core_modCore_same s s.cur.1 _)
  rw [ctx, Core.context_modContext_same _ _ h]
  rfl

/-- An effect that keeps the context's PC and leaves it awake is one of its instruction. -/
theorem retire_modHere {g : Context → Context} (len : Nat) (h : Runs s) (hpc : (g s.here).pc = s.here.pc)
    (hsleep : (g s.here).sleep = s.here.sleep) : retire (s.modHere g) len = .next (after s len g) := by
  have here := here_modHere s g h.1
  rw [retire_eq _ _ (by rw [here, hsleep]; exact h.2), after, here, hpc, goneTo_modHere]
  rfl

/-- Cores and channels are apart. -/
theorem modHere_modChan (s : State) (g : Context → Context) (ch : Nat) (k : Channel → Channel) :
    (s.modHere g).modChan ch k = (s.modChan ch k).modHere g := rfl

/-! ### The checks (R120) -/

/-- A context that runs has not slept in `WaitWhile`. -/
theorem contestWoken_of_runs (h : Runs s) (ch : Nat) : s.contestWoken ch = false := by
  refine decide_eq_false fun e => ?_
  have awake := h.2
  rw [e] at awake
  exact Bool.noConfusion awake

theorem contestCheck_badChannel (h : 15 < ch) : contestCheck s ch = some (flt 7 1) := by simp [contestCheck, failIf, h]

theorem contestCheck_notGranted (hr : Runs s) (h : ch ≤ 15)
    (hg : 14 ≤ ch ∨ s.me.part = none ∨ (s.chan ch).grant ≠ s.me.part) : contestCheck s ch = some (flt 7 2) := by
  have inRange : ¬15 < ch := by omega
  have fails : (!s.contestWoken ch && (14 ≤ ch || s.me.part.isNone || (s.chan ch).grant != s.me.part)) = true := by
    rw [contestWoken_of_runs hr]
    simpa [or_assoc] using hg
  simp [contestCheck, failIf, inRange, fails]

theorem contestCheck_granted (h : ch < 14) (hp : s.me.part = some p) (hg : (s.chan ch).grant = some p) :
    contestCheck s ch = none := by
  have inRange : ¬15 < ch := by omega
  have user : ¬14 ≤ ch := by omega
  simp [contestCheck, failIf, inRange, user, hp, hg]

/-! ### The instructions as the shared operations -/

theorem exec_ctarmRaw (s : State) (ra rb : Reg) : exec (.ctarmRaw ra rb) s = armEntry s 0 ra rb := rfl

theorem exec_ctarmAmax (s : State) (ra rb : Reg) : exec (.ctarmAmax ra rb) s = armEntry s 1 ra rb := rfl

theorem exec_ctarmMin (s : State) (ra rb : Reg) : exec (.ctarmMin ra rb) s = armEntry s 2 ra rb := rfl

theorem exec_ctresW (s : State) (rd rb : Reg) : exec (.ctresW rd rb) s =
    readResult s rd rb (fun _ r => b64 (r.1 * 2 ^ 62 + r.2.2.toNat % 2 ^ 13 * 2 ^ 49 + r.2.1.toNat)) := rfl

theorem exec_ctresId (s : State) (rd rb : Reg) :
    exec (.ctresId rd rb) s = readResult s rd rb (fun ch r => b64 (ch * 2 ^ 32 + r.2.2.toNat)) := rfl

theorem exec_ctcancel (s : State) (rd rb : Reg) : exec (.ctcancel rd rb) s = execCtcancel rd rb s := rfl

/-- A check that fails faults each of the six instructions. -/
theorem exec_contest_fault (h : contestCheck s (s.gprN rb) = some f) :
    ∀ i ∈ [Instr.ctarmRaw ra rb, .ctarmAmax ra rb, .ctarmMin ra rb, .ctresW rd rb, .ctresId rd rb, .ctcancel rd rb],
      exec i s = .next (takeFault s f) := by
  have arm : ∀ mode, armEntry s mode ra rb = .next (takeFault s f) := fun mode => by simp [armEntry, h, raise]
  have read : ∀ g, readResult s rd rb g = .next (takeFault s f) := fun g => by simp [readResult, h, raise]
  have cancel : execCtcancel rd rb s = .next (takeFault s f) := by simp [execCtcancel, h, raise]
  simp only [List.forall_mem_cons, List.not_mem_nil, false_imp_iff, implies_true, exec_ctarmRaw, exec_ctarmAmax,
    exec_ctarmMin, exec_ctresW, exec_ctresId, exec_ctcancel, arm, read, cancel, and_self]

/-! ### `ctarm` -/

/-- The three instructions that arm an entry, each with the mode of its key. -/
theorem exec_ctarm {r : Result} (h : ∀ mode, armEntry s mode ra rb = r) :
    ∀ i ∈ [Instr.ctarmRaw ra rb, .ctarmAmax ra rb, .ctarmMin ra rb], exec i s = r := by
  simp only [List.forall_mem_cons, List.not_mem_nil, false_imp_iff, implies_true, exec_ctarmRaw, exec_ctarmAmax,
    exec_ctarmMin, h, and_self]

theorem armEntry_failed (hr : Runs s) (hc : contestCheck s (s.gprN rb) = none) (hf : (s.chan (s.gprN rb)).failed = true)
    (mode : Nat) : armEntry s mode ra rb = .next (takeFault s (flt 7 3)) := by
  simp [armEntry, hc, hf, failIf, contestWoken_of_runs hr, raise]

theorem armEntry_pending (hc : contestCheck s (s.gprN rb) = none) (hf : (s.chan (s.gprN rb)).failed = false)
    (hp : s.contestPending (s.gprN rb) = true) (mode : Nat) :
    armEntry s mode ra rb = .next (sleepAt s s.cur.1 s.cur.2 (.contest (s.gprN rb))) := by
  simp [armEntry, hc, hf, hp, failIf, sleepIn]

/-! The keys of R115. -/

theorem contestKey_raw (v : DWord) : contestKey 0 v = v.toNat % 2 ^ 32 := by simp [contestKey, bits]

theorem contestKey_amax (v : DWord) : contestKey 1 v =
    if 0x7f800000 < v.toNat % 2 ^ 32 % 2 ^ 31 then 2 ^ 32 - 1 else v.toNat % 2 ^ 32 % 2 ^ 31 := by simp [contestKey, bits]

theorem contestKey_min (v : DWord) : contestKey 2 v = 2 ^ 32 - 1 - v.toNat % 2 ^ 32 := by simp [contestKey, bits]

/-- The entry that a `ctarm` of the running context arms with the key of a value (R114, R115). -/
def State.armedEntry (s : State) (mode : Nat) (v : DWord) : CtEntry :=
  { core := s.cur.1, ctx := s.cur.2, word := BitVec.ofNat 49 (contestKey mode v * 2 ^ 17 + contestIdent s.cur.1 s.cur.2) }

/-- An entry sets out for its die's tap. -/
def Channel.arm (e : CtEntry) (c : Channel) : Channel := { c with arming := c.arming ++ [e] }

/-- The slot of a context that has armed an entry: EMPTY, and pending. -/
def Context.armed (ch : Nat) (x : Context) : Context :=
  { x with
    slots := vset x.slots ch none
    ctPending := x.ctPending ||| (1#16 <<< ch)
    cancelled := x.cancelled &&& ~~~(1#16 <<< ch) }

theorem armEntry_arms (hr : Runs s) (hc : contestCheck s (s.gprN rb) = none) (hf : (s.chan (s.gprN rb)).failed = false)
    (hp : s.contestPending (s.gprN rb) = false) (mode : Nat) :
    armEntry s mode ra rb = .next (after (s.modChan (s.gprN rb) (Channel.arm (s.armedEntry mode (s.gpr ra)))) 4
      (Context.armed (s.gprN rb))) := by
  have passes : (contestCheck s (s.gprN rb) <|> failIf (!s.contestWoken (s.gprN rb) && (s.chan (s.gprN rb)).failed) (flt 7 3)) = none := by
    simp [hc, failIf, hf]
  have arms : armEntry s mode ra rb = retire ((s.modHere (Context.armed (s.gprN rb))).modChan (s.gprN rb)
      (Channel.arm (s.armedEntry mode (s.gpr ra)))) 4 := by
    unfold armEntry
    dsimp only
    rw [passes]
    exact if_neg (by simp [hp])
  rw [arms, modHere_modChan]
  exact retire_modHere 4 hr rfl rfl

/-! ### `ctres` -/

theorem readResult_pending (hc : contestCheck s (s.gprN rb) = none) (hp : s.contestPending (s.gprN rb) = true)
    (g : Nat → Nat × CWord × BitVec 32 → DWord) :
    readResult s rd rb g = .next (sleepAt s s.cur.1 s.cur.2 (.contest (s.gprN rb))) := by
  simp [readResult, hc, hp, sleepIn]

theorem readResult_gives (hr : Runs s) (hc : contestCheck s (s.gprN rb) = none) (hp : s.contestPending (s.gprN rb) = false)
    (g : Nat → Nat × CWord × BitVec 32 → DWord) :
    readResult s rd rb g = .next (after s 4 (fun c => c.setGpr rd.toNat (g (s.gprN rb) (contestRead s (s.gprN rb))))) := by
  simp [readResult, hc, hp, retireReg_eq _ _ _ _ hr]

theorem contestRead_empty (h : vget s.here.slots ch none = none) :
    contestRead s ch = (0, (s.chan ch).latestWord, (s.chan ch).latestSeq) := by rw [contestRead, h]

theorem contestRead_filled {r : CtSlot} (h : vget s.here.slots ch none = some r) :
    contestRead s ch = (r.outcome.code, r.word, r.seq) := by rw [contestRead, h]

/-! ### `ctcancel` -/

/-- The entry is of the running context. -/
def State.owns (s : State) (e : CtEntry) : Prop := e.core = s.cur.1 ∧ e.ctx = s.cur.2

/-- Nothing is withdrawn: no entry is pending, or its window has closed. -/
theorem execCtcancel_none (hr : Runs s) (hc : contestCheck s (s.gprN rb) = none)
    (h : s.contestPending (s.gprN rb) = false ∨ ∃ e ∈ (s.chan (s.gprN rb)).round, s.owns e) :
    execCtcancel rd rb s = .next (after s 4 (fun c => c.setGpr rd.toNat 0)) := by
  have closed : s.contestPending (s.gprN rb) = false ∨
      ((s.chan (s.gprN rb)).round.any fun e => e.core = s.cur.1 && e.ctx = s.cur.2) = true := by
    simpa [State.owns] using h
  rcases closed with h | h <;> simp [execCtcancel, hc, h, retireReg_eq _ _ _ _ hr]

/-- The slot of a context that has withdrawn its entry: EMPTY, and not pending. -/
def Context.withdrew (ch : Nat) (x : Context) : Context :=
  { x with
    slots := vset x.slots ch none
    ctPending := x.ctPending &&& ~~~(1#16 <<< ch) }

/-- The entries that a test picks leave a channel whose window has not closed. -/
def Channel.without (sel : CtEntry → Bool) (c : Channel) : Channel :=
  { c with
    arming := c.arming.filter (fun e => !sel e)
    registered := c.registered.filter (fun e => !sel e) }

/-- What a withdrawal leaves. -/
theorem execCtcancel_withdraws (hr : Runs s) (hch : s.gprN rb < 16) (hc : contestCheck s (s.gprN rb) = none)
    (hp : s.contestPending (s.gprN rb) = true) (h : ∀ e ∈ (s.chan (s.gprN rb)).round, ¬s.owns e) :
    ∃ t, execCtcancel rd rb s = .next t ∧
      t.here = { s.here.setGpr rd.toNat 1 with
        slots := vset s.here.slots (s.gprN rb) none
        ctPending := s.here.ctPending &&& ~~~(1#16 <<< s.gprN rb)
        pc := s.here.pc + 4
        sleep := .awake
        ibpPass := none } ∧
      (∀ e, e ∈ (t.chan (s.gprN rb)).arming ↔ e ∈ (s.chan (s.gprN rb)).arming ∧ ¬s.owns e) ∧
      (∀ e, e ∈ (t.chan (s.gprN rb)).registered ↔ e ∈ (s.chan (s.gprN rb)).registered ∧ ¬s.owns e) := by
  let mine := fun (e : CtEntry) => decide (e.core = s.cur.1) && decide (e.ctx = s.cur.2)
  let u := (s.modChan (s.gprN rb) (Channel.without mine)).modHere (Context.withdrew (s.gprN rb))
  have opened : (s.chan (s.gprN rb)).round.any mine = false := by simpa [mine, State.owns] using h
  have here : u.here = s.here.withdrew (s.gprN rb) := here_modHere _ _ hr.1
  have runs : Runs u := ⟨hr.1, by rw [here]; exact hr.2⟩
  have withdraws : execCtcancel rd rb s = retireReg u 4 rd 1 := by
    unfold execCtcancel
    dsimp only
    rw [hc]
    exact if_pos (by rw [hp, opened]; rfl)
  have channel : (after u 4 (fun c => c.setGpr rd.toNat 1)).chan (s.gprN rb) = (s.chan (s.gprN rb)).without mine :=
    State.chan_modChan_same _ _ hch
  refine ⟨_, withdraws.trans (retireReg_eq _ _ _ _ runs), ?_, fun e => ?_, fun e => ?_⟩
  · rw [here_after _ _ runs.1, here]
    unfold Context.setGpr
    split <;> rfl
  · rw [channel]
    simp [Channel.without, mine, State.owns, imp_iff_not_or]
  · rw [channel]
    simp [Channel.without, mine, State.owns, imp_iff_not_or]

end

/-- Settles O36: the checks come first; behind them a pending entry makes `ctarm` and `ctres` wait, and is withdrawn by `ctcancel`
unless it stands in the round; with none pending `ctarm` arms one and `ctres` reads the slot. -/
theorem contestInstructions : Obligations.ContestInstructions := by
  unfold Obligations.ContestInstructions
  intro s rd ra rb hr
  dsimp only
  simp only [exec_ctarmRaw, exec_ctarmAmax, exec_ctarmMin, exec_ctresW, exec_ctresId, exec_ctcancel]
  refine ⟨fun h => exec_contest_fault (contestCheck_badChannel h), fun h hg => exec_contest_fault (contestCheck_notGranted hr h hg),
    fun p hch hp hg => ?_⟩
  have passes := contestCheck_granted hch hp hg
  refine ⟨fun hf => exec_ctarm (armEntry_failed hr passes hf), fun pending => ?_, fun idle => ?_⟩
  · exact ⟨fun hf => exec_ctarm (armEntry_pending passes hf pending), readResult_pending passes pending _,
      readResult_pending passes pending _, fun h => execCtcancel_none hr passes (.inr h),
      fun h => execCtcancel_withdraws hr (by omega) passes pending h⟩
  · refine ⟨fun hf => ?_, fun empty => ?_, fun r filled => ?_, execCtcancel_none hr passes (.inl idle)⟩
    · have arms := armEntry_arms (ra := ra) hr passes hf idle
      have raw := arms 0
      have least := arms 2
      have amax := arms 1
      rw [State.armedEntry, contestKey_raw] at raw
      rw [State.armedEntry, contestKey_min] at least
      rw [State.armedEntry, contestKey_amax] at amax
      exact ⟨raw, least, amax⟩
    · have gives := readResult_gives (rd := rd) hr passes idle
      rw [contestRead_empty empty] at gives
      refine ⟨(gives _).trans ?_, gives _⟩
      rw [Nat.zero_mul, Nat.zero_add]
      rfl
    · have gives := readResult_gives (rd := rd) hr passes idle
      rw [contestRead_filled filled] at gives
      exact ⟨gives _, gives _⟩

end Sys2Proof.Machine

namespace Sys2Proof.Machine
/-! # Rounds of a contest (R108 to R113, R117, R125)

A round's end and the failure of a channel each give every entry they concern its outcome: `Context.Settled` says so of a
context, and `foldl_settles` carries it through the entries. -/

section

variable {s t : State} {ch into p : Nat} {w : CtEntry} {l : List CtEntry} {o : CtSlot}

/-! ### Folds that settle each element -/

/-- Each step of a fold settles its own element and keeps those before it settled; `I` holds of every state on the way. -/
theorem foldl_settles {α : Type} {f : State → α → State} {I : State → Prop} {P : α → State → Prop} {R : α → α → Prop} {l : List α}
    (hl : l.Pairwise R) (inv : ∀ s a, I s → I (f s a)) (own : ∀ s, ∀ a ∈ l, I s → P a (f s a))
    (keep : ∀ s, ∀ a ∈ l, ∀ b ∈ l, R a b → P a s → I s → P a (f s b)) (hs : I s) : ∀ a ∈ l, P a (l.foldl f s) := by
  induction l generalizing s with
  | nil => exact fun a ha => absurd ha List.not_mem_nil
  | cons b l ih =>
    obtain ⟨hb, hl⟩ := List.pairwise_cons.1 hl
    intro a ha
    rw [List.foldl_cons]
    rcases List.mem_cons.1 ha with rfl | ha
    · refine (List.foldlRecOn (motive := fun t => I t ∧ P a t) l f ⟨inv s a hs, own s a List.mem_cons_self hs⟩ ?_).2
      intro t ht c hc
      exact ⟨inv t c ht.1, keep t a List.mem_cons_self c (List.mem_cons_of_mem _ hc) (hb c hc) ht.2 ht.1⟩
    · exact ih hl (fun s a ha => own s a (List.mem_cons_of_mem _ ha))
        (fun s a ha b hb => keep s a (List.mem_cons_of_mem _ ha) b (List.mem_cons_of_mem _ hb)) (inv s b hs) a ha

theorem foldl_channels {α : Type} {f : State → α → State} (h : ∀ s a, (f s a).channels = s.channels) (l : List α) (s : State) :
    (l.foldl f s).channels = s.channels :=
  List.foldlRecOn (motive := fun t => t.channels = s.channels) l f rfl fun t ht a _ => (h t a).trans ht

theorem chan_congr (h : t.channels = s.channels) (ch : Nat) : t.chan ch = s.chan ch := by rw [State.chan, h, State.chan]

theorem ctx_congr (h : t.cores = s.cores) (i k : Nat) : t.ctx i k = s.ctx i k := congrArg (·.context k) (core_congr h i)

/-- Two changes of a channel that agree on what it holds. -/
theorem modChan_congr {f g : Channel → Channel} (h : f (s.chan ch) = g (s.chan ch)) : s.modChan ch f = s.modChan ch g := by
  unfold State.modChan vmod
  exact congrArg (fun c => { s with channels := vset s.channels ch c }) h

/-! ### An entry's outcome (R119, R120) -/

/-- The slot of the channel holds an outcome, and no entry is pending there. -/
def Context.Settled (ch : Nat) (o : CtSlot) (x : Context) : Prop := vget x.slots ch none = some o ∧ x.ctPending.getLsbD ch = false

theorem getLsbD_and_not_bit (x : BitVec 16) (h : ch < 16) : (x &&& ~~~(1#16 <<< ch)).getLsbD ch = false := by
  simp [h]

/-- A context takes an outcome; the cancelled mask is as the case may be. -/
theorem Context.settled_of (h : ch < 16) (x : Context) (mask : BitVec 16) : Context.Settled ch o { x with
    slots := vset x.slots ch (some o)
    ctPending := x.ctPending &&& ~~~(1#16 <<< ch)
    cancelled := mask } :=
  ⟨vget_vset_same _ _ _ h, getLsbD_and_not_bit _ h⟩

/-- The entry's context is one of a core. -/
def CtEntry.Placed (e : CtEntry) : Prop := e.core < 3072 ∧ e.ctx < 11

theorem CtEntry.Placed.not_agent {e : CtEntry} (h : e.Placed) : ¬ctAgent 0 ≤ e.core := by
  have := h.1
  simp only [ctAgent]
  omega

/-- The effect of a round on the context of an entry. -/
def Context.resolve (ch : Nat) (o : CtSlot) (x : Context) : Context :=
  { x with
    slots := vset x.slots ch (some o)
    ctPending := x.ctPending &&& ~~~(1#16 <<< ch) }

/-- What an entry learns of a round that `w` won. -/
def outcomeOf (w : CtEntry) (q : BitVec 32) (e : CtEntry) : CtSlot :=
  { outcome := if e.word = w.word then .won else .lost, word := w.word, seq := q }

theorem resolveEntry_placed {e : CtEntry} (h : e.Placed) (s : State) (w : CtEntry) (q : BitVec 32) :
    resolveEntry s ch w q e = s.modCtx e.core e.ctx (Context.resolve ch (outcomeOf w q e)) := by
  have owner : ¬(e.core = ghost || ctAgent 0 ≤ e.core) = true := by
    have owned : e.core ≠ ghost := by
      have inPackage := h.1
      unfold ghost
      omega
    simp [owned, h.not_agent]
  exact if_neg owner

theorem resolveEntry_channels (s : State) (ch : Nat) (w : CtEntry) (q : BitVec 32) (e : CtEntry) :
    (resolveEntry s ch w q e).channels = s.channels := by
  unfold resolveEntry
  split <;> rfl

/-- Every entry of a round learns its outcome. -/
theorem resolveEntries_settle (h : ch < 16) (q : BitVec 32) (placed : ∀ e ∈ l, e.Placed)
    (apart : l.Pairwise (fun a b => (a.core, a.ctx) ≠ (b.core, b.ctx))) (s : State) :
    ∀ e ∈ l, Context.Settled ch (outcomeOf w q e) ((l.foldl (fun s e => resolveEntry s ch w q e) s).ctx e.core e.ctx) := by
  refine foldl_settles (I := fun _ => True) (P := fun e (t : State) => Context.Settled ch (outcomeOf w q e) (t.ctx e.core e.ctx))
    apart (fun _ _ _ => trivial) ?_ ?_ trivial
  · intro s e he _
    rw [resolveEntry_placed (placed e he), State.ctx_modCtx_same _ _ _ (placed e he).2]
    exact Context.settled_of h _ _
  · intro s a _ b hb hab settled _
    have other : a.core ≠ b.core ∨ a.ctx ≠ b.ctx := by
      rw [Ne, Prod.mk.injEq] at hab
      exact Decidable.not_and_iff_or_not.1 hab
    rw [resolveEntry_placed (placed b hb), State.ctx_modCtx_other _ _ other]
    exact settled

/-! ### Registration and the arm window (R108, R109, R120, R125) -/

theorem exec_entryRegister (s : State) : exec .entryRegister s = execEntryRegister s := rfl

theorem execEntryRegister_excluded {e : CtEntry}
    (he : (s.chan s.input.ch).arming.find? (fun e => e.core = s.input.core && e.ctx = s.input.ctx) = some e)
    (hf : (s.chan s.input.ch).failed = false) (hd : e.drives s = false) : execEntryRegister s = .next s := by
  simp [execEntryRegister, he, hf, hd]

theorem execEntryRegister_registers {e : CtEntry}
    (he : (s.chan s.input.ch).arming.find? (fun e => e.core = s.input.core && e.ctx = s.input.ctx) = some e)
    (hf : (s.chan s.input.ch).failed = false) (hd : e.drives s = true) :
    execEntryRegister s = .next (s.modChan s.input.ch (fun c => { c with
      arming := c.arming.filter (· != e)
      registered := c.registered ++ [e] })) := by
  simp [execEntryRegister, he, hf, hd]

/-- The arm window of a channel differs in its phase alone. -/
theorem openWindow_eq (c : Channel) : ∃ ph, openWindow c = { c with phase := ph } := by
  unfold openWindow
  split
  · exact ⟨_, rfl⟩
  · exact ⟨c.phase, rfl⟩

theorem exec_armWindowOpen (s : State) : exec .armWindowOpen s = .next (s.modChan s.input.ch openWindow) := rfl

theorem openWindow_opens {c : Channel} (hp : c.phase = .idle) (hr : c.registered ≠ []) (hv : c.voids < 64) :
    openWindow c = { c with phase := .window } := if_pos (by simp [hp, hr, hv])

theorem exec_armWindowClose (s : State) : exec .armWindowClose s = .next (s.modChan s.input.ch (fun c =>
    if c.phase = .window then { c with phase := .running, round := c.registered, registered := [] } else c)) := rfl

/-! ### The winner (R110) -/

/-- The higher of two words goes on. -/
def higher (b : Option CtEntry) (e : CtEntry) : Option CtEntry :=
  match b with
  | none => some e
  | some w => if w.word.toNat < e.word.toNat then some e else some w

theorem roundWinner_eq (l : List CtEntry) : roundWinner l = l.foldl higher none := rfl

theorem foldl_higher (l : List CtEntry) (b : CtEntry) : ∃ x, l.foldl higher (some b) = some x ∧ (x = b ∨ x ∈ l) ∧
    b.word.toNat ≤ x.word.toNat ∧ ∀ e ∈ l, e.word.toNat ≤ x.word.toNat := by
  induction l generalizing b with
  | nil => exact ⟨b, rfl, .inl rfl, Nat.le_refl _, fun _ h => absurd h List.not_mem_nil⟩
  | cons a l ih =>
    by_cases h : b.word.toNat < a.word.toNat
    · obtain ⟨x, run, from', le, all⟩ := ih a
      refine ⟨x, ?_, .inr ?_, by omega, List.forall_mem_cons.2 ⟨le, all⟩⟩
      · rw [List.foldl_cons, higher, if_pos h, run]
      · rcases from' with rfl | hx
        · exact List.mem_cons_self
        · exact List.mem_cons_of_mem _ hx
    · obtain ⟨x, run, from', le, all⟩ := ih b
      refine ⟨x, ?_, from'.imp_right (List.mem_cons_of_mem _), le, List.forall_mem_cons.2 ⟨by omega, all⟩⟩
      rw [List.foldl_cons, higher, if_neg h, run]

/-- The winner has the greatest word of those that take part. -/
theorem roundWinner_greatest (hw : w ∈ l) (h : ∀ e ∈ l, e.word.toNat ≤ w.word.toNat) :
    ∃ x, roundWinner l = some x ∧ x.word = w.word := by
  cases l with
  | nil => exact absurd hw List.not_mem_nil
  | cons b l =>
    obtain ⟨x, run, from', le, all⟩ := foldl_higher l b
    have hx : x ∈ b :: l := List.mem_cons.2 from'
    have above : ∀ e ∈ b :: l, e.word.toNat ≤ x.word.toNat := List.forall_mem_cons.2 ⟨le, all⟩
    exact ⟨x, (roundWinner_eq _).trans run, BitVec.eq_of_toNat_eq (Nat.le_antisymm (h x hx) (above w hw))⟩

/-! ### The end of a round (R110 to R112) -/

/-- A tap vetoes whose die is not excluded (R111, R125). -/
def vetoed (s : State) : Bool := (List.range 4).any (fun d => s.input.mask.getLsbD d && !s.dieExcluded d)

theorem exec_roundEnd (s : State) : exec .roundEnd s = .next (endRound s s.input.ch (vetoed s)) := rfl

/-- The channel after a round: idle, or in the next arm window. -/
def Channel.next (c : Channel) : Channel := openWindow { c with phase := .idle, round := [], seq := c.seq + 1 }

/-- The channel of a void round, whose entries enter the next. -/
def Channel.void (c : Channel) : Channel :=
  { c with voids := c.voids + 1, registered := c.round.filter (·.core != ghost) ++ c.registered }

/-- The channel of a round that `w` won. -/
def Channel.won (w : CtEntry) (c : Channel) : Channel := { c with voids := 0, latestWord := w.word, latestSeq := c.seq }

theorem endRound_void (h : (s.chan ch).phase = .running) :
    endRound s ch true = (s.modChan ch Channel.void).modChan ch Channel.next := if_neg (by simp [h])

/-- The entries of a round with their outcomes. -/
def resolved (s : State) (ch : Nat) (w : CtEntry) : State :=
  (s.chan ch).round.foldl (fun u e => resolveEntry u ch w (s.chan ch).seq e) s

theorem endRound_won (h : (s.chan ch).phase = .running)
    (hw : roundWinner ((s.chan ch).round.filter (CtEntry.drives s)) = some w) :
    endRound s ch false = ((settleClaims (resolved s ch w) ch w (s.chan ch).round).modChan ch (Channel.won w)).modChan ch Channel.next := by
  simp [endRound, h, hw]
  rfl

/-- What a round's end keeps of a channel besides its phase. -/
theorem Channel.next_eq (c : Channel) : ∃ ph, c.next = { c with
    phase := ph
    round := []
    seq := c.seq + 1 } := openWindow_eq _

theorem endRound_void_cores (h : (s.chan ch).phase = .running) : (endRound s ch true).cores = s.cores := by
  rw [endRound_void h, State.modChan_cores, State.modChan_cores]

theorem chan_endRound_void (hch : ch < 16) (h : (s.chan ch).phase = .running) :
    (endRound s ch true).chan ch = (s.chan ch).void.next := by
  rw [endRound_void h, State.chan_modChan_same _ _ hch, State.chan_modChan_same _ _ hch]

/-- Entries that have an owner stay when the round is void. -/
theorem Channel.void_registered {c : Channel} (h : ∀ e ∈ c.round, e.core ≠ ghost) : c.void.registered = c.round ++ c.registered :=
  congrArg (· ++ c.registered) (List.filter_eq_self.2 fun e he => by simpa using h e he)

theorem resolved_channels (s : State) (ch : Nat) (w : CtEntry) : (resolved s ch w).channels = s.channels :=
  foldl_channels (fun u e => resolveEntry_channels u ch w _ e) _ s

theorem chan_endRound_won (hch : ch < 16) (h : (s.chan ch).phase = .running)
    (hw : roundWinner ((s.chan ch).round.filter (CtEntry.drives s)) = some w) :
    (endRound s ch false).chan ch = ((s.chan ch).won w).next := by
  have same : (settleClaims (resolved s ch w) ch w (s.chan ch).round).chan ch = s.chan ch :=
    chan_congr (resolved_channels s ch w) ch
  rw [endRound_won h hw, State.chan_modChan_same _ _ hch, State.chan_modChan_same _ _ hch, same]

theorem settleClaims_cores (s : State) (ch : Nat) (w : CtEntry) (l : List CtEntry) : (settleClaims s ch w l).cores = s.cores := rfl

theorem ctx_endRound_won (h : (s.chan ch).phase = .running)
    (hw : roundWinner ((s.chan ch).round.filter (CtEntry.drives s)) = some w) (i k : Nat) :
    (endRound s ch false).ctx i k = (resolved s ch w).ctx i k := by
  rw [endRound_won h hw]
  refine ctx_congr ?_ i k
  rw [State.modChan_cores, State.modChan_cores, settleClaims_cores]

/-- A round with no veto: the greatest word wins it, and every entry learns it. -/
theorem endRound_settles (hch : ch < 16) (h : (s.chan ch).phase = .running) (hw : w ∈ (s.chan ch).round) (hd : w.drives s = true)
    (placed : ∀ e ∈ (s.chan ch).round, e.Placed)
    (top : ∀ e ∈ (s.chan ch).round, e.drives s = true → e.word.toNat ≤ w.word.toNat)
    (apart : (s.chan ch).round.Pairwise (fun a b => (a.core, a.ctx) ≠ (b.core, b.ctx))) :
    let c := (endRound s ch false).chan ch
    c.seq = (s.chan ch).seq + 1 ∧ c.voids = 0 ∧ c.round = [] ∧ c.latestWord = w.word ∧ c.latestSeq = (s.chan ch).seq ∧
      ∀ e ∈ (s.chan ch).round, Context.Settled ch (outcomeOf w (s.chan ch).seq e) ((endRound s ch false).ctx e.core e.ctx) := by
  obtain ⟨x, won, word⟩ := roundWinner_greatest (l := (s.chan ch).round.filter (CtEntry.drives s))
    (List.mem_filter.2 ⟨hw, hd⟩) (fun e he => top e (List.mem_filter.1 he).1 (List.mem_filter.1 he).2)
  obtain ⟨ph, next⟩ := ((s.chan ch).won x).next_eq
  dsimp only
  rw [chan_endRound_won hch h won, next]
  refine ⟨rfl, rfl, rfl, word, rfl, fun e he => ?_⟩
  rw [ctx_endRound_won h won, outcomeOf, ← word]
  exact resolveEntries_settle hch _ placed apart s e he

/-! ### The failure of a channel (R113) and the grant that follows (R117) -/

theorem cancelOne_placed {e : CtEntry} (h : e.Placed) (s : State) (mark : Bool) :
    cancelOne s ch mark e = s.modCtx e.core e.ctx (fun x => { x with
      slots := vset x.slots ch (some { outcome := .cancelled, word := 0, seq := (s.chan ch).latestSeq })
      ctPending := x.ctPending &&& ~~~(1#16 <<< ch)
      cancelled := if mark then x.cancelled ||| (1#16 <<< ch) else x.cancelled }) := if_neg h.not_agent

theorem cancelOne_channels (s : State) (ch : Nat) (mark : Bool) (e : CtEntry) : (cancelOne s ch mark e).channels = s.channels := by
  unfold cancelOne
  dsimp only
  split <;> rfl

/-- The outcome of an entry that is cancelled on a channel. -/
def cancelledOn (c : Channel) : CtSlot := { outcome := .cancelled, word := 0, seq := c.latestSeq }

/-- An entry that is cancelled settles, and what another has settled stays so. -/
theorem cancelOne_settled (h : ch < 16) {a e : CtEntry} (he : e.Placed) (mark : Bool)
    (own : (a.core, a.ctx) = (e.core, e.ctx) ∨ Context.Settled ch (cancelledOn (s.chan ch)) (s.ctx a.core a.ctx)) :
    Context.Settled ch (cancelledOn (s.chan ch)) ((cancelOne s ch mark e).ctx a.core a.ctx) := by
  rw [cancelOne_placed he]
  by_cases same : (a.core, a.ctx) = (e.core, e.ctx)
  · obtain ⟨core, ctx⟩ := Prod.mk.inj same
    rw [core, ctx, State.ctx_modCtx_same _ _ _ he.2]
    exact Context.settled_of h _ _
  · have other : a.core ≠ e.core ∨ a.ctx ≠ e.ctx := by
      rw [Prod.mk.injEq] at same
      exact Decidable.not_and_iff_or_not.1 same
    rw [State.ctx_modCtx_other _ _ other]
    exact own.resolve_left same

/-- The entries of a channel, each cancelled. -/
def cancelledAll (s : State) (ch : Nat) (l : List CtEntry) : State := l.foldl (fun s e => cancelOne s ch false e) s

theorem cancelledAll_channels (s : State) (ch : Nat) (l : List CtEntry) : (cancelledAll s ch l).channels = s.channels :=
  foldl_channels (fun u e => cancelOne_channels u ch false e) l s

theorem cancelledAll_settle (h : ch < 16) (placed : ∀ e ∈ l, e.Placed) (s : State) :
    ∀ e ∈ l, Context.Settled ch (cancelledOn (s.chan ch)) ((cancelledAll s ch l).ctx e.core e.ctx) := by
  have inv : ∀ (u : State) e, u.channels = s.channels → (cancelOne u ch false e).channels = s.channels :=
    fun u e hu => (cancelOne_channels u ch false e).trans hu
  have own : ∀ (u : State), ∀ e ∈ l, u.channels = s.channels →
      Context.Settled ch (cancelledOn (s.chan ch)) ((cancelOne u ch false e).ctx e.core e.ctx) := by
    intro u e he hu
    rw [← chan_congr hu]
    exact cancelOne_settled h (placed e he) false (.inl rfl)
  have keep : ∀ (u : State), ∀ a ∈ l, ∀ e ∈ l, True → Context.Settled ch (cancelledOn (s.chan ch)) (u.ctx a.core a.ctx) →
      u.channels = s.channels → Context.Settled ch (cancelledOn (s.chan ch)) ((cancelOne u ch false e).ctx a.core a.ctx) := by
    intro u a _ e he _ settled hu
    rw [← chan_congr hu] at settled ⊢
    exact cancelOne_settled h (placed e he) false (.inr settled)
  exact foldl_settles (f := fun u e => cancelOne u ch false e) (I := fun u => u.channels = s.channels)
    (P := fun e u => Context.Settled ch (cancelledOn (s.chan ch)) (u.ctx e.core e.ctx))
    (List.pairwise_of_forall fun _ _ => trivial) inv own keep rfl

theorem cancelIf_all (s : State) (ch : Nat) : cancelIf s (fun _ => true) false ch =
    (cancelledAll s ch ((s.chan ch).arming ++ (s.chan ch).registered)).modChan ch (Channel.without (fun _ => true)) := rfl

/-- A channel that has failed, with the record of it in the log of fw3. -/
def markedFailed (s : State) (ch : Nat) : State :=
  { s.modChan ch (fun c => { c with failed := true }) with
    chanFails := s.chanFails ++ [(ch, s.clock)]
    claims := s.claims.filter (fun c => c.ch != ch) }

theorem failChannel_fails (hv : 64 ≤ (s.chan ch).voids) (hf : (s.chan ch).failed = false) :
    failChannel s ch = cancelIf (markedFailed s ch) (fun _ => true) false ch := if_pos (by simp [hv, hf])

theorem failChannel_stands (h : (s.chan ch).voids < 64 ∨ (s.chan ch).failed = true) : failChannel s ch = s := by
  refine if_neg ?_
  rcases h with h | h
  · simp [h]
  · simp [h]

theorem chan_markedFailed (h : ch < 16) : (markedFailed s ch).chan ch = { s.chan ch with failed := true } := State.chan_modChan_same s _ h

/-- The channel is failed and empty, and its entries are CANCELLED. -/
theorem failChannel_settles (hch : ch < 16) (hv : 64 ≤ (s.chan ch).voids) (hf : (s.chan ch).failed = false)
    (placed : ∀ e ∈ (s.chan ch).arming ++ (s.chan ch).registered, e.Placed) :
    (failChannel s ch).chan ch = { s.chan ch with
      failed := true
      arming := []
      registered := [] } ∧
    ∀ e ∈ (s.chan ch).arming ++ (s.chan ch).registered,
      Context.Settled ch (cancelledOn (s.chan ch)) ((failChannel s ch).ctx e.core e.ctx) := by
  have c := chan_markedFailed (s := s) hch
  have fails := (failChannel_fails hv hf).trans (cancelIf_all _ ch)
  rw [c] at fails
  constructor
  · rw [fails, State.chan_modChan_same _ _ hch, chan_congr (cancelledAll_channels _ _ _), c]
    simp [Channel.without]
  · intro e he
    rw [fails]
    have settled := cancelledAll_settle hch placed (markedFailed s ch) e he
    rwa [c] at settled

/-- The grant that moves changes no core, and of the channel that loses it the grant alone. -/
theorem moveGrant_leaves (hch : ch < 16) (s : State) (into : Nat) :
    (moveGrant s ch into).cores = s.cores ∧ ∃ g, (moveGrant s ch into).chan ch = { s.chan ch with grant := g } := by
  unfold moveGrant
  split
  · exact ⟨rfl, _, rfl⟩
  · split
    next p hp _ =>
      refine ⟨rfl, none, (State.chan_modChan_same _ _ hch).trans ?_⟩
      by_cases same : ch = into
      · subst same
        rw [State.chan_modChan_same _ _ hch]
      · rw [State.chan_modChan_ne _ _ same]
    · exact ⟨rfl, _, rfl⟩

theorem moveGrant_moves (hch : ch < 16) (hp : (s.chan ch).grant = some p) (hf : (s.chan ch).failed = true) (hi : into < 14)
    (free : (s.chan into).free = true) :
    (moveGrant s ch into).cores = s.cores ∧ ((moveGrant s ch into).chan ch).grant = none ∧
      ((moveGrant s ch into).chan into).grant = some p := by
  have apart : into ≠ ch := by
    rintro rfl
    simp [Channel.free, hf] at free
  unfold moveGrant
  rw [hp]
  dsimp only
  rw [if_pos (by simp [hf, hi, free])]
  refine ⟨rfl, congrArg Channel.grant (State.chan_modChan_same _ _ hch), congrArg Channel.grant
    ((State.chan_modChan_ne _ _ apart).trans (State.chan_modChan_same _ _ (by omega)))⟩

theorem cancelOne_input (s : State) (ch : Nat) (mark : Bool) (e : CtEntry) : (cancelOne s ch mark e).input = s.input := by
  unfold cancelOne
  dsimp only
  split <;> rfl

theorem cancelledAll_input (s : State) (ch : Nat) (l : List CtEntry) : (cancelledAll s ch l).input = s.input :=
  List.foldlRecOn (motive := fun u => u.input = s.input) l (fun s e => cancelOne s ch false e) rfl
    fun u hu e _ => (cancelOne_input u ch false e).trans hu

theorem failChannel_input (s : State) (ch : Nat) : (failChannel s ch).input = s.input := by
  unfold failChannel
  split
  · rw [cancelIf_all, State.modChan_input, cancelledAll_input]
    rfl
  · rfl

theorem exec_channelFail (s : State) : exec .channelFail s = .next (if s.input.ok then
    moveGrant (failChannel s s.input.ch) s.input.ch s.input.dst else failChannel s s.input.ch) := by
  show execChannelFail s = _
  rw [execChannelFail, failChannel_input]

/-- What a failure leaves stands whether or not the grant moves. -/
theorem channelFail_settles (hch : s.input.ch < 16) (hv : 64 ≤ (s.chan s.input.ch).voids) (hf : (s.chan s.input.ch).failed = false)
    (placed : ∀ e ∈ (s.chan s.input.ch).arming ++ (s.chan s.input.ch).registered, e.Placed) :
    ∃ t, exec .channelFail s = .next t ∧ (t.chan s.input.ch).failed = true ∧ (t.chan s.input.ch).arming = [] ∧
      (t.chan s.input.ch).registered = [] ∧
      ∀ e ∈ (s.chan s.input.ch).arming ++ (s.chan s.input.ch).registered,
        Context.Settled s.input.ch (cancelledOn (s.chan s.input.ch)) (t.ctx e.core e.ctx) := by
  obtain ⟨channel, settled⟩ := failChannel_settles hch hv hf placed
  rw [exec_channelFail]
  split
  · obtain ⟨cores, g, keeps⟩ := moveGrant_leaves hch (failChannel s s.input.ch) s.input.dst
    rw [channel] at keeps
    refine ⟨_, rfl, by rw [keeps], by rw [keeps], by rw [keeps], fun e he => ?_⟩
    rw [ctx_congr cores]
    exact settled e he
  · exact ⟨_, rfl, by rw [channel], by rw [channel], by rw [channel], settled⟩

end

/-- Settles O37: a round's winner is the greatest word that drives, and each entry's context then holds its outcome; a void round
keeps its entries for the next; a failure cancels each, and fw1's grant moves only the grants. -/
theorem contestRounds : Obligations.ContestRounds := by
  unfold Obligations.ContestRounds
  intro s hch
  dsimp only
  simp only [exec_entryRegister, exec_armWindowOpen, exec_armWindowClose]
  refine ⟨fun e he hf hd => execEntryRegister_excluded he hf hd, fun e he hf hd => ?_, fun hp hr hv => ?_, fun hp => ?_,
    fun w hw hp hm hd hall apart => ?_, fun d hlt hp hm hd hg => ?_, fun hv hf placed => ?_, fun p hf hp hok hi hn hdf hdp => ?_,
    fun hv hok => ?_⟩
  · refine ⟨_, execEntryRegister_registers he hf hd, rfl, ?_, ?_⟩
    · exact congrArg Channel.registered (State.chan_modChan_same s _ hch)
    · refine (congrArg Channel.arming (State.chan_modChan_same s _ hch)).trans (List.filter_congr fun x _ => ?_)
      rw [decide_not]
      rfl
  · exact next_congr (modChan_congr (openWindow_opens hp hr hv))
  · exact next_congr (modChan_congr (if_pos hp))
  · have quiet : vetoed s = false := by
      simpa [vetoed] using hm
    rw [exec_roundEnd, quiet]
    obtain ⟨seq, voids, round, word, latest, settled⟩ := endRound_settles hch hp hw hd
      (fun e he => ⟨(hall e he).1, (hall e he).2.1⟩) (fun e he => (hall e he).2.2) apart
    exact ⟨_, rfl, seq, voids, round, word, latest, settled⟩
  · have veto : vetoed s = true := List.any_eq_true.2 ⟨d, List.mem_range.2 hlt, by simp [hm, hd]⟩
    have channel := chan_endRound_void hch hp
    obtain ⟨ph, next⟩ := (s.chan s.input.ch).void.next_eq
    rw [next] at channel
    rw [exec_roundEnd, veto]
    exact ⟨_, rfl, endRound_void_cores hp, congrArg Channel.voids channel, congrArg Channel.seq channel,
      (congrArg Channel.registered channel).trans (Channel.void_registered hg), congrArg Channel.round channel⟩
  · exact channelFail_settles hch hv hf placed
  · obtain ⟨cores, from', into⟩ := moveGrant_moves hch hp hf hi
      (by simp only [Channel.free, State.chan, hn, hdf, hdp]; rfl)
    rw [exec_channelFail, if_pos hok, failChannel_stands (.inr hf)]
    exact ⟨_, rfl, from', into, cores⟩
  · rw [exec_channelFail, if_neg (by simp [hok]), failChannel_stands (.inl hv)]

end Sys2Proof.Machine

namespace Sys2Proof.Machine
/-! # The bytes of a core's image (R282, R283) and where they go

An image has the fixed length `imageLength`, so a paste of it at an area leaves every byte outside the area. -/

section

variable {m k : Bytes} {a c n : Nat}

/-! ### Lengths -/

theorem length_flatMap_of_length {α β : Type} {f : α → List β} (h : ∀ a, (f a).length = n) (l : List α) :
    (l.flatMap f).length = l.length * n := by
  simp [List.length_flatMap, h]

theorem beBytes_length (n v : Nat) : (beBytes n v).length = n := by rw [beBytes, List.length_reverse, natBytes_length]

theorem Memory.reads_length (m : Bytes) (a n : Nat) : (Memory.reads m a n).length = n := by simp [Memory.reads]

/-- The start value has a word for each of the first eight primes. -/
theorem shaStart_length : shaStart.length = 8 := by
  have primes : 8 ≤ primes80.length := by
    have few : ((List.range 20).filter (fun p => 2 ≤ p && (List.range p).all (fun d => d < 2 || p % d != 0))).length = 8 := by decide
    rw [← few]
    exact ((List.range_sublist.2 (by omega : 20 ≤ 410)).filter _).length_le
  rw [shaStart, List.length_map, List.length_take]
  omega

theorem shaRound_length (v : List DWord) (kw : DWord × DWord) : (shaRound v kw).length = v.length := by
  unfold shaRound
  split
  · rfl
  · rfl

theorem shaCompress_length (h : List DWord) (b : List Byte) : (shaCompress h b).length = h.length := by
  have rounds : ∀ l : List (DWord × DWord), (l.foldl shaRound h).length = h.length := fun l =>
    List.foldlRecOn (motive := fun v => v.length = h.length) l shaRound rfl fun v hv kw _ => (shaRound_length v kw).trans hv
  rw [shaCompress, List.length_zipWith, rounds, Nat.min_self]

theorem sha512_length (bs : List Byte) : (sha512 bs).length = 64 := by
  have words : ∀ l : List (List Byte), (l.foldl shaCompress shaStart).length = 8 := fun l =>
    List.foldlRecOn (motive := fun v => v.length = 8) l shaCompress shaStart_length fun v hv b _ => (shaCompress_length v b).trans hv
  rw [sha512, length_flatMap_of_length (f := fun w : DWord => beBytes 8 w.toNat) (fun w => beBytes_length 8 w.toNat), words]

theorem plainImage_length (h : ImageHead) (g : CoreImage) : (plainImage h g).length = imageLength := by
  rw [plainImage, List.length_append, List.length_append, length_flatMap_of_length (n := 8) (fun i => natBytes_length 8 _),
    List.length_range, Memory.reads_length, Memory.reads_length]
  rfl

theorem imageBytes_length (h : ImageHead) (g : CoreImage) : (imageBytes h g).length = imageLength := by
  rw [imageBytes, List.length_append, List.length_append, List.length_take, List.length_drop, sha512_length, plainImage_length]
  rfl

/-! ### A byte outside what is pasted -/

theorem Memory.read_append_left (h : ∀ e ∈ k, e.1 ≠ c) : Memory.read (m ++ k) c = Memory.read m c := by
  induction m with
  | nil =>
    rw [List.nil_append]
    induction k with
    | nil => rfl
    | cons e k ih =>
      obtain ⟨he, hk⟩ := List.forall_mem_cons.1 h
      exact (if_neg he).trans (ih hk)
  | cons e m ih =>
    rw [List.cons_append, Memory.read, Memory.read, ih]

theorem Memory.read_append_right (h : ∀ e ∈ m, e.1 ≠ c) : Memory.read (m ++ k) c = Memory.read k c := by
  induction m with
  | nil => rfl
  | cons e m ih =>
    obtain ⟨he, hm⟩ := List.forall_mem_cons.1 h
    exact (if_neg he).trans (ih hm)

/-- A filter that lets a key pass leaves its byte. -/
theorem Memory.read_filter_pass {f : Nat → Bool} (hc : f c = true) (m : Bytes) :
    Memory.read (m.filter (fun e => f e.1)) c = Memory.read m c := by
  induction m with
  | nil => rfl
  | cons e m ih =>
    obtain ⟨a, b⟩ := e
    rw [List.filter_cons]
    split
    · rw [Memory.read, Memory.read, ih]
    next stopped =>
      have other : a ≠ c := by
        rintro rfl
        exact stopped hc
      exact ih.trans (if_neg other).symm

theorem Memory.read_paste_out (m : Bytes) (bs : List Byte) (h : c < a ∨ a + bs.length ≤ c) :
    Memory.read (Memory.paste m a bs) c = Memory.read m c := by
  have pasted : ∀ e ∈ bytesAt a bs, a ≤ e.1 ∧ e.1 < a + bs.length := bytesAt_keys a bs
  unfold Memory.paste
  rcases h with h | h
  · rw [Memory.read_append_left, Memory.read_filter_pass (f := fun x => decide (x < a)) (decide_eq_true h)]
    intro e he
    rcases List.mem_append.1 he with he | he
    · have := pasted e he
      omega
    · have := List.of_mem_filter he
      simp only [decide_eq_true_eq] at this
      omega
  · rw [Memory.read_append_right, Memory.read_append_right,
      Memory.read_filter_pass (f := fun x => decide (a + bs.length ≤ x)) (decide_eq_true h)]
    · intro e he
      have := pasted e he
      omega
    · intro e he
      have := List.of_mem_filter he
      simp only [decide_eq_true_eq] at this
      omega

/-- An image changes its area alone. -/
theorem read_storeImage (s : State) (core area : Nat) (collapse : Bool) (h : c < area ∨ area + imageLength ≤ c) :
    Memory.read (storeImage s core area collapse).mem c = Memory.read s.mem c :=
  Memory.read_paste_out s.mem _ (by rwa [imageBytes_length])

end
end Sys2Proof.Machine

namespace Sys2Proof.Machine
/-! # Nodes, lists of cores, and what stops and resumptions leave alone (R269, R276)

What a stop and a resumption do to cores other than by the core's own fields is said once: `Undisturbed` for the functions that
they call. For a list of cores changed one by one there is a rule for what is kept, what is settled, and who is left out. -/

section

variable {s t u : State} {n : Node} {j k : Nat} {c d : Core}

/-! ### Nodes by their keys -/

theorem node?_key (h : s.node? k = some n) : n.key = k := by simpa using List.find?_some h

theorem node?_congr (h : t.nodes = s.nodes) : t.node? = s.node? := by
  funext k
  rw [State.node?, h, State.node?]

/-- A change of every node that keeps the keys. -/
theorem node?_map {g : Node → Node} (hg : ∀ m, (g m).key = m.key) (ht : t.nodes = s.nodes.map g) (k : Nat) :
    t.node? k = (s.node? k).map g := by
  rw [State.node?, ht, List.find?_map, State.node?]
  refine congrArg (Option.map g) (congrArg (fun p => s.nodes.find? p) (funext fun m => ?_))
  rw [Function.comp, hg]

theorem node?_modNode {f : Node → Node} (hf : ∀ m, (f m).key = m.key) (h : s.node? k = some n) :
    (s.modNode k f).node? k = some (f n) := by
  rw [node?_map (s := s) (g := fun m => if m.key = k then f m else m) ?_ rfl k, h, Option.map_some, if_pos (node?_key h)]
  intro m
  split
  · exact hf m
  · rfl

/-! ### A list of cores changed one by one -/

theorem core_modCore_eq {α : Type} {g : Core → α} {f : Core → Core} (h : ∀ c, g (f c) = g c) (s : State) (i j : Nat) :
    g ((s.modCore i f).core j) = g (s.core j) := by
  by_cases e : j = i
  · rw [e, State.core_modCore_same, h]
  · rw [State.core_modCore_ne _ _ e]

theorem foldl_modCore_leaves (f : Core → Core) (l : List Nat) (s : State) :
    ∃ cores, l.foldl (fun s i => s.modCore i f) s = { s with cores := cores } := by
  refine List.foldlRecOn (motive := fun t : State => ∃ cores, t = { s with cores := cores }) l _ ⟨s.cores, rfl⟩ ?_
  rintro _ ⟨cores, rfl⟩ i -
  exact ⟨_, rfl⟩

theorem core_foldl_modCore_eq {α : Type} {g : Core → α} {f : Core → Core} (h : ∀ c, g (f c) = g c) (l : List Nat) (s : State) (j : Nat) :
    g ((l.foldl (fun s i => s.modCore i f) s).core j) = g (s.core j) :=
  List.foldlRecOn (motive := fun t : State => g (t.core j) = g (s.core j)) l (fun s i => s.modCore i f) rfl
    fun t ht i _ => (core_modCore_eq h t i j).trans ht

theorem core_foldl_modCore_out {f : Core → Core} {l : List Nat} (h : j ∉ l) (s : State) :
    (l.foldl (fun s i => s.modCore i f) s).core j = s.core j :=
  List.foldlRecOn (motive := fun t : State => t.core j = s.core j) l (fun s i => s.modCore i f) rfl
    fun t ht i hi => (State.core_modCore_ne t f fun (e : j = i) => h (e ▸ hi)).trans ht

/-- What a change makes of every core stands of each core of the list in the end. -/
theorem core_foldl_modCore_all {P : Core → Prop} {f : Core → Core} (h : ∀ c, P (f c)) (l : List Nat) (s : State) :
    ∀ i ∈ l, P ((l.foldl (fun s i => s.modCore i f) s).core i) := by
  refine foldl_settles (f := fun s i => s.modCore i f) (I := fun _ => True) (R := fun _ _ => True) (P := fun i t => P (t.core i))
    (List.pairwise_of_forall fun _ _ => trivial) (fun _ _ _ => trivial) (fun t i _ _ => ?_) (fun t i _ j _ _ hi _ => ?_) trivial
  · rw [State.core_modCore_same]
    exact h _
  · by_cases e : i = j
    · rw [e, State.core_modCore_same]
      exact h _
    · rwa [State.core_modCore_ne _ _ e]

/-! ### What stops and resumptions leave alone (R269, R276) -/

/-- A core issues, stops its engines, and stands with the collector as before. -/
structure Core.Alike (c d : Core) : Prop where
  issue : d.issue = c.issue
  engStopped : d.engStopped = c.engStopped
  stopping : d.stopping = c.stopping
  saved : d.saved = c.saved

theorem Core.Alike.refl (c : Core) : Core.Alike c c := ⟨rfl, rfl, rfl, rfl⟩

theorem Core.Alike.trans {e : Core} (h : Core.Alike c d) (g : Core.Alike d e) : Core.Alike c e :=
  ⟨g.issue.trans h.issue, g.engStopped.trans h.engStopped, g.stopping.trans h.stopping, g.saved.trans h.saved⟩

/-- No node differs, and every core is alike. -/
structure Undisturbed (s t : State) : Prop where
  nodes : t.nodes = s.nodes
  cores : ∀ i, Core.Alike (s.core i) (t.core i)

theorem Undisturbed.of_cores (hn : t.nodes = s.nodes) (hc : t.cores = s.cores) : Undisturbed s t :=
  ⟨hn, fun i => by rw [core_congr hc]; exact .refl _⟩

theorem Undisturbed.refl (s : State) : Undisturbed s s := .of_cores rfl rfl

theorem Undisturbed.trans (h : Undisturbed s t) (g : Undisturbed t u) : Undisturbed s u :=
  ⟨g.nodes.trans h.nodes, fun i => (h.cores i).trans (g.cores i)⟩

theorem Undisturbed.ite {c : Prop} [Decidable c] (h : Undisturbed s t) (g : Undisturbed s u) : Undisturbed s (if c then t else u) := by
  split
  · exact h
  · exact g

theorem Undisturbed.foldl {α : Type} {f : State → α → State} {l : List α} (h : Undisturbed s t) (k : ∀ s a, Undisturbed s (f s a)) :
    Undisturbed s (l.foldl f t) :=
  List.foldlRecOn l f h fun u hu a _ => hu.trans (k u a)

theorem Undisturbed.modCore (s : State) (i : Nat) (f : Core → Core) (h : ∀ c, Core.Alike c (f c)) : Undisturbed s (s.modCore i f) := by
  refine ⟨rfl, fun j => ?_⟩
  by_cases e : j = i
  · rw [e, State.core_modCore_same]
    exact h _
  · rw [State.core_modCore_ne _ _ e]
    exact .refl _

theorem Undisturbed.modCtx (s : State) (i k : Nat) (f : Context → Context) : Undisturbed s (s.modCtx i k f) :=
  .modCore s i _ fun _ => ⟨rfl, rfl, rfl, rfl⟩

theorem undisturbed_traceTiming (s : State) (core ctx code : Nat) : Undisturbed s (traceTiming s core ctx code) := by
  obtain ⟨-, -, -, -, nodes⟩ := kept_traceCtx s 1 2 core ctx (code + (s.ctx core ctx).pc.toNat % 65536 * 65536)
  exact .of_cores nodes (traceTiming_cores s core ctx code)

theorem undisturbed_cancelOne (s : State) (ch : Nat) (mark : Bool) (e : CtEntry) : Undisturbed s (cancelOne s ch mark e) :=
  .ite (.refl s) (.modCtx _ _ _ _)

theorem undisturbed_cancelIf (s : State) (sel : CtEntry → Bool) (mark : Bool) (ch : Nat) : Undisturbed s (cancelIf s sel mark ch) :=
  (Undisturbed.foldl (.refl s) fun s e => .ite (undisturbed_cancelOne s ch mark e) (.refl s)).trans (.of_cores rfl rfl)

theorem undisturbed_cancelEntries (s : State) (sel : CtEntry → Bool) (mark : Bool) : Undisturbed s (cancelEntries s sel mark) :=
  .foldl (.refl s) fun s _ => undisturbed_cancelIf s sel mark _

theorem undisturbed_recallMessages (s : State) (core : Nat) : Undisturbed s (recallMessages s core) :=
  ⟨rfl, fun i => tget_map_rel (R := Core.Alike)
    (f := fun e => (e.1, { e.2 with inbox := e.2.inbox.filter (fun m => m.src != core) }))
    (fun _ => rfl) (fun _ => ⟨rfl, rfl, rfl, rfl⟩) (.refl _) s.cores i⟩

theorem undisturbed_leaveLeader (s : State) (core : Nat) : Undisturbed s (leaveLeader s core) := by
  unfold leaveLeader
  exact .modCore s _ _ fun _ => ⟨rfl, rfl, rfl, rfl⟩

theorem undisturbed_endFollow (s : State) (core cause : Nat) (keep : Bool) : Undisturbed s (endFollow s core cause keep) := by
  unfold endFollow
  exact (Undisturbed.ite (undisturbed_leaveLeader s core) (.refl s)).trans (.modCore _ _ _ fun _ => ⟨rfl, rfl, rfl, rfl⟩)

theorem undisturbed_withdrawWaits (s : State) (core ctx : Nat) : Undisturbed s (withdrawWaits s core ctx) := .of_cores rfl rfl

theorem undisturbed_resendWait (s : State) (core ctx : Nat) : Undisturbed s (resendWait s core ctx) := by
  unfold resendWait
  split
  · split
    · exact .refl s
    · exact .trans (t := { s with nextKey := s.nextKey + 1 }) (.of_cores rfl rfl) (.modCore _ _ _ fun _ => ⟨rfl, rfl, rfl, rfl⟩)
  · exact .refl s

theorem undisturbed_resendWaits (s : State) (core : Nat) : Undisturbed s (resendWaits s core) :=
  .foldl (.refl s) fun s k => undisturbed_resendWait s core k

theorem undisturbed_traceSleepEnds (s : State) (core : Nat) : Undisturbed s (traceSleepEnds s core) :=
  .foldl (.refl s) fun s k => .ite (undisturbed_traceTiming s core k 3) (.refl s)

/-- The core itself at a stop with its engines (R269). -/
def Core.frozen (c : Core) : Core :=
  { haltEngines c with
    issue := .frozen
    stepDone := false
    stepEntry := none
    accs := (c.accs.filter (fun e => !e.isWait)).map Access.froze }

theorem haltEngines_engStopped (c : Core) : (haltEngines c).engStopped = true := by
  unfold haltEngines
  split
  · assumption
  · rfl

/-- After the core itself a stop concerns messages, contests, follow and waits. -/
theorem undisturbed_stopCore (s : State) (core : Nat) : Undisturbed (s.modCore core Core.frozen) (stopCore s core true) := by
  unfold stopCore
  dsimp only
  refine Undisturbed.foldl ?_ fun s k => (undisturbed_withdrawWaits s core k).trans (.modCtx _ _ _ _)
  exact ((undisturbed_cancelEntries (s.modCore core Core.frozen) _ _).trans (undisturbed_recallMessages _ _)).trans
    (.ite (undisturbed_endFollow _ _ _ _) (.refl _))

/-- A core that stops with its engines is frozen. -/
theorem stopCore_freezes (s : State) (core : Nat) : (stopCore s core true).nodes = s.nodes ∧
    ((stopCore s core true).core core).issue = .frozen ∧ ((stopCore s core true).core core).engStopped = true := by
  have rest := undisturbed_stopCore s core
  have alike := rest.cores core
  rw [State.core_modCore_same] at alike
  exact ⟨rest.nodes, alike.issue, alike.engStopped.trans (haltEngines_engStopped _)⟩

/-- The core itself at a resumption (R276). -/
def Core.resumed (c : Core) : Core :=
  { c.enginesRun with
    issue := .running
    ctx := c.ctx.map Context.resume }

theorem resumeCore_eq (s : State) (core : Nat) : resumeCore s core =
    resendWaits ((traceSleepEnds (traceTiming s core 0xf 5) core).modCore core Core.resumed) core := rfl

/-- A core that resumes stands with the collector as before, and so does every other. -/
theorem resumeCore_leaves (s : State) (core : Nat) : (resumeCore s core).nodes = s.nodes ∧
    ∀ j, ((resumeCore s core).core j).stopping = (s.core j).stopping ∧ ((resumeCore s core).core j).saved = (s.core j).saved := by
  have traced := (undisturbed_traceTiming s core 0xf 5).trans (undisturbed_traceSleepEnds _ core)
  have resent := undisturbed_resendWaits ((traceSleepEnds (traceTiming s core 0xf 5) core).modCore core Core.resumed) core
  rw [← resumeCore_eq] at resent
  have asked : ∀ c : Core, c.resumed.stopping = c.stopping := fun _ => rfl
  have saved : ∀ c : Core, c.resumed.saved = c.saved := fun _ => rfl
  refine ⟨by rw [resent.nodes, State.modCore_nodes, traced.nodes], fun j => ⟨?_, ?_⟩⟩
  · rw [(resent.cores j).stopping, core_modCore_eq asked, (traced.cores j).stopping]
  · rw [(resent.cores j).saved, core_modCore_eq saved, (traced.cores j).saved]

end
end Sys2Proof.Machine

namespace Sys2Proof.Machine
/-! # A collection and its ends (R280, R281)

Each core of a node is stopped, acknowledges and is saved, or the collection is abandoned. `COLLECTOR_STOP` decides between
them by the state of the core and by the node's lists of cores that have begun and acknowledged. -/

section

variable {s : State} {n : Node}

/-! ### A collection that is abandoned (R281) -/

/-- The collector asks nothing of the core, and has no image of it. -/
def Core.Unasked (c : Core) : Prop := c.stopping = false ∧ c.saved = false

/-- One core as its collection is abandoned. -/
def abandonCore (n : Node) (s : State) (i : Nat) : State :=
  let s := s.modCore i (fun c => { c with stopping := false, saved := false })
  if n.begun.contains i && !faulted (s.core i) then resumeCore s i else s

theorem abandon_eq (s : State) (n : Node) : abandon s n = (n.cores.foldl (abandonCore n) s).modNode n.key (fun m => { m with
    begun := []
    acked := []
    area := none }) := rfl

theorem abandonCore_nodes (n : Node) (s : State) (i : Nat) : (abandonCore n s i).nodes = s.nodes := by
  unfold abandonCore
  dsimp only
  split
  · exact (resumeCore_leaves _ i).1
  · rfl

/-- A core that was unasked stays so, and the core itself becomes so. -/
theorem abandonCore_unasked {i j : Nat} (h : j = i ∨ (s.core j).Unasked) : ((abandonCore n s i).core j).Unasked := by
  have own : ((s.modCore i (fun c => { c with stopping := false, saved := false })).core j).Unasked := by
    by_cases e : j = i
    · rw [e, State.core_modCore_same]
      exact ⟨rfl, rfl⟩
    · rw [State.core_modCore_ne _ _ e]
      exact h.resolve_left e
  unfold abandonCore
  dsimp only
  split
  · obtain ⟨stopping, saved⟩ := (resumeCore_leaves (s.modCore i (fun c => { c with stopping := false, saved := false })) i).2 j
    exact ⟨stopping.trans own.1, saved.trans own.2⟩
  · exact own

theorem abandonCores_unasked (n : Node) (l : List Nat) (s : State) : ∀ i ∈ l, ((l.foldl (abandonCore n) s).core i).Unasked :=
  foldl_settles (f := abandonCore n) (I := fun _ => True) (R := fun _ _ => True) (P := fun i t => (t.core i).Unasked)
    (List.pairwise_of_forall fun _ _ => trivial) (fun _ _ _ => trivial) (fun _ _ _ _ => abandonCore_unasked (.inl rfl))
    (fun _ _ _ _ _ _ h _ => abandonCore_unasked (.inr h)) trivial

theorem abandonCores_nodes (n : Node) (l : List Nat) (s : State) : (l.foldl (abandonCore n) s).nodes = s.nodes :=
  List.foldlRecOn (motive := fun t => t.nodes = s.nodes) l (abandonCore n) rfl fun t ht i _ => (abandonCore_nodes n t i).trans ht

theorem abandon_unasked (s : State) (n : Node) : ∀ i ∈ n.cores, ((abandon s n).core i).Unasked := by
  intro i hi
  rw [abandon_eq, core_congr (State.modNode_cores _ _ _)]
  exact abandonCores_unasked n n.cores s i hi

theorem abandon_node (h : s.node? n.key = some n) : (abandon s n).node? n.key = some { n with
    begun := []
    acked := []
    area := none } := by
  rw [abandon_eq]
  refine node?_modNode (f := fun m => { m with begun := [], acked := [], area := none }) (fun _ => rfl) ?_
  rw [node?_congr (abandonCores_nodes n n.cores s), h]

/-! ### The stop of a core, and its image -/

theorem stopForCollector_stops {core : Nat} (h : s.node? n.key = some n) :
    ((stopForCollector s core n).core core).issue = .frozen ∧ ((stopForCollector s core n).core core).engStopped = true ∧
      (stopForCollector s core n).node? n.key = some { n with begun := n.begun ++ [core] } := by
  obtain ⟨nodes, issue, engines⟩ := stopCore_freezes (traceTiming s core 0xf 8) core
  unfold stopForCollector
  rw [core_congr (State.modNode_cores _ _ _)]
  refine ⟨issue, engines, node?_modNode (f := fun m => { m with begun := m.begun ++ [core] }) (fun _ => rfl) ?_⟩
  rw [node?_congr (nodes.trans (undisturbed_traceTiming s core 0xf 8).nodes), h]

theorem saveForCollector_saved (s : State) (core : Nat) (n : Node) : ((saveForCollector s core n).core core).saved = true := by
  unfold saveForCollector
  dsimp only
  rw [State.core_modCore_same]

theorem saveForCollector_noArea (core : Nat) (h : n.area = none) : (saveForCollector s core n).mem = s.mem := by
  unfold saveForCollector
  rw [h]
  rfl

/-- The image goes to the place of the core's rank in the node's area. -/
theorem saveForCollector_frame {core a : Nat} {x : Nat × Nat} (h : n.area = some x)
    (ha : a < x.1 + (s.core core).rank.toNat * imageLength ∨ x.1 + ((s.core core).rank.toNat + 1) * imageLength ≤ a) :
    Memory.read (saveForCollector s core n).mem a = Memory.read s.mem a := by
  unfold saveForCollector
  rw [h]
  exact read_storeImage s core _ false (by rwa [Nat.add_mul, Nat.one_mul, ← Nat.add_assoc] at ha)

end

/-! ### COLLECTOR_STOP, by the state of the core and its node -/

section

variable {s : State} {n : Node} (hn : (s.core s.input.core).node.bind s.node? = some n)
include hn

theorem collectorStop_unasked (hs : (s.core s.input.core).stopping = false) : exec .collectorStop s = .next s := by
  show execCollectorStop s = _
  simp [execCollectorStop, hn, hs]

theorem collectorStop_faulted (hs : (s.core s.input.core).stopping = true) (hf : ∃ i ∈ n.begun, faulted (s.core i) = true) :
    exec .collectorStop s = .next (abandon s n) := by
  have any : n.begun.any (fun i => faulted (s.core i)) = true := List.any_eq_true.2 hf
  show execCollectorStop s = _
  simp only [execCollectorStop, hn, hs, any]
  rfl

variable (hs : (s.core s.input.core).stopping = true) (hf : ∀ i ∈ n.begun, faulted (s.core i) = false)
include hs hf

/-- With no fault the node's lists say how far the core has come. -/
theorem collectorStop_sound : exec .collectorStop s =
    if !n.begun.contains s.input.core then
      .next (if (s.core s.input.core).issue = .running then stopForCollector s s.input.core n else abandon s n)
    else if !n.acked.contains s.input.core then
      .next (if classesStopped s s.input.core then s.modNode n.key (fun m => { m with acked := m.acked ++ [s.input.core] }) else s)
    else if (s.core s.input.core).saved || !n.cores.all (fun i => n.acked.contains i && classesStopped s i) then .next s
    else .next (saveForCollector s s.input.core n) := by
  have any : n.begun.any (fun i => faulted (s.core i)) = false := List.any_eq_false.2 fun i hi => by simp [hf i hi]
  show execCollectorStop s = _
  simp only [execCollectorStop, hn, hs, any]
  rfl

theorem collectorStop_begins (hb : s.input.core ∉ n.begun) : exec .collectorStop s =
    .next (if (s.core s.input.core).issue = .running then stopForCollector s s.input.core n else abandon s n) :=
  (collectorStop_sound hn hs hf).trans (if_pos (by simpa using hb))

variable (hb : s.input.core ∈ n.begun)
include hb

theorem collectorStop_acknowledges (ha : s.input.core ∉ n.acked) : exec .collectorStop s =
    .next (if classesStopped s s.input.core then s.modNode n.key (fun m => { m with acked := m.acked ++ [s.input.core] }) else s) :=
  (collectorStop_sound hn hs hf).trans ((if_neg (by simpa using hb)).trans (if_pos (by simpa using ha)))

theorem collectorStop_acknowledged (ha : s.input.core ∈ n.acked) : exec .collectorStop s =
    if (s.core s.input.core).saved || !n.cores.all (fun i => n.acked.contains i && classesStopped s i) then .next s
    else .next (saveForCollector s s.input.core n) :=
  (collectorStop_sound hn hs hf).trans ((if_neg (by simpa using hb)).trans (if_neg (by simpa using ha)))

end

end Sys2Proof.Machine

namespace Sys2Proof.Machine
/-! # The choice of victims and suspension (R150 to R152, R280)

A choice writes areas into nodes and asks cores to stop, and no more. A suspension changes one node, and clears and frees its
cores one by one. -/

section

variable {s : State} {n m : Node} {vs : List Node}

/-! ### The choice (R150, R151) -/

theorem allocate_leaves (l : List Node) (s : State) : ∃ nodes, (allocate s l).1 = { s with nodes := nodes } := by
  induction l generalizing s with
  | nil => exact ⟨s.nodes, rfl⟩
  | cons v l ih =>
    unfold allocate
    dsimp only
    split
    next a _ =>
      obtain ⟨nodes, e⟩ := ih (s.modNode v.key (fun m => { m with area := some (a, v.cores.length * imageLength) }))
      exact ⟨nodes, e⟩
    · exact ⟨s.nodes, rfl⟩

theorem chooseVictims_leaves (s : State) (n : Node) (fuel : Nat) (out : List Nat) :
    ∃ nodes, (chooseVictims s n fuel out).1 = { s with nodes := nodes } := by
  induction fuel generalizing out with
  | zero => exact ⟨s.nodes, rfl⟩
  | succ fuel ih =>
    unfold chooseVictims
    dsimp only
    obtain ⟨nodes, e⟩ := allocate_leaves (victimsBut s n out) s
    split
    next t h => exact ⟨nodes, by rw [← e, h]⟩
    next => exact ih _

/-- The choice of the victims writes areas into their nodes, and nothing else. -/
theorem victims_leaves (s : State) (n : Node) : ∃ nodes, (victims s n).1 = { s with nodes := nodes } := chooseVictims_leaves s n _ _

/-- A core that a collector asks to stop. -/
def Core.asked (c : Core) : Core := { c with stopping := true }

theorem stopVictims_eq (s : State) (vs : List Node) :
    stopVictims s vs = (vs.flatMap (·.cores)).foldl (fun s i => s.modCore i Core.asked) s := List.foldl_flatMap.symm

/-- Every core of the victims is asked to stop, and no other core differs. -/
theorem stopVictims_asks (s : State) (vs : List Node) :
    (∀ v ∈ vs, ∀ i ∈ v.cores, ((stopVictims s vs).core i).stopping = true) ∧
    (∀ i, (∀ v ∈ vs, i ∉ v.cores) → (stopVictims s vs).core i = s.core i) ∧
    (stopVictims s vs).mem = s.mem ∧ (stopVictims s vs).claims = s.claims := by
  obtain ⟨cores, e⟩ := foldl_modCore_leaves Core.asked (vs.flatMap (·.cores)) s
  rw [stopVictims_eq]
  refine ⟨fun v hv i hi => ?_, fun i hi => core_foldl_modCore_out ?_ s, by rw [e], by rw [e]⟩
  · exact core_foldl_modCore_all (P := fun c => c.stopping = true) (fun _ => rfl) _ s i (List.mem_flatMap.2 ⟨v, hv, hi⟩)
  · intro h
    obtain ⟨v, hv, hi'⟩ := List.mem_flatMap.1 h
    exact hi v hv hi'

/-- With no claim that stands the input says whether the cores are contested. -/
theorem takeVictims_noClaims (h : s.claims = []) : takeVictims s n =
    if (victims s n).2.isEmpty then s else if s.input.ok then enterCollector s n (victims s n).2
    else stopVictims (victims s n).1 (victims s n).2 := by
  rcases hv : victims s n with ⟨t, vs⟩
  simp [takeVictims, hv, h, earlierWinner, contested]

/-- A victim's collector enters channel 14 for the candidate. -/
theorem enterCollector_enters (h : s.claims = []) (hf : (s.chan 14).failed = false) (hv : ∃ v ∈ vs, v.cores ≠ []) :
    ∃ d, enterCollector s n vs = enterClaim s 14 d n.key (collectorKey s n) := by
  have quiet : ∀ d, s.claiming 14 d = false := fun d => by rw [State.claiming, h, List.any_nil]
  obtain ⟨v, hv, some'⟩ := hv
  obtain ⟨j, hj⟩ := List.exists_mem_of_ne_nil _ some'
  have found : ((vs.flatMap (·.cores)).find? (fun i => !s.claiming 14 (dieOf i))).isSome = true :=
    List.find?_isSome.2 ⟨j, List.mem_flatMap.2 ⟨v, hv, hj⟩, by rw [quiet]; rfl⟩
  obtain ⟨i, hi⟩ := Option.isSome_iff_exists.1 found
  refine ⟨dieOf i, ?_⟩
  rw [enterCollector, hi]
  exact if_neg (by simp [hf])

/-! ### PREEMPT_CHOICE -/

theorem exec_preemptChoice_takes {b : Nat} (hn : s.node? s.input.node = some n) (hr : n.state = .ready) (hk : n.record.kind = 0)
    (hs : n.stuck = some b) (hb : b + 330000 ≤ s.clock) (hp : placeNow s n = none) :
    exec .preemptChoice s = .next (takeVictims s n) := by
  have due : b + preemptCycles ≤ s.clock := hb
  show execPreemptChoice s = _
  simp [execPreemptChoice, hn, hr, hk, hs, due, hp]

/-- A gang that need not displace any other keeps no claim whose round is over. -/
theorem exec_preemptChoice_drops (hn : s.node? s.input.node = some n)
    (h : n.state ≠ .ready ∨ n.stuck = none ∨ placeNow s n ≠ none) : exec .preemptChoice s = .next (dropClaim s n.key) := by
  show execPreemptChoice s = _
  rw [execPreemptChoice, hn]
  refine if_pos ?_
  rcases h with h | h | h
  · simp [h]
  · simp [h]
  · simp [Option.isSome_iff_ne_none.2 h]

theorem preemptChoice_stops (hs : s.claims = []) (hok : s.input.ok = false) :
    (takeVictims s n).mem = s.mem ∧ (takeVictims s n).claims = [] ∧
    (∀ v ∈ (victims s n).2, ∀ i ∈ v.cores, ((takeVictims s n).core i).stopping = true) ∧
    (∀ i, (∀ v ∈ (victims s n).2, i ∉ v.cores) → (takeVictims s n).core i = s.core i) := by
  rw [takeVictims_noClaims hs, hok]
  split
  next none' =>
    rw [List.isEmpty_iff.1 none']
    exact ⟨rfl, hs, fun v hv => absurd hv List.not_mem_nil, fun _ _ => rfl⟩
  next =>
    obtain ⟨nodes, e⟩ := victims_leaves s n
    obtain ⟨asks, others, mem, claims⟩ := stopVictims_asks (victims s n).1 (victims s n).2
    rw [e] at mem claims
    rw [if_neg Bool.false_ne_true]
    refine ⟨?_, ?_, asks, fun i hi => (others i hi).trans (by rw [e]; rfl)⟩
    · rw [e]; exact mem
    · rw [e]; exact claims.trans hs

theorem preemptChoice_contests (hs : s.claims = []) (hok : s.input.ok = true) (hf : (s.chan 14).failed = false)
    (hv : ∃ v ∈ (victims s n).2, v.cores ≠ []) : ∃ d, takeVictims s n = enterClaim s 14 d n.key (collectorKey s n) := by
  obtain ⟨d, enters⟩ := enterCollector_enters hs hf hv
  obtain ⟨v, hv, _⟩ := hv
  have some' : (victims s n).2.isEmpty = false := by
    rw [List.isEmpty_eq_false_iff]
    exact List.ne_nil_of_mem hv
  exact ⟨d, by rw [takeVictims_noClaims hs, some', hok, if_neg Bool.false_ne_true, if_pos rfl, enters]⟩

/-! ### Suspension (R152, R280) -/

theorem appear_leaves (s : State) (p level : Nat) : (appear s p level).nodes = s.nodes ∧ (appear s p level).cores = s.cores := by
  unfold appear
  split
  · exact ⟨rfl, rfl⟩
  · split
    · exact ⟨rfl, rfl⟩
    · exact ⟨rfl, rfl⟩

theorem restick_cores (s : State) (p : Nat) : (restick s p).cores = s.cores := rfl

/-- A test of the places differs in when a node has been stuck since. -/
theorem restick_node {k : Nat} (s : State) (p : Nat) (h : s.node? k = some m) : ∃ x, (restick s p).node? k = some { m with stuck := x } := by
  let g := fun (n : Node) => if n.part = p && n.state = .ready && n.record.kind = 0 then
      { n with stuck := if (placeNow s n).isSome then none else n.stuck.or (some s.clock) }
    else n
  have form : ∀ n, ∃ x, g n = { n with stuck := x } := by
    intro n
    dsimp only [g]
    split
    · exact ⟨_, rfl⟩
    · exact ⟨n.stuck, rfl⟩
  have keys : ∀ n, (g n).key = n.key := fun n => by
    obtain ⟨x, e⟩ := form n
    rw [e]
  obtain ⟨x, e⟩ := form m
  exact ⟨x, by rw [node?_map (s := s) (t := restick s p) keys rfl k, h, Option.map_some, e]⟩

/-- Cores that are freed, none of them withdrawn for good (R287). -/
theorem freeCores_sound {key p : Nat} {l : List Nat} (h : ∀ i ∈ l, (s.core i).lasting = false) : freeCores s key p l =
    restick (l.foldl (fun s i => s.modCore i Core.freed) (freeObjects (dropSteps s l) key)) p := by
  have gone : l.any (fun i => (s.core i).lasting && !(s.core i).withdrawn) = false :=
    List.any_eq_false.2 fun i hi => by simp [h i hi]
  unfold freeCores
  rw [gone]
  rfl

/-- A node that is suspended with its images. -/
def Node.suspend (images : List CoreImage) (steps : List StepSave) (m : Node) : Node :=
  { m with
    state := .suspended
    images := images
    steps := steps
    begun := []
    acked := []
    cores := [] }

/-- The state in which the cores of a suspended node are freed. -/
def emptied (s : State) (n : Node) : State :=
  n.cores.foldl (fun s i => s.modCore i Core.cleared)
    ((leftCores s n).modNode n.key (Node.suspend (n.cores.map (saveImage s)) (saveSteps s n.cores)))

theorem suspendNode_eq (s : State) (n : Node) : suspendNode s n =
    (appear (freeCores (emptied s n) n.key n.part n.cores) n.part n.level).oweSelect := rfl

theorem emptied_node (h : s.node? n.key = some n) : ∃ m, (emptied s n).node? n.key = some m ∧ m.state = .suspended ∧
    m.images.length = n.cores.length ∧ m.cores = [] := by
  obtain ⟨cores, e⟩ := foldl_modCore_leaves Core.cleared n.cores
    ((leftCores s n).modNode n.key (Node.suspend (n.cores.map (saveImage s)) (saveSteps s n.cores)))
  have left : (leftCores s n).node? n.key = some { n with ranOn := n.ranOn ++ n.cores.map (fun i => (i, s.nextKey)) } :=
    node?_modNode (s := { s with nextKey := s.nextKey + 1 })
      (f := fun m => { m with ranOn := m.ranOn ++ n.cores.map (fun i => (i, s.nextKey)) }) (fun _ => rfl) h
  have node := node?_modNode (f := Node.suspend (n.cores.map (saveImage s)) (saveSteps s n.cores)) (fun _ => rfl) left
  refine ⟨_, (congrFun (node?_congr ?_) n.key).trans node, rfl, List.length_map _, rfl⟩
  rw [emptied, e]

theorem emptied_lasting (s : State) (n : Node) (i : Nat) : ((emptied s n).core i).lasting = (s.core i).lasting :=
  core_foldl_modCore_eq (g := Core.lasting) (f := Core.cleared) (fun _ => rfl) n.cores _ i

/-- A suspended node has an image for each core, and its cores are free. -/
theorem suspendNode_frees (h : s.node? n.key = some n) (hl : ∀ i ∈ n.cores, (s.core i).lasting = false) :
    (∃ m, (suspendNode s n).node? n.key = some m ∧ m.state = .suspended ∧ m.images.length = n.cores.length ∧ m.cores = []) ∧
    ∀ i ∈ n.cores, ((suspendNode s n).core i).node = none ∧ ((suspendNode s n).core i).stopping = false := by
  have sound : ∀ i ∈ n.cores, ((emptied s n).core i).lasting = false := fun i hi => (emptied_lasting s n i).trans (hl i hi)
  obtain ⟨nodes, cores⟩ := appear_leaves (freeCores (emptied s n) n.key n.part n.cores) n.part n.level
  rw [freeCores_sound sound] at nodes cores
  obtain ⟨cs, freed⟩ := foldl_modCore_leaves Core.freed n.cores (freeObjects (dropSteps (emptied s n) n.cores) n.key)
  rw [suspendNode_eq, freeCores_sound sound]
  constructor
  · obtain ⟨m, node, state, images, none'⟩ := emptied_node h
    have kept : (n.cores.foldl (fun s i => s.modCore i Core.freed) (freeObjects (dropSteps (emptied s n) n.cores) n.key)).node? n.key =
        some m := by
      rw [freed]
      exact node
    obtain ⟨x, stuck⟩ := restick_node _ n.part kept
    exact ⟨_, (congrFun (node?_congr nodes) n.key).trans stuck, state, images, none'⟩
  · intro i hi
    have free := core_foldl_modCore_all (P := fun c => c.node = none ∧ c.stopping = false) (f := Core.freed) (fun _ => ⟨rfl, rfl⟩)
      n.cores (freeObjects (dropSteps (emptied s n) n.cores) n.key) i hi
    rw [← core_congr (cores.trans (restick_cores _ _))] at free
    exact free

theorem exec_nodeSuspend_saved (hn : s.node? s.input.node = some n) (hr : n.state = .running) (hk : n.record.kind = 0)
    (hc : n.cores ≠ []) (hs : ∀ i ∈ n.cores, (s.core i).saved = true) : exec .nodeSuspend s = .next (suspendNode s n) := by
  have all : n.cores.all (fun i => (s.core i).saved) = true := List.all_eq_true.2 hs
  show execNodeSuspend s = _
  rw [execNodeSuspend, hn]
  exact if_pos (by simp only [hr, hk, all]; simpa using hc)

theorem exec_nodeSuspend_unsaved (hn : s.node? s.input.node = some n) (h : ∃ i ∈ n.cores, (s.core i).saved = false) :
    exec .nodeSuspend s = .next s := by
  have all : n.cores.all (fun i => (s.core i).saved) = false := by
    obtain ⟨i, hi, unsaved⟩ := h
    exact List.all_eq_false.2 ⟨i, hi, by simp [unsaved]⟩
  show execNodeSuspend s = _
  rw [execNodeSuspend, hn]
  exact if_neg (by simp [all])

end

/-- Settles O53: the victims' cores are asked, or the collector enters channel 14; COLLECTOR_STOP goes by the state of the core and
its node; an image has the length of its place, and a suspension frees every core it names. -/
theorem preemption : Obligations.Preemption := by
  unfold Obligations.Preemption
  intro s n
  dsimp only
  refine ⟨fun hn => ⟨fun b hr hk hs hb hp hc => ⟨fun hok => ?_, fun hok hf hv => ?_⟩, exec_preemptChoice_drops hn,
    fun hr hk hc _ hs => ?_, exec_nodeSuspend_unsaved hn⟩, fun hc hn hs => ?_, fun hc hn hs hf => ?_, fun hc hn hf => ?_⟩
  · obtain ⟨mem, claims, asks, others⟩ := preemptChoice_stops (n := n) hc hok
    exact ⟨_, exec_preemptChoice_takes hn hr hk hs hb hp, mem, claims, asks, others⟩
  · obtain ⟨d, enters⟩ := preemptChoice_contests hc hok hf hv
    refine ⟨_, d, (exec_preemptChoice_takes hn hr hk hs hb hp).trans (next_congr enters), rfl, rfl, rfl, ?_⟩
    rw [enterClaim, hc, List.nil_append]
  · have key := node?_key hn
    obtain ⟨⟨m, node, state, images, none'⟩, free⟩ := suspendNode_frees (by rw [key]; exact hn) fun i hi => (hs i hi).2
    exact ⟨_, m, exec_nodeSuspend_saved hn hr hk hc fun i hi => (hs i hi).1, node, state, images, none', free⟩
  · exact collectorStop_unasked (by rw [hc]; exact hn) hs
  · exact ⟨_, _, collectorStop_faulted (by rw [hc]; exact hn) hs hf, abandon_unasked s n, abandon_node hn, rfl, rfl, rfl⟩
  · have gang : (s.core s.input.core).node.bind s.node? = some n := by rw [hc]; exact hn
    refine ⟨fun hs hb hr => ?_, fun hs hb hr _ => ?_, fun hs hb ha => ⟨fun hw => ?_, fun hw => ?_⟩, fun hs hb ha hw => ?_,
      fun hs hb ha hu hw => ?_⟩
    · obtain ⟨issue, engines, node⟩ := stopForCollector_stops (core := s.input.core) hn
      exact ⟨_, _, (collectorStop_begins gang hs hf hb).trans (next_congr (if_pos hr)), issue, engines, node, rfl⟩
    · exact ⟨_, (collectorStop_begins gang hs hf hb).trans (next_congr (if_neg hr)), abandon_unasked s n⟩
    · rw [collectorStop_acknowledges gang hs hf hb ha, if_neg (by simp [hw])]
    · exact ⟨_, _, (collectorStop_acknowledges gang hs hf hb ha).trans (next_congr (if_pos hw)), rfl, rfl,
        node?_modNode (f := fun m => { m with acked := m.acked ++ [s.input.core] }) (fun _ => rfl) hn, rfl⟩
    · rw [collectorStop_acknowledged gang hs hf hb ha]
      refine if_pos ?_
      rcases hw with hw | ⟨i, hi, hw⟩
      · simp [hw]
      · have waits : n.cores.all (fun i => n.acked.contains i && classesStopped s i) = false :=
          List.all_eq_false.2 ⟨i, hi, by rcases hw with hw | hw <;> simp [hw]⟩
        rw [waits, Bool.not_false, Bool.or_true]
    · have ready : n.cores.all (fun i => n.acked.contains i && classesStopped s i) = true :=
        List.all_eq_true.2 fun i hi => by simp [hw i hi]
      refine ⟨_, (collectorStop_acknowledged gang hs hf hb ha).trans (if_neg ?_), saveForCollector_saved s _ n,
        saveForCollector_noArea _, fun x a hx => saveForCollector_frame hx⟩
      rw [hu, ready]
      exact Bool.false_ne_true

end Sys2Proof.Machine

namespace Sys2Proof.Machine
/-! # A refused node that has posted its entry (R131, R417)

R417 retires a node that its queues refuse before it binds, and `retireUnbound` leaves it to `postNode` to write the entry that its
CVEC asks for. `postNode` writes none for a node whose entry is marked as posted, and nothing on the way clears the mark. The obligation
puts no hypothesis on the mark, and so it fails in a state where a BLOCKED node carries it. In the model only a function-level reset
sets the mark (`execFlrVf`), and it retires the BLOCKED nodes of its function at once. -/

section

variable {s : State} {n : Node} {key : Nat}

/-! ### What leaves the completion rings alone -/

theorem cp_modCmd (s : State) (vf r : Nat) (g : CmdRing → CmdRing) (v : Nat) : ((s.modCmd vf r g).vf v).cp = (s.vf v).cp := by
  by_cases e : v = vf
  · rw [e, State.modCmd, State.vf_modVf_same]
    rfl
  · rw [State.modCmd, State.vf_modVf_ne s _ e]

theorem cp_admitSlot (s : State) (vf r slot : Nat) (again : Bool) (v : Nat) :
    ((admitSlot s vf r slot again).vf v).cp = (s.vf v).cp :=
  cp_modCmd s vf r _ v

theorem cp_admitRing (k : Nat) (s : State) (vf r v : Nat) : ((admitRing k s vf r).vf v).cp = (s.vf v).cp := by
  induction k generalizing s with
  | zero => rfl
  | succ k ih =>
    rw [admitRing]
    split
    · rw [ih, cp_modCmd, cp_admitSlot]
    · rfl

theorem cp_retireNode (s : State) (n : Node) (v : Nat) : ((retireNode s n).vf v).cp = (s.vf v).cp := by
  unfold retireNode
  split
  · exact cp_admitRing _ _ _ _ v
  · rfl

/-! ### The retirement of a node that has posted -/

theorem traceNode_untraced {p : Nat} (h : (s.part p).trctl = 0) (typ : Nat) (nodeid : DWord) : traceNode s p typ nodeid = s := by
  unfold traceNode trace
  simp [h]

theorem postNode_posted (h : n.posted = true) : postNode s n = some s := by
  unfold postNode
  split
  · exact if_pos (by rw [h, Bool.true_or])
  · rfl

theorem finishNode_posted (hn : s.node? key = some n) (h : n.posted = true) : finishNode s key = retireNode s n := by
  rw [finishNode, hn]
  simp only [postNode_posted h]

theorem cp_closeNode_posted (hn : s.node? key = some n) (h : n.posted = true) (v : Nat) :
    ((closeNode s key).vf v).cp = (s.vf v).cp := by
  have closed := node?_modNode (s := { s with nextKey := s.nextKey + 1 })
    (f := fun n => { n with state := .done, edgesDone := true, released := true, seq := s.nextKey }) (fun _ => rfl) hn
  rw [closeNode, finishNode_posted closed h, cp_retireNode]
  rfl

theorem cp_closeNode_marked {f : Node → Node} (hf : ∀ m, (f m).key = m.key ∧ (f m).posted = m.posted) (hn : s.node? key = some n)
    (h : n.posted = true) (v : Nat) : ((closeNode (s.modNode key f) key).vf v).cp = (s.vf v).cp :=
  cp_closeNode_posted (node?_modNode (fun m => (hf m).1) hn) ((hf n).2.trans h) v

/-- Of what R417 does to an untraced node that has posted, nothing reaches a completion ring. -/
theorem cp_retireUnbound_posted (hn : s.node? key = some n) (h : n.posted = true) (ht : (s.part n.part).trctl = 0)
    (status sub v : Nat) : ((retireUnbound s key status sub).vf v).cp = (s.vf v).cp := by
  simp only [retireUnbound, hn, traceNode_untraced ht]
  split
  · split
    · exact cp_closeNode_marked (s := s) (fun _ => by exact ⟨rfl, rfl⟩) hn h v
    · exact cp_closeNode_marked (s := nodeNotice s _ _ _) (fun _ => by exact ⟨rfl, rfl⟩) hn h v
  · exact cp_closeNode_marked (s := s) (fun _ => by exact ⟨rfl, rfl⟩) hn h v

theorem exec_nodeBind_refused (hn : s.node? s.input.node = some n) (hb : bindable s n = true) (ht : bindTurn s n = true)
    (hr : edgesRefused s n.part n.record = true) : exec .nodeBind s = .next (retireUnbound s n.key 1 0x28) := by
  show execNodeBind s = _
  rw [execNodeBind, hn]
  simp [hb, ht, hr]

end

/-! ### The state that refutes the obligation -/

/-- The node of slot 0 of command ring 0 of function 0, BLOCKED and marked as posted; its first queue id names no queue. -/
def postedNode : Node :=
  { newNode State.reset (.ring 0 0 0) 0 with
    record := { NodeRec.empty with edgeq := [1024, 0xffff, 0xffff, 0xffff] }
    state := .blocked
    posted := true }

/-- The node alone, in an ACTIVE partition whose function has an open completion ring; CVEC of its record is 128, an entry by vector 0. -/
def postedState : State :=
  { State.reset with
    nodes := [postedNode]
    parts := [(0, { Partition.absent with present := true })]
    vfs := [(0, { Vf.reset with cp := { CplRing.reset with
      enable := true
      log2 := 6 } })]
    mem := [(hostPa (64 + 0x12), 128)] }

theorem postedState_node : postedState.node? postedState.input.node = some postedNode := by decide

/-- Its queues refuse the node in its turn. -/
theorem postedState_refused : bindable postedState postedNode = true ∧ bindTurn postedState postedNode = true ∧
    edgesRefused postedState postedNode.part postedNode.record = true := by decide

/-- Refutes O51: the obligation lets the refused node be marked as posted, as `postedNode` is, and then no entry is written: TAIL of
the completion ring, which is to rise by one, stays. -/
theorem not_nodeBinding : ¬ Obligations.NodeBinding := by
  unfold Obligations.NodeBinding
  intro h
  obtain ⟨binds, turn, refused⟩ := postedState_refused
  obtain ⟨-, turns, -, -⟩ := h postedState postedNode postedState_node
  obtain ⟨-, retires⟩ := turns binds turn
  obtain ⟨-, posts⟩ := retires 0 0 0 _ refused rfl rfl (if_pos (by decide)) (fun _ => rfl)
  obtain ⟨t, runs, -, -, tail, -⟩ := posts (by decide) (by decide) (by decide) rfl rfl (by decide) (by decide)
  rw [exec_nodeBind_refused postedState_node binds turn refused] at runs
  cases runs
  rw [cp_retireUnbound_posted (key := postedNode.key) postedState_node rfl rfl] at tail
  exact absurd tail (by decide)

end Sys2Proof.Machine

namespace Sys2Proof.Machine
/-! # What retiring and sleeping leave of the machine (R87, R163, R288)

A sleep that begins or ends may enter the trace first. The record reaches no core, so that the cores after it are those of the plain
change, and what ran still runs. -/

section
open Sys2Proof.Safety

variable {s t u : State} {f : Flt}

/-! ### The cores alone decide -/

theorem modCore_cores_congr (h : t.cores = s.cores) (i : Nat) (g : Core → Core) : (t.modCore i g).cores = (s.modCore i g).cores := by
  simp only [State.modCore, State.setCore, State.core, h]

theorem here_congr (h : t.cores = s.cores) (hc : t.cur = s.cur) : t.here = s.here := by
  rw [State.here, hc]
  exact ctx_congr h _ _

theorem me_congr (h : t.cores = s.cores) (hc : t.cur = s.cur) : t.me = s.me := by
  rw [State.me, hc]
  exact core_congr h _

/-! ### A trace record first -/

/-- `t` is `s` with records of the trace. -/
structure Traced (s t : State) : Prop where
  cores : t.cores = s.cores
  kept : Kept s t

theorem Traced.refl (s : State) : Traced s s := ⟨rfl, Kept.refl s⟩

theorem Traced.trans (h : Traced s t) (g : Traced t u) : Traced s u := ⟨g.cores.trans h.cores, h.kept.trans g.kept⟩

theorem Traced.ite {c : Prop} [Decidable c] (h : Traced s t) (g : Traced s u) : Traced s (if c then t else u) := by
  split
  · exact h
  · exact g

theorem Traced.timing (h : Traced s t) (core ctx code : Nat) : Traced s (traceTiming t core ctx code) :=
  h.trans ⟨traceTiming_cores _ _ _ _, kept_traceCtx _ _ _ _ _ _⟩

theorem Traced.here (h : Traced s t) : t.here = s.here := here_congr h.cores h.kept.1

/-- A context falls asleep, or waits, behind the records of the trace. -/
theorem sleepAt_traced (s : State) (core ctx : Nat) (w : Sleep) :
    ∃ u, Traced s u ∧ sleepAt s core ctx w = u.modCtx core ctx (fun c => { c with sleep := w }) := by
  have woke := ((Traced.refl s).timing core ctx 3).ite (Traced.refl s) (c := ((s.ctx core ctx).sleep.asleep && !w.asleep) = true)
  exact ⟨_, (woke.timing core ctx 2).ite ((woke.timing core ctx 1).ite woke), rfl⟩

theorem sleepAt_cores (s : State) (core ctx : Nat) (w : Sleep) :
    (sleepAt s core ctx w).cores = (s.modCtx core ctx (fun c => { c with sleep := w })).cores := by
  obtain ⟨u, traced, e⟩ := sleepAt_traced s core ctx w
  rw [e]
  exact modCore_cores_congr traced.cores _ _

theorem sleepAt_cur (s : State) (core ctx : Nat) (w : Sleep) : (sleepAt s core ctx w).cur = s.cur := by
  obtain ⟨u, traced, e⟩ := sleepAt_traced s core ctx w
  rw [e]
  exact traced.kept.1

theorem here_sleepAt (h : s.cur.2 < 11) (w : Sleep) : (sleepAt s s.cur.1 s.cur.2 w).here = { s.here with sleep := w } := by
  rw [here_congr (sleepAt_cores _ _ _ _) (sleepAt_cur _ _ _ _)]
  exact here_modHere _ _ h

/-- A context retires behind the record of the end of its sleep. -/
theorem retireAt_traced (s : State) (core ctx : Nat) (pc : DWord) : ∃ u, Traced s u ∧ retireAt s core ctx pc =
    u.modCore core (fun c => { c.modContext ctx (fun x => { x with pc := pc, sleep := .awake, ibpPass := none }) with
      stepDone := c.stepDone || (c.issue = .stepping && c.stepTarget = ctx) }) :=
  ⟨_, ((Traced.refl s).timing core ctx 3).ite (Traced.refl s), rfl⟩

theorem retireAt_cores (s : State) (pc : DWord) : (retireAt s s.cur.1 s.cur.2 pc).cores = (goneTo s pc id).cores := by
  obtain ⟨u, traced, e⟩ := retireAt_traced s s.cur.1 s.cur.2 pc
  rw [e]
  exact modCore_cores_congr traced.cores _ _

theorem retireAt_cur (s : State) (core ctx : Nat) (pc : DWord) : (retireAt s core ctx pc).cur = s.cur := by
  obtain ⟨u, traced, e⟩ := retireAt_traced s core ctx pc
  rw [e]
  exact traced.kept.1

/-- The running context retires, asleep or awake. -/
theorem retire_cores (s : State) (len : Nat) : ∃ t, retire s len = .next t ∧ t.cores = (after s len id).cores ∧ t.cur = s.cur :=
  ⟨_, rfl, retireAt_cores _ _, retireAt_cur _ _ _ _⟩

/-- The running context retires and writes a register, asleep or awake. -/
theorem retireReg_cores (h : s.cur.2 < 11) (len : Nat) (rd : Reg) (v : DWord) :
    ∃ t, retireReg s len rd v = .next t ∧ t.cores = (after s len (fun c => c.setGpr rd.toNat v)).cores := by
  obtain ⟨t, runs, cores, -⟩ := retire_cores (s.setGpr rd v) len
  refine ⟨t, runs, cores.trans ?_⟩
  have pc : (s.setGpr rd v).here.pc = s.here.pc := by
    rw [State.setGpr, here_modHere _ _ h, Context.setGpr_pc]
  rw [after, pc, State.setGpr, goneTo_modHere]
  rfl

/-! ### An update of something else first -/

/-- A context that is awake in `t` as in `s` retires there; `t` is `s` in all but other contexts. -/
theorem retire_of_here (hr : Runs s) (len : Nat) (here : t.here = s.here) : retire t len = .next (after t len id) :=
  retire_eq _ _ (by rw [here]; exact hr.2)

theorem runs_congr (hr : Runs s) (hc : t.cur = s.cur) (here : t.here = s.here) : Runs t := ⟨by rw [hc]; exact hr.1, by rw [here]; exact hr.2⟩

theorem here_modMe {g : Core → Core} (h : (g s.me).ctx = s.me.ctx) : (s.modMe g).here = s.here := by
  show ((s.modCore s.cur.1 g).core s.cur.1).context s.cur.2 = _
  rw [State.core_modCore_same]
  exact congrArg (fun c => vget c s.cur.2 Context.reset) h

end
end Sys2Proof.Machine

namespace Sys2Proof.Machine
/-! # Starting a helper and joining it (R157, R159, R316, R317)

`start` fills a FREE context of the core, `hjoin` reads a DONE one and frees it: each changes one context besides its own. -/

section
open Sys2Proof.Safety

variable {s : State} {k e : Nat}

/-! ### Contexts besides the running one -/

theorem ctx_after_other (s : State) (len : Nat) (g : Context → Context) {j l : Nat} (h : (j, l) ≠ s.cur) :
    (after s len g).ctx j l = s.ctx j l := by
  unfold after goneTo State.ctx
  by_cases hj : j = s.cur.1
  · have hl : l ≠ s.cur.2 := fun hl => h (Prod.ext hj hl)
    rw [hj, State.core_modCore_same]
    exact Core.context_modContext_ne _ _ hl
  · rw [State.core_modCore_ne _ _ hj]

/-- Another context of the running core. -/
theorem here_modCtx_other (g : Context → Context) (h : k ≠ s.cur.2) : (s.modCtx s.cur.1 k g).here = s.here :=
  State.ctx_modCtx_other _ _ (.inr h.symm)

/-! ### `start` -/

/-- c0 names one of its core's helpers. -/
def State.namesHelper (s : State) (k : Nat) : Prop := s.cur.2 = 0 ∧ 1 ≤ k ∧ k ≤ 10

theorem namesHelper_iff : s.namesHelper k ↔ (s.cur.2 != 0 || k < 1 || 10 < k) = false := by
  simp only [State.namesHelper, Bool.or_eq_false_iff, bne_eq_false_iff_eq, decide_eq_false_iff_not, not_lt, and_assoc]

theorem startCheck_notFree (h : ¬(s.namesHelper k ∧ (s.ctx s.cur.1 k).status = .free)) (e : Nat) : startCheck s k e = some (flt 1 11) := by
  rw [namesHelper_iff] at h
  unfold startCheck failIf
  cases named : s.cur.2 != 0 || k < 1 || 10 < k
  case true => rfl
  case false =>
    have taken : ((s.ctx s.cur.1 k).status != .free) = true := bne_iff_ne.2 fun free => h ⟨named, free⟩
    simp [taken, ctxState]

theorem startCheck_free (hn : s.namesHelper k) (hf : (s.ctx s.cur.1 k).status = .free) (e : Nat) :
    startCheck s k e = failIf (e % 2 != 0 || 65536 ≤ e) (flt 2 2) := by
  unfold startCheck
  rw [namesHelper_iff.1 hn, hf]
  rfl

theorem execStart_starts {k : BitVec 5} {ra : Reg} (hr : Runs s) (hn : s.namesHelper k.toNat)
    (hf : (s.ctx s.cur.1 k.toNat).status = .free) (he : s.gprN ra % 2 = 0 ∧ s.gprN ra < 65536) (ha : ∀ a ∈ s.me.accs, a.ctx ≠ 0) (rb : Reg) :
    execStart k ra rb s = .next (after (s.modCtx s.cur.1 k.toNat (fun c => startedCtx c (s.gpr ra) (s.gpr rb))) 4 id) := by
  have even : failIf (s.gprN ra % 2 != 0 || 65536 ≤ s.gprN ra) (flt 2 2) = none := by simp [failIf, he.1, he.2]
  have other : k.toNat ≠ s.cur.2 := by have := hn.1; have := hn.2.1; omega
  simp only [execStart, startCheck_free hn hf, even, forkReady_of_no_access ha, Bool.not_true, Bool.false_eq_true, if_false]
  exact retire_of_here hr 4 (here_modCtx_other _ other)

theorem vget_replicate {α : Type} {n : Nat} (a : α) (r : Nat) : vget (Vector.replicate n a) r a = a := by
  by_cases h : r < n <;> simp [vget, Vector.getD, h]

theorem gpr_startedCtx (c : Context) (pc a : DWord) (r : Nat) : (startedCtx c pc a).gpr r = if r = 3 then a else 0 := by
  by_cases h3 : r = 3
  · subst h3
    exact vget_vset_same (i := 3) Context.reset.s a 0 (by decide)
  · rw [if_neg h3]
    unfold Context.gpr
    split
    · rfl
    · exact (vget_vset_ne _ _ _ h3).trans (vget_replicate _ _)

/-! ### `hjoin` -/

/-- What a join makes its context wait for (R219) is an entry of the core: no context changes. -/
theorem joinHelper_contexts (s : State) (k : Nat) :
    (joinHelper s k).cur = s.cur ∧ ∀ i l, (joinHelper s k).ctx i l = s.ctx i l := by
  unfold joinHelper pushJoin
  split
  · exact ⟨rfl, fun _ _ => rfl⟩
  · refine ⟨rfl, fun i l => ?_⟩
    exact core_modCore_eq (g := fun c => c.context l) (f := fun c => { c with accs := c.accs ++ [_] }) (fun _ => rfl)
      { s with nextKey := s.nextKey + 1 } s.cur.1 i

theorem execHjoin_refused {k : BitVec 5} (h : ¬s.namesHelper k.toNat ∨ (s.ctx s.cur.1 k.toNat).status = .free) (rd : Reg) :
    execHjoin rd k s = .next (takeFault s (flt 1 11)) := by
  unfold execHjoin
  rw [namesHelper_iff] at h
  dsimp only
  cases named : s.cur.2 != 0 || decide (k.toNat < 1) || decide (10 < k.toNat)
  case true => rfl
  case false =>
    rw [h.resolve_left (not_not.2 named)]
    rfl

theorem execHjoin_live {k : BitVec 5} (hn : s.namesHelper k.toNat) (hl : (s.ctx s.cur.1 k.toNat).status = .live) (rd : Reg) :
    execHjoin rd k s = sleepIn s (.hjoin k.toNat) := by
  unfold execHjoin
  dsimp only
  rw [if_neg (ne_true_of_eq_false (namesHelper_iff.1 hn)), hl]

theorem execHjoin_done {k : BitVec 5} (hr : Runs s) (hn : s.namesHelper k.toNat) (hd : (s.ctx s.cur.1 k.toNat).status = .done) (rd : Reg) :
    ∃ t, execHjoin rd k s = .next t ∧
      t.here = { s.here.setGpr rd.toNat (s.ctx s.cur.1 k.toNat).exitVal with
        pc := s.here.pc + 4
        sleep := .awake
        ibpPass := none } ∧
      t.ctx s.cur.1 k.toNat = { s.ctx s.cur.1 k.toNat with status := .free } := by
  obtain ⟨cur, same⟩ := joinHelper_contexts s k.toNat
  have other : k.toNat ≠ s.cur.2 := by have := hn.1; have := hn.2.1; omega
  have lt : k.toNat < 11 := by have := hn.2.2; omega
  let u := (joinHelper s k.toNat).modCtx s.cur.1 k.toNat (fun c => { c with status := .free })
  have here : u.here = s.here := by
    show u.ctx (joinHelper s k.toNat).cur.1 (joinHelper s k.toNat).cur.2 = _
    rw [cur, State.ctx_modCtx_other _ _ (.inr other.symm), same]
    rfl
  have freed : u.ctx s.cur.1 k.toNat = { s.ctx s.cur.1 k.toNat with status := .free } := by
    rw [State.ctx_modCtx_same _ _ _ lt, same]
  have runs : Runs u := runs_congr hr cur here
  refine ⟨after u 4 (fun c => c.setGpr rd.toNat (s.ctx s.cur.1 k.toNat).exitVal), ?_, ?_, ?_⟩
  · unfold execHjoin
    dsimp only
    rw [if_neg (ne_true_of_eq_false (namesHelper_iff.1 hn)), hd]
    exact retireReg_eq u 4 rd _ runs
  · rw [here_after _ _ runs.1, here]
    rfl
  · exact (ctx_after_other u 4 _ fun e => other (congrArg Prod.snd (e.trans cur))).trans freed

end

/-- Settles O8: the checks decide which clause holds; a start fills the named context and nothing else, and a join frees it. -/
theorem helpers : Obligations.Helpers := by
  unfold Obligations.Helpers
  refine ⟨fun s k ra rb hr => ?_, fun s rd k hr => ?_⟩
  · dsimp only
    refine ⟨fun h => ?_, fun ⟨hc, h1, h10, hf⟩ h => ?_, fun ⟨hc, h1, h10, hf⟩ he ha => ?_⟩
    · show execStart k ra rb s = _
      rw [execStart, startCheck_notFree fun ⟨⟨hc, h1, h10⟩, hf⟩ => h ⟨hc, h1, h10, hf⟩]
      rfl
    · show execStart k ra rb s = _
      have bad : failIf (s.gprN ra % 2 != 0 || decide (65536 ≤ s.gprN ra)) (flt 2 2) = some (flt 2 2) := by
        simp only [failIf, ite_eq_left_iff]
        simp
        omega
      rw [execStart, startCheck_free ⟨hc, h1, h10⟩ hf, bad]
      rfl
    · have other : k.toNat ≠ s.cur.2 := by omega
      have lt : k.toNat < 11 := by omega
      have helper : (s.cur.1, k.toNat) ≠ s.cur := fun e => other (congrArg Prod.snd e)
      let u := s.modCtx s.cur.1 k.toNat (fun c => startedCtx c (s.gpr ra) (s.gpr rb))
      have started : (Safety.after u 4 id).ctx s.cur.1 k.toNat = startedCtx (s.ctx s.cur.1 k.toNat) (s.gpr ra) (s.gpr rb) :=
        (ctx_after_other u 4 id helper).trans (State.ctx_modCtx_same _ _ _ lt)
      refine ⟨Safety.after u 4 id, execStart_starts hr ⟨hc, h1, h10⟩ hf he ha rb, ?_⟩
      rw [started]
      refine ⟨rfl, rfl, rfl, fun r => ?_, fun r => ⟨vget_replicate _ _, vget_replicate _ _, vget_replicate _ _⟩, ?_, fun j l hj hk => ?_, rfl⟩
      · exact gpr_startedCtx _ _ _ _
      · rw [here_after (s := u) _ _ hr.1, here_modCtx_other _ other]
        rfl
      · rw [ctx_after_other u 4 id hj]
        exact State.ctx_modCtx_other _ _ (by by_contra h; push Not at h; exact hk (Prod.ext h.1 h.2))
  · refine ⟨fun h => execHjoin_refused (h.imp_left fun h => h) rd, fun hn hl => ?_, fun hn hd => execHjoin_done hr hn hd rd⟩
    refine ⟨sleepAt s s.cur.1 s.cur.2 (.hjoin k.toNat), ?_, here_sleepAt hr.1 _⟩
    show execHjoin rd k s = _
    rw [execHjoin_live hn hl]
    rfl

end Sys2Proof.Machine

namespace Sys2Proof.Machine
/-! # `halt` (R156, R158, R318)

A halt ends the context's wait, makes it DONE with its exit value, and then takes it out of contests, barriers, supersteps and follow
mode. What comes after the exit value is set keeps the status and the registers of every context: `RegsKept` says so of each step. -/

section
open Sys2Proof.Safety

variable {s t u : State} {core ctx : Nat}

/-! ### A promise that changes leaves the contexts -/

theorem setPromise_ctx (c : Core) (k : Nat) (st : BitVec 4) : (setPromise c k st).ctx = c.ctx := by
  unfold setPromise writeRecord
  dsimp only
  split <;> rfl

theorem releaseHeld_ctx (c : Core) (k : Nat) : (releaseHeld c k).ctx = c.ctx := by
  unfold releaseHeld
  dsimp only
  split
  · exact setPromise_ctx _ _ _
  · rfl

theorem changePromise_ctx (c : Core) (k : Nat) (st : BitVec 4) : (changePromise c k st).ctx = c.ctx :=
  List.foldlRecOn (motive := fun d : Core => d.ctx = c.ctx) _ releaseHeld (setPromise_ctx c k st)
    fun d hd k _ => (releaseHeld_ctx d k).trans hd

/-! ### What is kept of a context -/

/-- Status, exit value and registers are kept, and a context with no pending contest entry has none. -/
structure Context.RegsKept (c d : Context) : Prop where
  status : d.status = c.status
  exitVal : d.exitVal = c.exitVal
  s : d.s = c.s
  v : d.v = c.v
  m : d.m = c.m
  x : d.x = c.x
  cwait : d.cwait = c.cwait
  ctPending : c.ctPending = 0 → d.ctPending = 0

theorem Context.RegsKept.refl (c : Context) : Context.RegsKept c c := ⟨rfl, rfl, rfl, rfl, rfl, rfl, rfl, id⟩

theorem Context.RegsKept.trans {c d e : Context} (h : Context.RegsKept c d) (g : Context.RegsKept d e) : Context.RegsKept c e :=
  ⟨g.status.trans h.status, g.exitVal.trans h.exitVal, g.s.trans h.s, g.v.trans h.v, g.m.trans h.m, g.x.trans h.x, g.cwait.trans h.cwait,
    fun idle => g.ctPending (h.ctPending idle)⟩

/-- The same context runs, and so much of every context is kept. -/
structure RegsKept (s t : State) : Prop where
  cur : t.cur = s.cur
  ctx : ∀ i k, Context.RegsKept (s.ctx i k) (t.ctx i k)

theorem RegsKept.of_cores (hc : t.cur = s.cur) (h : t.cores = s.cores) : RegsKept s t :=
  ⟨hc, fun i k => by rw [ctx_congr h]; exact .refl _⟩

theorem RegsKept.refl (s : State) : RegsKept s s := .of_cores rfl rfl

theorem RegsKept.trans (h : RegsKept s t) (g : RegsKept t u) : RegsKept s u :=
  ⟨g.cur.trans h.cur, fun i k => (h.ctx i k).trans (g.ctx i k)⟩

theorem RegsKept.ite {c : Prop} [Decidable c] (h : RegsKept s t) (g : RegsKept s u) : RegsKept s (if c then t else u) := by
  split
  · exact h
  · exact g

theorem RegsKept.foldl {α : Type} {f : State → α → State} {l : List α} (h : RegsKept s t) (k : ∀ s a, RegsKept s (f s a)) :
    RegsKept s (l.foldl f t) :=
  List.foldlRecOn l f h fun u hu a _ => hu.trans (k u a)

theorem RegsKept.modCore (s : State) (i : Nat) (f : Core → Core) (h : ∀ c, (f c).ctx = c.ctx) : RegsKept s (s.modCore i f) := by
  refine ⟨rfl, fun j k => ?_⟩
  have same : (s.modCore i f).ctx j k = s.ctx j k :=
    core_modCore_eq (g := fun c => c.context k) (fun c => congrArg (fun v => vget v k Context.reset) (h c)) s i j
  rw [same]
  exact .refl _

theorem RegsKept.modCtx (s : State) (i k : Nat) (f : Context → Context) (h : ∀ c, Context.RegsKept c (f c)) : RegsKept s (s.modCtx i k f) := by
  refine ⟨rfl, fun j l => ?_⟩
  by_cases e : j = i ∧ l = k
  · obtain ⟨rfl, rfl⟩ := e
    by_cases lt : l < 11
    · rw [State.ctx_modCtx_same _ _ _ lt]
      exact h _
    · have out : (s.modCtx j l f).ctx j l = s.ctx j l := by
        unfold State.modCtx State.ctx
        rw [State.core_modCore_same, Core.modContext_out _ _ (Nat.le_of_not_lt lt)]
      rw [out]
      exact .refl _
  · rw [State.ctx_modCtx_other _ _ (by rwa [← not_and_or])]
    exact .refl _

/-! ### What a halt leaves, step by step -/

theorem regsKept_cancelOne (s : State) (ch : Nat) (mark : Bool) (e : CtEntry) : RegsKept s (cancelOne s ch mark e) :=
  .ite (.refl s) (.modCtx s _ _ _ fun c => ⟨rfl, rfl, rfl, rfl, rfl, rfl, rfl, fun idle => by simp [idle]⟩)

theorem regsKept_cancelIf (s : State) (sel : CtEntry → Bool) (mark : Bool) (ch : Nat) : RegsKept s (cancelIf s sel mark ch) :=
  (RegsKept.foldl (.refl s) fun s e => .ite (regsKept_cancelOne s ch mark e) (.refl s)).trans (.of_cores rfl rfl)

theorem regsKept_dropEntries (s : State) (core ctx : Nat) : RegsKept s (dropEntries s core ctx) :=
  (RegsKept.foldl (.refl s) fun s ch => regsKept_cancelIf s _ false ch).trans (.foldl (.refl _) fun _ _ => .of_cores rfl rfl)

theorem regsKept_leaveBarriers (s : State) (core ctx : Nat) : RegsKept s (leaveBarriers s core ctx) := .of_cores rfl rfl

theorem regsKept_leaveSteps (s : State) (core ctx : Nat) : RegsKept s (leaveSteps s core ctx) := .of_cores rfl rfl

theorem regsKept_testStep (s : State) (level domain core : Nat) : RegsKept s (testStep s level domain core) :=
  .ite (.of_cores rfl rfl) (.refl s)

theorem regsKept_retestSteps (s : State) (core : Nat) : RegsKept s (retestSteps s core) :=
  .foldl (.refl s) fun s _ => regsKept_testStep s _ _ core

theorem regsKept_leaveLeader (s : State) (core : Nat) : RegsKept s (leaveLeader s core) := by
  unfold leaveLeader
  exact .modCore s _ _ fun _ => rfl

theorem regsKept_endFollow (s : State) (core cause : Nat) (keep : Bool) : RegsKept s (endFollow s core cause keep) := by
  unfold endFollow
  exact (RegsKept.ite (regsKept_leaveLeader s core) (.refl s)).trans (.modCore _ _ _ fun _ => rfl)

theorem regsKept_traceTiming (s : State) (core ctx code : Nat) : RegsKept s (traceTiming s core ctx code) :=
  .of_cores (kept_traceCtx _ _ _ _ _ _).1 (traceTiming_cores _ _ _ _)

theorem regsKept_missFollow (s : State) (core : Nat) : RegsKept s (missFollow s core) := by
  unfold missFollow
  extract_lets woken goes
  have wakes : RegsKept s woken := .ite (regsKept_traceTiming s core 0 3) (.refl s)
  have resumes : RegsKept woken goes := .modCtx _ _ _ _ fun _ => ⟨rfl, rfl, rfl, rfl, rfl, rfl, rfl, id⟩
  exact (wakes.trans resumes).trans (regsKept_endFollow _ _ _ _)

theorem regsKept_haltFollow (s : State) (core : Nat) : RegsKept s (haltFollow s core) := by
  unfold haltFollow
  have ended : RegsKept s (if (s.core core).fstate = 2 || (s.core core).fstate = 3 then
      endFollow s core (s.core core).fcause.toNat false else s) := .ite (regsKept_endFollow s core _ false) (.refl s)
  exact .ite (ended.trans (.foldl (.refl _) regsKept_missFollow)) ended

theorem regsKept_gangQuiet (s : State) (core : Nat) : RegsKept s (gangQuiet s core) := by
  unfold gangQuiet
  refine .ite (.modCore s core _ fun c => ?_) (.refl s)
  refine List.foldlRecOn (motive := fun d : Core => d.ctx = c.ctx) _ _ rfl fun d hd k _ => ?_
  split
  · exact (changePromise_ctx d k stExpired).trans hd
  · exact hd

/-! ### The three parts of a halt -/

/-- The context's wait is over, and it is DONE. -/
def exited (s : State) (core ctx : Nat) : State :=
  (endWait (withdrawWaits s core ctx) core ctx).modCtx core ctx (fun c => { c with
    status := .done
    exitVal := c.gpr 3
    sleep := .awake
    cwait := none })

/-- It has left contests, barriers and supersteps. -/
def departed (s : State) (core ctx : Nat) : State :=
  retestSteps (leaveSteps (leaveBarriers (dropEntries s core ctx) core ctx) core ctx) core

/-- No contest entry of it is pending. -/
def unentered (s : State) (core ctx : Nat) : State := s.modCtx core ctx (fun c => { c with ctPending := 0 })

/-- It has left follow mode, and its core's promises expire where all is quiet. -/
def settled (s : State) (core ctx : Nat) : State := gangQuiet (if ctx = 0 then haltFollow s core else s) core

theorem haltCtx_eq (s : State) (core ctx : Nat) : haltCtx s core ctx = settled (unentered (departed (exited s core ctx) core ctx) core ctx) core ctx := rfl

theorem ctx_exited (s : State) (core : Nat) (h : ctx < 11) : (exited s core ctx).ctx core ctx = { s.ctx core ctx with
    status := .done
    exitVal := (s.ctx core ctx).gpr 3
    sleep := .awake
    cwait := none } := by
  have ended : (endWait (withdrawWaits s core ctx) core ctx).ctx core ctx = { s.ctx core ctx with cwait := none } := by
    unfold endWait State.ctx
    rw [State.core_modCore_same]
    exact Core.context_modContext_same _ _ h
  rw [exited, State.ctx_modCtx_same _ _ _ h, ended]
  rfl

theorem regsKept_departed (s : State) (core ctx : Nat) : RegsKept s (departed s core ctx) :=
  (((regsKept_dropEntries s core ctx).trans (regsKept_leaveBarriers _ core ctx)).trans (regsKept_leaveSteps _ core ctx)).trans
    (regsKept_retestSteps _ core)

theorem regsKept_unentered (s : State) (core ctx : Nat) : RegsKept s (unentered s core ctx) :=
  .modCtx s core ctx _ fun _ => ⟨rfl, rfl, rfl, rfl, rfl, rfl, rfl, fun _ => rfl⟩

theorem unentered_ctPending (s : State) (core : Nat) (h : ctx < 11) : ((unentered s core ctx).ctx core ctx).ctPending = 0 := by
  rw [unentered, State.ctx_modCtx_same _ _ _ h]

theorem regsKept_settled (s : State) (core ctx : Nat) : RegsKept s (settled s core ctx) :=
  (RegsKept.ite (regsKept_haltFollow s core) (.refl s)).trans (regsKept_gangQuiet _ core)

/-! ### Storage stands still where nothing is traced -/

theorem still_haltFollow (s : State) (core : Nat) (n : NoTrace s) : Still s (haltFollow s core) := by
  unfold haltFollow
  have ended : Still s (if (s.core core).fstate = 2 || (s.core core).fstate = 3 then
      endFollow s core (s.core core).fcause.toNat false else s) := .ite (still_endFollow s core _ false) (.refl s)
  exact .ite (ended.trans (Still.foldl_noTrace _ still_missFollow _ _ (ended.noTrace n))) ended

theorem still_testStep (s : State) (level domain core : Nat) : Still s (testStep s level domain core) :=
  .ite (.of_eq rfl rfl rfl rfl rfl) (.refl s)

theorem still_retestSteps (s : State) (core : Nat) : Still s (retestSteps s core) :=
  Still.foldl _ (fun s l => still_testStep s l _ core) _ s

theorem still_exited (s : State) (core ctx : Nat) : Still s (exited s core ctx) :=
  ((still_withdrawWaits s core ctx).trans (still_modCore _ _ _)).trans (still_modCtx _ _ _ _)

theorem still_leaveSteps (s : State) (core ctx : Nat) : Still s (leaveSteps s core ctx) := .of_eq rfl rfl rfl rfl rfl

theorem still_departed (s : State) (core ctx : Nat) : Still s (departed s core ctx) :=
  (((still_dropEntries s core ctx).trans (still_modCluster _ _ _)).trans (still_leaveSteps _ core ctx)).trans (still_retestSteps _ core)

theorem still_settled (s : State) (core ctx : Nat) (n : NoTrace s) : Still s (settled s core ctx) :=
  (Still.ite (still_haltFollow s core n) (.refl s)).trans (.ite (still_modCore _ _ _) (.refl _))

theorem still_haltCtx (s : State) (core ctx : Nat) (n : NoTrace s) : Still s (haltCtx s core ctx) := by
  have gone : Still s (unentered (departed (exited s core ctx) core ctx) core ctx) :=
    ((still_exited s core ctx).trans (still_departed _ core ctx)).trans (still_modCtx _ _ _ _)
  exact gone.trans (still_settled _ core ctx (gone.noTrace n))

/-- A halted context is DONE with the value of its s3, and keeps its registers. -/
theorem halt_exits (hr : Runs s) : ∃ t, execHalt s = .next t ∧
    t.here.status = .done ∧ t.here.exitVal = s.here.gpr 3 ∧ t.here.s = s.here.s ∧ t.here.v = s.here.v ∧ t.here.m = s.here.m ∧
    t.here.x = s.here.x ∧ t.here.ctPending = 0 ∧ t.here.cwait = none ∧ ((∀ p, (s.part p).trctl = 0) → t.mem = s.mem) := by
  have runs : execHalt s = .next (haltCtx (after s 4 id) s.cur.1 s.cur.2) := by
    rw [execHalt, retire_eq s 4 hr.2]
    rfl
  let left := departed (exited (after s 4 id) s.cur.1 s.cur.2) s.cur.1 s.cur.2
  have leaves : RegsKept (exited (after s 4 id) s.cur.1 s.cur.2) (unentered left s.cur.1 s.cur.2) :=
    (regsKept_departed _ _ _).trans (regsKept_unentered _ _ _)
  have settles : RegsKept (unentered left s.cur.1 s.cur.2) (haltCtx (after s 4 id) s.cur.1 s.cur.2) := regsKept_settled _ _ _
  have kept := leaves.trans settles
  have here : (haltCtx (after s 4 id) s.cur.1 s.cur.2).here = (haltCtx (after s 4 id) s.cur.1 s.cur.2).ctx s.cur.1 s.cur.2 := by
    rw [State.here, kept.cur]
    rfl
  have retired : (after s 4 id).ctx s.cur.1 s.cur.2 = { s.here with
      pc := s.here.pc + 4
      sleep := .awake
      ibpPass := none } := here_after 4 id hr.1
  have regs := kept.ctx s.cur.1 s.cur.2
  rw [ctx_exited _ _ hr.1, retired] at regs
  refine ⟨_, runs, ?_⟩
  rw [here]
  exact ⟨regs.status, regs.exitVal, regs.s, regs.v, regs.m, regs.x,
    (settles.ctx _ _).ctPending (unentered_ctPending _ _ hr.1), regs.cwait, fun n => (still_haltCtx (after s 4 id) _ _ n).mem⟩

end
end Sys2Proof.Machine

namespace Sys2Proof.Machine
/-! # `yield` and `wfe` (R163, R167, R319, R327)

Both fall asleep at once. The end of such a sleep is a retirement that an event makes; what a leader's or a follower's buffer then holds
(R167) changes no context. -/

section
open Sys2Proof.Safety

variable {s : State} {n : Nat}

/-! ### Falling asleep -/

theorem execYield_awake (h : s.here.sleep = .awake) : execYield s = sleepIn s (.yield s.clock) := by rw [execYield, h]

theorem execWfe_awake (h : s.here.sleep = .awake) : execWfe s = sleepIn s (.wfe s.clock (s.me.eventAt = some s.clock)) := by rw [execWfe, h]

theorem execWfe_woken (h : s.here.sleep = .wfe n true) : execWfe s = retire s 4 := by rw [execWfe, h]

/-! ### The end of a sleep -/

theorem here_pushFollow (s : State) (core : Nat) (e : FollowEntry) : (pushFollow s core e).here = s.here := by
  unfold pushFollow
  obtain ⟨cores, leaves⟩ := foldl_modCore_leaves (fun c => { c with fbuf := c.fbuf ++ [e] }) (followersOf s core) s
  have same := core_foldl_modCore_eq (g := fun c => c.context s.cur.2) (f := fun c => { c with fbuf := c.fbuf ++ [e] }) (fun _ => rfl)
    (followersOf s core) s s.cur.1
  rw [State.here, leaves]
  rwa [leaves] at same

theorem here_popFollow (s : State) (core : Nat) (pc : DWord) : (popFollow s core pc).here = s.here := by
  refine core_modCore_eq (g := fun c => c.context s.cur.2) (fun c => ?_) s core s.cur.1
  split
  · split <;> rfl
  · rfl

/-- A context whose sleep has lasted long enough goes on past it. -/
theorem wakeNext_goesOn (i : Instr) (run : s.me.issue = .running) :
    (wakeNext s s.cur.1 s.cur.2 i).here = (after s 4 id).here ∧
    (s.cur.2 ≠ 0 ∨ s.me.fstate ≠ 1 ∧ s.me.fbuf = [] → (wakeNext s s.cur.1 s.cur.2 i).cores = (after s 4 id).cores) := by
  have may : mayRetire s s.cur.1 s.cur.2 = true := by
    rw [State.me] at run
    simp [mayRetire, run]
  have cores : (retireAt s s.cur.1 s.cur.2 ((s.ctx s.cur.1 s.cur.2).pc + 4)).cores = (after s 4 id).cores := retireAt_cores s _
  have here : (retireAt s s.cur.1 s.cur.2 ((s.ctx s.cur.1 s.cur.2).pc + 4)).here = (after s 4 id).here :=
    here_congr cores (retireAt_cur _ _ _ _)
  unfold wakeNext
  dsimp only
  rw [if_neg (by simp [may])]
  by_cases helper : s.cur.2 = 0
  case neg =>
    rw [if_pos (by simp [helper])]
    exact ⟨here, fun _ => cores⟩
  rw [if_neg (by simp [helper])]
  by_cases empty : (s.core s.cur.1).fbuf = []
  · rw [if_pos (by rw [empty]; rfl)]
    by_cases leads : (s.core s.cur.1).fstate = 1
    · rw [if_pos leads]
      exact ⟨(here_pushFollow _ _ _).trans here, fun alone => absurd leads (alone.resolve_left (not_not.2 helper)).1⟩
    · rw [if_neg leads]
      exact ⟨here, fun _ => cores⟩
  · rw [if_neg (by simpa using empty)]
    exact ⟨(here_popFollow _ _ _).trans here, fun alone => absurd (alone.resolve_left (not_not.2 helper)).2 empty⟩

theorem execYieldExpiry_wakes (hc : s.input.core = s.cur.1) (hk : s.input.ctx = s.cur.2) (h : s.here.sleep = .yield n) (hn : n + 16 ≤ s.clock) :
    execYieldExpiry s = .next (wakeNext s s.cur.1 s.cur.2 .yield) := by
  unfold execYieldExpiry
  dsimp only
  rw [hc, hk, show (s.ctx s.cur.1 s.cur.2).sleep = .yield n from h]
  exact congrArg _ (if_pos hn)

theorem execWfeTimeout_wakes {b : Bool} (hc : s.input.core = s.cur.1) (hk : s.input.ctx = s.cur.2) (h : s.here.sleep = .wfe n b)
    (hn : n + 1024 ≤ s.clock) : execWfeTimeout s = .next (wakeNext s s.cur.1 s.cur.2 .wfe) := by
  unfold execWfeTimeout
  dsimp only
  rw [hc, hk, show (s.ctx s.cur.1 s.cur.2).sleep = .wfe n b from h]
  exact congrArg _ (if_pos hn)

end

/-- Settles O9: `halt_exits`, and what the two sleeps begin and end with. -/
theorem haltYieldWait : Obligations.HaltYieldWait := by
  unfold Obligations.HaltYieldWait
  refine ⟨fun s hr => halt_exits hr, fun s hk => ⟨⟨fun h => ?_, fun h => ?_, fun n h => ?_⟩, fun hc hx run => ?_⟩⟩
  · exact ⟨_, execYield_awake h, sleepAt_cores _ _ _ _⟩
  · exact ⟨_, execWfe_awake h, sleepAt_cores _ _ _ _⟩
  · exact ⟨_, execWfe_woken h, retireAt_cores _ _⟩
  · dsimp only
    refine ⟨fun n h hn => ?_, fun n b h hn => ?_⟩
    · exact ⟨_, execYieldExpiry_wakes hc hx h hn, wakeNext_goesOn .yield run⟩
    · exact ⟨_, execWfeTimeout_wakes hc hx h hn, wakeNext_goesOn .wfe run⟩

end Sys2Proof.Machine

namespace Sys2Proof.Machine
/-! # The rendezvous of `follow`, and `unfollow` (R165, R166, R320) -/

section
open Sys2Proof.Safety

variable {s : State} {f : DWord} {leader n : Nat}

/-! ### The running core after a step of its own -/

theorem me_goneTo (s : State) (pc : DWord) (g : Context → Context) : (goneTo s pc g).me = { s.me.modContext s.cur.2 (fun x => { g x with
      pc := pc
      sleep := .awake
      ibpPass := none }) with
    stepDone := s.me.stepDone || (s.me.issue = .stepping && s.me.stepTarget = s.cur.2) } :=
  State.core_modCore_same _ _ _

theorem here_goneTo (h : s.cur.2 < 11) (pc : DWord) (g : Context → Context) : (goneTo s pc g).here = { g s.here with
    pc := pc
    sleep := .awake
    ibpPass := none } := by
  show (goneTo s pc g).me.context s.cur.2 = _
  rw [me_goneTo]
  exact Core.context_modContext_same _ _ h

/-! ### Where no rendezvous is made -/

theorem execFollow_helper (h : s.cur.2 ≠ 0) : execFollow s = .next (takeFault s (flt 1 11)) := by
  unfold execFollow
  dsimp only
  rw [if_pos (bne_iff_ne.2 h)]
  rfl

theorem execUnfollow_helper (h : s.cur.2 ≠ 0) : execUnfollow s = .next (takeFault s (flt 1 11)) := by
  unfold execUnfollow
  rw [if_pos (bne_iff_ne.2 h)]
  rfl

theorem execFollow_alone (h : s.cur.2 = 0) (hm : gangMates s s.cur.1 = []) : execFollow s = retire s 4 := by
  simp [execFollow, h, hm]

/-! ### A core waits for its leader (R166) -/

theorem beginWait_cur (s : State) (core : Nat) (f : DWord) : (beginWait s core f).cur = s.cur := sleepAt_cur _ _ _ _

theorem core_beginWait (s : State) (core : Nat) (f : DWord) : (beginWait s core f).core core = { s.core core with
    fstate := 3
    fwait := some f }.modContext 0 (fun c => { c with sleep := .follow s.clock }) := by
  unfold beginWait
  rw [core_congr (sleepAt_cores _ _ _ _), State.modCtx, State.core_modCore_same, State.core_modCore_same]

theorem core_beginWait_ne {core j : Nat} (h : j ≠ core) (f : DWord) : (beginWait s core f).core j = s.core j := by
  unfold beginWait
  rw [core_congr (sleepAt_cores _ _ _ _), State.modCtx, State.core_modCore_ne _ _ h, State.core_modCore_ne _ _ h]

/-- A core whose leader is on its own way, and may still come, waits. -/
theorem joinFollow_waits (hl : leader ≠ s.cur.1) (hg : leaderGone s leader f = false) (hw : (s.core leader).fwait = none)
    (h3 : (s.core leader).fstate ≠ 3) : joinFollow s leader f = beginWait s s.cur.1 f := by
  have early : leaderLate s leader f = false := by simp [leaderLate, hw]
  have away : ¬((beginWait s s.cur.1 f).core leader).fstate = 3 := by rwa [core_beginWait_ne hl]
  have alone : (decide (((beginWait s s.cur.1 f).core leader).fstate = 3) && allWait (beginWait s s.cur.1 f) leader f) = false := by
    rw [decide_eq_false away, Bool.false_and]
  simp only [joinFollow, early, hg, alone, Bool.false_eq_true, if_false]

theorem execFollow_joins (h : s.cur.2 = 0) (hm : gangMates s s.cur.1 ≠ []) (h0 : s.me.fstate = 0) (hl : leaderOf s s.cur.1 ≠ s.cur.1) :
    execFollow s = .next (joinFollow s (leaderOf s s.cur.1) s.here.pc) := by
  simp [execFollow, h, hm, h0, hl]

/-! ### `unfollow` -/

theorem execUnfollow_own (hr : Runs s) (h : s.cur.2 = 0) (h0 : s.me.fstate = 0) : execUnfollow s = .next (after s 4 id) := by
  have still : (after s 4 id).me.fstate = 0 := by
    rw [after, me_goneTo]
    exact h0
  simp [execUnfollow, h, retire_eq s 4 hr.2, still]

theorem execUnfollow_leads (hr : Runs s) (h : s.cur.2 = 0) (h1 : s.me.fstate = 1) : execUnfollow s =
    .next ((after s 4 id).modMe (fun c => { c with
      fstate := 0
      fcause := 2 })) := by
  have still : (after s 4 id).me.fstate = 1 := by
    rw [after, me_goneTo]
    exact h1
  simp [execUnfollow, h, retire_eq s 4 hr.2, still]

/-! ### The bound of the leader's rendezvous (R166) -/

/-- The rendezvous ends with nobody there: the leader leads none, and those who come later find that it has left. -/
theorem endRendezvous_nobody (h : ∀ j ∈ gangMates s leader, (s.core j).fwait ≠ some f) : ∃ u : State, u.cur = s.cur ∧
    (u.core leader).fstate = 0 ∧ (u.core leader).fwait = none ∧
    endRendezvous s leader f = retireAt u leader 0 (f + 4) := by
  have nobody : (gangMates s leader).filter (waitsAt s f) = [] :=
    List.filter_eq_nil_iff.2 fun j hj => by simp [waitsAt, h j hj]
  let off := (gangMates s leader).filter (fun j => !waitsAt s f j && (s.core j).fstate != 2)
  let left := off.foldl (leftBehind f) s
  let leads := fun (c : Core) => { c with
    fstate := 0
    fwait := none }
  refine ⟨left.modCore leader leads, ?_, by rw [State.core_modCore_same], by rw [State.core_modCore_same], ?_⟩
  · exact List.foldlRecOn (motive := fun t : State => t.cur = s.cur) off (leftBehind f) rfl fun _ ht _ _ => ht
  · unfold endRendezvous
    dsimp only
    rw [nobody]
    rfl

/-- The bound has passed, and no core came: the leader goes on alone. -/
theorem execFollowTimeout_leaves (hc : s.input.core = s.cur.1) (run : s.me.issue = .running) (hs : s.here.sleep = .follow n) (h : s.cur.2 = 0)
    (hf : s.me.fwait = some f) (hl : leaderOf s s.cur.1 = s.cur.1) (hn : n + 1024 ≤ s.clock)
    (hm : ∀ j ∈ gangMates s s.cur.1, (s.core j).fwait ≠ some f) :
    ∃ t, execFollowTimeout s = .next t ∧ t.me.fstate = 0 ∧ t.me.fwait = none ∧ t.here.pc = f + 4 ∧ t.here.sleep = .awake := by
  have wait : (s.core s.cur.1).fwait = some f := hf
  have sleep : (s.ctx s.cur.1 0).sleep = .follow n := by
    rw [← hs, State.here, h]
  have late : leaderLate s s.cur.1 f = true := by
    rw [State.me] at run
    simp [leaderLate, wait, mayRetire, run, sleep, followCycles, hn]
  have leaves : execFollowTimeout s = .next (endRendezvous s s.cur.1 f) := by
    unfold execFollowTimeout
    dsimp only
    rw [hc, wait]
    exact congrArg _ (if_pos (by simp [hl, late]))
  obtain ⟨u, cur, state, none, ends⟩ := endRendezvous_nobody hm
  have ends' : endRendezvous s s.cur.1 f = retireAt u u.cur.1 u.cur.2 (f + 4) := by rw [ends, cur, h]
  have me := me_congr (retireAt_cores u (f + 4)) (retireAt_cur u _ _ _)
  have here := here_congr (retireAt_cores u (f + 4)) (retireAt_cur u _ _ _)
  have awake := here_goneTo (s := u) (by rw [cur, h]; decide) (f + 4) id
  refine ⟨_, leaves.trans (congrArg _ ends'), ?_, ?_, ?_, ?_⟩
  · rw [me, me_goneTo, State.me, cur]
    exact state
  · rw [me, me_goneTo, State.me, cur]
    exact none
  · rw [here, awake]
  · rw [here, awake]

end

/-- Settles O10: each clause by the case of its rule; the last one, the end of a sleep, holds without the context being awake. -/
theorem followMode : Obligations.FollowMode := by
  unfold Obligations.FollowMode
  intro s hr
  refine ⟨fun h => ⟨execFollow_helper h, execUnfollow_helper h⟩, fun h hm => ?_, fun h hm h0 hl hg hw h3 => ?_, execUnfollow_own hr,
    fun h h1 => ⟨_, execUnfollow_leads hr h h1, ?_⟩, fun f n hc run hs h hf hl hn hm => execFollowTimeout_leaves hc run hs h hf hl hn hm⟩
  · exact (execFollow_alone h hm).trans (retire_eq s 4 hr.2)
  · refine ⟨beginWait s s.cur.1 s.here.pc, ?_, ?_⟩
    · exact (execFollow_joins h hm h0 hl).trans (congrArg _ (joinFollow_waits hl hg hw h3))
    · have here : (beginWait s s.cur.1 s.here.pc).here = { s.here with sleep := .follow s.clock } := by
        rw [State.here, beginWait_cur, h, State.ctx, core_beginWait, Core.context_modContext_same _ _ (by decide), State.here, h]
        rfl
      rw [here, State.me, beginWait_cur, core_beginWait]
      exact ⟨rfl, rfl, rfl, rfl⟩
  · let u := Safety.after s 4 id
    have me : (u.modMe (fun c => { c with
        fstate := 0
        fcause := 2 })).me = { u.me with
          fstate := 0
          fcause := 2 } := State.core_modCore_same _ _ _
    refine ⟨by rw [me], by rw [me], ?_⟩
    rw [here_modMe rfl, here_after 4 id hr.1]
    rfl

end Sys2Proof.Machine

namespace Sys2Proof.Machine
/-! # A woken context, and the barrier that is set up anew (R163, R172, R344)

A context that a completed phase has woken keeps its record of the phase until it issues. `binit` may start the phase number anew before
that, and the model then rewrites the record, so that the context stays woken: the cores are not left as they were. -/

section
open Sys2Proof.Safety

variable {s : State} {b : Nat}

theorem vget_map {α : Type} {n : Nat} (v : Vector α n) (g : α → α) {d : α} (hd : g d = d) (i : Nat) : vget (v.map g) i d = g (vget v i d) := by
  by_cases h : i < n <;> simp [vget, Vector.getD, h, hd]

/-- No context waits for a phase that the barrier can have next. -/
def Core.KeptWoken (b : Nat) (c : Core) : Prop := ∀ k ph, (c.context k).sleep = .bwait b ph → ph = 0xffffffff

theorem keepWoken_cur (s : State) (core b : Nat) : (keepWoken s core b).cur = s.cur :=
  List.foldlRecOn (motive := fun t : State => t.cur = s.cur) _ _ rfl fun _ ht _ _ => ht

/-- `keepWoken` rewrites every record of the cluster that names the barrier. -/
theorem keepWoken_rewrites {core j : Nat} (hj : j ∈ (List.range 16).map (coreAt core)) (s : State) (b : Nat) :
    ((keepWoken s core b).core j).KeptWoken b := by
  refine core_foldl_modCore_all (fun c k ph h => ?_) _ s j hj
  rw [Core.context, vget_map _ _ rfl] at h
  split at h
  · split at h
    · cases h
      rfl
    · next y ph' sleep other =>
      rw [sleep] at h
      cases h
      exact absurd rfl other
  · next other => exact absurd h (other b ph)

theorem execBinit_sets {b : BitVec 3} (ho : (s.barrier s.cur.1 b.toNat).owner = some (gangOf s s.cur.1))
    (ha : (s.barrier s.cur.1 b.toNat).arrived = 0) (hs : barrierSleepers s s.cur.1 b.toNat = false) (ra rd : Reg) :
    execBinit b ra rd s = retire ((keepWoken s s.cur.1 b.toNat).modBarrier s.cur.1 b.toNat (fun _ =>
      Barrier.test { owner := some (gangOf s s.cur.1), member := memberMap s s.cur.1 (s.gpr ra) (s.gpr rd), arrived := 0, phase := 0 })) 4 := by
  simp [execBinit, failIf, ho, ha, hs]

/-- After a `binit` no other context of the cluster waits for a phase that the barrier can have next. -/
theorem execBinit_rewrites {t : State} {b : BitVec 3} {ra rd : Reg} (ho : (s.barrier s.cur.1 b.toNat).owner = some (gangOf s s.cur.1))
    (ha : (s.barrier s.cur.1 b.toNat).arrived = 0) (hs : barrierSleepers s s.cur.1 b.toNat = false) (e : execBinit b ra rd s = .next t)
    {j k : Nat} (hj : j ∈ (List.range 16).map (coreAt s.cur.1)) (hk : (j, k) ≠ s.cur) {ph : BitVec 32}
    (h : (t.ctx j k).sleep = .bwait b.toNat ph) : ph = 0xffffffff := by
  let u := (keepWoken s s.cur.1 b.toNat).modBarrier s.cur.1 b.toNat (fun _ =>
    Barrier.test { owner := some (gangOf s s.cur.1), member := memberMap s s.cur.1 (s.gpr ra) (s.gpr rd), arrived := 0, phase := 0 })
  obtain ⟨t', sets, cores, -⟩ := retire_cores u 4
  obtain rfl : t = t' := Host.Outcome.next.inj ((e.symm.trans (execBinit_sets ho ha hs ra rd)).trans sets)
  have cur : u.cur = s.cur := keepWoken_cur s s.cur.1 b.toNat
  have apart : u.cores = (keepWoken s s.cur.1 b.toNat).cores := State.modCluster_cores _ _ _
  rw [ctx_congr cores, ctx_after_other u 4 id (by rwa [cur]), ctx_congr apart] at h
  exact keepWoken_rewrites hj s b.toNat k ph h

end

/-- c1 of core 0 waited for the end of phase 0 of barrier 0, which the core alone owns and which is in phase 1 now. -/
def wokenState : State :=
  { State.reset with
    cores := [(0, Core.reset.modContext 1 (fun c => { c with sleep := .bwait 0 0 }))]
    clusters := [(0, { Cluster.reset with barriers := vset Cluster.reset.barriers 0 { Barrier.free with
      owner := some (10 ^ 9)
      phase := 1 } })] }

/-- No context sleeps on the barrier any more, and none has arrived: c0 may set it up anew. -/
theorem wokenState_free : Safety.Runs wokenState ∧ (wokenState.barrier 0 0).owner = some (gangOf wokenState 0) ∧
    (wokenState.barrier 0 0).arrived = 0 ∧ barrierSleepers wokenState 0 0 = false := by decide

theorem wokenState_record : (wokenState.ctx 0 1).sleep = .bwait 0 0 := by decide

/-- Refutes O23: the obligation has `binit` leave the cores as an instruction without effect leaves them, and in `wokenState` the record
of the woken c1 is rewritten. -/
theorem not_barriers : ¬ Obligations.Barriers := by
  unfold Obligations.Barriers
  intro h
  obtain ⟨runs, owner, arrived, free⟩ := wokenState_free
  obtain ⟨-, -, -, -, -, -, -, binit, -, -⟩ := h wokenState 0 0 0 runs (by decide)
  obtain ⟨t, sets, cores, -⟩ := binit (.inr owner) arrived free
  have record : (t.ctx 0 1).sleep = .bwait 0 0 := by
    rw [ctx_congr cores, ctx_after_other _ _ _ (by decide), wokenState_record]
  have rewritten := execBinit_rewrites (b := 0) owner arrived free sets (j := 0) (k := 1) (by decide) (by decide) record
  exact absurd rewritten (by decide)

end Sys2Proof.Machine

namespace Sys2Proof.Machine
/-! # A superstep at a core number that no package has (R176)

A level-4 step marks the members of other packages by numbers from 100000 on, and a completed step releases no member so marked. The
obligation bounds no core number: the only core of its gang, with the number 100000, completes its step and is not released. -/

/-- How the running context stands after an instruction. -/
def Result.sleep : Result → Option Sleep
  | .next t => some t.here.sleep
  | _ => none

/-- The package after reset, where c0 of core 100000 is to issue. -/
def farState : State := { State.reset with cur := (100000, 0) }

theorem farState_sleeps : Result.sleep (exec (.sstep 0 1) farState) = some (.sstep 1) := by decide

/-- Refutes O24: the obligation has the step complete, and in `farState` its only member sleeps on. -/
theorem not_superstep : ¬ Obligations.Superstep := by
  unfold Obligations.Superstep
  intro h
  obtain ⟨-, -, -, alone, -⟩ := h farState 0 1 (by decide)
  have completes := alone (by decide) (by decide) rfl rfl rfl (by decide) (by decide) (by decide)
  have sleeps := farState_sleeps
  rw [completes] at sleeps
  have awake : (Safety.after farState 4 (fun c => c.setGpr 0 0)).here.sleep = .awake := by
    rw [here_after 4 _ (by decide)]
  exact absurd ((Option.some.inj sleeps).symm.trans awake) (by decide)

end Sys2Proof.Machine

namespace Sys2Proof.Machine
/-! # An advance through an unset proxy (R177, R350)

An advance looks at the mark of a proxy before it looks whether the handle is set. `rinit` leaves no unset handle with that mark, but the
obligation does not ask for one without it: the advance then sends its request to the owner, and faults only at the answer. -/

/-- A fault freezes its core (R269). -/
theorem takeFaultAt_freezes (s : State) (core ctx : Nat) (f : Flt) (w : BitVec 32) :
    ((takeFaultAt s core ctx f w).core core).issue = .frozen := by
  have posts : ∀ (t : State) (k : Packet), ((postFault t core k).core core).issue = (t.core core).issue := fun t k => by
    have same := core_modCore_eq (g := Core.issue) (f := fun c => { c with packet := some k, lastKind := k.kind }) (fun _ => rfl) t core core
    unfold postFault
    dsimp only
    split
    · exact same
    · exact same
  unfold takeFaultAt
  extract_lets pc led frozen marked
  rw [posts]
  have stops : (frozen.core core).issue = .frozen := (stopCore_freezes (traceTiming led core ctx 4) core).2.1
  have same : (marked.core core).issue = (frozen.core core).issue :=
    core_modCore_eq (g := Core.issue) (f := fun c => c.modContext ctx _) (fun _ => rfl) frozen core core
  exact same.trans stops

/-- How the running core stands after an instruction. -/
def Result.issue : Result → Option IssueState
  | .next t => some (t.core 0).issue
  | _ => none

/-- The package after reset, with handle 0 of core 0 unset and marked as a proxy. -/
def unsetProxy : State :=
  { State.reset with cores := [(0, { Core.reset with handles := vset Core.reset.handles 0 { Handle.unset with proxy := true } })] }

theorem unsetProxy_asks : Result.sleep (exec (.radvp 0 0) unsetProxy) = some .answer ∧
    Result.issue (exec (.radvp 0 0) unsetProxy) = some .running := by decide

/-- Refutes O25: the obligation has every use of a handle with COUNT 0 fault with UNSET, and in `unsetProxy` the advance waits for an
answer while its core issues on. -/
theorem not_rings : ¬ Obligations.Rings := by
  unfold Obligations.Rings
  intro h
  obtain ⟨-, -, unset, -⟩ := h unsetProxy 0 0 0 0 (by decide) (by decide)
  have faults := unset (by decide) (.radvp 0 0) (by decide)
  have running := unsetProxy_asks.2
  rw [faults] at running
  exact absurd ((Option.some.inj running).symm.trans (takeFaultAt_freezes unsetProxy 0 0 (flt 10 1) 0)) (by decide)

end Sys2Proof.Machine

namespace Sys2Proof.Machine
/-! # `send`, and the delivery of its message (R178, R351) -/

section
open Sys2Proof.Safety

variable {s t : State} {h : BitVec 4} {rd ra rb : Reg} {m : Msg}

/-! ### A context with no access under way (R212, R215) -/

/-- Bytes that are held for one die are held. -/
theorem unsentBytes_of_none {core ctx id : Nat} (sent : unsentBytes s core ctx id none = false) (d : Nat) :
    unsentBytes s core ctx id (some d) = false := by
  rw [Bool.eq_false_iff] at sent ⊢
  refine fun held => sent ?_
  unfold unsentBytes at held ⊢
  simp only [Bool.or_eq_true, List.any_eq_true, Bool.and_eq_true] at held ⊢
  rcases held with ⟨c, hc, -, mine⟩ | ⟨p, hp, die, w, hw, -, mine⟩
  · exact .inl ⟨c, hc, trivial, mine⟩
  · exact .inr ⟨p, hp, die, w, hw, trivial, mine⟩

theorem mayPerform_of_no_access {core : Nat} (ha : (s.core core).accs = []) {b : Access} (hw : relWaits s core b = false) :
    mayPerform s core b = true := by
  simp [mayPerform, before, ha, hw]

theorem relDrained_of_quiet (ha : s.me.accs = []) (sent : unsentBytes s s.cur.1 s.cur.2 s.nextKey none = false) (scope : Nat) :
    relDrained s scope = true := by
  refine mayPerform_of_no_access ha ?_
  have here : unsentBytes s s.cur.1 (releaseEntry s scope).ctx (releaseEntry s scope).id (some (dieOf s.cur.1)) = false :=
    unsentBytes_of_none sent _
  have die : targetDie s (releaseEntry s scope).place = some (dieOf s.cur.1) := rfl
  rw [relWaits, die]
  simp [here]

theorem lmReadWaits_of_quiet (ha : s.me.accs = []) (hm : s.me.matQ = []) (off n : Nat) : lmReadWaits s off n = false := by
  have queue : (s.core s.cur.1).matQ = [] := hm
  unfold lmReadWaits
  dsimp only
  rw [mayPerform_of_no_access ha (by simp [relWaits, entry])]
  simp [footHolds, queue]

/-! ### The sender (R351) -/

theorem execSend_awake (hs : s.here.sleep = .awake) (ha : s.me.accs = []) (sent : unsentBytes s s.cur.1 s.cur.2 s.nextKey none = false) :
    execSend rd h ra rb s = match sendStatus s h.toNat (s.gpr ra) (s.gpr rb) with
      | some st => retireReg s 4 rd (b64 st)
      | none =>
        if lmReadWaits s (bits (s.gprN rb) 0 19) (bits (s.gprN rb) 19 12 + 1) then sleepIn s .drain
        else sleepIn (sendMessage s (s.gprN ra) h.toNat
          (Memory.reads s.me.lm (bits (s.gprN rb) 0 19) (bits (s.gprN rb) 19 12 + 1))) (.send none) := by
  unfold execSend
  rw [hs]
  dsimp only
  rw [relDrained_of_quiet ha sent, unsentBytes_of_none sent]
  rfl

theorem execSend_answered (hk : s.cur.2 < 11) (hs : s.here.sleep = .awake) (ha : s.me.accs = [])
    (sent : unsentBytes s s.cur.1 s.cur.2 s.nextKey none = false) {st : Nat} (status : sendStatus s h.toNat (s.gpr ra) (s.gpr rb) = some st) :
    execSend rd h ra rb s = .next (after s 4 (fun c => c.setGpr rd.toNat (b64 st))) := by
  rw [execSend_awake hs ha sent, status]
  exact retireReg_eq _ _ _ _ ⟨hk, by rw [hs]; rfl⟩

/-- BADARG. -/
theorem sendStatus_badArg {a b : DWord} (bad : 2 ^ 31 ≤ b.toNat ∨ 3071 < a.toNat ∨ 0x60000 < b.toNat % 2 ^ 19 + (b.toNat / 2 ^ 19 % 2 ^ 12 + 1)) :
    sendStatus s h.toNat a b = some 3 := by
  unfold sendStatus
  dsimp only
  refine if_pos ?_
  have wide := b.isLt
  have some_bad : bits b.toNat 31 33 ≠ 0 ∨ 3071 < a.toNat ∨ 393215 < bits b.toNat 0 19 + bits b.toNat 19 12 := by
    unfold bits
    omega
  rcases some_bad with bad | bad | bad <;> simp [bad]

/-- RESERVED. -/
theorem sendStatus_reserved {a b : DWord} {p : Nat} (hb : b.toNat < 2 ^ 31) (ha : a.toNat < 3072)
    (hl : b.toNat % 2 ^ 19 + (b.toNat / 2 ^ 19 % 2 ^ 12 + 1) ≤ 0x60000) (hp : s.me.part = some p) (hc : (s.part p).holdsCore a.toNat = true)
    (hw : (s.core a.toNat).withdrawn = false) (hh : 14 ≤ h.toNat) (hs : (s.part p).supervisor = a.toNat) :
    sendStatus s h.toNat a b = some 4 := by
  have word : bits b.toNat 31 33 = 0 := by unfold bits; omega
  have range : ¬393215 < bits b.toNat 0 19 + bits b.toNat 19 12 := by unfold bits; omega
  have core : ¬4095 < a.toNat ∧ ¬3071 < a.toNat := by omega
  have reserved : h.toNat = 14 ∨ h.toNat = 15 := by omega
  unfold sendStatus
  dsimp only
  rw [if_neg (by simp [word, range, core, hp, hc, hw]), if_pos (by simp [reserved, hp, hs])]

/-- The message of a `send` with the word `n` of offset and length. -/
def sentMessage (s : State) (h n : Nat) : Msg where
  src := s.cur.1
  srcCtx := s.cur.2
  handle := h
  bytes := Memory.reads s.me.lm (n % 2 ^ 19) (n / 2 ^ 19 % 2 ^ 12 + 1)

/-- The message leaves, and its sender sleeps until it is told its status. -/
theorem execSend_leaves (hk : s.cur.2 < 11) (hs : s.here.sleep = .awake) (ha : s.me.accs = [])
    (sent : unsentBytes s s.cur.1 s.cur.2 s.nextKey none = false) (status : sendStatus s h.toNat (s.gpr ra) (s.gpr rb) = none)
    (hm : s.me.matQ = []) : ∃ t, execSend rd h ra rb s = .next t ∧ t.here.sleep = .send none ∧ t.here.pc = s.here.pc ∧
      (t.core (s.gprN ra)).inbox = (s.core (s.gprN ra)).inbox ++ [sentMessage s h.toNat (s.gprN rb)] := by
  have off : bits (s.gprN rb) 0 19 = s.gprN rb % 2 ^ 19 := by rw [bits, Nat.pow_zero, Nat.div_one]
  let posted := fun (c : Core) => { c with inbox := c.inbox ++ [sentMessage s h.toNat (s.gprN rb)] }
  let u := s.modCore (s.gprN ra) posted
  have here : u.here = s.here := core_modCore_eq (g := fun c => c.context s.cur.2) (f := posted) (fun _ => rfl) s _ _
  have asleep := here_sleepAt (s := u) hk (.send none)
  refine ⟨sleepAt u u.cur.1 u.cur.2 (.send none), ?_, ?_, ?_, ?_⟩
  · rw [execSend_awake hs ha sent, status]
    dsimp only
    rw [lmReadWaits_of_quiet ha hm, off]
    rfl
  · rw [asleep]
  · rw [asleep, here]
  · rw [core_congr (sleepAt_cores u _ _ _)]
    refine (core_modCore_eq (g := Core.inbox) (f := fun c => c.modContext u.cur.2 _) (fun _ => rfl) u _ _).trans ?_
    rw [State.core_modCore_same]

/-! ### What a message's arrival changes (R178) -/

/-- Contexts that wait for no event are left by one. -/
theorem wfeEvent_ctx (s : State) (sel : Nat → Bool) (i k : Nat) (hs : ∀ n b, (s.ctx i k).sleep ≠ .wfe n b) :
    (wfeEvent s sel).ctx i k = s.ctx i k := by
  refine tget_map_rel (R := fun c d : Core => (∀ n b, (c.context k).sleep ≠ .wfe n b) → d.context k = c.context k)
    (fun e => ?_) (fun e => ?_) (fun _ => rfl) s.cores i hs
  · split <;> rfl
  · split
    · intro awake
      rw [Core.context, vget_map _ _ rfl]
      split
      · next n b sleep => exact absurd sleep (awake n b)
      · rfl
    · exact fun _ => rfl

theorem tellSender_eq {α : Type} {g : Core → α} (hg : ∀ c k (f : Context → Context), g (c.modContext k f) = g c) (s : State) (m : Msg) (st i : Nat) :
    g ((tellSender s m st).core i) = g (s.core i) :=
  core_modCore_eq (fun c => hg c _ _) s m.src i

theorem tellSender_tells (hk : m.srcCtx < 11) (hs : (s.ctx m.src m.srcCtx).sleep = .send none) (st : Nat) :
    ((tellSender s m st).ctx m.src m.srcCtx).sleep = .send (some st) := by
  rw [tellSender, State.ctx_modCtx_same _ _ _ hk, hs]

theorem woken_tellSender (s : State) (m : Msg) (st i : Nat) : Woken (s.core i) ((tellSender s m st).core i) := by
  unfold tellSender State.modCtx
  by_cases e : i = m.src
  · rw [e, State.core_modCore_same]
    exact ⟨_, _, rfl⟩
  · rw [State.core_modCore_ne _ _ e]
    exact Woken.refl _

theorem Woken.trans {c d e : Core} (hd : Woken c d) (he : Woken d e) : Woken c e := by
  obtain ⟨_, _, rfl⟩ := hd
  obtain ⟨at', ctx, rfl⟩ := he
  exact ⟨at', ctx, rfl⟩

/-- The receiver's core once a message has been written into its ring. -/
def Core.took (m : Msg) (c : Core) : Core :=
  let r := vget c.handles m.handle Handle.unset
  { c with
    inbox := c.inbox.erase m
    lm := Memory.writes c.lm (r.base.toNat + r.tail.toNat % r.count.toNat * r.ssize.toNat) m.bytes
    handles := vset c.handles m.handle { r with tail := r.tail + 1 } }

theorem deliverInto_eq (s : State) (core : Nat) (m : Msg) : ∃ sel,
    deliverInto (s.modCore core (fun c => { c with inbox := c.inbox.erase m })) core m.handle m.bytes =
      wfeEvent (s.modCore core (Core.took m)) sel := by
  unfold deliverInto movePointer
  dsimp only
  rw [if_neg (by decide)]
  refine ⟨_, congrArg (wfeEvent · _) ?_⟩
  simp only [writePlace, State.setHandle, State.modCore_modCore, State.handle, State.core_modCore_same]
  rfl

/-! ### The delivery (R178) -/

theorem execMessageDeliver_taken (hm : (s.core s.input.core).inbox.find? (fun x => x.handle = s.input.handle) = some m) {st : Nat}
    (status : deliveryStatus (s.handle s.input.core m.handle) m.bytes.length = some st) : execMessageDeliver s = .next (tellSender
      (if st = 0 then deliverInto (s.modCore s.input.core (fun c => { c with inbox := c.inbox.erase m })) s.input.core m.handle m.bytes
        else s.modCore s.input.core (fun c => { c with inbox := c.inbox.erase m })) m st) := by
  unfold execMessageDeliver
  dsimp only
  rw [hm]
  dsimp only
  rw [status]

theorem execMessageDeliver_waits (hm : (s.core s.input.core).inbox.find? (fun x => x.handle = s.input.handle) = some m)
    (full : deliveryStatus (s.handle s.input.core m.handle) m.bytes.length = none) : execMessageDeliver s = .next s := by
  unfold execMessageDeliver
  dsimp only
  rw [hm]
  dsimp only
  rw [full]

/-- A message that its handle does not take writes nothing. -/
theorem messageDeliver_refuses (hm : (s.core s.input.core).inbox.find? (fun x => x.handle = s.input.handle) = some m) {st : Nat}
    (status : deliveryStatus (s.handle s.input.core m.handle) m.bytes.length = some st) (hst : st ≠ 0) :
    ∃ t, execMessageDeliver s = .next t ∧ (t.core s.input.core).inbox = (s.core s.input.core).inbox.erase m ∧
      (∀ j, (t.core j).lm = (s.core j).lm ∧ (t.core j).handles = (s.core j).handles) ∧ t.mem = s.mem ∧
      (m.srcCtx < 11 → (s.ctx m.src m.srcCtx).sleep = .send none → (t.ctx m.src m.srcCtx).sleep = .send (some st)) := by
  let erased := fun (c : Core) => { c with inbox := c.inbox.erase m }
  let u := s.modCore s.input.core erased
  refine ⟨tellSender u m st, ?_, ?_, fun j => ⟨?_, ?_⟩, rfl, fun hk hs => tellSender_tells hk ?_ st⟩
  · rw [execMessageDeliver_taken hm status, if_neg hst]
  · rw [tellSender_eq (g := Core.inbox) (fun _ _ _ => rfl), State.core_modCore_same]
  · rw [tellSender_eq (g := Core.lm) (fun _ _ _ => rfl)]
    exact core_modCore_eq (g := Core.lm) (f := erased) (fun _ => rfl) s _ _
  · rw [tellSender_eq (g := Core.handles) (fun _ _ _ => rfl)]
    exact core_modCore_eq (g := Core.handles) (f := erased) (fun _ => rfl) s _ _
  · have same : u.ctx m.src m.srcCtx = s.ctx m.src m.srcCtx :=
      core_modCore_eq (g := fun c => c.context m.srcCtx) (f := erased) (fun _ => rfl) s _ _
    rw [same, hs]

/-- A message that is taken stands whole in the slot at TAIL. -/
theorem messageDeliver_takes (hm : (s.core s.input.core).inbox.find? (fun x => x.handle = s.input.handle) = some m)
    (status : deliveryStatus (s.handle s.input.core m.handle) m.bytes.length = some 0) : ∃ t, execMessageDeliver s = .next t ∧
      Woken ((s.core s.input.core).took m) (t.core s.input.core) ∧
      (m.srcCtx < 11 → (s.ctx m.src m.srcCtx).sleep = .send none → (t.ctx m.src m.srcCtx).sleep = .send (some 0)) := by
  obtain ⟨sel, into⟩ := deliverInto_eq s s.input.core m
  let u := s.modCore s.input.core (Core.took m)
  refine ⟨tellSender (wfeEvent u sel) m 0, ?_, ?_, fun hk hs => tellSender_tells hk ?_ 0⟩
  · rw [execMessageDeliver_taken hm status, if_pos rfl, into]
  · have woken := woken_wfeEvent u sel s.input.core
    rw [State.core_modCore_same] at woken
    exact woken.trans (woken_tellSender _ _ _ _)
  · have same : u.ctx m.src m.srcCtx = s.ctx m.src m.srcCtx :=
      core_modCore_eq (g := fun c => c.context m.srcCtx) (f := Core.took m) (fun _ => rfl) s _ _
    rw [wfeEvent_ctx u sel _ _ (by rw [same, hs]; exact fun _ _ => Sleep.noConfusion), same, hs]

/-! ### What the interface decides -/

variable {r : Handle} {n : Nat}

theorem deliveryStatus_unset (h : r.count = 0 ∨ r.proxy = true) : deliveryStatus r n = some 2 := by
  rcases h with h | h <;> simp [deliveryStatus, h]

/-- A handle that is set and is no proxy decides by length and room. -/
theorem deliveryStatus_set (hc : r.count ≠ 0) (hp : r.proxy = false) :
    deliveryStatus r n = if r.ssize.toNat < n then some 1 else if r.room = 0 then none else some 0 := by
  rw [deliveryStatus, if_neg (by rw [hp, decide_eq_false hc]; exact Bool.noConfusion)]

theorem deliveryStatus_tooLong (hc : r.count ≠ 0) (hp : r.proxy = false) (h : r.ssize.toNat < n) : deliveryStatus r n = some 1 := by
  rw [deliveryStatus_set hc hp, if_pos h]

theorem deliveryStatus_takes (hc : r.count ≠ 0) (hp : r.proxy = false) (hl : n ≤ r.ssize.toNat)
    (h : (r.tail - r.head).toNat < r.count.toNat) : deliveryStatus r n = some 0 := by
  have room : r.room ≠ 0 := by
    unfold Handle.room Handle.filled
    omega
  rw [deliveryStatus_set hc hp, if_neg (Nat.not_lt.2 hl), if_neg room]

theorem deliveryStatus_full (hc : r.count ≠ 0) (hp : r.proxy = false) (hl : n ≤ r.ssize.toNat)
    (h : r.count.toNat ≤ (r.tail - r.head).toNat) : deliveryStatus r n = none := by
  have room : r.room = 0 := by
    unfold Handle.room Handle.filled
    omega
  rw [deliveryStatus_set hc hp, if_neg (Nat.not_lt.2 hl), if_pos room]

end

/-- Settles O26: the sender by the status that the checks give it, the receiver by what its handle decides. -/
theorem messages : Obligations.Messages := by
  unfold Obligations.Messages
  refine ⟨fun s rd ra rb h hk => ⟨fun hs ha sent => ⟨fun bad => ?_, fun p hb hc hl hp hcore hw hh hsup => ?_, fun status hm => ?_⟩, fun st hs => ?_⟩,
    fun s m => ?_⟩
  · exact execSend_answered hk hs ha sent (sendStatus_badArg bad)
  · exact execSend_answered hk hs ha sent (sendStatus_reserved hb hc hl hp hcore hw hh hsup)
  · exact execSend_leaves hk hs ha sent status hm
  · obtain ⟨t, gives, cores⟩ := retireReg_cores hk 4 rd (b64 st)
    refine ⟨t, ?_, cores⟩
    show execSend rd h ra rb s = _
    rw [execSend, hs]
    exact gives
  · dsimp only
    intro hm hh
    refine ⟨fun unset => ?_, fun hc hp hl => ?_, fun hc hp hl room => ?_, fun hc hp hl full => ?_⟩
    · exact messageDeliver_refuses hm (deliveryStatus_unset unset) (by decide)
    · exact messageDeliver_refuses hm (deliveryStatus_tooLong hc hp hl) (by decide)
    · obtain ⟨t, takes, ⟨at', ctx, core⟩, told⟩ := messageDeliver_takes hm (deliveryStatus_takes hc hp hl room)
      refine ⟨t, takes, ?_, ?_, fun a out => ?_, ?_, told⟩ <;> rw [core]
      · rfl
      · exact Memory.reads_writes _ _ _
      · exact Memory.read_writes_out _ _ _ out
      · exact congrArg Handle.tail (vget_vset_same _ _ _ hh)
    · exact execMessageDeliver_waits hm (deliveryStatus_full hc hp hl full)

end Sys2Proof.Machine

namespace Sys2Proof.Machine
/-! # The commands of the vector and the matrix engine (R353, R371, R380) -/

section
open Sys2Proof.Safety

variable {s t : State} {i : Instr} {j : Job}

/-! ### A queue with a free entry (R161, R164) -/

theorem slot_eq_getElem (c : Core) {k : Nat} (hk : k < 4) : c.slot k = c.arm[k] := by
  simp [Core.slot, vget, Vector.getD, Array.getD, hk]

theorem any_firing_iff (c : Core) (e : Engine) : c.arm.toList.any (c.firing e) = true ↔ ∃ k, k < 4 ∧ c.firing e (c.slot k) = true := by
  rw [List.any_eq_true]
  constructor
  · rintro ⟨a, mem, fires⟩
    obtain ⟨k, hk, rfl⟩ := List.mem_iff_getElem.1 mem
    have small : k < 4 := by simpa using hk
    exact ⟨k, small, by rw [slot_eq_getElem c small]; simpa using fires⟩
  · rintro ⟨k, hk, fires⟩
    exact ⟨c.slot k, by simp [slot_eq_getElem c hk], fires⟩

theorem queueFull_iff (c : Core) (e : Engine) : c.queueFull e = true ↔
    2 ≤ (c.queue e).length ∨ (e = .matrix ∧ c.recWaiting = true) ∨ ∃ k, k < 4 ∧ c.firing e (c.slot k) = true := by
  rw [← any_firing_iff, ← or_assoc]
  simp only [Core.queueFull, Bool.or_eq_true, Bool.and_eq_true, decide_eq_true_eq]

theorem queueFull_vector (c : Core) : c.queueFull .vector = true ↔
    2 ≤ c.vecQ.length ∨ ∃ k, k < 4 ∧ c.firing .vector (c.slot k) = true :=
  (queueFull_iff c .vector).trans (by simp [Core.queue])

theorem queueFull_matrix (c : Core) : c.queueFull .matrix = true ↔
    2 ≤ c.matQ.length ∨ c.recWaiting = true ∨ ∃ k, k < 4 ∧ c.firing .matrix (c.slot k) = true :=
  (queueFull_iff c .matrix).trans (by simp [Core.queue])

theorem queueFull_copy (c : Core) : c.queueFull .copy = true ↔
    2 ≤ c.copyQ.length ∨ ∃ k, k < 4 ∧ c.firing .copy (c.slot k) = true :=
  (queueFull_iff c .copy).trans (by simp [Core.queue])

/-- What a context holds takes no entry. -/
theorem queueFull_modContext (c : Core) (k : Nat) (f : Context → Context) (e : Engine) : (c.modContext k f).queueFull e = c.queueFull e := by
  cases e <;> rfl

theorem queueFull_modHere (s : State) (f : Context → Context) (e : Engine) : (s.modHere f).me.queueFull e = s.me.queueFull e :=
  core_modCore_eq (g := fun c => c.queueFull e) (f := fun c => c.modContext s.cur.2 f) (fun c => queueFull_modContext c _ f e) s s.cur.1 s.cur.1

/-! ### The queue takes the command -/

theorem setQueue_context (c : Core) (e : Engine) (q : List Job) (k : Nat) : (c.setQueue e q).context k = c.context k := by
  cases e <;> rfl

theorem here_appendJob (s : State) (core : Nat) (e : Engine) (j : Job) : (appendJob s core e j).here = s.here :=
  core_modCore_eq (g := fun c => c.context s.cur.2) (fun c => setQueue_context c e _ _) _ core _

/-- A command that finds a free entry enters its queue and retires. -/
theorem enqueue_enters (hs : s.here.sleep.asleep = false) {e : Engine} (room : ¬s.me.queueFull e = true) (j : Job) (len : Nat) :
    enqueue s e j len = .next (after (appendJob s s.cur.1 e j) len id) := by
  rw [enqueue, if_neg room]
  exact retire_eq _ _ (by rw [here_appendJob]; exact hs)

/-! ### Vector commands (R353) -/

theorem exec_vector (h : engineOf i = some .vector) (s : State) : exec i s = vectorCmd s i := by
  unfold engineOf at h
  split at h <;> simp only [Option.some.injEq, reduceCtorEq] at h <;> rfl

theorem vectorCmd_full (full : s.me.queueFull .vector = true) : vectorCmd s i = sleepIn s .stall := if_pos full

theorem vectorCmd_faults (room : ¬s.me.queueFull .vector = true) {f : Flt} (bad : vecCheck (captureOps s.here (newJob s i)) = some f) :
    vectorCmd s i = raise s f := by
  rw [vectorCmd, if_neg room, bad]

theorem vectorCmd_enters (hr : Runs s) (room : ¬s.me.queueFull .vector = true) (good : vecCheck (captureOps s.here (newJob s i)) = none) :
    vectorCmd s i = .next (after (appendJob (s.modHere (fun c => c.marked i)) s.cur.1 .vector (captureOps s.here (newJob s i))) 4 id) := by
  have awake : (s.modHere (fun c => c.marked i)).here.sleep.asleep = false := by
    rw [here_modHere s _ hr.1]
    exact hr.2
  have cur : (s.modHere (fun c => c.marked i)).cur = s.cur := rfl
  rw [vectorCmd, if_neg room, good]
  dsimp only
  rw [enqueue_enters awake (by rw [queueFull_modHere]; exact room), cur]

/-! ### Matrix commands (R371) -/

theorem exec_matrix (h : engineOf i = some .matrix) (s : State) : exec i s = matrixCmd s i := by
  unfold engineOf at h
  split at h <;> simp only [Option.some.injEq, reduceCtorEq] at h <;> rfl

/-- The named operands of a matrix command, with the place of its parameter block. -/
def matrixJob (s : State) (i : Instr) : Job :=
  { captureOps s.here (newJob s i) with off := shapeQp (captureOps s.here (newJob s i)).x }

/-- The instruction is an `mmg` whose index vector, by its shape word `x`, is not produced. -/
def indexUnmade (c : Context) (i : Instr) (x : DWord) : Prop :=
  ∃ (cls : BitVec 2) (a1 b1 : Bool) (ad : BitVec 2) (ra rb : Reg) (xr : BitVec 3), i = .mmg cls a1 b1 ad ra rb xr ∧
    c.busyV.getLsbD (x.toNat / 2 ^ 16 % 2 ^ 5) = true

theorem indexWaits_iff : indexWaits s j = true ↔ indexUnmade s.here j.instr j.x := by
  unfold indexWaits indexUnmade
  split
  · next cls a1 b1 ad ra rb xr h =>
    constructor
    · exact fun unmade => ⟨cls, a1, b1, ad, ra, rb, xr, h, unmade⟩
    · rintro ⟨_, _, _, _, _, _, _, -, unmade⟩
      exact unmade
  · next other =>
    constructor
    · exact fun h => nomatch h
    · rintro ⟨_, _, _, _, _, _, _, h, -⟩
      exact (other _ _ _ _ _ _ _ h).elim

section
variable (room : ¬s.me.queueFull .matrix = true)
include room

theorem matrixCmd_index (unmade : indexWaits s (matrixJob s i) = true) : matrixCmd s i = sleepIn s .drain := by
  rw [matrixCmd, if_neg room]
  exact if_pos unmade

variable (made : ¬indexWaits s (matrixJob s i) = true)
include made

theorem matrixCmd_made : matrixCmd s i = match matCheckEarly (matrixJob s i) <|> paramRange (matrixJob s i) with
    | some f => raise s f
    | none =>
      if matWaits s (matrixJob s i) then sleepIn s .drain
      else match matCheckLate (captureMatrix s.me s.here (matrixJob s i)) with
        | some f => raise s f
        | none => enqueue s .matrix (captureMatrix s.me s.here (matrixJob s i)) 4 := by
  rw [matrixCmd, if_neg room]
  exact if_neg made

theorem matrixCmd_faultsEarly {f : Flt} (bad : (matCheckEarly (matrixJob s i) <|> paramRange (matrixJob s i)) = some f) :
    matrixCmd s i = raise s f := by
  rw [matrixCmd_made room made, bad]

variable (good : (matCheckEarly (matrixJob s i) <|> paramRange (matrixJob s i)) = none)
include good

theorem matrixCmd_waits (waits : matWaits s (matrixJob s i) = true) : matrixCmd s i = sleepIn s .drain := by
  rw [matrixCmd_made room made, good]
  exact if_pos waits

variable (ready : matWaits s (matrixJob s i) = false)
include ready

theorem matrixCmd_faultsLate {f : Flt} (bad : matCheckLate (captureMatrix s.me s.here (matrixJob s i)) = some f) :
    matrixCmd s i = raise s f := by
  rw [matrixCmd_made room made, good]
  dsimp only
  rw [ready, bad]
  rfl

theorem matrixCmd_enters (hs : s.here.sleep.asleep = false) (late : matCheckLate (captureMatrix s.me s.here (matrixJob s i)) = none) :
    matrixCmd s i = .next (after (appendJob s s.cur.1 .matrix (captureMatrix s.me s.here (matrixJob s i))) 4 id) := by
  rw [matrixCmd_made room made, good]
  dsimp only
  rw [ready, late]
  exact enqueue_enters hs room _ _

end

theorem matrixCmd_full (full : s.me.queueFull .matrix = true) : matrixCmd s i = sleepIn s .stall := if_pos full

end

/-- Settles O27: every vector command is `vectorCmd`, every matrix command `matrixCmd`, and each of their branches is one clause. -/
theorem engineCommands : Obligations.EngineCommands := by
  unfold Obligations.EngineCommands
  refine ⟨fun s i hr hi => ?_, fun s i hr hi => ?_⟩
  · dsimp only
    rw [exec_vector hi, ← queueFull_vector]
    exact ⟨vectorCmd_full, fun f room bad => vectorCmd_faults room bad, fun good room => vectorCmd_enters hr room good⟩
  · dsimp only
    have unmade : indexWaits s (matrixJob s i) = true ↔ indexUnmade s.here i (matrixJob s i).x := indexWaits_iff
    rw [exec_matrix hi, ← queueFull_matrix]
    refine ⟨matrixCmd_full, fun room wait => matrixCmd_index room (unmade.2 wait),
      fun f room made bad => matrixCmd_faultsEarly room (mt unmade.1 made) bad,
      fun room made good waits => matrixCmd_waits room (mt unmade.1 made) good waits,
      fun room made good ready => ⟨fun f bad => matrixCmd_faultsLate room (mt unmade.1 made) good ready bad,
        fun late => matrixCmd_enters room (mt unmade.1 made) good ready hr.2 late⟩⟩

end Sys2Proof.Machine

namespace Sys2Proof.Machine
/-! # The commands of the copy engine (R200, R385 to R387) -/

section
open Sys2Proof.Safety

variable {s : State} {i : Instr} {tag : Nat} {f : Flt}

/-! ### The tag (R200) -/

def Core.tagTaken (tag : Nat) (c : Core) : Core := { c with
  tagBusy := c.tagBusy ||| 1#64 <<< tag
  tagDone := c.tagDone &&& ~~~(1#64 <<< tag)
  tagErr := c.tagErr &&& ~~~(1#64 <<< tag) }

def Core.tagCompleted (tag : Nat) (c : Core) : Core := { c with
  tagBusy := c.tagBusy &&& ~~~(1#64 <<< tag)
  tagDone := c.tagDone ||| 1#64 <<< tag }

theorem takeTag_eq (s : State) (core tag : Nat) : takeTag s core tag = s.modCore core (Core.tagTaken tag) := rfl

theorem here_takeTag (s : State) (core tag : Nat) : (takeTag s core tag).here = s.here :=
  core_modCore_eq (g := fun c => c.context s.cur.2) (f := Core.tagTaken tag) (fun _ => rfl) s core _

/-- A tag that is taken lets no more firings in. -/
theorem firing_tagTaken (c : Core) (e : Engine) (a : ArmSlot) (h : (c.tagTaken tag).firing e a = true) : c.firing e a = true := by
  unfold Core.firing at h ⊢
  split at h
  · exact h
  · simp only [Bool.and_eq_true] at h ⊢
    obtain ⟨pending, free⟩ := h
    refine ⟨pending, ?_⟩
    split at free <;> simp_all [Core.tagTaken, BitVec.getLsbD_or]

theorem queueFull_takeTag (e : Engine) (h : (takeTag s s.cur.1 tag).me.queueFull e = true) : s.me.queueFull e = true := by
  have me : (takeTag s s.cur.1 tag).me = s.me.tagTaken tag := State.core_modCore_same s s.cur.1 _
  rw [me, queueFull_iff] at h
  rw [queueFull_iff]
  refine h.imp (fun long => ?_) (Or.imp id fun ⟨k, hk, fires⟩ => ⟨k, hk, firing_tagTaken _ _ _ fires⟩)
  cases e <;> exact long

/-! ### The branches of a copy command -/

/-- The job of a copy command under its tag, with its shape record. -/
def copyJob (s : State) (i : Instr) (tag : Nat) : Job := { captureShape s.me (captureOps s.here (newJob s i)) with tag := some tag }

theorem copyCmd_full (full : s.me.queueFull .copy = true) : copyCmd s i tag = sleepIn s .stall := if_pos full

section
variable (room : ¬s.me.queueFull .copy = true)
include room

theorem copyCmd_faultsEarly (bad : copyCheckEarly (copyOp i) (captureOps s.here (newJob s i)).x = some f) : copyCmd s i tag = raise s f := by
  rw [copyCmd, if_neg room, bad]

variable (early : copyCheckEarly (copyOp i) (captureOps s.here (newJob s i)).x = none)
  (ready : (copyOp i != 0 && lmReadWaits s (captureOps s.here (newJob s i)).x.toNat 32) = false)
include early ready

theorem copyCmd_ready : copyCmd s i tag =
    match copyCheckLate (copyOp i) (copyJob s i tag).a.toNat (copyJob s i tag).b.toNat (copyJob s i tag).shape with
    | some f => raise s f
    | none =>
      if s.me.tagBusy.getLsbD tag then sleepIn s .tagBusy
      else if copyEmpty (copyJob s i tag) then
        retire ((endTag (takeTag s s.cur.1 tag) s.cur.1 tag false).modMe (fun c => c.addPulse .copy none)) 4
      else enqueue (takeTag s s.cur.1 tag) .copy (copyJob s i tag) 4 := by
  rw [copyCmd, if_neg room, early]
  dsimp only
  rw [if_neg (by rw [ready]; exact Bool.noConfusion)]
  rfl

theorem copyCmd_faultsLate
    (bad : copyCheckLate (copyOp i) (copyJob s i tag).a.toNat (copyJob s i tag).b.toNat (copyJob s i tag).shape = some f) :
    copyCmd s i tag = raise s f := by
  rw [copyCmd_ready room early ready, bad]

variable (late : copyCheckLate (copyOp i) (copyJob s i tag).a.toNat (copyJob s i tag).b.toNat (copyJob s i tag).shape = none)
include late

theorem copyCmd_tagBusy (busy : s.me.tagBusy.getLsbD tag = true) : copyCmd s i tag = sleepIn s .tagBusy := by
  rw [copyCmd_ready room early ready, late]
  exact if_pos busy

variable (idle : s.me.tagBusy.getLsbD tag = false)
include idle

theorem copyCmd_enters (hs : s.here.sleep.asleep = false) (rows : 0 < copyRows (copyJob s i tag)) (len : 0 < copyRowLen (copyJob s i tag)) :
    copyCmd s i tag = .next (after (appendJob (takeTag s s.cur.1 tag) s.cur.1 .copy (copyJob s i tag)) 4 id) := by
  have bytes : copyEmpty (copyJob s i tag) = false := by
    rw [copyEmpty, decide_eq_false rows.ne', decide_eq_false len.ne', Bool.or_false]
  rw [copyCmd_ready room early ready, late]
  dsimp only
  rw [idle, bytes]
  exact enqueue_enters (by rw [here_takeTag]; exact hs) (mt (queueFull_takeTag .copy) room) _ _

theorem copyCmd_ends (empty : copyEmpty (copyJob s i tag) = true) : copyCmd s i tag =
    retire ((endTag (takeTag s s.cur.1 tag) s.cur.1 tag false).modMe (fun c => c.addPulse .copy none)) 4 := by
  rw [copyCmd_ready room early ready, late]
  dsimp only
  rw [idle, empty]
  rfl

end

/-! ### A copy of no bytes -/

/-- The state once a tag has been taken and has completed. -/
def copiedNone (s : State) (tag : Nat) : State :=
  (endTag (takeTag s s.cur.1 tag) s.cur.1 tag false).modMe (fun c => c.addPulse .copy none)

theorem here_copiedNone (hs : s.here.sleep.asleep = false) : (copiedNone s tag).here = s.here := by
  let u := (takeTag s s.cur.1 tag).modCore s.cur.1 (Core.tagCompleted tag)
  have here : u.here = s.here :=
    (core_modCore_eq (g := fun c => c.context s.cur.2) (f := Core.tagCompleted tag) (fun _ => rfl) (takeTag s s.cur.1 tag) _ _).trans
      (here_takeTag s _ _)
  calc (copiedNone s tag).here = (wfeEvent u (· == s.cur.1)).here :=
        core_modCore_eq (g := fun c => c.context s.cur.2) (f := fun c => c.addPulse .copy none) (fun _ => rfl) (wfeEvent u (· == s.cur.1)) s.cur.1 s.cur.1
    _ = u.here := wfeEvent_ctx u _ _ _ fun n b sleep => by
        have awake : u.here.sleep.asleep = false := by rw [here]; exact hs
        rw [show u.here.sleep = .wfe n b from sleep] at awake
        exact Bool.noConfusion awake
    _ = s.here := here

theorem me_copiedNone (s : State) (tag : Nat) :
    ∃ c, Woken ((s.me.tagTaken tag).tagCompleted tag) c ∧ (copiedNone s tag).me = c.addPulse .copy none := by
  refine ⟨_, ?_, State.core_modCore_same _ s.cur.1 _⟩
  have woken := woken_wfeEvent ((takeTag s s.cur.1 tag).modCore s.cur.1 (Core.tagCompleted tag)) (· == s.cur.1) s.cur.1
  rw [State.core_modCore_same, takeTag_eq, State.core_modCore_same] at woken
  exact woken

theorem retire_copiedNone (hr : Runs s) (small : tag < 64) : ∃ t, retire (copiedNone s tag) 4 = .next t ∧ t.here.pc = s.here.pc + 4 ∧
    t.me.tagDone.getLsbD tag = true ∧ t.me.tagBusy.getLsbD tag = false ∧ t.me.copyQ = s.me.copyQ ∧
    t.me.pulses = (s.me.addPulse .copy none).pulses ∧ t.mem = s.mem := by
  have here := here_copiedNone (tag := tag) hr.2
  obtain ⟨_, ⟨at', ctx, rfl⟩, me⟩ := me_copiedNone s tag
  have retired := me_goneTo (copiedNone s tag) ((copiedNone s tag).here.pc + b64 4) id
  rw [me] at retired
  refine ⟨_, retire_of_here hr 4 here, ?_, ?_⟩
  · rw [here_after 4 id (s := copiedNone s tag) hr.1, here]
    rfl
  · rw [after, retired]
    refine ⟨?_, ?_, rfl, rfl, rfl⟩
    · show ((s.me.tagDone &&& ~~~(1#64 <<< tag)) ||| 1#64 <<< tag).getLsbD tag = true
      simp [small]
    · show ((s.me.tagBusy ||| 1#64 <<< tag) &&& ~~~(1#64 <<< tag)).getLsbD tag = false
      simp [small]

/-! ### The length word and the record's offset (R387) -/

theorem copyCheckEarly_cpy (x : DWord) : copyCheckEarly 0 x = if x.toNat < 2 ^ 32 then none else some (flt 3 6) := by
  have word : bits x.toNat 32 32 = x.toNat / 2 ^ 32 := by
    have := x.isLt
    unfold bits
    omega
  unfold copyCheckEarly failIf
  dsimp only
  rw [word, if_pos rfl]
  by_cases narrow : x.toNat < 2 ^ 32
  · rw [if_pos narrow, Nat.div_eq_of_lt narrow]
    rfl
  · have upper : x.toNat / 2 ^ 32 ≠ 0 := by omega
    rw [if_neg narrow, if_pos (bne_iff_ne.2 upper)]

section
variable {op : Nat} (hop : op ≠ 0) {x : DWord}
include hop

theorem copyCheckEarly_wide (wide : 2 ^ 19 ≤ x.toNat) : copyCheckEarly op x = some (flt 3 6) := by
  have upper : bits x.toNat 19 45 ≠ 0 := by
    have := x.isLt
    unfold bits
    omega
  simp [copyCheckEarly, hop, failIf, upper]

theorem copyCheckEarly_misaligned (narrow : x.toNat < 2 ^ 19) (odd : x.toNat % 32 ≠ 0) : copyCheckEarly op x = some (flt 2 1) := by
  have upper : bits x.toNat 19 45 = 0 := by
    unfold bits
    omega
  simp [copyCheckEarly, hop, failIf, upper, odd]

theorem copyCheckEarly_good (even : x.toNat % 32 = 0) (inside : x.toNat + 31 ≤ 393215) : copyCheckEarly op x = none := by
  have upper : bits x.toNat 19 45 = 0 := by
    unfold bits
    omega
  simp [copyCheckEarly, hop, failIf, upper, even, Nat.not_lt.2 inside]

end

/-! ### The clauses of the statement -/

/-- What a copy command does once its checks have passed. -/
theorem copyCmd_queued (hr : Runs s) (room : ¬s.me.queueFull .copy = true)
    (early : copyCheckEarly (copyOp i) (captureOps s.here (newJob s i)).x = none)
    (ready : (copyOp i != 0 && lmReadWaits s (captureOps s.here (newJob s i)).x.toNat 32) = false)
    (late : copyCheckLate (copyOp i) (copyJob s i tag).a.toNat (copyJob s i tag).b.toNat (copyJob s i tag).shape = none) :
    (s.me.tagBusy.getLsbD tag = true → copyCmd s i tag = .next (sleepAt s s.cur.1 s.cur.2 .tagBusy)) ∧
    (s.me.tagBusy.getLsbD tag = false → 0 < copyRows (copyJob s i tag) → 0 < copyRowLen (copyJob s i tag) →
      copyCmd s i tag = .next (after (appendJob (takeTag s s.cur.1 tag) s.cur.1 .copy (copyJob s i tag)) 4 id)) :=
  ⟨copyCmd_tagBusy room early ready late, fun idle => copyCmd_enters room early ready late idle hr.2⟩

/-- A copy through a shape record (R386), whose offset is the word `x`. -/
theorem copyCmd_shaped (hr : Runs s) (hop : copyOp i ≠ 0) {x : DWord} (hx : (captureOps s.here (newJob s i)).x = x) :
    (¬s.me.queueFull .copy = true → 2 ^ 19 ≤ x.toNat → copyCmd s i tag = .next (takeFault s (flt 3 6))) ∧
    (¬s.me.queueFull .copy = true → x.toNat < 2 ^ 19 → x.toNat % 32 ≠ 0 → copyCmd s i tag = .next (takeFault s (flt 2 1))) ∧
    (¬s.me.queueFull .copy = true → x.toNat % 32 = 0 → x.toNat + 31 ≤ 393215 → lmReadWaits s x.toNat 32 = false →
      (∀ f, copyCheckLate (copyOp i) (copyJob s i tag).a.toNat (copyJob s i tag).b.toNat (copyJob s i tag).shape = some f →
        copyCmd s i tag = .next (takeFault s f)) ∧
      (copyCheckLate (copyOp i) (copyJob s i tag).a.toNat (copyJob s i tag).b.toNat (copyJob s i tag).shape = none →
        (s.me.tagBusy.getLsbD tag = true → copyCmd s i tag = .next (sleepAt s s.cur.1 s.cur.2 .tagBusy)) ∧
        (s.me.tagBusy.getLsbD tag = false → 0 < copyRows (copyJob s i tag) → 0 < copyRowLen (copyJob s i tag) →
          copyCmd s i tag = .next (after (appendJob (takeTag s s.cur.1 tag) s.cur.1 .copy (copyJob s i tag)) 4 id)))) := by
  subst hx
  refine ⟨fun room wide => copyCmd_faultsEarly room (copyCheckEarly_wide hop wide),
    fun room narrow odd => copyCmd_faultsEarly room (copyCheckEarly_misaligned hop narrow odd), fun room even inside quiet => ?_⟩
  have early := copyCheckEarly_good hop even inside
  have ready : (copyOp i != 0 && lmReadWaits s (captureOps s.here (newJob s i)).x.toNat 32) = false := by rw [quiet, Bool.and_false]
  exact ⟨fun f bad => copyCmd_faultsLate room early ready bad, copyCmd_queued hr room early ready⟩

end

/-- Settles O28: the four commands are `copyCmd`; `cpy` has its length in the word `x`, the others have a record there. -/
theorem copyCommands : Obligations.CopyCommands := by
  unfold Obligations.CopyCommands
  intro s tag ra rb x hr
  dsimp only
  rw [← queueFull_copy]
  have plain (room : ¬s.me.queueFull .copy = true) (narrow : (s.xr x.toNat).toNat < 2 ^ 32) :
      copyCheckEarly (copyOp (.cpy tag ra rb x)) (captureOps s.here (newJob s (.cpy tag ra rb x))).x = none :=
    (copyCheckEarly_cpy _).trans (if_pos narrow)
  refine ⟨fun full i hi => ?_, fun room wide => ?_, fun room narrow => ?_, fun room zero idle => ?_, fun i hi => ?_⟩
  · simp only [List.mem_cons, List.not_mem_nil, or_false] at hi
    rcases hi with rfl | rfl | rfl | rfl <;> exact copyCmd_full full
  · exact copyCmd_faultsEarly room ((copyCheckEarly_cpy _).trans (if_neg (Nat.not_lt.2 wide)))
  · exact copyCmd_queued hr room (plain room narrow) rfl rfl
  · have empty : copyEmpty (copyJob s (.cpy tag ra rb x) tag.toNat) = true := by
      have len : copyRowLen (copyJob s (.cpy tag ra rb x) tag.toNat) = 0 := by
        show bits (s.xr x.toNat).toNat 0 32 = 0
        rw [zero]
        rfl
      rw [copyEmpty, decide_eq_true len, Bool.or_true]
    have ends : exec (.cpy tag ra rb x) s = _ := copyCmd_ends room (plain room (by omega)) rfl rfl idle empty
    rw [ends]
    exact retire_copiedNone hr tag.isLt
  · simp only [List.mem_cons, List.not_mem_nil, or_false] at hi
    rcases hi with rfl | rfl | rfl
    · exact copyCmd_shaped (i := .cpy2 tag ra rb x) hr (Nat.succ_ne_zero 0) rfl
    · exact copyCmd_shaped (i := .cpyg tag ra rb x) hr (Nat.succ_ne_zero 1) rfl
    · exact copyCmd_shaped (i := .cpys tag ra rb x) hr (Nat.succ_ne_zero 2) rfl

end Sys2Proof.Machine

namespace Sys2Proof.Machine
/-! # The crossbar's instructions (R395 to R397) -/

section
open Sys2Proof.Safety

variable {s t : State} {idx : BitVec 5} {ra rb rd : Reg} {slot : BitVec 2}

theorem runs_modMe (hr : Runs s) {g : Core → Core} (h : (g s.me).ctx = s.me.ctx) : Runs (s.modMe g) := runs_congr hr rfl (here_modMe h)

theorem retire_modMe (hr : Runs s) {g : Core → Core} (h : (g s.me).ctx = s.me.ctx) (len : Nat) :
    retire (s.modMe g) len = .next (after (s.modMe g) len id) := retire_of_here hr len (here_modMe h)

theorem retireReg_modMe (hr : Runs s) {g : Core → Core} (h : (g s.me).ctx = s.me.ctx) (len : Nat) (v : DWord) :
    retireReg (s.modMe g) len rd v = .next (after (s.modMe g) len (fun c => c.setGpr rd.toNat v)) :=
  retireReg_eq _ _ _ _ (runs_modMe hr h)

/-! ### `evterm` (R395) -/

/-- A word that a term or a counter refuses. -/
def termBad (n v : Nat) : Bool := bits v 16 48 != 0 || (if n < 16 then bits v 10 5 != 0 else bits v 4 4 != 0 || 8 ≤ v % 16)

theorem upper_eq_zero_iff {v : Nat} (word : v < 2 ^ 64) : bits v 16 48 = 0 ↔ v < 2 ^ 16 := by
  unfold bits
  omega

theorem termBad_iff {n v : Nat} (word : v < 2 ^ 64) :
    termBad n v = true ↔ 2 ^ 16 ≤ v ∨ (n < 16 ∧ v / 2 ^ 10 % 2 ^ 5 ≠ 0) ∨ (16 ≤ n ∧ (v / 16 % 16 ≠ 0 ∨ 8 ≤ v % 16)) := by
  have upper : (bits v 16 48 != 0) = true ↔ 2 ^ 16 ≤ v := by rw [bne_iff_ne, ne_eq, upper_eq_zero_iff word, Nat.not_lt]
  unfold termBad
  rw [Bool.or_eq_true, upper]
  by_cases term : n < 16
  · simp [term, Nat.not_le.2 term, bits]
  · simp [term, Nat.not_lt.1 term, bits]

theorem execEvterm_refuses (bad : termBad idx.toNat (s.gprN ra) = true) : execEvterm idx ra s = raise s (flt 3 6) := if_pos bad

theorem execEvterm_term (hr : Runs s) (good : termBad idx.toNat (s.gprN ra) = false) (hn : idx.toNat < 16) : execEvterm idx ra s =
    .next (after (s.modMe (fun c => { c with terms := vset c.terms idx.toNat (BitVec.ofNat 16 (s.gprN ra)) })) 4 id) := by
  have sets : execEvterm idx ra s = _ := if_neg (by rw [Bool.not_eq_true]; exact good)
  rw [sets]
  simp only [if_pos hn]
  exact retire_modMe hr rfl 4

theorem execEvterm_counter (hr : Runs s) (good : termBad idx.toNat (s.gprN ra) = false) (hn : 16 ≤ idx.toNat) : execEvterm idx ra s =
    .next (after (s.modMe (fun c => c.setCounter (idx.toNat - 16) { config := BitVec.ofNat 16 (s.gprN ra), count := 0 })) 4 id) := by
  have sets : execEvterm idx ra s = _ := if_neg (by rw [Bool.not_eq_true]; exact good)
  rw [sets]
  simp only [if_neg (Nat.not_lt.2 hn)]
  exact retire_modMe hr rfl 4

/-! ### `evclr` (R397) -/

theorem execEvclr_term (hr : Runs s) (hn : idx.toNat < 16) : execEvclr rd idx s =
    .next (after (s.modMe (fun c => { c with terms := vset c.terms idx.toNat 0 })) 4
      (fun c => c.setGpr rd.toNat (BitVec.ofNat 64 (vget s.me.terms idx.toNat 0).toNat))) := by
  have clears : execEvclr rd idx s = _ := if_pos hn
  rw [clears, retireReg_modMe hr rfl, BitVec.ofNat_toNat]

theorem execEvclr_counter (hr : Runs s) (h1 : 16 ≤ idx.toNat) (h2 : idx.toNat < 24) : execEvclr rd idx s =
    .next (after (s.modMe (fun c => c.setCounter (idx.toNat - 16) { config := 0, count := 0 })) 4
      (fun c => c.setGpr rd.toNat (BitVec.ofNat 64 ((s.me.counter (idx.toNat - 16)).config.toNat +
        2 ^ 16 * (s.me.counter (idx.toNat - 16)).count.toNat)))) := by
  have clears : execEvclr rd idx s = _ := (if_neg (Nat.not_lt.2 h1)).trans (if_pos h2)
  rw [clears]
  exact retireReg_modMe hr rfl 4 _

theorem execEvclr_slot (hr : Runs s) (h : 24 ≤ idx.toNat) : execEvclr rd idx s =
    .next (after (s.modMe (fun c => c.modSlot (idx.toNat - 24) (fun a => { a with rep := 0, pending := 0, order := [] }))) 4
      (fun c => c.setGpr rd.toNat (BitVec.ofNat 64 ((s.me.slot (idx.toNat - 24)).rep + 2 ^ 9 * (s.me.slot (idx.toNat - 24)).pending +
        2 ^ 32 * (s.me.slot (idx.toNat - 24)).discard.toNat)))) := by
  have clears : execEvclr rd idx s = _ := (if_neg (by omega)).trans (if_neg (by omega))
  rw [clears]
  exact retireReg_modMe hr rfl 4 _

/-! ### `evarm` (R396) -/

theorem slotWordBad_iff (w : DWord) : slotWordBad w = true ↔
    ¬(0 < w.toNat % 2 ^ 9 ∧ w.toNat % 2 ^ 9 ≤ 256 ∧ w.toNat / 2 ^ 11 % 2 ^ 21 = 0 ∧ w.toNat < 2 ^ 56) := by
  have word := w.isLt
  have rep : slotRep w = w.toNat % 2 ^ 9 := by rw [slotRep, bits, Nat.pow_zero, Nat.div_one]
  simp only [slotWordBad, Bool.or_eq_true, bne_iff_ne, decide_eq_true_eq, rep, bits]
  omega

theorem armable_iff (w : Nat) : armable w = true ↔
    w % 2 = 1 ∧ (0x20 ≤ w / 2 % 64 ∧ w / 2 % 64 ≤ 0x2a ∨ 0x2c ≤ w / 2 % 64 ∧ w / 2 % 64 ≤ 0x30 ∨ w / 2 % 64 = 0x34) := by
  simp only [armable, Bool.and_eq_true, Bool.or_eq_true, decide_eq_true_eq, or_assoc]

theorem sext_eq_toInt (v : Nat) : sext v 24 = (BitVec.ofNat 24 v).toInt := by
  simp only [sext, BitVec.toInt, BitVec.toNat_ofNat]
  split_ifs <;> omega

/-- The slot once a word has been armed: REP, INIT and STRIDE from the slot word `sw`, the operands that the word names. -/
def ArmSlot.armed (s : State) (i : Instr) (w sw k : Nat) (a : ArmSlot) : ArmSlot :=
  let j := captureOps s.here (newJob s i)
  { a with
    word := BitVec.ofNat 32 w
    instr := some i
    rep := sw % 2 ^ 9
    pending := sw / 2 ^ 9 % 4
    fired := 0
    ctx := s.cur.2
    stride := (BitVec.ofNat 24 (sw / 2 ^ 32)).toInt
    key := s.nextKey
    discard := 0
    a := j.a
    b := j.b
    x := j.x
    order := List.replicate (sw / 2 ^ 9 % 4) (4 * s.nextKey + k) }

theorem armedSlot_eq (s : State) (i : Instr) (w : Nat) (sw : DWord) (a : ArmSlot) (k : Nat) :
    armedSlot s i (BitVec.ofNat 32 w) sw a k = a.armed s i w sw.toNat k := by
  simp only [armedSlot, ArmSlot.armed, slotRep, slotInit, bits, Nat.pow_zero, Nat.div_one, sext_eq_toInt, Nat.reducePow]

/-- The word at the offset that `evarm` names. -/
def armedWord (s : State) (ra : Reg) : Nat := leNat (Memory.reads s.me.im (s.gprN ra) 4)

theorem offsetBad_iff (n : Nat) : (decide (n % 2 = 1) || decide (65532 < n)) = true ↔ ¬(n % 2 = 0 ∧ n ≤ 65532) := by
  simp only [Bool.or_eq_true, decide_eq_true_eq]
  omega

theorem execEvarm_badWord (bad : slotWordBad (s.gpr rb) = true) : execEvarm slot ra rb s = raise s (flt 3 6) := if_pos bad

section
variable (good : ¬slotWordBad (s.gpr rb) = true)
include good

theorem execEvarm_badOffset (outside : ¬(s.gprN ra % 2 = 0 ∧ s.gprN ra ≤ 65532)) : execEvarm slot ra rb s = raise s (flt 2 2) :=
  (if_neg good).trans (if_pos ((offsetBad_iff _).2 outside))

variable (inside : s.gprN ra % 2 = 0 ∧ s.gprN ra ≤ 65532)
include inside

theorem execEvarm_unarmable (other : armable (armedWord s ra) = false) : execEvarm slot ra rb s = raise s (flt 1 34) :=
  (if_neg good).trans ((if_neg (mt (offsetBad_iff _).1 (not_not.2 inside))).trans (if_pos (by rw [← armedWord, other]; rfl)))

variable (arms : armable (armedWord s ra) = true)
include arms

/-- What is left of `evarm` once its word can be armed. -/
theorem execEvarm_armable : execEvarm slot ra rb s = match decode32 (armedWord s ra) with
    | .error e => .next (takeFaultAt s s.cur.1 s.cur.2 (flt 1 e.sub) (BitVec.ofNat 32 (armedWord s ra)))
    | .ok i =>
      if (s.me.slot slot.toNat).rep != 0 || (s.me.slot slot.toNat).pending != 0 then raise s (flt 1 35)
      else if !namedReady s.here i then sleepIn s .drain
      else match retire ({ s with nextKey := s.nextKey + 1 }.modMe (fun c => c.modSlot slot.toNat (fun _ =>
          armedSlot s i (BitVec.ofNat 32 (armedWord s ra)) (s.gpr rb) (s.me.slot slot.toNat) slot.toNat))) 4 with
        | .next s' => .next (refill s' s.cur.1)
        | r => r :=
  (if_neg good).trans ((if_neg (mt (offsetBad_iff _).1 (not_not.2 inside))).trans
    (if_neg (by rw [← armedWord, arms]; exact Bool.noConfusion)))

theorem execEvarm_undecoded {e : DecErr} (word : decode32 (armedWord s ra) = .error e) : execEvarm slot ra rb s =
    .next (takeFaultAt s s.cur.1 s.cur.2 (flt 1 e.sub) (BitVec.ofNat 32 (armedWord s ra))) := by
  rw [execEvarm_armable good inside arms, word]

variable {i : Instr} (word : decode32 (armedWord s ra) = .ok i)
include word

theorem execEvarm_busy (busy : (s.me.slot slot.toNat).rep ≠ 0 ∨ (s.me.slot slot.toNat).pending ≠ 0) :
    execEvarm slot ra rb s = raise s (flt 1 35) := by
  rw [execEvarm_armable good inside arms, word]
  exact if_pos (by simpa only [Bool.or_eq_true, bne_iff_ne] using busy)

variable (rep : (s.me.slot slot.toNat).rep = 0) (pending : (s.me.slot slot.toNat).pending = 0)
include rep pending

theorem execEvarm_waits (unmade : namedReady s.here i = false) : execEvarm slot ra rb s = sleepIn s .drain := by
  rw [execEvarm_armable good inside arms, word]
  dsimp only
  rw [rep, pending, unmade]
  rfl

theorem execEvarm_arms (hr : Runs s) (made : namedReady s.here i = true) : execEvarm slot ra rb s =
    .next (refill (after ({ s with nextKey := s.nextKey + 1 }.modMe (fun c => c.modSlot slot.toNat
      (ArmSlot.armed s i (armedWord s ra) (s.gprN rb) slot.toNat))) 4 id) s.cur.1) := by
  rw [execEvarm_armable good inside arms, word]
  dsimp only
  rw [if_neg (by rw [rep, pending]; exact Bool.noConfusion), if_neg (by rw [made]; exact Bool.noConfusion), armedSlot_eq]
  have keyed : Runs { s with nextKey := s.nextKey + 1 } := hr
  have retires := retire_modMe keyed (g := fun c => c.modSlot slot.toNat
    (fun _ => ArmSlot.armed s i (armedWord s ra) (s.gpr rb).toNat slot.toNat (s.me.slot slot.toNat))) rfl 4
  rw [retires]
  rfl

end

end

/-- Settles O32: the branches of the three instructions, with the conditions of the rules read off the fields of their words. -/
theorem crossbar : Obligations.Crossbar := by
  unfold Obligations.Crossbar
  intro s rd ra rb idx slot hr
  have refuses : termBad idx.toNat (s.gprN ra) = true ↔ _ := termBad_iff (s.gpr ra).isLt
  have word := slotWordBad_iff (s.gpr rb)
  have arms := armable_iff (armedWord s ra)
  dsimp only
  refine ⟨fun bad => execEvterm_refuses (refuses.2 bad),
    fun hn wide reserved => execEvterm_term hr (Bool.eq_false_iff.2 (mt refuses.1 (by omega))) hn,
    fun h1 _ wide reserved source => execEvterm_counter hr (Bool.eq_false_iff.2 (mt refuses.1 (by omega))) h1,
    fun hn => execEvclr_term hr hn, fun h1 h2 => execEvclr_counter hr h1 h2, fun h1 _ => execEvclr_slot hr h1,
    fun bad => execEvarm_badWord (word.2 bad), fun good outside => ?_, fun good inside other => ?_, fun good inside armed => ?_⟩ <;>
    replace good := mt word.1 (not_not.2 good)
  · exact execEvarm_badOffset good outside
  · exact execEvarm_unarmable good inside (Bool.eq_false_iff.2 (mt arms.1 other))
  · replace armed := arms.2 armed
    exact ⟨fun e undecoded => execEvarm_undecoded good inside armed undecoded,
      fun i decoded => ⟨execEvarm_busy good inside armed decoded, execEvarm_waits good inside armed decoded,
        fun rep pending => execEvarm_arms good inside armed decoded rep pending hr⟩⟩

end Sys2Proof.Machine

namespace Sys2Proof.Machine
/-! # The memories of cores, their images and the poison stay canonical (R185, R208; log 3)

`CoresOk` speaks of four fields: the cores, the images that partitions and nodes keep, and the poisoned lines. An update of anything
else keeps it as it stands, and so does one of a core that leaves its IM and LM: `CoresOk.modCore` takes from an update, by `rfl`,
that it does, and `CoresOk.modCoreMem` asks of one that writes them that it keeps `Core.MemOk`. What is left to prove lies in the few
places that write a local or an instruction memory (a place, a promise record, a matrix job, the debug window, the launch of a gang),
that take a core from an image, or that add a poisoned line. As in the part above on `MemOk`, there is one rule per function, which
follows its branches. -/

section

/-! ### The form of cores, images and poison -/

/-- A core's IM and LM stand in their canonical form. -/
def Core.MemOk (c : Core) : Prop := Memory.wf c.im = true ∧ Memory.wf c.lm = true

/-- The images that a dormant partition keeps of its cores are canonical (R95). -/
def Partition.SavedOk (q : Partition) : Prop := ∀ e ∈ q.savedCores, e.2.MemOk

/-- The images that a suspended node keeps of its cores are canonical (R152). -/
def Node.ImagesOk (n : Node) : Prop := ∀ g ∈ n.images, g.core.MemOk

/-- Every core and every image is canonical, and every poisoned line lies at a multiple of 128 (R208). -/
def CoresOk (s : State) : Prop :=
  (∀ e ∈ s.cores, e.2.MemOk) ∧ (∀ e ∈ s.parts, e.2.SavedOk) ∧ (∀ n ∈ s.nodes, n.ImagesOk) ∧ ∀ l ∈ s.poison, l % 128 = 0

theorem coreMemoryOk_iff (s : State) : Safety.CoreMemoryOk s = true ↔ CoresOk s := by
  simp [Safety.CoreMemoryOk, CoresOk, Core.MemOk, Partition.SavedOk, Node.ImagesOk, and_assoc]

/-- The next state, where there is one, has canonical cores. -/
def NextCoresOk (r : Result) : Prop := ∀ t, r = .next t → CoresOk t

/-- The reads and writes of a chunk's port keep the cores canonical. -/
structure CoresPort (p : ChunkPort) : Prop where
  read : ∀ {s : State} {pl : Place} {handoff : Bool} {va n : Nat}, CoresOk s → CoresOk (p.read s pl handoff va n).1
  write : ∀ {s : State} {pl : Place} {handoff : Bool} {va : Nat} {bs : List Byte} {run : Cover},
    CoresOk s → CoresOk (p.write s pl handoff va bs run).1

variable {s t : State}

protected theorem CoresOk.ite {c : Prop} {_ : Decidable c} (hs : CoresOk s) (ht : CoresOk t) : CoresOk (if c then s else t) := by
  split
  · exact hs
  · exact ht

/-- As `CoresOk.ite`, of an answer that holds a state. -/
protected theorem CoresOk.iteOf {α : Type} (f : α → State) {c : Prop} {_ : Decidable c} {x y : α} (hx : CoresOk (f x))
    (hy : CoresOk (f y)) : CoresOk (f (if c then x else y)) := by
  split
  · exact hx
  · exact hy

protected theorem CoresOk.foldl {α : Type} {f : State → α → State} {l : List α} (hs : CoresOk s)
    (k : ∀ s a, CoresOk s → CoresOk (f s a)) : CoresOk (l.foldl f s) :=
  List.foldlRecOn l f hs fun s h a _ => k s a h

/-- As `CoresOk.foldl`, where a step needs that its value is one of the list. -/
protected theorem CoresOk.foldlMem {α : Type} {f : State → α → State} {l : List α} (hs : CoresOk s)
    (k : ∀ s, ∀ a ∈ l, CoresOk s → CoresOk (f s a)) : CoresOk (l.foldl f s) :=
  List.foldlRecOn l f hs fun s h a ha => k s a ha h

protected theorem CoresOk.getD {o : Option State} (k : ∀ t, o = some t → CoresOk t) (hs : CoresOk s) : CoresOk (o.getD s) := by
  cases o with
  | none => exact hs
  | some t => exact k t rfl

theorem CoresOk.fst_of_eq {α : Type} {p : State × α} {a : α} (h : CoresOk p.1) (e : p = (t, a)) : CoresOk t := by
  subst e
  exact h

protected theorem NextCoresOk.next (hs : CoresOk s) : NextCoresOk (.next s) := by
  intro t e
  cases e
  exact hs

protected theorem NextCoresOk.ite {c : Prop} {_ : Decidable c} {r q : Result} (hr : NextCoresOk r) (hq : NextCoresOk q) :
    NextCoresOk (if c then r else q) := by
  split
  · exact hr
  · exact hq

/-! ### Tables -/

theorem mem_tput {α : Type} {t : Table α} {k : Nat} {a : α} {e : Nat × α} (h : e ∈ tput t k a) : e = (k, a) ∨ e ∈ t := by
  induction t with
  | nil => simpa [tput] using h
  | cons x r ih =>
    rw [tput] at h
    split at h
    · simpa using h
    · split at h
      · exact (List.mem_cons.1 h).imp_right (List.mem_cons_of_mem x)
      · obtain rfl | h := List.mem_cons.1 h
        · exact .inr List.mem_cons_self
        · exact (ih h).imp_right (List.mem_cons_of_mem x)

/-- What a property of all entries, and of the value of an absent one, says of the value that is read. -/
theorem tget_of_forall {α : Type} {P : α → Prop} {t : Table α} {k : Nat} {d : α} (h : ∀ e ∈ t, P e.2) (hd : P d) :
    P (tget t k d) := by
  induction t with
  | nil => exact hd
  | cons x r ih =>
    obtain ⟨k', a⟩ := x
    have h' := List.forall_mem_cons.1 h
    by_cases e : k' = k
    · simpa [tget, tfind, e] using h'.1
    · simpa [tget, tfind, e] using ih h'.2

theorem forall_tput {α : Type} {P : α → Prop} {t : Table α} {k : Nat} {a : α} (h : ∀ e ∈ t, P e.2) (ha : P a) :
    ∀ e ∈ tput t k a, P e.2 := by
  intro e he
  obtain rfl | he := mem_tput he
  · exact ha
  · exact h e he

/-! ### The four fields -/

theorem Core.memOk_reset : Core.reset.MemOk := ⟨rfl, rfl⟩

theorem Partition.savedOk_absent : Partition.absent.SavedOk := fun _ h => nomatch h

theorem CoresOk.core (hs : CoresOk s) (i : Nat) : (s.core i).MemOk := tget_of_forall hs.1 Core.memOk_reset

theorem CoresOk.me (hs : CoresOk s) : s.me.MemOk := hs.core s.cur.1

theorem CoresOk.part (hs : CoresOk s) (p : Nat) : (s.part p).SavedOk := tget_of_forall hs.2.1 Partition.savedOk_absent

theorem CoresOk.node (hs : CoresOk s) {n : Node} {k : Nat} (h : s.node? k = some n) : n.ImagesOk :=
  hs.2.2.1 n (List.mem_of_find?_eq_some h)

protected theorem CoresOk.setCores {c : Table Core} (hs : CoresOk s) (hc : ∀ e ∈ c, e.2.MemOk) : CoresOk { s with cores := c } :=
  ⟨hc, hs.2⟩

protected theorem CoresOk.setParts {c : Table Partition} (hs : CoresOk s) (hc : ∀ e ∈ c, e.2.SavedOk) :
    CoresOk { s with parts := c } :=
  ⟨hs.1, hc, hs.2.2⟩

protected theorem CoresOk.setNodes {l : List Node} (hs : CoresOk s) (hl : ∀ n ∈ l, n.ImagesOk) : CoresOk { s with nodes := l } :=
  ⟨hs.1, hs.2.1, hl, hs.2.2.2⟩

protected theorem CoresOk.setPoison {l : List Nat} (hs : CoresOk s) (hl : ∀ a ∈ l, a % 128 = 0) : CoresOk { s with poison := l } :=
  ⟨hs.1, hs.2.1, hs.2.2.1, hl⟩

/-- Lines that are no longer poisoned. -/
protected theorem CoresOk.filterPoison {f : Nat → Bool} (hs : CoresOk s) : CoresOk { s with poison := s.poison.filter f } :=
  hs.setPoison fun a h => hs.2.2.2 a (List.mem_of_mem_filter h)

protected theorem CoresOk.filterNodes {f : Node → Bool} (hs : CoresOk s) : CoresOk { s with nodes := s.nodes.filter f } :=
  hs.setNodes fun n h => hs.2.2.1 n (List.mem_of_mem_filter h)

protected theorem CoresOk.mapNodes {f : Node → Node} (hs : CoresOk s) (k : ∀ n : Node, n.ImagesOk → (f n).ImagesOk) :
    CoresOk { s with nodes := s.nodes.map f } :=
  hs.setNodes (List.forall_mem_map.2 fun n h => k n (hs.2.2.1 n h))

protected theorem CoresOk.addNodeImages {n : Node} (hs : CoresOk s) (hn : n.ImagesOk) : CoresOk { s with nodes := s.nodes ++ [n] } :=
  hs.setNodes fun m h => (List.mem_append.1 h).elim (hs.2.2.1 m) fun h => by
    obtain rfl := List.mem_singleton.1 h
    exact hn

protected theorem CoresOk.addNode {n : Node} (e : n.images = []) (hs : CoresOk s) : CoresOk { s with nodes := s.nodes ++ [n] } :=
  .addNodeImages hs fun g h => by
    rw [e] at h
    cases h

protected theorem CoresOk.setCore {i : Nat} {c : Core} (hs : CoresOk s) (hc : c.MemOk) : CoresOk (State.setCore s i c) :=
  hs.setCores (forall_tput hs.1 hc)

/-- An update of a core keeps the form where it keeps that of the core's memories. -/
protected theorem CoresOk.modCoreMem {i : Nat} {f : Core → Core} (hs : CoresOk s) (k : ∀ c : Core, c.MemOk → (f c).MemOk) :
    CoresOk (State.modCore s i f) :=
  hs.setCore (k _ (hs.core i))

theorem Core.memOk_of_keeps {f : Core → Core} (e : (fun c => ((f c).im, (f c).lm)) = fun c => (c.im, c.lm)) {c : Core} (h : c.MemOk) :
    (f c).MemOk := by
  obtain ⟨him, hlm⟩ := Prod.mk.inj (congrFun e c)
  exact ⟨him ▸ h.1, hlm ▸ h.2⟩

/-- An update that leaves a core's two memories as they are. -/
protected theorem CoresOk.modCore {i : Nat} {f : Core → Core} (e : (fun c => ((f c).im, (f c).lm)) = fun c => (c.im, c.lm))
    (hs : CoresOk s) : CoresOk (State.modCore s i f) :=
  .modCoreMem hs fun _ => Core.memOk_of_keeps e

protected theorem CoresOk.mapCores {f : Nat × Core → Nat × Core} (hs : CoresOk s)
    (k : ∀ e : Nat × Core, e.2.MemOk → (f e).2.MemOk) : CoresOk { s with cores := s.cores.map f } :=
  hs.setCores (List.forall_mem_map.2 fun e h => k e (hs.1 e h))

protected theorem CoresOk.modCtx {i k : Nat} {f : Context → Context} (hs : CoresOk s) : CoresOk (State.modCtx s i k f) :=
  .modCore rfl hs

protected theorem CoresOk.modMeMem {f : Core → Core} (hs : CoresOk s) (k : ∀ c : Core, c.MemOk → (f c).MemOk) :
    CoresOk (State.modMe s f) :=
  .modCoreMem hs k

protected theorem CoresOk.modMe {f : Core → Core} (e : (fun c => ((f c).im, (f c).lm)) = fun c => (c.im, c.lm)) (hs : CoresOk s) :
    CoresOk (State.modMe s f) :=
  .modCore e hs

protected theorem CoresOk.modHere {f : Context → Context} (hs : CoresOk s) : CoresOk (State.modHere s f) := .modCtx hs

protected theorem CoresOk.modPartSaved {p : Nat} {f : Partition → Partition} (hs : CoresOk s)
    (k : ∀ q : Partition, q.SavedOk → (f q).SavedOk) : CoresOk (State.modPart s p f) :=
  hs.setParts (forall_tput hs.2.1 (k _ (hs.part p)))

/-- An update of a partition that leaves its saved images. -/
protected theorem CoresOk.modPart {p : Nat} {f : Partition → Partition} (e : (fun q => (f q).savedCores) = fun q => q.savedCores)
    (hs : CoresOk s) : CoresOk (State.modPart s p f) :=
  .modPartSaved hs fun q h x hx => h x (congrFun e q ▸ hx)

protected theorem CoresOk.modNodeImages {key : Nat} {f : Node → Node} (hs : CoresOk s)
    (k : ∀ n : Node, n.ImagesOk → (f n).ImagesOk) : CoresOk (State.modNode s key f) :=
  .mapNodes hs fun n h => by
    split
    · exact k n h
    · exact h

/-- An update of a node that leaves its images. -/
protected theorem CoresOk.modNode {key : Nat} {f : Node → Node} (e : (fun n => (f n).images) = fun n => n.images)
    (hs : CoresOk s) : CoresOk (State.modNode s key f) :=
  .modNodeImages hs fun n h x hx => h x (congrFun e n ▸ hx)

protected theorem CoresOk.modDie {d : Nat} {f : Die → Die} (hs : CoresOk s) : CoresOk (State.modDie s d f) := hs

protected theorem CoresOk.modCluster {k : Nat} {f : Cluster → Cluster} (hs : CoresOk s) : CoresOk (State.modCluster s k f) := hs

protected theorem CoresOk.modChan {ch : Nat} {f : Channel → Channel} (hs : CoresOk s) : CoresOk (State.modChan s ch f) := hs

protected theorem CoresOk.modVf {v : Nat} {f : Vf → Vf} (hs : CoresOk s) : CoresOk (State.modVf s v f) := hs

protected theorem CoresOk.setGpr {r : Reg} {v : DWord} (hs : CoresOk s) : CoresOk (State.setGpr s r v) := .modHere hs

protected theorem CoresOk.setClock {x : Nat} (hs : CoresOk s) : CoresOk { s with clock := x } := hs
protected theorem CoresOk.setNextKey {x : Nat} (hs : CoresOk s) : CoresOk { s with nextKey := x } := hs
protected theorem CoresOk.setBoot {x : BootState} (hs : CoresOk s) : CoresOk { s with boot := x } := hs
protected theorem CoresOk.setHeld {x : List (Nat × HeldWrite)} (hs : CoresOk s) : CoresOk { s with held := x } := hs
protected theorem CoresOk.setFlr {x : Bool} (hs : CoresOk s) : CoresOk { s with flr := x } := hs
protected theorem CoresOk.setMem {m : Bytes} (hs : CoresOk s) : CoresOk { s with mem := m } := hs
/-! ### Places and promise records: where a local memory is written -/

/-- A write at a place writes the LM of one core, or no core (R9). -/
protected theorem CoresOk.writePlace {pl : Place} {bs : List Byte} (hs : CoresOk s) : CoresOk (writePlace s pl bs) := by
  unfold writePlace
  split
  · exact .modCoreMem hs fun _ h => ⟨h.1, Memory.wf_writes _ _ _ h.2⟩
  · unfold writePhys
    split
    · exact .ite hs hs
    · exact hs
    · exact hs
    · exact hs
  · exact .modPart rfl hs
  · exact hs

theorem Core.memOk_ite {c : Prop} {_ : Decidable c} {a b : Core} (ha : a.MemOk) (hb : b.MemOk) : (if c then a else b).MemOk := by
  split
  · exact ha
  · exact hb

theorem Core.memOk_of_eq {c d : Core} (h : c.MemOk) (hi : d.im = c.im) (hl : d.lm = c.lm) : d.MemOk := by
  unfold Core.MemOk
  rw [hi, hl]
  exact h

theorem Core.memOk_setLm {c : Core} {m : Bytes} (h : c.MemOk) (hm : Memory.wf m = true) : Core.MemOk { c with lm := m } := ⟨h.1, hm⟩

/-- A promise record lies in the core's own LM (R254). -/
theorem memOk_writeRecord {c : Core} (h : c.MemOk) (k : Nat) : (writeRecord c k).MemOk := by
  unfold writeRecord
  extract_lets w
  split
  · exact h
  · exact Core.memOk_setLm h (Memory.wf_writes _ _ _ h.2)

theorem memOk_setWatch {c : Core} (h : c.MemOk) (k : Nat) (w : Watch) : (c.setWatch k w).MemOk := h

theorem memOk_stopRecord {c : Core} (h : c.MemOk) (k : Nat) : (stopRecord c k).MemOk :=
  memOk_writeRecord (memOk_setWatch h _ _) k

theorem memOk_stopPromise {c : Core} (h : c.MemOk) : (stopPromise c).MemOk := by
  unfold stopPromise
  split
  · split
    · split
      · refine memOk_stopRecord ?_ _
        exact h
      · exact h
    · exact h
  · exact h

theorem memOk_haltEngines {c : Core} (h : c.MemOk) : (haltEngines c).MemOk := Core.memOk_ite h (memOk_stopPromise h)

/-! ### Copies of lines, traces, faults and retirement -/

protected theorem CoresOk.holdFill {die line : Nat} (hs : CoresOk s) : CoresOk (holdFill s die line) := by
  unfold holdFill
  split <;> exact hs

protected theorem CoresOk.holdWrite {die pa : Nat} {bs : List Byte} {o : Origin} {vec : Bool} (hs : CoresOk s) :
    CoresOk (holdWrite s die pa bs o vec) :=
  .modDie (.holdFill hs)

/-- Messages that reach home clear the poison of lines that are written whole (R208). -/
protected theorem CoresOk.applyMsgs {ms : List WtMsg} (hs : CoresOk s) : CoresOk (applyMsgs s ms) := .filterPoison (.setMem hs)

protected theorem CoresOk.applyThrough {k : Nat} {sel : WtMsg → Bool} (hs : CoresOk s) : CoresOk (applyThrough s k sel) :=
  .ite hs (CoresOk.applyMsgs hs)

protected theorem CoresOk.flushBytes {die : Nat} {h : Holding} {m : BitVec 128} (hs : CoresOk s) : CoresOk (flushBytes s die h m) :=
  .modDie (.applyMsgs (.applyThrough hs))

protected theorem CoresOk.flushOwn {die line : Nat} {m : BitVec 128} (hs : CoresOk s) : CoresOk (flushOwn s die line m) := by
  unfold flushOwn
  split
  · exact hs
  · exact .ite hs (.flushBytes hs)

protected theorem CoresOk.flushMask {fuel die line : Nat} {m : BitVec 128} (hs : CoresOk s) :
    CoresOk (flushMask fuel s die line m) := by
  induction fuel generalizing s line m with
  | zero =>
    rw [flushMask_zero]
    split
    · exact hs
    · exact .flushOwn hs
  | succ n ih =>
    rw [flushMask_succ]
    split
    · exact hs
    · exact .flushOwn (.foldl hs fun _ _ hs =>
        .foldl (.foldl hs fun _ _ hs => .ite (.applyThrough hs) hs) fun _ _ hs => .ite hs (ih hs))

protected theorem CoresOk.flushLine {die line : Nat} (hs : CoresOk s) : CoresOk (flushLine s die line) := by
  unfold flushLine
  dsimp only
  split
  · exact .applyThrough hs
  · exact .flushMask (.applyThrough hs)

protected theorem CoresOk.dropLine {die line : Nat} (hs : CoresOk s) : CoresOk (dropLine s die line) := hs

protected theorem CoresOk.readAs {die : Nat} {handoff : Bool} {pl : Place} {n : Nat} (hs : CoresOk s) :
    CoresOk (readAs s die handoff pl n).2 := by
  unfold readAs
  dsimp only
  split
  · exact .holdFill hs
  · exact hs

protected theorem CoresOk.writeAs {die : Nat} {handoff : Bool} {pl : Place} {bs : List Byte} {o : Origin}
    {vec : Bool} (hs : CoresOk s) :
    CoresOk (writeAs s die handoff pl bs o vec) := by
  unfold writeAs
  split
  · exact .holdWrite hs
  · exact .writePlace hs

protected theorem CoresOk.covered {die : Nat} {handoff : Bool} {l : Option Nat} (hs : CoresOk s) :
    CoresOk (State.covered s die handoff l) := by
  unfold State.covered
  split
  · exact hs
  · split
    · exact hs
    · exact .filterPoison hs

protected theorem CoresOk.vput {part va : Nat} {bs : List Byte} (hs : CoresOk s) : CoresOk (vput s part va bs) := by
  induction bs generalizing s va with
  | nil => exact hs
  | cons b r ih =>
    unfold vput
    refine ih ?_
    split
    · exact .writePlace hs
    · exact hs

protected theorem CoresOk.vwrite {part va : Nat} {bs : List Byte} (hs : CoresOk s) (e : vwrite s part va bs = .ok t) :
    CoresOk t := by
  unfold vwrite at e
  split at e
  · cases e
  · cases e
    exact .vput hs

protected theorem CoresOk.trace {p cls typ ctx core v : Nat} (hs : CoresOk s) : CoresOk (trace s p cls typ ctx core v) := by
  unfold trace
  dsimp only
  refine .ite hs (.ite (.modPart rfl hs) ?_)
  split
  · exact .modPart rfl hs
  next e => exact .modPart rfl (.vwrite hs e)

protected theorem CoresOk.traceCtx {cls typ core ctx value : Nat} (hs : CoresOk s) :
    CoresOk (traceCtx s cls typ core ctx value) := by
  unfold traceCtx
  split
  · exact .trace hs
  · exact hs

protected theorem CoresOk.traceNode {p typ : Nat} {nodeid : DWord} (hs : CoresOk s) : CoresOk (traceNode s p typ nodeid) := .trace hs

protected theorem CoresOk.traceTiming {core ctx code : Nat} (hs : CoresOk s) : CoresOk (traceTiming s core ctx code) := .traceCtx hs

protected theorem CoresOk.withdrawWaits {core ctx : Nat} (hs : CoresOk s) : CoresOk (withdrawWaits s core ctx) := hs

protected theorem CoresOk.endWait {core ctx : Nat} (hs : CoresOk s) : CoresOk (endWait s core ctx) := .modCore rfl hs

protected theorem CoresOk.resendWait {core ctx : Nat} (hs : CoresOk s) : CoresOk (resendWait s core ctx) := by
  unfold resendWait
  dsimp only
  split
  · split
    · exact hs
    · exact .modCore rfl (.setNextKey hs)
  · exact hs

protected theorem CoresOk.resendWaits {core : Nat} (hs : CoresOk s) : CoresOk (resendWaits s core) :=
  .foldl hs fun _ _ hs => .resendWait hs

protected theorem CoresOk.setWaits {w : Table WaitTable} (hs : CoresOk s) : CoresOk { s with waits := w } := hs

protected theorem CoresOk.counterReached {slice key v : Nat} (hs : CoresOk s) : CoresOk (counterReached s slice key v) :=
  .ite hs (.foldl (.setWaits hs) fun _ _ hs => .endWait hs)

protected theorem CoresOk.counterAdd {pl : Place} {amount : Nat} (hs : CoresOk s) : CoresOk (counterAdd s pl amount) :=
  .counterReached (.ite hs (.writePlace hs))

protected theorem CoresOk.sendNotice {p : Nat} {k : Packet} (hs : CoresOk s) : CoresOk (sendNotice s p k) := .modPart rfl hs

protected theorem CoresOk.coreNotice {core ctx origin : Nat} {f : Flt} {pc : DWord} {w : BitVec 32} (hs : CoresOk s) :
    CoresOk (coreNotice s core ctx origin f pc w) := by
  unfold coreNotice
  split
  · exact .sendNotice hs
  · exact hs

protected theorem CoresOk.nodeNotice {p : Nat} {f : Flt} {nodeid : DWord} (hs : CoresOk s) : CoresOk (nodeNotice s p f nodeid) :=
  .sendNotice hs

protected theorem CoresOk.postFault {core : Nat} {k : Packet} (hs : CoresOk s) : CoresOk (postFault s core k) := by
  unfold postFault
  dsimp only
  split
  · exact .modPart rfl (.modCore rfl hs)
  · exact .modCore rfl hs

protected theorem CoresOk.cancelOne {ch : Nat} {mark : Bool} {e : CtEntry} (hs : CoresOk s) : CoresOk (cancelOne s ch mark e) :=
  .ite hs (.modCtx hs)

protected theorem CoresOk.cancelIf {sel : CtEntry → Bool} {mark : Bool} {ch : Nat} (hs : CoresOk s) :
    CoresOk (cancelIf s sel mark ch) :=
  .modChan (.foldl hs fun _ _ hs => .ite (.cancelOne hs) hs)

protected theorem CoresOk.cancelEntries {sel : CtEntry → Bool} {mark : Bool} (hs : CoresOk s) :
    CoresOk (cancelEntries s sel mark) :=
  .foldl hs fun _ _ hs => .cancelIf hs

protected theorem CoresOk.dropEntries {core ctx : Nat} (hs : CoresOk s) : CoresOk (dropEntries s core ctx) :=
  .foldl (.cancelEntries hs) fun _ _ hs => .modChan hs

protected theorem CoresOk.endFollow {core cause : Nat} {keep : Bool} (hs : CoresOk s) : CoresOk (endFollow s core cause keep) :=
  .modCore rfl (.ite (.modCore rfl hs) hs)

protected theorem CoresOk.missFollow {core : Nat} (hs : CoresOk s) : CoresOk (missFollow s core) :=
  .endFollow (.modCtx (.ite (.traceTiming hs) hs))

protected theorem CoresOk.pushFollow {core : Nat} {e : FollowEntry} (hs : CoresOk s) : CoresOk (pushFollow s core e) :=
  .foldl hs fun _ _ hs => .modCore rfl hs

protected theorem CoresOk.popFollow {core : Nat} {pc : DWord} (hs : CoresOk s) : CoresOk (popFollow s core pc) :=
  .modCoreMem hs fun c h => by
    split
    · exact Core.memOk_ite h h
    · exact h

protected theorem CoresOk.recallMessages {core : Nat} (hs : CoresOk s) : CoresOk (recallMessages s core) :=
  .mapCores hs fun _ h => h

/-- A core that freezes writes the record of the promise job that it stops (R254, R269). -/
protected theorem CoresOk.stopCore {core : Nat} {eng : Bool} (hs : CoresOk s) : CoresOk (stopCore s core eng) := by
  unfold stopCore
  extract_lets stopped recalled left
  have hc : CoresOk stopped := .modCoreMem hs fun _ h => show Core.MemOk (if eng then _ else _) from Core.memOk_ite (memOk_haltEngines h) h
  have hr : CoresOk recalled := .recallMessages (.cancelEntries hc)
  exact .foldl (.ite (.endFollow hr) hr) fun _ _ hs => .modCtx (.withdrawWaits hs)

protected theorem CoresOk.freezeCore {core ctx : Nat} {stopEngines : Bool} (hs : CoresOk s) :
    CoresOk (freezeCore s core ctx stopEngines) :=
  .stopCore (.traceTiming hs)

protected theorem CoresOk.leaderFault {core : Nat} (hs : CoresOk s) : CoresOk (leaderFault s core) := by
  unfold leaderFault
  extract_lets ended
  have he : CoresOk ended := .foldl hs fun _ _ hs => .endFollow hs
  exact .ite (.foldl he fun _ _ hs => .missFollow hs) he

protected theorem CoresOk.takeFaultAt {core ctx : Nat} {f : Flt} {w : BitVec 32} (hs : CoresOk s) :
    CoresOk (takeFaultAt s core ctx f w) := by
  unfold takeFaultAt
  exact .postFault (.modCtx (.freezeCore (.ite (.leaderFault hs) hs)))

protected theorem NextCoresOk.raise {f : Flt} (hs : CoresOk s) : NextCoresOk (raise s f) := .next (.takeFaultAt hs)

protected theorem CoresOk.faultStop {core ctx : Nat} (hs : CoresOk s) : CoresOk (faultStop s core ctx) :=
  .ite (.modCoreMem hs fun _ h => memOk_haltEngines h) (.freezeCore hs)

protected theorem CoresOk.takeSlotFault {core ctx origin slot : Nat} {f : Flt} {word : BitVec 32} (hs : CoresOk s) :
    CoresOk (takeSlotFault s core ctx origin slot f word) :=
  .postFault (.faultStop hs)

protected theorem CoresOk.traceSleepEnds {core : Nat} (hs : CoresOk s) : CoresOk (traceSleepEnds s core) :=
  .foldl hs fun _ _ hs => .ite (.traceTiming hs) hs

protected theorem CoresOk.resumeCore {core : Nat} (hs : CoresOk s) : CoresOk (resumeCore s core) :=
  .resendWaits (.modCore rfl (.traceSleepEnds (.traceTiming hs)))

protected theorem CoresOk.issueOn {core ctx len id : Nat} (hs : CoresOk s) : CoresOk (issueOn s core ctx len id) :=
  .modCore rfl (.ite (.traceTiming hs) hs)

protected theorem CoresOk.retireAt {core ctx : Nat} {pc : DWord} (hs : CoresOk s) : CoresOk (retireAt s core ctx pc) :=
  .modCore rfl (.ite (.traceTiming hs) hs)

protected theorem NextCoresOk.retireTo {pc : DWord} (hs : CoresOk s) : NextCoresOk (retireTo s pc) := .next (.retireAt hs)

protected theorem NextCoresOk.retire {len : Nat} (hs : CoresOk s) : NextCoresOk (retire s len) := .retireTo hs

protected theorem NextCoresOk.retireReg {len : Nat} {rd : Reg} {v : DWord} (hs : CoresOk s) : NextCoresOk (retireReg s len rd v) :=
  .retire (.setGpr hs)

protected theorem CoresOk.sleepAt {core ctx : Nat} {w : Sleep} (hs : CoresOk s) : CoresOk (sleepAt s core ctx w) := by
  unfold sleepAt
  extract_lets old ended begun
  have he : CoresOk ended := .ite (.traceTiming hs) hs
  exact .modCtx (.ite (.traceTiming he) (.ite (.traceTiming he) he))

protected theorem NextCoresOk.sleepIn {w : Sleep} (hs : CoresOk s) : NextCoresOk (sleepIn s w) := .next (.sleepAt hs)

protected theorem NextCoresOk.jumpTo {t : ℤ} (hs : CoresOk s) : NextCoresOk (jumpTo s t) :=
  .ite (.raise hs) (.retireTo (.traceCtx hs))

protected theorem CoresOk.wfeEvent {sel : Nat → Bool} (hs : CoresOk s) : CoresOk (wfeEvent s sel) :=
  .mapCores hs fun _ h => by
    split
    · exact h
    · exact h

protected theorem CoresOk.takeTag {core t : Nat} (hs : CoresOk s) : CoresOk (takeTag s core t) := .modCore rfl hs

protected theorem CoresOk.endTag {core t : Nat} {err : Bool} (hs : CoresOk s) : CoresOk (endTag s core t err) :=
  .wfeEvent (.modCore rfl hs)

/-! ### Accesses and engine queues -/

theorem memOk_setQueue {c : Core} (h : c.MemOk) (e : Engine) (q : List Job) : (c.setQueue e q).MemOk := by
  cases e <;> exact h

protected theorem CoresOk.markBusy {d : LoadDst} (hs : CoresOk s) : CoresOk (markBusy s d) := .modHere hs

protected theorem CoresOk.pushAccess {e : Access} (hs : CoresOk s) : CoresOk (pushAccess s e) := .modMe rfl (.setNextKey hs)

protected theorem CoresOk.appendJob {core : Nat} {e : Engine} {j : Job} (hs : CoresOk s) : CoresOk (appendJob s core e j) :=
  .modCoreMem (.setNextKey hs) fun _ h => memOk_setQueue h _ _

protected theorem NextCoresOk.loadAt {len a w : Nat} {dst : LoadDst} {acq : Bool} {scope : Nat} {hint : BitVec 2} (hs : CoresOk s) :
    NextCoresOk (loadAt s len a w dst acq scope hint) := by
  unfold loadAt
  split
  · exact .raise hs
  · split
    · exact .raise hs
    · exact .ite (.sleepIn hs) (.retire (.pushAccess (.markBusy hs)))

protected theorem NextCoresOk.storeAt {len a w data : Nat} {rel : Bool} {scope : Nat} {hint : BitVec 2} (hs : CoresOk s) :
    NextCoresOk (storeAt s len a w data rel scope hint) := by
  unfold storeAt
  split
  · exact .raise hs
  · split
    · exact .raise hs
    · exact .ite (.sleepIn hs) (.retire (.pushAccess hs))

protected theorem NextCoresOk.enqueue {e : Engine} {j : Job} {len : Nat} (hs : CoresOk s) : NextCoresOk (enqueue s e j len) :=
  .ite (.sleepIn hs) (.retire (.appendJob hs))

/-! ### Vector commands -/

protected theorem NextCoresOk.vectorCmd {i : Instr} (hs : CoresOk s) : NextCoresOk (vectorCmd s i) := by
  unfold vectorCmd
  dsimp only
  refine .ite (.sleepIn hs) ?_
  split
  · exact .raise hs
  · exact .enqueue (.modHere hs)

/-! ### Matrix commands -/

protected theorem NextCoresOk.matrixCmd {i : Instr} (hs : CoresOk s) : NextCoresOk (matrixCmd s i) := by
  unfold matrixCmd
  dsimp only
  refine .ite (.sleepIn hs) ?_
  refine .ite (.sleepIn hs) ?_
  split
  · exact .raise hs
  · refine .ite (.sleepIn hs) ?_
    split
    · exact .raise hs
    · exact .enqueue hs

/-! ### Ring slots, vectors, pairs and tiles -/

protected theorem NextCoresOk.execLdRingSlot {rd : Reg} {h k : BitVec 4} {off : BitVec 8} {w : BitVec 2} (hs : CoresOk s) :
    NextCoresOk (execLdRingSlot rd h k off w s) := by
  unfold execLdRingSlot
  refine .ite (.sleepIn hs) ?_
  split
  · exact .raise hs
  · exact .loadAt hs

protected theorem NextCoresOk.execStRingSlot {rd : Reg} {h k : BitVec 4} {off : BitVec 8} {w : BitVec 2} (hs : CoresOk s) :
    NextCoresOk (execStRingSlot rd h k off w s) := by
  unfold execStRingSlot
  refine .ite (.sleepIn hs) ?_
  split
  · exact .raise hs
  · exact .storeAt hs

protected theorem CoresOk.pushPieces {hint : BitVec 2} {l : List (Piece × Target)} (hs : CoresOk s) :
    CoresOk (pushPieces s hint l) := by
  unfold pushPieces
  dsimp only
  refine .foldl hs fun _ _ hs => ?_
  refine .pushAccess ?_
  split
  · exact .markBusy hs
  · exact hs

protected theorem NextCoresOk.issuePieces {store : Bool} {hint : BitVec 2} {ps : List Piece} (hs : CoresOk s) :
    NextCoresOk (issuePieces s store hint ps) := by
  unfold issuePieces
  split
  · exact .raise hs
  · split
    · exact .raise hs
    · exact .ite (.sleepIn hs) (.retire (.pushPieces hs))

protected theorem NextCoresOk.tileAccess {store : Bool} {ra : Reg} {off : BitVec 10} {op : Nat → AccOp} (hs : CoresOk s) :
    NextCoresOk (tileAccess s store ra off op) := by
  unfold tileAccess
  dsimp only
  split
  · exact .raise hs
  · exact .issuePieces hs

/-! ### Atomics, `rwb` and `rinv` -/

protected theorem NextCoresOk.atomicAt {ra rb : Reg} {f : AtomicForm} (hs : CoresOk s) : NextCoresOk (atomicAt s ra rb f) := by
  unfold atomicAt
  dsimp only
  refine .ite (.raise hs) ?_
  refine .ite ?_ ?_
  · split
    · exact .raise hs
    · split
      · exact .sleepIn hs
      · exact .sleepIn (.pushAccess hs)
  · split
    · exact .raise hs
    · refine .ite (.sleepIn hs) ?_
      refine .retire ?_
      refine .pushAccess ?_
      split
      · exact .markBusy hs
      · exact hs

protected theorem NextCoresOk.ratomAt {op : Nat} {rd ra rb : Reg} {scope : BitVec 3} {rel ret d : Bool} (hs : CoresOk s) :
    NextCoresOk (ratomAt s op rd ra rb scope rel ret d) :=
  .atomicAt hs

protected theorem NextCoresOk.amoAt {op : Nat} {rd ra rb : Reg} {scope : BitVec 3} {ord : BitVec 2} {d : Bool} (hs : CoresOk s) :
    NextCoresOk (amoAt s op rd ra rb scope ord d) :=
  .atomicAt hs

protected theorem NextCoresOk.linesAt {ra rb : Reg} {op : AccOp} (hs : CoresOk s) : NextCoresOk (linesAt s ra rb op) := by
  unfold linesAt
  dsimp only
  refine .ite (.retire hs) ?_
  refine .ite (.raise hs) ?_
  split
  · exact .raise (.ite hs (.pushAccess hs))
  · exact .retire (.ite hs (.pushAccess hs))

/-! ### Rings and messages -/

protected theorem CoresOk.setHandle {core h : Nat} {handle : Handle} (hs : CoresOk s) :
    CoresOk (State.setHandle s core h handle) :=
  .modCore rfl hs

protected theorem CoresOk.staleSleepers {owner h : Nat} (hs : CoresOk s) : CoresOk (staleSleepers s owner h) :=
  .foldl hs fun _ _ hs => .ite hs (.modCore rfl hs)

protected theorem NextCoresOk.execRinit {h : BitVec 4} {ra rb : Reg} (hs : CoresOk s) : NextCoresOk (execRinit h ra rb s) := by
  unfold execRinit
  refine .ite (.sleepIn hs) ?_
  split
  · exact .raise hs
  · exact .retire (.setHandle (.staleSleepers hs))

protected theorem NextCoresOk.ringWait {rd : Reg} {h : BitVec 4} {want : Nat} {avail : Handle → Nat} {w : Sleep} (hs : CoresOk s) :
    NextCoresOk (ringWait s rd h want avail w) := by
  unfold ringWait
  refine .ite (.sleepIn hs) ?_
  split
  · exact .raise hs
  · exact .ite (.raise hs) (.ite (.retireReg hs) (.sleepIn hs))

protected theorem NextCoresOk.execRecv {rd : Reg} {h : BitVec 4} (hs : CoresOk s) : NextCoresOk (execRecv rd h s) := by
  unfold execRecv
  refine .ite (.sleepIn hs) ?_
  split
  · exact .raise hs
  · exact .ite (.retireReg hs) (.sleepIn hs)

protected theorem CoresOk.movePointer {owner h : Nat} {producer : Bool} {n : Nat} (hs : CoresOk s) :
    CoresOk (movePointer s owner h producer n) :=
  .ite (.setHandle hs) (.wfeEvent (.setHandle hs))

protected theorem NextCoresOk.advanceProxy {h : BitVec 4} {producer : Bool} {n : Nat} (hs : CoresOk s) :
    NextCoresOk (advanceProxy s h producer n) := by
  unfold advanceProxy
  dsimp only
  split
  · exact .sleepIn hs
  · exact .ite (.sleepIn hs) (.sleepIn (.pushAccess hs))

protected theorem NextCoresOk.advance {h : BitVec 4} {ra : Reg} {producer : Bool} (hs : CoresOk s) :
    NextCoresOk (advance s h ra producer) := by
  unfold advance
  dsimp only
  refine .ite (.sleepIn hs) ?_
  refine .ite (.advanceProxy hs) ?_
  split
  · exact .raise hs
  · split
    · exact .raise hs
    · exact .retire (.pushAccess hs)

protected theorem NextCoresOk.execSend {rd : Reg} {h : BitVec 4} {ra rb : Reg} (hs : CoresOk s) :
    NextCoresOk (execSend rd h ra rb s) := by
  unfold execSend
  dsimp only
  split
  · exact .retireReg hs
  · exact .next hs
  · refine .ite (.sleepIn hs) ?_
    split
    · exact .retireReg hs
    · exact .ite (.sleepIn hs) (.sleepIn (.modCore rfl hs))

protected theorem CoresOk.deliverInto {core h : Nat} {bs : List Byte} (hs : CoresOk s) : CoresOk (deliverInto s core h bs) :=
  .movePointer (.writePlace hs)

protected theorem CoresOk.tellSender {m : Msg} {st : Nat} (hs : CoresOk s) : CoresOk (tellSender s m st) := .modCtx hs

protected theorem NextCoresOk.execMessageDeliver (hs : CoresOk s) : NextCoresOk (execMessageDeliver s) := by
  unfold execMessageDeliver
  dsimp only
  split
  · exact .next hs
  · split
    · exact .next hs
    · exact .next (.tellSender (.ite (.deliverInto (.modCore rfl hs)) (.modCore rfl hs)))

/-! ### Contested channels -/

protected theorem NextCoresOk.armEntry {mode : Nat} {ra rb : Reg} (hs : CoresOk s) : NextCoresOk (armEntry s mode ra rb) := by
  unfold armEntry
  dsimp only
  split
  · exact .raise hs
  · exact .ite (.sleepIn hs) (.retire (.modChan (.modHere hs)))

protected theorem NextCoresOk.readResult {rd rb : Reg} {f : Nat → Nat × CWord × BitVec 32 → DWord} (hs : CoresOk s) :
    NextCoresOk (readResult s rd rb f) := by
  unfold readResult
  dsimp only
  split
  · exact .raise hs
  · exact .ite (.sleepIn hs) (.retireReg hs)

protected theorem NextCoresOk.execCtresW {rd rb : Reg} (hs : CoresOk s) : NextCoresOk (execCtresW rd rb s) := .readResult hs

protected theorem NextCoresOk.execCtresId {rd rb : Reg} (hs : CoresOk s) : NextCoresOk (execCtresId rd rb s) := .readResult hs

protected theorem NextCoresOk.execCtcancel {rd rb : Reg} (hs : CoresOk s) : NextCoresOk (execCtcancel rd rb s) := by
  unfold execCtcancel
  dsimp only
  split
  · exact .raise hs
  · exact .ite (.retireReg (.modChan (.modHere hs))) (.retireReg hs)

protected theorem NextCoresOk.execEntryRegister (hs : CoresOk s) : NextCoresOk (execEntryRegister s) := by
  unfold execEntryRegister
  dsimp only
  split
  · exact .next hs
  · exact .ite (.next (.cancelIf hs)) (.ite (.next hs) (.next hs))

protected theorem CoresOk.settleClaims {ch : Nat} {w : CtEntry} {round : List CtEntry} (hs : CoresOk s) :
    CoresOk (settleClaims s ch w round) :=
  hs

protected theorem CoresOk.resolveEntry {ch : Nat} {w : CtEntry} {q : BitVec 32} {e : CtEntry} (hs : CoresOk s) :
    CoresOk (resolveEntry s ch w q e) :=
  .ite hs (.modCtx hs)

protected theorem CoresOk.endRound {ch : Nat} {veto : Bool} (hs : CoresOk s) : CoresOk (endRound s ch veto) := by
  unfold endRound
  dsimp only
  refine .ite hs ?_
  refine .ite hs ?_
  split
  · exact hs
  · exact .modChan (.modChan (.settleClaims (.foldl hs fun _ _ hs => .resolveEntry hs)))

protected theorem CoresOk.failChannel {ch : Nat} (hs : CoresOk s) : CoresOk (failChannel s ch) := .ite (.cancelIf hs) hs

protected theorem CoresOk.moveGrant {ch into : Nat} (hs : CoresOk s) : CoresOk (moveGrant s ch into) := by
  unfold moveGrant
  dsimp only
  split
  · exact hs
  · exact .ite (.modPart rfl (.modChan (.modChan hs))) hs

protected theorem NextCoresOk.execChannelFail (hs : CoresOk s) : NextCoresOk (execChannelFail s) :=
  .next (.ite (.moveGrant (.failChannel hs)) (.failChannel hs))

/-! ### Copies -/

protected theorem CoresOk.readRange {die va n : Nat} {a : Target} {b : List Byte} (hs : CoresOk s)
    (e : readRange s die a va n = .ok (b, t)) : CoresOk t := by
  refine List.foldlRecOn (motive := fun (r : Except Flt (List Byte × State)) => ∀ x, r = .ok x → CoresOk x.2) _ _ ?_ ?_ (b, t) e
  · intro x e
    cases e
    exact hs
  · intro r hr p _ x e
    dsimp only at e
    split at e
    · cases e
    next bs s =>
      split at e
      · cases e
      · cases e
        exact .readAs (hr (bs, s) rfl)

protected theorem CoresOk.writePiece {die : Nat} {handoff : Bool} {pl : Place} {bs : List Byte} {o : Origin}
    {run : Cover} (hs : CoresOk s) :
    CoresOk (writePiece s die handoff pl bs o run).1 := by
  unfold writePiece
  dsimp only
  split
  · exact .iteOf Prod.fst (.covered (.writeAs hs)) (.writeAs hs)
  · exact .writeAs hs

protected theorem CoresOk.writeRange {die : Nat} {a : Target} {bs : List Byte} {o : Origin} {run : Cover} (hs : CoresOk s) :
    CoresOk (writeRange s die a bs o run).1 := by
  unfold writeRange
  exact List.foldlRecOn (motive := fun (r : State × Cover) => CoresOk r.1) _ _ hs (fun _ hr _ _ => .writePiece hr)

protected theorem CoresOk.chunksMove {p : ChunkPort} {c : Chunks} {m : ChunkMove} (hp : CoresPort p) (hs : CoresOk s) :
    CoresOk (Chunks.move p s c m).1 := by
  unfold Chunks.move
  split
  · exact hs
  · split
    · split
      next e => exact (hp.write hs).fst_of_eq e
      next e => exact (hp.write hs).fst_of_eq e
      next e => exact (hp.write hs).fst_of_eq e
    · split
      next e => exact (hp.read hs).fst_of_eq e
      next e => exact (hp.read hs).fst_of_eq e
      next e => exact (hp.read hs).fst_of_eq e

theorem coresPort_diePort (die : Nat) (o : Origin) : CoresPort (diePort die o) where
  read hs := by
    unfold diePort
    refine .iteOf Prod.fst hs ?_
    split
    · exact hs
    next b s e => exact .readRange hs e
  write hs := .iteOf Prod.fst hs (.writePiece hs)

protected theorem CoresOk.readIndex {g : CopyAgent} {j : Job} {r n : Nat} (hs : CoresOk s)
    (e : readIndex g s j r = .ok (n, t)) : CoresOk t := by
  unfold readIndex at e
  dsimp only at e
  split at e
  · cases e
  · split at e
    · cases e
    next f =>
      cases e
      exact .readRange hs f

protected theorem CoresOk.rowIndex {g : CopyAgent} {j : Job} {n : Nat} (hs : CoresOk s)
    (e : rowIndex g s j = .ok (n, t)) : CoresOk t := by
  unfold rowIndex at e
  split at e
  · cases e
    exact hs
  · split at e
    · cases e
      exact hs
    · cases e
      exact hs
    · exact .readIndex hs e

protected theorem CoresOk.readAhead {g : CopyAgent} {j : Job} {r : Nat} (hs : CoresOk s) : CoresOk (readAhead g s j r).1 := by
  unfold readAhead
  refine .iteOf Prod.fst ?_ ?_
  · exact hs
  · split
    next _ s e => exact .readIndex hs e
    · exact hs

protected theorem CoresOk.openChunk {g : CopyAgent} {j : Job} (hs : CoresOk s) : CoresOk (openChunk g s j).1 := by
  unfold openChunk
  dsimp only
  split
  · exact hs
  next _ s e => split <;> exact .rowIndex hs e

protected theorem CoresOk.copyUnitBy {g : CopyAgent} {j : Job} {go : Bool} {k : Nat} (hs : CoresOk s) :
    CoresOk (copyUnitBy g s j go k).state := by
  unfold copyUnitBy
  dsimp only
  split
  · exact .chunksMove (coresPort_diePort _ _) hs
  · exact .iteOf Prod.fst (.iteOf Prod.fst (.readAhead hs) hs) (.iteOf Prod.fst (.openChunk hs) hs)

protected theorem CoresOk.copyUnit {core : Nat} {j : Job} {k : Nat} (hs : CoresOk s) : CoresOk (copyUnit s core j k).state :=
  .copyUnitBy hs

protected theorem CoresOk.tagNotice {core ctx tag : Nat} {f : Flt} (hs : CoresOk s) : CoresOk (tagNotice s core ctx tag f) :=
  .coreNotice hs

protected theorem NextCoresOk.copyCmd {i : Instr} {tag : Nat} (hs : CoresOk s) : NextCoresOk (copyCmd s i tag) := by
  unfold copyCmd
  dsimp only
  refine .ite (.sleepIn hs) ?_
  split
  · exact .raise hs
  · refine .ite (.sleepIn hs) ?_
    split
    · exact .raise hs
    · exact .ite (.sleepIn hs) (.ite (.retire (.modMe rfl (.endTag (.takeTag hs)))) (.enqueue (.takeTag hs)))

/-! ### Promises -/

theorem Core.memOk_foldl {α : Type} {f : Core → α → Core} {l : List α} {c : Core} (h : c.MemOk)
    (k : ∀ c a, Core.MemOk c → (f c a).MemOk) : (l.foldl f c).MemOk :=
  List.foldlRecOn l f h fun c h a _ => k c a h

theorem memOk_setPromise {c : Core} (h : c.MemOk) (k : Nat) (st : BitVec 4) : (setPromise c k st).MemOk :=
  memOk_writeRecord (memOk_setWatch h _ _) _

theorem memOk_releaseHeld {c : Core} (h : c.MemOk) (k : Nat) : (releaseHeld c k).MemOk := by
  unfold releaseHeld
  dsimp only
  split
  · refine memOk_setPromise ?_ _ _
    exact h
  · exact h

theorem memOk_changePromise {c : Core} (h : c.MemOk) (k : Nat) (st : BitVec 4) : (changePromise c k st).MemOk :=
  Core.memOk_foldl (memOk_setPromise h k st) fun _ _ h => memOk_releaseHeld h _

theorem memOk_queueRec {c : Core} (h : c.MemOk) (k : Nat) (kind : RecKind) (ctx key : Nat) : (queueRec c k kind ctx key).MemOk :=
  show Core.MemOk (if _ then c else c.setWatch k _) from Core.memOk_ite h (memOk_setWatch h _ _)

theorem memOk_settle {c : Core} (h : c.MemOk) (r : RecJob) (v : Nat) : (settle c r v).MemOk := by
  unfold settle
  dsimp only
  split
  · refine Core.memOk_ite ?_ ?_
    · exact memOk_changePromise (memOk_setWatch h _ _) _ _
    · exact memOk_writeRecord (memOk_setWatch (memOk_setWatch h _ _) _ _) _
  · exact memOk_changePromise h _ _
  · exact memOk_changePromise h _ _

/-- An element of a promise job is stored in the tile of its target (R253, R256). -/
theorem wf_doElem {m : Bytes} (h : Memory.wf m = true) (w : Watch) (p : TilePlan) (j : Job) (e : Nat) :
    Memory.wf (doElem m w p j e).1 = true := by
  unfold doElem
  split
  · exact h
  · exact Memory.wf_writes _ _ _ h

protected theorem CoresOk.expireOne {core v k : Nat} (hs : CoresOk s) : CoresOk (expireOne s core v k) :=
  .ite hs (.coreNotice (.modCoreMem hs fun _ h =>
    Core.memOk_ite (memOk_changePromise (memOk_queueRec h _ _ _ _) _ _) (memOk_changePromise h _ _)))

protected theorem CoresOk.expiryCheck {core v : Nat} (hs : CoresOk s) : CoresOk (expiryCheck s core v) :=
  .foldl hs fun _ _ hs => .expireOne hs

protected theorem CoresOk.gangQuiet {core : Nat} (hs : CoresOk s) : CoresOk (gangQuiet s core) :=
  .ite (.modCoreMem hs fun _ h => Core.memOk_foldl h fun _ _ h => Core.memOk_ite (memOk_changePromise h _ _) h) hs

protected theorem CoresOk.promFail {core : Nat} {j : Job} {r : RecJob} {f : Flt} (hs : CoresOk s) :
    CoresOk (promFail s core j r f).state :=
  .modCoreMem hs fun _ h => memOk_stopRecord h _

protected theorem CoresOk.promStart {core : Nat} {j : Job} {r : RecJob} (hs : CoresOk s) : CoresOk (promStart s core j r).state := by
  unfold promStart
  dsimp only
  split
  · exact .promFail hs
  · dsimp only
    exact .modCoreMem (.expiryCheck hs) fun _ h => Core.memOk_ite (memOk_setWatch h _ _) h

protected theorem CoresOk.promEnd {core : Nat} {j : Job} {r : RecJob} (hs : CoresOk s) : CoresOk (promEnd s core j r).state := by
  unfold promEnd
  dsimp only
  split
  · exact .promFail hs
  · dsimp only
    exact .expiryCheck (.modCoreMem (.counterAdd hs) fun _ h => memOk_settle h _ _)

protected theorem CoresOk.promElem {core : Nat} {j : Job} {r : RecJob} (hs : CoresOk s) : CoresOk (promElem s core j r).state := by
  have hw : CoresOk (s.modCore core fun c => { c with lm := (doElem (s.core core).lm ((s.core core).watchAt r.slot)
      (planTile ((s.core core).watchAt r.slot) r ((s.core core).watchAt r.slot).nextt.toNat) j j.off).1 }) :=
    .modCoreMem hs fun _ h => Core.memOk_setLm h (wf_doElem (hs.core core).2 _ _ _ _)
  exact .iteOf JobStep.state hw (.iteOf JobStep.state
    (.modCoreMem (.modCoreMem hw fun _ h => memOk_setWatch h _ _) fun _ h => memOk_stopRecord h _)
    (.modCoreMem hw fun _ h => memOk_setWatch h _ _))

protected theorem CoresOk.promRead {core : Nat} {j : Job} {r : RecJob} {n : Nat} (hs : CoresOk s) :
    CoresOk (promRead s core j r n).state := by
  unfold promRead
  dsimp only
  split <;> exact hs

protected theorem CoresOk.promUnit {core : Nat} {j : Job} {r : RecJob} {k : Nat} (hs : CoresOk s) :
    CoresOk (promUnit s core j r k).state := by
  unfold promUnit
  dsimp only
  refine .iteOf JobStep.state ?_ ?_
  · exact hs
  · refine .iteOf JobStep.state ?_ ?_
    · exact .promEnd hs
    · refine .iteOf JobStep.state ?_ ?_
      · exact .promStart hs
      · split
        · exact .promElem hs
        · exact .promRead hs

protected theorem NextCoresOk.execPropen {retract : Bool} {rd ra rb : Reg} {opt : BitVec 3} (hs : CoresOk s) :
    NextCoresOk (execPropen retract rd ra rb opt s) := by
  unfold execPropen
  dsimp only
  refine .ite (.sleepIn hs) ?_
  split
  · exact .raise hs
  · split
    · exact .raise hs
    · refine .retireReg (.modMeMem hs fun c h => memOk_changePromise (memOk_queueRec (memOk_setWatch ?_ _ _) _ _ _ _) _ _)
      exact h

protected theorem NextCoresOk.execPredeem {rd ra rb : Reg} (hs : CoresOk s) : NextCoresOk (execPredeem rd ra rb s) := by
  unfold execPredeem
  dsimp only
  refine .ite (.sleepIn hs) ?_
  split
  · exact .raise hs
  · split
    · exact .raise hs
    · split
      · exact .raise hs
      next k _ _ _ =>
        refine .retireReg (.setCore hs (memOk_changePromise ?_ _ _))
        have hq := memOk_queueRec (memOk_setWatch hs.me k (captureRedeem s.me (s.me.watchAt k) (s.gpr rb)))
          k .redemption s.cur.2 s.nextKey
        split
        · exact Core.memOk_of_eq hq (by dsimp only) (by dsimp only)
        · exact hq

protected theorem NextCoresOk.execPretract {rd ra : Reg} (hs : CoresOk s) : NextCoresOk (execPretract rd ra s) := by
  unfold execPretract
  refine .ite (.sleepIn hs) ?_
  split
  · exact .raise hs
  · split
    · exact .raise hs
    · exact .retireReg (.modMeMem hs fun _ h => memOk_changePromise (memOk_queueRec h _ _ _ _) _ _)

protected theorem NextCoresOk.execPquery {rd ra : Reg} (hs : CoresOk s) : NextCoresOk (execPquery rd ra s) := by
  unfold execPquery
  dsimp only
  refine .ite (.sleepIn hs) ?_
  split
  · exact .raise hs
  · split
    · exact .raise hs
    · exact .ite (.sleepIn hs) (.ite (.raise hs) (.retireReg (.expiryCheck hs)))

/-! ### The crossbar -/

theorem memOk_takePulses {c : Core} (h : c.MemOk) : (takePulses c).MemOk := by
  unfold takePulses
  exact Core.memOk_foldl h fun _ _ h => Core.memOk_foldl h fun _ _ h => Core.memOk_ite h h

theorem memOk_fireSlot {c : Core} (h : c.MemOk) (k key : Nat) : (fireSlot c k key).1.MemOk := by
  unfold fireSlot
  dsimp only
  split
  · exact h
  · split
    · exact h
    · exact h

theorem memOk_consume {c : Core} (h : c.MemOk) (m : Nat) : (consume c m).MemOk :=
  Core.memOk_foldl h fun _ _ h => Core.memOk_ite h h

theorem memOk_cycle {c : Core} (h : c.MemOk) (key : Nat) : (cycle c key).core.MemOk := by
  unfold cycle
  refine List.foldlRecOn (motive := fun (r : Cycle) => r.core.MemOk) _ _ h fun r hr n _ => ?_
  unfold cycleTerm
  dsimp only
  split
  · exact memOk_fireSlot (memOk_consume hr _) _ _
  · exact hr

protected theorem CoresOk.evaluate {core : Nat} (hs : CoresOk s) : CoresOk (evaluate s core) := by
  unfold evaluate
  extract_lets pulsed r keyed fired
  have hp : CoresOk pulsed := .modCoreMem hs fun _ h => memOk_takePulses h
  exact .ite hp (.wfeEvent (.foldl (.setCore (.setNextKey hp) (memOk_cycle (hp.core core) _)) fun _ _ hs => .coreNotice hs))

protected theorem CoresOk.takeFiring {core k : Nat} {e : Engine} (hs : CoresOk s) : CoresOk (takeFiring s core k e).1 := by
  unfold takeFiring
  dsimp only
  split
  · exact hs
  · refine .iteOf Prod.fst ?_ ?_
    · exact hs
    · split
      · exact .takeSlotFault hs
      · have ht : CoresOk (s.modCore core fun c => c.modSlot k tookFiring) := .modCore rfl hs
        split
        · exact .appendJob ht
        · exact .iteOf Prod.fst (.modCore rfl (.endTag (.takeTag ht))) (.appendJob (.takeTag ht))

protected theorem CoresOk.takeRec {core : Nat} (hs : CoresOk s) : CoresOk (takeRec s core).1 := by
  unfold takeRec
  dsimp only
  split
  · exact hs
  · exact .gangQuiet (.appendJob (.modCore rfl hs))

protected theorem CoresOk.refillOne {n core : Nat} {e : Engine} (hs : CoresOk s) : CoresOk (refillOne n s core e) := by
  induction n generalizing s with
  | zero => exact hs
  | succ n ih =>
    unfold refillOne
    dsimp only
    refine .ite hs ?_
    split
    · exact .ite (ih (.takeFiring hs)) (.takeFiring hs)
    · exact .ite (.ite (ih (.takeRec hs)) (.takeRec hs)) hs

protected theorem CoresOk.refill {core : Nat} (hs : CoresOk s) : CoresOk (refill s core) := .foldl hs fun _ _ hs => .refillOne hs

protected theorem CoresOk.crossbarCycles {n core : Nat} (hs : CoresOk s) : CoresOk (crossbarCycles n s core) := by
  induction n generalizing s with
  | zero => exact hs
  | succ n ih => exact .ite (ih (.refill (.evaluate hs))) hs

protected theorem CoresOk.afterJob {core : Nat} {e : Engine} {fired : Option Nat} (hs : CoresOk s) :
    CoresOk (afterJob s core e fired) :=
  .refill (.modCore rfl hs)

protected theorem NextCoresOk.execEvarm {slot : BitVec 2} {ra rb : Reg} (hs : CoresOk s) : NextCoresOk (execEvarm slot ra rb s) := by
  unfold execEvarm retire retireTo
  dsimp only
  refine .ite (.raise hs) (.ite (.raise hs) (.ite (.raise hs) ?_))
  split
  · exact .next (.takeFaultAt hs)
  · exact .ite (.raise hs) (.ite (.sleepIn hs) (.next (.refill (.retireAt (.modMe rfl (.setNextKey hs))))))

/-! ### Entries and tokens in the host's memory -/

protected theorem CoresOk.hostWrite {bus : Nat} {bs : List Byte} (hs : CoresOk s) : CoresOk (hostWrite s bus bs) :=
  .setMem hs

protected theorem CoresOk.vectorEvent {vf v : Nat} (hs : CoresOk s) : CoresOk (vectorEvent s vf v) := hs

protected theorem CoresOk.writeEntry {vf : Nat} {bs : List Byte} {v : Nat} (hs : CoresOk s) : CoresOk (writeEntry s vf bs v) :=
  .vectorEvent (.modVf (.hostWrite hs))

protected theorem CoresOk.postEntry {vf v : Nat} {bs : List Byte} (hs : CoresOk s) (e : postEntry s vf bs v = some t) : CoresOk t := by
  unfold postEntry at e
  dsimp only at e
  split at e
  · cases e
    exact .writeEntry hs
  · split at e
    · cases e
      exact hs
    · cases e

protected theorem CoresOk.drainEntries {n vf : Nat} (hs : CoresOk s) : CoresOk (drainEntries n s vf) := by
  induction n generalizing s with
  | zero => exact hs
  | succ n ih =>
    unfold drainEntries
    dsimp only
    split
    · exact hs
    · exact .ite (ih (.writeEntry hs)) hs

protected theorem CoresOk.writeToken {vf r : Nat} {t : Token} (hs : CoresOk s) : CoresOk (writeToken s vf r t) :=
  .vectorEvent (.modVf (.hostWrite hs))

protected theorem CoresOk.acceptToken {vf r : Nat} {k : Token} (hs : CoresOk s) (e : acceptToken s vf r k = some t) : CoresOk t := by
  unfold acceptToken at e
  dsimp only at e
  split at e
  · cases e
    exact .writeToken hs
  · split at e
    · cases e
      exact hs
    · cases e

protected theorem CoresOk.drainTokens {n vf r : Nat} (hs : CoresOk s) : CoresOk (drainTokens n s vf r) := by
  induction n generalizing s with
  | zero => exact hs
  | succ n ih =>
    unfold drainTokens
    dsimp only
    split
    · exact hs
    · exact .ite (ih (.writeToken hs)) hs

/-! ### Offload lists -/

protected theorem CoresOk.modOff {p l : Nat} {f : OffList → OffList} (hs : CoresOk s) : CoresOk (State.modOff s p l f) :=
  .modPart rfl hs

protected theorem NextCoresOk.execCpyl {tag : BitVec 6} {reset : Bool} {list : BitVec 3} {ra rb : Reg}
    {opt : BitVec 3} (hs : CoresOk s) :
    NextCoresOk (execCpyl tag reset list ra rb opt s) := by
  unfold execCpyl
  dsimp only
  split
  · exact .raise hs
  · exact .ite (.sleepIn hs) (.retire (.modOff (.takeTag (.setNextKey hs))))

protected theorem NextCoresOk.execCpyr {tag : BitVec 6} {list : BitVec 3} {ra : Reg} (hs : CoresOk s) :
    NextCoresOk (execCpyr tag list ra s) :=
  .ite (.sleepIn hs) (.ite (.retire (.endTag (.modOff (.takeTag hs))))
    (.retire (.ite (.endTag (.modOff (.setNextKey (.takeTag hs)))) (.modOff (.setNextKey (.takeTag hs))))))

protected theorem CoresOk.clearLines {pl : Place} {n : Nat} (hs : CoresOk s) : CoresOk (clearLines s pl n) := by
  unfold clearLines
  split
  · exact .filterPoison hs
  · exact hs

theorem coresPort_offPort (p l : Nat) (e : OffEntry) (replay : Bool) : CoresPort (offPort p l e replay) where
  read hs := .iteOf Prod.fst hs hs
  write hs := .clearLines (.writePlace hs)

protected theorem CoresOk.offUnit {p l : Nat} {e : OffEntry} {replay : Bool} {k : Nat} {w : OffWork} (hs : CoresOk s) :
    CoresOk (offUnit p l e replay k s w).1 := by
  unfold offUnit
  split
  · exact .chunksMove (coresPort_offPort _ _ _ _) hs
  · refine .iteOf Prod.fst hs ?_
    split <;> exact hs

protected theorem CoresOk.offUnits {p l n : Nat} {e : OffEntry} {replay : Bool} {w : OffWork} (hs : CoresOk s) :
    CoresOk (offUnits p l e replay n s w).1 := by
  induction n generalizing s w with
  | zero => exact hs
  | succ n ih =>
    unfold offUnits
    split
    · exact hs
    · exact ih (.offUnit hs)

protected theorem CoresOk.offAdvance {p l : Nat} {e : OffEntry} {replay : Bool} {w : OffWork} (hs : CoresOk s) :
    CoresOk (offAdvance s p l e replay w).1 := by
  unfold offAdvance
  split
  · exact .offUnits hs
  · exact .offUnit hs

protected theorem CoresOk.offEnd {p core ctx tag : Nat} {f : Option Flt} (hs : CoresOk s) : CoresOk (offEnd s p core ctx tag f) := by
  unfold offEnd
  dsimp only
  split
  · exact .endTag hs
  · exact .endTag (.sendNotice hs)

protected theorem NextCoresOk.execOffloadEntryDone (hs : CoresOk s) : NextCoresOk (execOffloadEntryDone s) := by
  unfold execOffloadEntryDone
  dsimp only
  split
  · exact .next hs
  · exact .ite (.next hs) (.next (.ite (.offEnd (.modOff (.offAdvance hs))) (.modOff (.offAdvance hs))))

protected theorem CoresOk.endReplay {p l k : Nat} {r : Replay} {f : Option Flt} (hs : CoresOk s) : CoresOk (endReplay s p l k r f) :=
  .offEnd (.modOff hs)

protected theorem CoresOk.replayGoes {p l k : Nat} {r : Replay} {w : OffWork} {len : Nat} (hs : CoresOk s) :
    CoresOk (replayGoes s p l k r w len) :=
  .ite (.modOff hs) (.ite (.endReplay hs) (.modOff hs))

protected theorem NextCoresOk.execReplayEntryDone (hs : CoresOk s) : NextCoresOk (execReplayEntryDone s) := by
  unfold execReplayEntryDone
  dsimp only
  split
  · exact .next hs
  · split
    · exact .next hs
    · exact .ite (.next hs) (.ite (.next (.endReplay hs)) (.next (.replayGoes (.offAdvance hs))))

/-! ### `launch` and `hsig` -/

/-- A launched node holds no image. -/
protected theorem CoresOk.launchNode {core ctx p : Nat} {bs : List Byte} (hs : CoresOk s) : CoresOk (launchNode s core ctx p bs) :=
  .modPart rfl (.modNode rfl (CoresOk.addNode rfl (.setNextKey hs)))

protected theorem NextCoresOk.launchAt {rd ra : Reg} {rel : Bool} (hs : CoresOk s) : NextCoresOk (launchAt s rd ra rel) := by
  unfold launchAt
  dsimp only
  split
  · exact .raise hs
  · refine .ite (.sleepIn hs) ?_
    split
    · exact .raise hs
    · exact .ite (.sleepIn hs) (.ite (.next (.issueOn (.pushAccess (.markBusy hs)))) (.retireReg (.launchNode hs)))

protected theorem NextCoresOk.execLaunch {rd ra : Reg} (hs : CoresOk s) : NextCoresOk (execLaunch rd ra s) := .launchAt hs

protected theorem NextCoresOk.execLaunchRel {rd ra : Reg} (hs : CoresOk s) : NextCoresOk (execLaunchRel rd ra s) := .launchAt hs

protected theorem NextCoresOk.execHsig {ring : BitVec 2} {ra rb : Reg} (hs : CoresOk s) : NextCoresOk (execHsig ring ra rb s) := by
  unfold execHsig
  dsimp only
  refine .ite (.raise hs) ?_
  refine .ite (.sleepIn hs) ?_
  split
  next s e => exact .retire (.acceptToken hs e)
  · exact .sleepIn hs

/-! ### Counters, barriers, steps and joins -/

protected theorem NextCoresOk.addCounter {ra rb : Reg} {rel : Bool} {scope : Nat} (hs : CoresOk s) :
    NextCoresOk (addCounter s ra rb rel scope) := by
  unfold addCounter
  split
  · exact .raise hs
  · exact .retire (.pushAccess hs)

protected theorem NextCoresOk.execCread {rd ra : Reg} (hs : CoresOk s) : NextCoresOk (execCread rd ra s) := by
  unfold execCread
  split
  · exact .raise hs
  · exact .retire (.pushAccess (.markBusy hs))

protected theorem NextCoresOk.execCwait {ra rb : Reg} (hs : CoresOk s) : NextCoresOk (execCwait ra rb s) := by
  unfold execCwait
  refine .ite (.sleepIn hs) ?_
  split
  · exact .raise hs
  · exact .retire (.pushAccess (.modHere hs))

protected theorem NextCoresOk.execCwaitAcq {ra rb : Reg} {scope : BitVec 3} (hs : CoresOk s) :
    NextCoresOk (execCwaitAcq ra rb scope s) := by
  unfold execCwaitAcq
  refine .ite (.sleepIn hs) ?_
  split
  · exact .raise hs
  · exact .ite (.retire (.endWait (.withdrawWaits hs))) (.ite (.next hs) (.sleepIn (.modHere hs)))

protected theorem NextCoresOk.execCwaitRequest (hs : CoresOk s) : NextCoresOk (execCwaitRequest s) := by
  unfold execCwaitRequest
  dsimp only
  split
  · refine .ite (.next hs) ?_
    split
    · exact .next hs
    · refine .ite (.next (.endWait (.withdrawWaits hs))) ?_
      split
      · exact .ite (.next (.modCtx (.setWaits hs))) (.next hs)
      · exact .ite (.next (.modCtx (.setWaits hs))) (.next (.modCtx (.setWaits hs)))
  · exact .next hs

protected theorem CoresOk.modBarrier {core b : Nat} {f : Barrier → Barrier} (hs : CoresOk s) :
    CoresOk (State.modBarrier s core b f) :=
  hs

protected theorem NextCoresOk.execBarrRlx {rd : Reg} {b : BitVec 3} (hs : CoresOk s) : NextCoresOk (execBarrRlx rd b s) := by
  unfold execBarrRlx
  split
  · exact .raise hs
  · exact .ite (.sleepIn hs) (.retireReg hs)

protected theorem NextCoresOk.execBarrRel {rd : Reg} {b : BitVec 3} (hs : CoresOk s) : NextCoresOk (execBarrRel rd b s) := by
  unfold execBarrRel
  dsimp only
  split
  · exact .raise hs
  · exact .ite (.sleepIn hs) (.retire (.pushAccess (.markBusy hs)))

protected theorem NextCoresOk.execBwait {b : BitVec 3} {ra : Reg} (hs : CoresOk s) : NextCoresOk (execBwait b ra s) := by
  unfold execBwait
  dsimp only
  split
  · exact .raise hs
  · exact .ite (.retire hs) (.sleepIn hs)

protected theorem NextCoresOk.execBmiss {rd : Reg} {b : BitVec 3} {ra : Reg} (hs : CoresOk s) : NextCoresOk (execBmiss rd b ra s) := by
  unfold execBmiss
  dsimp only
  split
  · exact .raise hs
  · exact .retireReg hs

protected theorem CoresOk.keepWoken {core b : Nat} (hs : CoresOk s) : CoresOk (keepWoken s core b) :=
  .foldl hs fun _ _ hs => .modCore rfl hs

protected theorem NextCoresOk.execBinit {b : BitVec 3} {ra rd : Reg} (hs : CoresOk s) : NextCoresOk (execBinit b ra rd s) := by
  unfold execBinit
  dsimp only
  split
  · exact .raise hs
  · exact .retire (.modBarrier (.keepWoken hs))

protected theorem CoresOk.leaveBarriers {core ctx : Nat} (hs : CoresOk s) : CoresOk (leaveBarriers s core ctx) := hs

protected theorem CoresOk.setStep {d : StepDom} (hs : CoresOk s) : CoresOk (State.setStep s d) := hs

protected theorem CoresOk.testStep {level domain core : Nat} (hs : CoresOk s) : CoresOk (testStep s level domain core) := .ite hs hs

protected theorem CoresOk.arriveStep {core ctx level : Nat} (hs : CoresOk s) : CoresOk (arriveStep s core ctx level) := .testStep hs

protected theorem CoresOk.leaveSteps {core ctx : Nat} (hs : CoresOk s) : CoresOk (leaveSteps s core ctx) := hs

protected theorem CoresOk.retestSteps {core : Nat} (hs : CoresOk s) : CoresOk (retestSteps s core) :=
  .foldl hs fun _ _ hs => .testStep hs

protected theorem CoresOk.remoteArrival {gid i : Nat} (hs : CoresOk s) : CoresOk (remoteArrival s gid i) := by
  unfold remoteArrival
  dsimp only
  split
  · exact hs
  · split
    · exact hs
    · exact .ite hs (.testStep hs)

protected theorem NextCoresOk.execSstep {rd : Reg} {level : BitVec 3} (hs : CoresOk s) : NextCoresOk (execSstep rd level s) :=
  .ite (.raise hs) <| .ite (.raise hs) <| .ite (.raise hs) <| .ite (.retireReg hs) <| .ite (.retireReg hs) <|
    .ite (.sleepIn hs) <| .ite (.sleepIn hs) <| .ite (.retireReg (.setStep (.arriveStep hs))) <|
    .sleepIn (.arriveStep hs)

protected theorem NextCoresOk.fence {kind : Nat} {scope : BitVec 3} (hs : CoresOk s) : NextCoresOk (fence s kind scope) :=
  .retire (.pushAccess hs)

protected theorem CoresOk.pushJoin {ids stores : List Nat} (hs : CoresOk s) : CoresOk (pushJoin s ids stores) :=
  .ite hs (.pushAccess hs)

protected theorem CoresOk.joinTags {mask : DWord} (hs : CoresOk s) : CoresOk (joinTags s mask) := .pushJoin hs

protected theorem NextCoresOk.execTwany {rd ra : Reg} (hs : CoresOk s) : NextCoresOk (execTwany rd ra s) := by
  unfold execTwany
  refine .ite (.retireReg hs) ?_
  split
  · exact .retireReg (.joinTags hs)
  · exact .sleepIn hs

protected theorem NextCoresOk.execTffr {rd ra : Reg} (hs : CoresOk s) : NextCoresOk (execTffr rd ra s) := by
  unfold execTffr
  split
  · exact .retireReg (.joinTags hs)
  · exact .retireReg hs

/-! ### Contexts and followers -/

protected theorem NextCoresOk.execStart {k : BitVec 5} {ra rb : Reg} (hs : CoresOk s) : NextCoresOk (execStart k ra rb s) := by
  unfold execStart
  split
  · exact .raise hs
  · exact .ite (.sleepIn hs) (.retire (.modCtx hs))

protected theorem CoresOk.joinHelper {k : Nat} (hs : CoresOk s) : CoresOk (joinHelper s k) := .pushJoin hs

protected theorem NextCoresOk.execHjoin {rd : Reg} {k : BitVec 5} (hs : CoresOk s) : NextCoresOk (execHjoin rd k s) := by
  unfold execHjoin
  dsimp only
  refine .ite (.raise hs) ?_
  split
  · exact .raise hs
  · exact .sleepIn hs
  · exact .retireReg (.modCtx (.joinHelper hs))

protected theorem CoresOk.haltFollow {core : Nat} (hs : CoresOk s) : CoresOk (haltFollow s core) :=
  .ite (.foldl (.ite (.endFollow hs) hs) fun _ _ hs => .missFollow hs) (.ite (.endFollow hs) hs)

protected theorem CoresOk.haltCtx {core ctx : Nat} (hs : CoresOk s) : CoresOk (haltCtx s core ctx) := by
  unfold haltCtx
  extract_lets waited done left cleared
  have hd : CoresOk done := .modCtx (.endWait (.withdrawWaits hs))
  have hc : CoresOk cleared := .modCtx (.retestSteps (.leaveSteps (.leaveBarriers (.dropEntries hd))))
  exact .gangQuiet (.ite (.haltFollow hc) hc)

protected theorem CoresOk.wakeNext {core ctx : Nat} {i : Instr} (hs : CoresOk s) : CoresOk (wakeNext s core ctx i) :=
  .ite hs (.ite (.retireAt hs) (.ite (.ite (.pushFollow (.retireAt hs)) (.retireAt hs)) (.popFollow (.retireAt hs))))

protected theorem NextCoresOk.execYield (hs : CoresOk s) : NextCoresOk (execYield s) := by
  unfold execYield
  split
  · exact .next hs
  · exact .sleepIn hs

protected theorem NextCoresOk.execYieldExpiry (hs : CoresOk s) : NextCoresOk (execYieldExpiry s) := by
  unfold execYieldExpiry
  dsimp only
  split
  · exact .next (.ite (.wakeNext hs) hs)
  · exact .next hs

protected theorem NextCoresOk.execWfe (hs : CoresOk s) : NextCoresOk (execWfe s) := by
  unfold execWfe
  split
  · exact .retire hs
  · exact .next hs
  · exact .sleepIn hs

protected theorem NextCoresOk.execWfeTimeout (hs : CoresOk s) : NextCoresOk (execWfeTimeout s) := by
  unfold execWfeTimeout
  dsimp only
  split
  · exact .next (.ite (.wakeNext hs) hs)
  · exact .next hs

protected theorem CoresOk.becomeFollower {leader : Nat} {f : DWord} {j : Nat} (hs : CoresOk s) :
    CoresOk (becomeFollower leader f s j) :=
  .retireAt (.modCore rfl hs)

protected theorem CoresOk.endRendezvous {leader : Nat} {f : DWord} (hs : CoresOk s) : CoresOk (endRendezvous s leader f) :=
  .retireAt (.modCore rfl (.foldl (.foldl hs fun _ _ hs => .becomeFollower hs) fun _ _ hs => .modCore rfl hs))

protected theorem CoresOk.beginWait {core : Nat} {f : DWord} (hs : CoresOk s) : CoresOk (beginWait s core f) := .sleepAt (.modCore rfl hs)

protected theorem CoresOk.leadFollow {f : DWord} (hs : CoresOk s) : CoresOk (leadFollow s f) := by
  unfold leadFollow
  extract_lets missed
  have hm : CoresOk missed := .foldl hs fun _ _ hs => .missFollow hs
  exact .ite (.endRendezvous hm) (.beginWait hm)

protected theorem CoresOk.joinFollow {leader : Nat} {f : DWord} (hs : CoresOk s) : CoresOk (joinFollow s leader f) := by
  unfold joinFollow
  extract_lets ended
  have he : CoresOk ended := .ite (.endRendezvous hs) hs
  exact .ite (.modCore rfl (.missFollow he)) (.ite (.endRendezvous (.beginWait he)) (.beginWait he))

protected theorem NextCoresOk.execFollow (hs : CoresOk s) : NextCoresOk (execFollow s) :=
  .ite (.raise hs) <| .ite (.retire hs) <| .ite (.next (.ite (.endRendezvous hs) hs)) <|
    .next (.ite (.leadFollow hs) (.joinFollow hs))

protected theorem NextCoresOk.execFollowTimeout (hs : CoresOk s) : NextCoresOk (execFollowTimeout s) := by
  unfold execFollowTimeout
  dsimp only
  split
  · exact .next (.ite (.endRendezvous hs) hs)
  · exact .next hs

protected theorem NextCoresOk.execUnfollow (hs : CoresOk s) : NextCoresOk (execUnfollow s) := by
  unfold execUnfollow retire retireTo
  dsimp only
  exact .ite (.raise hs) <| .ite (.next (.endFollow (.retireAt hs))) <| .ite (.next (.modMe rfl (.retireAt hs))) <|
    .next (.retireAt hs)

/-! ### Special registers -/

protected theorem NextCoresOk.waitRng (hs : CoresOk s) : NextCoresOk (waitRng s) := .sleepIn hs

theorem memOk_seed {c : Core} (h : c.MemOk) (e : Engine) (v : BitVec 32) : (c.seed e v).MemOk := by
  cases e <;> exact h

theorem memOk_setPbase {c : Core} (h : c.MemOk) (v : Nat) : (setPbase c v).MemOk := by
  unfold setPbase
  have hc : Core.MemOk ((List.range 16).foldl (fun c k => if (c.watchAt k).state = stFree then c else setPromise c k stFree) c) :=
    Core.memOk_foldl h fun _ _ h => Core.memOk_ite h (memOk_setPromise h _ _)
  exact Core.memOk_of_eq hc (by dsimp only) (by dsimp only)

protected theorem CoresOk.writeSpecial {core ctx n : Nat} {v : DWord} (hs : CoresOk s) : CoresOk (writeSpecial s core ctx n v) := by
  unfold writeSpecial
  dsimp only
  split
  · exact .modCore rfl hs
  · exact .modCore rfl hs
  · exact .modCore rfl hs
  · exact .modCore rfl hs
  · exact .modCtx hs
  · exact .modCoreMem hs fun _ h => memOk_seed h _ _
  · exact .modCoreMem hs fun _ h => memOk_seed h _ _
  · exact .modCoreMem hs fun _ h => memOk_setPbase h _
  · exact .wfeEvent hs

protected theorem NextCoresOk.execMfsr {rd : Reg} {sr : BitVec 12} (hs : CoresOk s) : NextCoresOk (execMfsr rd sr s) := by
  unfold execMfsr
  dsimp only
  split
  · exact .raise hs
  · exact .ite (.waitRng hs) (.retireReg hs)

protected theorem NextCoresOk.execMtsr {sr : BitVec 12} {ra : Reg} (hs : CoresOk s) : NextCoresOk (execMtsr sr ra s) := by
  unfold execMtsr
  dsimp only
  split
  · exact .raise hs
  · exact .ite (.waitRng hs) (.retire (.writeSpecial hs))

/-! ### The network interface -/

protected theorem CoresOk.atomicAtHome {pl : Place} {op w : Nat} {v cmp : DWord} (hs : CoresOk s) :
    CoresOk (atomicAtHome s pl op w v cmp).2 := by
  unfold atomicAtHome
  dsimp only
  split
  · exact .writePlace hs
  · exact hs

protected theorem CoresOk.firewalled {target : Nat} {a : Target} {op : FabOp} {run : Cover} (hs : CoresOk s) :
    CoresOk (firewalled s target a op run).state :=
  .ite (.setBoot hs) hs

protected theorem CoresOk.peekRange {part va n : Nat} (hs : CoresOk s) : CoresOk (peekRange s part va n) := by
  unfold peekRange
  refine .ite hs ?_
  refine .foldl hs fun _ _ hs => ?_
  split
  · split
    · exact .ite hs hs
    · exact hs
  · exact hs

protected theorem CoresOk.fabricServe {pkg part target va : Nat} {op : FabOp} {run : Cover} {x : FabResult} (hs : CoresOk s)
    (e : fabricServe s pkg part target va op run = .ok x) : CoresOk x.state := by
  unfold fabricServe at e
  split at e
  · cases e
  · split at e
    · cases e
    · cases op with
      | read n =>
        dsimp only at e
        split at e
        · cases e
          exact .firewalled (.peekRange hs)
        · split at e
          · cases e
          next f =>
            cases e
            exact .readRange (.peekRange hs) f
      | write bs =>
        dsimp only at e
        split at e
        · cases e
          exact .firewalled hs
        · cases e
          exact .writeRange hs
      | atomic k d v =>
        dsimp only at e
        generalize (if d then 8 else 4) = w at e
        split at e
        · cases e
          exact .firewalled hs
        · split at e
          · cases e
          · split at e
            · cases e
            · cases e
              exact .atomicAtHome hs

protected theorem CoresOk.wakeRequest {p : Nat} (hs : CoresOk s) : CoresOk (wakeRequest s p) := by
  unfold wakeRequest
  split
  · exact .modPart rfl hs
  · exact .modPart rfl hs
  · exact hs

protected theorem CoresOk.holdWriteFor {p : Nat} {w : HeldWrite} (hs : CoresOk s) : CoresOk (holdWriteFor s p w) :=
  .ite (.wakeRequest hs) hs

/-- A write that comes to a partition keeps the form where performing it does. -/
protected theorem CoresOk.writeOrHold {p : Nat} {w : HeldWrite} {perform : State → State} (hs : CoresOk s)
    (k : ∀ {s : State}, CoresOk s → CoresOk (perform s)) : CoresOk (writeOrHold s p w perform) := by
  unfold writeOrHold
  split
  · exact k hs
  · exact k (.wakeRequest hs)
  · exact .holdWriteFor hs
  · exact .holdWriteFor hs
  · exact hs

protected theorem NextCoresOk.pushThread {t : NiThread} (hs : CoresOk s) : NextCoresOk (pushThread s t) :=
  .ite (.sleepIn hs) (.retire (.modMe rfl (.setNextKey (.takeTag hs))))

protected theorem NextCoresOk.getPut {kind : NiKind} {tag : BitVec 6} {ra rb : Reg} {opt : BitVec 3} (hs : CoresOk s) :
    NextCoresOk (getPut s kind tag ra rb opt) := by
  unfold getPut
  dsimp only
  split
  · exact .raise hs
  · refine .ite ?_ ?_
    · split
      · exact .raise hs
      · exact .pushThread hs
    · exact .pushThread hs

protected theorem CoresOk.askForeign {core key pkg : Nat} {r : FabReq} (hs : CoresOk s) :
    CoresOk (askForeign s core key pkg r).1 := by
  unfold askForeign
  refine .iteOf Prod.fst ?_ ?_
  · exact hs
  · split
    · exact hs
    · refine .iteOf Prod.fst ?_ ?_
      · exact hs
      · split
        · exact hs
        · exact .iteOf Prod.fst hs hs
        · exact hs
        · exact hs

protected theorem CoresOk.askFabric {core key pkg part va : Nat} {op : FabOp} {run : Cover} (hs : CoresOk s) :
    CoresOk (askFabric s core key pkg part va op run).1 := by
  unfold askFabric
  dsimp only
  refine .iteOf Prod.fst ?_ ?_
  · refine .iteOf Prod.fst ?_ ?_
    · exact hs
    · refine .iteOf Prod.fst ?_ ?_
      · exact .holdWriteFor hs
      · split
        · exact .ite (.wakeRequest hs) hs
        next s e => exact .fabricServe (.ite (.wakeRequest hs) hs) e
  · split
    next s e => exact .fst_of_eq (.askForeign hs) e
    next s _ e => exact .fst_of_eq (.askForeign hs) e
    next s _ e => exact .fst_of_eq (.askForeign hs) e

theorem coresPort_niPort (core key : Nat) (o : Origin) : CoresPort (niPort core key o) where
  read hs := by
    unfold niPort
    dsimp only
    split
    · split
      next e => exact (CoresOk.askFabric hs).fst_of_eq e
      next e => exact (CoresOk.askFabric hs).fst_of_eq e
      next e => exact (CoresOk.askFabric hs).fst_of_eq e
    · exact (coresPort_diePort _ _).read hs
  write hs := by
    unfold niPort
    dsimp only
    split
    · split
      next e => exact (CoresOk.askFabric hs).fst_of_eq e
      next e => exact (CoresOk.askFabric hs).fst_of_eq e
      next e => exact (CoresOk.askFabric hs).fst_of_eq e
    · exact (coresPort_diePort _ _).write hs

protected theorem CoresOk.niChunk {core : Nat} {t : NiThread} {k : Nat} (hs : CoresOk s) : CoresOk (niChunk s core t k).state := by
  unfold niChunk
  split
  next e =>
    split at e
    · cases e
      exact .chunksMove (coresPort_niPort _ _ _) hs
    · cases e
      exact hs

protected theorem NextCoresOk.collective {kind : NiKind} {tag : BitVec 6} {ra rb : Reg} {opt : BitVec 3} (hs : CoresOk s) :
    NextCoresOk (collective s kind tag ra rb opt) := by
  unfold collective
  dsimp only
  split
  · exact .raise hs
  · exact .pushThread hs

protected theorem CoresOk.breakGroup {gid : Nat} (hs : CoresOk s) : CoresOk (breakGroup s gid) := by
  unfold breakGroup
  split <;> exact hs

protected theorem CoresOk.startColl {core : Nat} {t : NiThread} (hs : CoresOk s) : CoresOk (startColl s core t) := by
  unfold startColl
  dsimp only
  split
  · exact .breakGroup hs
  · exact hs

protected theorem CoresOk.setColl {o : CollOp} (hs : CoresOk s) : CoresOk (State.setColl s o) := hs

protected theorem CoresOk.dropColl {k : Nat} (hs : CoresOk s) : CoresOk (State.dropColl s k) := hs

protected theorem CoresOk.readSource {o : CollOp} {p : Nat × Nat} (hs : CoresOk s) : CoresOk (readSource s o p) := hs

protected theorem CoresOk.writeResult {o : CollOp} {p : Nat × Nat} (hs : CoresOk s) : CoresOk (writeResult s o p) :=
  .setColl (.writePlace hs)

protected theorem CoresOk.finishColl {o : CollOp} {st : Nat × Nat} (hs : CoresOk s) : CoresOk (finishColl s o st) :=
  .dropColl (.writePlace hs)

protected theorem CoresOk.memberWrote {op k : Nat} (hs : CoresOk s) : CoresOk (memberWrote s op k) := by
  unfold memberWrote
  dsimp only
  split
  · exact hs
  · exact .ite hs hs

protected theorem CoresOk.dropColls {core : Nat} (hs : CoresOk s) : CoresOk (dropColls s core) := hs

protected theorem CoresOk.setThread {core : Nat} {t : NiThread} (hs : CoresOk s) : CoresOk (setThread s core t) := .modCore rfl hs

protected theorem CoresOk.niStart {core : Nat} {t : NiThread} (hs : CoresOk s) : CoresOk (niStart s core t) :=
  .ite hs (.ite (.setThread hs) (.startColl (.setThread hs)))

protected theorem CoresOk.niEnd {core : Nat} {t : NiThread} {f : Option Flt} (hs : CoresOk s) : CoresOk (niEnd s core t f) := by
  unfold niEnd
  extract_lets dropped
  have hd : CoresOk dropped := .modCore rfl hs
  split
  · exact .endTag hd
  · exact .endTag (.tagNotice hd)

protected theorem CoresOk.niUnit {core : Nat} {t : NiThread} {k : Nat} (hs : CoresOk s) : CoresOk (niUnit s core t k).1 := by
  unfold niUnit
  dsimp only
  split
  · split
    · exact .niEnd (.niChunk (.niStart hs))
    · exact .niEnd (.niChunk (.niStart hs))
    · exact .setThread (.niChunk (.niStart hs))
  · split
    · exact .niEnd (.niChunk (.niStart hs))
    · exact .niEnd (.niChunk (.niStart hs))
    · exact .setThread (.niChunk (.niStart hs))
  · split
    · exact .niStart hs
    · refine .iteOf Prod.fst ?_ ?_
      · split
        · exact .ite (.readSource (.niStart hs)) (.writeResult (.niStart hs))
        · exact .niStart hs
      · split
        · exact .niStart hs
        · exact .niEnd (.finishColl (.niStart hs))

protected theorem CoresOk.niUnits {n core id : Nat} (hs : CoresOk s) : CoresOk (niUnits n s core id) := by
  induction n generalizing s with
  | zero => exact hs
  | succ n ih =>
    unfold niUnits
    split
    · exact hs
    · exact .ite hs (.ite (.niUnit hs) (ih (.niUnit hs)))

protected theorem NextCoresOk.execNiThreadEnd (hs : CoresOk s) : NextCoresOk (execNiThreadEnd s) := by
  unfold execNiThreadEnd
  dsimp only
  split
  · exact .next hs
  · exact .next (.niUnits hs)

protected theorem NextCoresOk.execMldredRoot (hs : CoresOk s) : NextCoresOk (execMldredRoot s) := by
  unfold execMldredRoot
  dsimp only
  split
  · exact .next hs
  · exact .ite (.next hs) (.next hs)

protected theorem CoresOk.ownMemberRead {o : CollOp} {i : Nat} {m : Member} (hs : CoresOk s) : CoresOk (ownMemberRead s o i m) := by
  unfold ownMemberRead
  dsimp only
  refine .ite (.breakGroup hs) ?_
  refine .ite hs ?_
  refine .ite ?_ ?_
  · split
    · exact .setColl (.peekRange hs)
    · exact .setColl (.sendNotice hs)
  · split
    · exact .ite hs hs
    · exact hs
    · exact .breakGroup hs
    · exact hs

protected theorem CoresOk.askedMemberRead (hs : CoresOk s) : CoresOk (askedMemberRead s) := by
  unfold askedMemberRead
  dsimp only
  split
  · exact hs
  · split
    · exact hs
    · refine .ite hs ?_
      refine .ite (.breakGroup hs) ?_
      split
      · exact .peekRange hs
      · exact .sendNotice hs

protected theorem NextCoresOk.execMemberRead (hs : CoresOk s) : NextCoresOk (execMemberRead s) := by
  unfold execMemberRead
  dsimp only
  split
  · exact .next (.askedMemberRead hs)
  · split
    · exact .next hs
    · exact .ite (.next hs) (.next (.ownMemberRead hs))

protected theorem CoresOk.unstage (hs : CoresOk s) : CoresOk (State.unstage s) := hs

protected theorem CoresOk.timeoutForeign (hs : CoresOk s) : CoresOk (timeoutForeign s) := by
  unfold timeoutForeign
  split
  · exact hs
  · exact .ite hs (.ite hs hs)

protected theorem NextCoresOk.execMemberTimeout (hs : CoresOk s) : NextCoresOk (execMemberTimeout s) := by
  unfold execMemberTimeout
  dsimp only
  split
  · exact .next (.timeoutForeign hs)
  · exact .ite (.next hs) (.next hs)

protected theorem CoresOk.stageForeign (hs : CoresOk s) : CoresOk (stageForeign s) := by
  unfold stageForeign
  dsimp only
  split
  · split
    · exact .ite hs (.ite (.ite (.breakGroup hs) hs) (.ite hs (.ite hs hs)))
    · exact hs
  · exact hs

protected theorem NextCoresOk.execMcstStage (hs : CoresOk s) : NextCoresOk (execMcstStage s) := by
  unfold execMcstStage
  dsimp only
  split
  · exact .next (.stageForeign hs)
  · split
    · exact .next hs
    · exact .ite (.next hs) (.ite (.next (.breakGroup hs)) (.ite (.next hs) (.ite (.next hs) (.next hs))))

protected theorem CoresOk.rootForeign (hs : CoresOk s) : CoresOk (rootForeign s) := by
  unfold rootForeign
  dsimp only
  split
  · exact hs
  · exact .ite hs hs

protected theorem NextCoresOk.execMcstCommit (hs : CoresOk s) : NextCoresOk (execMcstCommit s) := by
  unfold execMcstCommit
  split
  · exact .next (.rootForeign hs)
  · exact .ite (.next hs) (.next hs)

protected theorem CoresOk.writeMember {part core ctx va : Nat} {shared : Bool} {bs : List Byte} (hs : CoresOk s) :
    CoresOk (writeMember s part core ctx va shared bs) := by
  unfold writeMember
  dsimp only
  refine .ite hs ?_
  refine .ite (.sendNotice hs) ?_
  split
  next s e => exact .vwrite hs e
  · exact .sendNotice hs

protected theorem CoresOk.commitForeign (hs : CoresOk s) : CoresOk (commitForeign s) := by
  unfold commitForeign
  dsimp only
  split
  · exact hs
  next x _ =>
    have hw : CoresOk (writeOrHold s x.member.part (.member x.member.part x.member.core x.member.ctx x.off x.shared x.bytes)
        (fun s => writeMember s x.member.part x.member.core x.member.ctx x.off x.shared x.bytes)) :=
      .writeOrHold hs .writeMember
    exact .ite hs (.ite (.unstage hs) (.ite (.ite hs (.unstage hw)) (.unstage hw)))

protected theorem CoresOk.commitSent {o : CollOp} {m : Member} (hs : CoresOk s) : CoresOk (commitSent s o m).1 :=
  .iteOf Prod.fst hs (.askForeign hs)

protected theorem NextCoresOk.execMemberCommitWrite (hs : CoresOk s) : NextCoresOk (execMemberCommitWrite s) := by
  unfold execMemberCommitWrite
  dsimp only
  split
  · exact .next (.commitForeign hs)
  · split
    · exact .next hs
    · exact .ite (.next hs) (.ite (.next (.ite (.memberWrote (.commitSent hs)) (.commitSent hs)))
        (.ite (.next (.memberWrote hs)) (.next (.writeOrHold hs fun hs => .memberWrote (.writeMember hs)))))

protected theorem CoresOk.breakAbsent (hs : CoresOk s) : CoresOk (breakAbsent s) := hs

/-! ### Engine jobs -/

theorem memOk_setHead {c : Core} (h : c.MemOk) (e : Engine) (j : Job) : (setHead c e j).MemOk := memOk_setQueue h _ _

theorem memOk_rngSettle {c : Core} (h : c.MemOk) : c.rngSettle.MemOk := by
  have hd : Core.MemOk ((c.rngWrites.filter c.rngDue).foldl (fun c w => c.seed w.engine w.value) c) :=
    Core.memOk_foldl h fun _ _ h => memOk_seed h _ _
  exact Core.memOk_of_eq hd (by dsimp only [Core.rngSettle]) (by dsimp only [Core.rngSettle])

theorem memOk_setAcc {c : Core} (h : c.MemOk) (k : Nat) (a : Accum) : (setAcc c k a).MemOk := h

theorem wf_acstPut {m : Bytes} (h : Memory.wf m = true) (b : Nat) (t : Bool) (f : Nat) (x : Nat × Nat) (v : Nat) :
    Memory.wf (acstPut m b t f x v) = true := Memory.wf_writes _ _ _ h

theorem wf_acstWrite {m : Bytes} (h : Memory.wf m = true) (j : Job) (f : Nat) (xs : List (Nat × Nat)) (vs : List Nat) :
    Memory.wf (acstWrite m j f xs vs) = true := by
  induction xs generalizing m vs with
  | nil => cases vs <;> exact h
  | cons x xs ih =>
    cases vs with
    | nil => exact h
    | cons v vs =>
      unfold acstWrite
      refine ih ?_ _
      split
      · exact h
      · exact wf_acstPut h _ _ _ _ _

theorem memOk_productUnit {c : Core} (h : c.MemOk) (j : Job) (k : Nat) (fl : Option (FFmt × FFmt)) :
    (productUnit c j k fl).core.MemOk := by
  unfold productUnit
  dsimp only
  split <;> exact memOk_setAcc h _ _

/-- Of the units of a matrix job `acst` alone writes LM (R378). -/
theorem memOk_matUnit {c : Core} (h : c.MemOk) (j : Job) : (matUnit c j).core.MemOk := by
  unfold matUnit
  split
  · exact memOk_productUnit h _ _ _
  · exact memOk_productUnit h _ _ _
  · exact memOk_productUnit h _ _ _
  · exact memOk_setAcc h _ _
  · exact memOk_setAcc h _ _
  · exact Core.memOk_setLm (memOk_setAcc h _ _) (wf_acstWrite h.2 _ _ _ _)
  · exact memOk_setAcc (memOk_setAcc h _ _) _ _
  · exact memOk_setAcc (memOk_setAcc h _ _) _ _
  · exact h

theorem memOk_matAccess {c : Core} (h : c.MemOk) (j : Job) (n : Nat) : (matAccess c j n).core.MemOk := by
  unfold matAccess
  dsimp only
  split
  · split
    · exact h
    · exact Core.memOk_setLm h (wf_acstPut h.2 _ _ _ _ _)
  · split
    · exact h
    · exact h

protected theorem NextCoresOk.execEngineStart (hs : CoresOk s) : NextCoresOk (execEngineStart s) := by
  unfold execEngineStart
  dsimp only
  split
  · exact .next (.refill hs)
  · exact .ite (.next (.refill hs)) (.next (.modCoreMem (.refill hs) fun _ h => memOk_setHead h _ _))

protected theorem CoresOk.leaveQueue {core : Nat} {e : Engine} {fired : Option Nat} (hs : CoresOk s) :
    CoresOk (leaveQueue s core e fired) :=
  .gangQuiet (.afterJob (.modCoreMem hs fun _ h => memOk_rngSettle (memOk_setQueue h _ _)))

protected theorem CoresOk.endMatrix {core : Nat} {j : Job} {ctx : Nat} (hs : CoresOk s) : CoresOk (endMatrix s core j ctx) :=
  .leaveQueue (.modCtx hs)

protected theorem CoresOk.matrixUnit {core : Nat} {j : Job} {k : Nat} (hs : CoresOk s) : CoresOk (matrixUnit s core j k).1 := by
  unfold matrixUnit
  extract_lets m done
  have hm : m.core.MemOk := by
    cases k with
    | zero => exact memOk_matUnit (hs.core core) j
    | succ n => exact memOk_matAccess (hs.core core) j n
  have hd : CoresOk done := .setCore hs (memOk_setHead hm _ _)
  exact .iteOf Prod.fst (.endMatrix hd) hd

protected theorem CoresOk.promiseUnit {core : Nat} {j : Job} {r : RecJob} {k : Nat} (hs : CoresOk s) :
    CoresOk (promiseUnit s core j r k).1 := by
  unfold promiseUnit
  extract_lets u done
  have hd : CoresOk done := .modCoreMem (.promUnit hs) fun _ h => memOk_setHead h _ _
  split <;> dsimp only
  · exact hd
  · exact .endMatrix hd
  · exact .ite hd (.takeSlotFault hd)

protected theorem CoresOk.endCopy {core : Nat} {j : Job} {f : Option Flt} (hs : CoresOk s) : CoresOk (endCopy s core j f) := by
  unfold endCopy
  dsimp only
  refine .leaveQueue ?_
  split
  · exact .endTag hs
  · exact .endTag (.tagNotice hs)

protected theorem CoresOk.chunkUnit {core : Nat} {j : Job} {k : Nat} (hs : CoresOk s) : CoresOk (chunkUnit s core j k).1 := by
  unfold chunkUnit
  extract_lets u done
  have hd : CoresOk done := .modCoreMem (.copyUnit hs) fun _ h => memOk_setHead h _ _
  split <;> dsimp only
  · exact hd
  · exact .endCopy hd
  · exact .endCopy hd

protected theorem CoresOk.vectorUnit {core : Nat} {j : Job} (hs : CoresOk s) : CoresOk (vectorUnit s core j).1 :=
  .leaveQueue (.modCtx (.modCore rfl hs))

protected theorem CoresOk.engineUnit {core : Nat} {e : Engine} {j : Job} {k : Nat} (hs : CoresOk s) :
    CoresOk (engineUnit s core e j k).1 := by
  unfold engineUnit
  split
  · exact .vectorUnit hs
  · exact .chunkUnit hs
  · exact .promiseUnit hs
  · exact .matrixUnit hs

protected theorem CoresOk.engineUnits {n core : Nat} {e : Engine} (hs : CoresOk s) : CoresOk (engineUnits n s core e) := by
  induction n generalizing s with
  | zero => exact hs
  | succ n ih =>
    unfold engineUnits
    split
    · exact hs
    · exact .ite (.engineUnit hs) (ih (.engineUnit hs))

protected theorem NextCoresOk.execEngineJobEnd (hs : CoresOk s) : NextCoresOk (execEngineJobEnd s) := by
  unfold execEngineJobEnd
  dsimp only
  split
  · exact .next (.ite hs (.engineUnits hs))
  · exact .next hs

protected theorem NextCoresOk.execReconcileJobEnd (hs : CoresOk s) : NextCoresOk (execReconcileJobEnd s) := by
  unfold execReconcileJobEnd
  dsimp only
  split
  · exact .next (.ite (.engineUnits hs) hs)
  · exact .next hs

/-! ### Images of cores -/

protected theorem CoresOk.restoreStep {cores : List Nat} {p : StepSave} (hs : CoresOk s) : CoresOk (restoreStep cores s p) := by
  unfold restoreStep
  dsimp only
  split
  · exact hs
  · split <;> exact hs

protected theorem CoresOk.rehome {core : Nat} {cores homes : List Nat} {h : Nat} (hs : CoresOk s) :
    CoresOk (rehome core cores homes s h) := by
  unfold rehome
  dsimp only
  refine .ite hs ?_
  split
  · exact .ite (.modCore rfl hs) (.modCore rfl (.coreNotice hs))
  · exact .modCore rfl (.coreNotice hs)

/-- A core takes the memories of an image (R284). -/
theorem memOk_adoptImage {c img : Core} (h : img.MemOk) : (adoptImage c img).MemOk := h

protected theorem CoresOk.restoreImage {gang : Nat} {cores : List Nat} {core : Nat} {img : CoreImage} (hs : CoresOk s)
    (hi : img.core.MemOk) : CoresOk (restoreImage s gang cores core img) := by
  unfold restoreImage
  extract_lets adopted resumed homed
  have ha : CoresOk adopted := .traceSleepEnds (.modCoreMem hs fun _ _ => memOk_adoptImage hi)
  have hh : CoresOk homed := .foldl (.modCore rfl ha) fun _ _ hs => .rehome hs
  exact .resendWaits (.foldl (.foldl hh fun _ _ hs => hs) fun _ _ hs => hs)

/-- An image is written at its area (R95). -/
protected theorem CoresOk.storeImage {core area : Nat} {collapse : Bool} (hs : CoresOk s) :
    CoresOk (storeImage s core area collapse) :=
  .filterPoison (.setMem hs)

/-! ### The debug window and fault reports -/

protected theorem CoresOk.setMailbox {b : MailBox} {m : MailState} (hs : CoresOk s) : CoresOk (State.setMailbox s b m) := by
  unfold State.setMailbox
  split <;> exact hs

protected theorem CoresOk.windowPeek {core off : Nat} (hs : CoresOk s) : CoresOk (windowPeek s core off) := by
  unfold windowPeek
  split
  · exact hs
  · refine .ite hs ?_
    split
    · split
      · exact .ite hs hs
      · exact hs
    · exact hs

protected theorem CoresOk.acceptReq {core : Nat} (hs : CoresOk s) : CoresOk (acceptReq s core) := .modCore rfl hs

protected theorem CoresOk.ignoreReq {core : Nat} (hs : CoresOk s) : CoresOk (ignoreReq s core) := .modCore rfl hs

protected theorem CoresOk.freezeAction {core : Nat} (hs : CoresOk s) : CoresOk (freezeAction s core) :=
  .ite (.ignoreReq hs) (.postFault (.freezeCore (.acceptReq hs)))

protected theorem CoresOk.resumeAction {core : Nat} (hs : CoresOk s) : CoresOk (resumeAction s core) :=
  .ite (.ignoreReq hs) (.refill (.resumeCore (.acceptReq hs)))

protected theorem CoresOk.stepAction {core tgt : Nat} (hs : CoresOk s) : CoresOk (stepAction s core tgt) :=
  .ite (.ignoreReq hs) (.refill (.resendWait (.modCore rfl (.acceptReq (.ite (.traceTiming hs) hs)))))

protected theorem CoresOk.stopengAction {core : Nat} (hs : CoresOk s) : CoresOk (stopengAction s core) :=
  .ite (.ignoreReq hs) (.modCoreMem (.acceptReq hs) fun _ h => memOk_haltEngines h)

protected theorem CoresOk.haltcAction {core tgt : Nat} (hs : CoresOk s) : CoresOk (haltcAction s core tgt) := by
  unfold haltcAction
  extract_lets accepted halted
  have hh : CoresOk halted := .haltCtx (.ite (.traceTiming (.acceptReq hs)) (.acceptReq hs))
  exact .ite (.ignoreReq hs) hh

protected theorem CoresOk.dwctlWrite {core : Nat} {v : DWord} (hs : CoresOk s) : CoresOk (dwctlWrite s core v) := by
  unfold dwctlWrite
  dsimp only
  split
  · exact hs
  · exact .freezeAction hs
  · exact .resumeAction hs
  · exact .stepAction hs
  · exact .stopengAction hs
  · exact .haltcAction hs
  · exact .ignoreReq hs

protected theorem CoresOk.writeHandle {core h : Nat} {second : Bool} {v : DWord} (hs : CoresOk s) :
    CoresOk (writeHandle s core h second v) :=
  .ite (.ignoreReq hs) (.setHandle (.ite hs (.staleSleepers hs)))

theorem memOk_queueRng {c : Core} (h : c.MemOk) (w : RngWrite) : (c.queueRng w).MemOk := by
  refine memOk_rngSettle ?_
  exact h

protected theorem CoresOk.windowSpecial {core n : Nat} {v : DWord} (hs : CoresOk s) : CoresOk (windowSpecial s core n v) := by
  unfold windowSpecial
  dsimp only
  split
  · exact .ite (.ignoreReq hs) (.writeSpecial hs)
  · exact .ite (.ignoreReq hs) (.writeSpecial hs)
  · exact .ite (.ignoreReq hs) (.modCoreMem hs fun _ h => memOk_queueRng h _)
  · exact .ite (.ignoreReq hs) (.modCoreMem hs fun _ h => memOk_queueRng h _)
  · exact .modCore rfl hs
  · exact .writeSpecial hs
  · exact hs

theorem memOk_dropPromise {c : Core} (h : c.MemOk) (k : Nat) : (dropPromise c k).MemOk := by
  refine memOk_rngSettle ?_
  exact h

protected theorem CoresOk.writeWatchState {core k : Nat} {v : DWord} (hs : CoresOk s) : CoresOk (writeWatchState s core k v) :=
  .ite hs (.refill (.gangQuiet (.modCoreMem hs fun _ h => memOk_changePromise (Core.memOk_ite (memOk_dropPromise h _) h) _ _)))

theorem memOk_setXbarWord {c : Core} (h : c.MemOk) (off key : Nat) (v : DWord) : (setXbarWord c off key v).MemOk :=
  Core.memOk_ite h (Core.memOk_ite h (Core.memOk_ite h h))

/-- The aperture shows a page of LM or of IM (R274). -/
theorem memOk_setApertureWord {c : Core} (h : c.MemOk) (off : Nat) (v : DWord) : (setApertureWord c off v).MemOk := by
  unfold setApertureWord
  split
  · exact h
  · split
    · exact ⟨h.1, Memory.wf_writes _ _ _ h.2⟩
    · exact ⟨Memory.wf_writes _ _ _ h.1, h.2⟩

protected theorem CoresOk.frozenWrite {core off : Nat} {v : DWord} (hs : CoresOk s) : CoresOk (frozenWrite s core off v) :=
  .ite (.writeHandle hs) <| .ite (.writeSpecial hs) <| .ite (.windowSpecial hs) <| .ite (.modCore rfl hs) <| .ite (.modCore rfl hs) <|
    .ite (.ite (.ignoreReq hs) (.ite (.modCtx hs) hs)) <| .ite (.modCoreMem hs fun _ h => memOk_setApertureWord h _ _) <|
    .ite (.modCoreMem (.setNextKey hs) fun _ h => memOk_setXbarWord h _ _ _) <| .ite (.writeWatchState hs) hs

protected theorem CoresOk.windowWrite {core off : Nat} {v : DWord} (hs : CoresOk s) : CoresOk (windowWrite s core off v) :=
  .ite (.dwctlWrite hs) <| .ite (.modCore rfl hs) <| .ite (.modCore rfl hs) <| .ite (.modCore rfl hs) <| .ite (.modCore rfl hs) <|
    .ite (.frozenWrite hs) hs

protected theorem CoresOk.windowStore {core off : Nat} {v : DWord} (hs : CoresOk s) : CoresOk (windowStore s core off v) := by
  unfold windowStore
  split
  · exact hs
  · exact .ite hs (.ite hs (.writeOrHold hs .windowWrite))

protected theorem NextCoresOk.dwctlEvent {code : Nat} (hs : CoresOk s) : NextCoresOk (dwctlEvent s code) := .next (.windowStore hs)

protected theorem CoresOk.breakAt {core k : Nat} {pc : DWord} (hs : CoresOk s) : CoresOk (breakAt s core k pc) :=
  .modCtx (.takeFaultAt (.modCtx hs))

protected theorem CoresOk.deliverReport {p h : Nat} {k : Packet} (hs : CoresOk s) : CoresOk (deliverReport s p h k) :=
  .deliverInto (.modPart rfl hs)

protected theorem CoresOk.forwardFault {p : Nat} {k : Packet} (hs : CoresOk s) : CoresOk (forwardFault s p k) :=
  .ite (.deliverReport (.modPart rfl hs)) (.ite (.modPart rfl (.modPart rfl hs)) hs)

protected theorem CoresOk.forwardNotice {p : Nat} {k : Packet} (hs : CoresOk s) : CoresOk (forwardNotice s p k) :=
  .ite (.deliverReport hs) (.ite (.modPart rfl hs) (.modPart rfl hs))

protected theorem NextCoresOk.execNoticeDeliver (hs : CoresOk s) : NextCoresOk (execNoticeDeliver s) := by
  unfold execNoticeDeliver
  dsimp only
  split
  · exact .next (.deliverReport (.modPart rfl hs))
  · split
    · exact .next (.forwardNotice (.modPart rfl hs))
    · exact .next hs

/-! ### Accesses as they are performed -/

protected theorem CoresOk.removeAccess {core : Nat} {e : Access} (hs : CoresOk s) : CoresOk (removeAccess s core e) := .modCore rfl hs

protected theorem CoresOk.accessNotice {core : Nat} {e : Access} {f : Flt} (hs : CoresOk s) : CoresOk (accessNotice s core e f) :=
  .coreNotice (.removeAccess hs)

protected theorem CoresOk.produceReg {core ctx : Nat} {r : Reg} {v : DWord} (hs : CoresOk s) :
    CoresOk (produceReg s core ctx r v) := .modCtx hs

protected theorem CoresOk.releaseDst {core : Nat} {e : Access} (hs : CoresOk s) : CoresOk (releaseDst s core e) := by
  unfold releaseDst
  dsimp only
  split
  · exact .modCtx hs
  · exact .modCtx hs
  · exact .modCtx hs
  · exact .modCtx hs
  · exact .modCtx hs
  · exact .modCtx hs
  · exact hs

protected theorem CoresOk.lateFault {core : Nat} {e : Access} {f : Flt} (hs : CoresOk s) : CoresOk (lateFault s core e f) := by
  unfold lateFault
  extract_lets removed led stopped marked
  have hr : CoresOk removed := .removeAccess (.releaseDst hs)
  have hl : CoresOk led := .ite (.leaderFault hr) hr
  have ht : CoresOk stopped := .ite (.modCoreMem hl fun _ h => memOk_haltEngines h) (.stopCore (.traceCtx hl))
  exact .postFault (.modCtx ht)

protected theorem CoresOk.writeDst {core : Nat} {e : Access} {dst : LoadDst} {bs : List Byte} (hs : CoresOk s) :
    CoresOk (writeDst s core e dst bs) := by
  unfold writeDst
  dsimp only
  split
  · exact .produceReg hs
  · exact .modCtx hs
  · exact .modCtx hs
  · exact .modCtx hs

protected theorem CoresOk.placeLoad {core : Nat} {e : Access} (hs : CoresOk s) : CoresOk (placeLoad s core e).2 := by
  unfold placeLoad
  split
  · exact hs
  · exact .windowPeek hs
  · exact .readAs hs

protected theorem CoresOk.finishLoad {core : Nat} {e : Access} {dst : LoadDst} {bs : List Byte} (hs : CoresOk s) :
    CoresOk (finishLoad s core e dst bs) :=
  .removeAccess (.writeDst hs)

protected theorem CoresOk.performLoad {core : Nat} {e : Access} {dst : LoadDst} (hs : CoresOk s) :
    CoresOk (performLoad s core e dst) := by
  unfold performLoad
  refine .ite (.ite hs (.ite (.lateFault hs) (.finishLoad (.placeLoad hs)))) ?_
  split
  · exact .finishLoad hs
  · exact hs

protected theorem CoresOk.placeStore {core : Nat} {e : Access} {bs : List Byte} (hs : CoresOk s) :
    CoresOk (placeStore s core e bs) := by
  unfold placeStore
  dsimp only
  split
  · exact .setMailbox hs
  · exact .windowStore hs
  · exact .modCtx (.covered (.writeAs hs))
  · exact .modCtx (.writeAs hs)

protected theorem CoresOk.performStore {core : Nat} {e : Access} {d : Nat} (hs : CoresOk s) : CoresOk (performStore s core e d) :=
  .ite (.placeStore (.removeAccess hs)) hs

protected theorem CoresOk.releaseLine {core : Nat} {pl : Place} (hs : CoresOk s) : CoresOk (releaseLine s core pl) := by
  unfold releaseLine
  split
  · exact .dropLine (.flushLine hs)
  · exact hs

protected theorem CoresOk.releaseHolding {core : Nat} {e : Access} (hs : CoresOk s) : CoresOk (releaseHolding s core e) :=
  .foldl hs fun _ _ hs => .releaseLine hs

protected theorem CoresOk.mergeRequests {core : Nat} {e : Access} {core' : Nat} {e' : Access} (hs : CoresOk s) :
    CoresOk (mergeRequests s core e core' e') := by
  unfold mergeRequests
  dsimp only
  split
  · exact .modCore rfl (.modCore rfl hs)
  · exact hs

protected theorem CoresOk.answerEntry {core : Nat} {e : Access} {r : Except Flt (Option (Reg × DWord))} (hs : CoresOk s) :
    CoresOk (answerEntry s core e r) := by
  unfold answerEntry
  extract_lets removed
  have hd : CoresOk removed := .removeAccess hs
  refine .ite hd ?_
  split
  · exact .ite (.takeFaultAt hd) hd
  · extract_lets written retired
    have hr : CoresOk retired := by
      refine .retireAt ?_
      unfold written
      split
      · exact .modCtx hd
      · exact hd
    refine .ite hr (.ite (.popFollow hr) ?_)
    split
    · exact .pushFollow hr
    · exact hr

protected theorem CoresOk.atomicDone {core : Nat} {e : Access} {ret : Option Reg} {old : Nat} (hs : CoresOk s) :
    CoresOk (atomicDone s core e ret old) := by
  unfold atomicDone
  dsimp only
  refine .ite (.answerEntry hs) ?_
  split
  · exact .produceReg (.removeAccess hs)
  · exact .removeAccess hs

protected theorem CoresOk.atomicFailed {core : Nat} {e : Access} {ret : Option Reg} {f : Flt} (hs : CoresOk s) :
    CoresOk (atomicFailed s core e ret f) :=
  .ite (.answerEntry hs) (.ite (.lateFault hs) (.accessNotice hs))

protected theorem CoresOk.answerMerged {old : Nat} {l : List (Nat × Nat × DWord)} (hs : CoresOk s) :
    CoresOk (answerMerged s old l) := by
  induction l generalizing s old with
  | nil => exact hs
  | cons x r ih =>
    unfold answerMerged
    refine ih ?_
    split
    · exact hs
    · exact .atomicDone hs

protected theorem CoresOk.failMerged {f : Flt} {l : List (Nat × Nat × DWord)} (hs : CoresOk s) : CoresOk (failMerged s f l) := by
  induction l generalizing s with
  | nil => exact hs
  | cons x r ih =>
    unfold failMerged
    refine ih ?_
    split
    · exact hs
    · exact .atomicFailed hs

protected theorem CoresOk.atomicAnswer {core : Nat} {e : Access} {old : Nat} (hs : CoresOk s) : CoresOk (atomicAnswer s core e old) :=
  .ite (.atomicDone hs) (.answerMerged hs)

protected theorem CoresOk.atomicRefused {core : Nat} {e : Access} {f : Flt} (hs : CoresOk s) : CoresOk (atomicRefused s core e f) :=
  .ite (.atomicFailed hs) (.failMerged hs)

protected theorem CoresOk.performAtomic {core : Nat} {e : Access} {op : Nat} {v cmp : DWord} (hs : CoresOk s) :
    CoresOk (performAtomic s core e op v cmp) :=
  .ite (.atomicRefused hs) (.ite (.atomicRefused hs) (.atomicAnswer (.atomicAtHome (.releaseHolding hs))))

protected theorem CoresOk.performFabric {core : Nat} {e : Access} {op : Nat} {v : DWord} {pkg part va : Nat} (hs : CoresOk s) :
    CoresOk (performFabric s core e op v pkg part va) := by
  unfold performFabric
  split
  next s e => exact .fst_of_eq (.askFabric (.releaseHolding hs)) e
  next s _ e => exact .atomicRefused (.fst_of_eq (.askFabric (.releaseHolding hs)) e)
  next s _ e => exact .atomicAnswer (.fst_of_eq (.askFabric (.releaseHolding hs)) e)

protected theorem CoresOk.performCadd {core : Nat} {e : Access} {n : DWord} (hs : CoresOk s) : CoresOk (performCadd s core e n) :=
  .ite (.accessNotice hs) (.counterAdd (.removeAccess hs))

protected theorem CoresOk.performCread {core : Nat} {e : Access} {rd : Reg} (hs : CoresOk s) : CoresOk (performCread s core e rd) :=
  .ite (.lateFault hs) (.produceReg (.removeAccess hs))

protected theorem CoresOk.performAdvance {core : Nat} {e : Access} {h : Nat} {producer : Bool} {n : Nat} (hs : CoresOk s) :
    CoresOk (performAdvance s core e h producer n) := by
  unfold performAdvance
  split
  · exact .lateFault hs
  · exact .movePointer (.removeAccess hs)

protected theorem CoresOk.performProxy {core : Nat} {e : Access} {owner h : Nat} {sent : Handle} {producer : Bool}
    {n : Nat} (hs : CoresOk s) :
    CoresOk (performProxy s core e owner h sent producer n) := by
  unfold performProxy
  dsimp only
  split
  · exact .answerEntry hs
  · exact .answerEntry (.movePointer hs)

protected theorem CoresOk.performLines {core : Nat} {e : Access} {drop : Bool} (hs : CoresOk s) :
    CoresOk (performLines s core e drop) :=
  .removeAccess (.foldl hs fun _ _ hs => .ite (.dropLine (.flushLine hs)) (.flushLine hs))

protected theorem CoresOk.performLaunch {core : Nat} {e : Access} {rd : Reg} {bs : List Byte} (hs : CoresOk s) :
    CoresOk (performLaunch s core e rd bs) :=
  .ite (.modCoreMem (.produceReg (.removeAccess (.launchNode hs))) fun _ h => Core.memOk_ite h h) hs

protected theorem CoresOk.performArrive {core : Nat} {e : Access} {b : Nat} {rd : Reg} (hs : CoresOk s) :
    CoresOk (performArrive s core e b rd) :=
  .produceReg (.modCluster (.removeAccess hs))

protected theorem CoresOk.performAccess {core : Nat} {e : Access} (hs : CoresOk s) : CoresOk (performAccess s core e) := by
  unfold performAccess
  dsimp only
  split
  · exact .performLoad hs
  · exact .performStore hs
  · refine .ite hs ?_
    split
    · exact .performFabric hs
    · exact .performAtomic hs
  · exact .ite (.performCadd hs) hs
  · exact .ite (.performCread hs) hs
  · exact .ite hs (.removeAccess hs)
  · exact .ite hs (.removeAccess hs)
  · exact .ite (.performLines hs) hs
  · exact .ite (.performLines hs) hs
  · exact .ite (.performArrive hs) hs
  · exact .ite (.performAdvance hs) hs
  · exact .performProxy hs
  · exact hs
  · exact .performLaunch hs

protected theorem NextCoresOk.execHoldSend (hs : CoresOk s) : NextCoresOk (execHoldSend s) := by
  unfold execHoldSend
  dsimp only
  split
  · exact .next (.ite hs hs)
  · exact .next hs

protected theorem NextCoresOk.execApply (hs : CoresOk s) : NextCoresOk (execApply s) := by
  unfold execApply
  dsimp only
  split
  · exact .next hs
  next w r _ =>
    have hw : CoresOk (applyMsgs s [w]) := .applyMsgs hs
    exact .next hw

protected theorem NextCoresOk.execEvict (hs : CoresOk s) : NextCoresOk (execEvict s) := by
  unfold execEvict
  dsimp only
  split
  · exact .next (.ite hs hs)
  · exact .next hs

protected theorem CoresOk.fabricServed {r : FabReq} (hs : CoresOk s) : CoresOk (fabricServed s r) := by
  unfold fabricServed
  split
  next s e => exact .fabricServe hs e
  · exact hs

protected theorem CoresOk.mergeIncoming {r : FabReq} (hs : CoresOk s) (e : mergeIncoming s r = some t) : CoresOk t := by
  unfold mergeIncoming at e
  split at e
  · split at e
    · dsimp only at e
      split at e
      · cases e
        exact .modCore rfl hs
      · cases e
    · cases e
  · cases e

protected theorem NextCoresOk.execFabricRequest (hs : CoresOk s) : NextCoresOk (execFabricRequest s) := by
  unfold execFabricRequest
  dsimp only
  refine .ite (.next hs) ?_
  have written : NextCoresOk (.next ((mergeIncoming s s.input.req).getD
      (writeOrHold s s.input.req.part (.fabric s.input.req) (fun u => fabricServed u s.input.req)))) :=
    .next (.getD (fun _ e => .mergeIncoming hs e) (.writeOrHold hs .fabricServed))
  split
  · exact .next hs
  · split
    · exact .next (.fabricServed hs)
    · exact written
    · exact written

/-! ### The front end's rings and nodes -/

protected theorem CoresOk.modCmd {vf r : Nat} {g : CmdRing → CmdRing} (hs : CoresOk s) : CoresOk (State.modCmd s vf r g) := hs

protected theorem CoresOk.admitSlot {vf r slot : Nat} {again : Bool} (hs : CoresOk s) : CoresOk (admitSlot s vf r slot again) := by
  unfold admitSlot
  extract_lets c rec0 held used fresh base n ringed
  have hr : CoresOk ringed := .modCmd hs
  have hn : n.ImagesOk := by
    unfold n
    split <;> exact fun _ h => nomatch h
  exact .setNextKey (.addNodeImages hr hn)

protected theorem CoresOk.admitRing {n vf r : Nat} (hs : CoresOk s) : CoresOk (admitRing n s vf r) := by
  induction n generalizing s with
  | zero => exact hs
  | succ n ih => exact .ite (ih (.modCmd (.admitSlot hs))) hs

protected theorem CoresOk.admitSlots {vf r : Nat} (hs : CoresOk s) : CoresOk (admitSlots s vf r) := .admitRing hs

protected theorem CoresOk.decrement {vf r slot : Nat} (hs : CoresOk s) : CoresOk (decrement s vf r slot) := by
  unfold decrement
  dsimp only
  split
  · exact .ite hs (.ite (.modNode rfl (.setNextKey (.modNode rfl hs))) (.modNode rfl hs))
  · exact hs

protected theorem CoresOk.readmit {vf r slot : Nat} (hs : CoresOk s) (e : readmit s vf r slot = some t) : CoresOk t := by
  unfold readmit at e
  dsimp only at e
  split at e
  · cases e
  · cases e
    exact .admitSlot hs

protected theorem CoresOk.postNode {n : Node} (hs : CoresOk s) (e : postNode s n = some t) : CoresOk t := by
  unfold postNode at e
  split at e
  · split at e
    · cases e
      exact hs
    · split at e
      · cases e
      · exact .postEntry hs e
  · cases e
    exact hs

protected theorem CoresOk.retireNode {n : Node} (hs : CoresOk s) : CoresOk (retireNode s n) := by
  unfold retireNode
  dsimp only
  split
  · exact .admitSlots (.filterNodes hs)
  · exact .filterNodes hs

protected theorem CoresOk.finishNode {key : Nat} (hs : CoresOk s) : CoresOk (finishNode s key) := by
  unfold finishNode
  split
  · exact hs
  · split
    next s e => exact .retireNode (.postNode hs e)
    · exact hs

protected theorem CoresOk.closeNode {key : Nat} (hs : CoresOk s) : CoresOk (closeNode s key) := .finishNode (.modNode rfl (.setNextKey hs))

protected theorem CoresOk.supervisorFault {p : Nat} {k : Packet} (hs : CoresOk s) : CoresOk (supervisorFault s p k) := by
  unfold supervisorFault
  dsimp only
  split
  next s e =>
    split at e
    · cases e
    · exact .modPart rfl (.postEntry hs e)
  · exact .modPart rfl (.setNextKey hs)

protected theorem CoresOk.supervisorRetry {vf : Nat} (hs : CoresOk s) : CoresOk (supervisorRetry s vf) := by
  unfold supervisorRetry
  dsimp only
  refine .ite ?_ ?_
  · split
    · exact .supervisorFault hs
    · exact hs
  · exact hs

protected theorem CoresOk.postHeld {vf : Nat} (hs : CoresOk s) : CoresOk (postHeld s vf) :=
  .supervisorRetry (.foldl hs fun _ _ hs => .finishNode hs)

protected theorem CoresOk.resumeVf {vf : Nat} (hs : CoresOk s) : CoresOk (resumeVf s vf) :=
  .foldl (.foldl (.drainEntries hs) fun _ _ hs => .postHeld hs) fun _ _ hs => .admitSlots hs

protected theorem CoresOk.retireUnbound {key status sub : Nat} (hs : CoresOk s) : CoresOk (retireUnbound s key status sub) := by
  unfold retireUnbound
  dsimp only
  split
  · exact hs
  · refine .closeNode ?_
    refine .modNode rfl ?_
    split
    · split
      · exact .traceNode hs
      · exact .nodeNotice (.traceNode hs)
    · exact .traceNode hs

protected theorem CoresOk.abortRing {vf r : Nat} (hs : CoresOk s) : CoresOk (abortRing s vf r) :=
  .foldl hs fun _ _ hs => .retireUnbound hs

protected theorem CoresOk.crctlWrite {vf r v : Nat} (hs : CoresOk s) : CoresOk (crctlWrite s vf r v) :=
  .ite hs (.ite (.abortRing hs) hs)

protected theorem CoresOk.crtailWrite {vf r v : Nat} (hs : CoresOk s) : CoresOk (crtailWrite s vf r v) := .admitSlots (.ite hs hs)

protected theorem CoresOk.cpctlWrite {vf v : Nat} (hs : CoresOk s) : CoresOk (cpctlWrite s vf v) := by
  unfold cpctlWrite
  dsimp only
  exact .resumeVf (.modVf hs)

protected theorem CoresOk.cpheadWrite {vf v : Nat} (hs : CoresOk s) : CoresOk (cpheadWrite s vf v) := .resumeVf hs

protected theorem CoresOk.tkctlWrite {vf t v : Nat} (hs : CoresOk s) : CoresOk (tkctlWrite s vf t v) := .drainTokens hs

protected theorem CoresOk.tkheadWrite {vf t v : Nat} (hs : CoresOk s) : CoresOk (tkheadWrite s vf t v) := .drainTokens hs

protected theorem CoresOk.vfRegWrite {vf off : Nat} {w : DWord} (hs : CoresOk s) : CoresOk (vfRegWrite s vf off w) := by
  unfold vfRegWrite
  dsimp only
  refine .ite ?_ ?_
  · split
    · exact hs
    · exact .crctlWrite hs
    · exact .crtailWrite hs
    · exact hs
  · refine .ite hs ?_
    refine .ite (.cpctlWrite hs) ?_
    refine .ite (.cpheadWrite hs) ?_
    refine .ite ?_ ?_
    · split
      · exact hs
      · exact .tkctlWrite hs
      · exact .tkheadWrite hs
      · exact hs
    · exact .ite hs hs

protected theorem CoresOk.vfWrite {vf off : Nat} {v : DWord} (hs : CoresOk s) : CoresOk (vfWrite s vf off v) := by
  unfold vfWrite
  dsimp only
  refine .ite hs ?_
  split
  · exact .vfRegWrite hs
  · exact .vfRegWrite (.wakeRequest hs)
  · exact .holdWriteFor hs
  · exact .holdWriteFor hs
  · exact hs

protected theorem CoresOk.msixWrite {vf off : Nat} {v : DWord} (hs : CoresOk s) : CoresOk (msixWrite s vf off v) := .ite hs hs

protected theorem NextCoresOk.execFaultPacketDeliver (hs : CoresOk s) : NextCoresOk (execFaultPacketDeliver s) := by
  unfold execFaultPacketDeliver
  dsimp only
  split
  · exact .next (.deliverReport (.modPart rfl hs))
  · split
    · exact .next (.supervisorFault hs)
    · split
      · exact .next (.forwardFault hs)
      · exact .next hs

protected theorem NextCoresOk.execFlrVf (hs : CoresOk s) : NextCoresOk (execFlrVf s) := by
  unfold execFlrVf
  extract_lets vf mine posted
  have hp : CoresOk posted := .mapNodes hs fun _ h => by
    split <;> exact h
  exact .next (.supervisorRetry (.foldl hp fun _ _ hs => .retireNode hs))

/-! ### Binding -/

protected theorem CoresOk.edgeBump {p e i : Nat} (hs : CoresOk s) : CoresOk (edgeBump s p e i) := .counterAdd hs

protected theorem CoresOk.edgesBind {p : Nat} {r : NodeRec} (hs : CoresOk s) : CoresOk (edgesBind s p r) :=
  .foldl (.foldl hs fun _ _ hs => .edgeBump hs) fun _ _ hs => .edgeBump hs

protected theorem CoresOk.edgesDone {p : Nat} {r : NodeRec} (hs : CoresOk s) : CoresOk (edgesDone s p r) :=
  .foldl (.foldl hs fun _ _ hs => .edgeBump hs) fun _ _ hs => .edgeBump hs

protected theorem CoresOk.restick {p : Nat} (hs : CoresOk s) : CoresOk (restick s p) :=
  .mapNodes hs fun _ h => by
    split <;> exact h

protected theorem CoresOk.oweSelect (hs : CoresOk s) : CoresOk (State.oweSelect s) := hs

protected theorem CoresOk.endNode {key status sub : Nat} {release : Bool} (hs : CoresOk s) :
    CoresOk (endNode s key status sub release) :=
  .modNode rfl hs

protected theorem CoresOk.refuseNode {key sub : Nat} (hs : CoresOk s) : CoresOk (refuseNode s key sub) := .endNode hs

protected theorem CoresOk.readFailed {n : Node} {sub : Nat} {f : Flt} (hs : CoresOk s) : CoresOk (readFailed s n sub f) :=
  .refuseNode (.nodeNotice hs)

protected theorem CoresOk.growDeficit {p level : Nat} (hs : CoresOk s) : CoresOk (growDeficit s p level) := .modPart rfl hs

protected theorem CoresOk.emptyLevel {p level : Nat} (hs : CoresOk s) : CoresOk (emptyLevel s p level) := .modPart rfl hs

protected theorem CoresOk.appear {p level : Nat} (hs : CoresOk s) : CoresOk (appear s p level) :=
  .ite hs (.ite (.growDeficit (.emptyLevel hs)) (.emptyLevel hs))

protected theorem CoresOk.recordRefused {n : Node} {off : Nat} (hs : CoresOk s) : CoresOk (recordRefused s n off) := by
  unfold recordRefused
  split
  · exact .refuseNode hs
  · exact .refuseNode (.sendNotice hs)

protected theorem CoresOk.readyNode {key : Nat} (hs : CoresOk s) : CoresOk (readyNode s key) := by
  unfold readyNode
  extract_lets q ready
  have hr : CoresOk ready := .modNode rfl (.setNextKey hs)
  split
  · exact hr
  · dsimp only
    split
    · exact .oweSelect (.endNode (.traceNode hr))
    · exact .restick (.appear (.traceNode hr))

protected theorem CoresOk.bindRest {n : Node} (hs : CoresOk s) : CoresOk (bindRest s n) := by
  unfold bindRest
  split
  · exact .readFailed hs
  · split
    · exact .readFailed hs
    · exact .refuseNode hs
    · exact .readyNode (.modNode rfl hs)

/-- A node that is bound keeps what images stand in its record. -/
protected theorem CoresOk.bindNode {n : Node} (hs : CoresOk s) (hn : n.ImagesOk) : CoresOk (bindNode s n) := by
  unfold bindNode
  dsimp only
  split
  · exact .recordRefused (.modNodeImages (.edgesBind hs) fun _ _ => hn)
  · exact .bindRest (.modNodeImages (.edgesBind hs) fun _ _ => hn)

protected theorem NextCoresOk.execNodeBind (hs : CoresOk s) : NextCoresOk (execNodeBind s) := by
  unfold execNodeBind
  split
  · exact .next hs
  next h => exact .ite (.next hs) (.ite (.next (.retireUnbound hs)) (.next (.bindNode hs (hs.node h))))

/-! ### Gangs -/

protected theorem CoresOk.seatGang {n : Node} {cores : List Nat} (hs : CoresOk s) : CoresOk (seatGang s n cores) :=
  .foldl hs fun _ _ hs => .modCore rfl hs

/-- A node that runs keeps no image (R152). -/
protected theorem CoresOk.runNode {key : Nat} {cores : List Nat} (hs : CoresOk s) : CoresOk (runNode s key cores) :=
  .modNodeImages hs fun _ _ _ h => nomatch h

/-- The release of a core writes code into its IM, and arguments and data into its LM (R143). -/
theorem memOk_loadCore {c : Core} (h : c.MemOk) (im args lm : List Byte) (off entry : Nat) : (loadCore c im args lm off entry).MemOk :=
  ⟨Memory.wf_writes _ _ _ h.1, Memory.wf_writes _ _ _ (Memory.wf_writes _ _ _ h.2)⟩

protected theorem CoresOk.launchImage {n : Node} {cores : List Nat} (hs : CoresOk s) : CoresOk (launchImage s n cores) := by
  unfold launchImage
  dsimp only
  split
  · exact .readFailed hs
  · split
    · exact .readFailed hs
    · exact .runNode (.foldl (.seatGang hs) fun _ _ hs => .modCoreMem hs fun _ h => memOk_loadCore h _ _ _ _ _)

protected theorem CoresOk.restoreGang {n : Node} {cores : List Nat} {imgs : List CoreImage} {steps : List StepSave} (hs : CoresOk s)
    (hi : ∀ g ∈ imgs, g.core.MemOk) : CoresOk (restoreGang s n cores imgs steps) := by
  unfold restoreGang
  extract_lets seated restored stepped
  have hr : CoresOk restored := .foldlMem (.runNode (.seatGang hs)) fun _ _ h hs => .restoreImage hs (hi _ (List.of_mem_zip h).2)
  have ht : CoresOk stepped := .foldl hr fun _ _ hs => .restoreStep hs
  exact .foldl ht fun _ _ hs => .refill hs

/-- The memories that an image's bytes hold are read as runs of bytes (R282). -/
theorem memOk_decodeCore (s : State) (bs : List Byte) : (decodeCore s bs).MemOk := by
  unfold decodeCore
  extract_lets sp lm stage fresh c rec' jobs q d
  have hc : c.MemOk := ⟨bytesAt_wf _ _, bytesAt_wf _ _⟩
  have hd : d.MemOk := Core.memOk_foldl hc fun _ _ h => h
  exact Core.memOk_of_eq hd (by dsimp only) (by dsimp only)

theorem memOk_of_readImages {n : Node} {l : List Nat} {imgs : List CoreImage} (e : readImages s n l = .ok imgs) :
    ∀ g ∈ imgs, g.core.MemOk := by
  induction l generalizing imgs with
  | nil =>
    cases e
    exact fun _ h => nomatch h
  | cons i r ih =>
    unfold readImages at e
    split at e
    · cases e
    · dsimp only at e
      split at e
      · cases e
      · split at e
        · cases e
        next f =>
          cases e
          exact List.forall_mem_cons.2 ⟨memOk_decodeCore _ _, ih f⟩

protected theorem CoresOk.launchResume {n : Node} {cores : List Nat} (hs : CoresOk s) : CoresOk (launchResume s n cores) := by
  unfold launchResume
  split
  · exact .readFailed hs
  next e => exact .restoreGang hs (memOk_of_readImages e)

protected theorem CoresOk.launchGang {n : Node} {cores : List Nat} (hs : CoresOk s) (hn : n.ImagesOk) :
    CoresOk (launchGang s n cores) :=
  .ite (.restoreGang hs hn) (.ite (.launchResume hs) (.launchImage hs))

protected theorem CoresOk.retestNode {n : Node} (hs : CoresOk s) : CoresOk (retestNode s n) := by
  unfold retestNode
  split
  · exact .oweSelect (.endNode (.modNodeImages hs fun _ _ _ h => nomatch h))
  · exact hs

protected theorem CoresOk.retestPlaces {p : Nat} (hs : CoresOk s) :
    CoresOk (retestPlaces s p) :=
  .foldl hs fun _ _ hs => .retestNode hs

protected theorem CoresOk.leftCores {n : Node} (hs : CoresOk s) : CoresOk (leftCores s n) := .modNode rfl (.setNextKey hs)

protected theorem CoresOk.freeCores {key part : Nat} {cores : List Nat} (hs : CoresOk s) : CoresOk (freeCores s key part cores) := by
  unfold freeCores
  extract_lets gone dropped freed
  have hd : CoresOk dropped := hs
  have hf : CoresOk freed := .foldl hd fun _ _ hs => .modCore rfl hs
  exact .restick (.ite (.retestPlaces hf) hf)

protected theorem CoresOk.drainCore {n core : Nat} (hs : CoresOk s) : CoresOk (drainCore n s core) := by
  induction n generalizing s with
  | zero => exact hs
  | succ n ih =>
    unfold drainCore
    split
    · exact ih (.performAccess hs)
    · exact hs

protected theorem CoresOk.clearCore {core : Nat} (hs : CoresOk s) : CoresOk (clearCore s core) :=
  .dropColls <| .modCore rfl <|
    .foldl (.foldl (.drainCore hs) fun _ _ hs => .niUnits hs) fun _ _ hs => .withdrawWaits (.dropEntries hs)

protected theorem CoresOk.clearGang {n : Node} (hs : CoresOk s) : CoresOk (clearGang s n) :=
  .oweSelect (.freeCores (.foldl hs fun _ _ hs => .clearCore hs))

/-! ### Copy and base die nodes -/

protected theorem CoresOk.jobDone {n : Node} {f : Option Flt} (hs : CoresOk s) : CoresOk (jobDone s n f) := by
  unfold jobDone
  dsimp only
  refine .oweSelect ?_
  refine .endNode ?_
  refine .modNode rfl ?_
  split
  · exact .nodeNotice hs
  · exact hs

protected theorem CoresOk.copyNodeUnit {n : Node} {j : Job} {k : Nat} (hs : CoresOk s) : CoresOk (copyNodeUnit s n j k) := by
  unfold copyNodeUnit
  dsimp only
  split
  · exact .modNode rfl (.copyUnitBy hs)
  · exact .jobDone (.copyUnitBy hs)
  · exact .jobDone (.copyUnitBy hs)

protected theorem CoresOk.modStack {k : Nat} {f : BaseDie → BaseDie} (hs : CoresOk s) : CoresOk (State.modStack s k f) := hs

protected theorem CoresOk.bdIdle {h : List Byte} {idle : Bool} (hs : CoresOk s) : CoresOk (bdIdle s h idle) :=
  .foldl hs fun _ _ hs => hs

protected theorem CoresOk.bdEnd {n : Node} {k : Nat} {f : Option Flt} (hs : CoresOk s) : CoresOk (bdEnd s n k f) :=
  .jobDone (.bdIdle (.ite hs hs))

protected theorem CoresOk.baseDieUnit {n : Node} {k : Nat} (hs : CoresOk s) : CoresOk (baseDieUnit s n k) := by
  unfold baseDieUnit
  dsimp only
  split
  · exact .bdEnd hs
  · split
    · exact .bdEnd hs
    · exact .ite (.bdEnd (.modStack (.writeRange hs))) (.modNode rfl (.modStack (.writeRange hs)))

protected theorem CoresOk.nodeUnit {n : Node} {k : Nat} (hs : CoresOk s) : CoresOk (nodeUnit s n k) := by
  unfold nodeUnit
  refine .ite hs ?_
  split
  · exact .copyNodeUnit hs
  · split
    · exact .baseDieUnit hs
    · exact hs
  · exact hs

protected theorem CoresOk.startJob {n : Node} (hs : CoresOk s) : CoresOk (startJob s n) := by
  unfold startJob
  extract_lets running j
  have hr : CoresOk running := .modNode rfl hs
  exact .ite (.ite (.jobDone hr) (.modNode rfl hr)) (.ite (.jobDone hr) (.bdIdle hr))

/-! ### Selection and completion of nodes -/

protected theorem CoresOk.rearm {vf r : Nat} {l : List Nat} (hs : CoresOk s) : CoresOk (rearm vf r s l).1 := by
  induction l generalizing s with
  | nil => exact hs
  | cons k l ih =>
    unfold rearm
    split
    next s e => exact ih (.readmit hs e)
    · exact ih hs

protected theorem CoresOk.rearmList {n : Node} {vf r va narm : Nat} (hs : CoresOk s) : CoresOk (rearmList s n vf r va narm).1 := by
  unfold rearmList
  split
  · exact .rearm hs
  · exact .nodeNotice hs

protected theorem CoresOk.condTaken {n : Node} {vf r va narm : Nat} (hs : CoresOk s) : CoresOk (condTaken s n vf r va narm) := by
  unfold condTaken
  extract_lets traced done grown
  have hd : CoresOk done := .oweSelect (.modNode rfl (.traceNode (.edgesDone hs)))
  have hg : CoresOk grown := .ite (.growDeficit hd) hd
  exact .closeNode (.modNode rfl (.rearmList hg))

protected theorem CoresOk.dispatchCond {n : Node} (hs : CoresOk s) : CoresOk (dispatchCond s n) := by
  unfold dispatchCond
  dsimp only
  split
  · exact .endNode (.nodeNotice hs)
  · refine .ite (.endNode hs) ?_
    split
    · exact .condTaken hs
    · exact .endNode hs

protected theorem CoresOk.pinNode {n : Node} (hs : CoresOk s) : CoresOk (pinNode s n) := by
  unfold pinNode
  dsimp only
  split
  · exact hs
  · split
    · exact .modCmd (.modNode rfl hs)
    · exact .modNode rfl hs

protected theorem CoresOk.dispatch {n : Node} (hs : CoresOk s) (hn : n.ImagesOk) : CoresOk (dispatch s n) := by
  unfold dispatch
  extract_lets pinned
  have hp : CoresOk pinned := .pinNode (.traceNode hs)
  split
  · refine .ite (.oweSelect (.endNode (.modNodeImages hp fun _ _ _ h => nomatch h))) ?_
    split
    · exact .launchGang hp hn
    · exact hp
  · exact .startJob hp
  · exact .startJob hp
  · exact .dispatchCond hp
  · exact .endNode hp

protected theorem CoresOk.serveNode {n : Node} (hs : CoresOk s) (hn : n.ImagesOk) : CoresOk (serveNode s n) := by
  unfold serveNode
  extract_lets charged served
  have hc : CoresOk charged := .modPart rfl hs
  have hd : CoresOk served := .dispatch hc hn
  exact .restick (.ite (.emptyLevel hd) hd)

protected theorem CoresOk.serveOrClaim {n : Node} (hs : CoresOk s) (hn : n.ImagesOk) : CoresOk (serveOrClaim s n) := by
  unfold serveOrClaim
  split
  · exact .ite hs (.serveNode hs hn)
  · exact .serveNode hs hn

theorem mem_insertNode {before : Node → Node → Bool} {n m : Node} {l : List Node} (h : m ∈ insertNode before n l) :
    m = n ∨ m ∈ l := by
  induction l with
  | nil => exact .inl (List.mem_singleton.1 h)
  | cons x r ih =>
    unfold insertNode at h
    split at h
    · exact List.mem_cons.1 h
    · obtain rfl | h := List.mem_cons.1 h
      · exact .inr List.mem_cons_self
      · exact (ih h).imp_right (List.mem_cons_of_mem x)

/-- The node that selection takes at a level is one of the state's. -/
theorem mem_nodes_of_chosen {p level : Nat} {n : Node} (h : chosen s p level = some n) : n ∈ s.nodes := by
  have k : ∀ l : List Node, (∀ m ∈ l, m ∈ s.nodes) → ∀ o : List Node, (∀ m ∈ o, m ∈ s.nodes) →
      ∀ m ∈ l.foldl (fun o n => insertNode (ageBefore s) n o) o, m ∈ s.nodes := by
    intro l
    induction l with
    | nil => exact fun _ o ho => ho
    | cons x r ih =>
      intro hl o ho
      obtain ⟨hx, hr⟩ := List.forall_mem_cons.1 hl
      exact ih hr _ fun m hm => (mem_insertNode hm).elim (fun e => e ▸ hx) (ho m)
  exact k _ (fun m hm => List.mem_of_mem_filter hm) [] (fun _ h => nomatch h) n (List.mem_of_find?_eq_some h)

protected theorem CoresOk.selectOver {l : List (Nat × Nat)} (hs : CoresOk s) : CoresOk (selectOver l s) := by
  induction l generalizing s with
  | nil => exact hs
  | cons x r ih =>
    unfold selectOver
    refine .ite (ih (.emptyLevel hs)) ?_
    extract_lets grown
    have hg : CoresOk grown := .ite hs (.growDeficit hs)
    split
    next n e => exact .serveOrClaim hg (hg.2.2.1 n (mem_nodes_of_chosen e))
    · exact ih hg

protected theorem CoresOk.dispatchClaim {c : Claim} (hs : CoresOk s) : CoresOk (dispatchClaim s c) := by
  unfold dispatchClaim
  dsimp only
  split
  · exact hs
  next n e => exact .ite (.serveNode hs (CoresOk.node (s := { s with claims := s.claims.erase c }) hs e)) hs

protected theorem NextCoresOk.execNodeSelect (hs : CoresOk s) : NextCoresOk (execNodeSelect s) := by
  unfold execNodeSelect
  split
  · exact .next (.dispatchClaim hs)
  · exact .next (.ite hs (.selectOver hs))

protected theorem CoresOk.releaseSuccessors {n : Node} (hs : CoresOk s) : CoresOk (releaseSuccessors s n) := by
  unfold releaseSuccessors
  dsimp only
  split
  · exact hs
  · refine .ite (.foldl hs fun _ _ hs => .decrement hs) ?_
    split
    · exact .foldl (.foldl hs fun _ _ hs => .decrement hs) fun _ _ hs => .decrement hs
    · exact .nodeNotice (.foldl hs fun _ _ hs => .decrement hs)

protected theorem CoresOk.writeStatus {n : Node} {va : Nat} (hs : CoresOk s) : CoresOk (writeStatus s n va) := by
  unfold writeStatus
  refine .ite hs ?_
  split
  next s e => exact .vwrite hs e
  · exact .nodeNotice hs

protected theorem CoresOk.countLaunch {n : Node} {va : Nat} (hs : CoresOk s) : CoresOk (countLaunch s n va) := by
  unfold countLaunch
  split
  · exact .counterAdd hs
  · exact .nodeNotice hs

protected theorem CoresOk.completeNode {n : Node} (hs : CoresOk s) : CoresOk (completeNode s n) := by
  unfold completeNode
  extract_lets traced passed freed grown
  have ht : CoresOk traced := .oweSelect (.traceNode hs)
  have hp : CoresOk passed := .ite (.edgesDone ht) ht
  have hf : CoresOk freed := .ite hp (.releaseSuccessors hp)
  have hg : CoresOk grown := .ite (.growDeficit hf) hf
  split
  · exact .closeNode hg
  · exact .retireNode (.modNode rfl (.countLaunch (.writeStatus hg)))

protected theorem CoresOk.completeDone {n : Node} (hs : CoresOk s) : CoresOk (completeDone s n) := .ite (.completeNode hs) hs

protected theorem NextCoresOk.execNodeComplete (hs : CoresOk s) : NextCoresOk (execNodeComplete s) := by
  unfold execNodeComplete
  dsimp only
  split
  · exact .next hs
  · refine .ite (.next (.ite (.finishNode hs) (.completeDone hs))) ?_
    refine .ite ?_ ?_
    · refine .next ?_
      split
      · exact .ite (.completeNode (.leftCores (.endNode (.freeCores hs)))) <|
          .oweSelect (.leftCores (.endNode (.freeCores hs)))
      · exact .leftCores (.endNode (.freeCores hs))
    · exact .next hs

protected theorem NextCoresOk.execLevelPromotion (hs : CoresOk s) : NextCoresOk (execLevelPromotion s) := by
  unfold execLevelPromotion
  dsimp only
  split
  · exact .next hs
  · exact .ite (.next hs) (.next (.appear (.modNode rfl (.setNextKey hs))))

/-! ### Frames and rails -/

/-- What stands in the lines and pages that are given up is lost. -/
protected theorem CoresOk.scrub {sel : Nat → Bool} (hs : CoresOk s) : CoresOk (scrub s sel) :=
  .filterPoison (.setMem hs)

protected theorem CoresOk.settleRails (hs : CoresOk s) : CoresOk (settleRails s) := .foldl hs fun _ _ hs => hs

/-! ### The collector -/

protected theorem CoresOk.allocate {l : List Node} (hs : CoresOk s) : CoresOk (allocate s l).1 := by
  induction l generalizing s with
  | nil => exact hs
  | cons v r ih =>
    unfold allocate
    dsimp only
    split
    · exact ih (.modNode rfl hs)
    · exact hs

protected theorem CoresOk.chooseVictims {n : Node} {fuel : Nat} {out : List Nat} (hs : CoresOk s) :
    CoresOk (chooseVictims s n fuel out).1 := by
  induction fuel generalizing out with
  | zero => exact hs
  | succ fuel ih =>
    unfold chooseVictims
    dsimp only
    split
    next t e => exact (CoresOk.allocate hs).fst_of_eq e
    · exact ih

protected theorem CoresOk.victims {n : Node} (hs : CoresOk s) : CoresOk (victims s n).1 := .chooseVictims hs

protected theorem CoresOk.stopVictims {vs : List Node} (hs : CoresOk s) : CoresOk (stopVictims s vs) :=
  .foldl hs fun _ _ hs => .foldl hs fun _ _ hs => .modCore rfl hs

protected theorem CoresOk.enterCollector {n : Node} {vs : List Node} (hs : CoresOk s) : CoresOk (enterCollector s n vs) := by
  unfold enterCollector
  split
  · exact .ite hs hs
  · exact hs

protected theorem CoresOk.takeVictims {n : Node} (hs : CoresOk s) : CoresOk (takeVictims s n) := by
  unfold takeVictims
  split
  next u vs e =>
    have hu : CoresOk u := (CoresOk.victims hs).fst_of_eq e
    split
    · refine .ite ?_ ?_
      · split
        · exact hs
        · exact .stopVictims hu
      · split
        · exact .ite hs hs
        · exact hs
    · split
      · exact hs
      · exact .ite hs (.ite (.enterCollector hs) (.stopVictims hu))

protected theorem NextCoresOk.execPreemptChoice (hs : CoresOk s) : NextCoresOk (execPreemptChoice s) := by
  unfold execPreemptChoice
  dsimp only
  split
  · exact .next hs
  · exact .ite (.next hs) (.next (.takeVictims hs))

protected theorem CoresOk.abandon {n : Node} (hs : CoresOk s) : CoresOk (abandon s n) :=
  .modNode rfl (.foldl hs fun _ _ hs => .ite (.resumeCore (.modCore rfl hs)) (.modCore rfl hs))

protected theorem CoresOk.stopForCollector {core : Nat} {n : Node} (hs : CoresOk s) : CoresOk (stopForCollector s core n) :=
  .modNode rfl (.stopCore (.traceTiming hs))

protected theorem CoresOk.saveForCollector {core : Nat} {n : Node} (hs : CoresOk s) : CoresOk (saveForCollector s core n) := by
  unfold saveForCollector
  dsimp only
  refine .modCore rfl ?_
  split
  · exact .storeImage hs
  · exact hs

protected theorem NextCoresOk.execCollectorStop (hs : CoresOk s) : NextCoresOk (execCollectorStop s) := by
  unfold execCollectorStop
  dsimp only
  split
  · exact .next hs
  · exact .ite (.next hs) <| .ite (.next (.abandon hs)) <| .ite (.next (.ite (.stopForCollector hs) (.abandon hs))) <|
      .ite (.next (.ite (.modNode rfl hs) hs)) <| .ite (.next hs) <| .next (.saveForCollector hs)

protected theorem CoresOk.suspendNode {n : Node} (hs : CoresOk s) : CoresOk (suspendNode s n) := by
  unfold suspendNode
  extract_lets imgs steps left kept cleared
  have hi : ∀ g ∈ imgs, g.core.MemOk := List.forall_mem_map.2 fun i _ => memOk_takePulses (hs.core i)
  have hk : CoresOk kept := .modNodeImages (.leftCores hs) fun _ _ => hi
  have hc : CoresOk cleared := .foldl hk fun _ _ hs => .modCore rfl hs
  exact .oweSelect (.appear (.freeCores hc))

protected theorem NextCoresOk.execNodeSuspend (hs : CoresOk s) : NextCoresOk (execNodeSuspend s) := by
  unfold execNodeSuspend
  split
  · exact .next hs
  · exact .ite (.next (.suspendNode hs)) (.next hs)

/-! ### The event PERFORM -/

protected theorem CoresOk.performJob {core id : Nat} (hs : CoresOk s) (e : performJob s core id = some t) : CoresOk t := by
  unfold performJob at e
  obtain ⟨g, -, e⟩ := List.exists_of_findSome?_eq_some e
  split at e
  · split at e
    · cases e
      exact .engineUnit hs
    · cases e
  · cases e

protected theorem CoresOk.performThread {core id : Nat} (hs : CoresOk s) (e : performThread s core id = some t) : CoresOk t := by
  unfold performThread at e
  split at e
  · split at e
    · cases e
      exact .niUnit hs
    · cases e
  · cases e

protected theorem CoresOk.performNode {key : Nat} (hs : CoresOk s) (e : performNode s key = some t) : CoresOk t := by
  obtain ⟨n, -, rfl⟩ := Option.map_eq_some_iff.1 e
  exact .nodeUnit hs

protected theorem CoresOk.mergeMove {core : Nat} {e : Access} (hs : CoresOk s) : CoresOk (mergeMove s core e) := by
  unfold mergeMove
  split
  · exact .ite (.mergeRequests hs) hs
  · exact hs

protected theorem NextCoresOk.execPerform (hs : CoresOk s) : NextCoresOk (execPerform s) := by
  unfold execPerform
  dsimp only
  split
  · exact .next (.ite (.mergeMove hs) (.performAccess hs))
  · refine .next (.getD (fun t e => ?_) hs)
    rw [Option.or_assoc, Option.or_eq_some_iff, Option.or_eq_some_iff] at e
    obtain e | ⟨-, e | ⟨-, e⟩⟩ := e
    · exact .performJob hs e
    · exact .performThread hs e
    · exact .performNode hs e

/-! ### Firmware requests -/

protected theorem CoresOk.refuse {status : Nat} (hs : CoresOk s) : CoresOk (refuse s status).state := hs

protected theorem CoresOk.granted (hs : CoresOk s) : CoresOk (granted s).state := hs

/-- An answer to a request keeps the form where the state that it was served in has it. -/
protected theorem CoresOk.answer {b : MailBox} {r : Reply} (hr : CoresOk r.state) : CoresOk (answer s b r) := by
  unfold answer State.setMailbox
  split <;> exact hr

/-- A request that is served keeps the form where its reply does. -/
protected theorem NextCoresOk.serve {code : Nat} {f : List Byte → Reply} (hs : CoresOk s) (k : ∀ bs, CoresOk (f bs).state) :
    NextCoresOk (serve s code f) := by
  unfold serve
  split
  · exact .next (.answer (k _))
  · exact .next hs

protected theorem CoresOk.grantChannels {p mask : Nat} (hs : CoresOk s) : CoresOk (grantChannels s p mask) :=
  .foldl hs fun _ _ hs => .ite hs hs

protected theorem CoresOk.addPart {p : Nat} {q : Partition} (hs : CoresOk s) (hq : q.SavedOk) :
    CoresOk { s with parts := tput s.parts p q } :=
  .setParts hs (forall_tput hs.2.1 hq)

protected theorem CoresOk.delPart {p : Nat} (hs : CoresOk s) : CoresOk { s with parts := tdel s.parts p } :=
  .setParts hs fun e h => hs.2.1 e (List.mem_of_mem_filter h)

protected theorem CoresOk.partCreate {bs : List Byte} (hs : CoresOk s) : CoresOk (partCreate s bs).state := by
  unfold partCreate
  refine .iteOf Reply.state hs (.iteOf Reply.state hs (.iteOf Reply.state hs ?_))
  exact .settleRails (.addPart (.grantChannels (.ite hs hs)) fun _ h => nomatch h)

protected theorem CoresOk.installPage {p : Nat} {g : Page} (hs : CoresOk s) : CoresOk (installPage s p g) :=
  .ite (.scrub (.modPart rfl hs)) (.modPart rfl hs)

protected theorem CoresOk.mapPage {bs : List Byte} (hs : CoresOk s) : CoresOk (mapPage s bs).state := by
  unfold mapPage
  dsimp only
  split
  · exact .installPage hs
  · exact hs

protected theorem NextCoresOk.execMapPage (hs : CoresOk s) : NextCoresOk (execMapPage s) := by
  unfold execMapPage
  split
  · exact .next (.answer (.mapPage hs))
  · exact .next hs

protected theorem CoresOk.startUnmap {b : Option MailBox} {p : Nat} {g : Page} (hs : CoresOk s) : CoresOk (startUnmap s b p g) :=
  .modPart rfl hs

protected theorem NextCoresOk.execUnmapPage (hs : CoresOk s) : NextCoresOk (execUnmapPage s) := by
  unfold execUnmapPage
  dsimp only
  split
  · exact .next hs
  · refine .ite (.next (.answer hs)) ?_
    refine .ite (.next (.answer hs)) ?_
    refine .ite (.next (.answer hs)) ?_
    split
    · exact .next (.answer hs)
    · exact .next (.startUnmap hs)

protected theorem CoresOk.dropWaits {p : Nat} {g : Page} (hs : CoresOk s) : CoresOk (dropWaits s p g) := by
  unfold dropWaits
  refine .foldl hs fun _ _ hs => ?_
  refine .foldl hs fun _ _ hs => ?_
  split
  · exact .ite (.modCtx (.withdrawWaits hs)) hs
  · exact hs

protected theorem NextCoresOk.execUnmapDone (hs : CoresOk s) : NextCoresOk (execUnmapDone s) := by
  unfold execUnmapDone
  dsimp only
  split
  · exact .next hs
  · refine .ite (.next hs) ?_
    refine .next ?_
    split
    · exact .answer (.dropWaits hs)
    · exact .dropWaits hs

protected theorem CoresOk.dropNodes {p : Nat} (hs : CoresOk s) : CoresOk (dropNodes s p) :=
  .filterNodes (.foldl hs fun _ _ hs => .ite (.clearGang hs) (.ite (.oweSelect (.bdIdle hs)) hs))

protected theorem CoresOk.orphan {i : Nat} (hs : CoresOk s) : CoresOk (orphan s i) := .modCore rfl hs

protected theorem CoresOk.endGrants {p : Nat} (hs : CoresOk s) : CoresOk (endGrants s p) :=
  .foldl hs fun _ _ hs => .ite (.modChan (.cancelIf hs)) hs

protected theorem CoresOk.partDestroy {bs : List Byte} (hs : CoresOk s) : CoresOk (partDestroy s bs).state := by
  unfold partDestroy
  refine .iteOf Reply.state hs (.iteOf Reply.state hs ?_)
  extract_lets ended gone dropped left
  have he : CoresOk ended := .endGrants (.dropNodes hs)
  clear_value ended
  have hd : CoresOk dropped := he
  have hl : CoresOk left := .foldl (.scrub hd) fun _ _ hs => .orphan hs
  exact .granted (.settleRails (.breakAbsent (.delPart hl)))

protected theorem CoresOk.installGroup {p : Nat} {h : List Byte} {es : List (List Byte)} (hs : CoresOk s) :
    CoresOk (installGroup s p h es).state :=
  .iteOf Reply.state hs (.iteOf Reply.state hs (.iteOf Reply.state hs (.iteOf Reply.state hs (.iteOf Reply.state hs hs))))

protected theorem CoresOk.groupSet {bs : List Byte} (hs : CoresOk s) : CoresOk (groupSet s bs).state := by
  unfold groupSet
  dsimp only
  refine .iteOf Reply.state hs ?_
  refine .iteOf Reply.state hs ?_
  split
  · exact .refuse (.peekRange hs)
  · refine .iteOf Reply.state (.refuse (.peekRange hs)) ?_
    split
    · exact .refuse (.peekRange (.peekRange hs))
    · exact .installGroup (.peekRange (.peekRange hs))

protected theorem CoresOk.attest {bs : List Byte} (hs : CoresOk s) : CoresOk (attest s bs).state :=
  .iteOf Reply.state hs (.iteOf Reply.state hs (.modPart rfl hs))

protected theorem CoresOk.keyImport {bs : List Byte} (hs : CoresOk s) : CoresOk (keyImport s bs).state := by
  unfold keyImport
  dsimp only
  refine .iteOf Reply.state hs ?_
  refine .iteOf Reply.state hs ?_
  split
  · exact hs
  · exact hs
  · split
    · exact .refuse (.peekRange hs)
    · split
      · exact .refuse (.peekRange hs)
      · split
        next s e => exact .granted (.vwrite (.peekRange hs) e)
        · exact .refuse (.peekRange hs)

protected theorem CoresOk.traceSet {bs : List Byte} (hs : CoresOk s) : CoresOk (traceSet s bs).state :=
  .iteOf Reply.state hs (.iteOf Reply.state hs (.modPart rfl hs))

protected theorem CoresOk.inspect {bs : List Byte} (hs : CoresOk s) : CoresOk (inspect s bs).state := by
  unfold inspect
  dsimp only
  refine .iteOf Reply.state hs ?_
  refine .iteOf Reply.state hs ?_
  refine .iteOf Reply.state hs ?_
  split
  · exact hs
  · exact .iteOf Reply.state hs (.ite (.peekRange hs) hs)

/-! ### Memory errors and frame retirement -/

protected theorem CoresOk.markLasting {f : Nat} (hs : CoresOk s) : CoresOk (markLasting s f) := hs

protected theorem CoresOk.lastingCore {i : Nat} (hs : CoresOk s) : CoresOk (lastingCore s i) := by
  unfold lastingCore
  dsimp only
  split
  · exact .ite (.restick (.retestPlaces (.modCore rfl hs))) (.modCore rfl hs)
  · exact .modCore rfl hs

protected theorem CoresOk.coreFault {i : Nat} (hs : CoresOk s) : CoresOk (coreFault s i) := by
  unfold coreFault
  split
  · exact .abandon (.takeSlotFault hs)
  · exact .ite hs (.takeSlotFault hs)

theorem memOk_failPromise {c : Core} {r : RecJob} {f : Flt} (h : c.MemOk) : (failPromise c r f).MemOk := by
  unfold failPromise
  refine memOk_stopRecord ?_ _
  split <;> exact h

protected theorem CoresOk.coreError {i : Nat} (hs : CoresOk s) : CoresOk (coreError s i) := by
  unfold coreError
  dsimp only
  split
  · exact .takeSlotFault (.modCoreMem (.lastingCore hs) fun _ h => memOk_failPromise h)
  · exact .coreFault (.lastingCore hs)

protected theorem CoresOk.countError {key : Nat} (hs : CoresOk s) : CoresOk (countError s key).1 := hs

protected theorem CoresOk.victimError {pa : Nat} (hs : CoresOk s) : CoresOk (victimError s pa) := by
  unfold victimError
  dsimp only
  refine .ite ?_ ?_
  · refine .markLasting ?_
    refine .countError ?_
    split <;> exact hs
  · refine .countError ?_
    split <;> exact hs

protected theorem CoresOk.poisonLine {pa : Nat} (hs : CoresOk s) : CoresOk (poisonLine s pa) := by
  refine hs.setPoison fun a h => ?_
  split at h
  · exact hs.2.2.2 a h
  · obtain rfl | h := List.mem_cons.1 h
    · exact Nat.mul_mod_left _ _
    · exact hs.2.2.2 a h

protected theorem NextCoresOk.execUncorrectableError (hs : CoresOk s) : NextCoresOk (execUncorrectableError s) := by
  unfold execUncorrectableError
  dsimp only
  split
  · exact .next (.ite (.coreError hs) hs)
  · exact .next (.ite (.ite (.victimError (.poisonLine hs)) (.poisonLine hs)) hs)
  · exact .next (.ite (.poisonLine hs) hs)

protected theorem CoresOk.lastingSite {a : ErrSite} (hs : CoresOk s) : CoresOk (lastingSite s a) := by
  unfold lastingSite
  split
  · exact .lastingCore hs
  · exact hs
  · exact hs

/-- A place in a die's memory keeps the address's place within 128 bytes. -/
theorem home_mod_line {pa d o : Nat} (h : paKind pa = .home d o) : o % 128 = pa % 128 := by
  unfold paKind at h
  split at h
  · split at h <;> cases h
    omega
  split at h
  · cases h
    omega
  split at h
  · cases h
  split at h
  · cases h
  split at h <;> cases h

theorem canon_mod_line (pa : Nat) : canon pa % 128 = pa % 128 := by
  unfold canon
  split
  next d o e =>
    have := home_mod_line e
    omega
  · rfl

theorem pageFrame_mod_line (attr : DWord) : pageFrame attr % 128 = 0 := by
  unfold pageFrame
  omega

theorem pageOffset_mod_line {g : Page} {pa o : Nat} (h : pageOffset g pa = some o) : o % 128 = pa % 128 := by
  have hf := pageFrame_mod_line g.attr
  unfold pageOffset at h
  extract_lets f a at h
  have ha : a % 128 = pa % 128 := by
    unfold a
    split
    · split
      next d o e =>
        have := home_mod_line e
        have : (0x10000000000 + (o / 4096 * 4 + d) * 4096 + o % 4096) % 128 = o % 128 := by omega
        exact this.trans ‹_›
      · rfl
    · rfl
  split at h
  next hb =>
    cases h
    simp only [Bool.and_eq_true, decide_eq_true_eq] at hb
    omega
  · cases h
/-- A poisoned line goes with its page to the frame that takes it (R287), and lies at a multiple of 128 there too. -/
protected theorem CoresOk.copyFrame {old new : Page} (hs : CoresOk s) : CoresOk (copyFrame s old new) := by
  have hc : CoresOk (scrub s (inPage new)) := .scrub hs
  refine hc.setPoison fun a h => (List.mem_append.1 h).elim (fun h => ?_) (hc.2.2.2 a)
  obtain ⟨l, hl, e⟩ := List.mem_filterMap.1 h
  obtain ⟨o, ho, rfl⟩ := Option.map_eq_some_iff.1 e
  have := hc.2.2.2 l hl
  have := pageOffset_mod_line ho
  have := pageFrame_mod_line new.attr
  have := canon_mod_line (pageFrame new.attr + o)
  omega

protected theorem CoresOk.retireNotice {p : Nat} {g : Page} {sub : Nat} (hs : CoresOk s) : CoresOk (retireNotice s p g sub) :=
  .nodeNotice hs

protected theorem CoresOk.retireStart {p : Nat} {found : Bool} (hs : CoresOk s) : CoresOk (retireStart s p found) := by
  unfold retireStart
  split
  · exact hs
  · exact .ite hs (.ite (.startUnmap hs) (.retireNotice hs))

protected theorem CoresOk.retireFinish {u : Unmapping} {found : Bool} {frame : Nat} (hs : CoresOk s) :
    CoresOk (retireFinish s u found frame) :=
  .ite hs <| .ite (.retireNotice (.modPart rfl (.dropWaits hs))) <| .ite hs <|
    .retireNotice (.modPart rfl (.copyFrame (.peekRange (.dropWaits hs))))

protected theorem NextCoresOk.execFrameRetire (hs : CoresOk s) : NextCoresOk (execFrameRetire s) := by
  unfold execFrameRetire
  dsimp only
  split
  · exact .next (.retireFinish hs)
  · exact .next (.retireStart hs)

/-! ### Energy and dormancy -/

protected theorem CoresOk.throttleTrace {p code : Nat} (hs : CoresOk s) : CoresOk (throttleTrace s p code) := .trace hs

protected theorem CoresOk.throttleTest {p : Nat} (hs : CoresOk s) : CoresOk (throttleTest s p) :=
  .ite (.ite (.modPart rfl hs) (.throttleTrace (.modPart rfl hs))) (.ite (.modPart rfl hs) hs)

protected theorem NextCoresOk.execEnergyUpdate (hs : CoresOk s) : NextCoresOk (execEnergyUpdate s) := by
  unfold execEnergyUpdate
  dsimp only
  refine .ite (.next hs) ?_
  refine .next ?_
  refine .oweSelect ?_
  refine .throttleTest ?_
  refine .modPart rfl ?_
  refine .foldl hs fun _ _ hs => ?_
  split
  · exact .ite (.modNode rfl hs) hs
  · exact hs

protected theorem CoresOk.startCollapse {p : Nat} {onIdle : Bool} (hs : CoresOk s) : CoresOk (startCollapse s p onIdle) := by
  unfold startCollapse
  split <;> exact .modPart rfl hs

protected theorem CoresOk.writeBack {p : Nat} (hs : CoresOk s) : CoresOk (writeBack s p) :=
  .foldl (.foldl hs fun _ _ hs => .foldl hs fun _ _ hs => .dropLine (.flushLine hs)) fun _ _ hs => .applyThrough hs

protected theorem CoresOk.saveCore {p i : Nat} (hs : CoresOk s) : CoresOk (saveCore p s i) := by
  unfold saveCore
  extract_lets c stopped live img stored
  have hp : CoresOk stopped := .modCoreMem (.stopCore hs) fun _ h => memOk_takePulses h
  have hl : live.MemOk := hp.core i
  clear_value live
  have hi : img.MemOk := hl
  have hq : CoresOk stored := by
    unfold stored
    split
    · exact .storeImage hp
    · exact hp
  exact .modPartSaved hq fun _ h => forall_tput h hi

protected theorem CoresOk.saveIrqs {p : Nat} (hs : CoresOk s) : CoresOk (saveIrqs s p) := hs

protected theorem NextCoresOk.execCollapseComplete (hs : CoresOk s) : NextCoresOk (execCollapseComplete s) :=
  .ite (.next hs) (.next (.settleRails (.modPart rfl (.foldl (.saveIrqs (.writeBack hs)) fun _ _ hs => .saveCore hs))))

protected theorem CoresOk.requestDone {core key : Nat} {r : FabReq} {answer : Except Flt (List Byte)} (hs : CoresOk s) :
    CoresOk (requestDone s core key r answer) := by
  unfold requestDone
  split
  · split
    · exact .atomicAnswer hs
    · exact .atomicRefused hs
  · split <;> exact .modCore rfl hs

protected theorem CoresOk.performHeld {w : HeldWrite} (hs : CoresOk s) : CoresOk (performHeld s w) := by
  cases w with
  | vfReg vf off v => exact .vfRegWrite hs
  | fabric r => exact .fabricServed hs
  | request core key r =>
    unfold performHeld
    dsimp only
    split
    next e => exact .requestDone (.fabricServe hs e)
    · exact .requestDone hs
  | commit op k =>
    unfold performHeld
    dsimp only
    split
    · split
      · exact .memberWrote (.writeMember hs)
      · exact hs
    · exact hs
  | member part core ctx va shared bs => exact .writeMember hs
  | window core off v => exact .windowWrite hs
  | wakeOnly => exact hs

protected theorem NextCoresOk.execWakeWrite (hs : CoresOk s) : NextCoresOk (execWakeWrite s) :=
  .ite (.next hs) (.ite (.next (.wakeRequest hs)) (.next (.writeOrHold hs .performHeld)))

protected theorem CoresOk.logBoot {step result detail clock : Nat} {data : List Byte} (hs : CoresOk s) :
    CoresOk (logBoot s step result detail clock data) :=
  .ite hs hs

protected theorem CoresOk.dropHeld {h : Nat × HeldWrite} (hs : CoresOk s) : CoresOk (dropHeld s h) := by
  unfold dropHeld
  split
  · exact .memberWrote hs
  · exact hs

protected theorem CoresOk.loseDie {d : Nat} (hs : CoresOk s) : CoresOk (loseDie s d) := by
  unfold loseDie
  extract_lets l noted lost dropped broken lostHeld forgotten
  have hl : CoresOk lost := .foldl (.modDie hs) fun _ _ hs => .modPart rfl hs
  have hb : CoresOk broken := .breakAbsent (.foldl hl fun _ _ hs => .dropHeld hs)
  have hf : CoresOk forgotten := hb
  exact .logBoot hf

protected theorem CoresOk.wakeCore {e : Nat × Core} (hs : CoresOk s) (he : e.2.MemOk) : CoresOk (wakeCore s e) := by
  unfold wakeCore
  extract_lets asleep
  refine .resendWaits (.modCoreMem hs fun _ _ => ?_)
  exact he

protected theorem CoresOk.wakeDone {p : Nat} (hs : CoresOk s) : CoresOk (wakeDone s p) := by
  unfold wakeDone
  extract_lets woken q awake active railed mine
  have hw : CoresOk woken := .foldlMem hs fun _ e h ht => .wakeCore ht (hs.part p e h)
  have ha : CoresOk active := .modPartSaved hw fun _ _ _ h => nomatch h
  exact .foldl (.setHeld (.settleRails ha)) fun _ _ hs => .performHeld hs

protected theorem NextCoresOk.execWakeComplete (hs : CoresOk s) : NextCoresOk (execWakeComplete s) := by
  unfold execWakeComplete
  dsimp only
  refine .ite (.next hs) ?_
  split
  · exact .next (.wakeDone hs)
  · exact .next (.foldl hs fun _ _ hs => .loseDie hs)

protected theorem NextCoresOk.execPeekRead (hs : CoresOk s) : NextCoresOk (execPeekRead s) := by
  unfold execPeekRead
  split
  · exact .next (.ite hs hs)
  · exact .next hs

protected theorem NextCoresOk.execPeekIdle (hs : CoresOk s) : NextCoresOk (execPeekIdle s) := by
  unfold execPeekIdle
  dsimp only
  split
  · split
    · exact .next (.ite hs hs)
    · exact .next hs
  · exact .next hs

/-! ### Boot and recovery -/

protected theorem CoresOk.logSlot {step : Nat} {img : List Byte} (hs : CoresOk s) : CoresOk (logSlot s step img) := .logBoot hs

protected theorem CoresOk.lockLimits (hs : CoresOk s) : CoresOk (lockLimits s) := .ite (.logBoot (.foldl hs fun _ _ hs => hs)) hs

protected theorem CoresOk.releaseFirmware {slot : Nat} {img : List Byte} {trained : BitVec 12} (hs : CoresOk s) :
    CoresOk (releaseFirmware s slot img trained) := by
  unfold releaseFirmware
  extract_lets logged dies bad excluded
  have hd : CoresOk dies := .foldl (.logBoot hs) fun _ _ hs => .logBoot hs
  have he : CoresOk excluded := .foldl hd fun _ _ hs => .ite (.logBoot (.modDie hs)) hs
  refine .lockLimits ?_
  exact he

protected theorem CoresOk.bootRom {trained : BitVec 12} (hs : CoresOk s) : CoresOk (bootRom s trained) :=
  .ite (.releaseFirmware (.logSlot hs)) <| .ite (.releaseFirmware (.logSlot (.logSlot hs))) <|
    .setBoot (.logBoot (.logSlot (.logSlot hs)))

/-- A reset keeps no core, no partition, no node and no poisoned line (R20). -/
protected theorem CoresOk.afterReset : CoresOk (afterReset s) := by
  refine ⟨?_, ?_, ?_, ?_⟩ <;> exact fun _ h => nomatch h

protected theorem CoresOk.dieResolved {d reason : Nat} (hs : CoresOk s) : CoresOk (dieResolved s d reason) :=
  .lockLimits (.setBoot (.logBoot (.ite hs hs)))

protected theorem CoresOk.recoveryDo {f : BootState → BootState} (hs : CoresOk s) : CoresOk (recoveryDo s f) := .ite hs hs

protected theorem CoresOk.rebootRecovery (hs : CoresOk s) : CoresOk (rebootRecovery s) := .ite (.bootRom .afterReset) hs

protected theorem CoresOk.recoveryWrite {off : Nat} {v : DWord} (hs : CoresOk s) : CoresOk (recoveryWrite s off v) := by
  unfold recoveryWrite
  refine .ite ?_ ?_
  · split
    · exact .recoveryDo hs
    · exact .recoveryDo hs
    · exact .recoveryDo hs
    · exact .rebootRecovery hs
    · exact hs
  · exact .recoveryDo hs

protected theorem CoresOk.flowTest (hs : CoresOk s) : CoresOk (flowTest s) := .ite hs hs

protected theorem CoresOk.pkgstatWrite {v : DWord} (hs : CoresOk s) : CoresOk (pkgstatWrite s v) := .flowTest hs

/-! ### The host's registers and resets -/

protected theorem CoresOk.clearFrozen {i : Nat} (hs : CoresOk s) : CoresOk (clearFrozen s i) := .ite (.clearCore hs) hs

protected theorem CoresOk.flrPart {p : Nat} (hs : CoresOk s) : CoresOk (flrPart s p) := by
  unfold flrPart
  extract_lets vfs hurt dropped
  have hd : CoresOk dropped := .modPart rfl (.dropNodes hs)
  exact CoresOk.foldl hd fun _ _ hs => .clearFrozen hs

protected theorem CoresOk.flrBegin (hs : CoresOk s) : CoresOk (flrBegin s) := by
  unfold flrBegin
  extract_lets frozen emptied idle begun
  have hi : CoresOk idle := .foldl (.foldl hs fun _ _ hs => .modPart rfl hs) fun _ _ hs => .bdIdle hs
  have hb : CoresOk begun := .filterNodes hi
  exact .foldl hb fun _ _ hs => .ite hs (.stopCore hs)

protected theorem NextCoresOk.execFlrPf (hs : CoresOk s) : NextCoresOk (execFlrPf s) :=
  .next (.ite (.setFlr (.foldl (.ite hs (.flrBegin hs)) fun _ _ hs => .flrPart hs)) (.ite hs (.flrBegin hs)))

protected theorem CoresOk.dormancyWrite {p off : Nat} {v : DWord} (hs : CoresOk s) : CoresOk (dormancyWrite s p off v) := by
  unfold dormancyWrite
  refine .ite hs ?_
  split
  · exact .modPart rfl hs
  · exact .ite (.ite (.startCollapse hs) hs) (.ite (.wakeRequest hs) hs)
  · exact .modPart rfl hs
  · exact hs

protected theorem CoresOk.pfWrite {off : Nat} {v : DWord} (hs : CoresOk s) : CoresOk (pfWrite s off v) :=
  .ite hs (.ite (.pkgstatWrite hs) (.ite (.setMailbox hs) (.ite (.dormancyWrite hs) hs)))

protected theorem NextCoresOk.execRegisterWrite (hs : CoresOk s) : NextCoresOk (execRegisterWrite s) := by
  unfold execRegisterWrite
  dsimp only
  refine .ite (.next hs) ?_
  split
  · exact .next (.pfWrite hs)
  · exact .next (.vfWrite hs)
  · exact .next (.ite (.msixWrite hs) hs)
  · exact .next (.recoveryWrite hs)

/-! ### Branches, links and masks -/

protected theorem NextCoresOk.branchIf {len : Nat} {c : Bool} {off : ℤ} (hs : CoresOk s) : NextCoresOk (branchIf s len c off) :=
  .ite (.jumpTo hs) (.retire hs)

protected theorem NextCoresOk.linkTo {rd : Reg} {t : ℤ} (hs : CoresOk s) : NextCoresOk (linkTo s rd t) :=
  .ite (.raise hs) (.jumpTo (.setGpr hs))

protected theorem NextCoresOk.setMask {md : BitVec 3} {v : DWord} (hs : CoresOk s) : NextCoresOk (setMask s md v) :=
  .retire (.modHere hs)

/-! ### Issue -/

protected theorem CoresOk.streamDone {core : Nat} {e : FollowEntry} (hs : CoresOk s) : CoresOk (streamDone s core e) :=
  .ite (.endFollow hs) (.popFollow hs)

protected theorem CoresOk.afterIssue {core k : Nat} {lead : Bool} {head : Option FollowEntry} {pc : DWord} {i : Instr}
    {w : BitVec 32} (hs : CoresOk s) :
    CoresOk (afterIssue s core k lead head pc i w) := by
  unfold afterIssue
  refine .ite hs ?_
  split
  · exact .streamDone hs
  · exact .ite (.pushFollow hs) hs

protected theorem CoresOk.issuing {core k : Nat} {w : BitVec 32} (hs : CoresOk s) : CoresOk (issuing s core k w) := hs

protected theorem CoresOk.issueIllegal {core k pc : Nat} {e : DecErr} (hs : CoresOk s) : CoresOk (issueIllegal s core k pc e) := by
  unfold issueIllegal
  exact .takeFaultAt (.issuing hs)

protected theorem CoresOk.noteIssue {core k : Nat} (hs : CoresOk s) : CoresOk (noteIssue s core k) := .modCore rfl hs

/-! ### Time and the host's stores -/

protected theorem CoresOk.noteIdle (hs : CoresOk s) : CoresOk (noteIdle s) :=
  hs.setParts (List.forall_mem_map.2 fun e h => hs.2.1 e h)

protected theorem CoresOk.passTime {n : Nat} (hs : CoresOk s) : CoresOk (passTime s n) :=
  .setClock (.foldl (.noteIdle hs) fun _ _ hs => .crossbarCycles hs)

protected theorem CoresOk.passCycles {n : Nat} (hs : CoresOk s) : CoresOk (passCycles s n) := .ite hs (.passTime hs)

protected theorem CoresOk.hostStore {bus : Nat} {bs : List Byte} (hs : CoresOk s) : CoresOk (hostStore s bus bs) :=
  .ite (.hostWrite hs) hs

/-- An instruction that is a vector command keeps the memory's form. -/
theorem NextCoresOk.exec_of_vectorCmd {i : Instr} (hs : CoresOk s) (e : exec i s = vectorCmd s i) : NextCoresOk (exec i s) := by
  rw [e]
  exact .vectorCmd hs

theorem NextCoresOk.exec (i : Instr) (hs : CoresOk s) : NextCoresOk (exec i s) := by
  cases i with
  | add | sub | and | or | xor | sll | srl | sra | slt | sltu | mul | mulh | mulhN | div | divN | rem | remN | min | max
    | minN | maxN | addi | andi | ori | xori | slli | srli | srai | slti | sltiu | lui | mpop | mfirst | mget | addiCS0
    | addiC | addCS0 | addC | subC | andC | orC | xorC | slliC | andiC =>
    exact .retireReg hs
  | jalr | jal => exact .linkTo hs
  | beq | bne | blt | bge | bltu | bgeu | beqC | bneC => exact .branchIf hs
  | j | jC | jrC => exact .jumpTo hs
  | ld | ldIndexed | xld | ldDC => exact .loadAt hs
  | st | stIndexed | stDC => exact .storeAt hs
  | ldRingSlot => exact .execLdRingSlot hs
  | stRingSlot => exact .execStRingSlot hs
  | ldv | stv | ldvPair | stvPair => exact .issuePieces hs
  | ldt | stt => exact .tileAccess hs
  | get | put => exact .getPut hs
  | ratomAdd | ratomAnd | ratomOr | ratomXor | ratomMin | ratomMax | ratomMinN | ratomMaxN | ratomSwap | ratomFadd =>
    exact .ratomAt hs
  | amoAdd | amoAnd | amoOr | amoXor | amoMin | amoMax | amoMinN | amoMaxN | amoSwap | amoCas | amoFadd => exact .amoAt hs
  | rwb | rinv => exact .linesAt hs
  | mldred | mcst => exact .collective hs
  | cadd | caddRel => exact .addCounter hs
  | cwait => exact .execCwait hs
  | cwaitAcq => exact .execCwaitAcq hs
  | cread => exact .execCread hs
  | barrRlx => exact .execBarrRlx hs
  | barrRel => exact .execBarrRel hs
  | bwait => exact .execBwait hs
  | bmiss => exact .execBmiss hs
  | sstep => exact .execSstep hs
  | binit => exact .execBinit hs
  | fenceAcq | fenceRel | fenceAr | fenceSc => exact .fence hs
  | twany => exact .execTwany hs
  | twall => exact .ite (.retire (.joinTags hs)) (.sleepIn hs)
  | tffr => exact .execTffr hs
  | rinit => exact .execRinit hs
  | rwf | rwe => exact .ringWait hs
  | radvp | radvc => exact .advance hs
  | recv => exact .execRecv hs
  | send => exact .execSend hs
  | vaddFloat | vsubFloat | vmulFloat | vfma | vfnma | vminFloat | vmaxFloat | vabs | vneg | vdiv | vsqrt | vaddInt |
    vsubInt | vmulInt | vmulh | vminInt | vmaxInt | vand | vor | vxor | vsll | vsrl | vsra | vadds | vsubs | vcmpeq |
    vcmpne | vcmplt | vcmple | vmov | vsel | vperm | vbcast | vins | vext | vcvt | vredadd | vredmin | vredmax | vamax |
    vscc | vquant | vfacm =>
    exact .exec_of_vectorCmd hs rfl
  | mand | mor | mxor | mnot | mset => exact .setMask hs
  | mm | mmg | mmQ | aczero | acld | acst | scaccVector | scaccXreg => exact .matrixCmd hs
  | cpy | cpy2 | cpyg | cpys => exact .copyCmd hs
  | cpyl => exact .execCpyl hs
  | cpyr => exact .execCpyr hs
  | evterm => exact .ite (.raise hs) (.retire (.modMeMem hs fun _ h => Core.memOk_ite h h))
  | evarm => exact .execEvarm hs
  | evclr => exact .ite (.retireReg (.modMe rfl hs)) (.ite (.retireReg (.modMe rfl hs)) (.retireReg (.modMe rfl hs)))
  | launch => exact .execLaunch hs
  | launchRel => exact .execLaunchRel hs
  | hsig => exact .execHsig hs
  | propen => exact .execPropen hs
  | predeem => exact .execPredeem hs
  | pquery =>
    unfold Machine.exec
    exact .execPquery hs
  | pretract => exact .execPretract hs
  | ctarmRaw | ctarmAmax | ctarmMin => exact .armEntry hs
  | ctresW => exact .execCtresW hs
  | ctresId => exact .execCtresId hs
  | ctcancel => exact .execCtcancel hs
  | start => exact .execStart hs
  | hjoin => exact .execHjoin hs
  | halt => exact .next (.haltCtx (.retireAt hs))
  | yield => exact .execYield hs
  | follow => exact .execFollow hs
  | unfollow => exact .execUnfollow hs
  | mfsr => exact .execMfsr hs
  | mtsr => exact .execMtsr hs
  | trap => exact .ite (.sleepIn hs) (.retire (.coreNotice hs))
  | brk => exact .raise hs
  | wfe => exact .execWfe hs
  | nop => exact .retire hs
  | xset => exact .retire (.modHere hs)
  | perstReset => exact .next (.bootRom .afterReset)
  | dieAuthentication | dieAuthTimeout => exact .next (.ite (.dieResolved hs) hs)
  | rvClearImage | rvAppend | rvVerifyWrite => exact .next (.recoveryDo hs)
  | rvReset => exact .next (.rebootRecovery hs)
  | flowFaultAssert | coalesceTimerExpiry | armWindowOpen | armWindowClose | hardPowerCap | thermalAlert | pwrgoodChange
    =>
    exact .next hs
  | flowFaultDeassert => exact .next (.flowTest hs)
  | flitReceive | flitReplay | portRetrain | portRetrainEnd | portBringUp => exact .next (.ite hs hs)
  | portDown => exact .ite (.next hs) (.ite (.next hs) (.next hs))
  | mldredRoot => exact .execMldredRoot hs
  | memberRead => exact .execMemberRead hs
  | memberTimeout => exact .execMemberTimeout hs
  | mcstStage => exact .execMcstStage hs
  | mcstCommit => exact .execMcstCommit hs
  | memberCommitWrite => exact .execMemberCommitWrite hs
  | killNotice => exact .ite (.ite (.next hs) (.next hs)) (.next hs)
  | flrPf => exact .execFlrPf hs
  | flrVf => exact .execFlrVf hs
  | cmdRingEnable | cmdRingDisable | crtailDoorbell | completionRingEnable | tokenRingEnable | cpheadWrite | tkheadWrite
    | icctlWrite =>
    exact .next (.vfWrite hs)
  | msixUnmask => exact .ite (.next hs) (.next hs)
  | offloadEntryDone => exact .execOffloadEntryDone hs
  | replayEntryDone => exact .execReplayEntryDone hs
  | fwMailboxMessage => exact .ite (.next hs) (.ite (.next hs) (.next (.ite hs hs)))
  | partCreate => exact .serve hs fun _ => .partCreate hs
  | partDestroy => exact .serve hs fun _ => .partDestroy hs
  | groupSet => exact .serve hs fun _ => .groupSet hs
  | attest => exact .serve hs fun _ => .attest hs
  | keyImport => exact .serve hs fun _ => .keyImport hs
  | traceSet => exact .serve hs fun _ => .traceSet hs
  | inspect => exact .serve hs fun _ => .inspect hs
  | mapPage => exact .execMapPage hs
  | unmapPage => exact .execUnmapPage hs
  | unmapDone => exact .execUnmapDone hs
  | energyUpdate => exact .execEnergyUpdate hs
  | throttleEnd => exact .ite (.next (.throttleTrace (.modPart rfl hs))) (.next hs)
  | dmCollapse | dwellExpiry => exact .next (.ite (.startCollapse hs) hs)
  | dmWake => exact .next (.wakeRequest hs)
  | collapseComplete => exact .execCollapseComplete hs
  | dmtimerExpiry => exact .next (.ite (.wakeRequest hs) hs)
  | wakeWrite => exact .execWakeWrite hs
  | wakeComplete => exact .execWakeComplete hs
  | peekRead => exact .execPeekRead hs
  | peekIdle => exact .execPeekIdle hs
  | entryRegister => exact .execEntryRegister hs
  | roundEnd => exact .next (.endRound hs)
  | channelFail => exact .execChannelFail hs
  | nodeBind => exact .execNodeBind hs
  | nodeSelect => exact .execNodeSelect hs
  | nodeComplete => exact .execNodeComplete hs
  | levelPromotion => exact .execLevelPromotion hs
  | preemptChoice => exact .execPreemptChoice hs
  | collectorStop => exact .execCollectorStop hs
  | nodeSuspend => exact .execNodeSuspend hs
  | yieldExpiry => exact .execYieldExpiry hs
  | wfeTimeout => exact .execWfeTimeout hs
  | followTimeout => exact .execFollowTimeout hs
  | messageDeliver => exact .execMessageDeliver hs
  | engineJobEnd => exact .execEngineJobEnd hs
  | niThreadEnd => exact .execNiThreadEnd hs
  | reconcileJobEnd => exact .execReconcileJobEnd hs
  | cwaitRequest => exact .execCwaitRequest hs
  | uncorrectableError => exact .execUncorrectableError hs
  | correctableError => exact .ite (.next hs) (.next (.ite (.lastingSite hs) hs))
  | frameRetire => exact .execFrameRetire hs
  | fabricRequest => exact .execFabricRequest hs
  | perform => exact .execPerform hs
  | engineStart => exact .execEngineStart hs
  | holdSend => exact .execHoldSend hs
  | apply => exact .execApply hs
  | evict => exact .execEvict hs
  | dwctlFreeze | dwctlResume | dwctlStep | dwctlStopeng | dwctlHaltc => exact .dwctlEvent hs
  | stepEnd => exact .ite (.next (.postFault (.freezeCore hs))) (.next hs)
  | breakpointStop => exact .next (.ite (.breakAt hs) hs)
  | debugWindowWrite => exact .ite (.next hs) (.next (.windowStore hs))
  | faultPacketDeliver => exact .execFaultPacketDeliver hs
  | noticeDeliver => exact .execNoticeDeliver hs
  | registerWrite => exact .execRegisterWrite hs

theorem NextCoresOk.fault (f : Fault) : NextCoresOk (.fault f) := by
  intro t e
  cases e

theorem NextCoresOk.refused (r : Refusal) : NextCoresOk (.refused r) := by
  intro t e
  cases e

theorem NextCoresOk.tryInstr {core k : Nat} {head : Option FollowEntry} {pc : DWord} {i : Instr} {w : BitVec 32} {r : Result}
    (hs : CoresOk s) (e : tryInstr s core k head pc i w = some r) : NextCoresOk r := by
  unfold Machine.tryInstr at e
  dsimp only at e
  split at e
  · cases e
  · split at e
    · cases e
      exact .next (.sleepAt hs)
    · cases e
      split
      next t e => exact .next (.afterIssue (NextCoresOk.exec i (.issuing hs) t e))
      · exact .fault _
      · exact .refused _

theorem NextCoresOk.tryIssue {core k : Nat} {r : Result} (hs : CoresOk s) (e : tryIssue s core k = some r) : NextCoresOk r := by
  unfold Machine.tryIssue at e
  dsimp only at e
  split at e
  · cases e
  · split at e
    · cases e
      exact .fault _
    · split at e
      · cases e
        exact .next (.breakAt hs)
      · split at e
        · exact .tryInstr hs e
        · split at e
          · cases e
            exact .next (.issueIllegal hs)
          · exact .tryInstr hs e

theorem NextCoresOk.issue (core k : Nat) (hs : CoresOk s) : NextCoresOk (issue s core k) := by
  unfold Machine.issue
  split
  · exact .next hs
  next t e =>
    have ht : CoresOk t := NextCoresOk.tryIssue hs e t rfl
    exact .ite (.next ht) (.ite (.next (.noteIssue ht)) (.next hs))
  next e => exact .ite (.tryIssue hs e) (.next hs)

theorem NextCoresOk.doEvent (i : Instr) (hs : CoresOk s) : NextCoresOk (doEvent s i) := by
  unfold Machine.doEvent
  split
  next t e => exact .next (.ite hs (NextCoresOk.exec i hs t e))
  · exact .exec i hs

theorem NextCoresOk.doMove (m : Move) (hs : CoresOk s) : NextCoresOk (doMove s m) := by
  cases m with
  | issue core k => exact .issue core k hs
  | event i inp => exact .ite (.doEvent i hs) (.next hs)
  | tick n => exact .next (.passCycles hs)
  | hostWrite bus bs => exact .next (.hostStore hs)
  | remoteArrive g m => exact .next (.remoteArrival hs)
  | route pkg ports => exact .next hs
  | traceLoad p busy => exact .next (.modPart rfl hs)

theorem NextCoresOk.step (hs : CoresOk s) : NextCoresOk (step s) := by
  unfold Machine.step
  split
  · exact .doMove _ hs
  · exact .doMove _ hs

end

/-- Settles O7: a step is an issue, an event, a lapse of time or a store from outside, and each keeps the form of the cores, of their
images and of the poison. -/
theorem coreMemoryStaysCanonical : Obligations.CoreMemoryStaysCanonical :=
  fun s t hs e => (coreMemoryOk_iff t).2 (NextCoresOk.step ((coreMemoryOk_iff s).1 hs) t e)

end Sys2Proof.Machine

namespace Sys2Proof.Machine
/-! # Waiting for tags (R201, R219, R348) -/

section
open Sys2Proof.Safety

variable {s t : State} {rd ra : Reg} {mask : DWord} {g : Context → Context}

/-! ### The tags that are done -/

/-- The tags of a mask that are done. -/
def doneTags (s : State) (mask : DWord) : DWord := mask &&& s.me.tagDone

theorem doneTag_eq_some {k : Nat} (hk : (doneTags s mask).getLsbD k = true) (low : ∀ j, j < k → (doneTags s mask).getLsbD j = false) :
    doneTag s mask = some k := by
  refine List.find?_range_eq_some.2 ⟨hk, List.mem_range.2 (BitVec.lt_of_getLsbD hk), fun j hj => ?_⟩
  rw [Bool.not_eq_true', ← low j hj]
  rfl

theorem doneTag_eq_none (empty : doneTags s mask = 0) : doneTag s mask = none := by
  refine List.find?_eq_none.2 fun k _ hk => ?_
  have hk : (doneTags s mask).getLsbD k = true := hk
  rw [empty] at hk
  simp at hk

/-! ### The bytes of joined threads -/

/-- The bytes that the threads of the mask's tags have stored into holding copies and that are not home yet. -/
def storesOf (s : State) (mask : DWord) : List Nat :=
  storesHeld s (dieOf s.cur.1) (fun h => h.owner / 16 = s.cur.1 && (match h.tag with | some t => mask.getLsbD t | none => false))

/-- The entry that stands in the context's queue until those bytes are home. -/
def joinEntry (s : State) (mask : DWord) : Access :=
  entry s { kind := .rc, place := .lm s.cur.1 0, handoff := false, attr := 0 } (.join [] (storesOf s mask)) 0 0 false false 0

theorem joinTags_eq (s : State) (mask : DWord) : joinTags s mask = pushJoin s [] (storesOf s mask) := rfl

theorem joinTags_home (home : storesOf s mask = []) : joinTags s mask = s := by
  rw [joinTags_eq, home]
  rfl

theorem joinTags_out (out : storesOf s mask ≠ []) : joinTags s mask = pushAccess s (joinEntry s mask) := by
  rw [joinTags_eq, pushJoin, if_neg (by simpa using out)]
  rfl

/-- An entry that holds a later access of its context back. -/
theorem mayPerform_eq_false {core : Nat} {e b : Access} (mem : e ∈ (s.core core).accs) (ctx : e.ctx = b.ctx) (older : e.id < b.id)
    (holds : holdsOtherwise s core (s.core core).accs e b = true) : mayPerform s core b = false := by
  have he : e ∈ before (s.core core).accs b := List.mem_filter.2 ⟨mem, by simp [ctx, older]⟩
  rw [mayPerform, Bool.and_eq_false_iff]
  refine .inr (List.all_eq_false.2 ⟨e, he, ?_⟩)
  simp [holds]

/-- Bytes that stood in a holding copy or on their way when they were joined keep the join open while they stand there. -/
theorem joinOpen_storesOf (out : storesOf s mask ≠ []) (hd : t.dies = s.dies) (hp : t.paths = s.paths) (l : List Access) :
    joinOpen t s.cur.1 l [] (storesOf s mask) = true := by
  have die : t.die (dieOf s.cur.1) = s.die (dieOf s.cur.1) := by rw [State.die, State.die, hd]
  obtain ⟨q, hq⟩ := List.exists_mem_of_ne_nil _ out
  have mem := hq
  obtain ⟨h, hh, rfl⟩ := List.mem_map.1 hq
  unfold joinOpen storesOut
  rw [die, hp, Bool.or_eq_true]
  refine .inr (Bool.or_eq_true _ _ ▸ ?_)
  obtain here | sent := List.mem_append.1 (List.mem_filter.1 hh).1
  · obtain ⟨c, hc, hh⟩ := List.mem_flatMap.1 here
    exact .inl (List.any_eq_true.2 ⟨c, hc, List.any_eq_true.2 ⟨h, hh, by simp [mem]⟩⟩)
  · obtain ⟨p, hp, hh⟩ := List.mem_flatMap.1 sent
    obtain ⟨w, hw, hh⟩ := List.mem_flatMap.1 hh
    obtain ⟨hp, own⟩ := List.mem_filter.1 hp
    refine .inr (List.any_eq_true.2 ⟨p, hp, ?_⟩)
    rw [own, Bool.true_and]
    exact List.any_eq_true.2 ⟨w, hw, List.any_eq_true.2 ⟨h, hh, by simp [mem]⟩⟩

/-! ### The instruction goes on -/

theorem here_joinTags (s : State) (mask : DWord) : (joinTags s mask).here = s.here := by
  by_cases home : storesOf s mask = []
  · rw [joinTags_home home]
  · rw [joinTags_out home]
    exact here_modMe (s := { s with nextKey := s.nextKey + 1 }) rfl

theorem cur_joinTags (s : State) (mask : DWord) : (joinTags s mask).cur = s.cur := by
  by_cases home : storesOf s mask = []
  · rw [joinTags_home home]
  · rw [joinTags_out home]
    rfl

theorem runs_joinTags (hr : Runs s) (mask : DWord) : Runs (joinTags s mask) :=
  runs_congr hr (cur_joinTags s mask) (here_joinTags s mask)

theorem accs_after (s : State) (len : Nat) (g : Context → Context) : (after s len g).me.accs = s.me.accs := by
  have me : (after s len g).me = _ := State.core_modCore_same s s.cur.1 _
  rw [me]
  rfl

theorem accs_pushAccess (s : State) (e : Access) : (pushAccess s e).me.accs = s.me.accs ++ [e] :=
  congrArg Core.accs (State.core_modCore_same { s with nextKey := s.nextKey + 1 } s.cur.1 _)

/-- The joined threads' bytes are not home: the join stands before every later access of the context. -/
theorem join_holds (out : storesOf s mask ≠ []) {b : Access} (ctx : b.ctx = s.cur.2) (later : s.nextKey < b.id)
    (acc : b.isAccess = true) : mayPerform (after (joinTags s mask) 4 g) s.cur.1 b = false := by
  rw [joinTags_out out]
  have accs : ((after (pushAccess s (joinEntry s mask)) 4 g).core s.cur.1).accs = s.me.accs ++ [joinEntry s mask] :=
    (accs_after _ 4 g).trans (accs_pushAccess s _)
  refine mayPerform_eq_false (e := joinEntry s mask) (by simp [accs]) ctx.symm later ?_
  have opened := joinOpen_storesOf (t := after (pushAccess s (joinEntry s mask)) 4 g) out rfl rfl
  have op : (joinEntry s mask).op = .join [] (storesOf s mask) := rfl
  simp [holdsOtherwise, op, acc, opened]

/-- What an instruction that joins the mask's tags and has the effect `g` on its context does. -/
theorem joins_of_exec {i : Instr} (hr : Runs s) (e : exec i s = .next (after (joinTags s mask) 4 g)) :
    (¬storesOf s mask ≠ [] → exec i s = .next (after s 4 g)) ∧
    (storesOf s mask ≠ [] → ∃ t, exec i s = .next t ∧ t.here = (after s 4 g).here ∧ t.mem = s.mem ∧ t.dies = s.dies ∧
      ∀ b : Access, b.ctx = s.cur.2 → s.nextKey < b.id → b.isAccess = true → mayPerform t s.cur.1 b = false) := by
  constructor
  · intro home
    rw [e, joinTags_home (not_not.1 home)]
  · intro out
    refine ⟨_, e, ?_, ?_, ?_, fun b => join_holds out⟩
    · rw [here_after _ _ (runs_joinTags hr mask).1, here_after _ _ hr.1, here_joinTags]
    · rw [joinTags_out out]
      rfl
    · rw [joinTags_out out]
      rfl

/-! ### The three instructions (R201, R348) -/

theorem ne_zero_of_doneTags {k : Nat} (hk : (doneTags s mask).getLsbD k = true) : mask ≠ 0 := by
  rintro rfl
  simp [doneTags] at hk

theorem execTwany_done (hr : Runs s) {k : Nat} (hk : (doneTags s (s.gpr ra)).getLsbD k = true)
    (low : ∀ j, j < k → (doneTags s (s.gpr ra)).getLsbD j = false) :
    execTwany rd ra s = .next (after (joinTags s (doneTags s (s.gpr ra))) 4 (fun c => c.setGpr rd.toNat (b64 k))) := by
  rw [execTwany, if_neg (ne_zero_of_doneTags hk), doneTag_eq_some hk low]
  exact retireReg_eq _ _ _ _ (runs_joinTags hr _)

theorem execTffr_done (hr : Runs s) {k : Nat} (hk : (doneTags s (s.gpr ra)).getLsbD k = true)
    (low : ∀ j, j < k → (doneTags s (s.gpr ra)).getLsbD j = false) :
    execTffr rd ra s = .next (after (joinTags s (1#64 <<< k)) 4 (fun c => c.setGpr rd.toNat (b64 k))) := by
  rw [execTffr, doneTag_eq_some hk low]
  exact retireReg_eq _ _ _ _ (runs_joinTags hr _)

/-- The tags of a mask that are not done are those of the mask outside TAGDONE. -/
theorem undone_eq_zero_iff (m d : DWord) : m &&& ~~~d = 0 ↔ m &&& d = m := by
  have bit : ∀ i : Nat, (m &&& ~~~d).getLsbD i = (0 : DWord).getLsbD i ↔ (m &&& d).getLsbD i = m.getLsbD i := by
    intro i
    have small := fun h : m.getLsbD i = true => BitVec.lt_of_getLsbD h
    cases hm : m.getLsbD i <;> cases d.getLsbD i <;> simp_all
  constructor
  · exact fun h => BitVec.eq_of_getLsbD_eq fun i _ => (bit i).1 (congrArg (·.getLsbD i) h)
  · exact fun h => BitVec.eq_of_getLsbD_eq fun i _ => (bit i).2 (congrArg (·.getLsbD i) h)

theorem execTwall_done (hr : Runs s) (all : doneTags s (s.gpr ra) = s.gpr ra) :
    execTwall ra s = .next (after (joinTags s (doneTags s (s.gpr ra))) 4 id) := by
  rw [execTwall, if_pos ((undone_eq_zero_iff _ _).2 all), all]
  exact retire_eq _ _ (runs_joinTags hr _).2

end

/-- Settles O22: a lemma for each way that an instruction goes on, and `joins_of_exec` for what its join holds back. -/
theorem tagWaits : Obligations.TagWaits := by
  unfold Obligations.TagWaits
  intro s rd ra hr
  refine ⟨fun k hk low => ⟨joins_of_exec hr (execTwany_done hr hk low), joins_of_exec hr (execTffr_done hr hk low)⟩,
    fun zero => ?_, fun undone => ?_, fun asks undone => ?_, fun all => joins_of_exec hr (execTwall_done hr all), fun misses => ?_⟩
  · exact (if_pos zero).trans (retireReg_eq _ _ _ _ hr)
  · refine Eq.trans ?_ (retireReg_eq s 4 rd 64 hr)
    show execTffr rd ra s = _
    rw [execTffr, doneTag_eq_none undone]
  · show execTwany rd ra s = _
    rw [execTwany, if_neg asks, doneTag_eq_none undone]
    rfl
  · exact if_neg (mt (undone_eq_zero_iff _ _).1 misses)

end Sys2Proof.Machine

namespace Sys2Proof.Machine
/-! # The checks of an access (R184, R194, R197, R204, R330)

`checkAcc` looks at the alignment, then at the region: the local one is decided by `localPlace` and the gang, the other by `translate`
and the three rules behind it. One lemma per outcome of a piece, in the order of R194; the obligation puts them together. -/

section

variable {s : State} {core p a w : Nat} {cls : AccClass} {g : Page}

/-! ### Alignment (R194) -/

/-- The classes of accesses by one element, which are aligned to it. -/
def singleClasses : List AccClass := [.load, .xload, .store, .atomic, .counterRead, .counterAdd]

theorem mem_singleClasses : cls ∈ singleClasses ↔
    cls = .load ∨ cls = .xload ∨ cls = .store ∨ cls = .atomic ∨ cls = .counterRead ∨ cls = .counterAdd := by
  simp [singleClasses]

/-- The class asks for alignment, and the address has it not. -/
def misaligned (cls : AccClass) (a w : Nat) : Bool := match cls with
  | .chunkRead _ | .chunkWrite _ | .lines => false
  | _ => a % w != 0

theorem misaligned_single (single : cls ∈ singleClasses) (a w : Nat) : misaligned cls a w = (a % w != 0) := by
  rcases mem_singleClasses.1 single with rfl | rfl | rfl | rfl | rfl | rfl <;> rfl

theorem single_reads : ∀ cls ∈ singleClasses, (cls.reads = true ↔ cls ≠ .store) := by decide

theorem single_writes : ∀ cls ∈ singleClasses, (cls.writes = true ↔ cls = .store ∨ cls = .atomic ∨ cls = .counterAdd) := by decide

theorem single_ordinary : ∀ cls ∈ singleClasses, (cls.ordinary = true ↔ cls = .load ∨ cls = .xload ∨ cls = .store) := by decide

theorem isCounter_iff : cls.isCounter = true ↔ cls = .counterRead ∨ cls = .counterAdd := by
  cases cls <;> simp [AccClass.isCounter]

theorem checkAcc_misaligned (single : cls ∈ singleClasses) (h : a % w ≠ 0) : checkAcc s core cls a w = .error (flt 2 1 a) := by
  have off : misaligned cls a w = true := (misaligned_single single a w).trans (bne_iff_ne.2 h)
  exact if_pos off

theorem aligned (single : cls ∈ singleClasses) (h : a % w = 0) : ¬misaligned cls a w = true := by
  simp [misaligned_single single, h]

/-! ### The local region (R184, R330) -/

theorem checkAcc_hole (single : cls ∈ singleClasses) (h : a % w = 0) (low : a < 0x1000000) (hole : localPlace core a = none) :
    checkAcc s core cls a w = .error (flt 4 3 a) := by
  refine (if_neg (aligned single h)).trans ((if_pos low).trans ?_)
  rw [hole]

theorem checkAcc_foreign (single : cls ∈ singleClasses) (h : a % w = 0) (low : a < 0x1000000) {c off : Nat}
    (place : localPlace core a = some (c, off)) (other : s.sameGang core c = false) : checkAcc s core cls a w = .error (flt 5 6 a) := by
  refine (if_neg (aligned single h)).trans ((if_pos low).trans ?_)
  rw [place]
  exact if_pos (by simp [other])

theorem checkAcc_local (single : cls ∈ singleClasses) (h : a % w = 0) (low : a < 0x1000000) {c off : Nat}
    (place : localPlace core a = some (c, off)) (gang : s.sameGang core c = true) :
    checkAcc s core cls a w = if cls.isCounter then .error (flt 5 5 a)
      else .ok { kind := .rc, place := .lm c off, handoff := false, attr := 0 } := by
  refine (if_neg (aligned single h)).trans ((if_pos low).trans ?_)
  rw [place]
  exact if_neg (by simp [gang])

theorem localPlace_own (h : a < 0x60000) : localPlace core a = some (core, a) := if_pos h

theorem localPlace_gang {c off : Nat} (hc : c < 16) (ho : off < 0x60000) :
    localPlace core (0x100000 + 0x80000 * c + off) = some (coreAt core c, off) := by
  have index : (0x100000 + 0x80000 * c + off - 0x100000) / 0x80000 = c := by omega
  have offset : (0x100000 + 0x80000 * c + off - 0x100000) % 0x80000 = off := by omega
  rw [localPlace, if_neg (by omega), if_pos (by omega), index, offset]

theorem localPlace_hole (h : 0x60000 ≤ a) (out : a < 0x100000 ∨ 0x900000 ≤ a ∨ 0x60000 ≤ (a - 0x100000) % 0x80000) :
    localPlace core a = none := by
  rw [localPlace, if_neg (by omega), if_neg (by omega)]

theorem sameGang_self (s : State) (core : Nat) : s.sameGang core core = true := by simp [State.sameGang]

/-! ### The page (R192, R193) -/

theorem checkAcc_noncanonical (single : cls ∈ singleClasses) (h : a % w = 0) (far : 2 ^ 56 ≤ a) :
    checkAcc s core cls a w = .error (flt 4 1 a) := by
  refine (if_neg (aligned single h)).trans ((if_neg (by omega)).trans ?_)
  split
  · rfl
  · rw [translate, if_pos far]

theorem checkAcc_untranslated (single : cls ∈ singleClasses) (h : a % w = 0) (high : 0x1000000 ≤ a) (hp : (s.core core).part = some p)
    {f : Flt} (e : translate s p a cls.reads cls.writes = .error f) : checkAcc s core cls a w = .error f := by
  refine (if_neg (aligned single h)).trans ((if_neg (by omega)).trans ?_)
  rw [hp]
  dsimp only
  rw [e]

/-- An address of the pages that the partition's firmware maps. -/
structure Paged (s : State) (p a : Nat) (g : Page) : Prop where
  high : 0x1000000 ≤ a
  canonical : a < 2 ^ 56
  fixed : fixedPage s p a = none
  page : (s.part p).page? a = some g

/-- Where an address of a page lies. -/
def pageAddr (g : Page) (a : Nat) : Nat := pageFrame g.attr + (a - g.va)

theorem translate_unmapped (high : 0x1000000 ≤ a) (canonical : a < 2 ^ 56) (fixed : fixedPage s p a = none)
    (none : (s.part p).page? a = none) (rd wr : Bool) : translate s p a rd wr = .error (flt 4 1 a) := by
  rw [translate, if_neg (by omega), if_neg (by omega), fixed]
  dsimp only
  rw [none]

theorem translate_paged (h : Paged s p a g) (rd wr : Bool) : translate s p a rd wr =
    if !g.attr.getLsbD 0 then .error (flt 4 1 a)
    else if paKind (pageAddr g a) = .hole then .error (flt 4 2 a g.attr.toNat)
    else if s.absent (pageAddr g a) then .error (flt 11 0 a)
    else if pagePart g.attr ≠ p then .error (flt 5 3 a g.attr.toNat)
    else if rd && !g.attr.getLsbD 1 then .error (flt 5 1 a g.attr.toNat)
    else if wr && !g.attr.getLsbD 2 then .error (flt 5 2 a g.attr.toNat)
    else .ok (g.attr, .phys (canon (pageAddr g a))) := by
  have canonical := h.canonical
  have high := h.high
  rw [translate, if_neg (by omega), if_neg (by omega), h.fixed]
  dsimp only
  rw [h.page]
  rfl

/-- A page's frame that the package has: the page is valid, and its memory is there. -/
structure Framed (s : State) (g : Page) (a : Nat) : Prop where
  valid : g.attr.getLsbD 0 = true
  real : paKind (pageAddr g a) ≠ .hole
  there : s.absent (pageAddr g a) = false

theorem translate_invalid (h : Paged s p a g) (rd wr : Bool) (invalid : g.attr.getLsbD 0 = false) :
    translate s p a rd wr = .error (flt 4 1 a) := by
  rw [translate_paged h, invalid]
  rfl

theorem translate_hole (h : Paged s p a g) (rd wr : Bool) (valid : g.attr.getLsbD 0 = true) (hole : paKind (pageAddr g a) = .hole) :
    translate s p a rd wr = .error (flt 4 2 a g.attr.toNat) := by
  rw [translate_paged h, valid]
  exact if_pos hole

theorem translate_absent (h : Paged s p a g) (rd wr : Bool) (valid : g.attr.getLsbD 0 = true) (real : paKind (pageAddr g a) ≠ .hole)
    (gone : s.absent (pageAddr g a) = true) : translate s p a rd wr = .error (flt 11 0 a) := by
  rw [translate_paged h, valid]
  exact (if_neg real).trans (if_pos gone)

theorem translate_framed (h : Paged s p a g) (f : Framed s g a) (rd wr : Bool) : translate s p a rd wr =
    if pagePart g.attr ≠ p then .error (flt 5 3 a g.attr.toNat)
    else if rd && !g.attr.getLsbD 1 then .error (flt 5 1 a g.attr.toNat)
    else if wr && !g.attr.getLsbD 2 then .error (flt 5 2 a g.attr.toNat)
    else .ok (g.attr, .phys (canon (pageAddr g a))) := by
  rw [translate_paged h, f.valid, f.there]
  exact if_neg f.real

/-- A right that is held where it is asked for. -/
theorem not_lacks {asked held : Bool} (h : asked = true → held = true) : ¬(asked && !held) = true := by
  rw [Bool.and_eq_true]
  rintro ⟨hasked, lacks⟩
  rw [h hasked] at lacks
  cases lacks

theorem translate_noRead (h : Paged s p a g) (f : Framed s g a) {rd : Bool} (wr : Bool) (own : pagePart g.attr = p) (reads : rd = true)
    (no : g.attr.getLsbD 1 = false) : translate s p a rd wr = .error (flt 5 1 a g.attr.toNat) := by
  rw [translate_framed h f, if_neg (not_not.2 own), reads, no]
  rfl

theorem translate_noWrite (h : Paged s p a g) (f : Framed s g a) {rd wr : Bool} (own : pagePart g.attr = p)
    (mayRead : rd = true → g.attr.getLsbD 1 = true) (writes : wr = true) (no : g.attr.getLsbD 2 = false) :
    translate s p a rd wr = .error (flt 5 2 a g.attr.toNat) := by
  rw [translate_framed h f, if_neg (not_not.2 own), if_neg (not_lacks mayRead), writes, no]
  rfl

theorem translate_ok (h : Paged s p a g) (f : Framed s g a) {rd wr : Bool} (own : pagePart g.attr = p)
    (mayRead : rd = true → g.attr.getLsbD 1 = true) (mayWrite : wr = true → g.attr.getLsbD 2 = true) :
    translate s p a rd wr = .ok (g.attr, .phys (canon (pageAddr g a))) := by
  rw [translate_framed h f, if_neg (not_not.2 own), if_neg (not_lacks mayRead), if_neg (not_lacks mayWrite)]

/-! ### The rules behind the page (R194, R197, R204) -/

/-- Whether a page's kind refuses the class: counters are reached by counter operations alone, and these reach nothing else (R204). -/
def kindRefused (cls : AccClass) (attr : DWord) : Bool :=
  if cls.isCounter then !pageCounter attr else cls.writes && pageCounter attr

theorem counterRule_phys (cls : AccClass) (w : Nat) (attr : DWord) (pa a : Nat) :
    counterRule cls w attr (.phys pa) a = failIf (kindRefused cls attr) (flt 5 5 a attr.toNat) := by
  unfold counterRule kindRefused
  cases cls <;> rfl

/-- Whether a line is homed on another die than its core's, and the class may not reach it there (R197). -/
def remoteRefused (core : Nat) (cls : AccClass) (attr : DWord) (pa : Nat) : Bool :=
  cls.ordinary && (homeDie pa).isSome && homeDie pa != some (dieOf core) && !pageHandoff attr

theorem remoteRefused_iff (single : cls ∈ singleClasses) (attr : DWord) (pa : Nat) : remoteRefused core cls attr pa = true ↔
    homeDie pa ≠ none ∧ homeDie pa ≠ some (dieOf core) ∧ pageHandoff attr = false ∧ (cls = .load ∨ cls = .xload ∨ cls = .store) := by
  simp [remoteRefused, ← single_ordinary cls single, Option.isSome_iff_ne_none]
  tauto

theorem kindRefused_iff (single : cls ∈ singleClasses) (attr : DWord) : kindRefused cls attr = true ↔
    ((cls = .counterRead ∨ cls = .counterAdd) ∧ attr.getLsbD 10 = false) ∨ ((cls = .store ∨ cls = .atomic) ∧ attr.getLsbD 10 = true) := by
  unfold kindRefused pageCounter
  rcases mem_singleClasses.1 single with rfl | rfl | rfl | rfl | rfl | rfl <;> simp [AccClass.isCounter, AccClass.writes]

theorem checkAcc_translated (single : cls ∈ singleClasses) (h : a % w = 0) (high : 0x1000000 ≤ a) (hp : (s.core core).part = some p)
    {attr : DWord} {pa : Nat} (e : translate s p a cls.reads cls.writes = .ok (attr, .phys pa)) :
    checkAcc s core cls a w =
      if remoteRefused core cls attr pa then .error (flt 5 4 a attr.toNat)
      else if kindRefused cls attr then .error (flt 5 5 a attr.toNat)
      else .ok { kind := pageKind attr, place := .phys pa, handoff := pageHandoff attr, attr := attr } := by
  have window : windowRule s core p cls w a attr (.phys pa) = none := rfl
  have remote : remoteRule s core cls attr (.phys pa) a = failIf (remoteRefused core cls attr pa) (flt 5 4 a attr.toNat) := rfl
  refine (if_neg (aligned single h)).trans ((if_neg (by omega)).trans ?_)
  rw [hp]
  dsimp only
  rw [e]
  dsimp only
  rw [window, remote, counterRule_phys]
  cases remoteRefused core cls attr pa
  · cases kindRefused cls attr <;> rfl
  · rfl

end

/-- Settles O14: the lemmas above in the order of R194. -/
theorem accessChecks : Obligations.AccessChecks := by
  unfold Obligations.AccessChecks
  intro s core a w cls _ single
  extract_lets e counter reads writes local'
  have localOk : ∀ {c off : Nat}, a % w = 0 → a < 0x1000000 → localPlace core a = some (c, off) → s.sameGang core c = true →
      local' c off := fun h low place gang =>
    ⟨fun c => (checkAcc_local single h low place gang).trans (if_pos (isCounter_iff.2 c)),
      fun c => (checkAcc_local single h low place gang).trans (if_neg (mt isCounter_iff.1 c))⟩
  refine ⟨checkAcc_misaligned single, fun h own => localOk h (by omega) (localPlace_own own) (sameGang_self s core),
    fun h lo hi => checkAcc_hole single h (by omega) (localPlace_hole lo (.inl hi)), ?_,
    fun h lo hi => checkAcc_hole single h (by omega) (localPlace_hole (by omega) (.inr (.inl lo))), ?_,
    checkAcc_noncanonical single, ?_⟩
  · rintro h c off hc lo hi rfl
    exact checkAcc_hole single h (by omega) (localPlace_hole (by omega) (by omega))
  · rintro h c off hc ho rfl
    exact ⟨localOk h (by omega) (localPlace_gang hc ho), checkAcc_foreign single h (by omega) (localPlace_gang hc ho)⟩
  · intro p h lo hi hp fixed
    refine ⟨fun none => checkAcc_untranslated single h lo hp (translate_unmapped lo hi fixed none _ _), fun g page => ?_⟩
    have paged : Paged s p a g := ⟨lo, hi, fixed, page⟩
    have refused : ∀ {f : Flt}, translate s p a cls.reads cls.writes = .error f → e = .error f :=
      fun t => checkAcc_untranslated single h lo hp t
    refine ⟨fun invalid => refused (translate_invalid paged _ _ invalid), fun valid hole => refused (translate_hole paged _ _ valid hole),
      fun valid real gone => refused (translate_absent paged _ _ valid real gone), fun valid real there => ?_⟩
    have framed : Framed s g a := ⟨valid, real, there⟩
    have rd := single_reads cls single
    have wr := single_writes cls single
    refine ⟨fun other => refused ((translate_framed paged framed _ _).trans (if_pos other)),
      fun own reads no => refused (translate_noRead paged framed _ own (rd.2 reads) no),
      fun own writes may no => refused (translate_noWrite paged framed own (may ∘ rd.1) (wr.2 writes) no), fun own mayRead mayWrite => ?_⟩
    have checked := checkAcc_translated single h lo hp (translate_ok paged framed own (mayRead ∘ rd.1) (mayWrite ∘ wr.1))
    rw [← remoteRefused_iff single, ← kindRefused_iff single]
    exact ⟨fun r => checked.trans (if_pos r), fun r k => checked.trans ((if_neg r).trans (if_pos k)),
      fun r k => checked.trans ((if_neg r).trans (if_neg k))⟩

end Sys2Proof.Machine

namespace Sys2Proof.Machine
/-! # Counters: `cadd`, `cread`, `cwait` and the answers of a home slice (R203, R205, R343, R418) -/

section
open Sys2Proof.Safety

variable {s t : State} {ra rb rd : Reg} {scope : BitVec 3} {g : Context → Context} {x : Target}

/-! ### An entry of the running context -/

theorem here_pushAccess (s : State) (e : Access) : (pushAccess s e).here = s.here :=
  here_modMe (s := { s with nextKey := s.nextKey + 1 }) rfl

theorem runs_pushAccess (hr : Runs s) (e : Access) : Runs (pushAccess s e) := runs_congr hr rfl (here_pushAccess s e)

theorem runs_modHere (hr : Runs s) (h : (g s.here).sleep = s.here.sleep) : Runs (s.modHere g) :=
  ⟨hr.1, by rw [here_modHere _ _ hr.1, h]; exact hr.2⟩

theorem retire_pushAccess (hr : Runs s) (e : Access) (len : Nat) :
    retire (pushAccess s e) len = .next (after (pushAccess s e) len id) :=
  retire_eq _ _ (runs_pushAccess hr e).2

/-- An access of which no earlier one of its context stands in the core's queues, and that is no release. -/
theorem mayPerform_of_alone {core : Nat} {b : Access} (alone : ∀ e ∈ (s.core core).accs, e.ctx ≠ b.ctx) (rel : b.rel = false) :
    mayPerform s core b = true := by
  have none : before (s.core core).accs b = [] := by
    refine List.filter_eq_nil_iff.2 fun e he => ?_
    simp [alone e he]
  simp [mayPerform, none, relWaits, rel]

/-! ### Issue of the counter operations -/

theorem counterTarget_misaligned {cls : AccClass} {a : Nat} (single : cls ∈ singleClasses) (h : a % 8 ≠ 0) :
    counterTarget s cls a = .error (flt 2 1 a) :=
  checkAcc_misaligned single h

theorem addCounter_misaligned {rel : Bool} {n : Nat} (h : s.gprN ra % 8 ≠ 0) :
    addCounter s ra rb rel n = .next (takeFault s (flt 2 1 (s.gprN ra))) := by
  rw [addCounter, counterTarget_misaligned (by decide) h]
  rfl

theorem execCread_misaligned (h : s.gprN ra % 8 ≠ 0) : execCread rd ra s = .next (takeFault s (flt 2 1 (s.gprN ra))) := by
  rw [execCread, counterTarget_misaligned (by decide) h]
  rfl

theorem addCounter_enters (hr : Runs s) {rel : Bool} {n : Nat} (ok : checkAcc s s.cur.1 .counterAdd (s.gprN ra) 8 = .ok x) :
    addCounter s ra rb rel n = .next (after (pushAccess s (entry s x (.cadd (s.gpr rb)) (s.gprN ra) 8 false rel n)) 4 id) := by
  rw [addCounter, counterTarget, ok]
  exact retire_pushAccess hr _ 4

theorem execCread_enters (hr : Runs s) (ok : checkAcc s s.cur.1 .counterRead (s.gprN ra) 8 = .ok x) :
    execCread rd ra s =
      .next (after (pushAccess (markBusy s (.scalar rd false)) (entry s x (.cread rd) (s.gprN ra) 8 false false 0)) 4 id) := by
  rw [execCread, counterTarget, ok]
  exact retire_pushAccess (runs_modHere hr rfl) _ 4

/-- What a context waits for (R205). -/
theorem waitFor_gprs (s : State) (ra rb : Reg) :
    waitFor (s.gprN ra) (s.gprN rb) = { addr := s.gpr ra, target := s.gpr rb, ticket := none, parked := false } := by
  simp [waitFor, b64, State.gprN]

theorem execCwait_enters (hr : Runs s) (free : s.here.cwait = none) (ok : checkAcc s s.cur.1 .counterRead (s.gprN ra) 8 = .ok x) :
    execCwait ra rb s = .next (after (pushAccess (s.modHere (fun c => { c with cwait := some (waitFor (s.gprN ra) (s.gprN rb)) }))
      (entry s x (.wait (s.gpr rb)) (s.gprN ra) 8 false false 0)) 4 id) := by
  rw [execCwait, if_neg (by simp [free]), counterTarget, ok]
  exact retire_pushAccess (runs_modHere hr rfl) _ 4

theorem execCwait_held (busy : s.here.cwait ≠ none) : execCwait ra rb s = sleepIn s .held :=
  if_pos (Option.isSome_iff_ne_none.2 busy)

/-! ### `cwait.acq` -/

theorem sleep_ne_cwaitAcq (hr : Runs s) : s.here.sleep ≠ .cwaitAcq := by
  intro e
  have awake := hr.2
  rw [e] at awake
  cases awake

theorem execCwaitAcq_held (hr : Runs s) (busy : s.here.cwait ≠ none) : execCwaitAcq ra rb scope s = sleepIn s .held :=
  if_pos (by simp [Option.isSome_iff_ne_none.2 busy, sleep_ne_cwaitAcq hr])

theorem acqReady_of_alone (alone : ∀ e ∈ s.me.accs, e.ctx ≠ s.cur.2) (a n : Nat) : acqReady s x a n = true :=
  mayPerform_of_alone alone rfl

theorem ctx_endWait (s : State) (core : Nat) {ctx : Nat} (h : ctx < 11) :
    (endWait s core ctx).ctx core ctx = { s.ctx core ctx with cwait := none } := by
  unfold State.ctx
  rw [endWait, State.core_modCore_same]
  exact Core.context_modContext_same _ _ h

/-- The running context has no wait, and so the end of one leaves it as it is. -/
theorem here_endWait (hr : Runs s) (free : s.here.cwait = none) :
    (endWait (withdrawWaits s s.cur.1 s.cur.2) s.cur.1 s.cur.2).here = s.here := by
  have here : (endWait (withdrawWaits s s.cur.1 s.cur.2) s.cur.1 s.cur.2).here = { s.here with cwait := none } := ctx_endWait _ _ hr.1
  rw [here, ← free]

theorem here_after_endWait (hr : Runs s) (free : s.here.cwait = none) :
    (after (endWait (withdrawWaits s s.cur.1 s.cur.2) s.cur.1 s.cur.2) 4 id).here = { s.here with
      pc := s.here.pc + 4
      sleep := .awake
      ibpPass := none } := by
  have left := here_after (s := endWait (withdrawWaits s s.cur.1 s.cur.2) s.cur.1 s.cur.2) 4 id hr.1
  rw [left, here_endWait hr free]
  rfl

theorem core_after_endWait (s : State) (len : Nat) (g : Context → Context) {j : Nat} (h : j ≠ s.cur.1) :
    (after (endWait (withdrawWaits s s.cur.1 s.cur.2) s.cur.1 s.cur.2) len g).core j = s.core j :=
  calc
    _ = (endWait (withdrawWaits s s.cur.1 s.cur.2) s.cur.1 s.cur.2).core j := State.core_modCore_ne _ _ h
    _ = s.core j := State.core_modCore_ne _ _ h

theorem execCwaitAcq_reached (hr : Runs s) (free : s.here.cwait = none) (ok : checkAcc s s.cur.1 .counterRead (s.gprN ra) 8 = .ok x)
    (reached : s.gprN rb ≤ counterValue s x.place) (alone : ∀ e ∈ s.me.accs, e.ctx ≠ s.cur.2) :
    execCwaitAcq ra rb scope s = .next (after (endWait (withdrawWaits s s.cur.1 s.cur.2) s.cur.1 s.cur.2) 4 id) := by
  rw [execCwaitAcq, if_neg (by simp [free]), counterTarget, ok]
  dsimp only
  rw [if_pos (by simp [reached, acqReady_of_alone alone])]
  exact retire_of_here hr 4 (here_endWait hr free)

theorem execCwaitAcq_waits (hr : Runs s) (free : s.here.cwait = none) (ok : checkAcc s s.cur.1 .counterRead (s.gprN ra) 8 = .ok x)
    (short : counterValue s x.place < s.gprN rb) :
    execCwaitAcq ra rb scope s =
      sleepIn (s.modHere (fun c => { c with cwait := some (waitFor (s.gprN ra) (s.gprN rb)) })) .cwaitAcq := by
  rw [execCwaitAcq, if_neg (by simp [free]), counterTarget, ok]
  dsimp only
  rw [if_neg (by simp [Nat.not_le.2 short]), if_neg (sleep_ne_cwaitAcq hr)]

theorem here_waiting (hr : Runs s) (w : CWait) :
    (sleepAt (s.modHere (fun c => { c with cwait := some w })) s.cur.1 s.cur.2 .cwaitAcq).here = { s.here with
      cwait := some w
      sleep := .cwaitAcq } := by
  have here := here_sleepAt (s := s.modHere (fun c => { c with cwait := some w })) hr.1 .cwaitAcq
  rw [here_modHere _ _ hr.1] at here
  exact here

/-! ### The home slice (R205) -/

variable {w : CWait} {p : Nat} {attr : DWord} {pl : Place}

theorem entries_skipTickets (n : Nat) (t : WaitTable) : (skipTickets n t).entries = t.entries := by
  induction n generalizing t with
  | zero => rfl
  | succ n ih =>
    unfold skipTickets
    split
    · rfl
    · exact ih _

theorem entries_reserveEntry (t : WaitTable) : (reserveEntry t).entries = t.entries := by
  unfold reserveEntry
  split
  · exact entries_skipTickets _ _
  · rfl

/-- A request that is not parked and that no earlier entry holds back is answered or kept. -/
structure Asks (s : State) (w : CWait) (p : Nat) (attr : DWord) (pl : Place) : Prop where
  ctx : s.input.ctx < 11
  wait : (s.ctx s.input.core s.input.ctx).cwait = some w
  part : (s.core s.input.core).part = some p
  free : w.parked = false
  runs : (s.core s.input.core).issue ≠ .frozen
  ready : waitReady s s.input.core s.input.ctx = true
  page : translate s p w.addr.toNat true false = .ok (attr, pl)

theorem execCwaitRequest_reached (h : Asks s w p attr pl) (reached : w.target.toNat ≤ counterValue s pl) :
    execCwaitRequest s = .next (endWait (withdrawWaits s s.input.core s.input.ctx) s.input.core s.input.ctx) := by
  unfold execCwaitRequest
  dsimp only
  rw [h.wait, h.part]
  dsimp only
  rw [if_neg (by simp [h.free, h.runs, h.ready]), h.page]
  exact if_pos reached

/-- A slice's table with the request behind its entries. -/
def parkedTable (s : State) (w : CWait) (pl : Place) : WaitTable :=
  let t := tget s.waits (counterSlice s pl) WaitTable.reset
  reserveEntry { t with entries := t.entries ++ [{ core := s.input.core, ctx := s.input.ctx, addr := counterKey pl, target := w.target }] }

theorem execCwaitRequest_parks (h : Asks s w p attr pl) (short : counterValue s pl < w.target.toNat) (new : w.ticket = none)
    (room : (tget s.waits (counterSlice s pl) WaitTable.reset).entries.length < 63) :
    execCwaitRequest s = .next (State.modCtx { s with waits := tput s.waits (counterSlice s pl) (parkedTable s w pl) }
      s.input.core s.input.ctx (fun c => { c with cwait := some { w with parked := true } })) := by
  unfold execCwaitRequest
  dsimp only
  rw [h.wait, h.part]
  dsimp only
  rw [if_neg (by simp [h.free, h.runs, h.ready]), h.page]
  dsimp only
  rw [if_neg (Nat.not_le.2 short), new]
  dsimp only
  rw [if_pos (by split <;> omega)]
  rfl

end

/-- Settles O20: at issue each operation is decided by its address and the context's wait, at the home slice by the counter's value. -/
theorem counters : Obligations.Counters := by
  unfold Obligations.Counters
  refine ⟨fun s rd ra rb scope t hr => ?_, fun s w p attr pl hctx hw hp hfree hruns hready hpage => ?_⟩
  · rw [← waitFor_gprs]
    refine ⟨fun ok => ⟨addCounter_enters hr ok, addCounter_enters hr ok⟩, fun ok => ⟨execCread_enters hr ok, fun free =>
      ⟨execCwait_enters hr free ok, fun reached alone => ?_, fun short => ?_⟩⟩,
      fun busy => ⟨execCwait_held busy, execCwaitAcq_held hr busy⟩,
      fun off => ⟨addCounter_misaligned off, execCread_misaligned off⟩⟩
    · exact ⟨_, execCwaitAcq_reached hr free ok reached alone, rfl, fun j hj => core_after_endWait s 4 id hj,
        here_after_endWait hr free⟩
    · exact ⟨_, execCwaitAcq_waits hr free ok short, here_waiting hr _⟩
  · have asks : Asks s w p attr pl := ⟨hctx, hw, hp, hfree, hruns, hready, hpage⟩
    refine ⟨fun reached => ⟨_, execCwaitRequest_reached asks reached, ?_⟩, fun short new room =>
      ⟨_, execCwaitRequest_parks asks short new room, ?_, ?_⟩⟩
    · rw [ctx_endWait _ _ hctx]
    · rw [State.ctx_modCtx_same _ _ _ hctx]
    · exact (congrArg WaitTable.entries (tget_tput_same _ _ _ _)).trans (entries_reserveEntry _)

end Sys2Proof.Machine

namespace Sys2Proof.Machine
/-! # Errors that last, and frames that are retired (R208, R286, R287) -/

section

variable {s t : State} {i j : Nat}

/-! ### The marks of a core: what its errors have made of it -/

/-- That a core's errors last, that it is withdrawn, and the packet of its fault. -/
def Core.marks (c : Core) : Bool × Bool × Option Packet := (c.lasting, c.withdrawn, c.packet)

/-- Every core's marks are as they were. -/
structure SameMarks (s t : State) : Prop where
  marks : ∀ j, (t.core j).marks = (s.core j).marks

theorem SameMarks.of_cores (h : t.cores = s.cores) : SameMarks s t := ⟨fun j => by rw [core_congr h]⟩

theorem SameMarks.refl (s : State) : SameMarks s s := ⟨fun _ => rfl⟩

theorem SameMarks.trans {u : State} (h : SameMarks s t) (g : SameMarks t u) : SameMarks s u :=
  ⟨fun j => (g.marks j).trans (h.marks j)⟩

theorem SameMarks.ite {u : State} {c : Prop} [Decidable c] (h : SameMarks s t) (g : SameMarks s u) : SameMarks s (if c then t else u) := by
  split
  · exact h
  · exact g

theorem SameMarks.foldl {α : Type} {f : State → α → State} {l : List α} (h : SameMarks s t) (k : ∀ s a, SameMarks s (f s a)) :
    SameMarks s (l.foldl f t) :=
  List.foldlRecOn l f h fun u hu a _ => hu.trans (k u a)

theorem SameMarks.modCore (s : State) (i : Nat) (f : Core → Core) (h : ∀ c, (f c).marks = c.marks) : SameMarks s (s.modCore i f) :=
  ⟨fun j => core_modCore_eq h s i j⟩

theorem SameMarks.modCtx (s : State) (i k : Nat) (f : Context → Context) : SameMarks s (s.modCtx i k f) := .modCore s i _ fun _ => rfl

theorem sameMarks_traceTiming (s : State) (core ctx code : Nat) : SameMarks s (traceTiming s core ctx code) :=
  .of_cores (traceTiming_cores s core ctx code)

theorem sameMarks_cancelIf (s : State) (sel : CtEntry → Bool) (mark : Bool) (ch : Nat) : SameMarks s (cancelIf s sel mark ch) := by
  have one : ∀ s e, SameMarks s (cancelOne s ch mark e) := fun s e => .ite (.refl s) (.modCtx s _ _ _)
  exact (SameMarks.foldl (.refl s) fun s e => .ite (one s e) (.refl s)).trans (.of_cores rfl)

theorem sameMarks_recallMessages (s : State) (core : Nat) : SameMarks s (recallMessages s core) :=
  ⟨fun j => tget_map_rel (R := fun c d : Core => d.marks = c.marks)
    (f := fun e => (e.1, { e.2 with inbox := e.2.inbox.filter (fun m => m.src != core) }))
    (fun _ => rfl) (fun _ => rfl) rfl s.cores j⟩

theorem sameMarks_endFollow (s : State) (core cause : Nat) (keep : Bool) : SameMarks s (endFollow s core cause keep) := by
  have leaves : SameMarks s (leaveLeader s core) := by
    unfold leaveLeader
    exact .modCore s _ _ fun _ => rfl
  unfold endFollow
  exact (SameMarks.ite leaves (.refl s)).trans (.modCore _ _ _ fun _ => rfl)

theorem sameMarks_resendWaits (s : State) (core : Nat) : SameMarks s (resendWaits s core) := by
  refine .foldl (.refl s) fun s k => ?_
  unfold resendWait
  split
  · split
    · exact .refl s
    · exact .trans (t := { s with nextKey := s.nextKey + 1 }) (.of_cores rfl) (.modCore _ _ _ fun _ => rfl)
  · exact .refl s

/-- The promise's record in LM is apart from the core's issue and marks. -/
theorem standing_stopRecord (c : Core) (k : Nat) : ((stopRecord c k).issue, (stopRecord c k).marks) = (c.issue, c.marks) := by
  have written : ∀ c k, ((writeRecord c k).issue, (writeRecord c k).marks) = (c.issue, c.marks) := fun c k => by
    unfold writeRecord
    dsimp only
    split
    · rfl
    · dsimp only [Core.marks]
  exact (written _ k).trans rfl

theorem standing_haltEngines (c : Core) : ((haltEngines c).issue, (haltEngines c).marks) = (c.issue, c.marks) := by
  have stopped : ((stopPromise c).issue, (stopPromise c).marks) = (c.issue, c.marks) := by
    unfold stopPromise
    split
    · split
      · split
        · exact standing_stopRecord _ _
        · rfl
      · rfl
    · rfl
  unfold haltEngines
  split
  · rfl
  · exact stopped

theorem issue_haltEngines (c : Core) : (haltEngines c).issue = c.issue := congrArg Prod.fst (standing_haltEngines c)

theorem marks_haltEngines (c : Core) : (haltEngines c).marks = c.marks := congrArg Prod.snd (standing_haltEngines c)

/-- A stop concerns engines, accesses, messages, contests, follow and waits (R269). -/
theorem sameMarks_stopCore (s : State) (core : Nat) : SameMarks s (stopCore s core true) := by
  unfold stopCore
  dsimp only
  refine .foldl ?_ fun s k => (SameMarks.of_cores rfl : SameMarks s (withdrawWaits s core k)).trans (.modCtx _ _ _ _)
  have frozen : SameMarks s (s.modCore core Core.frozen) := .modCore s core Core.frozen marks_haltEngines
  have cancelled : SameMarks s (cancelEntries (s.modCore core Core.frozen) (fun e => e.core = core) true) :=
    frozen.trans (.foldl (.refl _) fun s ch => sameMarks_cancelIf s _ true ch)
  exact (cancelled.trans (sameMarks_recallMessages _ core)).trans (.ite (sameMarks_endFollow _ core 5 false) (.refl _))

theorem sameMarks_resumeCore (s : State) (core : Nat) : SameMarks s (resumeCore s core) := by
  rw [resumeCore_eq]
  have traced : SameMarks s (traceSleepEnds (traceTiming s core 0xf 5) core) :=
    (sameMarks_traceTiming s core 0xf 5).trans (.foldl (.refl _) fun s k => .ite (sameMarks_traceTiming s core k 3) (.refl s))
  exact (traced.trans (.modCore _ core Core.resumed fun _ => rfl)).trans (sameMarks_resendWaits _ core)

/-! ### A core that its collection leaves frozen (R281) -/

theorem resumeCore_other (h : j ≠ i) : ((resumeCore s i).core j).issue = (s.core j).issue := by
  have traced := (undisturbed_traceTiming s i 0xf 5).trans (undisturbed_traceSleepEnds _ i)
  have resent := undisturbed_resendWaits ((traceSleepEnds (traceTiming s i 0xf 5) i).modCore i Core.resumed) i
  rw [← resumeCore_eq] at resent
  rw [(resent.cores j).issue, State.core_modCore_ne _ _ h, (traced.cores j).issue]

theorem sameMarks_abandon (s : State) (n : Node) : SameMarks s (abandon s n) := by
  rw [abandon_eq]
  refine SameMarks.trans (.foldl (.refl s) fun s i => ?_) (.of_cores (State.modNode_cores _ _ _))
  have unasked : SameMarks s (s.modCore i (fun c => { c with stopping := false, saved := false })) := .modCore _ _ _ fun _ => rfl
  exact .ite (unasked.trans (sameMarks_resumeCore _ i)) unasked

/-- A collection that is abandoned resumes none but the cores that it has stopped. -/
theorem abandon_issue {n : Node} (h : i ∉ n.begun) : ((abandon s n).core i).issue = (s.core i).issue := by
  rw [abandon_eq, core_congr (State.modNode_cores _ _ _)]
  refine List.foldlRecOn (motive := fun t => (t.core i).issue = (s.core i).issue) n.cores (abandonCore n) rfl fun t ht k _ => ?_
  have unasked : ((t.modCore k (fun c => { c with stopping := false, saved := false })).core i).issue = (t.core i).issue :=
    core_modCore_eq (g := Core.issue) (f := fun c => { c with stopping := false, saved := false }) (fun _ => rfl) t k i
  unfold abandonCore
  dsimp only
  split
  next resumes =>
    have other : i ≠ k := by
      rintro rfl
      simp [h] at resumes
    rw [resumeCore_other other, unasked, ht]
  · rw [unasked, ht]

/-! ### A fault that freezes a core (R268, R269) -/

/-- The core stands frozen with the packet of a fault of the kind and sub-code of `f`; its errors last as before. -/
structure Poisoned (f : Flt) (c d : Core) : Prop where
  issue : d.issue = .frozen
  lasting : d.lasting = c.lasting
  withdrawn : d.withdrawn = c.withdrawn
  packet : ∃ pk, d.packet = some pk ∧ pk.kind = BitVec.ofNat 8 f.kind ∧ pk.sub = BitVec.ofNat 16 f.sub

theorem Core.marks_inj {c d : Core} (h : d.marks = c.marks) :
    d.lasting = c.lasting ∧ d.withdrawn = c.withdrawn ∧ d.packet = c.packet := by
  obtain ⟨lasting, rest⟩ := Prod.mk.inj h
  exact ⟨lasting, Prod.mk.inj rest⟩

theorem Poisoned.congr {f : Flt} {c c' d d' : Core} (h : Poisoned f c d) (hc : c.marks = c'.marks) (hd : d'.marks = d.marks)
    (hi : d'.issue = d.issue) : Poisoned f c' d' := by
  obtain ⟨lasting, withdrawn, -⟩ := Core.marks_inj hc
  obtain ⟨lasting', withdrawn', packet⟩ := Core.marks_inj hd
  exact ⟨hi.trans h.issue, lasting'.trans (h.lasting.trans lasting), withdrawn'.trans (h.withdrawn.trans withdrawn),
    packet ▸ h.packet⟩

theorem faultStop_stops (s : State) (core ctx : Nat) : SameMarks s (faultStop s core ctx) ∧
    ((faultStop s core ctx).core core).issue = .frozen ∧ ((faultStop s core ctx).core core).engStopped = true := by
  unfold faultStop
  split
  next frozen =>
    refine ⟨.modCore _ _ _ marks_haltEngines, ?_, ?_⟩
    · rw [State.core_modCore_same, issue_haltEngines, frozen]
    · rw [State.core_modCore_same]
      exact haltEngines_engStopped _
  · obtain ⟨-, issue, engines⟩ := stopCore_freezes (traceTiming s core ctx 4) core
    exact ⟨(sameMarks_traceTiming s core ctx 4).trans (sameMarks_stopCore _ core), issue, engines⟩

theorem postFault_core (s : State) (core : Nat) (k : Packet) :
    (postFault s core k).core core = { s.core core with packet := some k, lastKind := k.kind } := by
  have same := State.core_modCore_same s core (fun c => { c with packet := some k, lastKind := k.kind })
  unfold postFault
  dsimp only
  split
  · exact same
  · exact same

theorem takeSlotFault_poisons (s : State) (core ctx origin slot : Nat) (f : Flt) (w : BitVec 32) :
    Poisoned f (s.core core) ((takeSlotFault s core ctx origin slot f w).core core) := by
  obtain ⟨same, issue, -⟩ := faultStop_stops s core 0xf
  obtain ⟨lasting, withdrawn, -⟩ := Core.marks_inj (same.marks core)
  unfold takeSlotFault
  dsimp only
  rw [postFault_core]
  exact ⟨issue, lasting, withdrawn, _, rfl, rfl, rfl⟩

theorem takeSlotFault_engines (s : State) (core ctx origin slot : Nat) (f : Flt) (w : BitVec 32) :
    ((takeSlotFault s core ctx origin slot f w).core core).engStopped = true := by
  unfold takeSlotFault
  dsimp only
  rw [postFault_core]
  exact (faultStop_stops s core 0xf).2.2

/-! ### A core whose errors last (R208, R286) -/

/-- A core with an error that lasts: one that runs no node is withdrawn. -/
def Core.failing (c : Core) : Core := { c with
  lasting := true
  withdrawn := c.withdrawn || c.node.isNone }

theorem retestPlaces_cores (s : State) (p : Nat) : (retestPlaces s p).cores = s.cores := by
  refine List.foldlRecOn (motive := fun t => t.cores = s.cores) _ retestNode rfl fun t ht n _ => ?_
  unfold retestNode
  split
  · exact ht
  · exact ht

theorem retestPlaces_input (s : State) (p : Nat) : (retestPlaces s p).input = s.input := by
  refine List.foldlRecOn (motive := fun t => t.input = s.input) _ retestNode rfl fun t ht n _ => ?_
  unfold retestNode
  split
  · exact ht
  · exact ht

theorem lastingCore_cores (s : State) (i : Nat) : (lastingCore s i).cores = (s.modCore i Core.failing).cores := by
  unfold lastingCore
  dsimp only
  split
  · split
    · exact retestPlaces_cores _ _
    · rfl
  · rfl

theorem lastingCore_input (s : State) (i : Nat) : (lastingCore s i).input = s.input := by
  unfold lastingCore
  dsimp only
  split
  · split
    · exact retestPlaces_input _ _
    · rfl
  · rfl

theorem lastingCore_core (s : State) (i : Nat) : (lastingCore s i).core i = (s.core i).failing := by
  rw [core_congr (lastingCore_cores s i), State.core_modCore_same]

theorem marks_failPromise (c : Core) (r : RecJob) (f : Flt) : (failPromise c r f).marks = c.marks := by
  unfold failPromise
  dsimp only
  refine (congrArg Prod.snd (standing_stopRecord _ _)).trans ?_
  split
  · rfl
  · rfl

theorem not_collecting (h : (s.core i).stopping = false) : collecting s i = none := by
  unfold collecting
  rw [h]
  simp

/-- An error in a core that is not frozen freezes it. -/
theorem coreError_poisons (h : (s.core i).issue ≠ .frozen) : Poisoned (flt 6 2) (s.core i).failing ((coreError s i).core i) := by
  have running : ((lastingCore s i).core i).issue ≠ .frozen := by rwa [lastingCore_core]
  rw [← lastingCore_core s i]
  unfold coreError
  generalize lastingCore s i = t at running ⊢
  dsimp only
  split
  next r _ =>
    have failed : ((t.modCore i (fun c => failPromise c r (flt 6 2))).core i).marks = (t.core i).marks := by
      rw [State.core_modCore_same, marks_failPromise]
    exact (takeSlotFault_poisons _ i r.ctx 2 r.slot (flt 6 2) 0).congr failed rfl rfl
  · unfold coreFault
    split
    · exact (takeSlotFault_poisons t i 0xf 0 0 (flt 6 2) 0).congr rfl ((sameMarks_abandon _ _).marks i) (abandon_issue (by simp))
    · rw [if_neg (by simp [running])]
      exact takeSlotFault_poisons t i 0xf 0 0 (flt 6 2) 0

/-- An error in a core that is frozen: what stands is a second packet, unless its engines are stopped too. -/
theorem coreError_frozen (frozen : (s.core i).issue = .frozen) (still : (s.core i).stopping = false) (whole : s.input.ok = false) :
    coreError s i = if (s.core i).engStopped then lastingCore s i else takeSlotFault (lastingCore s i) i 0xf 0 0 (flt 6 2) 0 := by
  have quiet : collecting (lastingCore s i) i = none := not_collecting (by rw [lastingCore_core]; exact still)
  have issue : ((lastingCore s i).core i).issue = .frozen := by rw [lastingCore_core]; exact frozen
  have engines : ((lastingCore s i).core i).engStopped = (s.core i).engStopped := by rw [lastingCore_core]; rfl
  unfold coreError
  dsimp only
  rw [lastingCore_input, whole]
  rw [if_neg (by simp)]
  rw [coreFault, quiet]
  simp [issue, engines]

/-! ### Errors of memory, and errors that are counted (R286) -/

theorem exec_uncorrectable_core (site : s.input.site = .core i) (hi : i < 3072) :
    execUncorrectableError s = .next (coreError s i) := by
  unfold execUncorrectableError
  rw [site]
  exact congrArg _ (if_pos hi)

theorem exec_uncorrectable_line {a : Nat} (site : s.input.site = .line a) (hbm : isHbm a = true) :
    execUncorrectableError s = .next (markLasting (poisonLine s a) (frameOf a)) := by
  unfold execUncorrectableError
  rw [site]
  exact congrArg _ (if_pos hbm)

theorem mem_poisonLine (s : State) (a : Nat) : lineOf (canon a) ∈ (poisonLine s a).poison := by
  unfold poisonLine
  dsimp only
  split
  next h => exact List.contains_iff_mem.1 h
  · exact List.mem_cons_self

theorem mem_markLasting (s : State) (f : Nat) : f ∈ (markLasting s f).badFrames := by
  unfold markLasting
  dsimp only
  split
  next h => exact List.contains_iff_mem.1 h
  · exact List.mem_cons_self

/-- The errors of a structure within the last second, before this one. -/
def recentErrors (s : State) (x : ErrSite) : List Nat := (tget s.errCounts (errorKey x) []).filter (fun t => s.clock < t + 3300000000)

/-- This error is counted. -/
def countedError (s : State) (x : ErrSite) : State := { s with errCounts := tput s.errCounts (errorKey x) (s.clock :: recentErrors s x) }

theorem exec_correctable (exist : siteExists s.input.site = true) : execCorrectableError s =
    .next (if errorThreshold s.input.site < (recentErrors s s.input.site).length + 1 then
      lastingSite (countedError s s.input.site) s.input.site else countedError s s.input.site) := by
  unfold execCorrectableError
  dsimp only
  rw [exist]
  rfl

/-! ### Retirement of a frame (R287) -/

/-- The unmap that the retirement of a page of the input's partition has begun. -/
def retiringPage (s : State) : Option Unmapping := s.unmaps.find? (fun u =>
  u.mb.isNone && u.part = s.input.part && decide (u.page.va ≤ s.input.va) && decide (s.input.va < u.page.va + pageSize u.page.attr))

theorem exec_frameRetire_start (h : retiringPage s = none) : execFrameRetire s = .next (retireStart s s.input.part s.input.ok) := by
  unfold retiringPage at h
  unfold execFrameRetire
  dsimp only
  rw [h]

theorem exec_frameRetire_finish {u : Unmapping} (h : retiringPage s = some u) :
    execFrameRetire s = .next (retireFinish s u s.input.ok s.input.line) := by
  unfold retiringPage at h
  unfold execFrameRetire
  dsimp only
  rw [h]

theorem dropWaits_parts (s : State) (p : Nat) (g : Page) : (dropWaits s p g).parts = s.parts := by
  unfold dropWaits
  refine List.foldlRecOn (motive := fun t : State => t.parts = s.parts) _ _ rfl fun t ht c _ => ?_
  refine List.foldlRecOn (motive := fun t : State => t.parts = s.parts) _ _ ht fun t ht k _ => ?_
  split
  · split
    · exact ht
    · exact ht
  · exact ht

/-- What the notice of a retirement leaves in the partition: the packet, behind those that are under way. -/
structure Noticed (s t : State) (p sub : Nat) (g : Page) (k : Packet) : Prop where
  posted : (t.part p).noticeFlight = (s.part p).noticeFlight ++ [k]
  kind : k.kind = 14
  sub : k.sub = BitVec.ofNat 16 sub
  info : k.info = b64 (pageFrame g.attr)
  pages : (t.part p).pages = (s.part p).pages

theorem retireNotice_notices (s : State) (p sub : Nat) (g : Page) : ∃ k, Noticed s (retireNotice s p g sub) p sub g k := by
  unfold retireNotice nodeNotice sendNotice
  refine ⟨mkPacket s 1 0 0xf 4 (flt 14 sub 0 (pageFrame g.attr)) 0 0 0, ?_, rfl, rfl, rfl, ?_⟩
  · rw [State.part_modPart_same]
  · rw [State.part_modPart_same]

/-- The pages of a partition after its page has gone to another frame. -/
def remapped (s : State) (p : Nat) (h : Page) : State :=
  s.modPart p (fun q => { q with pages := q.pages ++ [h], mapped := noteFrame q.mapped h.attr })

theorem remapped_part {p : Nat} {h : Page} (parts : t.parts = s.parts) : ((remapped t p h).part p).pages = (s.part p).pages ++ [h] ∧
    ((remapped t p h).part p).noticeFlight = (s.part p).noticeFlight := by
  have same : t.part p = s.part p := by rw [State.part, parts, State.part]
  unfold remapped
  rw [State.part_modPart_same, same]
  exact ⟨rfl, rfl⟩

/-- A page's contents at its new frame: nothing of the partitions, nor of the unmaps, changes. -/
theorem copyFrame_parts (s : State) (p : Nat) (g h : Page) :
    (copyFrame (peekRange (dropWaits s p g) p g.va (pageSize g.attr)) g h).parts = s.parts ∧
    (copyFrame (peekRange (dropWaits s p g) p g.va (pageSize g.attr)) g h).unmaps = s.unmaps := by
  obtain ⟨awake, e⟩ := peekRange_eq (dropWaits s p g) p g.va (pageSize g.attr)
  rw [e]
  exact ⟨dropWaits_parts s p g, dropWaits_unmaps s p g⟩

theorem retireFinish_moves {u : Unmapping} {frame : Nat} (drained : unmapDrained s u.page = true)
    (free : freeFrame s u.part (u.page.move frame) = true) : ∃ t, t.parts = s.parts ∧ t.unmaps = s.unmaps.erase u ∧
      retireFinish s u true frame = retireNotice (remapped t u.part (u.page.move frame)) u.part u.page 22 := by
  obtain ⟨parts, unmaps⟩ := copyFrame_parts { s with unmaps := s.unmaps.erase u } u.part u.page (u.page.move frame)
  refine ⟨_, parts, unmaps, ?_⟩
  unfold retireFinish
  dsimp only
  rw [drained, free]
  rfl

theorem retireStart_none {p : Nat} {found : Bool} (h : pageAt (s.part p).pages s.input.va = none) : retireStart s p found = s := by
  rw [retireStart, h]

theorem retireStart_some {p : Nat} {g : Page} (h : pageAt (s.part p).pages s.input.va = some g) (found : Bool) :
    retireStart s p found = if !onBadFrame s g then s else if found then startUnmap s none p g else retireNotice s p g 23 := by
  rw [retireStart, h]

end

/-- Settles O49: the lemmas above for errors of a core, of a line and of a count, and for the two halves of a retirement. -/
theorem errorsAndRetirement : Obligations.ErrorsAndRetirement := by
  unfold Obligations.ErrorsAndRetirement
  intro s
  refine ⟨fun k site hk running => ?_, fun k site hk frozen still whole => ?_, fun a site hbm => ?_, fun exist few => ?_,
    fun many => ⟨fun k site hk => ?_, fun a site hbm => ?_⟩, fun fresh => ⟨fun unmapped => ?_, fun g page => ?_⟩,
    fun u begun => ⟨fun busy => ?_, fun drained found free => ?_⟩⟩
  · obtain ⟨issue, lasting, withdrawn, pk, packet, kind, sub⟩ := coreError_poisons running
    refine ⟨_, pk, exec_uncorrectable_core site hk, lasting, issue, packet, kind, sub, fun alone => withdrawn.trans ?_⟩
    simp [Core.failing, alone]
  · have error := (exec_uncorrectable_core site hk).trans (congrArg _ (coreError_frozen frozen still whole))
    refine ⟨fun engines => ⟨lastingCore s k, ?_, ?_, ?_, ?_⟩, fun engines => ?_⟩
    · exact error.trans (congrArg _ (if_pos engines))
    · rw [lastingCore_core]
      rfl
    · rw [lastingCore_core]
      rfl
    · rw [lastingCore_core]
      exact frozen
    · obtain ⟨-, lasting, -, pk, packet, kind, sub⟩ := takeSlotFault_poisons (lastingCore s k) k 0xf 0 0 (flt 6 2) 0
      refine ⟨_, pk, error.trans (congrArg _ (if_neg (by simp [engines]))), lasting.trans ?_, takeSlotFault_engines _ _ _ _ _ _ _,
        packet, kind, sub⟩
      rw [lastingCore_core]
      rfl
  · exact ⟨_, exec_uncorrectable_line site hbm, mem_poisonLine s a, mem_markLasting _ _, rfl, rfl⟩
  · exact (exec_correctable exist).trans (congrArg _ (if_neg (Nat.not_lt.2 few)))
  · refine ⟨_, (exec_correctable (by rw [site]; exact decide_eq_true hk)).trans (congrArg _ (if_pos many)), ?_⟩
    rw [site]
    exact congrArg Core.lasting (lastingCore_core _ k)
  · refine ⟨_, (exec_correctable (by rw [site]; exact hbm)).trans (congrArg _ (if_pos many)), ?_⟩
    rw [site]
    exact mem_markLasting _ _
  · exact (exec_frameRetire_start fresh).trans (congrArg _ (retireStart_none unmapped))
  · have start := (exec_frameRetire_start fresh).trans (congrArg _ (retireStart_some page s.input.ok))
    refine ⟨fun good => start.trans ?_,
      fun bad found => ⟨startUnmap s none s.input.part g, start.trans ?_, rfl, startUnmap_pages _ _ _ _⟩,
      fun bad lacks => ?_⟩
    · rw [good]
      rfl
    · rw [bad, found]
      rfl
    · obtain ⟨k, notice⟩ := retireNotice_notices s s.input.part 23 g
      refine ⟨_, k, start.trans ?_, notice.posted, notice.kind, notice.sub, notice.info, notice.pages⟩
      rw [bad, lacks]
      rfl
  · refine (exec_frameRetire_finish begun).trans (congrArg _ (if_pos ?_))
    rw [busy]
    rfl
  · have own : u.part = s.input.part := by
      have mine := List.find?_some begun
      simp only [Bool.and_eq_true, decide_eq_true_eq] at mine
      exact mine.1.1.2
    obtain ⟨t, parts, unmaps, moved⟩ := retireFinish_moves drained (own ▸ free)
    obtain ⟨pages, flight⟩ := remapped_part (p := u.part) (h := u.page.move s.input.line) parts
    obtain ⟨k, notice⟩ := retireNotice_notices (remapped t u.part (u.page.move s.input.line)) u.part 22 u.page
    rw [own] at moved pages flight notice
    refine ⟨_, k, (exec_frameRetire_finish begun).trans (congrArg _ (Eq.trans ?_ moved)), unmaps, notice.pages.trans pages, ?_,
      notice.kind, notice.sub, notice.info⟩
    · rw [found]
    · rw [notice.posted, flight]

end Sys2Proof.Machine

namespace Sys2Proof.Machine
/-! # Accesses performed (R187, R203, R212, R328, R332 to R338)

A load, a store or an atomic at hand, in a local memory or at home on its core's die, touches no holding copy: `readAs` is `readPlace`
and `writeAs` is `writePlace`. What then happens is an update of one context, that the entry leaves its queue, and for the writing kinds
one `writePlace`. `given` says what the first two make of a state, `Stored` what the third makes of storage. -/

section

variable {s t u : State} {e : Access} {core c off pa : Nat} {pl : Place} {bs : List Byte}

/-! ### Values (R332, R336) -/

theorem sext_toInt {w : Nat} (h : 0 < w) (v : Nat) : sext v w = (BitVec.ofNat w v).toInt := by
  obtain ⟨n, rfl⟩ : ∃ n, w = n + 1 := ⟨w - 1, by omega⟩
  have double : 2 ^ (n + 1) = 2 * 2 ^ n := Nat.pow_succ'
  have cast : (2 : ℤ) ^ (n + 1) = ((2 * 2 ^ n : ℕ) : ℤ) := by rw [← double, Nat.cast_pow, Nat.cast_ofNat]
  simp only [sext, BitVec.toInt, BitVec.toNat_ofNat, Nat.add_sub_cancel, double, cast]
  split_ifs <;> omega

theorem ofInt_sext {w : Nat} (h : 0 < w) (v : Nat) : BitVec.ofInt 64 (sext v w) = (BitVec.ofNat w v).signExtend 64 := by
  rw [sext_toInt h, BitVec.signExtend]

theorem natBytes_leNat (bs : List Byte) : natBytes bs.length (leNat bs) = bs := by
  induction bs with
  | nil => rfl
  | cons b r ih =>
    have low : BitVec.ofNat 8 (b.toNat + 256 * leNat r) = b := by bv_omega
    have high : (b.toNat + 256 * leNat r) / 256 = leNat r := by omega
    rw [List.length_cons, natBytes, leNat, low, high, ih]

theorem leNat_lt (bs : List Byte) : leNat bs < 256 ^ bs.length := by
  induction bs with
  | nil => decide
  | cons b r ih =>
    rw [leNat, List.length_cons, Nat.pow_succ]
    omega

theorem natBytes_reads (m : Bytes) (a n : Nat) : natBytes n (leNat (Memory.reads m a n)) = Memory.reads m a n := by
  have back := natBytes_leNat (Memory.reads m a n)
  rwa [Memory.reads_length] at back

/-- A busy bit is cleared. -/
theorem getLsbD_clear {w : Nat} (b : BitVec w) (k : Nat) : (b &&& ~~~(1#w <<< k)).getLsbD k = false := by
  by_cases h : k < w <;> simp [h]

/-! ### A place at hand -/

/-- A place in a local memory, or at home on the core's die. -/
inductive AtHand (core : Nat) : Place → Prop
  | lm (c off : Nat) : AtHand core (.lm c off)
  | home {pa : Nat} (h : homeDie pa = some (dieOf core)) : AtHand core (.phys pa)

theorem heldLine_atHand (h : AtHand core pl) (handoff : Bool) : heldLine (dieOf core) handoff pl = none := by
  cases h with
  | lm c off => rfl
  | home h => simp [heldLine, h]

theorem readAs_atHand (h : AtHand core pl) (handoff : Bool) (n : Nat) : readAs s (dieOf core) handoff pl n = (readPlace s pl n, s) := by
  simp [readAs, heldLine_atHand h]

theorem writeAs_atHand (h : AtHand core pl) (handoff : Bool) (bs : List Byte) (o : Origin) (vec : Bool) :
    writeAs s (dieOf core) handoff pl bs o vec = writePlace s pl bs := by
  simp [writeAs, heldLine_atHand h]

theorem poisonedAs_atHand (h : AtHand core pl) (handoff : Bool) (n : Nat) : poisonedAs s (dieOf core) handoff pl n = s.poisoned pl n := by
  rw [poisonedAs, heldLine_atHand h]

theorem cacheWaits_atHand (h : AtHand core e.place) : cacheWaits s core e = false := by
  rw [cacheWaits, heldLine_atHand h]

theorem placeLoad_atHand (h : AtHand core e.place) : placeLoad s core e = (readPlace s e.place e.len, s) := by
  unfold placeLoad
  rw [← readAs_atHand h e.handoff e.len]
  generalize hp : e.place = p at h ⊢
  cases h with
  | lm c off => rfl
  | home h => rfl

/-! ### The entry leaves, and its context is updated -/

/-- The state after an update of the entry's context, the entry gone. -/
def given (s : State) (core : Nat) (e : Access) (g : Context → Context) : State := removeAccess (s.modCtx core e.ctx g) core e

theorem removeAccess_accs (s : State) (core : Nat) (e : Access) :
    ((removeAccess s core e).core core).accs = (s.core core).accs.filter (fun x => x.id ≠ e.id) := by
  unfold removeAccess
  rw [State.core_modCore_same]
  exact List.filter_congr fun x _ => decide_not.symm

theorem modCtx_accs (s : State) (i k : Nat) (g : Context → Context) (j : Nat) : ((s.modCtx i k g).core j).accs = (s.core j).accs :=
  core_modCore_eq (g := Core.accs) (f := fun c => c.modContext k g) (fun _ => rfl) s i j

theorem given_accs (s : State) (core : Nat) (e : Access) (g : Context → Context) :
    ((given s core e g).core core).accs = (s.core core).accs.filter (fun x => x.id ≠ e.id) :=
  (removeAccess_accs _ core e).trans (congrArg _ (modCtx_accs s core e.ctx g core))

theorem removeAccess_lm (s : State) (core : Nat) (e : Access) (j : Nat) : ((removeAccess s core e).core j).lm = (s.core j).lm :=
  core_modCore_eq (g := Core.lm) (f := fun c => { c with accs := c.accs.filter (fun x => x.id != e.id) }) (fun _ => rfl) s core j

theorem modCtx_lm (s : State) (i k : Nat) (g : Context → Context) (j : Nat) : ((s.modCtx i k g).core j).lm = (s.core j).lm :=
  core_modCore_eq (g := Core.lm) (f := fun c => c.modContext k g) (fun _ => rfl) s i j

theorem given_lm (s : State) (core : Nat) (e : Access) (g : Context → Context) (j : Nat) :
    ((given s core e g).core j).lm = (s.core j).lm :=
  (removeAccess_lm _ core e j).trans (modCtx_lm s core e.ctx g j)

theorem removeAccess_ctx (s : State) (core : Nat) (e : Access) (i k : Nat) : (removeAccess s core e).ctx i k = s.ctx i k :=
  core_modCore_eq (g := fun c => c.context k) (f := fun c => { c with accs := c.accs.filter (fun x => x.id != e.id) })
    (fun _ => rfl) s core i

theorem given_ctx (h : e.ctx < 11) (s : State) (g : Context → Context) : (given s core e g).ctx core e.ctx = g (s.ctx core e.ctx) :=
  (removeAccess_ctx _ core e core e.ctx).trans (State.ctx_modCtx_same s core g h)

/-! ### The event -/

/-- The input names the entry `e` of the core, which may be performed. -/
structure Turn (s : State) (e : Access) : Prop where
  found : findAccess s s.input.core s.input.key = some e
  may : mayPerform s s.input.core e = true
  ctx : e.ctx < 11
  pos : 0 < e.len
  plain : s.input.ok = false

theorem exec_perform (h : Turn s e) : exec .perform s = .next (performAccess s s.input.core e) := by
  show execPerform s = _
  unfold execPerform
  dsimp only
  rw [h.found]
  dsimp only
  rw [if_neg (by simp [h.plain])]

/-! ### Loads -/

/-- The bytes that a load at hand gives its destination. -/
theorem exec_load (h : Turn s e) {dst : LoadDst} (op : e.op = .load dst) (hand : AtHand s.input.core e.place)
    (clean : s.poisoned e.place e.len = false) :
    exec .perform s = .next (finishLoad s s.input.core e dst (readPlace s e.place e.len)) := by
  have load : performAccess s s.input.core e = performLoad s s.input.core e dst := by
    unfold performAccess
    rw [op]
  have place : placeLoad s s.input.core (e.seen s s.input.core) = (readPlace s e.place e.len, s) :=
    placeLoad_atHand (e := e.seen s s.input.core) hand
  rw [exec_perform h, load, performLoad, if_pos h.may, if_neg (by simp [cacheWaits_atHand hand]),
    if_neg (by simp [poisonedAs_atHand hand, clean]), place]

/-- What a load makes of its context. -/
def delivered (s : State) (core : Nat) (e : Access) (dst : LoadDst) (bs : List Byte) (c : Context) : Context :=
  match dst with
  | .scalar r signed => { c.setGpr r.toNat (loadValue signed e.len bs) with busyS := c.busyS &&& ~~~(1#32 <<< r.toNat) }
  | .xreg x => { c with x := vset c.x x.toNat (b64 (leNat bs)), busyX := c.busyX &&& ~~~(1#8 <<< x.toNat) }
  | .vector r => { c with v := vset c.v r.toNat (BitVec.ofNat 512 (leNat bs)), busyV := c.busyV &&& ~~~(1#32 <<< r.toNat) }
  | .tileRow base row t => { loadRow c base row t bs with busyV := c.busyV &&& ~~~(rowDone s core e base row t) }

theorem finishLoad_eq (s : State) (core : Nat) (e : Access) (dst : LoadDst) (bs : List Byte) :
    finishLoad s core e dst bs = given s core e (delivered s core e dst bs) := by
  cases dst <;> rfl

theorem loadValue_eq (signed : Bool) {n : Nat} (h : 0 < n) (bs : List Byte) : loadValue signed n bs =
    if signed then (BitVec.ofNat (8 * n) (leNat bs)).signExtend 64 else BitVec.ofNat 64 (leNat bs) := by
  rw [loadValue, ofInt_sext (by omega)]
  rfl

/-! ### A row of a tile (R187) -/

theorem testBit_ones32 (k : Nat) : (0xffffffff).testBit k = decide (k < 32) := Nat.testBit_two_pow_sub_one 32 k

theorem lane_setLane32 (x : Vec) {i j : Nat} (w : Nat) (hj : j < 16) :
    (setLane32 x i w).extractLsb' (32 * j) 32 = if j = i then BitVec.ofNat 32 w else x.extractLsb' (32 * j) 32 := by
  refine BitVec.eq_of_getLsbD_eq fun b hb => ?_
  have inside : 32 * j + b < 512 := by omega
  simp only [setLane32, BitVec.getLsbD_extractLsb', BitVec.getLsbD_or, BitVec.getLsbD_and, BitVec.getLsbD_not, BitVec.getLsbD_shiftLeft,
    testBit_ones32, BitVec.getLsbD_ofNat, Nat.testBit_mod_two_pow, hb, inside, decide_true, Bool.true_and]
  split
  next e =>
    subst e
    have here : b < 512 := by omega
    have bit : (BitVec.ofNat 32 w).getLsbD b = w.testBit b := by rw [BitVec.getLsbD_ofNat, decide_eq_true hb, Bool.true_and]
    rw [bit]
    simp [hb, here]
  next ne =>
    have apart : 32 * j + b < 32 * i ∨ ¬32 * j + b - 32 * i < 32 := by omega
    rw [BitVec.getLsbD_extractLsb', decide_eq_true hb, Bool.true_and]
    rcases apart with below | above
    · simp [below]
    · simp [above]

/-- The lane `j` of the vector register `q`. -/
def wordLane (v : Vector Vec 32) (q j : Nat) : BitVec 32 := (vget v q 0).extractLsb' (32 * j) 32

/-- Where word `k` of a tile's row goes: the register and its lane. -/
def rowCell (base row : Nat) (t : Bool) (k : Nat) : Nat × Nat := if t then (base + k, row) else (base + row, k)

/-- One word of a row. -/
def putWord (base row : Nat) (t : Bool) (bs : List Byte) (v : Vector Vec 32) (k : Nat) : Vector Vec 32 :=
  vmod v (rowCell base row t k).1 0 (fun x => setLane32 x (rowCell base row t k).2 (recField bs (4 * ((row + k) % 16)) 4))

theorem loadRow_eq (c : Context) (base row : Nat) (t : Bool) (bs : List Byte) :
    loadRow c base row t bs = { c with v := (List.range 16).foldl (putWord base row t bs) c.v } := by
  unfold loadRow
  generalize List.range 16 = l
  induction l generalizing c with
  | nil => rfl
  | cons k l ih => exact ih _

theorem lane_putWord {base row : Nat} (v : Vector Vec 32) {q j k : Nat} (t : Bool) (bs : List Byte) (hq : q < 32) (hj : j < 16) :
    wordLane (putWord base row t bs v k) q j =
      if rowCell base row t k = (q, j) then BitVec.ofNat 32 (recField bs (4 * ((row + k) % 16)) 4) else wordLane v q j := by
  unfold putWord wordLane
  obtain ⟨r, i⟩ := rowCell base row t k
  dsimp only
  by_cases hr : q = r
  · subst hr
    rw [vget_vmod_same _ _ _ hq, lane_setLane32 _ _ hj]
    exact if_congr (by simp [eq_comm]) rfl rfl
  · rw [vget_vmod_ne _ _ _ hr, if_neg (by simp [Ne.symm hr])]

theorem rowCell_inj {base row : Nat} {t : Bool} {k l : Nat} (h : rowCell base row t k = rowCell base row t l) : k = l := by
  cases t <;> simpa [rowCell] using h

/-- After the words below `n` the lanes that they go to hold them, and no other lane differs. -/
theorem lane_putWords {base row : Nat} (v : Vector Vec 32) {q j : Nat} (t : Bool) (bs : List Byte) (hq : q < 32) (hj : j < 16) (n : Nat) :
    (∀ k, k < n → rowCell base row t k = (q, j) →
      wordLane ((List.range n).foldl (putWord base row t bs) v) q j = BitVec.ofNat 32 (recField bs (4 * ((row + k) % 16)) 4)) ∧
    ((∀ k, k < n → rowCell base row t k ≠ (q, j)) →
      wordLane ((List.range n).foldl (putWord base row t bs) v) q j = wordLane v q j) := by
  induction n with
  | zero => exact ⟨fun k hk => absurd hk (Nat.not_lt_zero k), fun _ => rfl⟩
  | succ n ih =>
    rw [List.range_succ, List.foldl_append]
    dsimp only [List.foldl]
    rw [lane_putWord _ t bs hq hj]
    refine ⟨fun k hk cell => ?_, fun out => ?_⟩
    · by_cases last : k = n
      · rw [← last, if_pos cell]
      · rw [if_neg fun e => last (rowCell_inj (cell.trans e.symm)), ih.1 k (by omega) cell]
    · rw [if_neg (out n (by omega)), ih.2 fun k hk => out k (by omega)]
/-! ### What a load gives its context -/

theorem setGpr_keeps {α : Type} {g : Context → α} (h : ∀ (c : Context) (s : Vector DWord 32), g { c with s := s } = g c)
    (c : Context) (r : Nat) (v : DWord) : g (c.setGpr r v) = g c := by
  unfold Context.setGpr
  split
  · rfl
  · exact h c _

variable {dst : LoadDst} (x : Context)

/-- No load touches a mask register, the PC or the status of its context. -/
theorem delivered_keeps :
    let y := delivered s core e dst bs x
    y.m = x.m ∧ y.pc = x.pc ∧ y.status = x.status := by
  cases dst with
  | scalar r signed =>
    exact ⟨setGpr_keeps (g := Context.m) (fun _ _ => rfl) x _ _, setGpr_keeps (g := Context.pc) (fun _ _ => rfl) x _ _,
      setGpr_keeps (g := Context.status) (fun _ _ => rfl) x _ _⟩
  | xreg r => exact ⟨rfl, rfl, rfl⟩
  | vector r => exact ⟨rfl, rfl, rfl⟩
  | tileRow base row t =>
    dsimp only [delivered]
    rw [loadRow_eq]
    exact ⟨rfl, rfl, rfl⟩

theorem delivered_scalar (r : Reg) (signed : Bool) (pos : 0 < e.len) :
    let y := delivered s core e (.scalar r signed) bs x
    y.gpr r.toNat = (if r = 0 then 0
      else if signed then (BitVec.ofNat (8 * e.len) (leNat bs)).signExtend 64 else BitVec.ofNat 64 (leNat bs)) ∧
    y.busyS.getLsbD r.toNat = false ∧ (∀ q, q ≠ r.toNat → y.gpr q = x.gpr q) ∧ y.x = x.x ∧ y.v = x.v := by
  have written (q : Nat) : (delivered s core e (.scalar r signed) bs x).gpr q =
      if q = r.toNat ∧ r.toNat ≠ 0 then loadValue signed e.len bs else x.gpr q := Context.gpr_setGpr x r.toNat q _ r.isLt
  refine ⟨?_, getLsbD_clear _ _, fun q hq => ?_, setGpr_keeps (g := Context.x) (fun _ _ => rfl) x _ _,
    setGpr_keeps (g := Context.v) (fun _ _ => rfl) x _ _⟩
  · rw [written, loadValue_eq signed pos]
    by_cases zero : r = 0
    · rw [if_pos zero, if_neg (by simp [zero]), zero]
      rfl
    · have nonzero : r.toNat ≠ 0 := fun h => zero (BitVec.eq_of_toNat_eq h)
      rw [if_neg zero, if_pos ⟨rfl, nonzero⟩]
  · rw [written, if_neg fun h => hq h.1]

theorem delivered_xreg (r : BitVec 3) :
    let y := delivered s core e (.xreg r) bs x
    vget y.x r.toNat 0 = BitVec.ofNat 64 (leNat bs) ∧ y.busyX.getLsbD r.toNat = false ∧
    (∀ q, q ≠ r.toNat → vget y.x q 0 = vget x.x q 0) ∧ y.s = x.s ∧ y.v = x.v :=
  ⟨vget_vset_same _ _ _ r.isLt, getLsbD_clear _ _, fun _ hq => vget_vset_ne _ _ _ hq, rfl, rfl⟩

theorem delivered_vector (r : Reg) :
    let y := delivered s core e (.vector r) bs x
    vget y.v r.toNat 0 = BitVec.ofNat 512 (leNat bs) ∧ y.busyV.getLsbD r.toNat = false ∧
    (∀ q, q ≠ r.toNat → vget y.v q 0 = vget x.v q 0) ∧ y.s = x.s ∧ y.x = x.x :=
  ⟨vget_vset_same _ _ _ r.isLt, getLsbD_clear _ _, fun _ hq => vget_vset_ne _ _ _ hq, rfl, rfl⟩

/-- The sixteen registers of a tile are free at once. -/
theorem getLsbD_clear_tile (b : BitVec 32) {base k : Nat} (hk : k < 16) : (b &&& ~~~(0xffff#32 <<< base)).getLsbD (base + k) = false := by
  have one : (0xffff#32).getLsbD k = true := by
    rw [BitVec.getLsbD_ofNat, show (0xffff : Nat) = 2 ^ 16 - 1 from rfl, Nat.testBit_two_pow_sub_one]
    simp [hk]
    omega
  by_cases h : base + k < 32
  · rw [BitVec.getLsbD_and, BitVec.getLsbD_not, BitVec.getLsbD_shiftLeft, Nat.add_sub_cancel_left, one]
    simp
  · simp [h]

theorem lastRow_of_only {base : Nat}
    (only : ∀ a ∈ (s.core core).accs, a.ctx = e.ctx → ∀ q u, a.op = .load (.tileRow base q u) → a.id = e.id) :
    lastRow s core e base = true := by
  unfold lastRow
  rw [Bool.not_eq_true', List.any_eq_false]
  intro a ha other
  rw [Bool.and_eq_true, Bool.and_eq_true, bne_iff_ne, decide_eq_true_eq] at other
  obtain ⟨⟨apart, ctx⟩, row⟩ := other
  split at row
  next q u op => exact apart (only a ha ctx q u (by rw [op, of_decide_eq_true row]))
  next => cases row

/-- Where a row of a tile goes, said of each lane (R187). -/
theorem lane_row {base row q j : Nat} (v : Vector Vec 32) (t : Bool) (bs : List Byte) (hq : q < 32) (hj : j < 16) (hr : row < 16) :
    wordLane ((List.range 16).foldl (putWord base row t bs) v) q j =
      if t = true ∧ j = row ∧ base ≤ q ∧ q < base + 16 then BitVec.ofNat 32 (recField bs (4 * ((row + (q - base)) % 16)) 4)
      else if t = false ∧ q = base + row then BitVec.ofNat 32 (recField bs (4 * ((row + j) % 16)) 4)
      else wordLane v q j := by
  obtain ⟨put, keep⟩ := lane_putWords (base := base) (row := row) v t bs hq hj 16
  cases t with
  | true =>
    by_cases here : j = row ∧ base ≤ q ∧ q < base + 16
    · obtain ⟨rfl, low, high⟩ := here
      rw [if_pos ⟨rfl, rfl, low, high⟩]
      exact put (q - base) (by omega) (by simp [rowCell]; omega)
    · rw [if_neg fun h => here h.2, if_neg (by simp)]
      exact keep fun k hk cell => here (by simp [rowCell] at cell; omega)
  | false =>
    by_cases here : q = base + row
    · rw [if_neg (by simp), if_pos ⟨rfl, here⟩]
      exact put j hj (by simp [rowCell, here])
    · rw [if_neg (by simp), if_neg fun h => here h.2]
      exact keep fun k hk cell => here (by simp [rowCell] at cell; omega)

theorem delivered_tileRow {base row : Nat} (t : Bool) (hr : row < 16) :
    let y := delivered s core e (.tileRow base row t) bs x
    y.s = x.s ∧ y.x = x.x ∧ (t = false → y.busyV.getLsbD (base + row) = false) ∧
    (t = true → (∀ a ∈ (s.core core).accs, a.ctx = e.ctx → ∀ q u, a.op = .load (.tileRow base q u) → a.id = e.id) →
      ∀ k, k < 16 → y.busyV.getLsbD (base + k) = false) ∧
    ∀ q j, q < 32 → j < 16 → (vget y.v q 0).extractLsb' (32 * j) 32 =
      if t = true ∧ j = row ∧ base ≤ q ∧ q < base + 16 then
        BitVec.ofNat 32 (leNat ((bs.drop (4 * ((row + (q - base)) % 16))).take 4))
      else if t = false ∧ q = base + row then BitVec.ofNat 32 (leNat ((bs.drop (4 * ((row + j) % 16))).take 4))
      else (vget x.v q 0).extractLsb' (32 * j) 32 := by
  dsimp only [delivered]
  rw [loadRow_eq]
  refine ⟨rfl, rfl, fun plain => ?_, fun transposed only k hk => ?_, fun q j hq hj => lane_row x.v t bs hq hj hr⟩
  · subst plain
    exact getLsbD_clear _ _
  · subst transposed
    dsimp only [rowDone]
    rw [if_pos rfl, lastRow_of_only only, if_pos rfl]
    exact getLsbD_clear_tile _ hk

/-! ### Storage -/

/-- The same bytes in memory and in every local memory. -/
structure SameBytes (s t : State) : Prop where
  mem : t.mem = s.mem
  lm : ∀ j, (t.core j).lm = (s.core j).lm

theorem SameBytes.trans (h : SameBytes s t) (k : SameBytes t u) : SameBytes s u :=
  ⟨k.mem.trans h.mem, fun j => (k.lm j).trans (h.lm j)⟩

theorem sameBytes_removeAccess (s : State) (core : Nat) (e : Access) : SameBytes s (removeAccess s core e) :=
  ⟨rfl, removeAccess_lm s core e⟩

theorem sameBytes_modCtx (s : State) (i k : Nat) (g : Context → Context) : SameBytes s (s.modCtx i k g) := ⟨rfl, modCtx_lm s i k g⟩

theorem sameBytes_covered (s : State) (die : Nat) (handoff : Bool) (l : Option Nat) : SameBytes s (s.covered die handoff l) := by
  unfold State.covered
  split
  · exact ⟨rfl, fun _ => rfl⟩
  · split
    · exact ⟨rfl, fun _ => rfl⟩
    · exact ⟨rfl, fun _ => rfl⟩

theorem covered_accs (s : State) (die : Nat) (handoff : Bool) (l : Option Nat) (j : Nat) :
    ((s.covered die handoff l).core j).accs = (s.core j).accs := by
  unfold State.covered
  split
  · rfl
  · split
    · rfl
    · rfl

/-- The bytes at a place at hand are `bs`, and no other byte of storage differs. -/
structure Stored (s t : State) (pl : Place) (bs : List Byte) : Prop where
  local_ : ∀ {c off}, pl = .lm c off → Memory.reads (t.core c).lm off bs.length = bs ∧ t.mem = s.mem ∧
    (∀ a, a < off ∨ off + bs.length ≤ a → Memory.read (t.core c).lm a = Memory.read (s.core c).lm a) ∧
    ∀ j, j ≠ c → (t.core j).lm = (s.core j).lm
  phys : ∀ {pa}, pl = .phys pa → Memory.reads t.mem pa bs.length = bs ∧
    (∀ a, a < pa ∨ pa + bs.length ≤ a → Memory.read t.mem a = Memory.read s.mem a) ∧ ∀ j, (t.core j).lm = (s.core j).lm

theorem Stored.after (same : SameBytes s t) (h : Stored t u pl bs) : Stored s u pl bs where
  local_ hp := by
    obtain ⟨back, mem, frame, others⟩ := h.local_ hp
    exact ⟨back, mem.trans same.mem, fun a ha => (frame a ha).trans (by rw [same.lm]), fun j hj => (others j hj).trans (same.lm j)⟩
  phys hp := by
    obtain ⟨back, frame, lms⟩ := h.phys hp
    exact ⟨back, fun a ha => (frame a ha).trans (by rw [same.mem]), fun j => (lms j).trans (same.lm j)⟩

theorem Stored.before (h : Stored s t pl bs) (same : SameBytes t u) : Stored s u pl bs where
  local_ hp := by
    obtain ⟨back, mem, frame, others⟩ := h.local_ hp
    exact ⟨by rw [same.lm, back], same.mem.trans mem, fun a ha => by rw [same.lm, frame a ha],
      fun j hj => (same.lm j).trans (others j hj)⟩
  phys hp := by
    obtain ⟨back, frame, lms⟩ := h.phys hp
    exact ⟨by rw [same.mem, back], fun a ha => by rw [same.mem, frame a ha], fun j => (same.lm j).trans (lms j)⟩

theorem AtHand.homeDie_ne (h : AtHand core (.phys pa)) : homeDie pa ≠ none := by
  cases h with
  | home h => simp [h]

theorem stored_writePlace (h : AtHand core pl) (s : State) (bs : List Byte) : Stored s (writePlace s pl bs) pl bs where
  local_ {c off} hp := by
    subst hp
    dsimp only [writePlace]
    rw [State.core_modCore_same]
    exact ⟨(writes_frame _ off bs).1, rfl, (writes_frame _ off bs).2, fun j hj => by rw [State.core_modCore_ne _ _ hj]⟩
  phys {pa} hp := by
    subst hp
    rw [writePlace_home h.homeDie_ne]
    exact ⟨(writes_frame _ pa bs).1, (writes_frame _ pa bs).2, fun _ => rfl⟩

/-- Where the bytes at the place are `bs` already, nothing need be written. -/
theorem stored_self (h : AtHand core pl) (s : State) {n : Nat} (hb : bs = readPlace s pl n) : Stored s s pl bs where
  local_ {c off} hp := by
    subst hp hb
    exact ⟨by rw [readPlace, Memory.reads_length], rfl, fun _ _ => rfl, fun _ _ => rfl⟩
  phys {pa} hp := by
    subst hp
    rw [readPlace_home n h.homeDie_ne] at hb
    subst hb
    exact ⟨by rw [Memory.reads_length], fun _ _ => rfl, fun _ => rfl⟩

/-- A write in storage changes nothing of a core but its local memory. -/
theorem writePlace_core {α : Type} {g : Core → α} (keep : ∀ (c : Core) (lm : Bytes), g { c with lm := lm } = g c) (h : AtHand core pl)
    (s : State) (bs : List Byte) (j : Nat) : g ((writePlace s pl bs).core j) = g (s.core j) := by
  cases h with
  | lm c off => exact core_modCore_eq (g := g) (f := fun k => { k with lm := Memory.writes k.lm off bs }) (fun k => keep k _) s c j
  | home hd => rw [writePlace_home (by simp [hd])]; rfl

/-! ### Stores (R212, R333) -/

/-- The bytes of a store at hand are put at its place, and the entries of the core stay. -/
theorem placeStore_atHand (s : State) (hand : AtHand core e.place) (bs : List Byte) :
    ((placeStore s core e bs).core core).accs = (s.core core).accs ∧ Stored s (placeStore s core e bs) e.place bs := by
  have accs := writePlace_core (g := Core.accs) (fun _ _ => rfl) hand s bs core
  have stored := stored_writePlace hand s bs
  unfold placeStore
  dsimp only
  rw [writeAs_atHand hand]
  generalize e.place = p at *
  generalize writePlace s p bs = w at *
  cases hand with
  | lm c off => exact ⟨(modCtx_accs w _ _ _ core).trans accs, stored.before (sameBytes_modCtx w _ _ _)⟩
  | home hd =>
    refine ⟨?_, stored.before ((sameBytes_covered w _ _ _).trans (sameBytes_modCtx _ _ _ _))⟩
    exact (modCtx_accs _ _ _ _ core).trans ((covered_accs w _ _ _ core).trans accs)

/-- A store performed. -/
theorem exec_store (h : Turn s e) {d : Nat} (op : e.op = .store d) (hand : AtHand s.input.core e.place) :
    ∃ t, exec .perform s = .next t ∧ (t.core s.input.core).accs = (s.core s.input.core).accs.filter (fun x => x.id ≠ e.id) ∧
      Stored s t e.place (natBytes e.len d) := by
  have store : performAccess s s.input.core e = performStore s s.input.core e d := by
    unfold performAccess
    rw [op]
  have placed : performStore s s.input.core e d =
      placeStore (removeAccess s s.input.core e) s.input.core (e.seen s s.input.core) (natBytes e.len d) := by
    unfold performStore
    rw [if_pos]
    simp only [h.may, cacheWaits_atHand hand, Bool.true_and, Bool.not_false, Bool.and_true]
    generalize e.place = p at hand
    cases hand with
    | lm c off => rfl
    | home hd => rfl
  obtain ⟨accs, stored⟩ := placeStore_atHand (e := e.seen s s.input.core) (removeAccess s s.input.core e) hand (natBytes e.len d)
  exact ⟨_, by rw [exec_perform h, store, placed], accs.trans (removeAccess_accs s _ e), stored.after (sameBytes_removeAccess s _ e)⟩

/-! ### Atomics (R196, R336 to R338) -/

/-- What an operation makes of the value at its place: it writes that, or what it makes is the value that stands there. -/
theorem atomicNew_gives {op w v cmp : Nat} {f : Nat → Nat} (hw : 0 < w) (old : Nat)
    (h : (op, f) ∈ [(0, fun x => (x + v) % 2 ^ (8 * w)), (1, fun x => x &&& v), (2, fun x => x ||| v), (3, fun x => x ^^^ v),
      (4, fun x => if (BitVec.ofNat (8 * w) v).toInt < (BitVec.ofNat (8 * w) x).toInt then v else x),
      (5, fun x => if (BitVec.ofNat (8 * w) x).toInt < (BitVec.ofNat (8 * w) v).toInt then v else x), (6, fun x => min x v),
      (7, fun x => max x v), (8, fun _ => v), (9, fun x => if x = cmp % 2 ^ (8 * w) then v else x), (10, fun x => (fadd32 x v).1)]) :
    atomicNew op w old v cmp = some (f old) ∨ atomicNew op w old v cmp = none ∧ f old = old := by
  have bits : 0 < 8 * w := by omega
  simp only [List.mem_cons, Prod.mk.injEq, List.not_mem_nil, or_false] at h
  rcases h with ⟨rfl, rfl⟩ | ⟨rfl, rfl⟩ | ⟨rfl, rfl⟩ | ⟨rfl, rfl⟩ | ⟨rfl, rfl⟩ | ⟨rfl, rfl⟩ | ⟨rfl, rfl⟩ | ⟨rfl, rfl⟩ | ⟨rfl, rfl⟩ |
    ⟨rfl, rfl⟩ | ⟨rfl, rfl⟩
  · exact .inl rfl
  · exact .inl rfl
  · exact .inl rfl
  · exact .inl rfl
  · exact .inl (by simp only [atomicNew, sext_toInt bits])
  · exact .inl (by simp only [atomicNew, sext_toInt bits])
  · exact .inl rfl
  · exact .inl rfl
  · exact .inl rfl
  · by_cases same : old = cmp % 2 ^ (8 * w)
    · exact .inl (by simp only [atomicNew, if_pos same])
    · exact .inr ⟨by simp only [atomicNew, if_neg same], if_neg same⟩
  · exact .inl rfl

theorem readPlace_atHand (h : AtHand core pl) (s : State) (n : Nat) : natBytes n (leNat (readPlace s pl n)) = readPlace s pl n := by
  cases h with
  | lm c off => exact natBytes_reads _ _ _
  | home hd =>
    rw [readPlace_home n (by simp [hd])]
    exact natBytes_reads _ _ _

/-- An atomic at hand takes the old value, leaves what its operation makes of it, and touches nothing else of any core. -/
theorem atomicAtHome_atHand (h : AtHand core pl) (s : State) {op w : Nat} {v cmp : DWord} {y : Nat}
    (gives : atomicNew op w (leNat (readPlace s pl w)) v.toNat cmp.toNat = some y ∨
      atomicNew op w (leNat (readPlace s pl w)) v.toNat cmp.toNat = none ∧ y = leNat (readPlace s pl w)) :
    ∃ t, atomicAtHome s pl op w v cmp = (leNat (readPlace s pl w), t) ∧ Stored s t pl (natBytes w y) ∧
      ∀ {α : Type} {g : Core → α}, (∀ (c : Core) (lm : Bytes), g { c with lm := lm } = g c) → ∀ j, g (t.core j) = g (s.core j) := by
  unfold atomicAtHome
  dsimp only
  rcases gives with writes | ⟨stays, same⟩
  · rw [writes]
    exact ⟨_, rfl, stored_writePlace h s _, fun keep j => writePlace_core keep h s _ j⟩
  · rw [stays]
    exact ⟨_, rfl, stored_self h s (by rw [same, readPlace_atHand h]), fun _ _ => rfl⟩

theorem releaseHolding_atHand (h : AtHand core e.place) (alone : e.joined = []) : releaseHolding s core e = s := by
  have none_ : releaseLine s core e.place = s := by
    unfold releaseLine
    have real : realPlace s e.place = e.place := by
      generalize e.place = p at h
      cases h with
      | lm c off => rfl
      | home hd => rfl
    rw [real, heldLine_atHand h]
  unfold releaseHolding
  rw [alone]
  by_cases g : core = ghost
  · simp [g]
  · simp [g, none_]

/-- What the destination of an atomic is given, where it has one. -/
def answered (n old : Nat) : Option Reg → Context → Context
  | none, c => c
  | some r, c => { c.setGpr r.toNat (BitVec.ofInt 64 (sext old (8 * n))) with busyS := c.busyS &&& ~~~(1#32 <<< r.toNat) }

theorem atomicDone_atHand (h : AtHand core e.place) (ctx : e.ctx < 11) (t : State) (ret : Option Reg) (old : Nat) :
    ((atomicDone t core e ret old).core core).accs = (t.core core).accs.filter (fun x => x.id ≠ e.id) ∧
    SameBytes t (atomicDone t core e ret old) ∧
    (atomicDone t core e ret old).ctx core e.ctx = answered e.len old ret (t.ctx core e.ctx) := by
  have here : e.isFabric = false := by
    unfold Access.isFabric
    generalize e.place = p at h
    cases h with
    | lm c off => rfl
    | home hd => rfl
  have gone := removeAccess_accs t core e
  have same := sameBytes_removeAccess t core e
  have regs := removeAccess_ctx t core e core e.ctx
  unfold atomicDone
  dsimp only
  rw [if_neg (by simp [here])]
  cases ret with
  | none => exact ⟨gone, same, regs⟩
  | some r =>
    dsimp only [produceReg]
    refine ⟨(modCtx_accs _ _ _ _ core).trans gone, same.trans (sameBytes_modCtx _ _ _ _), ?_⟩
    rw [State.ctx_modCtx_same _ core _ ctx, regs]
    rfl

/-- An atomic performed. -/
theorem exec_atomic (h : Turn s e) {op y : Nat} {v cmp : DWord} {ret : Option Reg} (hop : e.op = .atomic op v cmp ret)
    (alone : e.joined = []) (unmerged : mergedAway s s.input.core e = false) (hand : AtHand s.input.core e.place)
    (present : targetGone s e.place = false) (clean : s.poisoned e.place e.len = false)
    (gives : atomicNew op e.len (leNat (readPlace s e.place e.len)) v.toNat cmp.toNat = some y ∨
      atomicNew op e.len (leNat (readPlace s e.place e.len)) v.toNat cmp.toNat = none ∧ y = leNat (readPlace s e.place e.len)) :
    ∃ t, exec .perform s = .next t ∧ (t.core s.input.core).accs = (s.core s.input.core).accs.filter (fun x => x.id ≠ e.id) ∧
      Stored s t e.place (natBytes e.len y) ∧
      t.ctx s.input.core e.ctx = answered e.len (leNat (readPlace s e.place e.len)) ret (s.ctx s.input.core e.ctx) := by
  have real : foreignKind s e = e := by
    unfold foreignKind
    cases hp : e.place with
    | fabric k p va => rw [hp] at hand; cases hand
    | _ => rfl
  have atomic : performAccess s s.input.core e = performAtomic s s.input.core e op v cmp := by
    unfold performAccess
    rw [real, hop]
    dsimp only
    rw [if_neg (by simp [h.may, unmerged])]
    cases hp : e.place with
    | fabric k p va => rw [hp] at hand; cases hand
    | _ => rfl
  obtain ⟨u, taken, stored, cores⟩ := atomicAtHome_atHand hand s gives
  have performed : performAtomic s s.input.core e op v cmp = atomicDone u s.input.core e ret (leNat (readPlace s e.place e.len)) := by
    unfold performAtomic
    rw [if_neg (by simp [present]), if_neg (by simp [clean]), releaseHolding_atHand hand alone, taken]
    dsimp only
    unfold atomicAnswer Access.returns
    rw [alone, hop]
    rfl
  obtain ⟨accs, same, regs⟩ := atomicDone_atHand hand h.ctx u ret (leNat (readPlace s e.place e.len))
  refine ⟨_, by rw [exec_perform h, atomic, performed], ?_, stored.before same, ?_⟩
  · rw [accs, cores (g := Core.accs) (fun _ _ => rfl)]
  · rw [regs]
    exact congrArg _ (cores (g := fun c => c.context e.ctx) (fun _ _ => rfl) _)

theorem answered_some {n old : Nat} {r : Reg} {ret : Option Reg} (hn : 0 < n) (h : ret = some r) (nonzero : r ≠ 0) (x : Context) :
    (answered n old ret x).gpr r.toNat = (BitVec.ofNat (8 * n) old).signExtend 64 ∧
    (answered n old ret x).busyS.getLsbD r.toNat = false := by
  subst h
  have written : (answered n old (some r) x).gpr r.toNat = _ := Context.gpr_setGpr x r.toNat r.toNat _ r.isLt
  refine ⟨?_, getLsbD_clear _ _⟩
  rw [written, if_pos ⟨rfl, fun zero => nonzero (BitVec.eq_of_toNat_eq zero)⟩, ofInt_sext (by omega)]

/-! ### Counter additions (R203) -/

/-- The entries of a core that stay are among those it had. -/
structure Quiet (i : Nat) (s t : State) : Prop where
  bytes : SameBytes s t
  accs : ∀ x ∈ (t.core i).accs, x ∈ (s.core i).accs

theorem Quiet.trans {i : Nat} (h : Quiet i s t) (k : Quiet i t u) : Quiet i s u :=
  ⟨h.bytes.trans k.bytes, fun x hx => h.accs x (k.accs x hx)⟩

theorem quiet_endWait (s : State) (core ctx i : Nat) : Quiet i s (endWait s core ctx) where
  bytes := ⟨rfl, fun j => core_modCore_eq (g := Core.lm)
    (f := fun c => { c.modContext ctx (fun x => { x with cwait := none }) with
      accs := c.accs.filter (fun e => !(e.ctx = ctx && e.isWait)) })
    (fun _ => rfl) s core j⟩
  accs x hx := by
    unfold endWait at hx
    by_cases here : i = core
    · subst here
      rw [State.core_modCore_same] at hx
      exact (List.mem_filter.mp hx).1
    · rwa [State.core_modCore_ne _ _ here] at hx

theorem quiet_endWaits (l : List Waiter) (s : State) (i : Nat) : Quiet i s (l.foldl (fun s w => endWait s w.core w.ctx) s) := by
  induction l generalizing s with
  | nil => exact ⟨⟨rfl, fun _ => rfl⟩, fun _ hx => hx⟩
  | cons w l ih => exact (quiet_endWait s w.core w.ctx i).trans (ih _)

theorem quiet_counterReached (s : State) (slice key v i : Nat) : Quiet i s (counterReached s slice key v) := by
  unfold counterReached
  dsimp only
  split
  · exact ⟨⟨rfl, fun _ => rfl⟩, fun _ hx => hx⟩
  · obtain ⟨bytes, accs⟩ := quiet_endWaits
      ((tget s.waits slice WaitTable.reset).entries.filter (fun w => w.addr = key && w.target.toNat ≤ v)) _ i
    exact ⟨⟨bytes.mem, bytes.lm⟩, accs⟩

/-- What an addition writes, where it writes: the saturated sum stands at the counter, and no other byte of memory differs. -/
theorem counter_written (s : State) (h : homeDie pa ≠ none) (n : Nat) :
    ∃ m, (if n = 0 then s else writePlace s (.phys pa) (natBytes 8 (min (counterValue s (.phys pa) + n) (2 ^ 64 - 1)))) =
        { s with mem := m } ∧
      leNat (Memory.reads m pa 8) = min (leNat (Memory.reads s.mem pa 8) + n) (2 ^ 64 - 1) ∧
      ∀ a, a < pa ∨ pa + 8 ≤ a → Memory.read m a = Memory.read s.mem a := by
  have value : counterValue s (.phys pa) = leNat (Memory.reads s.mem pa 8) := by rw [counterValue, readPlace_home 8 h]
  have below := leNat_lt (Memory.reads s.mem pa 8)
  rw [Memory.reads_length] at below
  rw [value]
  generalize hold : leNat (Memory.reads s.mem pa 8) = old at below ⊢
  by_cases zero : n = 0
  · rw [if_pos zero]
    exact ⟨s.mem, rfl, by omega, fun _ _ => rfl⟩
  · obtain ⟨back, frame⟩ := writes_frame s.mem pa (natBytes 8 (min (old + n) (2 ^ 64 - 1)))
    rw [natBytes_length] at back frame
    rw [if_neg zero, writePlace_home h]
    exact ⟨_, rfl, by rw [back, leNat_natBytes]; omega, frame⟩

/-- A counter addition performed. -/
theorem exec_cadd (h : Turn s e) {n : DWord} (op : e.op = .cadd n) (hp : e.place = .phys pa) (home : homeDie pa ≠ none)
    (clean : s.poisoned (.phys pa) 8 = false) :
    ∃ t, exec .perform s = .next t ∧ (∀ x ∈ (t.core s.input.core).accs, x.id ≠ e.id) ∧
      leNat (Memory.reads t.mem pa 8) = min (leNat (Memory.reads s.mem pa 8) + n.toNat) (2 ^ 64 - 1) ∧
      (∀ a, a < pa ∨ pa + 8 ≤ a → Memory.read t.mem a = Memory.read s.mem a) ∧ ∀ j, (t.core j).lm = (s.core j).lm := by
  have added : performAccess s s.input.core e = counterAdd (removeAccess s s.input.core e) (.phys pa) n.toNat := by
    have real : foreignKind s e = e := by
      unfold foreignKind
      rw [hp]
    unfold performAccess
    rw [real, op]
    dsimp only
    rw [if_pos h.may, performCadd, hp, if_neg (by simp [clean])]
  have gone : ∀ x ∈ ((removeAccess s s.input.core e).core s.input.core).accs, x.id ≠ e.id := by
    rw [removeAccess_accs]
    exact fun x hx => of_decide_eq_true (List.mem_filter.mp hx).2
  have same := sameBytes_removeAccess s s.input.core e
  rw [exec_perform h, added]
  generalize removeAccess s s.input.core e = u at gone same
  obtain ⟨m, written, sum, frame⟩ := counter_written u home n.toNat
  rw [same.mem] at sum frame
  unfold counterAdd
  dsimp only
  rw [written]
  obtain ⟨bytes, accs⟩ := quiet_counterReached { u with mem := m } (counterSlice { u with mem := m } (.phys pa)) (counterKey (.phys pa))
    (min (counterValue u (.phys pa) + n.toNat) (2 ^ 64 - 1)) s.input.core
  refine ⟨_, rfl, fun x hx => gone x (accs x hx), ?_, fun a ha => ?_, fun j => (bytes.lm j).trans (same.lm j)⟩
  · rw [bytes.mem]
    exact sum
  · rw [bytes.mem]
    exact frame a ha

/-! ### Accesses at hand -/

/-- An entry in a local memory, or on an unpoisoned place at home. -/
theorem read_atHand (s : State) {old : List Byte}
    (h : e.place = .lm c off ∧ old = Memory.reads (s.core c).lm off e.len ∨
      e.place = .phys pa ∧ (homeDie pa = some (dieOf core) ∧ s.poisoned (.phys pa) e.len = false) ∧ old = Memory.reads s.mem pa e.len) :
    AtHand core e.place ∧ s.poisoned e.place e.len = false ∧ readPlace s e.place e.len = old := by
  rcases h with ⟨hp, rfl⟩ | ⟨hp, ⟨hd, clean⟩, rfl⟩
  · rw [hp]
    exact ⟨.lm c off, rfl, rfl⟩
  · rw [hp]
    exact ⟨.home hd, clean, readPlace_home _ (by simp [hd])⟩

/-- A load performed. -/
theorem load_leaves (h : Turn s e) (op : e.op = .load dst) (hand : AtHand s.input.core e.place) (clean : s.poisoned e.place e.len = false) :
    ∃ t, exec .perform s = .next t ∧ (t.core s.input.core).accs = (s.core s.input.core).accs.filter (fun x => x.id ≠ e.id) ∧
      SameBytes s t ∧
      t.ctx s.input.core e.ctx = delivered s s.input.core e dst (readPlace s e.place e.len) (s.ctx s.input.core e.ctx) :=
  ⟨_, by rw [exec_load h op hand clean, finishLoad_eq], given_accs s _ e _, ⟨rfl, given_lm s _ e _⟩, given_ctx h.ctx s _⟩

end

/-- Settles O38: an access at hand is read and written in its own place, its context is given what it produces, and its entry leaves;
for an atomic by what its operation makes of the old value, and for an addition by the saturated sum. -/
theorem perform : Obligations.Perform := by
  unfold Obligations.Perform
  intro s e c off pa core gone home local' atHome value found may ctx pos plain
  have turn : Turn s e := ⟨found, may, ctx, pos, plain⟩
  refine ⟨fun dst bs op place => ?_, fun d op hp => ?_, fun d op hp hd => ?_,
    fun op v cmp ret old f hop alone unmerged place mem => ?_, fun n op hp hd clean => ?_⟩
  · obtain ⟨hand, clean, read⟩ := read_atHand s place
    obtain ⟨t, run, accs, same, regs⟩ := load_leaves turn op hand clean
    rw [read] at regs
    obtain ⟨m, pc, status⟩ := delivered_keeps (s := s) (core := core) (e := e) (bs := bs) (dst := dst) (s.ctx core e.ctx)
    refine ⟨t, run, accs, same.mem, same.lm, ?_⟩
    rw [regs]
    refine ⟨m, pc, status, ?_⟩
    cases dst with
    | scalar r signed => exact delivered_scalar _ r signed pos
    | xreg r => exact delivered_xreg _ r
    | vector r => exact delivered_vector _ r
    | tileRow base row tr => exact fun _ _ hr => delivered_tileRow _ tr hr
  · obtain ⟨t, run, accs, stored⟩ := exec_store turn op (hp ▸ .lm c off)
    obtain ⟨back, mem, frame, others⟩ := stored.local_ hp
    rw [natBytes_length] at back frame
    exact ⟨t, run, accs, mem, back, frame, others⟩
  · obtain ⟨t, run, accs, stored⟩ := exec_store turn op (hp ▸ .home hd)
    obtain ⟨back, frame, lms⟩ := stored.phys hp
    rw [natBytes_length] at back frame
    exact ⟨t, run, accs, back, frame, lms⟩
  · obtain ⟨bs, rfl, hand, clean, read, present⟩ : ∃ bs, old = leNat bs ∧ AtHand core e.place ∧ s.poisoned e.place e.len = false ∧
        readPlace s e.place e.len = bs ∧ targetGone s e.place = false := by
      rcases place with ⟨hp, rfl⟩ | ⟨hp, hh, present, rfl⟩
      · obtain ⟨hand, clean, read⟩ := read_atHand (core := core) (pa := pa) s (.inl ⟨hp, rfl⟩)
        exact ⟨_, rfl, hand, clean, read, by rw [hp]; rfl⟩
      · obtain ⟨hand, clean, read⟩ := read_atHand (c := c) (off := off) s (.inr ⟨hp, hh, rfl⟩)
        exact ⟨_, rfl, hand, clean, read, by rw [hp]; exact present⟩
    have gives := atomicNew_gives pos (leNat bs) mem
    obtain ⟨t, run, accs, stored, regs⟩ := exec_atomic (y := f (leNat bs)) turn hop alone unmerged hand present clean (by rwa [read])
    rw [read] at regs
    have back := natBytes_length e.len (f (leNat bs))
    refine ⟨t, run, accs, fun r hr nonzero => ?_, fun hr => ?_, fun hp => ?_, fun hp => ?_⟩
    · rw [regs]
      exact answered_some pos hr nonzero _
    · rw [regs, hr]
      rfl
    · have here := stored.local_ hp
      rwa [back] at here
    · have here := stored.phys hp
      rwa [back] at here
  · exact exec_cadd turn op hp hd clean

end Sys2Proof.Machine
